-- ==== Sys2Proof/Word.lean ====
section
/-! DEFINITION. The word types of the Taloft 3: bytes, 32-bit words, 64-bit pairs (R2, R57). -/

namespace Sys2Proof

/-- One byte of any memory space. -/
abbrev Byte := BitVec 8
/-- One register or instruction word (R2). -/
abbrev Word := BitVec 32
/-- A 64-bit value held in a register pair (R57). -/
abbrev Dword := BitVec 64
/-- A 7-bit register field (R39). -/
abbrev Reg := BitVec 7

end Sys2Proof
end

