-- ==== Sys2Proof/Syntax.lean ====
section
/-! DEFINITION. The steps of the Taloft 3 as one inductive type: one constructor for each row of
spec/opcode_table.json. The 149 instruction words come with the fields of their rows (R37, R47 to R51);
the 92 device steps come with the data that the manual leaves to the outside or to the device's choice. -/

namespace Sys2Proof

/-- What formats T, I and M share: the stop bit S (R42) and the guard number G (R41). -/
structure Hdr where
  stop  : Bool
  guard : BitVec 2
  deriving DecidableEq, Repr, Inhabited

/-- Where an uncorrectable error strikes (R364). -/
inductive Storage where
  | liveValue (team tid reg : Nat)
  | l1Line (mast ctx view sector : Nat)
  | icacheLine (mast ctx line : Nat)
  | samplerLine (mast ctx slot : Nat)
  | tlbEntry (ctx page : Nat)
  | l2Clean (pa : Nat)
  | l2Dirty (pa : Nat)
  | l2Version (ctx tag block sector : Nat)
  | deckSector (team off : Nat)
  | planeSector (team off : Nat)
  | accumElem (team tile elem : Nat)
  | hbm (pa : Nat)
  | contextSram (ctx : Nat)
  deriving DecidableEq, Repr, Inhabited

/-- What a peer does at this owner's home slice: a read, a write, or an atomic with its OP and TYPE codes (R253, R324). -/
inductive PeerOp where
  | read
  | write
  | atomic (op ty : Nat)
  deriving DecidableEq, Repr, Inhabited

/-- One step of the device: an instruction word or a device step of spec/opcode_table.json. -/
inductive Instr where
  -- Device steps: start (R86 to R90)
  | moduleReset
  | selfTestDone
  | imageLen (v : Word)
  | verifyDone
  | startGo (v : Word)
  -- Device steps: commands (R94); lo is the value written to CMD_LO
  | contextCreate (lo : Word)
  | contextDestroy (lo : Word)
  | contextDestroyComplete
  | queueCreate (lo : Word)
  | queueDestroy (lo : Word)
  | queueResume (lo : Word)
  | setFloors (lo : Word)
  | attest (lo : Word)
  | setSaveArea (lo : Word)
  -- Device steps: window registers
  | wake (q : Nat) (v : Word)
  | hoGoToHost (q : Nat) (v : Word)
  | hoGoToDevice (q : Nat) (v : Word)
  | handoverComplete (id : Nat)
  | tlbiGo (v : Word)
  | tlbiAll (v : Word)
  | tlbiComplete
  | learn (v : Word)
  | learnComplete
  | load (v : Word)
  | loadComplete
  | recode (v : Word)
  | recodeComplete
  | retry (ctx : Nat) (v : Word)
  | abort (ctx : Nat) (v : Word)
  | registerWrite (off : Nat) (v : Word)
  -- Device steps: packets (R93, R101 to R110); p names a packet that a packet core has read
  | packetCoreScan (q : Nat)
  | mappingRound (unmap : List Nat)
  | nopPacket (p : Nat)
  | dispatch (p : Nat)
  | draw (p : Nat)
  | copyLinear (p : Nat)
  | copyFill (p : Nat)
  | copyTwoD (p : Nat)
  | copyEngineDone (p : Nat) (done : Nat)
  | signalPacketWrite (p : Nat)
  | signalPacketAdd (p : Nat)
  | wait (p : Nat)
  | waitPoll (p : Nat)
  | waitTimeout (p : Nat)
  | handoverToHost (p : Nat)
  | handoverToDevice (p : Nat)
  | encode (p : Nat)
  | hypresConfirm (p : Nat)
  | hypresRefute (p : Nat)
  | packetComplete (p : Nat)
  -- Device steps: placement and the draw path
  | admissionStep
  | rasterPixelTeam (launch : Nat)
  | rasterQuadTimeout (launch : Nat)
  | outputMerge (launch : Nat)
  | encodeFrameEnd (engine stream : Nat)
  -- Device steps: the block sequencer
  | packForm (mast pipe : Nat)
  | binGatherExpiry (team block : Nat)
  | binAgeExpiry (team block : Nat)
  | rallyTimeout (team block warp : Nat)
  | icacheFill (team block : Nat)
  | pipeIssue (mast pipe : Nat)
  | blockResolve (pack : Nat)
  | resultLand (team tid k : Nat)
  | pauseExpiry (team tid : Nat)
  | copyComplete (id : Nat)
  | mxPassStart (mast : Nat)
  | mxOpComplete (mast id : Nat)
  | smmaArrayGrant (mast : Nat)
  | samplerFillLand (mast k : Nat)
  | hinvComplete (id : Nat)
  | atombFlushComplete (id : Nat) (order : List Nat)
  | epochClose (team : Nat)
  | acqrComplete (id : Nat)
  | resolveComplete (id : Nat)
  | scrubberStart (ctx hyp : Nat)
  | scrubBlock (ctx k : Nat)
  | l2Replace (pa : Nat)
  | hostWindowAccess (write : Bool) (addr len : Nat) (data : List Byte)
  | peerAccess (op : PeerOp) (port addr len : Nat) (data : List Byte)
  | peerTimeout (port : Nat)
  -- Device steps: the end of work, interruption, errors
  | teamRetire (team : Nat)
  | launchFinish (launch : Nat)
  | watchdogExpiry (launch : Nat)
  | powerSample (module : Nat) (watts : List (Nat × Nat))
  | preemptRequest (team : Nat) (resolve : List Nat)
  | teamSave (team : Nat)
  | teamSwap (team : Nat)
  | teamRestore (team : Nat)
  | eccCorrected
  | eccUncorrectable (at_ : Storage)
  -- SYS (R47, R366 to R370)
  | nop (h : Hdr)
  | trap (h : Hdr) (n : BitVec 7)
  | bkpt (h : Hdr) (n : BitVec 7)
  | ctxr (h : Hdr) (d : Reg) (n : BitVec 7)
  | ctxw (h : Hdr) (n : BitVec 7) (a : Reg)
  | clkCyc (h : Hdr) (d : Reg)
  | clkNs (h : Hdr) (d : Reg)
  | signal (h : Hdr) (a b : Reg)
  | modw (rm : BitVec 2) (alt : Bool) (fill nf : BitVec 2)
  -- CTRL (R182 to R185): S is always 1 and no guard is held
  | bra (p : BitVec 3) (off : BitVec 19)
  | braNot (p : BitVec 3) (off : BitVec 19)
  | jmp (off : BitVec 19)
  | call (d a : Reg)
  | jmpi (a : Reg)
  | ret (a : Reg)
  | exit
  -- RALLY (R186 to R188)
  | rally (h : Hdr) (m : BitVec 3) (t : BitVec 7)
  | mjoin (h : Hdr) (m : BitVec 3)
  | mclr (h : Hdr) (m : BitVec 3)
  | mset (h : Hdr) (m : BitVec 3) (a : Reg)
  | mget (h : Hdr) (d : Reg) (m : BitVec 3)
  | bar (g : BitVec 2) (n : BitVec 4) (a : Reg) (pl : BitVec 3)
  | bararr (h : Hdr) (n : BitVec 4) (a : Reg)
  | barwt (g : BitVec 2) (n : BitVec 4)
  -- LANE (R190 to R195)
  | vote (h : Hdr) (kind : BitVec 2) (d : Reg) (p : BitVec 3)
  | red (h : Hdr) (op : BitVec 3) (ty : BitVec 2) (d a : Reg) (pe : BitVec 2)
  | scan (h : Hdr) (op : BitVec 3) (ty : BitVec 2) (excl : Bool) (d a : Reg)
  | xlane (h : Hdr) (kind : BitVec 2) (d a : Reg) (n : BitVec 5)
  | perm (h : Hdr) (d a b : Reg)
  | bcast (h : Hdr) (d a : Reg) (n : BitVec 5)
  | patld (h : Hdr) (d a b : Reg)
  -- WORK (R197 to R201, R229)
  | tilef (h : Hdr) (d : Reg) (px : BitVec 3)
  | win (h : Hdr) (n : BitVec 4)
  | pause (g : BitVec 2) (n : BitVec 7)
  | shape (h : Hdr) (d : Reg) (a : BitVec 7)
  | rngLo (h : Hdr) (d a b : Reg)
  | rngsLo (h : Hdr) (d : Reg)
  | rngsHi (h : Hdr) (d : Reg)
  | rngHi (h : Hdr) (d a b : Reg)
  -- IALU (R205)
  | add (h : Hdr) (d a b : Reg)
  | sub (h : Hdr) (d a b : Reg)
  | mulLo (h : Hdr) (d a b : Reg)
  | mulHi (h : Hdr) (d a b : Reg)
  | min (h : Hdr) (d a b : Reg)
  | max (h : Hdr) (d a b : Reg)
  | absd (h : Hdr) (d a b : Reg)
  | neg (h : Hdr) (d a : Reg)
  -- ILOG (R206)
  | and (h : Hdr) (d a b : Reg)
  | or (h : Hdr) (d a b : Reg)
  | xor (h : Hdr) (d a b : Reg)
  | andn (h : Hdr) (d a b : Reg)
  | shl (h : Hdr) (d a b : Reg)
  | shr (h : Hdr) (d a b : Reg)
  | shra (h : Hdr) (d a b : Reg)
  | rot (h : Hdr) (d a b : Reg)
  -- IBIT (R207 to R209)
  | bfe (h : Hdr) (d a b : Reg)
  | bfi (h : Hdr) (d a b : Reg)
  | popc (h : Hdr) (d a : Reg)
  | clz (h : Hdr) (d a : Reg)
  | brev (h : Hdr) (d a : Reg)
  | div (h : Hdr) (d a b : Reg)
  | rem (h : Hdr) (d a b : Reg)
  -- IMAD (R210)
  | mad (h : Hdr) (d a b : Reg)
  | madh (h : Hdr) (d a b : Reg)
  | add64 (h : Hdr) (d a b : Reg)
  | sub64 (h : Hdr) (d a b : Reg)
  | addc (h : Hdr) (d a b : Reg)
  | subb (h : Hdr) (d a b : Reg)
  -- ICMP (R211), immediates (R212, R213)
  | icmp (h : Hdr) (cmp : BitVec 3) (pd pc : BitVec 3) (orr : Bool) (a b : Reg)
  | addi (h : Hdr) (d a : Reg) (imm : BitVec 10)
  | andi (h : Hdr) (d a : Reg) (imm : BitVec 7)
  | ori (h : Hdr) (d a : Reg) (imm : BitVec 7)
  | xori (h : Hdr) (d a : Reg) (imm : BitVec 7)
  | shli (h : Hdr) (d a : Reg) (imm : BitVec 6)
  | shri (h : Hdr) (d a : Reg) (imm : BitVec 6)
  | shrai (h : Hdr) (d a : Reg) (imm : BitVec 6)
  | roti (h : Hdr) (d a : Reg) (imm : BitVec 6)
  | movlLo (stop : Bool) (d : Reg) (imm : BitVec 16)
  | movlHi (stop : Bool) (d : Reg) (imm : BitVec 16)
  -- PRED (R214, R215); in sel the guard number of the header names the selector
  | pand (h : Hdr) (pd pa pb : BitVec 3)
  | por (h : Hdr) (pd pa pb : BitVec 3)
  | pxor (h : Hdr) (pd pa pb : BitVec 3)
  | pnot (h : Hdr) (pd pa : BitVec 3)
  | sel (h : Hdr) (d a b : Reg)
  | movp (h : Hdr) (d : Reg) (pa : BitVec 3)
  | pset (h : Hdr) (pd : BitVec 3) (a : Reg)
  -- FALU, FFMA, FSFU (R216 to R223)
  | fadd (h : Hdr) (d a b : Reg)
  | fsub (h : Hdr) (d a b : Reg)
  | fmul (h : Hdr) (d a b : Reg)
  | fmin (h : Hdr) (d a b : Reg)
  | fmax (h : Hdr) (d a b : Reg)
  | fcmp (h : Hdr) (cmp pd : BitVec 3) (a b : Reg)
  | ffma (h : Hdr) (d a b : Reg)
  | ffms (h : Hdr) (d a b : Reg)
  | fnma (h : Hdr) (d a b : Reg)
  | pkfma (h : Hdr) (d a b : Reg)
  | frcp (h : Hdr) (d a : Reg)
  | frsq (h : Hdr) (d a : Reg)
  | fsqrt (h : Hdr) (d a : Reg)
  | fexp2 (h : Hdr) (d a : Reg)
  | flog2 (h : Hdr) (d a : Reg)
  | fsin (h : Hdr) (d a : Reg)
  | fcos (h : Hdr) (d a : Reg)
  | frnd (h : Hdr) (d a : Reg) (mode : BitVec 2)
  -- CVT, PACK (R220, R224 to R228)
  | cvt (h : Hdr) (src : BitVec 3) (d a : Reg) (dst : BitVec 5) (mode : BitVec 2)
  | pkadd (h : Hdr) (d a b : Reg)
  | pkmul (h : Hdr) (d a b : Reg)
  | spk (h : Hdr) (d a : Reg)
  | cvtbd (h : Hdr) (d a b : Reg)
  -- LD, ST, DECK (R258 to R260)
  | ld (h : Hdr) (w : BitVec 3) (d a : Reg) (off : BitVec 7)
  | st (h : Hdr) (w : BitVec 3) (d a : Reg) (off : BitVec 7)
  | ldd (h : Hdr) (w : BitVec 2) (d a : Reg) (off : BitVec 7)
  | std (h : Hdr) (w : BitVec 2) (d a : Reg) (off : BitVec 7)
  -- ASYNC (R262 to R273)
  | cpAsync (h : Hdr) (d a : Reg) (tag : BitVec 2) (keep : Bool)
  | cpPlane (h : Hdr) (d a : Reg) (tag : BitVec 2) (keep : Bool)
  | cpOut (h : Hdr) (d a : Reg) (tag : BitVec 2)
  | tagwait (g : BitVec 2) (k : BitVec 2) (n : BitVec 5)
  | tagget (h : Hdr) (d : Reg) (k : BitVec 2)
  | pref (h : Hdr) (a : Reg) (off : BitVec 7)
  | accrd (h : Hdr) (d a : Reg) (t : BitVec 4) (fmt : BitVec 3)
  | accwr (h : Hdr) (d a : Reg) (t : BitVec 4) (fmt : BitVec 3)
  -- ATOM, SYNC (R322 to R330)
  | atom (h : Hdr) (op : BitVec 3) (d a : Reg) (ty sc : BitVec 2) (ret : Bool)
  | atomb (h : Hdr) (op : BitVec 3) (d a : Reg) (ty sc : BitVec 2)
  | fence (h : Hdr) (sc kind : BitVec 2)
  | ldacq (h : Hdr) (d a : Reg) (sc : BitVec 2) (b64 : Bool)
  | strel (h : Hdr) (d a : Reg) (sc : BitVec 2) (b64 : Bool)
  | acqr (h : Hdr) (a : Reg)
  | aflush (h : Hdr)
  -- SAMP (R287 to R294)
  | sample (h : Hdr) (d a : Reg) (slot : BitVec 7)
  | sampleg (h : Hdr) (d a : Reg) (slot : BitVec 7)
  | sload (h : Hdr) (d a : Reg) (slot : BitVec 7)
  | hinv (h : Hdr) (slot : BitVec 7)
  | wpin (h : Hdr) (slot : BitVec 7)
  | wunpin (h : Hdr) (slot : BitVec 7)
  | smma (h : Hdr) (d a f : Reg)
  -- MX (R302 to R304)
  | mxIssue (h : Hdr) (a : Reg)
  | mxZero (h : Hdr) (t : BitVec 4) (k : BitVec 2)
  -- HYP (R343 to R345)
  | hopen (h : Hdr) (d : Reg) (pf : BitVec 3)
  | hset (h : Hdr) (a : Reg)
  | hget (h : Hdr) (d : Reg)
  | hconfirm (h : Hdr) (a : Reg)
  | hrefute (h : Hdr) (a : Reg)
  | hstate (h : Hdr) (d a : Reg)
  | horphan (h : Hdr) (a : Reg)
  -- GFX (R134 to R138)
  | taskout (h : Hdr) (a c : Reg)
  | vtxout (h : Hdr) (a : Reg) (slot : BitVec 6)
  | primout (h : Hdr) (a : Reg)
  | pixout (h : Hdr) (a : Reg) (t : BitVec 3)
  | kill (h : Hdr)
  -- Device steps of the last two rows of the table
  | cmdLo (lo : Word)
  | beadGoOpNone (v : Word)
  deriving DecidableEq, Repr, Inhabited

end Sys2Proof
end

