-- ==== Sys2Proof/Config.lean ====
section
/-! DEFINITION. What one part or one occasion fixes and the manual leaves open: constants without a body,
so that no proof can use a value of theirs, and the figures of R10 and R233 that the manual does state. -/

namespace Sys2Proof.Config

/-- One due step of the free schedule: the nanoseconds that pass, then the step (log entry 2). -/
opaque schedule : Nat → Nat × Instr

/-- Free natural numbers, one for each choice that a "may" or "one of" leaves to the device (log entry 3). -/
opaque freeNat : Nat → Nat

/-- The queues that a mapping round unmaps beside those whose slots waiting queues need, for one value of the free counter (R113; log
entry 86). -/
opaque unmaps : Nat → List Nat

/-- Whether a translation that a TLB holds is used, and whether an L1 line is still there, at one moment (the free counter) for
one page or sector: replacement is the device's (log entries 15 and 16). -/
opaque tlbKeep : Nat → Nat → Bool
opaque l1Keep : Nat → Nat → Bool

/-- Whether a copy in flight, named by its identity, writes one of its destination bytes at one moment (the free counter; R270, log
entry 18). -/
opaque copyWrites : Nat → Nat → Nat → Bool

/-- The set of a home slice that a line falls into, before reduction by the number of sets (log entry 80). -/
opaque l2Set : Nat → Nat

/-- The three signature hashes of R237 on the number of a 64-byte block (log entry 5). -/
opaque sigHash1 : Nat → BitVec 12
opaque sigHash2 : Nat → BitVec 12
opaque sigHash3 : Nat → BitVec 12

/-- SHA-384 of R87, the signature checks of R87 and the device signature of R91 (log entry 7). -/
opaque sha384 : List Byte → List Byte
opaque rsaVerifies : List Byte → List Byte → Bool
opaque slhVerifies : List Byte → List Byte → Bool
opaque deviceSign : List Byte → List Byte
/-- The fuses of one part (R86, R91; log entry 7). -/
opaque fuseMinVersion : Nat
opaque fuseDeviceId : List Byte

/-- The 4:2:0 samples of a chroma component of a frame, from its width, its height and the exact component of every pixel in tile
order, as a numerator; where the samples lie and how they round the manual leaves open (R379; log entry 91). -/
opaque chroma420 : Nat → Nat → List Int → List Nat
/-- The bitstream of one frame: a function of the engine's parameters, the stream history and the samples (R379; log entry 8). -/
opaque encodeFrame : List Nat → List (List Nat) → List Nat → List Byte

/-- The code lengths that a LEARN chooses from its counts (R245; log entry 9). -/
opaque learnLengths : List Nat → List Nat

/-- Masts of the device (R10). -/
def masts : Nat := 192
/-- First physical address above local HBM (R233). -/
def hbmEnd : Nat := 0x59682F0000
/-- First physical address of host memory (R233). -/
def hostBase : Nat := 0x8000000000000
/-- First address above the physical map (R233). -/
def physEnd : Nat := 0x10000000000000
/-- The features that the PXL-3192 offers: bits 0 to 12 (R90). -/
def featOffer : Nat := 0x1FFF
/-- Home slices (R235). -/
def slices : Nat := 48

end Sys2Proof.Config
end

