-- ==== Sys2Proof/Machine/State.lean ====
section
/-! DEFINITION. The state of the Taloft 3 as plain data: everything that the manual gives the device, and the
few fields of the model's own that INVENTORY.md lists as such. Lists stand for what is present; what is absent
from a sparse list has the value that its docstring names. -/

namespace Sys2Proof.Machine

/-- Outcomes in which the machine stops. The manual states every outcome of every step (R4), so the one
constructor is raised by no instruction's meaning. -/
inductive Fault where
  /-- Raised by `step` when a pack is issued whose team the state does not hold: no run reaches it, since a team
  leaves only with its packs. Safe: the machine stops where a real device has no such state. -/
  | strayPack
  deriving DecidableEq, Repr

/-- Refusals. -/
inductive Refusal where
  /-- An arm of `exec` that has no meaning yet. Safe: the machine stops. -/
  | notModelled (mnemonic : String)
  /-- Raised by the meaning of an instruction word when no pipe has issued it (`issue` is empty): an instruction acts
  on a pack and there is none. `step` never does so. Safe: the machine stops. -/
  | noPackIssued
  deriving DecidableEq, Repr

/-! ### Start, commands, window registers -/

/-- START_STATUS (R86, R89). -/
inductive StartState where
  | reset | awaitImage | verifying | awaitAccept | running | failed
  deriving DecidableEq, Repr

/-- What the firmware cores keep of the verified image (R88, R91). -/
structure Firmware where
  version : Nat
  rsaSig  : List Byte
  slhSig  : List Byte
  digest  : List Byte
  deriving DecidableEq, Repr

/-- The start registers (R89). -/
structure Start where
  st         : StartState
  fail       : Nat
  imageLen   : Word
  featAccept : BitVec 256
  fw         : Option Firmware
  deriving DecidableEq, Repr

/-- The command registers (R94) and the context that a CONTEXT_DESTROY is tearing down (R95). -/
structure Cmd where
  hi         : Word
  busy       : Bool
  lost       : Bool
  result     : BitVec 8
  destroying : Option Nat
  deriving DecidableEq, Repr

/-- The invalidation registers (R126). `job` is the invalidation in progress: context, base and extent; BUSY is its presence. -/
structure Tlbi where
  addr : Dword
  ctx  : BitVec 4
  all  : Bool
  size : BitVec 3
  job  : Option (Nat × Nat × Nat)
  deriving DecidableEq, Repr

/-- A cached leaf translation: context, virtual base and extent, leaf entry (R125, R126). -/
structure TlbEntry where
  ctx   : Nat
  va    : Nat
  bytes : Nat
  leaf  : Dword
  deriving DecidableEq, Repr

/-- State of a bead-table slot (R243). -/
inductive SlotState where
  | empty | learning | frozen
  deriving DecidableEq, Repr

/-- A slot of the bead table (R243): its state and its 256 code lengths (absent: all 0). -/
structure BeadSlot where
  st   : SlotState
  lens : List Nat
  deriving DecidableEq, Repr

/-- A bead-table command in progress (R244), with the register values it started with: LEARN with the blocks still to count,
LOAD with its source, RECODE with its range. -/
inductive BeadJob where
  | learn (slot left : Nat) (adopt : Bool)
  | load (slot addr : Nat) (adopt : Bool)
  | recode (slot addr len : Nat)
  deriving DecidableEq, Repr

/-- The bead table and its registers (R243). -/
structure Bead where
  slot    : BitVec 2
  op      : BitVec 2
  adopt   : Bool
  cur     : BitVec 2
  samples : BitVec 16
  result  : BitVec 8
  addr    : Dword
  len     : Dword
  slots   : List BeadSlot
  job     : Option BeadJob
  hist    : List Nat
  deriving DecidableEq, Repr

/-- Where one byte of a context's virtual space lies (R124, R233): the physical address, whether its page is compressed and
lies in local HBM (R240), and the peer port of a PEER page. -/
structure Loc where
  pa   : Nat
  comp : Bool
  port : Option Nat
  deriving DecidableEq, Repr, Inhabited

/-! ### Contexts and hypotheses -/

/-- STATE of a reckoning entry (R332). -/
inductive HypState where
  | free | opened | merged | refuted | scrubbing
  deriving DecidableEq, Repr

/-- A reckoning entry (R332). LINES and HOLDS are computed from the versions and the holders (R335, R340). -/
structure HypEntry where
  st     : HypState
  parent : Nat
  link   : Nat
  depth  : Nat
  deriving DecidableEq, Repr

/-- A version block (R339): 64 bytes at a physical block address, tagged; `cells` holds the bytes written, by offset. `comp`
says that the page is compressed, so that the bytes are those of the decoded block. -/
structure Version where
  tag    : Nat
  block  : Nat
  comp   : Bool
  cells  : List (Nat × Byte)
  poison : List Nat
  deriving DecidableEq, Repr

/-- What a context's fault registers keep of the last launch fault (R353). -/
structure CtxFault where
  lfault : Bool
  lcode  : BitVec 8
  words  : List Word
  deriving DecidableEq, Repr, Inhabited

/-- A resident context (R96, R288, R332, R353, R360). In `hyps` an absent ID is FREE. `fvas` lists the pages of faults not yet
retried, earliest first. -/
structure Ctx where
  num        : Nat
  ptRoot     : Nat
  coreSet    : Nat
  hypOvf     : Nat
  hypOvfSize : Nat
  l2Share    : Nat
  hypShare   : Nat
  encMask    : Nat
  powerCap   : Nat
  watchdog   : Nat
  saveArea   : Option (Nat × Nat)
  hyps       : List (Nat × HypEntry)
  versions   : List Version
  headerGen  : List (Nat × BitVec 16)
  fvas       : List Nat
  deriving DecidableEq, Repr, Inhabited

/-! ### Queues and packets -/

/-- What a kick page keeps beside its queue: the handover registers (R248) and DEADLINE_MISS (R98). -/
structure Handover where
  addr  : Dword
  bytes : Dword
  dir   : Bool
  busy  : Bool
  err   : Bool
  cause : BitVec 8
  miss  : Bool
  deriving DecidableEq, Repr, Inhabited

/-- A queue that is not DISABLED (R97 to R100). `rounds` counts the whole mapping rounds for which it has been mapped; `due` is the
time by which it must be mapped, while it is unmapped and has work (R113). -/
structure Queue where
  num          : Nat
  ring         : Nat
  size         : Nat
  cls          : Nat
  ctx          : Nat
  vector       : Nat
  consumedAddr : Nat
  period       : Nat
  budget       : Nat
  w            : Word
  c            : Word
  mapped       : Option Nat
  rounds       : Nat
  due          : Option Nat
  error        : Bool
  cause        : BitVec 8
  errIndex     : Word
  errPacket    : Option Nat
  errUnread    : Bool
  destroyed    : Bool
  deriving DecidableEq, Repr, Inhabited

/-- How far a packet has come (R108). -/
inductive PacketState where
  | read | started | finished
  deriving DecidableEq, Repr, Inhabited

/-- A packet that a packet core holds: one of a ring, or a successor with its parent, place and depth (R110). `addr` is where it
was read; `tail` holds the words of its tail record as its checks read them (R103), none when TAIL is 0; `left` lists the successors of
its tail that its finished launch has not read yet (R110, R373). -/
structure Packet where
  id      : Nat
  queue   : Nat
  index   : Word
  words   : List Word
  addr    : Nat
  tail    : List Word
  parent  : Option Nat
  place   : Nat
  depth   : Nat
  st      : PacketState
  since   : Nat
  left    : List Nat
  deriving DecidableEq, Repr, Inhabited

/-- Where a register or packet handover stands (R247, R248): `packet` is none for one made through a kick page; `ctx` is the context
that its queue had when it started. -/
structure HandoverRun where
  id     : Nat
  queue  : Nat
  ctx    : Nat
  packet : Option Nat
  addr   : Nat
  bytes  : Nat
  toDev  : Bool
  deriving DecidableEq, Repr

/-! ### Launches, teams, threads -/

/-- The sizes that a SHAPE and SPACE word give a team (R102, R129). -/
structure Shape where
  tsize  : Nat
  vregs  : Nat
  tiles  : Nat
  deck   : Nat
  plane  : Nat
  deriving DecidableEq, Repr, Inhabited

/-- STAGE of a team (R173). -/
inductive Stage where
  | compute | task | mesh | pixel
  deriving DecidableEq, Repr, Inhabited

/-- A mesh team waiting for admission (R131): the mast of its ring slot, the emitting task team, the order key of its
TASKOUT, its number and the team count. -/
structure MeshReq where
  mast  : Nat
  slot  : Option Nat
  task  : Nat
  key   : Nat
  num   : Nat
  count : Nat
  deriving DecidableEq, Repr

/-- A triangle handed to setup (R133, R137): its order key and the slot values of its three vertices. -/
structure Prim where
  key   : List Nat
  verts : List (List (Nat × List Word))
  deriving DecidableEq, Repr

/-- A pixel delivered to output merge (R377): place, depth, the primitive's order number and the exported colours. -/
structure PixelOut where
  x     : Nat
  y     : Nat
  order : Nat
  depth : Word
  outs  : List (Nat × List Word)
  deriving DecidableEq, Repr

/-- A covered quad waiting for a pixel team (R130): its place, the primitive's order number, and for each of its four
pixels whether it is covered, its depth and its interpolated attributes. -/
structure Quad where
  x     : Nat
  y     : Nat
  order : Nat
  pix   : List (Bool × Word × List Word)
  deriving DecidableEq, Repr

/-- What a DRAW adds to a launch (R104, R129 to R133, R375). `masts` are the physical masts chosen for it, `setup` numbers the
primitives, `tilesHit` names the tiles of its ENCODE target that its quads have entered (R380). -/
structure DrawData where
  state     : List Byte
  taskEntry : Option Nat
  meshEntry : Nat
  pixEntry  : Option Nat
  groups    : Nat
  taskShape : Shape
  meshShape : Shape
  pixShape  : Shape
  payload   : Nat
  seed      : Dword
  attrs     : Nat
  masts     : List Nat
  nextTeam  : Nat
  meshes    : List MeshReq
  prims     : List Prim
  setup     : Nat
  quads     : List Quad
  lastQuad  : Nat
  pixTeams  : List (List Quad)
  pixNext   : Nat
  pixels    : List PixelOut
  tilesHit  : List Nat
  deriving DecidableEq, Repr

/-- A partial of a DET team for one F32 ADD address (R328): the address, its translation, the scope and the value. -/
structure Partial where
  va    : Nat
  loc   : Loc
  scope : Nat
  value : Nat
  deriving DecidableEq, Repr

/-- The program trap for which a launch ends with the cycle in which it was taken (R352): the cycle, where the thread stood, the CODE
and the record. -/
structure Dying where
  cycle : Nat
  pipe  : Nat
  lane  : Nat
  mast  : Nat
  code  : Nat
  words : List Word
  deriving DecidableEq, Repr, Inhabited

/-- A launch (R102, R117, R121): the work of one DISPATCH or DRAW packet. `partials` holds what retired DET teams left
for the fixed tree (R328): team number and partial. `cursorAt` is the cycle and the mast of the last request that its cursor answered
(R121); `dying` the trap for which it ends as its cycle passes (R352). -/
structure Launch where
  id       : Nat
  packet   : Nat
  queue    : Nat
  ctx      : Nat
  cls      : Nat
  deadline : Word
  det      : Bool
  hyp      : Nat
  masts    : Nat
  codeBase : Nat
  entry    : Nat
  trapEntry : Option Nat
  shape    : Shape
  tileExt  : Word
  arg      : Dword
  seed     : Dword
  tilesX   : Nat
  tilesY   : Nat
  tilesZ   : Nat
  admitted : Bool
  teams    : Nat
  cursor   : Nat
  partials : List (Nat × Partial)
  since    : Nat
  firstRun : Option Nat
  awayNs   : Nat
  cursorAt : Option (Nat × Nat)
  dying    : Option Dying
  draw     : Option DrawData
  deriving DecidableEq, Repr, Inhabited

/-- The state of a thread slot (R139). -/
inductive ThreadState where
  | absent | waiting | ready | issued | faulted | exited
  deriving DecidableEq, Repr, Inhabited

/-- A wait condition of R140, other than outstanding results. `op` waits for the operation of that identity: a HINV, a
resolve, a flush, an ACQR or an acquire. `epoch` waits for a DET epoch to close. -/
inductive Wait where
  | tag (k n : Nat)
  | pause (until_ : Nat)
  | barrier (n : Nat) (phase : Bool)
  | ring
  | op (id : Nat)
  | epoch (i : Nat)
  deriving DecidableEq, Repr

/-- A value on its way to a register (R140, R257): the words with their poison marks once known; `acc` is an ACCRD that
waits for its tile, `job` a sample or SMMA that has not finished. -/
inductive Pending where
  | words (ws : List (Word × Bool))
  | acc (id : Nat)
  | job (id : Nat)
  deriving DecidableEq, Repr

/-- An outstanding result (R257): where each word lands (absolute v-file index, none when dropped), the predicate it writes and
the floating-point flags it ORs in. -/
structure Result where
  regs  : List (Option Nat)
  pred  : Option (Nat × Bool)
  flags : BitVec 5
  value : Pending
  deriving DecidableEq, Repr

/-- What raster gives a pixel thread (R130, R138). -/
structure PixData where
  x      : Nat
  y      : Nat
  helper : Bool
  order  : Nat
  depth  : Word
  deriving DecidableEq, Repr

/-- One thread slot of a team (R139, R167, R349). An absent register of `v` reads 0; `poison` names marked registers. -/
structure Thread where
  st       : ThreadState
  waits    : List Wait
  out      : List Result
  next     : Nat
  readyAt  : Nat
  v        : List (Nat × Word)
  poison   : List Nat
  wb       : Nat
  preds    : BitVec 8
  hyp      : Nat
  rngs     : Word
  status   : BitVec 6
  tagCount : List Nat
  tagErr   : List Bool
  barPend  : List (Nat × Bool)
  tilef    : Nat
  aflush   : Nat
  frec     : List Word
  recPend  : Bool
  exports  : List (Nat × List Word)
  killed   : Bool
  pix      : Option PixData
  deriving DecidableEq, Repr, Inhabited

/-- One barrier of a team (R162). `arrived` lists the arrivals of the phase in counting order: thread, and the
predicate to write when it arrived by BAR. -/
structure Barrier where
  count    : Nat
  expected : Nat
  phase    : Bool
  arrived  : List (Nat × Option Nat)
  deriving DecidableEq, Repr, Inhabited

/-- An accumulator tile (R75). An absent element is 0; `poison` names poisoned elements (R364). -/
structure Tile where
  elems  : List (Nat × Int)
  te     : Int
  ovf    : Bool
  void   : Bool
  poison : List Nat
  deriving DecidableEq, Repr, Inhabited

/-- What an ACCRD or ACCWR waiting for its tile will do (R274). -/
inductive AccKind where
  | read (fmt : Nat)
  | write (fmt : Nat) (ws : List Word)
  deriving DecidableEq, Repr

/-- An ACCRD or ACCWR committed behind MX operations of its tile (R274), with the address of its word. -/
structure AccOp where
  id   : Nat
  tid  : Nat
  word : Nat
  tile : Nat
  elem : Nat
  kind : AccKind
  deriving DecidableEq, Repr

/-- A staging entry of a DET team (R326, R328). -/
structure DetEntry where
  va    : Nat
  loc   : Loc
  op    : Nat
  ty    : Nat
  scope : Nat
  value : Nat
  tid   : Nat
  epoch : Nat
  num   : Nat
  deriving DecidableEq, Repr

/-- Where a team is (R355, R356, R359, R361): on a mast; being stopped for a save; in the save area, with the offset of its record
and its directory entry; or back on a mast with the record not yet free. -/
inductive Place where
  | resident
  | stopping
  | saved (offset entry : Nat)
  | restored (offset entry : Nat)
  deriving DecidableEq, Repr, Inhabited

/-- An MX operation (R297, R303, R304): the captured parameter block (MX.ZERO has none), tile, tag, executing thread,
the issuing block and word addresses, and the passes not yet started. -/
structure MxOp where
  id     : Nat
  team   : Nat
  tid    : Nat
  zero   : Bool
  params : List Byte
  tile   : Nat
  tag    : Nat
  block  : Nat
  word   : Nat
  passes : Nat
  deriving DecidableEq, Repr

/-- A bin or an overflow entry: a block address and its threads (R145, R146). `listed` says that the bin has taken an entry from
the list and issued no pack since (R147); `short` and `aged` whether its oldest READY thread has waited GATHER and AGE cycles
(R149); `rally` the mask and timeout of its block once the sequencer has seen that the block begins with RALLY, `rounds` when each
warp's rally round opened, `met` the masks, as 8 × warp + N, whose condition has held in an open round, `due` the warps for which it is
eligible (R160): the masks are tracked also before the block's first word is there. -/
structure Bin where
  block   : Nat
  threads : List Nat
  listed  : Bool
  short   : Bool
  aged    : Bool
  rally   : Option (Nat × Nat)
  rounds  : List (Nat × Nat)
  met     : List Nat
  due     : List Nat
  deriving DecidableEq, Repr

/-- The shape tag of a v-register of a warp, with the words it keeps (R176). -/
inductive Tag where
  | uniform (u : Word)
  | affine (b s : Word)
  | general
  deriving DecidableEq, Repr

/-- A team (R117, R130, R167, R362). In `tags` an absent register of a warp is Uniform with u = 0; a DECK or PLANE byte absent is 0;
an absent form mark is RAW (0); `spillAt` is the cycle of the team's last spill (R147), `seqAt` the last cycle in which the
sequencer of its mast formed packs (R155), `masksOld` the last cycle in which a commit changed the masks, with the masks as they
stood before that cycle (R187). -/
structure Team where
  id        : Nat
  launch    : Nat
  num       : Nat
  count     : Nat
  stage     : Stage
  shape     : Shape
  mast      : Nat
  place     : Place
  seqcfg    : Word
  loss      : List (Nat × Word)
  orphan    : Option Nat
  tilefNext : Nat
  held      : List (Nat × Option Nat)
  detPos    : Nat
  bars      : List (Nat × Barrier)
  masks     : List (Nat × Word)
  masksOld  : Option (Nat × List (Nat × Word))
  tags      : List ((Nat × Nat) × Tag)
  deck      : List (Nat × Byte)
  deckPoison : List Nat
  deckMarks : List (Nat × Nat)
  plane     : List (Nat × Byte)
  planePoison : List Nat
  planeMarks : List (Nat × Nat)
  tiles     : List (Nat × Tile)
  accOps    : List AccOp
  staging   : List DetEntry
  partials  : List Partial
  epochsClosed : Nat
  bins      : List Bin
  overflow  : List Bin
  spillAt   : Option Nat
  seqAt     : Option Nat
  threads   : List Thread
  mxSaved   : List MxOp
  mesh      : Option MeshReq
  verts     : List (Nat × Nat × List Word)
  prims     : List (Nat × Word)
  taskouts  : Nat
  deriving DecidableEq, Repr, Inhabited

/-! ### Packs in flight -/

/-- A memory-class operation, or another operation performed at commit, as a lane records it with its operand values
(R254). Addresses of global accesses are the 64-bit sums of R255. `dst` is the register code of a destination. A read of a pattern keeps
the cause and address of a translation that failed when the instruction executed (R195). -/
inductive MemOp where
  | load (ea : Dword) (w : Nat) (dst : Reg)
  | store (ea : Dword) (bytes : List (Byte × Bool))
  | deckLoad (o n : Nat) (dst : Reg)
  | deckStore (o : Nat) (bytes : List (Byte × Bool))
  | cpAsync (src : Dword) (o v tag : Nat) (keep : Bool)
  | cpPlane (src : Dword) (o fmt : Nat) (scale : Dword) (tag : Nat) (keep : Bool)
  | cpOut (dst : Dword) (o c tag : Nat)
  | tagGet (k : Nat) (dst : Reg)
  | prefetch (ea : Dword)
  | accRead (elem tile fmt : Nat) (dst : Reg)
  | accWrite (elem tile fmt : Nat) (ws : List Word)
  | atom (ea : Dword) (op ty scope : Nat) (ws : List Word) (dst : Option Reg)
  | atomb (ea : Dword) (op ty scope value : Nat)
  | fence (scope kind : Nat)
  | ldacq (ea : Dword) (n scope : Nat) (dst : Reg)
  | strel (ea : Dword) (bytes : List (Byte × Bool)) (scope : Nat)
  | acqr (q : Nat)
  | aflush
  | sample (kind slot : Nat) (ops : List Word) (derivs : List Word) (dst : Reg)
  | hinv (slot : Nat)
  | wpin (slot : Nat)
  | wunpin (slot : Nat)
  | smma (dst : Reg) (ws : List Word)
  | mxIssue (o : Nat)
  | mxZero (t k : Nat)
  | hopen (dst : Reg) (pf : Nat)
  | hset (x : Word)
  | hget (dst : Reg)
  | hconfirm (x : Word)
  | hrefute (x : Word)
  | hstate (x : Word) (dst : Reg)
  | horphan (x : Word)
  | taskout (n off : Nat)
  | vtxout (slot : Nat) (ws : List Word)
  | primout (w : Word)
  | pixout (t : Nat) (ws : List Word)
  | kill
  | barArrive (n c : Nat) (last : Option Nat)
  | tilef (dst : Reg) (px : Nat) (i : Nat)
  | maskSet (m : Nat) (w : Word)
  | maskJoin (m : Nat)
  | maskClear (m : Nat)
  | teamWrite (n : Nat) (w : Word)
  | signal (ea : Dword) (v : Word)
  | append (list : Dword) (index : Word) (value : Word)
  | patRead (ea : Dword) (fault : Option (Nat × Nat))
  deriving DecidableEq, Repr

/-- A recorded operation with the code address of its word. -/
structure OpRec where
  word : Nat
  op   : MemOp
  deriving DecidableEq, Repr

/-- A trap that an instruction of the block raised on the thread (R143 line 3): code, NUM and word address. -/
structure TrapRec where
  code : Nat
  num  : Nat
  word : Nat
  deriving DecidableEq, Repr

/-- One lane of a pack: a thread's working state within a block (R142, R174). `v`, `poison` and `preds` start as the
thread's own and take the forwarded writes; `written` names the v-registers written (R177); `e` holds the block temporaries written so far (absent reads 0). `poisonAt` is
the first word that consumed poison, with the address of the access where an access met it (R143 line 4, R349). `rngs` runs
on with the block's draws; `rngsRead` is what a CTXR of RNGSCTR reads (R174). -/
structure Lane where
  tid     : Nat
  v       : List (Nat × Word)
  written : List Nat
  poison  : List Nat
  e       : List (Nat × Word)
  preds   : BitVec 8
  wb      : Nat
  hyp     : Nat
  status  : BitVec 6
  statusW : Bool
  flags   : BitVec 5
  rngs    : Word
  rngsRead : Word
  wrap    : Bool
  masks   : List (Nat × Word)
  tilef   : Nat
  ops     : List OpRec
  trap    : Option TrapRec
  poisonAt : Option (Nat × Option Nat)
  win     : Option Nat
  pause   : Option Nat
  tagWait : Option (Nat × Nat)
  barWait : List Nat
  next    : Option Nat
  exits   : Bool
  deriving DecidableEq, Repr, Inhabited

/-- The MODW in force for the next word (R44). -/
structure Modw where
  rm   : BitVec 2
  alt  : Bool
  fill : BitVec 2
  nf   : BitVec 2
  deriving DecidableEq, Repr, Inhabited

/-- A pack in flight (R153, R155): the team, the mast and pipe, the block's first address, its words as R156 fetched them, the
address of the next word to issue, the MODW in force and the lanes by lane number. `claim` says that it was formed under its class's
floor share (R111); `reads` lists the bank of each word that its operand collector has still to gather for the next word, the uniform
bank as 32 (R179, R180); `usable` gives, for a register code or 128 plus a predicate written by an ALU-class word of the block, the
cycle from which an instruction that uses it may issue (R159). -/
structure Pack where
  id     : Nat
  team   : Nat
  mast   : Nat
  pipe   : Nat
  block  : Nat
  words  : List Word
  pc     : Nat
  modw   : Modw
  rally  : Bool
  ended  : Bool
  formed : Nat
  claim  : Bool
  reads  : List Nat
  usable : List (Nat × Nat)
  lanes  : List (Nat × Lane)
  deriving DecidableEq, Repr, Inhabited

/-! ### Masts -/

/-- A sector of an L1 line (R234, R341): context, view tag, physical sector address ÷ 32, whether it holds decoded bytes of a
compressed page, 32 bytes, poisoned offsets. -/
structure L1Sector where
  ctx    : Nat
  view   : Nat
  sector : Nat
  comp   : Bool
  bytes  : List Byte
  poison : List Nat
  deriving DecidableEq, Repr

/-- An instruction-cache line of 128 bytes (R156), with its poisoned offsets. -/
structure ILine where
  ctx    : Nat
  line   : Nat
  bytes  : List Byte
  poison : List Nat
  deriving DecidableEq, Repr

/-- A line of 256 bytes of a header cache, or of a weight cache (R289), at a virtual line number. `bad` lists the offsets of bytes that
no translation or poison-free read gave. -/
structure SLine where
  ctx  : Nat
  slot : Nat
  gen  : BitVec 16
  line : Nat
  header : Bool
  bytes : List Byte
  bad  : List Nat
  deriving DecidableEq, Repr

/-- A sample or SLOAD that has been performed and has not delivered (R287): the generation it captured and the lines it
holds. Kinds are 0 SAMPLE, 1 SAMPLEG, 2 SLOAD. `held` keeps the bytes, by port and physical address, that accesses of the thread later in
program order have met: the sample's reads come before them (R315). -/
structure SampleJob where
  id     : Nat
  team   : Nat
  tid    : Nat
  ctx    : Nat
  slot   : Nat
  gen    : BitVec 16
  hyp    : Nat
  kind   : Nat
  ops    : List Word
  derivs : List Word
  lines  : List SLine
  held   : List ((Option Nat × Nat) × Byte × Bool)
  deriving DecidableEq, Repr

/-- A fill in flight, for the header cache or the weight cache (R289). -/
structure SFill where
  ctx  : Nat
  slot : Nat
  gen  : BitVec 16
  line : Nat
  header : Bool
  deriving DecidableEq, Repr

/-- A pin of a context's header slot on a mast (R291), with the lines that its header and weight set take. -/
structure Pin where
  ctx   : Nat
  slot  : Nat
  lines : Nat
  deriving DecidableEq, Repr

/-- One thread's share of an SMMA that waits for the dot-product array (R295): the pack and the word name the SMMA. -/
structure SmmaJob where
  id   : Nat
  team : Nat
  tid  : Nat
  pack : Nat
  word : Nat
  ws   : List (Word × Bool)
  deriving DecidableEq, Repr

/-- A staging entry of a non-DET team (R326). -/
structure Stage0 where
  team  : Nat
  ctx   : Nat
  va    : Nat
  loc   : Loc
  op    : Nat
  ty    : Nat
  scope : Nat
  value : Nat
  deriving DecidableEq, Repr

/-- A payload slot in use (R131): the launch, the bytes copied with their poison, and how many mesh teams still need it. -/
structure RingSlot where
  slot   : Nat
  launch : Nat
  bytes  : List (Byte × Bool)
  users  : Nat
  deriving DecidableEq, Repr

/-- How a mast's sequencer shares its cycles (R151, R155, R159; log entries 78 and 79). `claims` is each class's credit in hundredths
of an issue cycle; `ctxs` and `teams` are the rounds of the contexts of a class and of the teams, in order, with their deficits.
`formed` is the cycle and the pipe of the last pack formed, `resolved` those of the last pack resolved, `issued` the cycle in which
each pipe last issued, `sfu` the cycle from which its special-function unit is free. -/
structure MastSeq where
  claims   : List (Nat × Int)
  ctxs     : List ((Nat × Nat) × Int)
  teams    : List (Nat × Int)
  formed   : Option (Nat × Nat)
  resolved : Option (Nat × Nat)
  issued   : List (Nat × Nat)
  sfu      : List (Nat × Nat)
  deriving DecidableEq, Repr, Inhabited

/-- A mast (R11). A mast absent from the device's list is empty. `seen` is how much of the device's write log the mast's
signatures have been cleared of (R237, R238); `slines` are the lines of its header and weight caches; `gens` lists the generation copies that a HINV
under way has not reached yet (R288): an absent copy equals the context's generation; `arrays` gives, for each spar array in use, its
number, the operation whose pass it runs and the cycle in which the pass ends (R11, R304). -/
structure Mast where
  num     : Nat
  l1      : List L1Sector
  icache  : List ILine
  seen    : Nat
  gens    : List ((Nat × Nat) × BitVec 16)
  slines  : List SLine
  sfills  : List SFill
  sjobs   : List SampleJob
  pins    : List Pin
  staging : List Stage0
  mxq     : List MxOp
  arrays  : List (Nat × Nat × Nat)
  smmaq   : List SmmaJob
  ring    : List RingSlot
  tlb     : List TlbEntry
  seq     : MastSeq
  deriving DecidableEq, Repr, Inhabited

/-! ### Memory, engines, asynchronous work -/

/-- A line of 128 bytes that L2 holds (R235, R236): the context whose access filled it (16 for an agent of no context) and the line
number. -/
structure L2Line where
  ctx  : Nat
  line : Nat
  deriving DecidableEq, Repr

/-- A byte of host memory held in L2 (R235, R247), with its dirty mark and its poison mark; the device's `poison` names the bytes that
are poisoned in host memory itself. -/
structure HostByte where
  addr  : Nat
  val   : Byte
  dirty : Bool
  bad   : Bool
  deriving DecidableEq, Repr

/-- A peer device behind a port (R253): whether its link answers, the bytes of its HBM, and which of them are poisoned. -/
structure Peer where
  port : Nat
  up   : Bool
  mem  : List Host.Cell
  poison : List Nat
  deriving DecidableEq, Repr

/-- What an asynchronous copy does (R262, R264, R266). -/
inductive CopyKind where
  | async (src : Dword) (o v : Nat) (keep : Bool)
  | plane (src : Dword) (o fmt : Nat) (scale : Dword) (keep : Bool)
  | out (dst : Dword) (o c : Nat)
  deriving DecidableEq, Repr

/-- What a copy to DECK or PLANE writes (R262 to R267): for each destination byte, in order, its value and poison mark, or nothing where
the byte keeps its value; the form mark that its granules take; whether the tag gets ERR, and the code of the fault record. -/
structure CopyImage where
  bytes : List (Option (Byte × Bool))
  mark  : Option Nat
  err   : Bool
  code  : Option Nat
  deriving DecidableEq, Repr

/-- A copy in flight (R261): `segs` and `scales` are the translations that its commit checked, of the global side and of the
scale words; `wrote` lists the destination bytes that it has written already, by their place in it (R270), and `err` says that one of
them bore poison; `image` is what a copy to DECK or PLANE writes, once it has read its source. -/
structure AsyncCopy where
  id    : Nat
  team  : Nat
  tid   : Nat
  tag   : Nat
  hyp   : Nat
  block : Nat
  word  : Nat
  kind  : CopyKind
  segs  : List (Loc × Nat)
  scales : List (Loc × Nat)
  wrote : List Nat
  err   : Bool
  image : Option CopyImage
  deriving DecidableEq, Repr

/-- A resolve that has its place in the resolve order of its context and has not taken effect (R342): confirm or refute, the ID, and
the confirming mast. -/
structure ResolveOp where
  confirm : Bool
  hyp     : Nat
  mast    : Option Nat
  deriving DecidableEq, Repr

/-- An operation that has been performed and is not complete: a resolve (with the packet or the team that made it, and what it will do
while an earlier one of its context has not completed), a HINV, a flush of a team's staging entries or an ACQR (R288, R327, R330,
R342). -/
inductive Running where
  | resolve (id ctx : Nat) (packet team : Option Nat) (todo : Option ResolveOp)
  | hinv (id ctx slot mast : Nat)
  | flush (id team : Nat)
  | acqr (id ctx mast victim team : Nat)
  deriving DecidableEq, Repr

/-- A stream of an encode engine (R378 to R381): the packet that armed it, its parameter words, the frames coded since the
history began, the last FRAME, whether the last frame overflowed, whether a source byte of this one bore poison, the tiles
released with their pixels, and the tiles pending on a hypothesis. -/
structure Stream where
  engine  : Nat
  stream  : Nat
  ctx     : Nat
  packet  : Option Nat
  target  : Nat
  params  : List Word
  history : List (List Nat)
  last    : Option Word
  cut     : Bool
  poison  : Bool
  tiles   : List (Nat × List Nat)
  pending : List (Nat × Nat)
  deriving DecidableEq, Repr, Inhabited

/-- One due step of the agenda: the nanoseconds that pass before it, then the step. -/
structure Due where
  ns   : Nat
  step : Instr
  deriving DecidableEq, Repr

/-- The device. An unlisted byte of `mem` reads 0x00 (log entry 1); an unlisted block of `nsec` has NSEC 8. `wlog` is the
log of writes performed at home, newest first: the 64-byte block and the writing mast, if one (R237). `l2` lists the lines that L2
holds, the most recently used first (R236); `roundAt` is the time of the next mapping round (R113); `throttled` the contexts over their power cap with the power measured (R128). -/
structure State where
  start    : Start
  ns       : Nat
  cycle    : Nat
  cycRem   : Nat
  clockMHz : Nat
  throttled : List (Nat × Nat)
  cmd      : Cmd
  floors   : List Nat
  tlbi     : Tlbi
  tlb      : List TlbEntry
  bead     : Bead
  ceCount  : Word
  ueCount  : Word
  ueAddr   : Dword
  ctxs     : List Ctx
  cfault   : List (Nat × CtxFault)
  queues   : List Queue
  handregs : List (Nat × Handover)
  vectors  : List Nat
  packets  : List Packet
  handovers : List HandoverRun
  launches : List Launch
  teams    : List Team
  flight   : List Pack
  issue    : Option Pack
  masts    : List Mast
  mem      : List Host.Cell
  poison   : List Nat
  nsec     : List (Nat × Nat)
  dirtyComp : List Nat
  hostCache : List HostByte
  l2       : List L2Line
  wlog     : List (Nat × Option Nat)
  peers    : List Peer
  asyncs   : List AsyncCopy
  running  : List Running
  streams  : List Stream
  hostData : List (Byte × Bool)
  agenda   : List Due
  tick     : Nat
  free     : Nat
  nextId   : Nat
  roundAt  : Nat
  deriving DecidableEq, Repr

/-- The device right after module reset (R86): START_STATUS is RESET, every register map at its Reset column, no context,
queue, launch or team, memory with nothing listed. -/
def State.reset : State where
  start    := ⟨.reset, 0, 0, 0, none⟩
  ns       := 0
  cycle    := 0
  cycRem   := 0
  clockMHz := 1000
  throttled := []
  cmd      := ⟨0, false, false, 0, none⟩
  floors   := [40, 25, 15, 10]
  tlbi     := ⟨0, 0, false, 0, none⟩
  tlb      := []
  bead     := ⟨0, 0, false, 0, 0, 0, 0, 0, [⟨.empty, []⟩, ⟨.empty, []⟩, ⟨.empty, []⟩, ⟨.empty, []⟩], none, []⟩
  ceCount  := 0
  ueCount  := 0
  ueAddr   := 0
  ctxs     := []
  cfault   := []
  queues   := []
  handregs := []
  vectors  := []
  packets  := []
  handovers := []
  launches := []
  teams    := []
  flight   := []
  issue    := none
  masts    := []
  mem      := []
  poison   := []
  nsec     := []
  dirtyComp := []
  hostCache := []
  l2       := []
  wlog     := []
  peers    := []
  asyncs   := []
  running  := []
  streams  := []
  hostData := []
  agenda   := []
  tick     := 0
  free     := 0
  nextId   := 0
  roundAt  := 250000

end Sys2Proof.Machine
end

