-- ==== Sys2Proof/Machine/Util.lean ====
section
/-! DEFINITION. Plain helpers: lists keyed by numbers, little-endian bytes, bit fields and sign extension of naturals. -/

namespace Sys2Proof.Machine

/-! ### Lists keyed by a number, in rising order of the key -/

/-- The value listed at a key. -/
def alGet {α : Type} (k : Nat) : List (Nat × α) → Option α
  | [] => none
  | (j, x) :: r => if j = k then some x else alGet k r

/-- The value listed at a key, else a default. -/
def alGetD {α : Type} (l : List (Nat × α)) (k : Nat) (d : α) : α := (alGet k l).getD d

/-- List a value at a key, in its place in rising order, instead of the one listed there. -/
def alPut {α : Type} (k : Nat) (x : α) : List (Nat × α) → List (Nat × α)
  | [] => [(k, x)]
  | (j, y) :: r => if k < j then (k, x) :: (j, y) :: r else if k = j then (k, x) :: r else (j, y) :: alPut k x r

/-- Remove what is listed at a key. -/
def alDel {α : Type} (k : Nat) (l : List (Nat × α)) : List (Nat × α) := l.filter (fun c => c.1 != k)

/-- List several values at successive keys from k. -/
def alPuts {α : Type} (k : Nat) : List α → List (Nat × α) → List (Nat × α)
  | [], l => l
  | x :: xs, l => alPuts (k + 1) xs (alPut k x l)

/-- The values at n successive keys from k, with a default. -/
def alRange {α : Type} (l : List (Nat × α)) (k n : Nat) (d : α) : List α :=
  (List.range n).map fun i => alGetD l (k + i) d

/-- Insert a number in a rising list without repeats. -/
def nsInsert (k : Nat) : List Nat → List Nat
  | [] => [k]
  | j :: r => if k < j then k :: j :: r else if k = j then j :: r else j :: nsInsert k r

/-- Remove n successive numbers from k. -/
def nsClear (k n : Nat) (l : List Nat) : List Nat := l.filter fun x => !(k ≤ x && x < k + n)

/-! ### Bits and bytes -/

/-- Bits lo to lo + n - 1 of a number. -/
def bits (x lo n : Nat) : Nat := x / 2 ^ lo % 2 ^ n
/-- Bit i of a number. -/
def bit (x i : Nat) : Bool := x / 2 ^ i % 2 == 1

/-- The number that bytes give, little-endian (R2). -/
def leNat : List Byte → Nat
  | [] => 0
  | b :: r => b.toNat + 256 * leNat r

/-- The n bytes of a number, little-endian (R2). -/
def natLE (x : Nat) : Nat → List Byte
  | 0 => []
  | n + 1 => BitVec.ofNat 8 x :: natLE (x / 256) n

/-- The little-endian words of a byte list. -/
def leWords : List Byte → List Word
  | b0 :: b1 :: b2 :: b3 :: r => (b3 ++ b2 ++ b1 ++ b0) :: leWords r
  | _ => []

/-- The signed value of the low n bits of a number. -/
def sextNat (n x : Nat) : Int :=
  let y := x % 2 ^ n
  if y < 2 ^ (n - 1) then (y : Int) else (y : Int) - 2 ^ n

/-- An integer modulo 2^32. -/
def wrap32 (x : Int) : Word := BitVec.ofInt 32 x

/-- A 64-bit value from its low and high words (R57). -/
def pairOf (lo hi : Word) : Dword := hi ++ lo
/-- The low word of a 64-bit value. -/
def loW (x : Dword) : Word := x.extractLsb' 0 32
/-- The high word of a 64-bit value. -/
def hiW (x : Dword) : Word := x.extractLsb' 32 32

/-- The quotient rounded up. -/
def ceilDiv (a b : Nat) : Nat := (a + b - 1) / b

/-- Round up to a multiple. -/
def roundUp (a b : Nat) : Nat := ceilDiv a b * b

/-- Append or replace by a test for the same name. -/
def putBy {α : Type} (same : α → Bool) (x : α) : List α → List α
  | [] => [x]
  | y :: r => if same y then x :: r else y :: putBy same x r

/-- The Nat-indexed update of a list. -/
def modAt {α : Type} (l : List α) (i : Nat) (f : α → α) : List α := l.modify i f

end Sys2Proof.Machine
end

