-- ==== Sys2Proof/Machine/Fp.lean ====
section
/-! DEFINITION. Exact binary floating point (R59 to R67): unpacking to exact values, one rounding, flags, and the operations
of the FALU, FFMA and conversion classes over them. A format's value is a natural number of its width. -/

namespace Sys2Proof.Machine

/-- The sticky flags of R63 in the bit order of R172. -/
abbrev Flags := BitVec 5
def fNone : Flags := 0
def fNV : Flags := 1
def fDZ : Flags := 2
def fOF : Flags := 4
def fUF : Flags := 8
def fNX : Flags := 16

/-- A floating-point format (R59, R66): field widths, bias, largest finite encoding, the encoding of +∞ if it has one, the
canonical NaN. -/
structure Fmt where
  ebits : Nat
  fbits : Nat
  bias  : Nat
  maxEnc : Nat
  inf   : Option Nat
  nan   : Nat
  deriving DecidableEq, Repr

def f32 : Fmt := ⟨8, 23, 127, 0x7F7FFFFF, some 0x7F800000, 0x7FC00000⟩
def f16 : Fmt := ⟨5, 10, 15, 0x7BFF, some 0x7C00, 0x7E00⟩
def bf16 : Fmt := ⟨8, 7, 127, 0x7F7F, some 0x7F80, 0x7FC0⟩
def e4m3 : Fmt := ⟨4, 3, 7, 0x7E, none, 0x7F⟩
def e5m2 : Fmt := ⟨5, 2, 15, 0x7B, some 0x7C, 0x7E⟩

/-- The sign bit's weight in a format. -/
def Fmt.sign (f : Fmt) : Nat := 2 ^ (f.ebits + f.fbits)

/-- An exact value: a NaN (signalling or not), an infinity, or (-1)^neg × m × 2^e. -/
inductive Fv where
  | nan (sig : Bool)
  | inf (neg : Bool)
  | fin (neg : Bool) (m : Nat) (e : Int)
  deriving DecidableEq, Repr

/-- The value of an encoding (R59, R66). -/
def unpack (f : Fmt) (x : Nat) : Fv :=
  let neg := bit x (f.ebits + f.fbits)
  let ex := bits x f.fbits f.ebits
  let fr := bits x 0 f.fbits
  let mag := x % f.sign
  if f.maxEnc < mag then
    if f.inf = some mag then .inf neg
    else .nan (f.inf.isSome && !bit x (f.fbits - 1))
  else if ex = 0 then .fin neg fr (1 - (f.bias : Int) - f.fbits)
  else .fin neg (2 ^ f.fbits + fr) ((ex : Int) - f.bias - f.fbits)

/-- The rounding modes of R46: RNE, RZ, RD, RU. -/
abbrev Mode := BitVec 2
def RNE : Mode := 0
def RZ : Mode := 1
def RD : Mode := 2
def RU : Mode := 3

/-- Whether a value of the given sign, with quotient q, remainder r of 2^k (k ≥ 1 or r = 0) and a non-zero tail `st` below it,
is rounded away from zero. -/
def roundUpMag (mode : Mode) (neg : Bool) (q r k : Nat) (st : Bool) : Bool :=
  if mode = RNE then
    let h := 2 ^ k
    2 * r > h || (2 * r == h && (st || q % 2 == 1))
  else if mode = RZ then false
  else if mode = RD then neg && (r != 0 || st)
  else !neg && (r != 0 || st)

/-- m × 2^e (with a tail below m when `st`) rounded to a multiple of 2^q: the multiple and whether it is inexact. -/
def roundAt (mode : Mode) (neg : Bool) (m : Nat) (e q : Int) (st : Bool) : Nat × Bool :=
  if q ≤ e then (m * 2 ^ (e - q).toNat, st)
  else
    let k := (q - e).toNat
    let d := m / 2 ^ k
    let r := m % 2 ^ k
    (if roundUpMag mode neg d r k st then d + 1 else d, r != 0 || st)

/-- The encoding of a signed zero. -/
def zeroEnc (f : Fmt) (neg : Bool) : Nat := if neg then f.sign else 0
/-- The encoding of an infinity, or of the largest finite value where the format has none (R67). -/
def infEnc (f : Fmt) (neg : Bool) : Nat := (f.inf.getD f.maxEnc) + zeroEnc f neg

/-- What an overflowing magnitude delivers (R60, R67). -/
def overflowEnc (f : Fmt) (mode : Mode) (neg : Bool) : Nat :=
  let toInf := mode == RNE || (mode == RD && neg) || (mode == RU && !neg)
  if toInf then infEnc f neg else f.maxEnc + zeroEnc f neg

/-- (-1)^neg × m × 2^e, m ≠ 0, rounded once to the format with the flags of R63 (R60). `st` says that the exact magnitude
lies above m × 2^e and below (m + 1) × 2^e; m then has more bits than the format keeps. -/
def roundFp (f : Fmt) (mode : Mode) (neg : Bool) (m : Nat) (e : Int) (st : Bool) : Nat × Flags :=
  let top : Int := (Nat.log2 m : Int) + e
  let emin : Int := 1 - (f.bias : Int)
  let qn := top - f.fbits
  let qmin := emin - f.fbits
  let q := if qn < qmin then qmin else qn
  let (n, inexact) := roundAt mode neg m e q st
  let enc := if n < 2 ^ f.fbits then n else ((q - qmin).toNat + 1) * 2 ^ f.fbits + (n - 2 ^ f.fbits)
  if f.maxEnc < enc then (overflowEnc f mode neg, fOF ||| fNX)
  else
    let tiny := top < emin && !((roundAt mode neg m e qn st).1 == 2 ^ (f.fbits + 1) && top + 1 == emin)
    (enc + zeroEnc f neg,
      if inexact then (if tiny then fUF ||| fNX else fNX) else fNone)

/-- An exact value delivered in a format. -/
def packFv (f : Fmt) (mode : Mode) : Fv → Nat × Flags
  | .nan s => (f.nan, if s then fNV else fNone)
  | .inf neg => (infEnc f neg, if f.inf.isNone then fNV else fNone)
  | .fin neg m e => if m = 0 then (zeroEnc f neg, fNone) else roundFp f mode neg m e false

/-- A signalling NaN among the operands (R62). -/
def Fv.sig : Fv → Bool
  | .nan s => s
  | _ => false
/-- A NaN. -/
def Fv.isNan : Fv → Bool
  | .nan _ => true
  | _ => false
/-- The value with its sign reversed. -/
def Fv.neg : Fv → Fv
  | .nan s => .nan s
  | .inf n => .inf (!n)
  | .fin n m e => .fin (!n) m e

/-- The signed integer s with value s × 2^q of a finite value, q at most its exponent. -/
def finAt (neg : Bool) (m : Nat) (e q : Int) : Int :=
  let a : Int := ((m * 2 ^ (e - q).toNat : Nat) : Int)
  if neg then -a else a

/-- An exact result that is a NaN raised by the operation itself, or a value with the flags that the operands raise. -/
structure Exact where
  v : Fv
  nv : Bool
  deriving DecidableEq, Repr

/-- The exact sum (R60): the mode decides only the sign of an exact zero. -/
def addFv (mode : Mode) : Fv → Fv → Exact
  | .nan s, b => ⟨.nan false, s || b.sig⟩
  | a, .nan s => ⟨.nan false, s || a.sig⟩
  | .inf x, .inf y => if x = y then ⟨.inf x, false⟩ else ⟨.nan false, true⟩
  | .inf x, .fin .. => ⟨.inf x, false⟩
  | .fin .., .inf y => ⟨.inf y, false⟩
  | .fin n1 m1 e1, .fin n2 m2 e2 =>
    let q := if e1 < e2 then e1 else e2
    let s := finAt n1 m1 e1 q + finAt n2 m2 e2 q
    if s = 0 then ⟨.fin (if n1 = n2 then n1 else mode == RD) 0 0, false⟩
    else ⟨.fin (decide (s < 0)) s.natAbs q, false⟩

/-- The exact product (R63: 0 × ∞). -/
def mulFv : Fv → Fv → Exact
  | .nan s, b => ⟨.nan false, s || b.sig⟩
  | a, .nan s => ⟨.nan false, s || a.sig⟩
  | .inf x, .inf y => ⟨.inf (x != y), false⟩
  | .inf x, .fin y m _ => if m = 0 then ⟨.nan false, true⟩ else ⟨.inf (x != y), false⟩
  | .fin x m _, .inf y => if m = 0 then ⟨.nan false, true⟩ else ⟨.inf (x != y), false⟩
  | .fin n1 m1 e1, .fin n2 m2 e2 => ⟨.fin (n1 != n2) (m1 * m2) (e1 + e2), false⟩

/-- Deliver an exact result. -/
def deliver (f : Fmt) (mode : Mode) (x : Exact) : Nat × Flags :=
  let (r, fl) := packFv f mode x.v
  (r, if x.nv then fl ||| fNV else fl)

/-- a + b (R216). -/
def fpAdd (f : Fmt) (mode : Mode) (a b : Nat) : Nat × Flags := deliver f mode (addFv mode (unpack f a) (unpack f b))
/-- a - b (R216). -/
def fpSub (f : Fmt) (mode : Mode) (a b : Nat) : Nat × Flags := deliver f mode (addFv mode (unpack f a) (unpack f b).neg)
/-- a × b (R216). -/
def fpMul (f : Fmt) (mode : Mode) (a b : Nat) : Nat × Flags := deliver f mode (mulFv (unpack f a) (unpack f b))

/-- (±)(a × b) (±) d rounded once (R217). -/
def fpFma (f : Fmt) (mode : Mode) (negP negD : Bool) (a b d : Nat) : Nat × Flags :=
  let p := mulFv (unpack f a) (unpack f b)
  let c := unpack f d
  let r := addFv mode (if negP then p.v.neg else p.v) (if negD then c.neg else c)
  deliver f mode ⟨r.v, r.nv || p.nv⟩

/-- Exact comparison of two values that are no NaN: less than. -/
def ltFv : Fv → Fv → Bool
  | .inf x, .inf y => x && !y
  | .inf x, .fin .. => x
  | .fin .., .inf y => !y
  | .fin n1 m1 e1, .fin n2 m2 e2 =>
    let q := if e1 < e2 then e1 else e2
    decide (finAt n1 m1 e1 q < finAt n2 m2 e2 q)
  | _, _ => false
/-- Exact comparison of two values that are no NaN: equal (−0 equals +0). -/
def eqFv (a b : Fv) : Bool := !ltFv a b && !ltFv b a && !a.isNan && !b.isNan

/-- The sign of a value. -/
def Fv.isNeg : Fv → Bool
  | .nan _ => false
  | .inf n => n
  | .fin n _ _ => n

/-- minimumNumber (R64); `mx` gives maximumNumber. -/
def fpMinMax (f : Fmt) (mx : Bool) (a b : Nat) : Nat × Flags :=
  let x := unpack f a
  let y := unpack f b
  let fl := if x.sig || y.sig then fNV else fNone
  if x.isNan && y.isNan then (f.nan, fl)
  else if x.isNan then (b, fl)
  else if y.isNan then (a, fl)
  else
    let less := ltFv x y || (eqFv x y && x.isNeg && !y.isNeg)
    (if mx then (if less then b else a) else (if less then a else b), fl)

/-- The float comparisons of R46 and R219. -/
def fpCmp (f : Fmt) (code : BitVec 3) (a b : Nat) : Bool × Flags :=
  let x := unpack f a
  let y := unpack f b
  let un := x.isNan || y.isNan
  let r := match code.toNat with
    | 0 => !un && eqFv x y
    | 1 => un || !eqFv x y
    | 2 => !un && ltFv x y
    | 3 => !un && !ltFv y x
    | 4 => !un && ltFv y x
    | 5 => !un && !ltFv x y
    | 6 => !un
    | _ => un
  (r, if x.sig || y.sig then fNV else fNone)

/-- FRND (R223): to an integral value, keeping the sign; NX is not raised. -/
def fpRnd (f : Fmt) (mode : Mode) (a : Nat) : Nat × Flags :=
  match unpack f a with
  | .nan s => (f.nan, if s then fNV else fNone)
  | .inf _ => (a, fNone)
  | .fin neg m e =>
    let (n, _) := roundAt mode neg m e 0 false
    ((packFv f RNE (.fin neg n 0)).1, fNone)

/-- The range of an integer type: signed or not, width. -/
def intLo (signed : Bool) (w : Nat) : Int := if signed then -(2 ^ (w - 1)) else 0
def intHi (signed : Bool) (w : Nat) : Int := if signed then 2 ^ (w - 1) - 1 else 2 ^ w - 1

/-- Float to integer (R65): the integer and the flags. -/
def fvToInt (mode : Mode) (signed : Bool) (w : Nat) (x : Fv) : Int × Flags :=
  match x with
  | .nan _ => (0, fNV)
  | .inf neg => (if neg then intLo signed w else intHi signed w, fNV)
  | .fin neg m e =>
    let (n, ix) := roundAt mode neg m e 0 false
    let r : Int := if neg then -(n : Int) else n
    if r < intLo signed w then (intLo signed w, fNV)
    else if intHi signed w < r then (intHi signed w, fNV)
    else (r, if ix then fNX else fNone)

/-- An integer as an exact value. -/
def intFv (x : Int) : Fv := .fin (decide (x < 0)) x.natAbs 0

/-! ### Square roots and reciprocals (R221) -/

/-- The integer square root, bit by bit from bit k. -/
def isqrtFrom (n : Nat) : Nat → Nat → Nat
  | 0, r => if (r + 1) * (r + 1) ≤ n then r + 1 else r
  | k + 1, r =>
    let r' := r + 2 ^ (k + 1)
    isqrtFrom n k (if r' * r' ≤ n then r' else r)
/-- The integer square root. -/
def isqrt (n : Nat) : Nat := isqrtFrom n (Nat.log2 n / 2) 0

/-- 1 ÷ a (R221, R222). -/
def fpRcp (a : Nat) : Nat × Flags :=
  match unpack f32 a with
  | .nan s => (f32.nan, if s then fNV else fNone)
  | .inf neg => (zeroEnc f32 neg, fNone)
  | .fin neg m e =>
    if m = 0 then (infEnc f32 neg, fDZ)
    else
      let k := Nat.log2 m + 40
      roundFp f32 RNE neg (2 ^ k / m) (-e - k) (2 ^ k % m != 0)

/-- √a (R221, R222). -/
def fpSqrt (a : Nat) : Nat × Flags :=
  match unpack f32 a with
  | .nan s => (f32.nan, if s then fNV else fNone)
  | .inf neg => if neg then (f32.nan, fNV) else (infEnc f32 false, fNone)
  | .fin neg m e =>
    if m = 0 then (a, fNone)
    else if neg then (f32.nan, fNV)
    else
      let odd := (e % 2).toNat
      let n := m * 2 ^ (odd + 80)
      let r := isqrt n
      roundFp f32 RNE false r ((e - odd - 80) / 2) (r * r != n)

/-- 1 ÷ √a (R221, R222). -/
def fpRsq (a : Nat) : Nat × Flags :=
  match unpack f32 a with
  | .nan s => (f32.nan, if s then fNV else fNone)
  | .inf neg => if neg then (f32.nan, fNV) else (0, fNone)
  | .fin neg m e =>
    if m = 0 then (infEnc f32 neg, fDZ)
    else if neg then (f32.nan, fNV)
    else
      let odd := (e % 2).toNat
      let n := m * 2 ^ odd
      let k := Nat.log2 n / 2 + 40
      let r := isqrt (2 ^ (2 * k) / n)
      roundFp f32 RNE false r (-((e - odd) / 2) - k) (r * r * n != 2 ^ (2 * k))

end Sys2Proof.Machine
end

