-- ==== Sys2Proof/Machine/Bead.lean ====
section
/-! DEFINITION. The bead formats (R69 to R73), MXF4 elements (R68), sparse packing (R226) and the Fjopomo generator (R82). -/

namespace Sys2Proof.Machine

/-- Magnitude bits m of a bead format by its NF or NSEC-free code: 1 BD3, 2 BD5, 3 BD8 (R44, R69). -/
def beadM (nf : Nat) : Nat := if nf = 1 then 2 else if nf = 2 then 4 else 7

/-- Bytes of one block's element stream (R70). -/
def beadBytes (m : Nat) : Nat := m + 1

/-- Whether a scale word belongs to a valid block: bits 15 to 12 zero (R71). -/
def scaleValid (scale : Nat) : Bool := scale / 4096 == 0

/-- Element i of a block with a valid scale word (R69, R72). -/
def beadElem (m stream scale i : Nat) : Fv :=
  let e := bits scale 0 8
  if e = 255 then .nan false
  else
    let x := bits stream ((m + 1) * i) (m + 1)
    let mu := bits scale (8 + i / 2) 1
    .fin (bit x m) (x % 2 ^ m) ((e : Int) - 127 - mu - ((m : Int) - 1))

/-- The value of a 4-bit E2M1 element under the E8M0 scale X (R68). -/
def mxf4Elem (nib x : Nat) : Fv :=
  if x = 255 then .nan false
  else
    let c := nib % 8
    let m := if c < 4 then c else if c < 6 then 4 + 2 * (c - 4) else 8 + 4 * (c - 6)
    .fin (bit nib 3) m ((x : Int) - 128)

/-- The result of R73: element stream, scale word, outliers (index, F32 bits) in rising order, flags. -/
structure BeadBlock where
  stream   : Nat
  scale    : Nat
  outliers : List (Nat × Nat)
  flags    : Flags
  deriving DecidableEq, Repr

/-- ex(x) of R73 for a finite non-zero value. -/
def exOf (m : Nat) (e : Int) : Int := (Nat.log2 m : Int) + e + 127

/-- The conversion of eight F32 values into one block of m-bit magnitudes with limit EL (R73). -/
def beadPack (m el : Nat) (xs : List Nat) : BeadBlock :=
  let el := if el % 256 = 255 then 254 else el % 256
  let vs := xs.map (unpack f32)
  if vs.any Fv.isNan then ⟨0, 0x00FF, [], fNV⟩
  else
    let exs := vs.filterMap fun v => match v with
      | .fin _ k e => if k = 0 then none else some (exOf k e)
      | _ => none
    let emax := match exs with
      | [] => (0 : Int)
      | x :: r => r.foldl max x
    let E : Int := max 0 (min emax el)
    let isOut := fun v => match v with
      | Fv.inf _ => true
      | Fv.fin _ k e => k != 0 && decide (E < exOf k e)
      | Fv.nan _ => false
    let small := fun v => isOut v || match v with
      | Fv.fin _ k e => k == 0 || decide (exOf k e < E)
      | _ => false
    let at_ := fun i => vs.getD i (.fin false 0 0)
    let mu := fun j => if small (at_ (2 * j)) && small (at_ (2 * j + 1)) then 1 else 0
    let elem := fun i => match at_ i with
      | .fin neg k e =>
        if isOut (at_ i) then (0, false)
        else
          let q : Int := E - 127 - (mu (i / 2) : Nat) - ((m : Int) - 1)
          let (g, ix) := roundAt RNE neg k e q false
          let mag := if g = 2 ^ m then 2 ^ m - 1 else g
          (mag + (if neg then 2 ^ m else 0), ix || g == 2 ^ m)
      | _ => (0, false)
    let idx := List.range 8
    ⟨idx.foldl (fun a i => a + (elem i).1 * 2 ^ ((m + 1) * i)) 0,
      E.toNat + (List.range 4).foldl (fun a j => a + mu j * 2 ^ (8 + j)) 0,
      idx.filterMap fun i => if isOut (at_ i) then some (i, xs.getD i 0) else none,
      if idx.any (fun i => (elem i).2) then fNX else fNone⟩

/-- SPK (R226): the packed pair and the index word. -/
def spkOf (x : List Nat) : Nat × Nat :=
  let mag := fun j => (x.getD j 0) % 2 ^ 15
  let before := fun i j => mag j < mag i || (mag i == mag j && i < j)
  let rank := fun i => ((List.range 4).filter fun j => before j i && j != i).length
  let kept := (List.range 4).filter fun i => rank i < 2
  let q0 := kept.getD 0 0
  let q1 := kept.getD 1 0
  ((x.getD q0 0) % 65536 + 65536 * ((x.getD q1 0) % 65536), q0 + 4 * q1)

/-- The Fjopomo generator (R82). -/
def fjopomo (key ctr : Dword) : Dword :=
  let z := ctr * 0x9E3779B97F4A7C15 + key
  let z := (z ^^^ (z >>> 30)) * 0xBF58476D1CE4E5B9
  let z := (z ^^^ (z >>> 27)) * 0x94D049BB133111EB
  z ^^^ (z >>> 31)

end Sys2Proof.Machine
end

