-- ==== Sys2Proof/WellFormed.lean ====
section
/-! DEFINITION. Which instructions are well formed: every register field names what its row allows (R39, R40) and every
modifier or sub-field holds an assigned value (R46 to R51, R224, R272, R324, R326). Device steps carry no encoding and are
always well formed. -/

namespace Sys2Proof

/-- A source register: v, e or a special (R39). -/
def Reg.isSrc (r : Reg) : Bool := r.toNat ≤ 120
/-- A destination register: v, e or DISCARD (R39). -/
def Reg.isDst (r : Reg) : Bool := r.toNat ≤ 111 || r.toNat == 127
/-- A destination that is also read (R203): v or e (log entry 12). -/
def Reg.isBoth (r : Reg) : Bool := r.toNat ≤ 111
/-- The first register of a source group of n, n a power of two (R40). -/
def Reg.isSrcGroup (n : Nat) (r : Reg) : Bool := r.toNat % n == 0 && r.toNat < 112
/-- The first register of a destination group of n, or DISCARD (R40). -/
def Reg.isDstGroup (n : Nat) (r : Reg) : Bool := r.isSrcGroup n || r.toNat == 127

/-- How many registers a width code of LD and ST names (R257): 1, a pair for B64, a group of 4 for B128. -/
def widthRegs (w : BitVec 3) : Nat := if w = 3 then 2 else if w = 4 then 4 else 1
/-- How many registers LDD and STD name (R260). -/
def deckRegs (w : BitVec 2) : Nat := if w = 0 then 1 else if w = 1 then 2 else 4
/-- How many registers an ACCUM read format names (R272). -/
def accRegs (f : BitVec 3) : Nat := if f = 0 ∨ f = 1 then 1 else if f = 5 then 2 else 4
/-- How many data registers an ATOM names (R324): CAS takes two values, N64 takes pairs. -/
def atomRegs (op : BitVec 3) (ty : BitVec 2) : Nat := (if op = 7 then 2 else 1) * (if ty = 2 then 2 else 1)
/-- Whether a CVT destination code is an integer type (R46). -/
def cvtIntDst (dst : BitVec 5) : Bool := dst.toNat ≤ 7
/-- Whether a CVT destination fills a pair: I64 or N64 (R224). -/
def cvtPairDst (dst : BitVec 5) : Bool := dst = 2 || dst = 3

namespace Instr

/-- The control registers that R171 assigns. -/
def ctlAssigned (n : Nat) : Bool :=
  n ≤ 2 || (8 ≤ n && n ≤ 0xC) || (0x10 ≤ n && n ≤ 0x13) || (0x20 ≤ n && n ≤ 0x40)
/-- The control registers that R171 marks RW. -/
def ctlWritable (n : Nat) : Bool := n == 0 || n == 2 || n == 8 || (0x20 ≤ n && n ≤ 0x40)

/-- Whether a reduction operation and lane type are assigned (R46). -/
def redOk (op : BitVec 3) (ty : BitVec 2) : Bool := op.toNat ≤ 5 && ty.toNat ≤ 2 && !(3 ≤ op.toNat && ty == 2)

/-- Modifier and sub-field values are assigned (cause RESERVED-VALUE otherwise, R53). -/
def valOk : Instr → Bool
  | ctxr _ _ n => ctlAssigned n.toNat
  | ctxw _ n _ => ctlWritable n.toNat
  | modw _ _ fill _ => fill != 3
  | red _ op ty _ _ _ => redOk op ty
  | scan _ op ty _ _ _ => redOk op ty
  | win _ n => n.toNat ≤ 10
  | shape _ _ a => a.toNat ≤ 95
  | cvt _ src _ _ dst mode => dst.toNat ≤ 12 && !(src.toNat ≤ 3 && cvtIntDst dst && mode != 0)
  | ld _ w _ _ _ => w.toNat ≤ 5
  | st _ w _ _ _ => w.toNat ≤ 4
  | ldd _ w _ _ _ => w.toNat ≤ 2
  | std _ w _ _ _ => w.toNat ≤ 2
  | icmp _ cmp _ _ _ _ _ => cmp != 7
  | accrd _ _ _ _ fmt => fmt.toNat ≤ 5
  | accwr _ _ _ _ fmt => fmt.toNat ≤ 5
  | atom _ op _ _ ty sc _ => sc != 0 && !(ty == 3 && (op == 3 || op == 4 || op == 5 || op == 7))
  | atomb _ op _ _ ty sc => sc != 0 && op.toNat ≤ 5 && !(ty == 3 && 3 ≤ op.toNat)
  | fence _ _ kind => kind != 3
  | _ => true

/-- Register fields name what their rows allow (cause BAD-REGISTER otherwise, R53). -/
def regOk : Instr → Bool
  | ctxr _ d _ => d.isDst
  | ctxw _ _ a => a.isSrc
  | clkCyc _ d => d.isDstGroup 2
  | clkNs _ d => d.isDstGroup 2
  | signal _ a b => a.isSrcGroup 2 && b.isSrc
  | call d a => d.isDst && a.isSrc
  | jmpi a => a.isSrc
  | ret a => a.isSrc
  | mset _ _ a => a.isSrc
  | mget _ d _ => d.isDst
  | bar _ _ a _ => a.isSrc
  | bararr _ _ a => a.isSrc
  | vote _ _ d _ => d.isDst
  | red _ _ _ d a _ => d.isDst && a.isSrc
  | scan _ _ _ _ d a => d.isDst && a.isSrc
  | xlane _ _ d a _ => d.isDst && a.isSrc
  | perm _ d a b => d.isDst && a.isSrc && b.isSrc
  | bcast _ d a _ => d.isDst && a.isSrc
  | patld _ d a b => d.isDst && a.isSrc && b.isSrcGroup 2
  | tilef _ d _ => d.isDst
  | shape _ d _ => d.isDst
  | rngLo _ d a b => d.isDst && a.isSrcGroup 2 && b.isSrcGroup 2
  | rngHi _ d a b => d.isDst && a.isSrcGroup 2 && b.isSrcGroup 2
  | rngsLo _ d => d.isDst
  | rngsHi _ d => d.isDst
  | add _ d a b | sub _ d a b | mulLo _ d a b | mulHi _ d a b | min _ d a b | max _ d a b | absd _ d a b
  | and _ d a b | or _ d a b | xor _ d a b | andn _ d a b | shl _ d a b | shr _ d a b | shra _ d a b | rot _ d a b
  | bfe _ d a b | div _ d a b | rem _ d a b | addc _ d a b | subb _ d a b | sel _ d a b
  | fadd _ d a b | fsub _ d a b | fmul _ d a b | fmin _ d a b | fmax _ d a b | pkadd _ d a b | pkmul _ d a b =>
    d.isDst && a.isSrc && b.isSrc
  | bfi _ d a b | mad _ d a b | madh _ d a b | ffma _ d a b | ffms _ d a b | fnma _ d a b | pkfma _ d a b =>
    d.isBoth && a.isSrc && b.isSrc
  | add64 _ d a b | sub64 _ d a b => d.isDstGroup 2 && a.isSrcGroup 2 && b.isSrcGroup 2
  | neg _ d a | popc _ d a | clz _ d a | brev _ d a
  | frcp _ d a | frsq _ d a | fsqrt _ d a | fexp2 _ d a | flog2 _ d a | fsin _ d a | fcos _ d a => d.isDst && a.isSrc
  | frnd _ d a _ => d.isDst && a.isSrc
  | icmp _ _ _ _ _ a b => a.isSrc && b.isSrc
  | fcmp _ _ _ a b => a.isSrc && b.isSrc
  | addi _ d a _ => d.isDst && a.isSrc
  | andi _ d a _ | ori _ d a _ | xori _ d a _ => d.isDst && a.isSrc
  | shli _ d a _ | shri _ d a _ | shrai _ d a _ | roti _ d a _ => d.isDst && a.isSrc
  | movlLo _ d _ => d.isDst
  | movlHi _ d _ => d.isBoth
  | movp _ d _ => d.isDst
  | pset _ _ a => a.isSrc
  | cvt _ src d a dst _ =>
    (if cvtPairDst dst then d.isDstGroup 2 else d.isDst) && (if src = 2 ∨ src = 3 then a.isSrcGroup 2 else a.isSrc)
  | spk _ d a => d.isDstGroup 2 && a.isSrcGroup 4
  | cvtbd _ d a b => d.isDstGroup 4 && a.isSrcGroup 8 && b.isSrcGroup 4
  | ld _ w d a _ => (if widthRegs w = 1 then d.isDst else d.isDstGroup (widthRegs w)) && a.isSrcGroup 2
  | st _ w d a _ => (if widthRegs w = 1 then d.isSrc else d.isSrcGroup (widthRegs w)) && a.isSrcGroup 2
  | ldd _ w d a _ => (if deckRegs w = 1 then d.isDst else d.isDstGroup (deckRegs w)) && a.isSrc
  | std _ w d a _ => (if deckRegs w = 1 then d.isSrc else d.isSrcGroup (deckRegs w)) && a.isSrc
  | cpAsync _ d a _ _ | cpPlane _ d a _ _ => d.isSrcGroup 2 && a.isSrcGroup 2
  | cpOut _ d a _ => d.isSrcGroup 2 && a.isSrcGroup 2
  | tagget _ d _ => d.isDst
  | pref _ a _ => a.isSrcGroup 2
  | accrd _ d a _ fmt => (if accRegs fmt = 1 then d.isDst else d.isDstGroup (accRegs fmt)) && a.isSrc
  | accwr _ d a _ fmt => (if accRegs fmt = 1 then d.isSrc else d.isSrcGroup (accRegs fmt)) && a.isSrc
  | atom _ op d a ty _ rt =>
    (if atomRegs op ty = 1 then (if rt then d.isBoth else d.isSrc) else d.isSrcGroup (atomRegs op ty)) && a.isSrcGroup 2
  | atomb _ _ d a ty _ => (if ty = 2 then d.isSrcGroup 2 else d.isSrc) && a.isSrcGroup 2
  | ldacq _ d a _ b64 => (if b64 then d.isDstGroup 2 else d.isDst) && a.isSrcGroup 2
  | strel _ d a _ b64 => (if b64 then d.isSrcGroup 2 else d.isSrc) && a.isSrcGroup 2
  | acqr _ a => a.isSrc
  | sample _ d a _ | sload _ d a _ => d.isDstGroup 4 && a.isSrcGroup 4
  | sampleg _ d a _ => d.isDstGroup 4 && a.isSrcGroup 8
  | smma _ d a f => d.isSrcGroup 8 && a.isSrcGroup 8 && f.isSrc
  | mxIssue _ a => a.isSrc
  | hopen _ d _ => d.isDst
  | hget _ d => d.isDst
  | hset _ a | hconfirm _ a | hrefute _ a | horphan _ a => a.isSrc
  | hstate _ d a => d.isDst && a.isSrc
  | taskout _ a c => a.isSrc && c.isSrc
  | vtxout _ a _ => a.isSrcGroup 4
  | primout _ a => a.isSrc
  | pixout _ a _ => a.isSrcGroup 4
  | _ => true

/-- Well-formed instructions. -/
def wellFormed (i : Instr) : Bool := i.valOk && i.regOk

end Instr
end Sys2Proof
end

