-- ==== Sys2Proof/Decode.lean ====
section
/-! DEFINITION. Decoding (R37, R38, R47 to R53) and encoding of instruction words. `decodeWord` judges one word by
itself and answers the instruction or the lowest cause code of R53; the rules about a word's place in its block stand in
Machine/Seq.lean. The encoder is written from the same tables. -/

namespace Sys2Proof

/-! ### Fields (R37) -/

/-- S of every format. -/
def fS (w : Word) : Bool := w.getLsbD 31
/-- MAJ of every format. -/
def fMaj (w : Word) : BitVec 5 := w.extractLsb' 26 5
/-- FN of formats T, M and B. -/
def fFn (w : Word) : BitVec 3 := w.extractLsb' 23 3
/-- G of formats T and M. -/
def fG (w : Word) : BitVec 2 := w.extractLsb' 21 2
/-- D of formats T and M. -/
def fD (w : Word) : Reg := w.extractLsb' 14 7
/-- A of formats T and M. -/
def fA (w : Word) : Reg := w.extractLsb' 7 7
/-- B of format T, OFF of format M. -/
def fB (w : Word) : BitVec 7 := w.extractLsb' 0 7
/-- G of format I. -/
def fIG (w : Word) : BitVec 2 := w.extractLsb' 24 2
/-- D of format I. -/
def fID (w : Word) : Reg := w.extractLsb' 17 7
/-- A of format I. -/
def fIA (w : Word) : Reg := w.extractLsb' 10 7
/-- IMM of format I. -/
def fIImm (w : Word) : BitVec 10 := w.extractLsb' 0 10
/-- D of format L. -/
def fLD (w : Word) : Reg := w.extractLsb' 19 7
/-- IMM of format L. -/
def fLImm (w : Word) : BitVec 19 := w.extractLsb' 0 19
/-- P of format B. -/
def fBP (w : Word) : BitVec 3 := w.extractLsb' 20 3
/-- N of format B. -/
def fBN (w : Word) : Bool := w.getLsbD 19
/-- OFF of format B. -/
def fBOff (w : Word) : BitVec 19 := w.extractLsb' 0 19

/-- A format T or M word from its fields. -/
def wT (s : Bool) (maj : BitVec 5) (fn : BitVec 3) (g : BitVec 2) (d a b : BitVec 7) : Word :=
  BitVec.ofBool s ++ maj ++ fn ++ g ++ d ++ a ++ b
/-- A format I word from its fields. -/
def wI (s : Bool) (maj : BitVec 5) (g : BitVec 2) (d a : BitVec 7) (imm : BitVec 10) : Word :=
  BitVec.ofBool s ++ maj ++ g ++ d ++ a ++ imm
/-- A format L word from its fields. -/
def wL (s : Bool) (maj : BitVec 5) (d : BitVec 7) (imm : BitVec 19) : Word :=
  BitVec.ofBool s ++ maj ++ d ++ imm
/-- A format B word from its fields. -/
def wB (s : Bool) (maj : BitVec 5) (fn p : BitVec 3) (n : Bool) (off : BitVec 19) : Word :=
  BitVec.ofBool s ++ maj ++ fn ++ p ++ BitVec.ofBool n ++ off

/-- A 7-bit field that holds a smaller number in its low bits. -/
def z7 {n : Nat} (x : BitVec n) : BitVec 7 := x.setWidth 7
/-- The low n bits of a 7-bit field. -/
def lo (n : Nat) (x : BitVec 7) : BitVec n := x.setWidth n
/-- The bits of a 7-bit field from bit n up are zero (R38). -/
def hiZero (n : Nat) (x : BitVec 7) : Bool := x.toNat < 2 ^ n

/-- What a row of the opcode map reads from a word: the instruction, whether the fields that the row marks 0 are zero, and
the stop and guard rules that the row breaks. -/
structure Dec where
  instr : Instr
  zero  : Bool
  noStop : Bool
  ctlGuard : Bool
  stopRule : Bool
  deriving DecidableEq, Repr

/-- A row without a rule about S. -/
def row (i : Instr) (zero : Bool) : Option Dec := some ⟨i, zero, false, false, false⟩
/-- A CTRL row: S must be 1 and G zero (R41, R42). -/
def rowCtl (w : Word) (i : Instr) (zero g0 : Bool) : Option Dec := some ⟨i, zero, !fS w, !g0, false⟩
/-- A row of BAR, BARWT, TAGWAIT or PAUSE: S must be 1 (R42). -/
def rowStop (w : Word) (i : Instr) (zero : Bool) : Option Dec := some ⟨i, zero, false, false, !fS w⟩

/-- S and G of formats T and M. -/
def hT (w : Word) : Hdr := ⟨fS w, fG w⟩
/-- S and G of format I. -/
def hI (w : Word) : Hdr := ⟨fS w, fIG w⟩

/-- SYS (R47). -/
def decSys (w : Word) : Option Dec :=
  match (fFn w).toNat with
  | 0 => row (.nop (hT w)) (fD w == 0 && fA w == 0 && fB w == 0)
  | 1 => row (.trap (hT w) (fB w)) (fD w == 0 && fA w == 0)
  | 2 => row (.bkpt (hT w) (fB w)) (fD w == 0 && fA w == 0)
  | 3 => row (.ctxr (hT w) (fD w) (fB w)) (fA w == 0)
  | 4 => row (.ctxw (hT w) (fB w) (fA w)) (fD w == 0)
  | 5 => row (if fB w = 0 then .clkCyc (hT w) (fD w) else .clkNs (hT w) (fD w)) (fA w == 0 && hiZero 1 (fB w))
  | 6 => row (.signal (hT w) (fA w) (fB w)) (fD w == 0)
  | _ => row (.modw (lo 2 (fB w)) ((fB w).getLsbD 2) ((fB w).extractLsb' 3 2) ((fB w).extractLsb' 5 2))
      (fD w == 0 && fA w == 0 && fG w == 0)

/-- CTRL (R47). -/
def decCtrl (w : Word) : Option Dec :=
  match (fFn w).toNat with
  | 0 => rowCtl w (if fBN w then .braNot (fBP w) (fBOff w) else .bra (fBP w) (fBOff w)) true true
  | 1 => rowCtl w (.jmp (fBOff w)) true (fBP w == 0 && !fBN w)
  | 2 => rowCtl w (.call (fD w) (fA w)) (fB w == 0) (fG w == 0)
  | 3 => rowCtl w (.jmpi (fA w)) (fD w == 0 && fB w == 0) (fG w == 0)
  | 4 => rowCtl w (.ret (fA w)) (fD w == 0 && fB w == 0) (fG w == 0)
  | 5 => rowCtl w .exit (fD w == 0 && fA w == 0 && fB w == 0) (fG w == 0)
  | _ => none

/-- RALLY (R47). -/
def decRally (w : Word) : Option Dec :=
  match (fFn w).toNat with
  | 0 => row (.rally (hT w) (lo 3 (fD w)) (fB w)) (hiZero 3 (fD w) && fA w == 0)
  | 1 => row (.mjoin (hT w) (lo 3 (fD w))) (hiZero 3 (fD w) && fA w == 0 && fB w == 0)
  | 2 => row (.mclr (hT w) (lo 3 (fD w))) (hiZero 3 (fD w) && fA w == 0 && fB w == 0)
  | 3 => row (.mset (hT w) (lo 3 (fD w)) (fA w)) (hiZero 3 (fD w) && fB w == 0)
  | 4 => row (.mget (hT w) (fD w) (lo 3 (fB w))) (hiZero 3 (fB w) && fA w == 0)
  | 5 => rowStop w (.bar (fG w) (lo 4 (fB w)) (fA w) (lo 3 (fD w))) (hiZero 4 (fB w) && hiZero 3 (fD w))
  | 6 => row (.bararr (hT w) (lo 4 (fB w)) (fA w)) (hiZero 4 (fB w) && fD w == 0)
  | _ => rowStop w (.barwt (fG w) (lo 4 (fB w))) (hiZero 4 (fB w) && fD w == 0 && fA w == 0)

/-- LANE (R47). -/
def decLane (w : Word) : Option Dec :=
  match (fFn w).toNat with
  | 0 => row (.vote (hT w) (lo 2 (fB w)) (fD w) (lo 3 (fA w))) (hiZero 3 (fA w) && hiZero 2 (fB w))
  | 1 => row (.red (hT w) (lo 3 (fB w)) ((fB w).extractLsb' 3 2) (fD w) (fA w) ((fB w).extractLsb' 5 2)) true
  | 2 => row (.scan (hT w) (lo 3 (fB w)) ((fB w).extractLsb' 3 2) ((fB w).getLsbD 5) (fD w) (fA w)) (hiZero 6 (fB w))
  | 3 => row (.xlane (hT w) ((fB w).extractLsb' 5 2) (fD w) (fA w) (lo 5 (fB w))) true
  | 4 => row (.perm (hT w) (fD w) (fA w) (fB w)) true
  | 5 => row (.bcast (hT w) (fD w) (fA w) (lo 5 (fB w))) (hiZero 5 (fB w))
  | 6 => row (.patld (hT w) (fD w) (fA w) (fB w)) true
  | _ => none

/-- WORK (R47). -/
def decWork (w : Word) : Option Dec :=
  match (fFn w).toNat with
  | 0 => row (.tilef (hT w) (fD w) (lo 3 (fB w))) (hiZero 3 (fB w) && fA w == 0)
  | 1 => row (.win (hT w) (lo 4 (fB w))) (hiZero 4 (fB w) && fD w == 0 && fA w == 0)
  | 2 => rowStop w (.pause (fG w) (fB w)) (fD w == 0 && fA w == 0)
  | 3 => row (.shape (hT w) (fD w) (fA w)) (fB w == 0)
  | 4 => row (.rngLo (hT w) (fD w) (fA w) (fB w)) true
  | 5 => row (if fB w = 0 then .rngsLo (hT w) (fD w) else .rngsHi (hT w) (fD w)) (fA w == 0 && hiZero 1 (fB w))
  | 6 => row (.rngHi (hT w) (fD w) (fA w) (fB w)) true
  | _ => none

/-- IALU (R48). -/
def decIalu (w : Word) : Option Dec :=
  match (fFn w).toNat with
  | 0 => row (.add (hT w) (fD w) (fA w) (fB w)) true
  | 1 => row (.sub (hT w) (fD w) (fA w) (fB w)) true
  | 2 => row (.mulLo (hT w) (fD w) (fA w) (fB w)) true
  | 3 => row (.mulHi (hT w) (fD w) (fA w) (fB w)) true
  | 4 => row (.min (hT w) (fD w) (fA w) (fB w)) true
  | 5 => row (.max (hT w) (fD w) (fA w) (fB w)) true
  | 6 => row (.absd (hT w) (fD w) (fA w) (fB w)) true
  | _ => row (.neg (hT w) (fD w) (fA w)) (fB w == 0)

/-- ILOG (R48). -/
def decIlog (w : Word) : Option Dec :=
  match (fFn w).toNat with
  | 0 => row (.and (hT w) (fD w) (fA w) (fB w)) true
  | 1 => row (.or (hT w) (fD w) (fA w) (fB w)) true
  | 2 => row (.xor (hT w) (fD w) (fA w) (fB w)) true
  | 3 => row (.andn (hT w) (fD w) (fA w) (fB w)) true
  | 4 => row (.shl (hT w) (fD w) (fA w) (fB w)) true
  | 5 => row (.shr (hT w) (fD w) (fA w) (fB w)) true
  | 6 => row (.shra (hT w) (fD w) (fA w) (fB w)) true
  | _ => row (.rot (hT w) (fD w) (fA w) (fB w)) true

/-- IBIT (R48). -/
def decIbit (w : Word) : Option Dec :=
  match (fFn w).toNat with
  | 0 => row (.bfe (hT w) (fD w) (fA w) (fB w)) true
  | 1 => row (.bfi (hT w) (fD w) (fA w) (fB w)) true
  | 2 => row (.popc (hT w) (fD w) (fA w)) (fB w == 0)
  | 3 => row (.clz (hT w) (fD w) (fA w)) (fB w == 0)
  | 4 => row (.brev (hT w) (fD w) (fA w)) (fB w == 0)
  | 5 => row (.div (hT w) (fD w) (fA w) (fB w)) true
  | 6 => row (.rem (hT w) (fD w) (fA w) (fB w)) true
  | _ => none

/-- IMAD (R48). -/
def decImad (w : Word) : Option Dec :=
  match (fFn w).toNat with
  | 0 => row (.mad (hT w) (fD w) (fA w) (fB w)) true
  | 1 => row (.madh (hT w) (fD w) (fA w) (fB w)) true
  | 2 => row (.add64 (hT w) (fD w) (fA w) (fB w)) true
  | 3 => row (.sub64 (hT w) (fD w) (fA w) (fB w)) true
  | 4 => row (.addc (hT w) (fD w) (fA w) (fB w)) true
  | 5 => row (.subb (hT w) (fD w) (fA w) (fB w)) true
  | _ => none

/-- ICMP (R48). -/
def decIcmp (w : Word) : Option Dec :=
  if fFn w = 7 then none
  else row (.icmp (hT w) (fFn w) (lo 3 (fD w)) ((fD w).extractLsb' 3 3) ((fD w).getLsbD 6) (fA w) (fB w)) true

/-- LOGI (R49). -/
def decLogi (w : Word) : Option Dec :=
  let i7 := (fIImm w).extractLsb' 0 7
  let i6 := (fIImm w).extractLsb' 0 6
  let z := !(fIImm w).getLsbD 6
  match ((fIImm w).extractLsb' 7 3).toNat with
  | 0 => row (.andi (hI w) (fID w) (fIA w) i7) true
  | 1 => row (.ori (hI w) (fID w) (fIA w) i7) true
  | 2 => row (.xori (hI w) (fID w) (fIA w) i7) true
  | 3 => row (.shli (hI w) (fID w) (fIA w) i6) z
  | 4 => row (.shri (hI w) (fID w) (fIA w) i6) z
  | 5 => row (.shrai (hI w) (fID w) (fIA w) i6) z
  | 6 => row (.roti (hI w) (fID w) (fIA w) i6) z
  | _ => row (.roti (hI w) (fID w) (fIA w) i6) false

/-- MOVL (R49). -/
def decMovl (w : Word) : Option Dec :=
  let imm := (fLImm w).extractLsb' 0 16
  row (if (fLImm w).getLsbD 18 then .movlHi (fS w) (fLD w) imm else .movlLo (fS w) (fLD w) imm)
    ((fLImm w).extractLsb' 16 2 == 0)

/-- PRED (R50). -/
def decPred (w : Word) : Option Dec :=
  match (fFn w).toNat with
  | 0 => row (.pand (hT w) (lo 3 (fD w)) (lo 3 (fA w)) (lo 3 (fB w))) (hiZero 3 (fD w) && hiZero 3 (fA w) && hiZero 3 (fB w))
  | 1 => row (.por (hT w) (lo 3 (fD w)) (lo 3 (fA w)) (lo 3 (fB w))) (hiZero 3 (fD w) && hiZero 3 (fA w) && hiZero 3 (fB w))
  | 2 => row (.pxor (hT w) (lo 3 (fD w)) (lo 3 (fA w)) (lo 3 (fB w))) (hiZero 3 (fD w) && hiZero 3 (fA w) && hiZero 3 (fB w))
  | 3 => row (.pnot (hT w) (lo 3 (fD w)) (lo 3 (fA w))) (hiZero 3 (fD w) && hiZero 3 (fA w) && fB w == 0)
  | 4 => row (.sel (hT w) (fD w) (fA w) (fB w)) true
  | 5 => row (.movp (hT w) (fD w) (lo 3 (fA w))) (hiZero 3 (fA w) && fB w == 0)
  | 6 => row (.pset (hT w) (lo 3 (fD w)) (fA w)) (hiZero 3 (fD w) && fB w == 0)
  | _ => none

/-- FALU (R48). -/
def decFalu (w : Word) : Option Dec :=
  match (fFn w).toNat with
  | 0 => row (.fadd (hT w) (fD w) (fA w) (fB w)) true
  | 1 => row (.fsub (hT w) (fD w) (fA w) (fB w)) true
  | 2 => row (.fmul (hT w) (fD w) (fA w) (fB w)) true
  | 3 => row (.fmin (hT w) (fD w) (fA w) (fB w)) true
  | 4 => row (.fmax (hT w) (fD w) (fA w) (fB w)) true
  | 5 => row (.fcmp (hT w) ((fD w).extractLsb' 3 3) (lo 3 (fD w)) (fA w) (fB w)) (hiZero 6 (fD w))
  | _ => none

/-- FFMA (R48). -/
def decFfma (w : Word) : Option Dec :=
  match (fFn w).toNat with
  | 0 => row (.ffma (hT w) (fD w) (fA w) (fB w)) true
  | 1 => row (.ffms (hT w) (fD w) (fA w) (fB w)) true
  | 2 => row (.fnma (hT w) (fD w) (fA w) (fB w)) true
  | 3 => row (.pkfma (hT w) (fD w) (fA w) (fB w)) true
  | _ => none

/-- FSFU (R48). -/
def decFsfu (w : Word) : Option Dec :=
  match (fFn w).toNat with
  | 0 => row (.frcp (hT w) (fD w) (fA w)) (fB w == 0)
  | 1 => row (.frsq (hT w) (fD w) (fA w)) (fB w == 0)
  | 2 => row (.fsqrt (hT w) (fD w) (fA w)) (fB w == 0)
  | 3 => row (.fexp2 (hT w) (fD w) (fA w)) (fB w == 0)
  | 4 => row (.flog2 (hT w) (fD w) (fA w)) (fB w == 0)
  | 5 => row (.fsin (hT w) (fD w) (fA w)) (fB w == 0)
  | 6 => row (.fcos (hT w) (fD w) (fA w)) (fB w == 0)
  | _ => row (.frnd (hT w) (fD w) (fA w) (lo 2 (fB w))) (hiZero 2 (fB w))

/-- CVT (R48). -/
def decCvt (w : Word) : Option Dec :=
  row (.cvt (hT w) (fFn w) (fD w) (fA w) (lo 5 (fB w)) ((fB w).extractLsb' 5 2)) true

/-- PACK (R48). -/
def decPack (w : Word) : Option Dec :=
  match (fFn w).toNat with
  | 0 => row (.pkadd (hT w) (fD w) (fA w) (fB w)) true
  | 1 => row (.pkmul (hT w) (fD w) (fA w) (fB w)) true
  | 2 => row (.spk (hT w) (fD w) (fA w)) (fB w == 0)
  | 3 => row (.cvtbd (hT w) (fD w) (fA w) (fB w)) true
  | _ => none

/-- LD (R51). -/
def decLd (w : Word) : Option Dec :=
  if (fFn w).toNat ≤ 5 then row (.ld (hT w) (fFn w) (fD w) (fA w) (fB w)) true else none

/-- ST (R51). -/
def decSt (w : Word) : Option Dec :=
  if (fFn w).toNat ≤ 4 then row (.st (hT w) (fFn w) (fD w) (fA w) (fB w)) true else none

/-- DECK (R51). -/
def decDeck (w : Word) : Option Dec :=
  match (fFn w).toNat with
  | 0 => row (.ldd (hT w) 0 (fD w) (fA w) (fB w)) true
  | 1 => row (.ldd (hT w) 1 (fD w) (fA w) (fB w)) true
  | 2 => row (.ldd (hT w) 2 (fD w) (fA w) (fB w)) true
  | 3 => row (.std (hT w) 0 (fD w) (fA w) (fB w)) true
  | 4 => row (.std (hT w) 1 (fD w) (fA w) (fB w)) true
  | 5 => row (.std (hT w) 2 (fD w) (fA w) (fB w)) true
  | _ => none

/-- ASYNC (R51). -/
def decAsync (w : Word) : Option Dec :=
  match (fFn w).toNat with
  | 0 => row (.cpAsync (hT w) (fD w) (fA w) (lo 2 (fB w)) ((fB w).getLsbD 2)) (hiZero 3 (fB w))
  | 1 => row (.cpPlane (hT w) (fD w) (fA w) (lo 2 (fB w)) ((fB w).getLsbD 2)) (hiZero 3 (fB w))
  | 2 => row (.cpOut (hT w) (fD w) (fA w) (lo 2 (fB w))) (hiZero 2 (fB w))
  | 3 => rowStop w (.tagwait (fG w) (lo 2 (fB w)) ((fB w).extractLsb' 2 5)) (fD w == 0 && fA w == 0)
  | 4 => row (.tagget (hT w) (fD w) (lo 2 (fB w))) (hiZero 2 (fB w) && fA w == 0)
  | 5 => row (.pref (hT w) (fA w) (fB w)) (fD w == 0)
  | 6 => row (.accrd (hT w) (fD w) (fA w) (lo 4 (fB w)) ((fB w).extractLsb' 4 3)) true
  | _ => row (.accwr (hT w) (fD w) (fA w) (lo 4 (fB w)) ((fB w).extractLsb' 4 3)) true

/-- ATOM and ATOMB (R51). -/
def decAtom (w : Word) : Option Dec :=
  let ty := (fB w).extractLsb' 1 2
  let sc := (fB w).extractLsb' 3 2
  if (fB w).getLsbD 0 then row (.atomb (hT w) (fFn w) (fD w) (fA w) ty sc) (hiZero 5 (fB w))
  else row (.atom (hT w) (fFn w) (fD w) (fA w) ty sc ((fB w).getLsbD 5)) (hiZero 6 (fB w))

/-- SYNC (R51). -/
def decSync (w : Word) : Option Dec :=
  match (fFn w).toNat with
  | 0 => row (.fence (hT w) (lo 2 (fB w)) ((fB w).extractLsb' 2 2)) (hiZero 4 (fB w) && fD w == 0 && fA w == 0)
  | 1 => row (.ldacq (hT w) (fD w) (fA w) (lo 2 (fB w)) ((fB w).getLsbD 2)) (hiZero 3 (fB w))
  | 2 => row (.strel (hT w) (fD w) (fA w) (lo 2 (fB w)) ((fB w).getLsbD 2)) (hiZero 3 (fB w))
  | 3 => row (.acqr (hT w) (fA w)) (fD w == 0 && fB w == 0)
  | 4 => row (.aflush (hT w)) (fD w == 0 && fA w == 0 && fB w == 0)
  | _ => none

/-- SAMP (R51). -/
def decSamp (w : Word) : Option Dec :=
  match (fFn w).toNat with
  | 0 => row (.sample (hT w) (fD w) (fA w) (fB w)) true
  | 1 => row (.sampleg (hT w) (fD w) (fA w) (fB w)) true
  | 2 => row (.sload (hT w) (fD w) (fA w) (fB w)) true
  | 3 => row (.hinv (hT w) (fB w)) (fD w == 0 && fA w == 0)
  | 4 => row (.wpin (hT w) (fB w)) (fD w == 0 && fA w == 0)
  | 5 => row (.wunpin (hT w) (fB w)) (fD w == 0 && fA w == 0)
  | 6 => row (.smma (hT w) (fD w) (fA w) (fB w)) true
  | _ => none

/-- MX (R51). -/
def decMx (w : Word) : Option Dec :=
  match (fFn w).toNat with
  | 0 => row (.mxIssue (hT w) (fA w)) (fD w == 0 && fB w == 0)
  | 1 => row (.mxZero (hT w) (lo 4 (fB w)) ((fB w).extractLsb' 4 2)) (hiZero 6 (fB w) && fD w == 0 && fA w == 0)
  | _ => none

/-- HYP (R51). -/
def decHyp (w : Word) : Option Dec :=
  match (fFn w).toNat with
  | 0 => row (.hopen (hT w) (fD w) (lo 3 (fB w))) (hiZero 3 (fB w) && fA w == 0)
  | 1 => row (.hset (hT w) (fA w)) (fD w == 0 && fB w == 0)
  | 2 => row (.hget (hT w) (fD w)) (fA w == 0 && fB w == 0)
  | 3 => row (.hconfirm (hT w) (fA w)) (fD w == 0 && fB w == 0)
  | 4 => row (.hrefute (hT w) (fA w)) (fD w == 0 && fB w == 0)
  | 5 => row (.hstate (hT w) (fD w) (fA w)) (fB w == 0)
  | 6 => row (.horphan (hT w) (fA w)) (fD w == 0 && fB w == 0)
  | _ => none

/-- GFX (R51). -/
def decGfx (w : Word) : Option Dec :=
  match (fFn w).toNat with
  | 0 => row (.taskout (hT w) (fA w) (fB w)) (fD w == 0)
  | 1 => row (.vtxout (hT w) (fA w) (lo 6 (fB w))) (hiZero 6 (fB w) && fD w == 0)
  | 2 => row (.primout (hT w) (fA w)) (fD w == 0 && fB w == 0)
  | 3 => row (.pixout (hT w) (fA w) (lo 3 (fB w))) (hiZero 3 (fB w) && fD w == 0)
  | 4 => row (.kill (hT w)) (fD w == 0 && fA w == 0 && fB w == 0)
  | _ => none

/-- The row of the opcode map that a word's class and FN select (R38): none where FN is not listed. -/
def decRow (w : Word) : Option Dec :=
  match (fMaj w).toNat with
  | 0x00 => decSys w
  | 0x01 => decCtrl w
  | 0x02 => decRally w
  | 0x03 => decLane w
  | 0x04 => decWork w
  | 0x05 => decIalu w
  | 0x06 => decIlog w
  | 0x07 => decIbit w
  | 0x08 => decImad w
  | 0x09 => decIcmp w
  | 0x0A => row (.addi (hI w) (fID w) (fIA w) (fIImm w)) true
  | 0x0B => decLogi w
  | 0x0C => decMovl w
  | 0x0D => decPred w
  | 0x0E => decFalu w
  | 0x0F => decFfma w
  | 0x10 => decFsfu w
  | 0x11 => decCvt w
  | 0x12 => decPack w
  | 0x13 => decLd w
  | 0x14 => decSt w
  | 0x15 => decDeck w
  | 0x16 => decAsync w
  | 0x17 => decAtom w
  | 0x18 => decSync w
  | 0x19 => decSamp w
  | 0x1A => decMx w
  | 0x1B => decHyp w
  | _ => decGfx w

/-- The lowest cause of R53 that a word's row finds in it, else the instruction (R52). -/
def Dec.judge (d : Dec) : Except Nat Instr :=
  if !(d.zero && d.instr.valOk) then .error 0x03
  else if !d.instr.regOk then .error 0x04
  else if d.noStop then .error 0x05
  else if d.ctlGuard then .error 0x06
  else if d.stopRule then .error 0x0B
  else .ok d.instr

/-- One word judged by itself: the instruction, or the lowest cause code of R53. A MODW with S = 1 breaks the stop rule
whatever its fields hold (R44; log entry 13). -/
def decodeWord (w : Word) : Except Nat Instr :=
  if 0x1D ≤ (fMaj w).toNat then .error 0x01
  else if fMaj w = 0 ∧ fFn w = 7 ∧ fS w = true then .error 0x0B
  else match decRow w with
    | none => .error 0x02
    | some d => d.judge

/-- Whether a MODW is accepted by the instruction after it (R44, R204; FILL: R47). -/
def modwAccepts (rm : BitVec 2) (alt : Bool) (fill nf : BitVec 2) (i : Instr) : Bool :=
  let okRm := match i with
    | .fadd .. | .fsub .. | .fmul .. | .ffma .. | .ffms .. | .fnma .. | .pkfma .. | .pkadd .. | .pkmul .. => true
    | _ => false
  let okAlt := match i with
    | .mulHi .. | .min .. | .max .. | .absd .. | .bfe .. | .div .. | .rem .. | .madh .. | .pkfma .. => true
    | .icmp _ c _ _ _ _ _ => 2 ≤ c.toNat && c.toNat ≤ 5
    | .cvt _ s _ _ _ _ => s == 7
    | _ => false
  let okFill := match i with
    | .xlane .. | .bcast .. | .patld .. => fill == 1
    | .perm .. => true
    | _ => false
  let okNf := match i with
    | .cvtbd .. => true
    | _ => false
  (rm == 0 || okRm) && (!alt || okAlt) && (fill == 0 || okFill) && (nf == 0 || okNf)

/-- Memory-class: MAJ lies in 0x13 to 0x1C (R27, R42). -/
def memClass (w : Word) : Bool := 0x13 ≤ (fMaj w).toNat && (fMaj w).toNat ≤ 0x1C

/-- A little-endian word of four bytes (R2). -/
def wordOfBytes : List Byte → Word
  | [b0, b1, b2, b3] => b3 ++ b2 ++ b1 ++ b0
  | _ => 0
/-- The bytes of a word, little-endian (R2). -/
def bytesOfWord (w : Word) : List Byte :=
  [w.extractLsb' 0 8, w.extractLsb' 8 8, w.extractLsb' 16 8, w.extractLsb' 24 8]

/-- The instruction that the bytes of one word give. -/
def decodeBytes (bs : List Byte) : Option Instr :=
  match decodeWord (wordOfBytes bs) with
  | .ok i => some i
  | .error _ => none

/-- The instruction that the decoder reads from an instruction whose bits are w, laid out as the device stores it; a row without
bits is a device step and has no word. -/
def decodeTableWord (nbits w : Nat) : Option Instr :=
  if nbits = 0 then none else decodeBytes (bytesOfWord (BitVec.ofNat 32 w))

/-! ### Encoding -/

/-- A shift amount in an immediate: IMM[9:7] op, IMM[6] zero, IMM[5:0] amount (R49). -/
def immShift (op : BitVec 3) (n : BitVec 6) : BitVec 10 := op ++ (0 : BitVec 1) ++ n

/-- The word of an instruction (R47 to R51); a device step has no word and answers 0. -/
def encode : Instr → Word
  | .nop h => wT h.stop 0x00 0 h.guard 0 0 0
  | .trap h n => wT h.stop 0x00 1 h.guard 0 0 n
  | .bkpt h n => wT h.stop 0x00 2 h.guard 0 0 n
  | .ctxr h d n => wT h.stop 0x00 3 h.guard d 0 n
  | .ctxw h n a => wT h.stop 0x00 4 h.guard 0 a n
  | .clkCyc h d => wT h.stop 0x00 5 h.guard d 0 0
  | .clkNs h d => wT h.stop 0x00 5 h.guard d 0 1
  | .signal h a b => wT h.stop 0x00 6 h.guard 0 a b
  | .modw rm alt fill nf => wT false 0x00 7 0 0 0 (nf ++ fill ++ BitVec.ofBool alt ++ rm)
  | .bra p off => wB true 0x01 0 p false off
  | .braNot p off => wB true 0x01 0 p true off
  | .jmp off => wB true 0x01 1 0 false off
  | .call d a => wT true 0x01 2 0 d a 0
  | .jmpi a => wT true 0x01 3 0 0 a 0
  | .ret a => wT true 0x01 4 0 0 a 0
  | .exit => wT true 0x01 5 0 0 0 0
  | .rally h m t => wT h.stop 0x02 0 h.guard (z7 m) 0 t
  | .mjoin h m => wT h.stop 0x02 1 h.guard (z7 m) 0 0
  | .mclr h m => wT h.stop 0x02 2 h.guard (z7 m) 0 0
  | .mset h m a => wT h.stop 0x02 3 h.guard (z7 m) a 0
  | .mget h d m => wT h.stop 0x02 4 h.guard d 0 (z7 m)
  | .bar g n a pl => wT true 0x02 5 g (z7 pl) a (z7 n)
  | .bararr h n a => wT h.stop 0x02 6 h.guard 0 a (z7 n)
  | .barwt g n => wT true 0x02 7 g 0 0 (z7 n)
  | .vote h k d p => wT h.stop 0x03 0 h.guard d (z7 p) (z7 k)
  | .red h op ty d a pe => wT h.stop 0x03 1 h.guard d a (pe ++ ty ++ op)
  | .scan h op ty ex d a => wT h.stop 0x03 2 h.guard d a ((0 : BitVec 1) ++ BitVec.ofBool ex ++ ty ++ op)
  | .xlane h k d a n => wT h.stop 0x03 3 h.guard d a (k ++ n)
  | .perm h d a b => wT h.stop 0x03 4 h.guard d a b
  | .bcast h d a n => wT h.stop 0x03 5 h.guard d a (z7 n)
  | .patld h d a b => wT h.stop 0x03 6 h.guard d a b
  | .tilef h d p => wT h.stop 0x04 0 h.guard d 0 (z7 p)
  | .win h n => wT h.stop 0x04 1 h.guard 0 0 (z7 n)
  | .pause g n => wT true 0x04 2 g 0 0 n
  | .shape h d a => wT h.stop 0x04 3 h.guard d a 0
  | .rngLo h d a b => wT h.stop 0x04 4 h.guard d a b
  | .rngsLo h d => wT h.stop 0x04 5 h.guard d 0 0
  | .rngsHi h d => wT h.stop 0x04 5 h.guard d 0 1
  | .rngHi h d a b => wT h.stop 0x04 6 h.guard d a b
  | .add h d a b => wT h.stop 0x05 0 h.guard d a b
  | .sub h d a b => wT h.stop 0x05 1 h.guard d a b
  | .mulLo h d a b => wT h.stop 0x05 2 h.guard d a b
  | .mulHi h d a b => wT h.stop 0x05 3 h.guard d a b
  | .min h d a b => wT h.stop 0x05 4 h.guard d a b
  | .max h d a b => wT h.stop 0x05 5 h.guard d a b
  | .absd h d a b => wT h.stop 0x05 6 h.guard d a b
  | .neg h d a => wT h.stop 0x05 7 h.guard d a 0
  | .and h d a b => wT h.stop 0x06 0 h.guard d a b
  | .or h d a b => wT h.stop 0x06 1 h.guard d a b
  | .xor h d a b => wT h.stop 0x06 2 h.guard d a b
  | .andn h d a b => wT h.stop 0x06 3 h.guard d a b
  | .shl h d a b => wT h.stop 0x06 4 h.guard d a b
  | .shr h d a b => wT h.stop 0x06 5 h.guard d a b
  | .shra h d a b => wT h.stop 0x06 6 h.guard d a b
  | .rot h d a b => wT h.stop 0x06 7 h.guard d a b
  | .bfe h d a b => wT h.stop 0x07 0 h.guard d a b
  | .bfi h d a b => wT h.stop 0x07 1 h.guard d a b
  | .popc h d a => wT h.stop 0x07 2 h.guard d a 0
  | .clz h d a => wT h.stop 0x07 3 h.guard d a 0
  | .brev h d a => wT h.stop 0x07 4 h.guard d a 0
  | .div h d a b => wT h.stop 0x07 5 h.guard d a b
  | .rem h d a b => wT h.stop 0x07 6 h.guard d a b
  | .mad h d a b => wT h.stop 0x08 0 h.guard d a b
  | .madh h d a b => wT h.stop 0x08 1 h.guard d a b
  | .add64 h d a b => wT h.stop 0x08 2 h.guard d a b
  | .sub64 h d a b => wT h.stop 0x08 3 h.guard d a b
  | .addc h d a b => wT h.stop 0x08 4 h.guard d a b
  | .subb h d a b => wT h.stop 0x08 5 h.guard d a b
  | .icmp h c pd pc o a b => wT h.stop 0x09 c h.guard (BitVec.ofBool o ++ pc ++ pd) a b
  | .addi h d a imm => wI h.stop 0x0A h.guard d a imm
  | .andi h d a imm => wI h.stop 0x0B h.guard d a ((0 : BitVec 3) ++ imm)
  | .ori h d a imm => wI h.stop 0x0B h.guard d a ((1 : BitVec 3) ++ imm)
  | .xori h d a imm => wI h.stop 0x0B h.guard d a ((2 : BitVec 3) ++ imm)
  | .shli h d a n => wI h.stop 0x0B h.guard d a (immShift 3 n)
  | .shri h d a n => wI h.stop 0x0B h.guard d a (immShift 4 n)
  | .shrai h d a n => wI h.stop 0x0B h.guard d a (immShift 5 n)
  | .roti h d a n => wI h.stop 0x0B h.guard d a (immShift 6 n)
  | .movlLo s d imm => wL s 0x0C d ((0 : BitVec 3) ++ imm)
  | .movlHi s d imm => wL s 0x0C d ((4 : BitVec 3) ++ imm)
  | .pand h pd pa pb => wT h.stop 0x0D 0 h.guard (z7 pd) (z7 pa) (z7 pb)
  | .por h pd pa pb => wT h.stop 0x0D 1 h.guard (z7 pd) (z7 pa) (z7 pb)
  | .pxor h pd pa pb => wT h.stop 0x0D 2 h.guard (z7 pd) (z7 pa) (z7 pb)
  | .pnot h pd pa => wT h.stop 0x0D 3 h.guard (z7 pd) (z7 pa) 0
  | .sel h d a b => wT h.stop 0x0D 4 h.guard d a b
  | .movp h d pa => wT h.stop 0x0D 5 h.guard d (z7 pa) 0
  | .pset h pd a => wT h.stop 0x0D 6 h.guard (z7 pd) a 0
  | .fadd h d a b => wT h.stop 0x0E 0 h.guard d a b
  | .fsub h d a b => wT h.stop 0x0E 1 h.guard d a b
  | .fmul h d a b => wT h.stop 0x0E 2 h.guard d a b
  | .fmin h d a b => wT h.stop 0x0E 3 h.guard d a b
  | .fmax h d a b => wT h.stop 0x0E 4 h.guard d a b
  | .fcmp h c pd a b => wT h.stop 0x0E 5 h.guard ((0 : BitVec 1) ++ c ++ pd) a b
  | .ffma h d a b => wT h.stop 0x0F 0 h.guard d a b
  | .ffms h d a b => wT h.stop 0x0F 1 h.guard d a b
  | .fnma h d a b => wT h.stop 0x0F 2 h.guard d a b
  | .pkfma h d a b => wT h.stop 0x0F 3 h.guard d a b
  | .frcp h d a => wT h.stop 0x10 0 h.guard d a 0
  | .frsq h d a => wT h.stop 0x10 1 h.guard d a 0
  | .fsqrt h d a => wT h.stop 0x10 2 h.guard d a 0
  | .fexp2 h d a => wT h.stop 0x10 3 h.guard d a 0
  | .flog2 h d a => wT h.stop 0x10 4 h.guard d a 0
  | .fsin h d a => wT h.stop 0x10 5 h.guard d a 0
  | .fcos h d a => wT h.stop 0x10 6 h.guard d a 0
  | .frnd h d a m => wT h.stop 0x10 7 h.guard d a (z7 m)
  | .cvt h src d a dst m => wT h.stop 0x11 src h.guard d a (m ++ dst)
  | .pkadd h d a b => wT h.stop 0x12 0 h.guard d a b
  | .pkmul h d a b => wT h.stop 0x12 1 h.guard d a b
  | .spk h d a => wT h.stop 0x12 2 h.guard d a 0
  | .cvtbd h d a b => wT h.stop 0x12 3 h.guard d a b
  | .ld h w d a off => wT h.stop 0x13 w h.guard d a off
  | .st h w d a off => wT h.stop 0x14 w h.guard d a off
  | .ldd h w d a off => wT h.stop 0x15 ((0 : BitVec 1) ++ w) h.guard d a off
  | .std h w d a off => wT h.stop 0x15 ((0 : BitVec 1) ++ w + 3) h.guard d a off
  | .cpAsync h d a tag keep => wT h.stop 0x16 0 h.guard d a ((0 : BitVec 4) ++ BitVec.ofBool keep ++ tag)
  | .cpPlane h d a tag keep => wT h.stop 0x16 1 h.guard d a ((0 : BitVec 4) ++ BitVec.ofBool keep ++ tag)
  | .cpOut h d a tag => wT h.stop 0x16 2 h.guard d a (z7 tag)
  | .tagwait g k n => wT true 0x16 3 g 0 0 (n ++ k)
  | .tagget h d k => wT h.stop 0x16 4 h.guard d 0 (z7 k)
  | .pref h a off => wT h.stop 0x16 5 h.guard 0 a off
  | .accrd h d a t fmt => wT h.stop 0x16 6 h.guard d a (fmt ++ t)
  | .accwr h d a t fmt => wT h.stop 0x16 7 h.guard d a (fmt ++ t)
  | .atom h op d a ty sc rt =>
    wT h.stop 0x17 op h.guard d a ((0 : BitVec 1) ++ BitVec.ofBool rt ++ sc ++ ty ++ (0 : BitVec 1))
  | .atomb h op d a ty sc => wT h.stop 0x17 op h.guard d a ((0 : BitVec 2) ++ sc ++ ty ++ (1 : BitVec 1))
  | .fence h sc k => wT h.stop 0x18 0 h.guard 0 0 ((0 : BitVec 3) ++ k ++ sc)
  | .ldacq h d a sc b => wT h.stop 0x18 1 h.guard d a ((0 : BitVec 4) ++ BitVec.ofBool b ++ sc)
  | .strel h d a sc b => wT h.stop 0x18 2 h.guard d a ((0 : BitVec 4) ++ BitVec.ofBool b ++ sc)
  | .acqr h a => wT h.stop 0x18 3 h.guard 0 a 0
  | .aflush h => wT h.stop 0x18 4 h.guard 0 0 0
  | .sample h d a s => wT h.stop 0x19 0 h.guard d a s
  | .sampleg h d a s => wT h.stop 0x19 1 h.guard d a s
  | .sload h d a s => wT h.stop 0x19 2 h.guard d a s
  | .hinv h s => wT h.stop 0x19 3 h.guard 0 0 s
  | .wpin h s => wT h.stop 0x19 4 h.guard 0 0 s
  | .wunpin h s => wT h.stop 0x19 5 h.guard 0 0 s
  | .smma h d a f => wT h.stop 0x19 6 h.guard d a f
  | .mxIssue h a => wT h.stop 0x1A 0 h.guard 0 a 0
  | .mxZero h t k => wT h.stop 0x1A 1 h.guard 0 0 ((0 : BitVec 1) ++ k ++ t)
  | .hopen h d p => wT h.stop 0x1B 0 h.guard d 0 (z7 p)
  | .hset h a => wT h.stop 0x1B 1 h.guard 0 a 0
  | .hget h d => wT h.stop 0x1B 2 h.guard d 0 0
  | .hconfirm h a => wT h.stop 0x1B 3 h.guard 0 a 0
  | .hrefute h a => wT h.stop 0x1B 4 h.guard 0 a 0
  | .hstate h d a => wT h.stop 0x1B 5 h.guard d a 0
  | .horphan h a => wT h.stop 0x1B 6 h.guard 0 a 0
  | .taskout h a c => wT h.stop 0x1C 0 h.guard 0 a c
  | .vtxout h a s => wT h.stop 0x1C 1 h.guard 0 a (z7 s)
  | .primout h a => wT h.stop 0x1C 2 h.guard 0 a 0
  | .pixout h a t => wT h.stop 0x1C 3 h.guard 0 a (z7 t)
  | .kill h => wT h.stop 0x1C 4 h.guard 0 0 0
  | _ => 0

end Sys2Proof
end

