-- ==== Sys2Proof/Machine/Collect.lean ====
section
/-! DEFINITION. Operand delivery (R159, R179, R180): what an instruction reads and writes by register code, the bank words that a
pack's collector gathers, and one cycle of a mast's read crossbar. -/

namespace Sys2Proof.Machine

/-! ### What an instruction reads and writes -/

/-- The registers that an instruction reads: the first register of each source and how many it names (R39, R40, R180). -/
def sourcesOf : Instr → List (Reg × Nat)
  | .ctxw _ _ a | .mset _ _ a | .pset _ _ a | .acqr _ a => [(a, 1)]
  | .signal _ a b => [(a, 2), (b, 1)]
  | .call _ a | .jmpi a | .ret a => [(a, 1)]
  | .bar _ _ a _ | .bararr _ _ a => [(a, 1)]
  | .red _ _ _ _ a _ | .scan _ _ _ _ _ a | .xlane _ _ _ a _ | .bcast _ _ a _ => [(a, 1)]
  | .perm _ _ a b => [(a, 1), (b, 1)]
  | .patld _ _ a b => [(a, 1), (b, 2)]
  | .rngLo _ _ a b | .rngHi _ _ a b | .add64 _ _ a b | .sub64 _ _ a b => [(a, 2), (b, 2)]
  | .add _ _ a b | .sub _ _ a b | .mulLo _ _ a b | .mulHi _ _ a b | .min _ _ a b | .max _ _ a b | .absd _ _ a b
  | .and _ _ a b | .or _ _ a b | .xor _ _ a b | .andn _ _ a b | .shl _ _ a b | .shr _ _ a b | .shra _ _ a b | .rot _ _ a b
  | .bfe _ _ a b | .div _ _ a b | .rem _ _ a b | .addc _ _ a b | .subb _ _ a b | .sel _ _ a b
  | .icmp _ _ _ _ _ a b | .fcmp _ _ _ a b
  | .fadd _ _ a b | .fsub _ _ a b | .fmul _ _ a b | .fmin _ _ a b | .fmax _ _ a b | .pkadd _ _ a b | .pkmul _ _ a b =>
    [(a, 1), (b, 1)]
  | .bfi _ d a b | .mad _ d a b | .madh _ d a b | .ffma _ d a b | .ffms _ d a b | .fnma _ d a b | .pkfma _ d a b =>
    [(d, 1), (a, 1), (b, 1)]
  | .neg _ _ a | .popc _ _ a | .clz _ _ a | .brev _ _ a | .addi _ _ a _ | .andi _ _ a _ | .ori _ _ a _ | .xori _ _ a _
  | .shli _ _ a _ | .shri _ _ a _ | .shrai _ _ a _ | .roti _ _ a _
  | .frcp _ _ a | .frsq _ _ a | .fsqrt _ _ a | .fexp2 _ _ a | .flog2 _ _ a | .fsin _ _ a | .fcos _ _ a | .frnd _ _ a _ =>
    [(a, 1)]
  | .movlHi _ d _ => [(d, 1)]
  | .cvt _ src _ a _ _ => [(a, if src = 2 ∨ src = 3 then 2 else 1)]
  | .spk _ _ a => [(a, 4)]
  | .cvtbd _ _ a b => [(a, 8), (b, 4)]
  | .ld _ _ _ a _ | .pref _ a _ | .ldacq _ _ a _ _ => [(a, 2)]
  | .st _ w d a _ => [(d, widthRegs w), (a, 2)]
  | .ldd _ _ _ a _ | .accrd _ _ a _ _ => [(a, 1)]
  | .std _ w d a _ => [(d, deckRegs w), (a, 1)]
  | .cpAsync _ d a _ _ | .cpPlane _ d a _ _ | .cpOut _ d a _ => [(d, 2), (a, 2)]
  | .accwr _ d a _ fmt => [(d, accRegs fmt), (a, 1)]
  | .atom _ op d a ty _ _ => [(d, atomRegs op ty), (a, 2)]
  | .atomb _ _ d a ty _ => [(d, if ty = 2 then 2 else 1), (a, 2)]
  | .strel _ d a _ b64 => [(d, if b64 then 2 else 1), (a, 2)]
  | .sample _ _ a _ | .sload _ _ a _ => [(a, 4)]
  | .sampleg _ _ a _ => [(a, 8)]
  | .smma _ d a f => [(d, 8), (a, 8), (f, 1)]
  | .mxIssue _ a | .hset _ a | .hconfirm _ a | .hrefute _ a | .horphan _ a | .hstate _ _ a | .primout _ a => [(a, 1)]
  | .taskout _ a c => [(a, 1), (c, 1)]
  | .vtxout _ a _ | .pixout _ a _ => [(a, 4)]
  | _ => []

/-- The registers that an ALU-class instruction writes within the block (R142). -/
def resultsOf : Instr → List (Reg × Nat)
  | .ctxr _ d _ | .mget _ d _ | .vote _ _ d _ | .shape _ d _ | .rngsLo _ d | .rngsHi _ d | .movlLo _ d _ | .movlHi _ d _
  | .movp _ d _ => [(d, 1)]
  | .clkCyc _ d | .clkNs _ d | .spk _ d _ => [(d, 2)]
  | .red _ _ _ d _ _ | .scan _ _ _ _ d _ | .xlane _ _ d _ _ | .bcast _ d _ _ => [(d, 1)]
  | .perm _ d _ _ | .patld _ d _ _ | .rngLo _ d _ _ | .rngHi _ d _ _ => [(d, 1)]
  | .add64 _ d _ _ | .sub64 _ d _ _ => [(d, 2)]
  | .add _ d _ _ | .sub _ d _ _ | .mulLo _ d _ _ | .mulHi _ d _ _ | .min _ d _ _ | .max _ d _ _ | .absd _ d _ _
  | .and _ d _ _ | .or _ d _ _ | .xor _ d _ _ | .andn _ d _ _ | .shl _ d _ _ | .shr _ d _ _ | .shra _ d _ _ | .rot _ d _ _
  | .bfe _ d _ _ | .div _ d _ _ | .rem _ d _ _ | .addc _ d _ _ | .subb _ d _ _ | .sel _ d _ _
  | .fadd _ d _ _ | .fsub _ d _ _ | .fmul _ d _ _ | .fmin _ d _ _ | .fmax _ d _ _ | .pkadd _ d _ _ | .pkmul _ d _ _
  | .bfi _ d _ _ | .mad _ d _ _ | .madh _ d _ _ | .ffma _ d _ _ | .ffms _ d _ _ | .fnma _ d _ _ | .pkfma _ d _ _ => [(d, 1)]
  | .neg _ d _ | .popc _ d _ | .clz _ d _ | .brev _ d _ | .addi _ d _ _ | .andi _ d _ _ | .ori _ d _ _ | .xori _ d _ _
  | .shli _ d _ _ | .shri _ d _ _ | .shrai _ d _ _ | .roti _ d _ _
  | .frcp _ d _ | .frsq _ d _ | .fsqrt _ d _ | .fexp2 _ d _ | .flog2 _ d _ | .fsin _ d _ | .fcos _ d _ | .frnd _ d _ _ =>
    [(d, 1)]
  | .cvt _ _ d _ dst _ => [(d, if cvtPairDst dst then 2 else 1)]
  | .cvtbd _ d _ _ => [(d, 4)]
  | _ => []

/-- The predicates that an instruction reads beside its guard. -/
def predsRead : Instr → List Nat
  | .bra p _ | .braNot p _ => [p.toNat]
  | .vote _ _ _ p | .pnot _ _ p | .movp _ _ p => [p.toNat]
  | .pand _ _ a b | .por _ _ a b | .pxor _ _ a b => [a.toNat, b.toNat]
  | .icmp _ _ _ pc _ _ _ => [pc.toNat]
  | .addc .. | .subb .. => [7]
  | _ => []

/-- The predicates that an ALU-class instruction writes within the block. -/
def predsWritten : Instr → List Nat
  | .red _ _ _ _ _ pe => [pe.toNat]
  | .icmp _ _ pd .. | .fcmp _ _ pd .. | .pand _ pd .. | .por _ pd .. | .pxor _ pd .. | .pnot _ pd _ | .pset _ pd _ => [pd.toNat]
  | .addc .. | .subb .. => [7]
  | _ => []

/-- The guard field of a word's format: CTRL words and format L have none (R37, R41). -/
def guardOf (w : Word) : Nat :=
  let m := (fMaj w).toNat
  if m = 0x01 ∨ m = 0x0C then 0
  else if m = 0x0A ∨ m = 0x0B then (fIG w).toNat
  else (fG w).toNat

/-- The codes of R159's dependences: register codes, and 128 plus a predicate. -/
def regCodes (l : List (Reg × Nat)) : List Nat := l.flatMap fun c => (List.range c.2).map fun i => c.1.toNat + i
/-- What a word uses. -/
def usesOf (w : Word) (i : Instr) : List Nat :=
  regCodes (sourcesOf i) ++ (predsRead i ++ [guardOf w]).map (128 + ·)
/-- What a word makes. -/
def makesOf (i : Instr) : List Nat := regCodes (resultsOf i) ++ (predsWritten i).map (128 + ·)

/-! ### Bank reads (R179) -/

/-- The number that stands for the uniform bank. -/
def uniformBank : Nat := 32
/-- Words that the uniform bank gives in a cycle (R179). -/
def uniformRate : Nat := 4

/-- The code of a tag (R176). -/
def Tag.code : Tag → Nat
  | .uniform _ => 0
  | .affine _ _ => 1
  | .general => 2
/-- The tag of a register of a warp (R176). -/
def Team.tag (t : Team) (warp reg : Nat) : Tag := ((t.tags.find? fun c => c.1 == (warp, reg)).map (·.2)).getD (.uniform 0)

/-- A list without its repeats, the first of each kept. -/
def firsts : List (Nat × Nat) → List (Nat × Nat)
  | [] => []
  | x :: r => x :: (firsts r).filter (· != x)

/-- The banks that one source name of a pack costs (R179): for each warp and register behind it, by its tag; a lane whose register
was written earlier in the block reads no bank. -/
def Pack.nameReads (p : Pack) (t : Team) (n : Nat) : List Nat :=
  let at_ := p.lanes.filterMap fun c =>
    if c.2.written.contains (c.2.wb + n) then none else some (c.1, (c.2.tid / 32, c.2.wb + n))
  (firsts (at_.map (·.2))).flatMap fun k => match t.tag k.1 k.2 with
    | .uniform _ => [uniformBank]
    | .affine _ _ => [uniformBank, uniformBank]
    | .general => (at_.filter (·.2 == k)).map (·.1)

/-- The word at the pack's address, as the fetch of R156 captured it. -/
def Pack.fetch (p : Pack) : Option Word := p.words[((p.pc + 2 ^ 32 - p.block) % 2 ^ 32) / 4]?

/-- The instruction that the pack issues next, when its word is one. -/
def Pack.nextInstr (p : Pack) : Option (Word × Instr) :=
  p.fetch.bind fun w => match decodeWord w with
    | .ok i => some (w, i)
    | .error _ => none

/-- The bank words that the pack's collector gathers for its next instruction (R179, R180): block temporaries and specials cost
none, and a register that two source fields name is read for each (DESIGN CHOICE, log entry 98). -/
def Pack.bankReads (p : Pack) (t : Team) : List Nat :=
  match p.nextInstr with
  | none => []
  | some (_, i) => (regCodes (sourcesOf i)).flatMap fun n => if n < 96 then p.nameReads t n else []

/-- The pack with its collector set to its next instruction: the banks are those of the tags as they stand now (R179; DESIGN CHOICE, log
entry 98). -/
def Pack.collect (p : Pack) (t : Team) : Pack := { p with reads := if p.ended then [] else p.bankReads t }

/-! ### The read crossbar (R180) -/

/-- What a collector asks of the crossbar in a cycle: one word of each lane bank, up to four of the uniform bank,
each of which is a loss where it is not granted (DESIGN CHOICE, log entry 98). -/
def asks (reads : List Nat) : List (Nat × Nat) :=
  ((List.range uniformBank).filter reads.contains).map (fun b => (b, 1)) ++
    (if reads.contains uniformBank then [(uniformBank, min uniformRate (reads.filter (· == uniformBank)).length)] else [])

/-- Words that a bank gives in a cycle. -/
def bankRate (b : Nat) : Nat := if b = uniformBank then uniformRate else 1

/-- Take n reads of a bank off a list. -/
def dropReads (b : Nat) : Nat → List Nat → List Nat
  | 0, l => l
  | n + 1, l => dropReads b n (l.erase b)

/-- One cycle for one pack, the banks' words already given being `used`: each request is granted as far as its bank allows, and what
is not granted is a loss. -/
def grant (used : List (Nat × Nat)) (reads : List Nat) : List (Nat × Nat) × List Nat × List (Nat × Nat) :=
  (asks reads).foldl (fun a r =>
    let have_ := alGetD a.1 r.1 0
    let g := min r.2 (bankRate r.1 - have_)
    (alPut r.1 (have_ + g) a.1, dropReads r.1 g a.2.1, if g < r.2 then a.2.2 ++ [(r.1, r.2 - g)] else a.2.2)) (used, reads, [])

/-- Read losses add to the team's counters, which saturate (R180). -/
def Team.addLosses (t : Team) (ls : List (Nat × Nat)) : Team :=
  { t with loss := ls.foldl (fun l c =>
      if c.1 ≤ 32 then alPut c.1 (BitVec.ofNat 32 (min 0xFFFFFFFF ((alGetD l c.1 0).toNat + c.2))) l else l) t.loss }

/-- The order of instruction age (R180). -/
def Pack.older (a b : Pack) : Bool := decide (a.formed < b.formed) || (a.formed == b.formed && decide (a.pipe ≤ b.pipe))

/-- One cycle of a mast's crossbar over its packs in order of age: the packs with what they have gathered, the losses by team. -/
def crossbar : List (Nat × Nat) → List Pack → List Pack × List (Nat × List (Nat × Nat))
  | _, [] => ([], [])
  | used, p :: r =>
    let (used1, reads, lost) := grant used p.reads
    let (ps, ls) := crossbar used1 r
    ({ p with reads := reads } :: ps, if lost.isEmpty then ls else (p.team, lost) :: ls)

/-- One cycle of the crossbar of a mast. -/
def State.gatherOn (s : State) (m : Nat) : State :=
  let mine := (s.flight.filter fun p => p.mast == m && !p.reads.isEmpty).mergeSort Pack.older
  let (ps, ls) := crossbar [] mine
  { s with
    flight := s.flight.map fun p => (ps.find? (·.id == p.id)).getD p
    teams := s.teams.map fun t => ls.foldl (fun (a : Team) l => if l.1 = t.id then a.addLosses l.2 else a) t }

/-- The crossbars of every mast with a collector that still gathers run for some cycles (R180). -/
def State.gather (s : State) : Nat → State
  | 0 => s
  | n + 1 =>
    let busy := (s.flight.filter fun p => !p.reads.isEmpty).map (·.mast)
    if busy.isEmpty then s
    else ((busy.foldr nsInsert []).foldl State.gatherOn s).gather n

end Sys2Proof.Machine
end

