-- ==== Sys2Proof/Machine/Ops.lean ====
section
/-! DEFINITION. The named operations over the parts of State: finding and updating contexts, queues, packets, launches,
teams, threads and masts; time; the pack that a pipe has issued. -/

namespace Sys2Proof.Machine

/-! ### Finding and updating -/

/-- The resident context of a number. -/
def State.ctx? (s : State) (n : Nat) : Option Ctx := s.ctxs.find? (·.num == n)
/-- The context of a number, or an empty one. -/
def State.ctxD (s : State) (n : Nat) : Ctx := (s.ctx? n).getD default
/-- Put a context in the place of the one with its number. -/
def State.setCtx (s : State) (c : Ctx) : State := { s with ctxs := putBy (·.num == c.num) c s.ctxs }

/-- The queue of a number, unless it is DISABLED. -/
def State.queue? (s : State) (n : Nat) : Option Queue := s.queues.find? (·.num == n)
/-- The queue of a number, or an empty one. -/
def State.queueD (s : State) (n : Nat) : Queue := (s.queue? n).getD default
/-- Put a queue in the place of the one with its number. -/
def State.setQueue (s : State) (q : Queue) : State := { s with queues := putBy (·.num == q.num) q s.queues }

/-- The packet of an identity. -/
def State.packet? (s : State) (n : Nat) : Option Packet := s.packets.find? (·.id == n)
/-- Put a packet in the place of the one with its identity. -/
def State.setPacket (s : State) (p : Packet) : State := { s with packets := putBy (·.id == p.id) p s.packets }

/-- The launch of an identity. -/
def State.launch? (s : State) (n : Nat) : Option Launch := s.launches.find? (·.id == n)
/-- The launch of an identity, or an empty one. -/
def State.launchD (s : State) (n : Nat) : Launch := (s.launch? n).getD default
/-- Put a launch in the place of the one with its identity. -/
def State.setLaunch (s : State) (l : Launch) : State := { s with launches := putBy (·.id == l.id) l s.launches }

/-- The team of an identity. -/
def State.team? (s : State) (n : Nat) : Option Team := s.teams.find? (·.id == n)
/-- Put a team in the place of the one with its identity; a team that is gone is not brought back. -/
def State.setTeam (s : State) (t : Team) : State := { s with teams := s.teams.map fun x => if x.id = t.id then t else x }

/-- A mast with nothing in it. -/
def emptyMast (n : Nat) : Mast := { (default : Mast) with num := n }
/-- The mast of a number. -/
def State.mast (s : State) (n : Nat) : Mast := (s.masts.find? (·.num == n)).getD (emptyMast n)
/-- Put a mast in the place of the one with its number. -/
def State.setMast (s : State) (m : Mast) : State := { s with masts := putBy (·.num == m.num) m s.masts }

/-- A thread of a team; beyond the team's slots an empty one. -/
def Team.thread (t : Team) (i : Nat) : Thread := t.threads.getD i default
/-- Put a thread in its slot. -/
def Team.setThread (t : Team) (i : Nat) (x : Thread) : Team := { t with threads := t.threads.set i x }
/-- A thread is live when it is neither ABSENT nor EXITED (R139). -/
def Thread.live (x : Thread) : Bool := x.st != .absent && x.st != .exited

/-- A team's state is on its mast, not in the save area. -/
def Team.here (t : Team) : Bool := match t.place with
  | .saved .. => false
  | _ => true

/-- The context of a launch. -/
def State.launchCtx (s : State) (l : Launch) : Ctx := s.ctxD l.ctx

/-- A new identity (log entry 4). -/
def State.fresh (s : State) : Nat × State := (s.nextId, { s with nextId := s.nextId + 1 })

/-- The next free number of `Config.freeNat` (log entry 3). -/
def State.choose (s : State) : Nat × State := (Config.freeNat s.free, { s with free := s.free + 1 })

/-- Raise an interrupt vector (R106, R108, R353). -/
def State.raise (s : State) (v : Nat) : State := { s with vectors := s.vectors ++ [v] }

/-! ### Time (R128, R369) -/

/-- Whether a launch has teams and every one of them is saved (R114). -/
def State.isAway (s : State) (l : Launch) : Bool :=
  (s.teams.any (·.launch == l.id)) && s.teams.all fun t => t.launch != l.id || !t.here

/-- Let nanoseconds pass: CLK.NS counts them, CLK.CYC counts the cycles of the arithmetic clock, in which operand collectors
gather (R180); a launch all of whose teams are saved has them left out of its watchdog count (R114). -/
def State.pass (s : State) (n : Nat) : State :=
  let k := s.cycRem + n * s.clockMHz
  { s.gather (k / 1000) with
    ns := s.ns + n, cycle := s.cycle + k / 1000, cycRem := k % 1000
    launches := s.launches.map fun l => if l.firstRun.isSome && s.isAway l then { l with awayNs := l.awayNs + n } else l }

/-! ### Core sets (R116) -/

/-- The physical masts of a core set in rising order: logical mast k is the k-th. -/
def coreMasts (coreSet : Nat) : List Nat := (List.range Config.masts).filter fun m => bit coreSet m
/-- The logical number of a physical mast in a core set. -/
def logicalMast (coreSet m : Nat) : Nat := ((coreMasts coreSet).filter (· < m)).length

/-! ### The issued pack -/

/-- A pack with one lane changed in place. -/
def Pack.mapLanes (p : Pack) (f : Nat → Lane → Lane) : Pack := { p with lanes := p.lanes.map fun c => (c.1, f c.1 c.2) }
/-- The lane of a number. -/
def Pack.lane? (p : Pack) (l : Nat) : Option Lane := alGet l p.lanes

/-- MODW with every field zero (R44). -/
def modwNone : Modw := ⟨0, false, 0, 0⟩

/-- The pack after its word: the next word is four bytes on, a MODW has served, and S ends the block (R42, R141). -/
def Pack.advance (p : Pack) (stop : Bool) : Pack :=
  { p with pc := (p.pc + 4) % 2 ^ 32, modw := modwNone, ended := p.ended || stop }

/-- Put a pack back among those in flight, its collector set to its next word (R180). -/
def State.toFlight (s : State) (p : Pack) : State :=
  { s with issue := none, flight := putBy (·.id == p.id) (p.collect ((s.team? p.team).getD default)) s.flight }

/-- The meaning of an instruction word: act on the pack that the pipe has issued, then advance it. -/
def onIssue (s : State) (stop : Bool) (f : State → Team → Pack → State × Pack) : Host.Outcome State Fault Refusal :=
  match s.issue with
  | none => .refused .noPackIssued
  | some p =>
    match s.team? p.team with
    | none => .fault .strayPack
    | some t =>
      let (s', p') := f s t p
      .next (s'.toFlight (p'.advance stop))

end Sys2Proof.Machine
end

