-- ==== Sys2Proof/Machine/Operands.lean ====
section
/-! DEFINITION. Operands of instruction words: register codes, pairs and groups (R39, R40, R57), the window and its range
check (R168), specials (R169), predicates and guards (R41), poison marks on sources (R257), and the lane-by-lane form that
most instructions share. -/

namespace Sys2Proof.Machine

/-- What an instruction sees beside its lane: the device, the team and the issued pack. -/
structure Env where
  s : State
  t : Team
  p : Pack

/-- The launch of the pack. -/
def Env.launch (e : Env) : Launch := e.s.launchD e.t.launch
/-- The context of the pack. -/
def Env.ctx (e : Env) : Ctx := e.s.launchCtx e.launch
/-- A special register (R169). -/
def Env.special (e : Env) (tid code : Nat) : Word :=
  BitVec.ofNat 32 (match code with
    | 113 => tid
    | 114 => tid % 32
    | 115 => tid / 32
    | 116 => e.t.num
    | 117 => if e.t.stage = .pixel then 0 else e.t.count
    | 118 => e.t.shape.tsize
    | 119 => logicalMast e.ctx.coreSet e.p.mast
    | 120 => (coreMasts e.ctx.coreSet).length
    | _ => 0)

/-- The masks of a team as they stood after every commit made before a cycle (R187). -/
def Team.masksBefore (t : Team) (cycle : Nat) : List (Nat × Word) :=
  match t.masksOld with
  | some (c, old) => if c = cycle then old else t.masks
  | none => t.masks
/-- The masks after a commit in a cycle. -/
def Team.setMasks (t : Team) (cycle : Nat) (ms : List (Nat × Word)) : Team :=
  { t with masksOld := some (cycle, t.masksBefore cycle), masks := ms }

/-- A lane at the start of its block: the thread's committed values, no block temporary, the masks of its static warp as they
stood before the cycle in which the pack is formed (R142, R187). -/
def Lane.start (t : Team) (cycle tid : Nat) : Lane :=
  let x := t.thread tid
  { tid := tid, v := x.v, written := [], poison := x.poison, e := [], preds := x.preds, wb := x.wb, hyp := x.hyp,
    status := x.status, statusW := false, flags := 0, rngs := x.rngs, rngsRead := x.rngs, wrap := false,
    masks := (List.range 8).map fun m => (m, alGetD (t.masksBefore cycle) (8 * (tid / 32) + m) 0),
    tilef := x.tilef, ops := [], trap := none, poisonAt := none, win := none, pause := none, tagWait := none,
    barWait := [], next := none, exits := false }

/-- The value of a source register as R142 defines it. -/
def Env.rd (e : Env) (ln : Lane) (r : Reg) : Word :=
  if r.toNat < 96 then alGetD ln.v (ln.wb + r.toNat) 0
  else if r.toNat < 112 then alGetD ln.e (r.toNat - 96) 0
  else e.special ln.tid r.toNat
/-- The value of a pair (R57). -/
def Env.rdPair (e : Env) (ln : Lane) (r : Reg) : Dword := pairOf (e.rd ln r) (e.rd ln (r + 1))
/-- The values of a group of n. -/
def Env.rdGroup (e : Env) (ln : Lane) (r : Reg) (n : Nat) : List Word :=
  (List.range n).map fun i => e.rd ln (r + BitVec.ofNat 7 i)

/-- Write a destination register: forwarded within the block (R142); a v-register loses its poison mark (R257); DISCARD drops
the result (R39). -/
def Lane.wr (ln : Lane) (r : Reg) (x : Word) : Lane :=
  if r.toNat < 96 then
    { ln with v := alPut (ln.wb + r.toNat) x ln.v, written := nsInsert (ln.wb + r.toNat) ln.written,
              poison := ln.poison.filter (· != ln.wb + r.toNat) }
  else if r.toNat < 112 then { ln with e := alPut (r.toNat - 96) x ln.e }
  else ln
/-- Write successive registers; a destination of 127 drops the whole result (R40). -/
def Lane.wrGroup (ln : Lane) (r : Reg) : List Word → Lane
  | [] => ln
  | x :: xs => if r = 127 then ln else (ln.wr r x).wrGroup (r + 1) xs
/-- Write a pair (R57). -/
def Lane.wrPair (ln : Lane) (r : Reg) (x : Dword) : Lane := ln.wrGroup r [loW x, hiW x]

/-- A predicate as it stands at the instruction: p0 reads true. -/
def Lane.pred (ln : Lane) (p : Nat) : Bool := p == 0 || ln.preds.getLsbD p
/-- The predicate file with one predicate written. -/
def setPred (ps : BitVec 8) (p : Nat) (b : Bool) : BitVec 8 :=
  if p = 0 then ps
  else if b then ps ||| BitVec.twoPow 8 p else ps &&& ~~~BitVec.twoPow 8 p
/-- Write a predicate; a write to p0 is ignored (R54). -/
def Lane.setPred (ln : Lane) (p : Nat) (b : Bool) : Lane := { ln with preds := Machine.setPred ln.preds p b }

/-- Record a trap of the word at `word`: the earliest instruction's trap stands (R143 line 3). -/
def Lane.raise (ln : Lane) (word code : Nat) (num : Nat := 0) : Lane :=
  { ln with trap := ln.trap.or (some ⟨code, num, word⟩) }
/-- Note that the word consumed poison (R143 line 4): the first one stands. -/
def Lane.notePoison (ln : Lane) (word : Nat) (va : Option Nat := none) : Lane :=
  { ln with poisonAt := ln.poisonAt.or (some (word, va)) }
/-- Record an operation to be performed at commit (R254). -/
def Lane.record (ln : Lane) (word : Nat) (op : MemOp) : Lane := { ln with ops := ln.ops ++ [⟨word, op⟩] }

/-- Trap codes of R348. -/
def cTRAP : Nat := 0x20
def cBKPT : Nat := 0x21
def cOPERAND : Nat := 0x22
def cRANGE : Nat := 0x23
def cHYP : Nat := 0x24
def cSTAGE : Nat := 0x25
def cSPACE : Nat := 0x26
def cFORMAT : Nat := 0x27
def cDIVERGE : Nat := 0x28
def cFEATURE : Nat := 0x29
def cDETOVF : Nat := 0x2A
def cHYPFULL : Nat := 0x2B
def cPOISON : Nat := 0x30
def cDECODE : Nat := 0x31

/-- A register operand: the first register and how many it names. -/
abbrev Names := List (Reg × Nat)

/-- Whether some window name maps at or above VREGS (R168). -/
def rangeBad (vregs wb : Nat) (ns : Names) : Bool :=
  ns.any fun c => c.1.toNat < 96 && vregs < wb + c.1.toNat + c.2
/-- Whether some source register bears a poison mark (R257). -/
def Lane.srcPoison (ln : Lane) (ns : Names) : Bool :=
  ns.any fun c => c.1.toNat < 96 && ln.poison.any fun r => ln.wb + c.1.toNat ≤ r && r < ln.wb + c.1.toNat + c.2

/-- One word for one lane: the range check whatever the guard (R168), then for a true guard the consumption of marked sources
and the effect (R41). -/
def Env.onLane (e : Env) (g : BitVec 2) (src dst : Names) (f : Lane → Lane) (ln : Lane) : Lane :=
  if rangeBad e.t.shape.vregs ln.wb (src ++ dst) then ln.raise e.p.pc cRANGE
  else if ln.pred g.toNat then f (if ln.srcPoison src then ln.notePoison e.p.pc else ln)
  else ln

/-- An instruction whose effect on each thread depends on that thread alone. -/
def lanewise (h : Hdr) (src dst : Names) (f : Env → Lane → Lane) (s : State) : Host.Outcome State Fault Refusal :=
  onIssue s h.stop fun s t p =>
    let e : Env := ⟨s, t, p⟩
    (s, p.mapLanes fun _ ln => e.onLane h.guard src dst (f e) ln)

/-- d := f a. -/
def unary (h : Hdr) (d a : Reg) (f : Word → Word) : State → Host.Outcome State Fault Refusal :=
  lanewise h [(a, 1)] [(d, 1)] fun e ln => ln.wr d (f (e.rd ln a))
/-- d := f a b. -/
def binary (h : Hdr) (d a b : Reg) (f : Word → Word → Word) : State → Host.Outcome State Fault Refusal :=
  lanewise h [(a, 1), (b, 1)] [(d, 1)] fun e ln => ln.wr d (f (e.rd ln a) (e.rd ln b))
/-- d := f a b, or g a b under MODW.ALT. -/
def binaryAlt (h : Hdr) (d a b : Reg) (f g : Word → Word → Word) : State → Host.Outcome State Fault Refusal :=
  lanewise h [(a, 1), (b, 1)] [(d, 1)] fun e ln =>
    ln.wr d ((if e.p.modw.alt then g else f) (e.rd ln a) (e.rd ln b))
/-- d := f a b d, where d is also read (R203). -/
def ternary (h : Hdr) (d a b : Reg) (f : Word → Word → Word → Word) : State → Host.Outcome State Fault Refusal :=
  lanewise h [(a, 1), (b, 1), (d, 1)] [(d, 1)] fun e ln => ln.wr d (f (e.rd ln a) (e.rd ln b) (e.rd ln d))

end Sys2Proof.Machine
end

