-- ==== Sys2Proof/Machine/Async.lean ====
section
/-! DEFINITION. Asynchronous copies, tags and accumulator accesses as they are recorded (R261 to R274). -/

namespace Sys2Proof.Machine

/-- CP.ASYNC.kN[.KEEP] [a], d (R262, R263). -/
def execCpAsync (h : Hdr) (d a : Reg) (tag : BitVec 2) (keep : Bool) : State → Host.Outcome State Fault Refusal :=
  lanewise h [(d, 2), (a, 2)] [] fun e ln =>
    let s := e.rdPair ln a
    let o := (e.rd ln d).toNat
    let v := (e.rd ln (d + 1)).toNat % 64
    if 32 < v ∨ o % 4 ≠ 0 then ln.raise e.p.pc cOPERAND
    else if keep ∧ (s.toNat % 32 ≠ 0 ∨ o % 256 ≠ s.toNat % 256 ∨ v ≠ 32) then ln.raise e.p.pc cOPERAND
    else if e.t.shape.deck < o + 32 then ln.raise e.p.pc cSPACE
    else ln.record e.p.pc (.cpAsync s o v tag.toNat keep)

/-- The element bytes of a group (R265). -/
def groupElemBytes (fmt : Nat) : Nat := [24, 40, 64, 32, 64, 0, 0, 256].getD fmt 0
/-- The bytes that a group takes in PLANE (R265). -/
def groupBytes (fmt : Nat) : Nat := [40, 56, 80, 32, 64, 0, 0, 256].getD fmt 0
/-- The address of a group's scale words (R264). -/
def scaleAddr (s : Dword) (desc : Word) : Dword := s + (desc.extractLsb' 3 29).signExtend 64

/-- Whether the operands of a CP.PLANE break a rule of R264 that traps ILLEGAL-OPERAND. -/
def planeBad (s : Dword) (o : Nat) (desc : Word) (keep : Bool) : Bool :=
  let fmt := desc.toNat % 8
  let soff := desc.toNat / 8
  fmt == 5 || fmt == 6 ||
    (soff != 0 && (fmt == 3 || fmt == 4 || fmt == 7)) ||
    (fmt ≤ 4 && (s.toNat % 8 != 0 || o % 8 != 0)) ||
    (fmt ≤ 2 && (scaleAddr s desc).toNat % 16 != 0) ||
    (fmt == 7 && (s.toNat % 256 != 0 || o % 256 != 0)) ||
    (keep && fmt ≤ 4)

/-- CP.PLANE.kN[.KEEP] [a], d (R264). -/
def execCpPlane (h : Hdr) (d a : Reg) (tag : BitVec 2) (keep : Bool) : State → Host.Outcome State Fault Refusal :=
  lanewise h [(d, 2), (a, 2)] [] fun e ln =>
    let s := e.rdPair ln a
    let o := (e.rd ln d).toNat
    let desc := e.rd ln (d + 1)
    let fmt := desc.toNat % 8
    if planeBad s o desc keep then ln.raise e.p.pc cOPERAND
    else if e.t.shape.plane < o + groupBytes fmt then ln.raise e.p.pc cSPACE
    else ln.record e.p.pc (.cpPlane s o fmt (scaleAddr s desc) tag.toNat keep)

/-- CP.OUT.kN [a], d (R266). An empty range that starts above the DECK's size traps ILLEGAL-SPACE (DESIGN CHOICE, log entry 95). -/
def execCpOut (h : Hdr) (d a : Reg) (tag : BitVec 2) : State → Host.Outcome State Fault Refusal :=
  lanewise h [(d, 2), (a, 2)] [] fun e ln =>
    let o := (e.rd ln d).toNat
    let c := (e.rd ln (d + 1)).toNat % 64
    if 32 < c ∨ o % 4 ≠ 0 then ln.raise e.p.pc cOPERAND
    else if e.t.shape.deck < o + c then ln.raise e.p.pc cSPACE
    else ln.record e.p.pc (.cpOut (e.rdPair ln a) o c tag.toNat)

/-- TAGWAIT k, n (R268). -/
def execTagwait (g : BitVec 2) (k : BitVec 2) (n : BitVec 5) : State → Host.Outcome State Fault Refusal :=
  lanewise ⟨true, g⟩ [] [] fun _ ln => { ln with tagWait := some (k.toNat, n.toNat) }

/-- TAGGET d, k (R269). -/
def execTagget (h : Hdr) (d : Reg) (k : BitVec 2) : State → Host.Outcome State Fault Refusal :=
  lanewise h [] [(d, 1)] fun e ln => ln.record e.p.pc (.tagGet k.toNat d)

/-- A bead format among the ACCUM formats (R46), by its NF: 2 BD3, 3 BD5, 4 BD8. -/
def accBead (fmt : Nat) : Bool := 2 ≤ fmt && fmt ≤ 4

/-- ACCRD.fmt d, a, t (R272). -/
def execAccrd (h : Hdr) (d a : Reg) (t : BitVec 4) (fmt : BitVec 3) : State → Host.Outcome State Fault Refusal :=
  lanewise h [(a, 1)] [(d, accRegs fmt)] fun e ln =>
    let i := (e.rd ln a).toNat
    if 4095 < i ∨ (accBead fmt.toNat ∧ i % 8 ≠ 0) then ln.raise e.p.pc cOPERAND
    else if e.t.shape.tiles ≤ t.toNat then ln.raise e.p.pc cSPACE
    else ln.record e.p.pc (.accRead i t.toNat fmt.toNat d)

/-- ACCWR.fmt a, t, d (R273). -/
def execAccwr (h : Hdr) (d a : Reg) (t : BitVec 4) (fmt : BitVec 3) : State → Host.Outcome State Fault Refusal :=
  lanewise h [(a, 1), (d, accRegs fmt)] [] fun e ln =>
    let i := (e.rd ln a).toNat
    let ws := e.rdGroup ln d (accRegs fmt)
    if 4095 < i ∨ (accBead fmt.toNat ∧ i % 8 ≠ 0) then ln.raise e.p.pc cOPERAND
    else if e.t.shape.tiles ≤ t.toNat then ln.raise e.p.pc cSPACE
    else if accBead fmt.toNat ∧ !scaleValid ((ws.getD 2 0).toNat % 65536) then ln.raise e.p.pc cFORMAT
    else ln.record e.p.pc (.accWrite i t.toNat fmt.toNat ws)

end Sys2Proof.Machine
end

