-- ==== Sys2Proof/Machine/MemIns.lean ====
section
/-! DEFINITION. LD, ST, LDD, STD and PREF as they record their accesses (R254 to R260, R271). -/

namespace Sys2Proof.Machine

/-- The access size of a width code (R46). -/
def widthBytes (w : BitVec 3) : Nat := if w = 0 ∨ w = 5 then 1 else if w = 1 then 2 else if w = 2 then 4 else if w = 3 then 8 else 16
/-- A global address (R255). -/
def Env.ea (e : Env) (ln : Lane) (a : Reg) (off : BitVec 7) (scale : Nat) : Dword :=
  e.rdPair ln a + BitVec.ofInt 64 (off.toInt * scale)
/-- A DECK offset (R255). -/
def Env.deckEa (e : Env) (ln : Lane) (a : Reg) (off : BitVec 7) (scale : Nat) : Nat :=
  (e.rd ln a + BitVec.ofInt 32 (off.toInt * scale)).toNat
/-- The first n bytes of successive registers, in ascending order. -/
def Env.dataBytes (e : Env) (ln : Lane) (r : Reg) (regs n : Nat) : List (Byte × Bool) :=
  (((e.rdGroup ln r regs).flatMap fun w => natLE w.toNat 4).take n).map fun b => (b, false)

/-- LD.w d, [a + off] (R258). -/
def execLd (h : Hdr) (w : BitVec 3) (d a : Reg) (off : BitVec 7) : State → Host.Outcome State Fault Refusal :=
  lanewise h [(a, 2)] [(d, widthRegs w)] fun e ln =>
    let ea := e.ea ln a off (widthBytes w)
    if ea.toNat % widthBytes w ≠ 0 then ln.raise e.p.pc cOPERAND else ln.record e.p.pc (.load ea w.toNat d)

/-- ST.w [a + off], d (R259). -/
def execSt (h : Hdr) (w : BitVec 3) (d a : Reg) (off : BitVec 7) : State → Host.Outcome State Fault Refusal :=
  lanewise h [(a, 2), (d, widthRegs w)] [] fun e ln =>
    let ea := e.ea ln a off (widthBytes w)
    if ea.toNat % widthBytes w ≠ 0 then ln.raise e.p.pc cOPERAND
    else ln.record e.p.pc (.store ea (e.dataBytes ln d (widthRegs w) (widthBytes w)))

/-- LDD d, [a + off] (R260). -/
def execLdd (h : Hdr) (w : BitVec 2) (d a : Reg) (off : BitVec 7) : State → Host.Outcome State Fault Refusal :=
  lanewise h [(a, 1)] [(d, deckRegs w)] fun e ln =>
    let n := 4 * deckRegs w
    let o := e.deckEa ln a off n
    if o % n ≠ 0 then ln.raise e.p.pc cOPERAND
    else if e.t.shape.deck < o + n then ln.raise e.p.pc cSPACE
    else ln.record e.p.pc (.deckLoad o n d)

/-- STD [a + off], d (R260). -/
def execStd (h : Hdr) (w : BitVec 2) (d a : Reg) (off : BitVec 7) : State → Host.Outcome State Fault Refusal :=
  lanewise h [(a, 1), (d, deckRegs w)] [] fun e ln =>
    let n := 4 * deckRegs w
    let o := e.deckEa ln a off n
    if o % n ≠ 0 then ln.raise e.p.pc cOPERAND
    else if e.t.shape.deck < o + n then ln.raise e.p.pc cSPACE
    else ln.record e.p.pc (.deckStore o (e.dataBytes ln d (deckRegs w) n))

/-- PREF [a + off] (R271). -/
def execPref (h : Hdr) (a : Reg) (off : BitVec 7) : State → Host.Outcome State Fault Refusal :=
  lanewise h [(a, 2)] [] fun e ln => ln.record e.p.pc (.prefetch (e.ea ln a off 64))

end Sys2Proof.Machine
end

