-- ==== Sys2Proof/Machine/Atom.lean ====
section
/-! DEFINITION. Atomics, fences and synchronising accesses as they are recorded (R322 to R330). -/

namespace Sys2Proof.Machine

/-- The bytes of an atomic type (R324): 2 is N64. -/
def atomBytes (ty : BitVec 2) : Nat := if ty = 2 then 8 else 4

/-- ATOM.op.type.scope[.RET] d, [a] (R324). -/
def execAtom (h : Hdr) (op : BitVec 3) (d a : Reg) (ty sc : BitVec 2) (ret : Bool) :
    State → Host.Outcome State Fault Refusal :=
  lanewise h [(a, 2), (d, atomRegs op ty)] [] fun e ln =>
    let ea := e.rdPair ln a
    if ea.toNat % atomBytes ty ≠ 0 then ln.raise e.p.pc cOPERAND
    else ln.record e.p.pc (.atom ea op.toNat ty.toNat sc.toNat (e.rdGroup ln d (atomRegs op ty)) (if ret then some d else none))

/-- ATOMB.op.type.scope [a], d (R326). -/
def execAtomb (h : Hdr) (op : BitVec 3) (d a : Reg) (ty sc : BitVec 2) : State → Host.Outcome State Fault Refusal :=
  lanewise h [(a, 2), (d, if ty = 2 then 2 else 1)] [] fun e ln =>
    let ea := e.rdPair ln a
    if ea.toNat % atomBytes ty ≠ 0 then ln.raise e.p.pc cOPERAND
    else if ln.hyp ≠ 0 then ln.raise e.p.pc cHYP
    else ln.record e.p.pc (.atomb ea op.toNat ty.toNat sc.toNat (leNat ((e.dataBytes ln d (if ty = 2 then 2 else 1) 8).map (·.1))))

/-- FENCE.kind.scope (R322). -/
def execFence (h : Hdr) (sc kind : BitVec 2) : State → Host.Outcome State Fault Refusal :=
  lanewise h [] [] fun e ln => ln.record e.p.pc (.fence sc.toNat kind.toNat)

/-- LDACQ.w.scope d, [a] (R323). -/
def execLdacq (h : Hdr) (d a : Reg) (sc : BitVec 2) (b64 : Bool) : State → Host.Outcome State Fault Refusal :=
  let n := if b64 then 8 else 4
  lanewise h [(a, 2)] [(d, n / 4)] fun e ln =>
    let ea := e.rdPair ln a
    if ea.toNat % n ≠ 0 then ln.raise e.p.pc cOPERAND else ln.record e.p.pc (.ldacq ea n sc.toNat d)

/-- STREL.w.scope [a], d (R323). -/
def execStrel (h : Hdr) (d a : Reg) (sc : BitVec 2) (b64 : Bool) : State → Host.Outcome State Fault Refusal :=
  let n := if b64 then 8 else 4
  lanewise h [(a, 2), (d, n / 4)] [] fun e ln =>
    let ea := e.rdPair ln a
    if ea.toNat % n ≠ 0 then ln.raise e.p.pc cOPERAND
    else ln.record e.p.pc (.strel ea (e.dataBytes ln d (n / 4) n) sc.toNat)

/-- ACQR a (R330). -/
def execAcqr (h : Hdr) (a : Reg) : State → Host.Outcome State Fault Refusal :=
  lanewise h [(a, 1)] [] fun e ln =>
    let q := (e.rd ln a).toNat
    if (coreMasts e.ctx.coreSet).length ≤ q then ln.raise e.p.pc cOPERAND else ln.record e.p.pc (.acqr q)

/-- AFLUSH (R329). -/
def execAflush (h : Hdr) : State → Host.Outcome State Fault Refusal :=
  lanewise h [] [] fun e ln => ln.record e.p.pc .aflush

end Sys2Proof.Machine
end

