-- ==== Sys2Proof/Machine/Comp.lean ====
section
/-! DEFINITION. Compressed blocks: canonical prefix codes, decoding and encoding of 256-byte blocks (R239 to R241, R245). -/

namespace Sys2Proof.Machine

/-- A set of 256 code lengths is valid: each in 1 to 12 and the code complete (R245). -/
def lensValid (lens : List Nat) : Bool :=
  lens.length == 256 && lens.all (fun l => 1 ≤ l && l ≤ 12) &&
    (lens.foldl (fun a l => a + 2 ^ (12 - l)) 0) == 4096

/-- The byte values of one length, in rising order. -/
def valuesOfLen (lens : List Nat) (l : Nat) : List Nat := (List.range 256).filter fun v => lens.getD v 0 == l

/-- Assign codes to values of equal length from `code` on. -/
def assignLen (l code : Nat) : List Nat → List (Nat × Nat × Nat)
  | [] => []
  | v :: r => (v, l, code) :: assignLen l (code + 1) r

/-- The canonical code (R245) from length `l` on: value, length and code; `code` is the next code of length l. -/
def canonFrom (lens : List Nat) : Nat → Nat → Nat → List (Nat × Nat × Nat)
  | 0, _, _ => []
  | fuel + 1, l, code =>
    let vs := valuesOfLen lens l
    assignLen l code vs ++ canonFrom lens fuel (l + 1) (2 * (code + vs.length))
/-- The canonical code of a set of lengths. -/
def canonCode (lens : List Nat) : List (Nat × Nat × Nat) := canonFrom lens 12 1 0

/-- Stream bit i of a coded block: bit 0 is bit 0 of byte 12 (R239). -/
def streamBit (bs : List Byte) (i : Nat) : Bool := (bs.getD (12 + i / 8) 0).getLsbD (i % 8)

/-- Decode one code from bit `pos`, at most `fuel` bits, with the bits read so far as (length, code): the value and the bit
after it; none when it runs past `limit` or no code matches. -/
def decodeSym (code : List (Nat × Nat × Nat)) (bs : List Byte) (limit : Nat) : Nat → Nat → Nat → Nat → Option (Nat × Nat)
  | 0, _, _, _ => none
  | fuel + 1, pos, len, acc =>
    if limit ≤ pos then none
    else
      let acc' := 2 * acc + (if streamBit bs pos then 1 else 0)
      match code.find? fun c => c.2.1 == len + 1 && c.2.2 == acc' with
      | some c => some (c.1, pos + 1)
      | none => decodeSym code bs limit fuel (pos + 1) (len + 1) acc'

/-- Decode n bytes of a chunk from bit `pos`. -/
def decodeSyms (code : List (Nat × Nat × Nat)) (bs : List Byte) (limit : Nat) : Nat → Nat → Option (List Byte × Nat)
  | 0, pos => some ([], pos)
  | n + 1, pos =>
    match decodeSym code bs limit 12 pos 0 0 with
    | none => none
    | some (v, p) =>
      match decodeSyms code bs limit n p with
      | none => none
      | some (vs, q) => some (BitVec.ofNat 8 v :: vs, q)

/-- The bead-table slot that a coded block's header names. -/
def codedSlot (bs : List Byte) : Nat := (bs.getD 0 0).toNat % 4
/-- The start bit of chunk k by the header (R239). -/
def codedOff (bs : List Byte) (k : Nat) : Nat :=
  if k = 0 then 0 else bits (leNat (bs.take 12)) (8 + 11 * (k - 1)) 11

/-- Whether the header itself is good: reserved bits zero and ascending offsets (R241). -/
def headerOk (bs : List Byte) : Bool :=
  let h := leNat (bs.take 12)
  bits h 2 6 == 0 && bits h 85 11 == 0 && (List.range 7).all fun k => codedOff bs k < codedOff bs (k + 1)

/-- One chunk of a coded block: its 32 bytes, none when it fails (R241). -/
def decodeChunk (code : List (Nat × Nat × Nat)) (bs : List Byte) (nsec k : Nat) : Option (List Byte) :=
  let past := (32 * nsec - 12) * 8
  let limit := if k < 7 then min past (codedOff bs (k + 1)) else past
  match decodeSyms code bs limit 32 (codedOff bs k) with
  | none => none
  | some (vs, q) => if k < 7 && q != codedOff bs (k + 1) then none else some vs

/-- Chunks from k on, up to the first that fails. -/
def decodeChunks (code : List (Nat × Nat × Nat)) (bs : List Byte) (nsec : Nat) : Nat → Nat → List Byte
  | 0, _ => []
  | fuel + 1, k =>
    match decodeChunk code bs nsec k with
    | none => []
    | some vs => vs ++ decodeChunks code bs nsec fuel (k + 1)

/-- The decoded bytes of a coded block's chunks below the lowest failing one (R241): `lens` is none when the slot is not
FROZEN. -/
def decodeCoded (lens : Option (List Nat)) (bs : List Byte) (nsec : Nat) : List Byte :=
  match lens with
  | none => []
  | some l => if headerOk bs then decodeChunks (canonCode l) bs nsec 8 0 else []

/-- The bits of one code, most significant first. -/
def codeBits (l code : Nat) : List Bool := (List.range l).map fun i => bit code (l - 1 - i)

/-- The bits of a byte list under a code. -/
def encodeBits (code : List (Nat × Nat × Nat)) (bs : List Byte) : List Bool :=
  bs.flatMap fun b => match code.find? fun c => c.1 == b.toNat with
    | some c => codeBits c.2.1 c.2.2
    | none => []

/-- A number from its bits, lowest first. -/
def ofBits : List Bool → Nat
  | [] => 0
  | b :: r => (if b then 1 else 0) + 2 * ofBits r

/-- The stored form of a 256-byte block that is written back under a slot with the given lengths (R240): NSEC and the bytes
of its sectors. -/
def encodeBlock (slot : Nat) (lens : Option (List Nat)) (bs : List Byte) : Nat × List Byte :=
  match lens with
  | none => (8, bs)
  | some l =>
    let code := canonCode l
    let chunks := (List.range 8).map fun k => encodeBits code ((bs.drop (32 * k)).take 32)
    let stream := chunks.flatten
    let len := stream.length
    if 1696 < len then (8, bs)
    else
      let off := fun k => ((chunks.take k).flatten).length
      let header := slot + (List.range 7).foldl (fun a k => a + off (k + 1) * 2 ^ (8 + 11 * k)) 0
      let nsec := ceilDiv (12 + ceilDiv len 8) 32
      let out := natLE header 12 ++ natLE (ofBits stream) (32 * nsec - 12)
      (nsec, out)

end Sys2Proof.Machine
end

