-- ==== Sys2Proof/Machine/HypTable.lean ====
section
/-! DEFINITION. The reckoning table of a context as a pure table: entries, resolved forms, chains, holds, and what opening,
confirming and refuting do to it (R332 to R335, R342, R346). -/

namespace Sys2Proof.Machine

/-- The entry of ID 0: always OPEN, parent 0, depth 0 (R332). -/
def rootEntry : HypEntry := ⟨.opened, 0, 0, 0⟩
/-- A FREE entry. -/
def freeEntry : HypEntry := ⟨.free, 0, 0, 0⟩

/-- The entry of an ID; an absent one is FREE. -/
def hypAt (hs : List (Nat × HypEntry)) (i : Nat) : HypEntry := if i = 0 then rootEntry else alGetD hs i freeEntry

/-- resolve(h), following LINK while MERGED, at most `fuel` times (R334). -/
def resolveFrom (hs : List (Nat × HypEntry)) : Nat → Nat → Nat
  | 0, h => h
  | fuel + 1, h => if (hypAt hs h).st = .merged then resolveFrom hs fuel (hypAt hs h).link else h
/-- resolve(h) (R334). -/
def resolveHyp (hs : List (Nat × HypEntry)) (h : Nat) : Nat := resolveFrom hs 256 h

/-- The IDs from c up to the root by PARENT. -/
def ancestorsFrom (hs : List (Nat × HypEntry)) : Nat → Nat → List Nat
  | 0, _ => [0]
  | fuel + 1, c => if c = 0 then [0] else c :: ancestorsFrom hs fuel (resolveHyp hs (hypAt hs c).parent)
/-- The members of chain(h) whose writes a reader may see: a REFUTED or SCRUBBING ID is seen by no read (R334, R337). -/
def chainHyp (hs : List (Nat × HypEntry)) (h : Nat) : List Nat :=
  (ancestorsFrom hs 256 (resolveHyp hs h)).filter fun c => (hypAt hs c).st == .opened

/-- Whether an ID is an orphan's: it resolves to a REFUTED or SCRUBBING entry (R346). -/
def isOrphan (hs : List (Nat × HypEntry)) (h : Nat) : Bool :=
  let e := hypAt hs (resolveHyp hs h)
  e.st == .refuted || e.st == .scrubbing

/-- The nearest OPEN ancestor of an orphan's ID (R346). -/
def orphanTarget (hs : List (Nat × HypEntry)) (h : Nat) : Nat := (chainHyp hs h).headD 0

/-- The IDs that are not FREE. -/
def usedIds (hs : List (Nat × HypEntry)) : List Nat := (hs.filter fun c => c.2.st != .free).map (·.1)

/-- Whether c is h or a descendant of h by PARENT. -/
def isUnder (hs : List (Nat × HypEntry)) (h c : Nat) : Bool := (ancestorsFrom hs 256 c).contains h

/-- HOPEN takes the entry n under h (R333, R343). -/
def openHyp (hs : List (Nat × HypEntry)) (n h : Nat) : List (Nat × HypEntry) :=
  alPut n ⟨.opened, h, 0, (hypAt hs h).depth + 1⟩ hs

/-- The lowest ID that is FREE. -/
def lowestFree (hs : List (Nat × HypEntry)) : Option Nat :=
  (List.range 256).find? fun i => i != 0 && (hypAt hs i).st == .free

/-- The table effect of confirming h (R342): MERGED with LINK p, children reparented, descendants one level up. -/
def confirmHyp (hs : List (Nat × HypEntry)) (h : Nat) : List (Nat × HypEntry) :=
  let p := (hypAt hs h).parent
  hs.map fun (i, e) =>
    if i = h then (i, { e with st := .merged, link := p })
    else
      let e' := if e.st != .free && isUnder hs h i && e.st != .merged then { e with depth := e.depth - 1 } else e
      (i, if e.st != .free && e.parent == h then { e' with parent := p } else e')

/-- The table effect of refuting h (R342): h and every OPEN descendant become REFUTED. -/
def refuteHyp (hs : List (Nat × HypEntry)) (h : Nat) : List (Nat × HypEntry) :=
  hs.map fun (i, e) => if e.st = .opened && isUnder hs h i then (i, { e with st := .refuted }) else (i, e)

/-- The table effect of a resolve (R342): a refute of an ID that is not OPEN has none. -/
def ResolveOp.on (r : ResolveOp) (hs : List (Nat × HypEntry)) : List (Nat × HypEntry) :=
  if r.confirm then confirmHyp hs r.hyp
  else if (hypAt hs r.hyp).st = .opened then refuteHyp hs r.hyp
  else hs

/-- The resolve that a running operation will do once the earlier ones of its context have completed. -/
def Running.todoOf (ctx : Nat) : Running → Option (Nat × ResolveOp)
  | .resolve id c _ _ (some r) => if c = ctx then some (id, r) else none
  | _ => none
/-- The table of a context with every resolve that has its place in the resolve order, or only with those of some identities (R342,
R343; log entry 83). -/
def State.hypsAhead (s : State) (ctx : Nat) (only : Option (List Nat) := none) : List (Nat × HypEntry) :=
  (s.running.filterMap (Running.todoOf ctx)).foldl (fun hs x =>
    if only.all fun ids => ids.contains x.1 then x.2.on hs else hs) (s.ctxD ctx).hyps

/-- A copy is a CP.OUT. -/
def AsyncCopy.isOut (a : AsyncCopy) : Bool := match a.kind with
  | .out .. => true
  | _ => false

/-- LINES of an ID: the version blocks tagged with it (R332, R340). -/
def Ctx.lines (c : Ctx) (i : Nat) : Nat := (c.versions.filter fun v => v.tag == i).length

/-- Whether something holds an ID (R335): a live thread's HYP, the HYP of an accepted packet's launch, the PARENT or LINK of an entry
that is not FREE; and the HYP of a copy in flight, whose accesses carry it and whose slots are taken (R336, R339; DEDUCED, log
entry 84). -/
def State.holds (s : State) (c : Ctx) (i : Nat) : Bool :=
  let ls := s.launches.filter fun l => l.ctx == c.num
  let inCtx := fun (t : Team) => ls.any fun l => l.id == t.launch
  (s.teams.any fun t => inCtx t && t.threads.any fun x => x.live && x.hyp == i) ||
  (ls.any fun l => l.hyp == i) ||
  (s.asyncs.any fun a => a.hyp == i && (s.team? a.team).any inCtx) ||
  (c.hyps.any fun e => e.2.st != .free && ((e.2.st != .merged && e.2.parent == i) || (e.2.st == .merged && e.2.link == i)))

/-- Entries that are MERGED or SCRUBBING, have no line and are not held become FREE (R333, R335), one at a time. -/
def freeHypsFrom (s : State) (c : Ctx) : Nat → Ctx
  | 0 => c
  | n + 1 =>
    let c := freeHypsFrom s c n
    let e := hypAt c.hyps (n + 1)
    if (e.st = .merged ∨ e.st = .scrubbing) ∧ c.lines (n + 1) = 0 ∧ s.holds c (n + 1) = false then
      { c with hyps := alDel (n + 1) c.hyps }
    else c
/-- Passes over the table until none frees an entry. -/
def freeHypsLoop (s : State) : Nat → Ctx → Ctx
  | 0, c => c
  | n + 1, c =>
    let c' := freeHypsFrom s c 255
    if c'.hyps.length = c.hyps.length then c else freeHypsLoop s n c'
/-- A context with the entries freed that R333 frees. -/
def State.freeHyps (s : State) (c : Ctx) : Ctx := freeHypsLoop s 256 c

end Sys2Proof.Machine
end

