-- ==== Sys2Proof/Machine/Mem.lean ====
section
/-! DEFINITION. Memory: the canonical list of cells, the physical map and the L2 copies of host memory (R233, R235), compressed
blocks at their home (R239 to R241, R246), versions and views (R336 to R339), translation (R123 to R127), L1 with its view
tags (R234, R341), signatures (R237, R238). -/

namespace Sys2Proof.Machine

/-! ### Cells in canonical form -/

/-- What an unlisted byte of memory reads as (log entry 1). -/
def unlisted : Byte := 0

/-- The byte at an address. -/
def memGet : List Host.Cell → Nat → Byte
  | [], _ => unlisted
  | (j, b) :: r, a => if j = a then b else memGet r a

/-- Write a byte, keeping addresses rising and listing no byte that equals an unlisted one. -/
def memPut (a : Nat) (b : Byte) : List Host.Cell → List Host.Cell
  | [] => if b = unlisted then [] else [(a, b)]
  | (j, c) :: r =>
    if a < j then (if b = unlisted then (j, c) :: r else (a, b) :: (j, c) :: r)
    else if a = j then (if b = unlisted then r else (a, b) :: r)
    else (j, c) :: memPut a b r

/-- Every address lies above k and addresses rise. -/
def risingFrom : Nat → List Host.Cell → Bool
  | _, [] => true
  | k, (j, _) :: r => k ≤ j && risingFrom (j + 1) r

/-- The canonical form: addresses strictly rising, no entry equal to what an unlisted address reads as. -/
def Memory.wf (m : List Host.Cell) : Bool := risingFrom 0 m && m.all fun c => c.2 != unlisted

/-! ### The physical map (R233) -/

/-- A physical address in local HBM. -/
def isHbm (pa : Nat) : Bool := pa < Config.hbmEnd
/-- A physical address in host memory. -/
def isHost (pa : Nat) : Bool := Config.hostBase ≤ pa && pa < Config.physEnd
/-- A reserved physical address. -/
def isReserved (pa : Nat) : Bool := !isHbm pa && !isHost pa

/-- The byte of memory at its home as the device sees it (root data, stored form), and whether it is poisoned: host memory is
seen through its L2 copy; a reserved address delivers poison. -/
def State.homeByte (s : State) (pa : Nat) : Byte × Bool :=
  if isHbm pa then (memGet s.mem pa, s.poison.contains pa)
  else if isHost pa then
    (s.hostCache.find? (·.addr == pa)).elim (memGet s.mem pa, s.poison.contains pa) fun h => (h.val, h.bad)
  else (0, true)

/-- Write a byte at its home; host memory is written in L2; a write to a reserved address is discarded. -/
def State.homeWrite (s : State) (pa : Nat) (b : Byte) (bad : Bool) : State :=
  let poison := if bad then nsInsert pa s.poison else s.poison.filter (· != pa)
  if isHbm pa then { s with mem := memPut pa b s.mem, poison := poison }
  else if isHost pa then { s with hostCache := putBy (·.addr == pa) ⟨pa, b, true, bad⟩ s.hostCache }
  else s

/-- Bring the 32-byte sector of a host address into L2 (R235): clean copies of the bytes not yet there. -/
def State.hostFill (s : State) (pa : Nat) : State :=
  if isHost pa then
    let base := pa / 32 * 32
    { s with hostCache := (List.range 32).foldl (fun l i =>
        if l.any (·.addr == base + i) then l else l ++ [⟨base + i, memGet s.mem (base + i), false, s.poison.contains (base + i)⟩]) s.hostCache }
  else s

/-- Write dirty L2 copies of host memory in a range back to host memory, with their poison; the copies stay (R247, R320, R364). -/
def State.hostWriteBack (s : State) (lo n : Nat) : State :=
  let inR := fun (h : HostByte) => lo ≤ h.addr && h.addr < lo + n
  { s with
    mem := s.hostCache.foldl (fun m h => if h.dirty && inR h then memPut h.addr h.val m else m) s.mem
    poison := s.hostCache.foldl (fun l h =>
      if h.dirty && inR h then (if h.bad then nsInsert h.addr l else l.filter (· != h.addr)) else l) s.poison
    hostCache := s.hostCache.map fun h => if inR h then { h with dirty := false } else h }
/-- Drop L2 copies of host memory in a range of whole lines, poisoned or not (R247). -/
def State.hostDrop (s : State) (lo n : Nat) : State :=
  { s with
    hostCache := s.hostCache.filter fun h => !(lo ≤ h.addr && h.addr < lo + n)
    l2 := s.l2.filter fun x => !(lo ≤ 128 * x.line && 128 * x.line < lo + n) }

/-! ### The lines of L2 (R235, R236; log entry 80) -/

/-- The home slice of a physical address (R235). -/
def homeSlice (pa : Nat) : Nat :=
  let g := pa / 256
  ((bits g 0 12 ^^^ bits g 12 12 ^^^ bits g 24 12 ^^^ bits g 36 8)) % Config.slices
/-- Ways of a set, and sets of a slice of 3 MiB (R235). -/
def l2Ways : Nat := 16
def l2Sets : Nat := 1536
/-- The slice of a line and its set there; the set is the implementation's choice. -/
def l2Place (line : Nat) : Nat × Nat := (homeSlice (128 * line), Config.l2Set line % l2Sets)

/-- An access of a context uses the line of an address: the line is there and is the most recently used. -/
def State.l2Touch (s : State) (ctx pa : Nat) : State :=
  let x := (s.l2.find? (·.line == pa / 128)).getD ⟨ctx, pa / 128⟩
  { s with l2 := x :: s.l2.filter (·.line != pa / 128) }
/-- Lines of a set that a context may hold; an agent of no context is not capped. -/
def State.l2Cap (s : State) (ctx : Nat) : Nat := ((s.ctx? ctx).map (·.l2Share)).getD l2Ways
/-- The line that makes room for a line of the list, if one must (R236): its context's least recently used line of the set when the
context is over its share there, else the set's when the set is over its ways. -/
def State.l2Room (s : State) (x : L2Line) : Option Nat :=
  let set := s.l2.filter fun y => l2Place y.line == l2Place x.line
  let mine := set.filter (·.ctx == x.ctx)
  if s.l2Cap x.ctx < mine.length then mine.getLast?.map (·.line)
  else if l2Ways < set.length then set.getLast?.map (·.line)
  else none
/-- The line that L2 replaces next, if a fill has left a set without room. -/
def State.l2Victim (s : State) : Option Nat := s.l2.findSome? s.l2Room

/-- A read of a context at its home: the line is in L2, and of a host line the sector (R235). -/
def State.l2Read (s : State) (ctx pa : Nat) : State := (if isReserved pa then s else s.l2Touch ctx pa).hostFill pa

/-! ### Compressed blocks at their home (R239 to R241) -/

/-- NSEC of the 256-byte block of an address: 8 unless listed (R239). -/
def State.nsecAt (s : State) (pa : Nat) : Nat := alGetD s.nsec (pa / 256) 8
/-- The lengths of a bead-table slot when it is FROZEN. -/
def State.slotLens (s : State) (i : Nat) : Option (List Nat) :=
  match s.bead.slots[i]? with
  | some b => if b.st = .frozen then some b.lens else none
  | none => none
/-- The 256 stored bytes of a block. -/
def State.storedBlock (s : State) (pa : Nat) : List (Byte × Bool) :=
  (List.range 256).map fun i => s.homeByte (pa / 256 * 256 + i)

/-- A block decoded: its 256 bytes, those of failed chunks poisoned, and the lowest failing chunk (8 when none fails). A poisoned
stored byte poisons the whole of what it codes. -/
def State.decodedBlock (s : State) (pa : Nat) : List (Byte × Bool) × Nat :=
  let st := s.storedBlock pa
  let nsec := s.nsecAt pa
  if 8 ≤ nsec then (st, 8)
  else
    let used := st.take (32 * nsec)
    let good := decodeCoded (s.slotLens (codedSlot (st.map (·.1)))) (st.map (·.1)) nsec
    let bad := used.any (·.2)
    ((List.range 256).map fun i => (good.getD i 0, bad || decide (good.length ≤ i)), good.length / 32)

/-- A root byte through a leaf: decoded where the leaf is COMP (R240, R246). -/
def State.leafByte (s : State) (pa : Nat) (comp : Bool) : Byte × Bool :=
  if comp && isHbm pa && s.nsecAt pa < 8 then (s.decodedBlock pa).1.getD (pa % 256) (0, true) else s.homeByte pa

/-- Replace a coded block by its decoded bytes, as a write into it does; it counts as written (R240, R241). -/
def State.openBlock (s : State) (pa : Nat) : State :=
  let base := pa / 256 * 256
  let s1 : State :=
    if s.nsecAt pa < 8 then
      let d := (s.decodedBlock pa).1
      let s0 := (List.range 256).foldl (fun (a : State) i =>
        let x := d.getD i (0, true)
        a.homeWrite (base + i) x.1 x.2) s
      { s0 with nsec := alDel (pa / 256) s0.nsec }
    else s
  { s1 with dirtyComp := nsInsert (pa / 256) s1.dirtyComp }

/-- A root write through a leaf (R240, R246). -/
def State.leafWrite (s : State) (pa : Nat) (comp : Bool) (b : Byte) (bad : Bool) : State :=
  (if comp && isHbm pa then s.openBlock pa else s).homeWrite pa b bad

/-! ### Versions and views (R336 to R339) -/

/-- The byte that a version of a context holds, under a tag that resolves to `t`. -/
def Ctx.versionByte (c : Ctx) (t pa : Nat) : Option (Byte × Bool) :=
  (c.versions.find? fun v => v.block == pa / 64 && resolveHyp c.hyps v.tag == t && (alGet (pa % 64) v.cells).isSome).bind
    fun v => (alGet (pa % 64) v.cells).map fun b => (b, v.poison.contains (pa % 64))

/-- The root value of a byte: a version merged into the root and not yet scrubbed stands over memory (R338, R340). -/
def State.rootByte (s : State) (l : Loc) : Byte × Bool :=
  match s.ctxs.findSome? fun c => c.versionByte 0 l.pa with
  | some x => x
  | none => s.leafByte l.pa l.comp

/-- What a context's reader under hypothesis h sees of a byte (R337): the nearest member of the chain that wrote it. -/
def State.viewByte (s : State) (c : Ctx) (h : Nat) (l : Loc) : Byte × Bool :=
  match (chainHyp c.hyps h).findSome? fun t => if t = 0 then none else c.versionByte t l.pa with
  | some x => x
  | none => s.rootByte l

/-- A peer's memory through a port (R253): poison when the link is down or the address lies outside its HBM. -/
def State.peerByte (s : State) (port pa : Nat) : Byte × Bool :=
  match s.peers.find? (·.port == port) with
  | some p => if p.up && isHbm pa then (memGet p.mem pa, p.poison.contains pa) else (0, true)
  | none => if isHbm pa then (unlisted, false) else (0, true)
/-- A write at a peer's home slice (R253). -/
def State.peerWrite (s : State) (port pa : Nat) (b : Byte) (bad : Bool) : State :=
  let p := (s.peers.find? (·.port == port)).getD ⟨port, true, [], []⟩
  let poison := if bad then nsInsert pa p.poison else p.poison.filter (· != pa)
  if p.up && isHbm pa then
    { s with peers := putBy (·.port == port) { p with mem := memPut pa b p.mem, poison := poison } s.peers }
  else s

/-- Remove one byte from every version of a context that resolves to a tag, as a later write under that tag does (R338). -/
def Ctx.maskVersions (c : Ctx) (t pa : Nat) : Ctx :=
  { c with versions := c.versions.map fun v =>
      if v.block = pa / 64 ∧ resolveHyp c.hyps v.tag = t
      then { v with cells := alDel (pa % 64) v.cells, poison := v.poison.filter (· != pa % 64) } else v }

/-- Put one byte into the version of (tag, block), taking a slot if there is none (R339). -/
def Ctx.putVersion (c : Ctx) (t : Nat) (l : Loc) (b : Byte) (bad : Bool) : Ctx :=
  let old := (c.versions.find? fun v => v.tag == t && v.block == l.pa / 64).getD ⟨t, l.pa / 64, l.comp, [], []⟩
  let o := l.pa % 64
  let new := { old with cells := alPut o b old.cells,
                        poison := if bad then nsInsert o old.poison else old.poison.filter (· != o) }
  { c with versions := putBy (fun v => v.tag == t && v.block == l.pa / 64) new c.versions }

/-! ### L1 (R234, R341) -/

/-- The L1 sector key of an address. -/
def L1Sector.is (x : L1Sector) (ctx view pa : Nat) (comp : Bool) : Bool :=
  x.ctx == ctx && x.view == view && x.sector == pa / 32 && x.comp == comp

/-- A root write by a mast updates its L1 sectors of that byte in the root view and drops its other lines of the written
block (R234, R341). -/
def Mast.l1Write (m : Mast) (pa : Nat) (comp : Bool) (b : Byte) (bad : Bool) : Mast :=
  { m with l1 := (m.l1.filter fun x => x.view == 0 || x.sector / 4 != pa / 128).map fun x =>
      if x.sector = pa / 32 ∧ x.comp = comp
      then { x with bytes := x.bytes.set (pa % 32) b,
                    poison := if bad then nsInsert (pa % 32) x.poison else x.poison.filter (· != pa % 32) } else x }
/-- A version write by a mast drops its lines of the written block whose view tag is not 0 (R341). -/
def Mast.l1DropViews (m : Mast) (pa : Nat) : Mast :=
  { m with l1 := m.l1.filter fun x => x.view == 0 || x.sector / 4 != pa / 128 }
/-- Drop the line of an address from L1 in every view, as an atomic does (R234, R324). -/
def Mast.l1DropLine (m : Mast) (pa : Nat) : Mast := { m with l1 := m.l1.filter fun x => x.sector / 4 != pa / 128 }

/-- Drop the lines of a context's view (R341, R342). -/
def Mast.l1DropView (m : Mast) (ctx view : Nat) : Mast := { m with l1 := m.l1.filter fun x => !(x.ctx == ctx && x.view == view) }
/-- Drop the lines of a context's view from every L1. -/
def State.forgetView (s : State) (ctx view : Nat) : State := { s with masts := s.masts.map fun m => m.l1DropView ctx view }

/-! ### Writes -/

/-- Who writes: the context and hypothesis of the write, and the mast, if one (R237, R336). -/
structure Writer where
  ctx  : Nat
  hyp  : Nat
  mast : Option Nat
  deriving DecidableEq, Repr

/-- An agent other than a mast: copy engines, the packet cores, the host, peers (R237). -/
def agentOf (ctx : Nat) : Writer := ⟨ctx, 0, none⟩

/-- Log that a write to the block of an address was performed at its home (R237). -/
def State.logWrite (s : State) (pa : Nat) (m : Option Nat) : State := { s with wlog := (pa / 64, m) :: s.wlog }

/-- Apply a function to a mast. -/
def State.onMast (s : State) (m : Option Nat) (f : Mast → Mast) : State :=
  match m with
  | none => s
  | some n => s.setMast (f (s.mast n))

/-- Write one byte: at the peer, at the root, or as a version; a write under a REFUTED ID or to a reserved address is discarded
(R233, R336, R337, R342). -/
def State.writeByte (s : State) (w : Writer) (l : Loc) (b : Byte) (bad : Bool := false) : State :=
  match l.port with
  | some p => s.peerWrite p l.pa b bad
  | none =>
    let c := s.ctxD w.ctx
    let t := resolveHyp c.hyps w.hyp
    if isOrphan c.hyps w.hyp then s
    else if t = 0 then
      if isReserved l.pa then s else
      let s1 := { s with ctxs := s.ctxs.map fun (x : Ctx) => x.maskVersions 0 l.pa }
      let s2 := (s1.leafWrite l.pa l.comp b bad).onMast w.mast fun m => m.l1Write l.pa l.comp b bad
      (s2.l2Touch w.ctx l.pa).logWrite l.pa w.mast
    else
      let c1 := (c.maskVersions t l.pa).putVersion t l b bad
      ((s.setCtx c1).onMast w.mast fun m => m.l1DropViews l.pa).logWrite l.pa w.mast

/-- Write bytes at successive addresses of one page. -/
def State.writeBytes (s : State) (w : Writer) (l : Loc) : List (Byte × Bool) → State
  | [] => s
  | (b, p) :: r => (s.writeByte w l b p).writeBytes w { l with pa := l.pa + 1 } r

/-! ### Reads -/

/-- The 32 bytes of a sector in a view, with poison. -/
def State.viewSector (s : State) (c : Ctx) (h pa : Nat) (comp : Bool) : List (Byte × Bool) :=
  (List.range 32).map fun i => s.viewByte c h ⟨pa / 32 * 32 + i, comp, none⟩

/-- Lines of 128 bytes in a mast's L1 of 192 KiB (R234). -/
def l1Lines : Nat := 1536
/-- The line that a sector belongs to. -/
def L1Sector.ofLine (x y : L1Sector) : Bool := x.ctx == y.ctx && x.view == y.view && x.sector / 4 == y.sector / 4 && x.comp == y.comp
/-- Sectors of distinct lines among some sectors. -/
def lineHeads : List L1Sector → List L1Sector
  | [] => []
  | x :: r => x :: (lineHeads r).filter fun y => !y.ofLine x
/-- L1 within its capacity: a line too many takes the place of the one that came first (log entry 15). -/
def trimL1 (l : List L1Sector) : List L1Sector :=
  if l.length ≤ l1Lines then l
  else if (lineHeads l).length ≤ l1Lines then l
  else match l with
    | [] => []
    | x :: r => r.filter fun y => !y.ofLine x

/-- Bring a sector into a mast's L1 for a view, unless it is there and kept (R234; log entry 15). -/
def State.l1Fill (s : State) (m : Nat) (c : Ctx) (h : Nat) (l : Loc) : State :=
  let t := resolveHyp c.hyps h
  let ma := s.mast m
  if (ma.l1.any fun x => x.is c.num t l.pa l.comp) && Config.l1Keep s.free (l.pa / 32) then s
  else
    let s := s.l2Read c.num l.pa
    let d := s.viewSector c h l.pa l.comp
    let sec : L1Sector := ⟨c.num, t, l.pa / 32, l.comp, d.map (·.1), (List.range 32).filter fun i => (d.getD i (0, false)).2⟩
    s.setMast { ma with l1 := trimL1 (putBy (fun x => x.is c.num t l.pa l.comp) sec ma.l1) }

/-- A byte through a mast's L1 (R234, R258); PEER data is never cached. -/
def State.l1Byte (s : State) (m : Nat) (c : Ctx) (h : Nat) (l : Loc) : State × Byte × Bool :=
  match l.port with
  | some p => (s, s.peerByte p l.pa)
  | none =>
    let s := s.l1Fill m c h l
    let t := resolveHyp c.hyps h
    match (s.mast m).l1.find? fun x => x.is c.num t l.pa l.comp with
    | some x => (s, x.bytes.getD (l.pa % 32) 0, x.poison.contains (l.pa % 32))
    | none => (s, s.viewByte c h l)

/-- Successive bytes through a mast's L1. -/
def State.l1Bytes (s : State) (m : Nat) (c : Ctx) (h : Nat) (l : Loc) : Nat → State × List (Byte × Bool)
  | 0 => (s, [])
  | n + 1 =>
    let (s1, b) := s.l1Byte m c h l
    let (s2, r) := s1.l1Bytes m c h { l with pa := l.pa + 1 } n
    (s2, b :: r)

/-- A byte at its home in a view, past every L1. -/
def State.homeViewByte (s : State) (c : Ctx) (h : Nat) (l : Loc) : State × Byte × Bool :=
  match l.port with
  | some p => (s, s.peerByte p l.pa)
  | none =>
    let s := s.l2Read c.num l.pa
    (s, s.viewByte c h l)
/-- Successive bytes at their home. -/
def State.homeBytes (s : State) (c : Ctx) (h : Nat) (l : Loc) : Nat → State × List (Byte × Bool)
  | 0 => (s, [])
  | n + 1 =>
    let (s1, b) := s.homeViewByte c h l
    let (s2, r) := s1.homeBytes c h { l with pa := l.pa + 1 } n
    (s2, b :: r)

/-! ### Signatures (R235, R237, R238) -/

/-- The bits that a write to a block sets in a signature (R237). -/
def sigBits (block : Nat) : List (BitVec 12) := [Config.sigHash1 block, Config.sigHash2 block, Config.sigHash3 block]

/-- The blocks whose writes set bits for mast m since its last device-scope acquire. -/
def State.sigBlocks (s : State) (m : Nat) : List Nat :=
  ((s.wlog.take (s.wlog.length - (s.mast m).seen)).filter fun e => e.2 != some m).map (·.1)

/-- Whether the signature of a block's slice has all three bits of the block set. -/
def sigHits (written : List Nat) (block : Nat) : Bool :=
  let set := (written.filter fun y => homeSlice (64 * y) == homeSlice (64 * block)).flatMap sigBits
  (sigBits block).all fun b => set.contains b

/-- A device-scope acquire on a mast: read and clear its signatures, drop every L1 line that holds a hit block (R238). -/
def State.acquire (s : State) (m : Nat) : State :=
  let w := s.sigBlocks m
  let ma := s.mast m
  let hitLine := fun (x : L1Sector) => sigHits w (x.sector / 4 * 2) || sigHits w (x.sector / 4 * 2 + 1)
  s.setMast { ma with l1 := ma.l1.filter fun x => !hitLine x, seen := s.wlog.length }

/-- Set the signature bits of a block for every mast (R247, R342). -/
def State.sigAll (s : State) (block : Nat) : State := { s with wlog := (block, none) :: s.wlog }

/-- Write every dirty L2 copy of host memory back, as a system-scope release does (R320). -/
def State.systemRelease (s : State) : State := s.hostWriteBack Config.hostBase (Config.physEnd - Config.hostBase)

/-! ### Translation (R123 to R127) -/

/-- What an access needs of its leaf. -/
inductive Acc where
  | rd | wr | ex
  deriving DecidableEq, Repr

/-- Translation causes of R127. -/
def xNotPresent : Nat := 0x10
def xWrite : Nat := 0x11
def xFetch : Nat := 0x12
def xEntry : Nat := 0x13
def xFeature : Nat := 0x14
def xPoison : Nat := 0x15
def xAddress : Nat := 0x16

/-- Whether a feature was accepted at start (R90). -/
def State.feature (s : State) (k : Nat) : Bool := s.start.st == .running && s.start.featAccept.getLsbD k

/-- The lowest cause that a valid leaf entry gives an access at a level (R124, R127). -/
def leafCause (s : State) (lvl : Nat) (e : Nat) (a : Acc) : Option Nat :=
  let frameOk := (lvl != 1 || bits e 12 10 == 0) && (lvl != 2 || bits e 12 20 == 0)
  let port := bits e 52 4
  let peer := bit e 5
  let entryOk := lvl != 3 && bits e 7 5 == 0 && bits e 56 8 == 0 && frameOk && (if peer then port ≤ 11 else port == 0)
  if a = .wr ∧ !bit e 2 then some xWrite
  else if a = .ex ∧ !bit e 3 then some xFetch
  else if !entryOk then some xEntry
  else if (bit e 4 && !s.feature 9) || (peer && !s.feature 10) then some xFeature
  else none

/-- Whether a valid non-leaf entry is well formed at a level (R124). -/
def tableOk (lvl : Nat) (e : Nat) : Bool :=
  lvl != 0 && bits e 2 5 == 0 && bits e 7 5 == 0 && !bit e 12 && bits e 52 4 == 0 && bits e 56 8 == 0

/-- The bytes that one entry of a level covers. -/
def levelBytes (lvl : Nat) : Nat := 2 ^ (12 + 10 * lvl)

/-- A table entry as a walk reads it: none when poisoned. A walk leaves no line in L2 (log entry 60). -/
def State.tableEntry (s : State) (pa : Nat) : Option Nat :=
  let bs := (List.range 8).map fun i => s.rootByte ⟨pa + i, false, none⟩
  if bs.any (·.2) then none else some (leNat (bs.map (·.1)))

/-- A walk from a table at a level: the leaf, its level and its table, or the cause. A malformed non-leaf entry ends the walk with
ENTRY: what it names is not read (DEDUCED, log entry 81). -/
def State.walk (s : State) (a : Acc) (va : Nat) : Nat → Nat → Except Nat (Nat × Nat × Nat)
  | 0, table =>
    match s.tableEntry (table + 8 * bits va 12 10) with
    | none => .error xPoison
    | some e =>
      if !bit e 0 then .error xNotPresent
      else if !bit e 1 then .error xEntry
      else match leafCause s 0 e a with
        | some c => .error c
        | none => .ok (e, 0, table)
  | lvl + 1, table =>
    match s.tableEntry (table + 8 * bits va (12 + 10 * (lvl + 1)) 10) with
    | none => .error xPoison
    | some e =>
      if !bit e 0 then .error xNotPresent
      else if bit e 1 then
        match leafCause s (lvl + 1) e a with
        | some c => .error c
        | none => .ok (e, lvl + 1, table)
      else if tableOk (lvl + 1) e then s.walk a va lvl (bits e 12 40 * 4096)
      else .error xEntry

/-- Whether the group of sixteen leaves around an entry is contiguous (R125): CONTIG in all, FRAMEs consecutive from an aligned
base, other fields equal. -/
def State.groupOk (s : State) (lvl table idx : Nat) : Bool :=
  let first := idx / 16 * 16
  let es := (List.range 16).map fun i => (s.tableEntry (table + 8 * (first + i))).getD 0
  let step := levelBytes lvl
  let e0 := es.getD 0 0
  (lvl == 0 || lvl == 1) && es.all (fun e => bit e 0 && bit e 1 && bit e 6) &&
    (bits e0 12 40 * 4096) % (16 * step) == 0 &&
    (List.range 16).all fun i =>
      let e := es.getD i 0
      bits e 12 40 * 4096 == bits e0 12 40 * 4096 + i * step && bits e 0 12 == bits e0 0 12 && bits e 52 12 == bits e0 52 12

/-- The cached form of a leaf: the page it covers, or its group's (R125). -/
def State.tlbEntryOf (s : State) (c va e lvl table : Nat) : TlbEntry :=
  let size := levelBytes lvl
  if bit e 6 && s.groupOk lvl table (bits va (12 + 10 * lvl) 10) then
    let base := va / (16 * size) * (16 * size)
    let off := va / size * size - base
    ⟨c, base, 16 * size, BitVec.ofNat 64 (e - off)⟩
  else ⟨c, va / size * size, size, BitVec.ofNat 64 e⟩

/-- The location that a cached leaf gives an address; a COMP leaf outside local HBM is as without COMP (R240). -/
def TlbEntry.loc (t : TlbEntry) (va : Nat) : Loc :=
  let e := t.leaf.toNat
  let pa := bits e 12 40 * 4096 + (va - t.va)
  let peer := bit e 5
  ⟨pa, bit e 4 && !peer && isHbm pa, if peer then some (bits e 52 4) else none⟩

/-- Entries of the TLB of a mast and of the shared one (R126). -/
def mastTlb : Nat := 256
def sharedTlb : Nat := 16384
/-- The cached leaf of an address: a mast looks in its own TLB first. -/
def State.cachedLeaf (s : State) (c : Ctx) (va : Nat) (m : Option Nat) : Option TlbEntry :=
  let hit := fun (t : TlbEntry) => t.ctx == c.num && t.va ≤ va && va < t.va + t.bytes
  (m.bind fun k => (s.mast k).tlb.find? hit).or (s.tlb.find? hit)

/-- Translate an address (R123 to R127) for a mast, or for an engine or a packet core: a cached leaf may be used until it is
invalidated (R126; log entry 16), else the tables are walked. The answer is the leaf used, or the cause. -/
def State.xleaf (s : State) (c : Ctx) (va : Nat) (a : Acc) (m : Option Nat := none) : Except Nat TlbEntry :=
  if 2 ^ 52 ≤ va then .error xAddress
  else
    let cached := s.cachedLeaf c va m
    match if Config.tlbKeep s.free (va / 4096) then cached else none with
    | some t => match leafCause s 0 (t.leaf.toNat) a with
      | some x => .error x
      | none => .ok t
    | none =>
      match s.walk a va 3 c.ptRoot with
      | .error x => .error x
      | .ok (e, lvl, table) => .ok (s.tlbEntryOf c.num va e lvl table)

/-- Translate an address to its location. -/
def State.xlate (s : State) (c : Ctx) (va : Nat) (a : Acc) (m : Option Nat := none) : Except Nat Loc :=
  (s.xleaf c va a m).map fun t => t.loc va

/-- Translate a byte range, page piece by page piece: the pieces, or the lowest cause that a page gives, with the address of the first page
that gives it (R127). -/
def State.xrangeFrom (s : State) (c : Ctx) (a : Acc) (m : Option Nat) : Nat → Nat → Nat → Except (Nat × Nat) (List (Loc × Nat))
  | 0, _, _ => .ok []
  | fuel + 1, va, n =>
    if n = 0 then .ok []
    else
      let k := min n (4096 - va % 4096)
      match s.xlate c va a m, s.xrangeFrom c a m fuel (va + k) (n - k) with
      | .error x, .error y => .error (if y.1 < x then y else (x, va))
      | .error x, .ok _ => .error (x, va)
      | .ok _, .error y => .error y
      | .ok l, .ok r => .ok ((l, k) :: r)
/-- Translate a byte range. -/
def State.xrange (s : State) (c : Ctx) (va n : Nat) (a : Acc) (m : Option Nat := none) : Except (Nat × Nat) (List (Loc × Nat)) :=
  s.xrangeFrom c a m (n / 4096 + 2) va n

/-- A leaf in a TLB of some entries: the one that has been there longest makes room. -/
def tlbPut (n : Nat) (t : TlbEntry) (l : List TlbEntry) : List TlbEntry := if l.contains t then l else (t :: l).take n
/-- Keep the leaf that an access of a mast used in its TLB and in the shared one (R126). -/
def State.tlbKeepLeaf (s : State) (c : Ctx) (va : Nat) (a : Acc) (m : Nat) : State :=
  match s.xleaf c va a (some m) with
  | .ok t =>
    { s with tlb := tlbPut sharedTlb t s.tlb }.onMast (some m) fun x => { x with tlb := tlbPut mastTlb t x.tlb }
  | .error _ => s
/-- Remove cached leaves by a test from every TLB (R126). -/
def State.tlbDrop (s : State) (p : TlbEntry → Bool) : State :=
  { s with
    tlb := s.tlb.filter fun t => !p t
    masts := s.masts.map fun m => { m with tlb := m.tlb.filter fun t => !p t } }

/-- The bytes of translated pieces through L1. -/
def State.l1Segs (s : State) (m : Nat) (c : Ctx) (h : Nat) : List (Loc × Nat) → State × List (Byte × Bool)
  | [] => (s, [])
  | (l, n) :: r =>
    let (s1, a) := s.l1Bytes m c h l n
    let (s2, b) := s1.l1Segs m c h r
    (s2, a ++ b)
/-- The bytes of translated pieces at their home. -/
def State.homeSegs (s : State) (c : Ctx) (h : Nat) : List (Loc × Nat) → State × List (Byte × Bool)
  | [] => (s, [])
  | (l, n) :: r =>
    let (s1, a) := s.homeBytes c h l n
    let (s2, b) := s1.homeSegs c h r
    (s2, a ++ b)
/-- Write bytes into translated pieces. -/
def State.writeSegs (s : State) (w : Writer) : List (Loc × Nat) → List (Byte × Bool) → State
  | [], _ => s
  | (l, n) :: r, bs => (s.writeBytes w l (bs.take n)).writeSegs w r (bs.drop n)

/-- Bytes of a context's virtual space in the root view, for the packet cores and engines: none on a translation fault or
poison, with the state after (R106, R249). -/
def State.readRoot (s : State) (c : Ctx) (va n : Nat) : State × Option (List Byte) :=
  match s.xrange c va n .rd with
  | .error _ => (s, none)
  | .ok segs =>
    let (s1, bs) := s.homeSegs c 0 segs
    (s1, if bs.any (·.2) then none else some (bs.map (·.1)))

/-- Write bytes in a context's virtual space as an agent that is no mast: none on a translation fault. -/
def State.writeRoot (s : State) (c : Ctx) (va : Nat) (bs : List Byte) : Option State :=
  match s.xrange c va bs.length .wr with
  | .error _ => none
  | .ok segs => some (s.writeSegs (agentOf c.num) segs (bs.map fun b => (b, false)))

/-- Bytes at physical addresses in the root view: none when one is reserved or poisoned (R94). -/
def State.readPhys (s : State) (pa n : Nat) : Option (List Byte) :=
  let bs := (List.range n).map fun i => s.rootByte ⟨pa + i, false, none⟩
  if (List.range n).any (fun i => isReserved (pa + i)) || bs.any (·.2) then none else some (bs.map (·.1))

/-- Write bytes at physical addresses as an agent that is no mast. -/
def State.writePhys (s : State) (pa : Nat) (bs : List Byte) : State :=
  s.writeBytes (agentOf 16) ⟨pa, false, none⟩ (bs.map fun b => (b, false))

end Sys2Proof.Machine
end

