-- ==== Sys2Proof/Machine/Threads.lean ====
section
/-! DEFINITION. Threads between blocks: bins and the overflow list (R145, R146), readiness and its wait conditions (R140),
rally rounds (R160), shape tags (R176, R177), results that land (R257), barriers (R162 to R165), fault records (R349, R350). -/

namespace Sys2Proof.Machine

/-! ### Bins -/

/-- A bin or entry with no thread yet. -/
def emptyBin (block : Nat) : Bin := ⟨block, [], false, false, false, none, [], [], []⟩

/-- Bins that a team owns on its mast (R145). -/
def binsPerTeam : Nat := 64

/-- When a bin of the team is free, the head of the overflow list takes it (R146). -/
def Team.refill (t : Team) : Team :=
  let n := binsPerTeam - t.bins.length
  { t with bins := t.bins ++ (t.overflow.take n).map (fun b => { b with listed := true }), overflow := t.overflow.drop n }

/-- Put a thread in the bin or the overflow entry of a block (R145, R146). -/
def Team.addToBin (t : Team) (tid block : Nat) : Team :=
  let add := fun (b : Bin) => if b.block = block then { b with threads := nsInsert tid b.threads } else b
  if t.bins.any (·.block == block) then { t with bins := t.bins.map add }
  else if t.overflow.any (·.block == block) then { t with overflow := t.overflow.map add }
  else
    let b := { emptyBin block with threads := [tid] }
    if t.bins.length < binsPerTeam then { t with bins := t.bins ++ [b] } else { t with overflow := t.overflow ++ [b] }

/-- Take threads out of every bin and entry; a bin that is empty frees (R145). -/
def Team.leaveBins (t : Team) (tids : List Nat) : Team :=
  let cut := fun (b : Bin) =>
    let rest := b.threads.filter fun x => !tids.contains x
    if rest.length = b.threads.length then b else { b with threads := rest, short := false, aged := false }
  { t with bins := (t.bins.map cut).filter fun b => !b.threads.isEmpty,
           overflow := (t.overflow.map cut).filter fun b => !b.threads.isEmpty }.refill

/-- The READY threads among some threads, those that are READY by a cycle. -/
def Team.readyOf (t : Team) (cycle : Nat) (tids : List Nat) : List Nat :=
  tids.filter fun i => (t.thread i).st == .ready && decide ((t.thread i).readyAt ≤ cycle)
/-- The threads of a warp among some threads. -/
def ofWarp (w : Nat) (tids : List Nat) : List Nat := tids.filter fun i => i / 32 == w

/-- Whether the rally condition of a warp holds in a cycle (R160): every live thread of the warp that the mask names, as it stood
before the cycle (R187), is READY in the bin. -/
def Team.massed (t : Team) (cycle : Nat) (b : Bin) (mask w : Nat) : Bool :=
  let m := alGetD (t.masksBefore cycle) (8 * w + mask) 0
  let ready := t.readyOf cycle b.threads
  (List.range 32).all fun l =>
    let i := 32 * w + l
    !(m.getLsbD l && decide (i < t.threads.length) && (t.thread i).live) || ready.contains i

/-- The masks of a warp whose rally condition has held since its round opened, this cycle included (R160). -/
def Team.metNow (t : Team) (cycle : Nat) (b : Bin) (w : Nat) : List Nat :=
  ((List.range 8).filter fun m => b.met.contains (8 * w + m) ||
    (!(ofWarp w (t.readyOf cycle b.threads)).isEmpty && t.massed cycle b m w)).map (8 * w + ·)

/-- The marks of a bin or entry for the warps with an open round (R160). It is due for those it was due for already, and, once its RALLY
is known, for those whose condition has held or whose round has been open for the timeout. -/
def Team.markDue (t : Team) (cycle : Nat) (b : Bin) : Bin :=
  let met := b.rounds.flatMap fun r => t.metNow cycle b r.1
  match b.rally with
  | none => { b with met := met }
  | some (m, lim) =>
    { b with
      met := met
      due := (b.rounds.filter fun r => b.due.contains r.1 || met.contains (8 * r.1 + m) ||
        (lim != 0 && decide (r.2 + lim ≤ cycle) && !(ofWarp r.1 (t.readyOf cycle b.threads)).isEmpty)).map (·.1) }

/-- A rally round opens when a thread of the warp becomes READY in a bin or entry and none is open (R160). -/
def Bin.openRound (b : Bin) (warp cycle : Nat) : Bin :=
  if b.rounds.any (·.1 == warp) then b else { b with rounds := b.rounds ++ [(warp, cycle)] }

/-- Apply a function to the bin or entry that a thread stands in. -/
def Team.onBinOf (t : Team) (tid : Nat) (f : Bin → Bin) : Team :=
  let g := fun (b : Bin) => if b.threads.contains tid then f b else b
  { t with bins := t.bins.map g, overflow := t.overflow.map g }

/-- The cycle to which what comes about now belongs for the team's sequencer: the next one once packs have been formed in this one
(R155; log entry 79). -/
def Team.clock (t : Team) (cycle : Nat) : Nat := if t.seqAt = some cycle then cycle + 1 else cycle

/-- A thread becomes READY in a cycle, and its warp's rally round opens (R140, R160). The rally condition is judged cycle by cycle
(`State.look`), on the masks as they stand between cycles. -/
def Team.makeReady (t : Team) (cycle tid : Nat) : Team :=
  (t.setThread tid { t.thread tid with st := .ready, waits := [], readyAt := cycle }).onBinOf tid fun b => b.openRound (tid / 32) cycle

/-- A wait condition that holds beyond a cycle: all but a PAUSE whose cycles have passed (R140). -/
def Wait.holds (cycle : Nat) : Wait → Bool
  | .pause u => cycle < u
  | _ => true

/-- A WAITING thread with no condition outstanding becomes READY in this cycle (R140). -/
def Team.settle (t : Team) (cycle tid : Nat) : Team :=
  let x := t.thread tid
  if x.st = .waiting ∧ x.waits.all (fun w => !w.holds cycle) ∧ x.out = [] then t.makeReady (t.clock cycle) tid
  else t
/-- Settle every thread of the team. -/
def Team.settleAll (t : Team) (cycle : Nat) : Team :=
  (List.range t.threads.length).foldl (fun a i => a.settle cycle i) t

/-- The last cycle of a list of PAUSEs. -/
def lastPause : List Wait → Nat
  | [] => 0
  | .pause u :: r => max u (lastPause r)
  | _ :: r => lastPause r

/-- A thread whose PAUSE is its last condition and has run out became READY in the cycle in which it ran out (R140, R200). -/
def Team.settlePause (t : Team) (cycle tid : Nat) : Team :=
  let x := t.thread tid
  if x.st = .waiting ∧ x.waits ≠ [] ∧ x.waits.all (fun w => !w.holds cycle) ∧ x.out = [] then t.makeReady (lastPause x.waits) tid
  else t
/-- Every PAUSE that has run out ends (R140). -/
def Team.settlePauses (t : Team) (cycle : Nat) : Team :=
  (List.range t.threads.length).foldl (fun a i => a.settlePause cycle i) t

/-- A thread stands in the bin of its next block under conditions that may be none (R140, R143). -/
def Team.stand (t : Team) (cycle tid block : Nat) (waits : List Wait) : Team :=
  let x := t.thread tid
  ((t.setThread tid { x with st := .waiting, next := block, waits := waits }).addToBin tid block).settle cycle tid

/-- Clear wait conditions of a thread by a test; a PAUSE that was the last condition has made it READY as it ran out. -/
def Team.clearWaits (t : Team) (cycle tid : Nat) (p : Wait → Bool) : Team :=
  let u := t.settlePause cycle tid
  let x := u.thread tid
  (u.setThread tid { x with waits := x.waits.filter fun w => !p w }).settle cycle tid
/-- Clear wait conditions of every thread by a test. -/
def Team.clearWaitsAll (t : Team) (cycle : Nat) (p : Wait → Bool) : Team :=
  (List.range t.threads.length).foldl (fun a i => a.clearWaits cycle i p) t

/-! ### Shape tags (R176, R177) -/

/-- The inverse of an odd word. -/
def oddInverse (d : Word) : Word :=
  (List.range 5).foldl (fun (x : Word) _ => x * (2 - d * x)) d

/-- The strides that fit the pair of lanes (0, v0) and (d, v), d from 1 to 31: none, or the solutions of s × d = v − v0. -/
def strideCandidates (d : Nat) (diff : Word) : List Word :=
  let v := ((List.range 5).find? fun k => d / 2 ^ k % 2 == 1).getD 0
  if diff.toNat % 2 ^ v ≠ 0 then []
  else
    let s0 : Word := BitVec.ofNat 32 (diff.toNat / 2 ^ v) * oddInverse (BitVec.ofNat 32 (d / 2 ^ v))
    (List.range (2 ^ v)).map fun k => BitVec.ofNat 32 (s0.toNat % 2 ^ (32 - v) + k * 2 ^ (32 - v))

/-- The least stride of an affine form over lanes and values, if there is one (R176). -/
def affineStride (vs : List (Nat × Word)) : Option Word :=
  match vs with
  | [] => none
  | (l0, v0) :: rest =>
    match rest with
    | [] => none
    | (l1, v1) :: _ =>
      let fits := fun (s : Word) => s != 0 && rest.all fun c => v0 + s * BitVec.ofNat 32 (c.1 - l0) == c.2
      ((strideCandidates (l1 - l0) (v1 - v0)).filter fits).foldl
        (fun (a : Option Word) s => match a with
          | none => some s
          | some x => some (if s.toNat < x.toNat then s else x)) none

/-- The live lanes of a warp with their values of a register. -/
def Team.laneValues (t : Team) (warp reg : Nat) : List (Nat × Word) :=
  (List.range 32).filterMap fun l =>
    let x := t.thread (32 * warp + l)
    if 32 * warp + l < t.threads.length && x.live then some (l, alGetD x.v reg 0) else none

/-- The tag that fits a register of a warp, with its words (R176). -/
def Team.shapeOf (t : Team) (warp reg : Nat) : Tag :=
  let vs := t.laneValues warp reg
  match vs with
  | [] => .uniform 0
  | (l0, v0) :: r =>
    if r.all fun c => c.2 == v0 then .uniform v0
    else match affineStride vs with
      | some s => .affine (v0 - s * BitVec.ofNat 32 l0) s
      | none => .general
/-- Put the tag of a register of a warp; Uniform with u = 0 is not listed. -/
def Team.setTag (t : Team) (warp reg : Nat) (x : Tag) : Team :=
  let rest := t.tags.filter fun c => c.1 != (warp, reg)
  { t with tags := if x = .uniform 0 then rest else rest ++ [((warp, reg), x)] }

/-- Recompute the tags of registers of a warp after writes to them have taken effect (R177). -/
def Team.retag (t : Team) (warp : Nat) (regs : List Nat) : Team :=
  regs.foldl (fun (a : Team) r => a.setTag warp r (t.shapeOf warp r)) t

/-! ### Results (R140, R257) -/

/-- Where the words of a result land, by a destination code, the window and a count: none for block temporaries and DISCARD. -/
def landRegs (wb : Nat) (dst : Reg) (n : Nat) : List (Option Nat) :=
  (List.range n).map fun i => if dst.toNat < 96 then some (wb + dst.toNat + i) else none

/-- Add an outstanding result; registers and predicates that it names are no longer supplied by earlier results (R257). -/
def Thread.await (x : Thread) (r : Result) : Thread :=
  let cut := fun (o : Result) =>
    { o with regs := o.regs.map (fun q => if q.isSome && r.regs.contains q then none else q),
             pred := if o.pred.isSome && o.pred.map (·.1) == r.pred.map (·.1) then none else o.pred }
  { x with out := x.out.map cut ++ [r] }

/-- A thread whose result's words are known. -/
def Thread.deliver (x : Thread) (p : Pending) (ws : List (Word × Bool)) (flags : BitVec 5) : Thread :=
  { x with out := x.out.map fun r => if r.value = p then { r with value := .words ws, flags := r.flags ||| flags } else r }

/-- Write the words of a result into the v-file with their poison marks (R257). -/
def Thread.putWords (x : Thread) : List (Option Nat) → List (Word × Bool) → Thread
  | some r :: rs, (w, bad) :: ws =>
    { x with v := alPut r w x.v, poison := if bad then nsInsert r x.poison else x.poison.filter (· != r) }.putWords rs ws
  | none :: rs, _ :: ws => x.putWords rs ws
  | _, _ => x

/-- The k-th outstanding result lands (R257): its words, its predicate and its flags take effect; an EXITED thread discards it
(R185). The flags of an ACCRD are ORed in here whatever CTXW its block held (R174, R272; DESIGN CHOICE, log entry 100). -/
def Team.land (t : Team) (cycle tid k : Nat) : Team :=
  let x := t.thread tid
  match x.out[k]? with
  | none => t
  | some r =>
    match r.value with
    | .words ws =>
      let y := { x with out := x.out.eraseIdx k }
      if x.st = .exited then t.setThread tid y
      else
        let z := y.putWords r.regs ws
        let z := { z with status := z.status ||| r.flags.setWidth 6,
                          preds := match r.pred with
                            | some (p, b) => Machine.setPred z.preds p b
                            | none => z.preds }
        ((t.setThread tid z).retag (tid / 32) (r.regs.filterMap fun q => q)).settle cycle tid
    | _ => t

/-! ### Barriers (R162 to R165) -/

/-- A barrier of a team. -/
def Team.bar (t : Team) (n : Nat) : Barrier := (alGet n t.bars).getD ⟨0, 0, false, []⟩
/-- Whether the thread's pending bit for a barrier is set. -/
def Thread.pending (x : Thread) (n : Nat) : Bool := (alGet n x.barPend).isSome

/-- The last arriver of a phase (R165): the highest TID under DET, else the last in counting order. -/
def lastArriver (det : Bool) (arrived : List (Nat × Option Nat)) : Nat :=
  if det then arrived.foldl (fun a c => max a c.1) 0 else (arrived.getLast?.map (·.1)).getD 0

/-- The phase of a barrier completes (R164, R165). -/
def Team.completeBar (t : Team) (det : Bool) (cycle n : Nat) : Team :=
  let b := t.bar n
  let last := lastArriver det b.arrived
  let t1 := b.arrived.foldl (fun (a : Team) c =>
    let x := a.thread c.1
    a.setThread c.1 { x with barPend := alDel n x.barPend,
                             preds := match c.2 with
                               | some p => Machine.setPred x.preds p (c.1 == last)
                               | none => x.preds }) t
  let t2 := { t1 with bars := alPut n ⟨0, b.expected, !b.phase, []⟩ t1.bars }
  t2.clearWaitsAll cycle (· == Wait.barrier n b.phase)

/-- Whether the phase of a barrier is complete (R164). -/
def Team.barDone (t : Team) (n : Nat) : Bool :=
  let b := t.bar n
  b.count != 0 && (if b.expected = 0 then t.threads.all fun x => !x.live || x.pending n else b.count == b.expected)

/-- Complete the phase of a barrier if its condition holds. -/
def Team.checkBar (t : Team) (det : Bool) (cycle n : Nat) : Team := if t.barDone n then t.completeBar det cycle n else t
/-- Complete every whole-team phase that an exit completes (R164, R185). -/
def Team.checkBars (t : Team) (det : Bool) (cycle : Nat) : Team :=
  (List.range 16).foldl (fun a n => a.checkBar det cycle n) t

/-- Whether an arrival breaks a rule of R163. -/
def Team.barBad (t : Team) (tid n c : Nat) : Bool :=
  t.shape.tsize < c || (t.thread tid).pending n || ((t.bar n).count != 0 && (t.bar n).expected != c)

/-- An arrival (R163), with the predicate of a BAR; it may complete the phase. -/
def Team.arrive (t : Team) (det : Bool) (cycle tid n c : Nat) (pl : Option Nat) : Team :=
  let b := t.bar n
  let b1 : Barrier := { b with count := b.count + 1, expected := if b.count = 0 then c else b.expected,
                               arrived := b.arrived ++ [(tid, pl)] }
  let x := t.thread tid
  let t1 := { t.setThread tid { x with barPend := alPut n b.phase x.barPend } with bars := alPut n b1 t.bars }
  t1.checkBar det cycle n

/-- The thread enters EXITED (R185): it leaves its bin, and a whole-team phase may complete. -/
def Team.exitThread (t : Team) (det : Bool) (cycle tid : Nat) : Team :=
  let x := t.thread tid
  ((t.leaveBins [tid]).setThread tid { x with st := .exited, waits := [] }).checkBars det cycle

/-! ### Fault records (R349, R350) -/

/-- A fault record: code, NUM, the faulting address where it applies, block, word. -/
def faultRecord (code num : Nat) (va : Option Nat) (block word : Nat) : List Word :=
  let a := va.getD 0
  [BitVec.ofNat 32 (code + 256 + num * 65536 + bits a 44 8 * 2 ^ 24), BitVec.ofNat 32 block, BitVec.ofNat 32 word,
    BitVec.ofNat 32 (bits a 12 32)]

/-- The record of a trap or fault, with REC_PENDING (R350). -/
def Thread.record (x : Thread) (r : List Word) : Thread := { x with frec := r, recPend := true }
/-- An asynchronous record of a copy or MX operation on a tag, dropped while REC_PENDING is set (R350). -/
def Thread.asyncRecord (x : Thread) (code tag block word : Nat) : Thread :=
  if x.recPend then x
  else
    let r := faultRecord code 0 none block word
    { x with frec := r.set 0 (BitVec.ofNat 32 (code + 256 + 512 + tag * 1024)) }

/-! ### Tags (R261) -/

/-- count(k) of a thread. -/
def Thread.count (x : Thread) (k : Nat) : Nat := x.tagCount.getD k 0
/-- Add one to a tag's count. -/
def Thread.countUp (x : Thread) (k : Nat) : Thread := { x with tagCount := x.tagCount.set k (x.count k + 1) }
/-- An operation on a tag completes: its count falls, an error sets ERR, and a TAGWAIT may end (R261, R268). -/
def Team.tagDone (t : Team) (cycle tid k : Nat) (err : Bool) : Team :=
  let x := t.thread tid
  let y := { x with tagCount := x.tagCount.set k (x.count k - 1),
                    tagErr := if err then x.tagErr.set k true else x.tagErr }
  (t.setThread tid y).clearWaits cycle tid fun w => match w with
    | .tag j n => j == k && y.count j ≤ n
    | _ => false

end Sys2Proof.Machine
end

