-- ==== Sys2Proof/Machine/Merge.lean ====
section
/-! DEFINITION. Read-modify-writes at the home (R324, R325), the staging buffer and its flushes (R326, R327), epochs and the fixed
tree of a DET launch (R328), releases (R320). -/

namespace Sys2Proof.Machine

/-! ### Atomics at the home -/

/-- The new value of an atomic (R324), none when CAS finds its values unequal: `v` is the operand (for CAS the compare value),
`nv` the new value of CAS. Types are 0 N32, 1 I32, 2 N64, 3 F32. -/
def atomNew (op ty old v nv : Nat) : Option Nat :=
  let w := if ty = 2 then 64 else 32
  let le := if ty = 1 then decide (sextNat 32 old ≤ sextNat 32 v) else decide (old ≤ v)
  if op = 0 then some (if ty = 3 then (fpAdd f32 RNE old v).1 else (old + v) % 2 ^ w)
  else if op = 1 then some (if ty = 3 then (fpMinMax f32 false old v).1 else if le then old else v)
  else if op = 2 then some (if ty = 3 then (fpMinMax f32 true old v).1 else if le then v else old)
  else if op = 3 then some (Nat.land old v)
  else if op = 4 then some (Nat.lor old v)
  else if op = 5 then some (Nat.xor old v)
  else if op = 6 then some v
  else if old = v then some nv else none

/-- Bytes at their home in a view, without bringing host memory into L2. -/
def State.peekBytes (s : State) (c : Ctx) (h : Nat) (l : Loc) (n : Nat) : List (Byte × Bool) :=
  (List.range n).map fun i =>
    let k := { l with pa := l.pa + i }
    match l.port with
    | some p => s.peerByte p k.pa
    | none => s.viewByte c h k

/-- Write bytes to host memory itself, as a system-scope atomic does (R325). -/
def State.hostDirect (s : State) (w : Writer) (pa : Nat) : List (Byte × Bool) → State
  | [] => s
  | (b, bad) :: r =>
    let s1 := { s with mem := memPut pa b s.mem, poison := if bad then nsInsert pa s.poison else s.poison.filter (· != pa) }
    (s1.logWrite pa w.mast).hostDirect w (pa + 1) r

/-- Write back and drop the L2 copy of the 128-byte host line of an address. -/
def State.hostPurge (s : State) (pa : Nat) : State := (s.hostWriteBack (pa / 128 * 128) 128).hostDrop (pa / 128 * 128) 128

/-- One read-modify-write of n bytes at the home (R324, R325) in the writer's view: the state, the old value and whether it
was poisoned. A written value that depends on a poisoned one is poisoned (log entry 25). -/
def State.rmw (s : State) (c : Ctx) (w : Writer) (l : Loc) (n scope : Nat) (exch : Bool) (f : Nat → Option Nat) :
    State × Nat × Bool :=
  let atHost := scope == 3 && l.port.isNone && isHost l.pa
  let s1 := if atHost then s.hostPurge l.pa else if l.port.isNone then s.l2Read w.ctx l.pa else s
  let bs := s1.peekBytes c w.hyp l n
  let old := leNat (bs.map (·.1))
  let bad := bs.any (·.2)
  let s2 := match f old with
    | none => s1
    | some x =>
      let out := (natLE x n).map fun b => (b, bad && !exch)
      if atHost then s1.hostDirect w l.pa out else s1.writeBytes w l out
  (s2.onMast w.mast fun m => m.l1DropLine l.pa, old, bad)

/-- Merge a buffered contribution at its home (R327): a read-modify-write that returns nothing. -/
def State.mergeAt (s : State) (ctx : Nat) (mast : Option Nat) (l : Loc) (op ty scope v : Nat) : State :=
  (s.rmw (s.ctxD ctx) ⟨ctx, 0, mast⟩ l (if ty = 2 then 8 else 4) scope (op == 6) fun old => atomNew op ty old v 0).1

/-! ### The staging buffer without DET (R326, R327) -/

/-- Entries of a mast's staging buffer. -/
def stagingEntries : Nat := 4096
/-- Entries of a DET team. -/
def detEntries : Nat := 512

/-- A list taken in a free order: each number picks one of those left. -/
def pickOrder {α : Type} : List Nat → List α → List α
  | [], l => l
  | k :: ks, l => match l[k % l.length]? with
    | none => []
    | some x => x :: pickOrder ks (l.eraseIdx (k % l.length))

/-- n free numbers (log entry 3). -/
def State.choices (s : State) (n : Nat) : List Nat × State :=
  ((List.range n).map fun i => Config.freeNat (s.free + i), { s with free := s.free + n })

/-- Add a contribution of a team without DET: it combines into the entry of its address, op and type, or takes one. -/
def stageAdd (e : Stage0) : List Stage0 → List Stage0
  | [] => [e]
  | x :: r =>
    if x.team = e.team ∧ x.va = e.va ∧ x.op = e.op ∧ x.ty = e.ty
    then { x with value := (atomNew e.op e.ty x.value e.value 0).getD x.value } :: r
    else x :: stageAdd e r

/-- Merge entries of a mast's buffer at their homes. -/
def State.mergeEntries (s : State) (mast : Nat) : List Stage0 → State
  | [] => s
  | e :: r => (s.mergeAt e.ctx (some mast) e.loc e.op e.ty e.scope e.value).mergeEntries mast r

/-- Flush the entries of a mast's buffer that a test names, in a given order (R327). -/
def State.flushWhere (s : State) (mast : Nat) (p : Stage0 → Bool) (order : List Nat) : State :=
  let m := s.mast mast
  let es := m.staging.filter p
  if es.isEmpty then s
  else (s.setMast { m with staging := m.staging.filter fun e => !p e }).mergeEntries mast (pickOrder order es)

/-- Flush a team's entries in a free order (R327). -/
def State.flushTeam (s : State) (t : Team) : State :=
  let n := ((s.mast t.mast).staging.filter fun e => e.team == t.id).length
  let (ks, s1) := s.choices n
  s1.flushWhere t.mast (fun e => e.team == t.id) ks

/-- Flush the oldest entries of a full buffer (R326). -/
def State.flushOldest (s : State) (mast n : Nat) : State :=
  let m := s.mast mast
  (s.setMast { m with staging := m.staging.drop n }).mergeEntries mast (m.staging.take n)

/-! ### Epochs of a DET team (R328) -/

/-- Insert a contribution in the order of TID, then program order. -/
def detInsert (e : DetEntry) : List DetEntry → List DetEntry
  | [] => [e]
  | x :: r => if e.tid < x.tid ∨ (e.tid = x.tid ∧ e.num < x.num) then e :: x :: r else x :: detInsert e r

/-- F32 ADD: the contribution goes into the team's partial for its address, which starts at −0.0. -/
def addPartial (e : DetEntry) : List Partial → List Partial
  | [] => [⟨e.va, e.loc, e.scope, (fpAdd f32 RNE 0x80000000 e.value).1⟩]
  | x :: r => if x.va = e.va then { x with value := (fpAdd f32 RNE x.value e.value).1 } :: r else x :: addPartial e r

/-- Apply contributions in order to the memory and the team's partials. -/
def State.applyDet (s : State) (ctx mast : Nat) (ps : List Partial) : List DetEntry → State × List Partial
  | [] => (s, ps)
  | e :: r =>
    if e.op = 0 ∧ e.ty = 3 then s.applyDet ctx mast (addPartial e ps) r
    else (s.mergeAt ctx (some mast) e.loc e.op e.ty e.scope e.value).applyDet ctx mast ps r

/-- The next epoch of a team closes: its contributions are applied by TID and program order, and threads that await it go on. -/
def State.closeEpoch (s : State) (t : Team) : State :=
  let i := t.epochsClosed + 1
  let es := (t.staging.filter fun e => e.epoch == i).foldr detInsert []
  let ctx := (s.launchD t.launch).ctx
  let (s1, ps) := s.applyDet ctx t.mast t.partials es
  let t1 := { t with staging := t.staging.filter fun e => e.epoch != i, partials := ps, epochsClosed := i }
  s1.setTeam (t1.clearWaitsAll s.cycle (· == Wait.epoch i))

/-- Close every epoch that still holds contributions, as the team's retirement does. -/
def State.closeEpochs (s : State) (team : Nat) : Nat → State
  | 0 => s
  | n + 1 => match s.team? team with
    | none => s
    | some t => if t.staging.isEmpty then s else (s.closeEpoch t).closeEpochs team n

/-- The entries that a DET team uses (R326): its contributions and one partial for each F32 ADD address. -/
def Team.detUsed (t : Team) : Nat :=
  let vas := (t.staging.filter fun e => e.op == 0 && e.ty == 3).map (·.va) ++ t.partials.map (·.va)
  t.staging.length + vas.dedup.length

/-- One level of the fixed tree of R328. -/
def partialLevel : List Nat → List Nat
  | x :: y :: r => (fpAdd f32 RNE x y).1 :: partialLevel r
  | l => l
/-- The root of the tree over N leaves, padded with −0.0 to a power of two. -/
def partialRoot (n : Nat) (leaf : Nat → Nat) : Nat :=
  let k := ((List.range 9).find? fun k => n ≤ 2 ^ k).getD 8
  let leaves := (List.range (2 ^ k)).map fun t => if t < n then leaf t else 0x80000000
  ((List.range k).foldl (fun (l : List Nat) _ => partialLevel l) leaves).headD 0x80000000

/-- Merge the partials of a finished DET launch, one for each address (R328, R372). -/
def State.mergePartials (s : State) (l : Launch) : List Nat → State
  | [] => s
  | va :: r =>
    let ps := l.partials.filter fun p => p.2.va == va
    let leaf := fun t => ((ps.find? fun p => p.1 == t).map (·.2.value)).getD 0x80000000
    let s1 := match ps with
      | [] => s
      | p :: _ => s.mergeAt l.ctx none p.2.loc 0 3 p.2.scope (partialRoot l.teams leaf)
    s1.mergePartials l r

end Sys2Proof.Machine
end

