-- ==== Sys2Proof/Machine/Dot.lean ====
section
/-! DEFINITION. The dot-product steps that the sampler's networks and SMMA share (R285, R294). -/

namespace Sys2Proof.Machine

/-- z := rne(a × b + z, F32): the product is exact. -/
def dotStep (a b : Fv) (z : Nat × Flags) : Nat × Flags :=
  let p := mulFv a b
  let r := addFv RNE p.v (unpack f32 z.1)
  let x := deliver f32 RNE ⟨r.v, r.nv || p.nv⟩
  (x.1, z.2 ||| x.2)
/-- The steps for two lists of factors in order. -/
def dotSteps : List Fv → List Fv → Nat × Flags → Nat × Flags
  | a :: as, b :: bs, z => dotSteps as bs (dotStep a b z)
  | _, _, z => z

/-- The K elements of row i of an SMMA area (R293): E4M3 bytes, or MXF4 nibbles under a scale (R58, R68). -/
def smmaRow (fmt scale : Nat) (area : List Byte) (i : Nat) : List Fv :=
  if fmt = 0 then ((area.drop (32 * i)).take 32).map fun b => unpack e4m3 b.toNat
  else ((area.drop (32 * i)).take 32).flatMap fun b => [mxf4Elem (b.toNat % 16) scale, mxf4Elem (b.toNat / 16) scale]

/-- Whether a format word is valid (R292). -/
def smmaFmtOk (f : Nat) : Bool :=
  f % 4 ≤ 1 && bits f 3 5 == 0 && bits f 24 8 == 0 && (f % 4 == 1 || bits f 8 16 == 0)

/-- D of R294 by row and column, with the flags of every step: `d` holds the accumulators row by row. -/
def smmaOf (f : Nat) (areaA areaB : List Byte) (d : List Nat) : List (Nat × Flags) :=
  let rows := (List.range 16).map (smmaRow (f % 4) (bits f 8 8) areaA)
  let cols := (List.range 16).map (smmaRow (f % 4) (bits f 16 8) areaB)
  (List.range 256).map fun k =>
    dotSteps (rows.getD (k / 16) []) (cols.getD (k % 16) []) (if bit f 2 then 0 else d.getD k 0, fNone)

end Sys2Proof.Machine
end

