-- ==== Sys2Proof/Machine/Transc.lean ====
section
/-! DEFINITION. FEXP2, FLOG2, FSIN and FCOS (R221, R222): the exact function rounded once by RNE. Each irrational result is
computed in fixed point with an error far below the distance of any F32 rounding boundary, then rounded as an inexact value. -/

namespace Sys2Proof.Machine

/-- Fraction bits of the fixed-point work. -/
def fxP : Nat := 320
/-- 1 in fixed point. -/
def fxOne : Nat := 2 ^ fxP
/-- π in fixed point. -/
def fxPi : Nat := 6710401180212168915155840974220003240804194089427148950727106424351713218671805380099500388914039

/-- The series of atanh(z) = z + z³/3 + z⁵/5 + …: `t` is z^k, `z2` is z², k the odd exponent. -/
def atanhSum (z2 : Nat) : Nat → Nat → Nat → Nat
  | 0, _, _ => 0
  | fuel + 1, k, t => t / k + atanhSum z2 fuel (k + 2) (t * z2 / fxOne)
/-- 2 × atanh(n ÷ d) in fixed point, for n ÷ d at most 1 ÷ 3. -/
def atanh2 (n d : Nat) : Nat :=
  let z := n * fxOne / d
  2 * atanhSum (z * z / fxOne) 110 1 z
/-- ln 2 in fixed point. -/
def fxLn2 : Nat := atanh2 1 3

/-- The series of exp(y): `t` is the k-th term. -/
def expSum (y : Nat) : Nat → Nat → Nat → Nat
  | 0, _, t => t
  | fuel + 1, k, t => t + expSum y fuel (k + 1) (t * y / fxOne / k)
/-- The alternating series of sin(θ): `t` is the term of odd exponent k. -/
def sinSum (th2 : Nat) : Nat → Nat → Int → Int
  | 0, _, t => t
  | fuel + 1, k, t => t + sinSum th2 fuel (k + 2) (-(t * (th2 : Int) / ((fxOne * ((k + 1) * (k + 2)) : Nat) : Int)))

/-- 2^a (R221, R222). -/
def fpExp2 (a : Nat) : Nat × Flags :=
  match unpack f32 a with
  | .nan s => (f32.nan, if s then fNV else fNone)
  | .inf neg => (if neg then 0 else infEnc f32 false, fNone)
  | .fin neg m e =>
    if m = 0 then (0x3F800000, fNone)
    else if 8 ≤ (Nat.log2 m : Int) + e then
      -- far beyond the range: 2^a overflows, or is a tiny positive value
      roundFp f32 RNE false 1 (if neg then -1000 else 1000) false
    else
      let x := roundAt RZ false m e (-(fxP : Int)) false |>.1       -- |a| in fixed point, exact
      let ip := x / fxOne
      let fp := x % fxOne
      if fp = 0 then roundFp f32 RNE false 1 (if neg then -(ip : Int) else ip) false
      else
        let n : Int := if neg then -(ip : Int) - 1 else ip
        let f := if neg then fxOne - fp else fp
        let y := f * fxLn2 / fxOne
        roundFp f32 RNE false (expSum y 100 1 fxOne) (n - fxP) true

/-- log2 a (R221, R222). -/
def fpLog2 (a : Nat) : Nat × Flags :=
  match unpack f32 a with
  | .nan s => (f32.nan, if s then fNV else fNone)
  | .inf neg => if neg then (f32.nan, fNV) else (infEnc f32 false, fNone)
  | .fin neg m e =>
    if m = 0 then (infEnc f32 true, fDZ)
    else if neg then (f32.nan, fNV)
    else
      let k := Nat.log2 m
      let n : Int := k + e
      if m = 2 ^ k then packFv f32 RNE (intFv n)
      else
        -- a = r × 2^n with 1 < r < 2; for r above √2 use r ÷ 2 and n + 1, so that |ln r| is at most ln √2
        let big := 2 * 4 ^ k < m * m
        let one := if big then 2 ^ (k + 1) else 2 ^ k
        let n' : Int := if big then n + 1 else n
        let lnAbs := atanh2 (if big then one - m else m - one) (m + one)
        let frac : Int := ((lnAbs * fxOne / fxLn2 : Nat) : Int)
        let v : Int := n' * fxOne + (if big then -frac else frac)
        roundFp f32 RNE (decide (v < 0)) v.natAbs (-(fxP : Int)) true

/-- sin(π × n ÷ d) for 0 < n ÷ d < 1 ÷ 2, with a sign. -/
def sinPiOf (neg : Bool) (n d : Nat) : Nat × Flags :=
  let th := fxPi * n / d
  roundFp f32 RNE neg (sinSum (th * th / fxOne) 60 1 (th : Int)).toNat (-(fxP : Int)) true

/-- 1.0 with a sign. -/
def oneEnc (neg : Bool) : Nat := 0x3F800000 + zeroEnc f32 neg

/-- sin(π × a) (R221, R222). -/
def fpSinPi (a : Nat) : Nat × Flags :=
  match unpack f32 a with
  | .nan s => (f32.nan, if s then fNV else fNone)
  | .inf _ => (f32.nan, fNV)
  | .fin neg m e =>
    if m = 0 ∨ 0 ≤ e then (zeroEnc f32 neg, fNone)
    else
      let one := 2 ^ (-e).toNat
      let t := m % (2 * one)
      let s := if one ≤ t then !neg else neg
      let r := t % one
      if r = 0 then (zeroEnc f32 neg, fNone)
      else
        let r' := if one < 2 * r then one - r else r
        if 2 * r' = one then (oneEnc s, fNone) else sinPiOf s r' one

/-- cos(π × a) (R221, R222). -/
def fpCosPi (a : Nat) : Nat × Flags :=
  match unpack f32 a with
  | .nan s => (f32.nan, if s then fNV else fNone)
  | .inf _ => (f32.nan, fNV)
  | .fin _ m e =>
    if m = 0 then (oneEnc false, fNone)
    else if 0 ≤ e then (oneEnc (e == 0 && m % 2 == 1), fNone)
    else
      let one := 2 ^ (-e).toNat
      let t := m % (2 * one)
      let u := if one < t then 2 * one - t else t
      let s := decide (one < 2 * u)
      let r := if one < 2 * u then one - u else u
      if r = 0 then (oneEnc s, fNone)
      else if 2 * r = one then (0, fNone)
      else sinPiOf s (one - 2 * r) (2 * one)

end Sys2Proof.Machine
end

