-- ==== Sys2Proof/Machine/Sampler.lean ====
section
/-! DEFINITION. The sampler (R275 to R291): headers, corners, filtering, the latent networks, generations and fills; the grant of
the dot-product array to SMMA (R295). -/

namespace Sys2Proof.Machine

/-! ### Headers (R275 to R279) -/

/-- The address of a header slot (R275). -/
def headerVa (codeBase slot : Nat) : Nat := (codeBase + 2 ^ 64 - 0x2000 + 64 * slot) % 2 ^ 64

/-- A header field of n bytes. -/
def hf (h : List Byte) (o n : Nat) : Nat := leNat ((h.drop o).take n)
def hKind (h : List Byte) : Nat := bits (hf h 0 4) 0 2
def hLevels (h : List Byte) : Nat := if hKind h = 0 then bits (hf h 0 4) 12 4 else bits (hf h 0 4) 18 4
def hFormat (h : List Byte) : Nat := bits (hf h 0 4) 8 4
def hLayers (h : List Byte) : Nat := bits (hf h 0 4) 12 3
def hOuts (h : List Byte) : Nat := bits (hf h 0 4) 15 2 + 1
/-- F of a LATENT header. -/
def hFeat (h : List Byte) : Nat := 2 ^ (bits (hf h 0 4) 8 2 + 1)
/-- Output width of layer i, from 1 (R278). -/
def hWidth (h : List Byte) (i : Nat) : Nat := bits (hf h 0x20 4) (6 * (i - 1)) 6
/-- Activation of layer i. -/
def hAct (h : List Byte) (i : Nat) : Nat := bits (hf h 0x20 4) (24 + 2 * (i - 1)) 2
/-- The header seed. -/
def hSeed (h : List Byte) : Nat := if hKind h = 0 then hf h 0x10 8 else hf h 0x18 8

/-- An address field is a multiple of 256 below 2^52. -/
def addrOk (x : Nat) : Bool := x % 256 == 0 && x < 2 ^ 52

/-- Whether a header is valid (R276 to R278). -/
def headerValid (h : List Byte) : Bool :=
  let w := hf h 0 4
  if hKind h = 0 then
    bits w 16 16 == 0 && hFormat h ≤ 5 && hLevels h != 0 && addrOk (hf h 8 8) && (h.drop 0x18).all (· == 0)
  else if hKind h = 1 then
    let n := hLayers h
    bits w 3 1 == 0 && bits w 22 10 == 0 && 1 ≤ n && n ≤ 4 && hLevels h != 0 &&
      addrOk (hf h 8 8) && addrOk (hf h 0x10 8) && (h.drop 0x24).all (· == 0) &&
      ((List.range 4).all fun k => if k < n then 1 ≤ hWidth h (k + 1) && hWidth h (k + 1) ≤ 32 && hAct h (k + 1) ≤ 2
                                   else hWidth h (k + 1) == 0 && hAct h (k + 1) == 0) &&
      hWidth h n == hOuts h
  else false

/-- Level widths and heights (R279). -/
def lvlW (h : List Byte) (l : Nat) : Nat := max 1 ((hf h 4 2 + 1) / 2 ^ l)
def lvlH (h : List Byte) (l : Nat) : Nat := max 1 ((hf h 6 2 + 1) / 2 ^ l)
/-- Bytes of a texel (R280). -/
def texelBytes (f : Nat) : Nat := [1, 4, 2, 8, 4, 16].getD f 1
/-- Bytes from one level's base to the next (R279). -/
def lvlBytes (h : List Byte) (l : Nat) : Nat :=
  if hKind h = 0 then roundUp (lvlW h l * texelBytes (hFormat h)) 256 * lvlH h l
  else
    let n := lvlW h l * lvlH h l * hFeat h
    if bit (hf h 0 4) 10 then roundUp (n / 2) 256 + roundUp (ceilDiv n 32) 256 else roundUp n 256
/-- The base of a level. -/
def lvlBase (h : List Byte) : Nat → Nat
  | 0 => hf h 8 8
  | l + 1 => lvlBase h l + lvlBytes h l

/-! ### Weight sets (R281) -/

/-- The input width of layer i. -/
def hInputs (h : List Byte) (i : Nat) : Nat := if i = 1 then hFeat h else hWidth h (i - 1)
/-- The offset of layer i + 1. -/
def layerOff (h : List Byte) : Nat → Nat
  | 0 => 0
  | i + 1 =>
    let n := hWidth h (i + 1)
    let k := hInputs h (i + 1)
    layerOff h i + (if bit (hf h 0 4) 11 then roundUp (17 * n) 16 else roundUp (n * k) 16) + roundUp (4 * n) 16
/-- The virtual lines of the weight set. -/
def weightLines (h : List Byte) : List Nat :=
  if hKind h = 1 && headerValid h then
    (List.range (ceilDiv (layerOff h (hLayers h)) 256)).map fun i => hf h 0x10 8 / 256 + i
  else []

/-! ### Lines held by a job (R289) -/

/-- A byte of the lines that a job holds: none when bad. -/
def lineByte (ls : List SLine) (va : Nat) : Option Byte :=
  match ls.find? (·.line == va / 256) with
  | none => none
  | some l => if l.bad.contains (va % 256) then none else some (l.bytes.getD (va % 256) 0)
/-- A list of options, or none. -/
def allSome {α : Type} : List (Option α) → Option (List α)
  | [] => some []
  | x :: r => match x with
    | none => none
    | some a => (allSome r).map fun l => a :: l
/-- Successive bytes of the lines. -/
def lineBytes (ls : List SLine) (va n : Nat) : Option (List Byte) := allSome ((List.range n).map fun i => lineByte ls (va + i))

/-! ### Coordinates (R282, R283) -/

/-- The floor of (−1)^neg × m × 2^e. -/
def floorFv (neg : Bool) (m : Nat) (e : Int) : Int :=
  let x : Int := if neg then -(m : Int) else m
  if 0 ≤ e then x * 2 ^ e.toNat else x / 2 ^ (-e).toNat
/-- floor(u × n × 2^k) of a finite coordinate. -/
def scaleCoord (u n k : Nat) : Option Int :=
  match unpack f32 u with
  | .fin neg m e => some (floorFv neg (m * n) (e + k))
  | _ => none

/-- A coordinate mapped by its addressing mode (R283): none outside a BORDER. -/
def mapCoord (mode n : Nat) (c : Int) : Option Nat :=
  if mode = 0 then some (c % n).toNat
  else if mode = 1 then some (min (max c 0) ((n : Int) - 1)).toNat
  else if mode = 2 then
    let m := c % (2 * n)
    some (if (n : Int) ≤ m then 2 * n - 1 - m else m).toNat
  else if 0 ≤ c ∧ c < n then some c.toNat else none

/-- A derivative product |x| × n in F32, a NaN counting as 0 (R282). -/
def rhoTerm (x n : Nat) : Nat :=
  let r := (deliver f32 RNE (mulFv (unpack f32 (x % 2 ^ 31)) (.fin false n 0))).1
  if (unpack f32 r).isNan then 0 else r
/-- The level that a sample uses (R282). -/
def sampleLevel (h : List Byte) (derivs : List Word) (bias : Nat) : Nat :=
  let d := fun i => (derivs.getD i 0).toNat
  let w := lvlW h 0
  let ht := lvlH h 0
  let rho := [rhoTerm (d 1) ht, rhoTerm (d 2) w, rhoTerm (d 3) ht].foldl (fun a b => (fpMinMax f32 true a b).1) (rhoTerm (d 0) w)
  let b := if (unpack f32 bias).isNan then 0 else bias
  let s := unpack f32 (fpMul f32 RNE rho (fpExp2 b).1).1
  ((List.range (hLevels h)).filter fun (l : Nat) => !s.isNan && !ltFv s (.fin false (2 ^ l) 0)).foldl max 0

/-- The corners of a filtered sample (R283): for each its mapped place and its weight in 65,536ths. -/
def corners (h : List Byte) (l u v : Nat) : Option (List (Option (Nat × Nat) × Nat)) :=
  let w := lvlW h l
  let ht := lvlH h l
  let au := bits (hf h 0 4) 4 2
  let av := bits (hf h 0 4) 6 2
  let place := fun (x y : Int) => match mapCoord au w x, mapCoord av ht y with
    | some a, some b => some (a, b)
    | _, _ => none
  if hKind h = 0 ∧ !bit (hf h 0 4) 3 then
    match scaleCoord u w 0, scaleCoord v ht 0 with
    | some x, some y => some [(place x y, 65536)]
    | _, _ => none
  else
    match scaleCoord u w 8, scaleCoord v ht 8 with
    | some x, some y =>
      let x := x - 128
      let y := y - 128
      let fx := (x % 256).toNat
      let fy := (y % 256).toNat
      let x0 := x / 256
      let y0 := y / 256
      some [(place x0 y0, (256 - fx) * (256 - fy)), (place (x0 + 1) y0, fx * (256 - fy)),
            (place x0 (y0 + 1), (256 - fx) * fy), (place (x0 + 1) (y0 + 1), fx * fy)]
    | _, _ => none

/-- The corner that a stochastic draw picks (R286). -/
def pickCorner (r : Nat) : List (Option (Nat × Nat) × Nat) → Option (Nat × Nat)
  | [] => none
  | (p, w) :: rest => if r < w then p else pickCorner (r - w) rest

/-! ### Texels and latents -/

/-- rne(n ÷ 255) in F32. -/
def unorm8 (n : Nat) : Nat := if n = 0 then 0 else (roundFp f32 RNE false (n * 2 ^ 40 / 255) (-40) (n * 2 ^ 40 % 255 != 0)).1
/-- The F32 channels of a texel from its bytes (R280). -/
def texelOf (fmt : Nat) (bs : List Byte) : List Nat :=
  let c := fun o n => leNat ((bs.drop o).take n)
  let wide := fun x => (packFv f32 RNE (unpack f16 x)).1
  let one := 0x3F800000
  if fmt = 0 then [unorm8 (c 0 1), 0, 0, one]
  else if fmt = 1 then (List.range 4).map fun i => unorm8 (c i 1)
  else if fmt = 2 then [wide (c 0 2), 0, 0, one]
  else if fmt = 3 then (List.range 4).map fun i => wide (c (2 * i) 2)
  else if fmt = 4 then [c 0 4, 0, 0, one]
  else (List.range 4).map fun i => c (4 * i) 4

/-- Bytes that an access of a thread has met are held for the samples of a mast that stand before it in program order and have not
read them: the one reads nothing later than the other (R287, R315). -/
def State.holdBytes (s : State) (m : Nat) (p : SampleJob → Bool) (bs : List ((Option Nat × Nat) × Byte × Bool)) : State :=
  let ma := s.mast m
  let hold := fun (j : SampleJob) =>
    if p j then { j with held := j.held ++ bs.filter fun x => !j.held.any fun y => y.1 == x.1 } else j
  if ma.sjobs.any p then s.setMast { ma with sjobs := ma.sjobs.map hold } else s
/-- The bytes of an access by where they lie. -/
def heldAt (locs : List Loc) (bs : List (Byte × Bool)) : List ((Option Nat × Nat) × Byte × Bool) :=
  (locs.zip bs).map fun x => ((x.1.port, x.1.pa), x.2)

/-- A byte of virtual space for a sample: as a later access of the thread has met it, else through L1 in the thread's view; none on a
failed translation or poison (R287). -/
def State.sampByte (s : State) (m : Nat) (c : Ctx) (j : SampleJob) (va : Nat) : State × Option Byte :=
  match s.xlate c va .rd (some m) with
  | .error _ => (s, none)
  | .ok l =>
    match j.held.find? (·.1 == (l.port, l.pa)) with
    | some x => (s, if x.2.2 then none else some x.2.1)
    | none =>
      let r := (s.tlbKeepLeaf c va .rd m).l1Byte m c j.hyp l
      (r.1.holdBytes m (fun x => x.team == j.team && x.tid == j.tid && decide (x.id < j.id)) (heldAt [l] [r.2]),
        if r.2.2 then none else some r.2.1)
/-- Successive bytes for a sample. -/
def State.sampBytes (s : State) (m : Nat) (c : Ctx) (j : SampleJob) (va : Nat) : Nat → State × Option (List Byte)
  | 0 => (s, some [])
  | n + 1 =>
    let a := s.sampByte m c j va
    let b := a.1.sampBytes m c j (va + 1) n
    (b.1, match a.2, b.2 with
      | some x, some r => some (x :: r)
      | _, _ => none)

/-- The four channels at a place of a CLASSIC level; a BORDER place reads +0 in every channel. -/
def State.texel (s : State) (m : Nat) (c : Ctx) (j : SampleJob) (h : List Byte) (l : Nat) (p : Option (Nat × Nat)) :
    State × Option (List Nat) :=
  match p with
  | none => (s, some [0, 0, 0, 0])
  | some (x, y) =>
    let b := texelBytes (hFormat h)
    let r := s.sampBytes m c j (lvlBase h l + y * roundUp (lvlW h l * b) 256 + x * b) b
    (r.1, r.2.map (texelOf (hFormat h)))

/-- The F features at a place of a LATENT level (R279), as exact values. -/
def State.latent (s : State) (m : Nat) (c : Ctx) (j : SampleJob) (h : List Byte) (l : Nat) (p : Option (Nat × Nat)) :
    State × Option (List Fv) :=
  let f := hFeat h
  match p with
  | none => (s, some (List.replicate f (.fin false 0 0)))
  | some (x, y) =>
    let e := (y * lvlW h l + x) * f
    if bit (hf h 0 4) 10 then
      let a := s.sampBytes m c j (lvlBase h l + e / 2) (f / 2)
      let n := lvlW h l * lvlH h l * f
      let b := a.1.sampBytes m c j (lvlBase h l + roundUp (n / 2) 256 + e / 32) ((e + f - 1) / 32 - e / 32 + 1)
      (b.1, match a.2, b.2 with
        | some es, some sc => some ((List.range f).map fun i =>
            mxf4Elem (bits (leNat es) (4 * i) 4) (sc.getD ((e + i) / 32 - e / 32) 0).toNat)
        | _, _ => none)
    else
      let a := s.sampBytes m c j (lvlBase h l + e) f
      (a.1, a.2.map fun bs => bs.map fun b => unpack e4m3 b.toNat)

/-- Read a list of places. -/
def readPlaces {α : Type} (rd : State → Option (Nat × Nat) → State × Option α) :
    State → List (Option (Nat × Nat)) → State × Option (List α)
  | s, [] => (s, some [])
  | s, p :: r =>
    let a := rd s p
    let b := readPlaces rd a.1 r
    (b.1, match a.2, b.2 with
      | some x, some l => some (x :: l)
      | _, _ => none)

/-! ### Filtering and networks (R284, R285) -/

/-- A blend weight as an exact value. -/
def weightFv (w : Nat) : Fv := .fin false w (-16)
/-- z := rne(w[c] × T[c] + z) over the corners. -/
def blend (ws : List Nat) (ts : List Fv) : Nat := (dotSteps (ws.map weightFv) ts (0, fNone)).1
/-- e4m3(z) (R285). -/
def toE4m3 (z : Nat) : Fv := unpack e4m3 (packFv e4m3 RNE (unpack f32 z)).1

/-- The activations (R285). -/
def activate (act z : Nat) : Nat :=
  let x := unpack f32 z
  if x.isNan then f32.nan
  else if act = 0 then z
  else if !ltFv (.fin false 0 0) x then 0
  else if act = 2 ∧ ltFv (.fin false 1 0) x then 0x3F800000
  else z

/-- Row n of layer i (R281): its K weights, none when a byte is bad, one of the ignored elements of an MXF4 row included (DESIGN CHOICE,
log entry 101). -/
def weightRow (h : List Byte) (ls : List SLine) (i n : Nat) : Option (List Fv) :=
  let o := hf h 0x10 8 + layerOff h (i - 1)
  let k := hInputs h i
  if bit (hf h 0 4) 11 then
    match lineBytes ls (o + 16 * n) 16, lineBytes ls (o + 16 * hWidth h i + n) 1 with
    | some es, some sc => some ((List.range k).map fun j => mxf4Elem (bits (leNat es) (4 * j) 4) (sc.headD 0).toNat)
    | _, _ => none
  else (lineBytes ls (o + n * k) k).map fun bs => bs.map fun b => unpack e4m3 b.toNat
/-- The bias of output n of layer i. -/
def biasOf (h : List Byte) (ls : List SLine) (i n : Nat) : Option Nat :=
  let o := hf h 0x10 8 + layerOff h (i - 1)
  let w := if bit (hf h 0 4) 11 then roundUp (17 * hWidth h i) 16 else roundUp (hWidth h i * hInputs h i) 16
  (lineBytes ls (o + w + 4 * n) 4).map leNat

/-- Layer i on its inputs: the activated outputs. -/
def layerOut (h : List Byte) (ls : List SLine) (i : Nat) (x : List Fv) : Option (List Nat) :=
  allSome ((List.range (hWidth h i)).map fun n =>
    match weightRow h ls i n, biasOf h ls i n with
    | some ws, some b => some (activate (hAct h i) (fpAdd f32 RNE (dotSteps ws x (0, fNone)).1 b).1)
    | _, _ => none)
/-- Layers from i on. -/
def runLayers (h : List Byte) (ls : List SLine) : Nat → Nat → List Fv → Option (List Nat)
  | 0, _, _ => none
  | fuel + 1, i, x =>
    match layerOut h ls i x with
    | none => none
    | some y => if hLayers h ≤ i then some y else runLayers h ls fuel (i + 1) (y.map toE4m3)
/-- The four destination words of a network (R285). -/
def networkOut (h : List Byte) (ls : List SLine) (x : List Fv) : Option (List Nat) :=
  (runLayers h ls 4 1 x).map fun y => (List.range 4).map fun k =>
    match y[k]? with
    | none => 0
    | some z => if bit (hf h 0 4) 17 then (packFv f16 RNE (unpack f32 z)).1 else z

/-- A LATENT result from the features of its corners and their weights, by interpolation. -/
def latentBlend (h : List Byte) (ls : List SLine) (ws : List Nat) (fs : List (List Fv)) : Option (List Nat) :=
  networkOut h ls ((List.range (hFeat h)).map fun f => toE4m3 (blend ws (fs.map fun l => l.getD f (.nan false))))
/-- A LATENT result from the features of the one corner that a stochastic draw picks (R286). -/
def latentPick (h : List Byte) (ls : List SLine) (fs : List Fv) : Option (List Nat) :=
  networkOut h ls (fs.map fun v => unpack e4m3 (packFv e4m3 RNE v).1)

/-! ### One sample -/

/-- What a sample takes from its team beside its operands: the frame seed and the place (px, py) of R286. -/
structure SampEnv where
  seed : Nat
  px   : Nat
  py   : Nat

/-- The draw r of R286. -/
def stochDraw (e : SampEnv) (h : List Byte) (idx : Nat) : Nat :=
  let key := BitVec.ofNat 64 (hSeed h ^^^ e.seed)
  let ctr := BitVec.ofNat 64 (idx + 2 ^ 32 * (e.px % 65536) + 2 ^ 48 * (e.py % 65536))
  (fjopomo key ctr).toNat % 65536

/-- The lines of the header cache that a job holds, and those of the weight cache. -/
def SampleJob.headers (j : SampleJob) : List SLine := j.lines.filter (·.header)
def SampleJob.weights (j : SampleJob) : List SLine := j.lines.filter (!·.header)

/-- The four words of a sample with a valid header, none when a read failed (R282 to R287). -/
def State.sampleWords (s : State) (m : Nat) (c : Ctx) (e : SampEnv) (h : List Byte) (j : SampleJob) :
    State × Option (List Nat) :=
  let o := fun i => (j.ops.getD i 0).toNat
  if j.kind = 2 then
    let l := o 2
    if hLevels h ≤ l then (s, some [0, 0, 0, 0])
    else if lvlW h l ≤ o 0 ∨ lvlH h l ≤ o 1 then (s, some [0, 0, 0, 0])
    else if hKind h = 0 then s.texel m c j h l (some (o 0, o 1))
    else
      let r := s.latent m c j h l (some (o 0, o 1))
      (r.1, r.2.bind fun fs => latentBlend h j.weights [65536] [fs])
  else
    let l := sampleLevel h j.derivs (o 2)
    match corners h l (o 0) (o 1) with
    | none => (s, some (List.replicate 4 0x7FC00000))
    | some cs =>
      let stoch := bit (hf h 0 4) 2 && 1 < cs.length
      let pick := pickCorner (stochDraw e h (o 3)) cs
      if hKind h = 0 then
        if stoch then s.texel m c j h l pick
        else
          let r := readPlaces (fun a p => a.texel m c j h l p) s (cs.map (·.1))
          (r.1, r.2.map fun ts =>
            if cs.length = 1 then ts.headD []
            else (List.range 4).map fun k => blend (cs.map (·.2)) (ts.map fun t => unpack f32 (t.getD k 0)))
      else if stoch then
        let r := s.latent m c j h l pick
        (r.1, r.2.bind (latentPick h j.weights))
      else
        let r := readPlaces (fun a p => a.latent m c j h l p) s (cs.map (·.1))
        (r.1, r.2.bind (latentBlend h j.weights (cs.map (·.2))))

/-! ### Jobs, fills, generations (R288, R289) -/

/-- The copy of a slot's generation on a mast (R288). -/
def State.slotGen (s : State) (m ctx slot : Nat) : BitVec 16 :=
  match (s.mast m).gens.find? fun g => g.1 == (ctx, slot) with
  | some g => g.2
  | none => alGetD (s.ctxD ctx).headerGen slot 0

/-- What a fill brings: the cache, context, slot, generation and line number of a line. -/
def SLine.key (x : SLine) : SFill := ⟨x.ctx, x.slot, x.gen, x.line, x.header⟩
/-- A line of the slot and generation in one of the mast's caches. -/
def State.slineFor (s : State) (m : Nat) (f : SFill) : Option SLine := (s.mast m).slines.find? fun x => x.key == f

/-- Lines of a mast's weight cache, 64 KiB (R289), and of its header cache, whose size the spec does not give: one for each slot below a
CODE_BASE (log entry 85). -/
def weightLimit : Nat := 256
def headerLimit : Nat := 128
/-- Lines that the pins of a mast may hold (R291). -/
def pinLimit : Nat := 128
/-- Whether a mast has pinned a slot. -/
def Mast.pins? (ma : Mast) (ctx slot : Nat) : Bool := ma.pins.any fun p => p.ctx == ctx && p.slot == slot
/-- The lines that pins hold: those of pinned slots, no more than the limit. -/
def Mast.pinned (ma : Mast) : List SLine := (ma.slines.filter fun x => ma.pins? x.ctx x.slot).take pinLimit
/-- Drop the last element of a list that passes a test. -/
def dropLast? {α : Type} (p : α → Bool) (l : List α) : List α :=
  match l.reverse.findIdx? p with
  | some i => l.eraseIdx (l.length - 1 - i)
  | none => l
/-- A line is used or installed: it is the most recently used; a line too many takes the place of the least recently used one of its
cache that is not pinned. -/
def Mast.useLine (ma : Mast) (x : SLine) : Mast :=
  let m1 := { ma with slines := x :: ma.slines.filter fun y => y.key != x.key }
  if (if x.header then headerLimit else weightLimit) < (m1.slines.filter (·.header == x.header)).length
  then { m1 with slines := dropLast? (fun y => y.header == x.header && !m1.pinned.contains y) m1.slines } else m1

/-- Start a fill, or join one in flight (R289). -/
def State.startFill (s : State) (m : Nat) (f : SFill) : State :=
  let ma := s.mast m
  if ma.sfills.contains f then s else s.setMast { ma with sfills := ma.sfills ++ [f] }

/-- The fill that brings a job a line. -/
def SampleJob.fill (j : SampleJob) (header : Bool) (line : Nat) : SFill := ⟨j.ctx, j.slot, j.gen, line, header⟩
/-- Take a line for a job: from its cache, else by a fill. -/
def State.jobLine (s : State) (m : Nat) (j : SampleJob) (f : SFill) : State × SampleJob :=
  if j.lines.any (·.key == f) then (s, j)
  else match s.slineFor m f with
    | some x => (s.setMast ((s.mast m).useLine x), { j with lines := j.lines ++ [x] })
    | none => (s.startFill m f, j)
/-- Take several lines for a job. -/
def State.jobLines (s : State) (m : Nat) (j : SampleJob) : List SFill → State × SampleJob
  | [] => (s, j)
  | f :: r =>
    let a := s.jobLine m j f
    a.1.jobLines m a.2 r

/-- The environment of a thread's sample. -/
def State.sampEnv (s : State) (t : Team) (tid : Nat) : SampEnv :=
  let l := s.launchD t.launch
  match (t.thread tid).pix with
  | some p => ⟨((l.draw.map fun (d : DrawData) => d.seed).getD 0).toNat, p.x, p.y⟩
  | none => ⟨if t.stage = .compute then l.seed.toNat else ((l.draw.map fun (d : DrawData) => d.seed).getD 0).toNat, tid, t.num % 65536⟩

/-- Four poison marks (R276, R287). -/
def fourMarks : List (Word × Bool) := List.replicate 4 (0, true)

/-- Whether a sample fetches nothing beyond its header: a coordinate is NaN or infinite (R283). The header is fetched and judged all the
same: an invalid or poisoned one gives its poison marks (R276; DESIGN CHOICE, log entry 95). -/
def SampleJob.noFetch (j : SampleJob) : Bool :=
  j.kind != 2 && (j.ops.take 2).any fun w => bits w.toNat 23 8 == 255
/-- Carry a job as far as its lines allow: it waits for its header, then for its weight lines, then delivers its four words to the
thread (R287, R289). `hva` is the address of its header. -/
def State.advanceJob (s : State) (m hva : Nat) (j : SampleJob) : State :=
  let put := fun (a : State) (x : SampleJob) =>
    let ma := a.mast m
    a.setMast { ma with sjobs := putBy (·.id == x.id) x ma.sjobs }
  let finish := fun (a : State) (ws : List (Word × Bool)) =>
    let ma := a.mast m
    let b := a.setMast { ma with sjobs := ma.sjobs.filter (·.id != j.id) }
    match b.team? j.team with
    | none => b
    | some t => b.setTeam (t.setThread j.tid ((t.thread j.tid).deliver (.job j.id) ws 0))
  let a := s.jobLine m j (j.fill true (hva / 256))
  if a.2.headers.isEmpty then put a.1 a.2
  else match lineBytes a.2.headers hva 64 with
    | none => finish a.1 fourMarks
    | some h =>
      if !headerValid h then finish a.1 fourMarks
      else
        let need := (if j.noFetch then [] else weightLines h).map (j.fill false)
        let b := a.1.jobLines m a.2 need
        if !need.all (fun f => b.2.lines.any (·.key == f)) then put b.1 b.2
        else match b.1.team? j.team with
          | none => finish b.1 fourMarks
          | some t =>
            let r := b.1.sampleWords m (b.1.ctxD j.ctx) (b.1.sampEnv t j.tid) h b.2
            finish r.1 (match r.2 with
              | some ws => ws.map fun w => (BitVec.ofNat 32 w, false)
              | none => fourMarks)

/-- The header address of a job. -/
def State.jobVa (s : State) (j : SampleJob) : Nat :=
  headerVa (((s.team? j.team).map fun t => (s.launchD t.launch).codeBase).getD 0) j.slot

/-- The fills that bring what a job still waits for (R289): its header line, then the weight lines that its header names. -/
def State.needs (s : State) (j : SampleJob) : List SFill :=
  let hva := s.jobVa j
  if !j.lines.any (·.key == j.fill true (hva / 256)) then [j.fill true (hva / 256)]
  else if j.noFetch then []
  else (((lineBytes j.headers hva 64).map weightLines).getD []).map (j.fill false)
/-- Whether a job waits on a fill. -/
def State.awaitsFill (s : State) (j : SampleJob) (f : SFill) : Bool := (s.needs j).contains f && !j.lines.any (·.key == f)

/-- Carry every job of a list. -/
def State.advanceJobs (s : State) (m : Nat) : List SampleJob → State
  | [] => s
  | j :: r => (s.advanceJob m (s.jobVa j) j).advanceJobs m r

/-- The 256 bytes of a fill of a mast at the moment it reads them, in the root view through L2 (R276), and whether their translation
held. -/
def State.fillLine (s : State) (m : Nat) (f : SFill) : State × SLine × Bool :=
  let c := s.ctxD f.ctx
  match s.xrange c (256 * f.line) 256 .rd (some m) with
  | .error _ => (s, ⟨f.ctx, f.slot, f.gen, f.line, f.header, List.replicate 256 0, List.range 256⟩, false)
  | .ok segs =>
    let r := (s.tlbKeepLeaf c (256 * f.line) .rd m).homeSegs c 0 segs
    (r.1, ⟨f.ctx, f.slot, f.gen, f.line, f.header, r.2.map (·.1), (List.range 256).filter fun i => (r.2.getD i (0, false)).2⟩, true)

/-- A pinned slot's weight set follows its header (R291). -/
def State.pinFills (s : State) (m ctx slot : Nat) (gen : BitVec 16) (ls : List Nat) : State :=
  ls.foldl (fun (a : State) l => match a.slineFor m ⟨ctx, slot, gen, l, false⟩ with
    | some _ => a
    | none => a.startFill m ⟨ctx, slot, gen, l, false⟩) s

/-- The weight lines that the header of a line names. -/
def SLine.weights (x : SLine) (hva : Nat) : List Nat := ((lineBytes [x] hva 64).map weightLines).getD []
/-- Every pin of a slot on a mast is of so many lines. -/
def Mast.resizePin (ma : Mast) (ctx slot n : Nat) : Mast :=
  { ma with pins := ma.pins.map fun p => if p.ctx = ctx ∧ p.slot = slot then { p with lines := n } else p }

/-- WPIN performed at commit (R291): the pin is recorded unless pinned lines would exceed 128, and fills start. A slot takes the line of
its header and those of the weight set that the header names: the cached one, else the one that stands in memory (log entry 85). -/
def State.pinSlot (s : State) (m ctx slot hva : Nat) : State :=
  let ma := s.mast m
  let f : SFill := ⟨ctx, slot, s.slotGen m ctx slot, hva / 256, true⟩
  let x := (s.slineFor m f).getD (s.fillLine m f).2.1
  let n := 1 + (x.weights hva).length
  let s1 := if ma.pins? ctx slot || decide (pinLimit < (ma.pins.map (·.lines)).sum + n) then s
    else s.setMast { ma with pins := ma.pins ++ [⟨ctx, slot, n⟩] }
  match s1.slineFor m f with
  | none => s1.startFill m f
  | some y => s1.pinFills m ctx slot f.gen (y.weights hva)

/-- HINV performed at commit (R288): the context's generation rises, the mast's own lines of the slot go, every other mast keeps
its copy until the HINV completes. -/
def State.hinvSlot (s : State) (m ctx slot : Nat) : State :=
  let c := s.ctxD ctx
  let old := alGetD c.headerGen slot 0
  let s1 := s.setCtx { c with headerGen := alPut slot (old + 1) c.headerGen }
  { s1 with masts := s1.masts.map fun ma =>
      if ma.num = m then
        { ma with gens := ma.gens.filter (·.1 != (ctx, slot)), slines := ma.slines.filter fun x => !(x.ctx == ctx && x.slot == slot) }
      else if ma.gens.any (·.1 == (ctx, slot)) then ma
      else { ma with gens := ma.gens ++ [((ctx, slot), old)] } }

/-- Every mast's copy of a slot is the context's, and older lines are gone: all masts change together (R288; DESIGN CHOICE, log entry
101). -/
def State.hinvAll (s : State) (ctx slot : Nat) : State :=
  let g := alGetD (s.ctxD ctx).headerGen slot 0
  { s with masts := s.masts.map fun ma =>
      { ma with gens := ma.gens.filter (·.1 != (ctx, slot)),
                slines := ma.slines.filter fun x => !(x.ctx == ctx && x.slot == slot && x.gen != g) } }

/-! ### The steps -/

/-- The k-th fill of a mast lands (R289): it serves every sample that waits on it and is installed only if its translation held and
its generation is current there. -/
def State.landFill (s : State) (mast k : Nat) : State :=
  match (s.mast mast).sfills[k]? with
  | none => s
  | some f =>
    let r := s.fillLine mast f
    let line := r.2.1
    let ma := r.1.mast mast
    let installed := r.2.2 && f.gen == r.1.slotGen mast f.ctx f.slot
    let waits := fun (j : SampleJob) => s.awaitsFill j f
    let jobs := ma.sjobs.map fun j => if waits j then { j with lines := j.lines ++ [line] } else j
    let m1 := { ma with sfills := ma.sfills.eraseIdx k, sjobs := jobs }
    let s1 := r.1.setMast (if installed then m1.useLine line else m1)
    let s2 := s1.advanceJobs mast ((ma.sjobs.filter waits).map fun j => { j with lines := j.lines ++ [line] })
    let hva := fun (t : Team) => headerVa (s2.launchD t.launch).codeBase f.slot
    { (if installed && f.header && ma.pins? f.ctx f.slot then
        match s2.teams.find? fun t => t.mast == mast && (s2.launchD t.launch).ctx == f.ctx && hva t / 256 == f.line with
        | some t =>
          let ws := line.weights (hva t)
          (s2.setMast ((s2.mast mast).resizePin f.ctx f.slot (1 + ws.length))).pinFills mast f.ctx f.slot f.gen ws
        | none => s2
      else s2) with free := s2.free + 1 }

/-- Land, in turn, the fills that some samples of a mast wait for, so that those are carried to their end. -/
def State.drainJobs (s : State) (m : Nat) (p : SampleJob → Bool) : Nat → State
  | 0 => s
  | n + 1 =>
    let ma := s.mast m
    let mine := ma.sjobs.filter p
    match ma.sfills.findIdx? fun f => mine.any fun j => s.awaitsFill j f with
    | some k => (s.landFill m k).drainJobs m p n
    | none => s
/-- Perform samples that are under way: their reads are made now. -/
def State.performJobs (s : State) (m : Nat) (p : SampleJob → Bool) : State :=
  s.drainJobs m p (32 * (((s.mast m).sjobs.filter p).length + 1))

/-- SAMPLER_FILL_LAND. -/
def execSamplerFillLand (mast k : Nat) (s : State) : Host.Outcome State Fault Refusal := .next (s.landFill mast k)

/-- A thread's share of an SMMA has its results on their way. -/
def State.landSmma (s : State) (q : SmmaJob) : State :=
  match s.team? q.team with
  | none => s
  | some t => s.setTeam (t.setThread q.tid ((t.thread q.tid).deliver (.job q.id) q.ws 0))

/-- SMMA_ARRAY_GRANT (R295): the earliest SMMA of the mast takes the array, and the results of all its threads are on their way. -/
def execSmmaArrayGrant (mast : Nat) (s : State) : Host.Outcome State Fault Refusal :=
  let ma := s.mast mast
  match ma.smmaq with
  | [] => .next s
  | q :: _ =>
    let one := fun (x : SmmaJob) => x.pack == q.pack && x.word == q.word
    .next ((ma.smmaq.filter one).foldl State.landSmma (s.setMast { ma with smmaq := ma.smmaq.filter fun x => !one x }))

/-- The identity of a running operation. -/
def Running.id : Running → Nat
  | .resolve i _ _ _ _ => i
  | .hinv i _ _ _ => i
  | .flush i _ => i
  | .acqr i _ _ _ _ => i

/-- An operation ends: it is no longer running, and threads that await it go on (R140). -/
def State.endRunning (s : State) (id : Nat) : State :=
  { s with running := s.running.filter (·.id != id),
           teams := s.teams.map fun t => t.clearWaitsAll s.cycle (· == Wait.op id) }

/-- HINV_COMPLETE (R288): every mast has the generation and has dropped its lines. -/
def execHinvComplete (id : Nat) (s : State) : Host.Outcome State Fault Refusal :=
  match s.running.find? fun r => r.id == id with
  | some (.hinv _ ctx slot _) => .next ((s.hinvAll ctx slot).endRunning id)
  | _ => .next s

end Sys2Proof.Machine
end

