-- ==== Sys2Proof/Machine/Copies.lean ====
section
/-! DEFINITION. What asynchronous copies do when they complete (R261 to R267), DECK and PLANE with their form marks and poison. -/

namespace Sys2Proof.Machine

/-! ### DECK and PLANE -/

/-- Put a byte in a space of which absent bytes are 0. -/
def spacePut (l : List (Nat × Byte)) (o : Nat) (b : Byte) : List (Nat × Byte) := if b = 0 then alDel o l else alPut o b l
/-- Write a DECK byte. -/
def Team.deckPut (t : Team) (o : Nat) (b : Byte) (bad : Bool) : Team :=
  { t with deck := spacePut t.deck o b,
           deckPoison := if bad then nsInsert o t.deckPoison else t.deckPoison.filter (· != o) }
/-- Write a PLANE byte. -/
def Team.planePut (t : Team) (o : Nat) (b : Byte) (bad : Bool) : Team :=
  { t with plane := spacePut t.plane o b,
           planePoison := if bad then nsInsert o t.planePoison else t.planePoison.filter (· != o) }
/-- DECK bytes with poison. -/
def Team.deckGet (t : Team) (o n : Nat) : List (Byte × Bool) :=
  (List.range n).map fun i => (alGetD t.deck (o + i) 0, t.deckPoison.contains (o + i))
/-- PLANE bytes with poison. -/
def Team.planeGet (t : Team) (o n : Nat) : List (Byte × Bool) :=
  (List.range n).map fun i => (alGetD t.plane (o + i) 0, t.planePoison.contains (o + i))
/-- Write successive DECK bytes. -/
def Team.deckPuts (t : Team) (o : Nat) : List (Byte × Bool) → Team
  | [] => t
  | (b, p) :: r => (t.deckPut o b p).deckPuts (o + 1) r

/-- Set the form marks of the granules that n bytes at o touch (R263): 0 is RAW. -/
def putMarks (l : List (Nat × Nat)) (o n mark : Nat) : List (Nat × Nat) :=
  if n = 0 then l
  else (List.range ((o + n - 1) / 256 - o / 256 + 1)).foldl (fun a i =>
    let g := o / 256 + i
    if mark = 0 then alDel g a else alPut g mark a) l
/-- Marks of DECK granules. -/
def Team.markDeck (t : Team) (o n mark : Nat) : Team := { t with deckMarks := putMarks t.deckMarks o n mark }
/-- Marks of PLANE granules. -/
def Team.markPlane (t : Team) (o n mark : Nat) : Team := { t with planeMarks := putMarks t.planeMarks o n mark }

/-! ### Sources -/

/-- One source byte of a copy: its value, whether it bears poison, and whether it is of a failed chunk of a coded block (R241). -/
structure SrcByte where
  val    : Byte
  poison : Bool
  failed : Bool
  deriving DecidableEq, Repr, Inhabited

/-- Whether a byte lies in a failed chunk of a coded block whose stored sectors bear no poison. -/
def State.decodeFails (s : State) (l : Loc) : Bool :=
  l.port.isNone && l.comp && isHbm l.pa && decide (s.nsecAt l.pa < 8) &&
    !((s.storedBlock l.pa).take (32 * s.nsecAt l.pa)).any (·.2) && decide ((s.decodedBlock l.pa).2 ≤ l.pa % 256 / 32)

/-- The locations of successive bytes of translated pieces. -/
def segLocs : List (Loc × Nat) → List Loc
  | [] => []
  | (l, n) :: r => ((List.range n).map fun i => { l with pa := l.pa + i }) ++ segLocs r

/-- The source bytes of a copy, read as the thread's loads (R321). -/
def State.copySource (s : State) (m : Nat) (c : Ctx) (h : Nat) (segs : List (Loc × Nat)) : State × List SrcByte :=
  let (s1, bs) := s.l1Segs m c h segs
  (s1, ((segLocs segs).zip bs).map fun x =>
    let f := x.2.2 && s.decodeFails x.1
    ⟨x.2.1, x.2.2 && !f, f⟩)

/-- Whether the block of an address is CODED as a thread's view sees it: no version of its view stands over it. -/
def State.codedInView (s : State) (c : Ctx) (h : Nat) (l : Loc) : Bool :=
  l.port.isNone && l.comp && isHbm l.pa && decide (s.nsecAt l.pa < 8) &&
    !(c.versions.any fun v => v.block / 4 == l.pa / 256 && (chainHyp c.hyps h).contains (resolveHyp c.hyps v.tag) && !v.cells.isEmpty)

/-- Stored bytes of a coded block's sectors, those at or above NSEC as zero (R263, R264). -/
def State.keepBytes (s : State) (l : Loc) (n : Nat) : List (Byte × Bool) :=
  (List.range n).map fun i =>
    let pa := l.pa + i
    if pa % 256 / 32 < s.nsecAt pa then s.homeByte pa else (0, false)

/-! ### The copies -/

/-- A source byte as it reaches its destination byte, which keeps its value where the source failed (R267). -/
def SrcByte.out (b : SrcByte) : Option (Byte × Bool) := if b.failed then none else some (b.val, b.poison)
/-- The image of destination bytes given by source bytes: their errors and their record (R267). -/
def imageOf (bytes : List (Option (Byte × Bool))) (src : List SrcByte) : CopyImage :=
  ⟨bytes, some 0, src.any fun b => b.poison || b.failed, if src.any (·.failed) then some cDECODE else none⟩
/-- The image of a coded block's stored bytes (R263). -/
def imageKept (bs : List (Byte × Bool)) (mark : Option Nat) : CopyImage := ⟨bs.map some, mark, bs.any (·.2), none⟩

/-- The coded block that a copy with KEEP takes in its stored form. -/
def State.keptAt (s : State) (c : Ctx) (a : AsyncCopy) (keep : Bool) : Option Loc :=
  match a.segs with
  | (l, _) :: _ => if keep && s.codedInView c a.hyp l then some l else none
  | [] => none

/-- CP.ASYNC (R262, R263, R267): bytes at or above v are zero-filled. -/
def State.asyncImage (s : State) (t : Team) (c : Ctx) (a : AsyncCopy) (keep : Bool) : State × CopyImage :=
  match s.keptAt c a keep with
  | some l => (s, imageKept (s.keepBytes l 32) (if l.pa % 256 / 32 = 0 then some (s.nsecAt l.pa) else none))
  | none =>
    let r := s.copySource t.mast c a.hyp a.segs
    (r.1, imageOf ((List.range 32).map fun i => match r.2[i]? with
      | some b => b.out
      | none => some (0, false)) r.2)

/-- Bits of one element in a group's source, and the number of planes without the sign plane (R265). -/
def groupWidth (fmt : Nat) : Nat := [3, 5, 8, 4, 8].getD fmt 8
/-- Bits of a group's source bytes that carry bit b of element i. -/
def groupBit (fmt i b : Nat) : Nat := groupWidth fmt * i + b

/-- One byte of a plane: bit b of elements 8y to 8y + 7, keeping the old bits, with their poison, whose source failed (R265, R267). -/
def planeByte (fmt : Nat) (src : List SrcByte) (old : Byte × Bool) (b y : Nat) : Byte × Bool :=
  let cell := fun j =>
    let p := groupBit fmt (8 * y + j) b
    let x := src.getD (p / 8) default
    if x.failed then (old.1.getLsbD j, old.2) else (x.val.getLsbD (p % 8), x.poison)
  (BitVec.ofNat 8 ((List.range 8).foldl (fun a j => a + if (cell j).1 then 2 ^ j else 0) 0), (List.range 8).any fun j => (cell j).2)

/-- CP.PLANE of FMT 0 to 4 (R264, R265, R267): the planes, then the scale words. A scale word that is wrong decides alone, also where
other source bytes fail or bear poison (DEDUCED, log entry 76). -/
def State.groupImage (s : State) (t : Team) (c : Ctx) (a : AsyncCopy) (o fmt : Nat) : State × CopyImage :=
  let r := s.copySource t.mast c a.hyp a.segs
  let q := r.1.copySource t.mast c a.hyp a.scales
  let wordOk := fun j =>
    let x := q.2.getD (2 * j) default
    let y := q.2.getD (2 * j + 1) default
    x.failed || y.failed || y.poison || y.val.toNat / 16 == 0
  if fmt ≤ 2 ∧ !((List.range 8).all wordOk) then (q.1, ⟨[], none, true, some cFORMAT⟩)
  else
    (q.1, imageOf ((List.range (8 * groupWidth fmt)).map (fun k =>
      some (planeByte fmt r.2 (alGetD t.plane (o + k) 0, t.planePoison.contains (o + k)) (k / 8) (k % 8))) ++ q.2.map SrcByte.out) (r.2 ++ q.2))

/-- CP.PLANE of FMT 7 (R264). -/
def State.plane7Image (s : State) (t : Team) (c : Ctx) (a : AsyncCopy) (keep : Bool) : State × CopyImage :=
  match s.keptAt c a keep with
  | some l => (s, imageKept (s.keepBytes l 256) (some (s.nsecAt l.pa)))
  | none =>
    let r := s.copySource t.mast c a.hyp a.segs
    (r.1, imageOf (r.2.map SrcByte.out) r.2)

/-- What a copy to DECK or PLANE writes; its source is read once (R267). -/
def State.imageFor (s : State) (t : Team) (c : Ctx) (a : AsyncCopy) : State × CopyImage :=
  match a.image with
  | some x => (s, x)
  | none => match a.kind with
    | .async _ _ _ keep => s.asyncImage t c a keep
    | .plane _ o fmt _ keep => if fmt ≤ 4 then s.groupImage t c a o fmt else s.plane7Image t c a keep
    | .out .. => (s, ⟨[], none, false, none⟩)

/-- Put those bytes of an image whose place, counted from i, passes a test. -/
def AsyncCopy.putBytes (a : AsyncCopy) (p : Nat → Bool) : Nat → List (Option (Byte × Bool)) → Team → Team
  | _, [], t => t
  | i, x :: r, t => a.putBytes p (i + 1) r (match x, a.kind with
    | some b, .async _ o _ _ => if p i then t.deckPut (o + i) b.1 b.2 else t
    | some b, .plane _ o _ _ _ => if p i then t.planePut (o + i) b.1 b.2 else t
    | _, _ => t)
/-- The form mark that an image gives the granules of its destination (R263): it changes as the copy completes, and also when no byte is
written (DESIGN CHOICE, log entry 18). -/
def AsyncCopy.putMark (a : AsyncCopy) (x : CopyImage) (t : Team) : Team :=
  match x.mark, a.kind with
  | some k, .async _ o _ _ => t.markDeck o 32 k
  | some k, .plane _ o fmt _ _ => t.markPlane o (groupBytes fmt) k
  | _, _ => t

/-- Keep what a pending sample of the thread reads of bytes that a later store of the thread replaces (R287). -/
def State.shieldJobs (s : State) (m team tid : Nat) (c : Ctx) (h : Nat) (segs : List (Loc × Nat)) : State :=
  let p := fun (j : SampleJob) => j.team == team && j.tid == tid
  if (s.mast m).sjobs.any p then s.holdBytes m p (heldAt (segLocs segs) ((segLocs segs).map fun l => s.viewByte c h l)) else s

/-- Write the bytes of a list whose place, counted from i, passes a test, each at its location. -/
def State.writeWhere (s : State) (w : Writer) (p : Nat → Bool) (i : Nat) : List (Loc × Byte × Bool) → State
  | [] => s
  | (l, b, bad) :: r => (if p i then s.writeByte w l b bad else s).writeWhere w p (i + 1) r

/-- CP.OUT (R266, R267): those bytes of DECK whose place passes a test are written as stores of the thread, and whether one bears
poison. -/
def State.copyOut (s : State) (t : Team) (c : Ctx) (a : AsyncCopy) (o n : Nat) (p : Nat → Bool) : State × Bool :=
  let bs := t.deckGet o n
  let s1 := s.shieldJobs t.mast t.id a.tid c a.hyp a.segs
  (s1.writeWhere ⟨c.num, a.hyp, some t.mast⟩ p 0 ((segLocs a.segs).zip bs), (List.range n).any fun i => p i && (bs.getD i (0, false)).2)

/-- Destination bytes of a copy. -/
def AsyncCopy.bytes (a : AsyncCopy) : Nat := match a.kind with
  | .async .. => 32
  | .plane _ _ fmt _ _ => groupBytes fmt
  | .out _ _ n => n

/-- Put a copy in flight back. -/
def State.setAsync (s : State) (a : AsyncCopy) : State :=
  { s with asyncs := s.asyncs.map fun x => if x.id = a.id then a else x }

/-- A CP.OUT in flight writes the bytes at some of its places. -/
def State.writeOut (s : State) (t : Team) (a : AsyncCopy) (o n : Nat) (ks : List Nat) : State :=
  let r := s.copyOut t (s.ctxD (s.launchD t.launch).ctx) a o n ks.contains
  r.1.setAsync { a with wrote := a.wrote ++ ks, err := a.err || r.2 }

/-- The bytes of a CP.OUT in flight whose locations pass a test are written now, if they have not been. -/
def State.settleOut (p : Loc → Bool) (s : State) (a : AsyncCopy) : State :=
  match a.kind, s.team? a.team with
  | .out _ o n, some t =>
    let ls := segLocs a.segs
    let ks := (List.range n).filter fun i => !a.wrote.contains i && (ls[i]?).any p
    if ks.isEmpty then s else s.writeOut t a o n ks
  | _, _ => s
/-- A CP.OUT's writes stand before every later access of its thread in coherence order (R315, R321), so that the access finds those of
its own locations written. -/
def State.settleOuts (s : State) (team tid : Nat) (p : Loc → Bool) : State :=
  (s.asyncs.filter fun a => a.team == team && a.tid == tid && a.isOut).foldl (State.settleOut p) s

/-- A copy in flight writes some of its destination bytes before it completes (R270; log entry 18). One that will write a fault record
writes nothing before. -/
def State.driftCopy (moment : Nat) (s : State) (a : AsyncCopy) : State :=
  let ks := (List.range a.bytes).filter fun i => !a.wrote.contains i && Config.copyWrites moment a.id i
  match s.team? a.team with
  | none => s
  | some t =>
    if ks.isEmpty then s
    else
      match a.kind with
      | .out _ o n => s.writeOut t a o n ks
      | _ =>
        let r := s.imageFor t (s.ctxD (s.launchD t.launch).ctx) a
        if r.2.code.isSome then s
        else (r.1.setTeam (a.putBytes ks.contains 0 r.2.bytes t)).setAsync { a with wrote := a.wrote ++ ks, image := some r.2 }
/-- The copies in flight go on. -/
def State.driftCopies (s : State) : State :=
  if s.asyncs.isEmpty then s
  else s.asyncs.foldl (State.driftCopy s.free) { s with free := s.free + 1 }

/-- A copy completes (R261, R267): its effect on the bytes that it has not written yet, its record, its tag; it is no longer in
flight. -/
def State.completeCopy (s : State) (a : AsyncCopy) : State :=
  let gone := fun (x : State) => ({ x with asyncs := x.asyncs.filter (·.id != a.id) } : State)
  match s.team? a.team with
  | none => gone s
  | some t =>
    let c := s.ctxD (s.launchD t.launch).ctx
    let rest := fun (i : Nat) => !a.wrote.contains i
    match a.kind with
    | .out _ o n =>
      let r := s.copyOut t c a o n rest
      gone (r.1.setTeam (t.tagDone s.cycle a.tid a.tag (r.2 || a.err)))
    | _ =>
      let r := s.imageFor t c a
      let t1 := a.putMark r.2 (a.putBytes rest 0 r.2.bytes t)
      let t2 := match r.2.code with
        | some code => t1.setThread a.tid ((t1.thread a.tid).asyncRecord code a.tag a.block a.word)
        | none => t1
      gone (r.1.setTeam (t2.tagDone s.cycle a.tid a.tag r.2.err))

/-- Complete every copy in a list. -/
def State.completeCopies (s : State) : List AsyncCopy → State
  | [] => s
  | a :: r => (s.completeCopy a).completeCopies r

/-! ### Releases (R320) -/

/-- A release by a thread at a scope (R320): its samples have made their reads (R189, R287), its CP.OUT writes are performed (R266); at
device scope the team's entries are flushed (R327); at system scope dirty host lines are written back. Stores are at their home already
(log entry 14). -/
def State.release (s : State) (team tid scope : Nat) : State :=
  if scope = 0 then s
  else
    let s0 := match s.team? team with
      | some t => s.performJobs t.mast fun j => j.team == team && j.tid == tid
      | none => s
    let s1 := s0.completeCopies (s0.asyncs.filter fun a => a.team == team && a.tid == tid && a.isOut)
    if scope = 1 then s1
    else
      let s2 := match s1.team? team with
        | some t => if (s1.launchD t.launch).det then s1 else s1.flushTeam t
        | none => s1
      if scope = 3 then s2.systemRelease else s2

end Sys2Proof.Machine
end

