-- ==== Sys2Proof/Machine/Mx.lean ====
section
/-! DEFINITION. Accumulator tiles (R75 to R77), ACCRD and ACCWR in their tile's order (R274), and MX operations (R296 to
R313). -/

namespace Sys2Proof.Machine

/-! ### Tiles -/

/-- The zero state of a tile (R75). -/
def zeroTile : Tile := ⟨[], -32768, false, false, []⟩
/-- A tile of a team. -/
def Team.tile (t : Team) (n : Nat) : Tile := (alGet n t.tiles).getD zeroTile
/-- Put a tile. -/
def Team.setTile (t : Team) (n : Nat) (x : Tile) : Team := { t with tiles := alPut n x t.tiles }
/-- An element of a tile. -/
def Tile.elem (x : Tile) (i : Nat) : Int := alGetD x.elems i 0
/-- Put an element; its poison goes. -/
def Tile.put (x : Tile) (i : Nat) (a : Int) : Tile :=
  { x with elems := if a = 0 then alDel i x.elems else alPut i a x.elems, poison := x.poison.filter (· != i) }
/-- Put a sum that saturates (R306, R77). -/
def Tile.putSat (x : Tile) (i : Nat) (a : Int) : Tile :=
  if 2 ^ 63 - 1 < a then { x.put i (2 ^ 63 - 1) with ovf := true }
  else if a < -2 ^ 63 then { x.put i (-2 ^ 63) with ovf := true }
  else x.put i a

/-- An element read in a float format (R76). -/
def Tile.readFp (x : Tile) (f : Fmt) (i : Nat) : Nat × Flags :=
  if x.void then (f.nan, fNone)
  else packFv f RNE (.fin (decide (x.elem i < 0)) (x.elem i).natAbs (x.te - 40))

/-- Eight elements read as a bead block (R76): an outlier can only be infinite and takes its sign and the largest magnitude. -/
def Tile.readBead (x : Tile) (m i : Nat) : List Word × Flags :=
  let rs := (List.range 8).map fun j => x.readFp f32 (i + j)
  let b := beadPack m 0xFE (rs.map (·.1))
  let stream := b.outliers.foldl (fun a o =>
    a + (2 ^ m - 1 + (if bit o.2 31 then 2 ^ m else 0)) * 2 ^ ((m + 1) * o.1)) b.stream
  let fl := rs.foldl (fun a r => a ||| r.2) b.flags
  ([BitVec.ofNat 32 stream, BitVec.ofNat 32 (stream / 2 ^ 32), BitVec.ofNat 32 b.scale, 0],
    if b.outliers.isEmpty then fl else fl ||| fOF ||| fNX)

/-- What ACCRD delivers (R272, R76): the words with poison marks, and the flags. -/
def Tile.accRead (x : Tile) (fmt i : Nat) : List (Word × Bool) × Flags :=
  let bad := if accBead fmt then (List.range 8).any fun j => x.poison.contains (i + j) else x.poison.contains i
  let r : List Word × Flags :=
    if fmt = 0 then ([BitVec.ofNat 32 (x.readFp f32 i).1], (x.readFp f32 i).2)
    else if fmt = 1 then ([BitVec.ofNat 32 (x.readFp bf16 i).1], (x.readFp bf16 i).2)
    else if fmt = 5 then
      let d := BitVec.ofInt 64 (x.elem i)
      ([loW d, hiW d], fNone)
    else x.readBead (beadM (fmt - 1)) i
  (r.1.map fun w => (w, bad), r.2)

/-- A value written into an element (R77). -/
def Tile.store (x : Tile) (i : Nat) (v : Fv) : Tile :=
  match v with
  | .nan _ => { x.put i 0 with void := true }
  | .inf neg => { x.put i (if neg then -2 ^ 63 else 2 ^ 63 - 1) with ovf := true }
  | .fin neg m e =>
    let r := (roundAt RNE neg m (e + 40 - x.te) 0 false).1
    x.putSat i (if neg then -(r : Int) else r)

/-- What ACCWR does to its tile (R273). -/
def Tile.accWrite (x : Tile) (fmt i : Nat) (ws : List Word) : Tile :=
  let w := fun k => (ws.getD k 0).toNat
  if fmt = 0 then x.store i (unpack f32 (w 0))
  else if fmt = 1 then x.store i (unpack bf16 (w 0 % 65536))
  else if fmt = 5 then x.put i (sextNat 64 (w 0 + 2 ^ 32 * w 1))
  else
    (List.range 8).foldl (fun (a : Tile) j =>
      a.store (i + j) (beadElem (beadM (fmt - 1)) (w 0 + 2 ^ 32 * w 1) (w 2 % 65536) j)) x

/-- Whether an accumulator operation still waits for an MX operation of its tile issued before it (R274). -/
def accBlocked (q : List MxOp) (team : Nat) (o : AccOp) : Bool :=
  q.any fun m => m.team == team && m.tile == o.tile && m.id < o.id

/-- Apply an accumulator operation: ACCRD delivers its words to its result (R272), ACCWR writes its tile. -/
def Team.applyAcc (t : Team) (o : AccOp) : Team :=
  match o.kind with
  | .read fmt =>
    let r := (t.tile o.tile).accRead fmt o.elem
    t.setThread o.tid ((t.thread o.tid).deliver (.acc o.id) r.1 r.2)
  | .write fmt ws => t.setTile o.tile ((t.tile o.tile).accWrite fmt o.elem ws)

/-- Apply, in order, the accumulator operations of a team that wait for nothing. -/
def Team.applyAccs (q : List MxOp) (t : Team) : List AccOp → Team
  | [] => t
  | o :: r =>
    if accBlocked q t.id o then Team.applyAccs q { t with accOps := t.accOps ++ [o] } r
    else Team.applyAccs q (t.applyAcc o) r
/-- Apply what the mast's queue no longer holds back. -/
def State.runAccs (s : State) (team : Nat) : State :=
  match s.team? team with
  | none => s
  | some t => s.setTeam (Team.applyAccs (s.mast t.mast).mxq { t with accOps := [] } t.accOps)

/-! ### Parameter blocks (R299 to R301) -/

/-- A field of n bytes of a parameter block. -/
def mxField (p : List Byte) (o n : Nat) : Nat := leNat ((p.drop o).take n)
def mxCtrl (p : List Byte) : Nat := mxField p 0 4
def mxTile (p : List Byte) : Nat := bits (mxCtrl p) 2 4
def mxTag (p : List Byte) : Nat := bits (mxCtrl p) 6 2
/-- Bytes of a group of A (R298). -/
def mxGroup (fmt : Nat) : Nat := [40, 56, 80, 32, 64].getD fmt 64
/-- Bytes of a row of B of L elements (R299). -/
def mxRow (fmt len : Nat) : Nat := if fmt ≤ 2 then len / 8 * (groupWidth fmt + 2) else if fmt = 3 then len / 2 else len

/-- Whether a parameter block is valid for a team (R300, R301). -/
def mxValid (sh : Shape) (p : List Byte) : Bool :=
  let c := mxCtrl p
  let op := c % 4
  let m := mxField p 4 2; let n := mxField p 6 2; let kb := mxField p 8 2; let shift := mxField p 10 2
  let ap := mxField p 12 4; let as := mxField p 16 4; let bd := mxField p 20 4; let bs := mxField p 24 4
  let af := bits c 8 3; let bf := bits c 11 3; let tb := bit c 15
  let common := bits c 16 16 == 0 && mxTile p < sh.tiles && (p.drop 0x1C).all (· == 0)
  if op = 2 then
    common && bits c 8 8 == 0 && m == 0 && n == 0 && kb == 0 && ap == 0 && as == 0 && bd == 0 && bs == 0
  else
    let rows := if tb then 64 * kb else n
    let len := if tb then n else 64 * kb
    op != 3 && common && af ≤ 4 && bf ≤ 4 && shift == 0 &&
      1 ≤ m && m ≤ 64 && 1 ≤ n && n ≤ 64 && (!tb || n % 8 == 0) && 1 ≤ kb && kb ≤ 128 &&
      ap % 8 == 0 && as % 8 == 0 && bd % 8 == 0 && bs % 8 == 0 &&
      (m == 1 || kb * mxGroup af ≤ as) && (rows == 1 || mxRow bf len ≤ bs) &&
      ap + (m - 1) * as + kb * mxGroup af ≤ sh.plane && bd + (rows - 1) * bs + mxRow bf len ≤ sh.deck

/-! ### Operands -/

/-- Why an MX operation fails (R308). -/
inductive MxFail where
  | invalid | format | decode | poison | scale
  deriving DecidableEq, Repr

/-- The code of the fault record of a failure (R308). -/
def MxFail.code : MxFail → Option Nat
  | .format => some cFORMAT
  | .decode => some cDECODE
  | _ => none

/-- A byte of an operand: decoded where its granule is CODED (R313). -/
def State.mxByte (s : State) (get : Nat → Nat → List (Byte × Bool)) (marks : List (Nat × Nat)) (o : Nat) : Except MxFail Byte :=
  let n := alGetD marks (o / 256) 0
  if n = 0 then
    let b := (get o 1).headD (0, false)
    if b.2 then .error .poison else .ok b.1
  else
    let st := get (o / 256 * 256) 256
    if (st.take (32 * n)).any (·.2) then .error .poison
    else
      let bs := st.map (·.1)
      let good := decodeCoded (s.slotLens (codedSlot bs)) bs n
      if good.length < 256 then .error .decode else .ok (good.getD (o % 256) 0)

/-- An element as R305 takes it: none when void, else q, x and β. -/
abbrev MxElem := Option (Int × Int × Int)

/-- An element of a bead block from its magnitude and sign field and its scale word (R305). -/
def mxBead (m raw scale i : Nat) : Except MxFail MxElem :=
  if !scaleValid scale then .error .format
  else
    let e := scale % 256
    if e = 255 then .ok none
    else
      let mu := bits scale (8 + i / 2) 1
      let q : Int := if bit raw m then -((raw % 2 ^ m : Nat) : Int) else ((raw % 2 ^ m : Nat) : Int)
      .ok (some (q, (e : Int) - 127 - mu - ((m : Int) - 1), (e : Int) - 127))

/-- The bits of successive planes at one bit position, lowest plane first. -/
def mxPlanes (rd : Nat → Except MxFail Byte) (base e : Nat) : Nat → Except MxFail Nat
  | 0 => .ok 0
  | k + 1 => match mxPlanes rd base e k with
    | .error x => .error x
    | .ok lo => match rd (base + 8 * k + e / 8) with
      | .error x => .error x
      | .ok b => .ok (lo + if b.getLsbD (e % 8) then 2 ^ k else 0)

/-- A 16-bit word of an operand. -/
def mxWord (rd : Nat → Except MxFail Byte) (o : Nat) : Except MxFail Nat :=
  match rd o with
  | .error x => .error x
  | .ok a => match rd (o + 1) with
    | .error x => .error x
    | .ok b => .ok (a.toNat + 256 * b.toNat)

/-- A[i][k] from PLANE (R298, R305): `row` is the byte at which row i starts. -/
def mxElemA (rd : Nat → Except MxFail Byte) (fmt row k : Nat) : Except MxFail MxElem :=
  let base := row + k / 64 * mxGroup fmt
  let e := k % 64
  let w := groupWidth fmt
  match mxPlanes rd base e w with
  | .error x => .error x
  | .ok raw =>
    if fmt ≤ 2 then
      match mxWord rd (base + 8 * w + 2 * (e / 8)) with
      | .error x => .error x
      | .ok sc => mxBead (w - 1) raw sc (e % 8)
    else .ok (some (sextNat w raw, 0, if fmt = 3 then 3 else 7))

/-- The n bytes of an operand from o as one little-endian number. -/
def mxNum (rd : Nat → Except MxFail Byte) (o : Nat) : Nat → Except MxFail Nat
  | 0 => .ok 0
  | n + 1 => match rd o with
    | .error x => .error x
    | .ok b => match mxNum rd (o + 1) n with
      | .error x => .error x
      | .ok r => .ok (b.toNat + 256 * r)

/-- Stored element e of a row of B of `len` elements that starts at `row` (R299, R305). -/
def mxElemB (rd : Nat → Except MxFail Byte) (fmt row len e : Nat) : Except MxFail MxElem :=
  if fmt = 4 then
    match rd (row + e) with
    | .error x => .error x
    | .ok b => .ok (some (sextNat 8 b.toNat, 0, 7))
  else if fmt = 3 then
    match rd (row + e / 2) with
    | .error x => .error x
    | .ok b => .ok (some (sextNat 4 (bits b.toNat (4 * (e % 2)) 4), 0, 3))
  else
    let w := groupWidth fmt
    match mxNum rd (row + w * (e / 8)) w with
    | .error x => .error x
    | .ok blk => match mxWord rd (row + len / 8 * w + 2 * (e / 8)) with
      | .error x => .error x
      | .ok sc => mxBead (w - 1) (bits blk (w * (e % 8)) w) sc (e % 8)

/-- A list of results, or the first failure. -/
def allOk {α : Type} : List (Except MxFail α) → Except MxFail (List α)
  | [] => .ok []
  | x :: r => match x with
    | .error e => .error e
    | .ok a => match allOk r with
      | .error e => .error e
      | .ok l => .ok (a :: l)

/-! ### The operations -/

/-- One contribution of R306: q_A × q_B × 2^(x_A + x_B − TE + 40), floored. -/
def mxTerm (neg : Bool) (te : Int) (a b : Int × Int × Int) : Int :=
  let q := (if neg then -1 else 1) * a.1 * b.1
  let sh := a.2.1 + b.2.1 - te + 40
  if 0 ≤ sh then q * 2 ^ sh.toNat else q / 2 ^ (-sh).toNat

/-- The sum over k of one element of the product, and whether a void block was met. -/
def mxSum (neg : Bool) (te : Int) : List MxElem → List MxElem → Int × Bool
  | some a :: as, some b :: bs =>
    let r := mxSum neg te as bs
    (mxTerm neg te a b + r.1, r.2)
  | none :: as, _ :: bs => ((mxSum neg te as bs).1, true)
  | _ :: as, none :: bs => ((mxSum neg te as bs).1, true)
  | _, _ => (0, false)

/-- E* over one row and column (R306), −32,768 when every pair has a void block. -/
def mxEstar : List MxElem → List MxElem → Int
  | some a :: as, some b :: bs => max (a.2.2 + b.2.2) (mxEstar as bs)
  | _ :: as, _ :: bs => mxEstar as bs
  | _, _ => -32768

/-- Realignment of a tile to a greater exponent (R306). -/
def Tile.realign (x : Tile) (e : Int) : Tile :=
  if x.te < e then
    { x with elems := (x.elems.map fun c => (c.1, c.2 / 2 ^ (e - x.te).toNat)).filter (fun c => c.2 != 0), te := e }
  else x

/-- MMA on a tile given the rows of A and the columns of B (R306). -/
def Tile.mma (x : Tile) (neg : Bool) (rows cols : List (List MxElem)) : Tile :=
  let e := rows.foldl (fun a r => cols.foldl (fun b c => max b (mxEstar r c)) a) (-32768)
  let x1 := x.realign e
  (List.range rows.length).foldl (fun (a : Tile) i => (List.range cols.length).foldl (fun (b : Tile) j =>
    let r := mxSum neg x1.te (rows.getD i []) (cols.getD j [])
    let y := b.putSat (64 * i + j) (b.elem (64 * i + j) + r.1)
    if r.2 then { y with void := true } else y) a) x1

/-- The rows of A and the columns of B of an MMA, or its failure. Every operand byte is read as it stands when the operation completes, of
the values that R270 and R310 allow the last (DESIGN CHOICE, log entry 97). -/
def State.mxOperands (s : State) (t : Team) (p : List Byte) : Except MxFail (List (List MxElem) × List (List MxElem)) :=
  let c := mxCtrl p
  let m := mxField p 4 2; let n := mxField p 6 2; let k := 64 * mxField p 8 2
  let ra := s.mxByte t.planeGet t.planeMarks
  let rb := s.mxByte t.deckGet t.deckMarks
  let af := bits c 8 3; let bf := bits c 11 3
  match allOk ((List.range m).map fun i => allOk ((List.range k).map fun kk =>
      mxElemA ra af (mxField p 12 4 + i * mxField p 16 4) kk)) with
  | .error x => .error x
  | .ok rows =>
    let bRow := fun r => mxField p 20 4 + r * mxField p 24 4
    match allOk ((List.range n).map fun j => allOk ((List.range k).map fun kk =>
        if bit c 15 then mxElemB rb bf (bRow kk) n j else mxElemB rb bf (bRow j) k kk)) with
    | .error x => .error x
    | .ok cols => .ok (rows, cols)

/-- Whether an MMA reads a poisoned tile element (R364). -/
def mxTilePoison (x : Tile) (rows cols : List (List MxElem)) : Bool :=
  let e := rows.foldl (fun a r => cols.foldl (fun b c => max b (mxEstar r c)) a) (-32768)
  x.poison.any fun i => decide (x.te < e) || (i / 64 < rows.length && i % 64 < cols.length)

/-- The tile after an operation, or its failure (R306 to R308). -/
def State.mxResult (s : State) (t : Team) (o : MxOp) : Except MxFail Tile :=
  let x := t.tile o.tile
  if o.zero then .ok zeroTile
  else if !mxValid t.shape o.params then .error .invalid
  else
    let op := mxCtrl o.params % 4
    if op = 2 then
      let te := x.te + sextNat 16 (mxField o.params 10 2)
      if te < -32768 ∨ 32767 < te then .error .scale else .ok { x with te := te }
    else
      match s.mxOperands t o.params with
      | .error e => .error e
      | .ok (rows, cols) =>
        if op = 0 && mxTilePoison x rows cols then .error .poison
        else .ok ((if op = 1 then zeroTile else x).mma (bit (mxCtrl o.params) 14) rows cols)

/-- Operations that a mast's array queue holds (R297). -/
def mxQueueLen : Nat := 64
/-- Enter the operations that restored teams of a mast still hold into its queue, as it has room. -/
def enterFrom (m : Nat) (q : List MxOp) : List Team → List MxOp × List Team
  | [] => (q, [])
  | t :: r =>
    let k := if t.mast = m ∧ t.here then mxQueueLen - q.length else 0
    let x := enterFrom m (q ++ t.mxSaved.take k) r
    (x.1, { t with mxSaved := t.mxSaved.drop k } :: x.2)
/-- The restored operations of a mast's teams enter its queue in their order, as it has room (R297, R312). -/
def State.enterSaved (s : State) (m : Nat) : State :=
  if s.teams.any fun t => t.mast == m && t.here && !t.mxSaved.isEmpty then
    let ma := s.mast m
    let x := enterFrom m ma.mxq s.teams
    { s with teams := x.2 }.setMast { ma with mxq := x.1 }
  else s

/-- An MX operation completes (R308, R311): its tile is updated in one step or it fails with ERR; its tag falls; operations
that waited for it are applied. -/
def State.completeMx (s : State) (mast : Nat) (o : MxOp) : State :=
  let ma := s.mast mast
  let s1 := (s.setMast { ma with mxq := ma.mxq.filter (·.id != o.id), arrays := ma.arrays.filter (·.2.1 != o.id) }).enterSaved mast
  match s1.team? o.team with
  | none => s1
  | some t =>
    let t1 := match s.mxResult t o with
      | .ok x => (t.setTile o.tile x).tagDone s.cycle o.tid o.tag false
      | .error e =>
        let u := match e.code with
          | some code => t.setThread o.tid ((t.thread o.tid).asyncRecord code o.tag o.block o.word)
          | none => t
        u.tagDone s.cycle o.tid o.tag true
    (s1.setTeam t1).runAccs o.team

/-- Complete every queued operation of a team in issue order, as retirement does (R371). -/
def State.completeAllMx (s : State) (mast : Nat) : List MxOp → State
  | [] => s
  | o :: r => (s.completeMx mast o).completeAllMx mast r

/-- The spar arrays of a mast (R11). -/
def sparArrays : Nat := 8
/-- Planes of A that a pass reads (R296). -/
def mxPlaneCount (fmt : Nat) : Nat := [2, 4, 7, 4, 8].getD fmt 8
/-- An operation that waits for an earlier one of its tile (R309). -/
def mxWaits (q : List MxOp) (o : MxOp) : Bool := q.any fun x => x.team == o.team && x.tile == o.tile && x.id < o.id
/-- The arrays of a mast that run a pass in a cycle. -/
def Mast.busyArrays (ma : Mast) (cycle : Nat) : List (Nat × Nat × Nat) := ma.arrays.filter fun a => cycle < a.2.2

/-- MX_PASS_START (R296, R297): the next pass of the earliest operation that has one left and waits for none takes the lowest-numbered
free array for 16 cycles for each plane; with no array free nothing starts. -/
def execMxPassStart (mast : Nat) (s : State) : Host.Outcome State Fault Refusal :=
  let ma := s.mast mast
  let busy := ma.busyArrays s.cycle
  match ma.mxq.find? (fun o => o.passes != 0 && !mxWaits ma.mxq o), (List.range sparArrays).find? fun k => busy.all (·.1 != k) with
  | some o, some k =>
    .next (s.setMast { ma with
      mxq := ma.mxq.map fun x => if x.id = o.id then { x with passes := x.passes - 1 } else x
      arrays := busy ++ [(k, o.id, s.cycle + 16 * mxPlaneCount (bits (mxCtrl o.params) 8 3))] })
  | _, _ => .next s

/-- MX_OP_COMPLETE (R309, R311): the operation's passes have ended and no earlier one of its tile is in the queue. -/
def execMxOpComplete (mast id : Nat) (s : State) : Host.Outcome State Fault Refusal :=
  let ma := s.mast mast
  match ma.mxq.find? (·.id == id) with
  | none => .next s
  | some o =>
    if o.passes = 0 ∧ (ma.busyArrays s.cycle).all (·.2.1 != id) ∧ !mxWaits ma.mxq o
    then .next (s.completeMx mast o) else .next s

end Sys2Proof.Machine
end

