-- ==== Sys2Proof/Machine/Queues.lean ====
section
/-! DEFINITION. Queues and their errors (R98 to R100, R106), packets leaving a queue (R108), the end of a launch that does not
finish (R114, R352, R354), payload ring slots (R131), FAULTED threads of a context (R353). -/

namespace Sys2Proof.Machine

/-! ### Packet causes (R106, R352) -/

def eTYPE : Nat := 0x01
def eRESERVED : Nat := 0x02
def eFEATURE : Nat := 0x03
def eLIMIT : Nat := 0x04
def eRANGE : Nat := 0x05
def eFAULT : Nat := 0x06
def eTIMEOUT : Nat := 0x07
def eHYP : Nat := 0x08
def eDEPTH : Nat := 0x09
def eWAKE : Nat := 0x0A
def eWATCHDOG : Nat := 0x0B
def eTRAP : Nat := 0x0C

/-- The queue enters ERROR with a cause and an index and raises VECTOR; an error in ERROR changes nothing (R106). `pkt` is a packet
that did not start and that QUEUE_RESUME may read again or skip; `unread` says that it could not even be read. -/
def State.queueError (s : State) (q cause : Nat) (index : Word) (pkt : Option Nat) (unread : Bool) : State :=
  match s.queue? q with
  | none => s
  | some x =>
    if x.error then s
    else (s.setQueue { x with error := true, cause := BitVec.ofNat 8 cause, errIndex := index, errPacket := pkt,
                              errUnread := unread }).raise x.vector

/-- A destroyed queue is freed once none of its packets is left (R99). -/
def State.reapQueue (s : State) (q : Nat) : State :=
  match s.queue? q with
  | none => s
  | some x =>
    if x.destroyed && !(s.packets.any (·.queue == q)) then { s with queues := s.queues.filter (·.num != q) } else s

/-- A packet leaves its queue. -/
def State.dropPacket (s : State) (p : Packet) : State :=
  { s with packets := s.packets.filter (·.id != p.id) }.reapQueue p.queue

/-- The header word of a packet (R101). -/
def Packet.header (p : Packet) : Nat := (p.words.headD 0).toNat
/-- A word of a packet by its byte offset. -/
def Packet.w (p : Packet) (o : Nat) : Nat := (p.words.getD (o / 4) 0).toNat
/-- An eight-byte field of a packet. -/
def Packet.d (p : Packet) (o : Nat) : Nat := p.w o + 2 ^ 32 * p.w (o + 4)

/-- A packet is complete (R108): it leaves its queue, and INTR raises VECTOR (R101). -/
def State.completePacket (s : State) (p : Packet) : State :=
  let s1 := if bit p.header 10 then match s.queue? p.queue with
      | some q => s.raise q.vector
      | none => s
    else s
  s1.dropPacket p

/-! ### FAULTED threads of a context (R353) -/

/-- A team of a context. -/
def State.ofCtx (s : State) (c : Nat) (t : Team) : Bool := (s.launch? t.launch).any (·.ctx == c)
/-- FCOUNT: the FAULTED threads of a context, resident or saved. -/
def State.fcount (s : State) (c : Nat) : Nat :=
  ((s.teams.filter (s.ofCtx c)).map fun t => (t.threads.filter (·.st == .faulted)).length).sum
/-- FVA is 0 when XPEND is 0. -/
def State.tidyFaults (s : State) (c : Nat) : State :=
  match s.ctx? c with
  | none => s
  | some x => if s.fcount c = 0 then s.setCtx { x with fvas := [] } else s
/-- Threads of a launch have become FAULTED on pages: FVA gains the pages, and the vector of the launch's queue is raised when
XPEND has changed from 0 to 1; `was` is the count before. -/
def State.noteFaults (s : State) (l : Launch) (was : Nat) (vas : List Nat) : State :=
  if vas.isEmpty then s
  else
    let c := s.ctxD l.ctx
    let s1 := s.setCtx { c with fvas := c.fvas ++ vas.map fun v => v / 4096 * 4096 }
    if was = 0 then match s1.queue? l.queue with
      | some q => s1.raise q.vector
      | none => s1
    else s1

/-- Free the reckoning entries of a context that R333 frees. -/
def State.tidyHyps (s : State) (c : Nat) : State :=
  match s.ctx? c with
  | none => s
  | some x => s.setCtx (s.freeHyps x)

/-! ### Masts and the payload ring (R131) -/

/-- The teams on a mast. -/
def State.on (s : State) (m : Nat) : List Team := s.teams.filter fun t => t.mast == m && t.here

/-- A slot of the mast's ring has freed: the threads that wait for one go on (R135, R140). -/
def State.wakeRing (s : State) (m : Nat) : State :=
  (s.on m).foldl (fun (a : State) t => a.setTeam (t.clearWaitsAll s.cycle (· == Wait.ring))) s

/-- One consumer of a ring slot has retired; the last one frees the slot. -/
def State.ringRelease (s : State) (m slot : Nat) : State :=
  let ma := s.mast m
  match ma.ring.find? (·.slot == slot) with
  | none => s
  | some r =>
    if r.users ≤ 1 then (s.setMast { ma with ring := ma.ring.filter (·.slot != slot) }).wakeRing m
    else s.setMast { ma with ring := putBy (·.slot == slot) { r with users := r.users - 1 } ma.ring }

/-- The mesh request that a mesh team came from holds its slot. -/
def State.releaseMesh (s : State) (t : Team) : State :=
  match t.mesh with
  | some r => match r.slot with
    | some k => s.ringRelease r.mast k
    | none => s
  | none => s

/-- The slots that a launch still holds in every ring go when it ends. -/
def State.dropRings (s : State) (lid : Nat) : State :=
  s.masts.foldl (fun (a : State) ma =>
    if ma.ring.any (·.launch == lid) then
      let m := a.mast ma.num
      (a.setMast { m with ring := m.ring.filter (·.launch != lid) }).wakeRing ma.num
    else a) s

/-- The context's pins on a mast go when its last team there has gone (R291, R371). -/
def State.dropPins (s : State) (c m : Nat) : State :=
  if (s.on m).any (s.ofCtx c) then s
  else
    let ma := s.mast m
    if ma.pins.any (·.ctx == c) then s.setMast { ma with pins := ma.pins.filter (·.ctx != c) } else s

/-- A team's record in the save area is free: its directory entry has OFFSET 0 (R359, R361). -/
def State.freeRecord (s : State) (t : Team) : State :=
  let entry := match t.place with
    | .saved _ e | .restored _ e => some e
    | _ => none
  match entry, (s.ctxD (s.launchD t.launch).ctx).saveArea with
  | some e, some (base, _) => s.writePhys (base + 16 * e) (List.replicate 6 0)
  | _, _ => s

/-- A team leaves the device: its place, its packs, its queued work (R371 step 5). -/
def State.removeTeam (s₀ : State) (t : Team) : State :=
  let s := s₀.freeRecord t
  let ma := s.mast t.mast
  let s0 := if ma.mxq.any (·.team == t.id) || ma.sjobs.any (·.team == t.id) || ma.smmaq.any (·.team == t.id) then
      s.setMast { ma with mxq := ma.mxq.filter (·.team != t.id), sjobs := ma.sjobs.filter (·.team != t.id),
                          arrays := ma.arrays.filter fun a => !ma.mxq.any fun (o : MxOp) => o.team == t.id && o.id == a.2.1
                          smmaq := ma.smmaq.filter (·.team != t.id) }
    else s
  let c := (s.launchD t.launch).ctx
  ({ s0 with
     teams := s0.teams.filter (·.id != t.id)
     flight := s0.flight.filter (·.team != t.id)
     issue := if s0.issue.any (fun (p : Pack) => p.team == t.id) then none else s0.issue
     asyncs := s0.asyncs.filter (·.team != t.id) }.enterSaved t.mast |>.releaseMesh t).dropPins c t.mast

/-- The work a team has committed is performed: its copies complete, its non-DET entries flush (R114, R371, R95). -/
def State.drainTeam (s : State) (t : Team) : State :=
  let s1 := s.completeCopies (s.asyncs.filter (·.team == t.id))
  if (s1.launchD t.launch).det then s1
  else match s1.team? t.id with
    | some u => s1.flushTeam u
    | none => s1

/-- A team is discarded without a save (R114): committed effects stay, DET entries and partials are dropped. -/
def State.discardTeam (s : State) (t : Team) : State :=
  let s1 := s.drainTeam t
  match s1.team? t.id with
  | some u => s1.removeTeam u
  | none => s1

/-- Discard every team in a list. -/
def State.discardTeams (s : State) : List Team → State
  | [] => s
  | t :: r => (s.discardTeam t).discardTeams r

/-! ### The end of a launch that does not finish (R114, R352, R354) -/

/-- The launch and its packet go; no signal, no successor. -/
def State.discardLaunch (s : State) (l : Launch) : State :=
  let s1 := (s.discardTeams (s.teams.filter (·.launch == l.id))).dropRings l.id
  let s2 := { s1 with launches := s1.launches.filter (·.id != l.id) }
  let s3 := match s2.packet? l.packet with
    | some p => s2.dropPacket p
    | none => s2
  (s3.tidyFaults l.ctx).tidyHyps l.ctx

/-- A launch ends with its queue in ERROR. The queue packet's index is ERR_INDEX (R98); no packet is named that did not start. -/
def State.endLaunch (s : State) (l : Launch) (cause : Nat) : State :=
  let index := ((s.packet? l.packet).map (·.index)).getD 0
  let s1 := s.queueError l.queue cause index none false
  s1.discardLaunch l

/-- A launch fault (R352, R360): LFAULT is set, LCODE and FREC take the record, zeros when no thread trapped. -/
def State.launchFault (s : State) (l : Launch) (cause code : Nat) (frec : List Word) : State :=
  let f : CtxFault := ⟨true, BitVec.ofNat 8 code, frec⟩
  let s1 := { s with cfault := alPut l.ctx f s.cfault }
  s1.endLaunch l cause

/-- The order of the traps of one cycle (R352): by pipe, then by lane; of two masts the lower (log entry 93). -/
def Dying.before (a b : Dying) : Bool :=
  decide (a.pipe < b.pipe) || (a.pipe == b.pipe && (decide (a.lane < b.lane) || (a.lane == b.lane && decide (a.mast < b.mast))))
/-- A launch without TRAP_ENTRY takes a program trap: it ends as the cycle passes, with the record of the first in the order of R352. -/
def State.dies (s : State) (lid : Nat) (d : Dying) : State :=
  match s.launch? lid with
  | none => s
  | some l => s.setLaunch { l with dying := some (match l.dying with
      | some x => if d.before x then d else x
      | none => d) }
/-- The first of some traps in the order of R352. -/
def firstDying : List Dying → Option Dying
  | [] => none
  | d :: r => match firstDying r with
    | some x => some (if x.before d then x else d)
    | none => some d

/-- The launches that took a program trap in the cycle that has passed end. The context's fault registers take the record of the first
trap among all its launches (R352). -/
def State.endDying (s : State) : State :=
  (s.launches.filter (·.dying.isSome)).foldl (fun (a : State) l =>
    match firstDying ((s.launches.filter (·.ctx == l.ctx)).filterMap (·.dying)) with
    | some d => a.launchFault l eTRAP d.code d.words
    | none => a) s

/-- End every launch in a list with one cause. -/
def State.endLaunches (s : State) (cause : Nat) : List Launch → State
  | [] => s
  | l :: r => (s.endLaunch l cause).endLaunches cause r

/-! ### Queue state (R99) -/

/-- A queue has work (R93, R113): its wake value differs from its consumed index, or it holds a packet read and not started. A
queue in ERROR has none. -/
def State.hasWork (s : State) (q : Queue) : Bool :=
  !q.error && !q.destroyed && (q.w != q.c || s.packets.any fun p => p.queue == q.num && p.st == .read)

/-- A mapping round comes every 250 µs, and there are 64 slots (R92, R113). -/
def roundNs : Nat := 250000
def queueSlots : Nat := 64
/-- Nanoseconds within which a queue that gains work is mapped (R113). -/
def State.mapWithin (s : State) (q : Queue) : Nat :=
  (ceilDiv ((s.queues.filter fun x => s.hasWork x && decide (x.cls ≤ q.cls)).length) queueSlots + 1) * roundNs
/-- Note, for each unmapped queue that has gained work, by when it must be mapped (R113). A queue that is unmapped while it has work
gains it at that moment (log entry 86). -/
def State.noteWork (s : State) : State :=
  { s with queues := s.queues.map fun q =>
      if q.mapped.isSome || !s.hasWork q then { q with due := none }
      else if q.due.isSome then q
      else { q with due := some (s.ns + s.mapWithin q) } }

/-- TYPE of a packet (R101). -/
def Packet.type (p : Packet) : Nat := p.header % 256

/-- QSTATE as the kick page reads it (R99): 0 IDLE, 1 ACTIVE, 2 WAITING, 3 ERROR, 4 DISABLED. -/
def State.qstate (s : State) (n : Nat) : Nat :=
  match s.queue? n with
  | none => 4
  | some q =>
    let ps := s.packets.filter (·.queue == n)
    if q.error then 3
    else if (ps.any fun p => p.type == 5 && p.st == .started) || (s.hasWork q && q.mapped.isNone) ||
        (s.launches.any fun l => l.queue == n && !l.admitted) then 2
    else if (ps.any fun p => p.st != .read) || s.hasWork q then 1
    else 0

end Sys2Proof.Machine
end

