-- ==== Sys2Proof/Machine/Resolves.lean ====
section
/-! DEFINITION. Confirming and refuting as they act on versions, caches and threads (R338, R342), orphans (R346), the scrubber
(R333, R340). -/

namespace Sys2Proof.Machine

/-- Apply a function to a team. -/
def State.onTeam (s : State) (id : Nat) (f : Team → Team) : State :=
  match s.team? id with
  | some t => s.setTeam (f t)
  | none => s

/-! ### Orphans (R346) -/

/-- Whether a thread of a context is an orphan. -/
def Ctx.orphan (c : Ctx) (x : Thread) : Bool := isOrphan c.hyps x.hyp

/-- A mast's L1 drops the views that threads of a team have come under in a change of the team, so that no read of theirs returns an
older value than one they have read or written before (R315, R341; log entry 94). -/
def State.enterViews (s : State) (ctx : Nat) (old new : Team) : State :=
  if old.here then
    (List.range new.threads.length).foldl (fun (a : State) i =>
      let h := (new.thread i).hyp
      if h = (old.thread i).hyp then a else a.onMast (some old.mast) fun m => m.l1DropView ctx h) s
  else s

/-- The orphan rule: with an orphan entry the thread takes the nearest OPEN ancestor and stands READY there; without one it
exits. -/
def Team.orphanRule (t : Team) (c : Ctx) (det : Bool) (cycle tid : Nat) : Team :=
  match t.orphan with
  | some a =>
    let x := t.thread tid
    ((t.leaveBins [tid]).setThread tid { x with hyp := orphanTarget c.hyps x.hyp }).stand cycle tid a []
  | none => t.exitThread det cycle tid

/-- A wait that an orphan leaves at once. -/
def Wait.dropsForOrphan : Wait → Bool
  | .pause _ | .barrier _ _ | .ring => true
  | _ => false

/-- An orphan leaves FAULTED and its barrier, pause and ring waits; with nothing outstanding it follows the orphan rule, else it is
WAITING in the bin of its block until the rest clears. -/
def Team.sweepThread (t : Team) (c : Ctx) (det : Bool) (cycle tid : Nat) : Team :=
  let x := t.thread tid
  let w := x.waits.filter fun y => !y.dropsForOrphan
  if !c.orphan x || !(x.st == .faulted || x.st == .waiting) then t
  else if w.isEmpty && x.out.isEmpty then (t.setThread tid { x with waits := w }).orphanRule c det cycle tid
  else if x.st = .faulted then t.stand cycle tid x.next w
  else t.setThread tid { x with waits := w }
/-- Every orphan of a team. -/
def Team.sweep (t : Team) (c : Ctx) (det : Bool) (cycle : Nat) : Team :=
  (List.range t.threads.length).foldl (fun a i => a.sweepThread c det cycle i) t
/-- Every orphan of a context, resident or saved. -/
def State.sweepOrphans (s : State) (ctx : Nat) : State :=
  let c := s.ctxD ctx
  let swept := fun (t : Team) => if s.ofCtx ctx t then t.sweep c (s.launchD t.launch).det s.cycle else t
  let s1 := s.teams.foldl (fun (a : State) t => a.enterViews ctx t (swept t)) s
  ({ s1 with teams := s.teams.map swept } : State).tidyFaults ctx

/-! ### Confirm and refute (R338, R342) -/

/-- The bytes of a context's versions under IDs that resolve to a tag: block and offset. -/
def Ctx.bytesUnder (c : Ctx) (t : Nat) : List Nat :=
  (c.versions.filter fun v => resolveHyp c.hyps v.tag == t).flatMap fun v => v.cells.map fun b => 64 * v.block + b.1

/-- Change the tiles that a context's streams hold pending (R380). -/
def State.onPending (s : State) (ctx : Nat) (f : List (Nat × Nat) → List (Nat × Nat)) : State :=
  { s with streams := s.streams.map fun x => if x.ctx = ctx then { x with pending := f x.pending } else x }

/-- The masts that read under an ID of a context: with a live thread whose HYP resolves to it, or with a copy or a sample under way that a
thread began under it. -/
def State.mastsUnder (s : State) (c : Ctx) (h : Nat) : List Nat :=
  (s.teams.filter fun t => t.here && s.ofCtx c.num t && ((t.threads.any fun x => x.live && resolveHyp c.hyps x.hyp == h) ||
    (s.asyncs.any fun a => a.team == t.id && resolveHyp c.hyps a.hyp == h) ||
    (s.mast t.mast).sjobs.any fun j => j.team == t.id && resolveHyp c.hyps j.hyp == h)).map (·.mast)

/-- Every L1 drops the lines of p's views that hold a version block of the ID being confirmed; into the root, those of every context. A
read under p that a write of the ID happens before may return nothing older, whichever thread made the write and wherever that thread is
by now (R317, R338; log entry 94). -/
def State.dropMerged (s : State) (c : Ctx) (p : Nat) (blocks : List Nat) : State :=
  let old := fun (x : L1Sector) => blocks.any (fun b => b / 2 == x.sector / 4) &&
    (p == 0 || (x.ctx == c.num && (x.view == p || isUnder c.hyps p x.view)))
  { s with masts := s.masts.map fun m => { m with l1 := m.l1.filter fun x => !old x } }

/-- Confirm h in a context (R342): its writes stand after every earlier write of its parent, signature bits are set for its blocks,
the confirming mast drops its lines of the parent's views. A mast that reads under h drops its lines of the parent's own view too,
since those reads go through them from then on and may return nothing older than the thread has read or written (R315, R321; log entry
94). -/
def State.confirm (s : State) (ctx : Nat) (mast : Option Nat) (h : Nat) : State :=
  let c := s.ctxD ctx
  let p := (hypAt c.hyps h).parent
  let mine := c.bytesUnder h
  let blocks := (c.versions.filter fun v => resolveHyp c.hyps v.tag == h).map (·.block)
  let c1 := mine.foldl (fun (a : Ctx) pa => a.maskVersions p pa) c
  let s1 := if p = 0 then
      { s with ctxs := s.ctxs.map fun x => if x.num = ctx then x else mine.foldl (fun (a : Ctx) pa => a.maskVersions 0 pa) x }
    else s
  let s2 := (s1.setCtx { c1 with hyps := confirmHyp c.hyps h }).onPending ctx fun l =>
    l.map fun x => if x.2 = h then (x.1, p) else x
  let s3 := blocks.foldl (fun (a : State) b => a.sigAll b) s2
  let s4 := (s.mastsUnder c h).foldl (fun (a : State) k => a.onMast (some k) fun m => m.l1DropView ctx p) s3
  (s4.dropMerged c p blocks).onMast mast fun m =>
    { m with l1 := m.l1.filter fun x => !(x.ctx == ctx && (x.view == p || isUnder c.hyps p x.view)) }

/-- Refute h in a context (R342): it and its OPEN descendants become REFUTED, every mast drops its lines of those views, and their
threads become orphans. -/
def State.refute (s : State) (ctx h : Nat) : State :=
  let c := s.ctxD ctx
  let gone := fun i => (hypAt c.hyps i).st == .opened && isUnder c.hyps h i
  let s1 := s.setCtx { c with hyps := refuteHyp c.hyps h }
  let ms := s1.masts.map fun (m : Mast) => { m with l1 := m.l1.filter fun x => !(x.ctx == ctx && gone x.view) }
  let s2 : State := { s1 with masts := ms }
  (s2.onPending ctx fun l => l.filter fun x => !gone x.2).sweepOrphans ctx

/-- A resolve takes effect (R342): the refute of an ID that is no longer OPEN has none. -/
def State.applyResolve (s : State) (ctx : Nat) (r : ResolveOp) : State :=
  if r.confirm then s.confirm ctx r.mast r.hyp
  else if (hypAt (s.ctxD ctx).hyps r.hyp).st = .opened then s.refute ctx r.hyp
  else s
/-- Whether a running operation is a resolve of a context. -/
def Running.resolves (ctx : Nat) : Running → Bool
  | .resolve _ c _ _ _ => c == ctx
  | _ => false
/-- A resolve takes its place in the resolve order of its context: it takes effect at once when no earlier one is under way, else when
those have completed; it is under way until it has reached every slice and L1 (R342; log entry 83). -/
def State.startResolve (s : State) (ctx : Nat) (packet team : Option Nat) (r : ResolveOp) : Nat × State :=
  let (id, s1) := s.fresh
  let busy := s1.running.any (Running.resolves ctx)
  let s2 : State := { s1 with running := s1.running ++ [.resolve id ctx packet team (if busy then some r else none)] }
  (id, if busy then s2 else s2.applyResolve ctx r)
/-- The next resolve of a context takes effect, if it has not. -/
def State.nextResolve (s : State) (ctx : Nat) : State :=
  match s.running.find? (Running.resolves ctx) with
  | some (.resolve id c p t (some r)) =>
    let s1 : State := { s with running := s.running.map fun x => if x.id = id then .resolve id c p t none else x }
    s1.applyResolve ctx r
  | _ => s

/-- Whether HCONFIRM of x traps (R343). -/
def confirmBad (hs : List (Nat × HypEntry)) (x : Nat) : Bool := x == 0 || 255 < x || (hypAt hs x).st != .opened
/-- Whether HREFUTE of x traps (R343). -/
def refuteBad (hs : List (Nat × HypEntry)) (x : Nat) : Bool :=
  x == 0 || 255 < x || (hypAt hs x).st == .free || (hypAt hs x).st == .merged

/-! ### The scrubber (R333, R340) -/

/-- SCRUBBER_START: a REFUTED entry becomes SCRUBBING. -/
def execScrubberStart (ctx hyp : Nat) (s : State) : Host.Outcome State Fault Refusal :=
  match s.ctx? ctx with
  | none => .next s
  | some c =>
    let e := hypAt c.hyps hyp
    if e.st = .refuted then
      .next ((s.setCtx { c with hyps := alPut hyp { e with st := .scrubbing } c.hyps }).tidyHyps ctx)
    else .next s

/-- Write the bytes of a context's version merged into the root to memory, through L2. -/
def State.scrubRoot (s : State) (ctx : Nat) (v : Version) : State :=
  v.cells.foldl (fun (a : State) b => a.leafWrite (64 * v.block + b.1) v.comp b.2 (v.poison.contains b.1)) (s.l2Touch ctx (64 * v.block))

/-- SCRUB_BLOCK (R340): the k-th version block of a context is freed, moved to what its ID resolves to, or written into memory. -/
def execScrubBlock (ctx k : Nat) (s : State) : Host.Outcome State Fault Refusal :=
  match s.ctx? ctx with
  | none => .next s
  | some c =>
    match c.versions[k]? with
    | none => .next s
    | some v =>
      let e := hypAt c.hyps v.tag
      let rest := { c with versions := c.versions.eraseIdx k }
      if e.st = .refuted ∨ e.st = .scrubbing then .next ((s.setCtx rest).tidyHyps ctx)
      else if e.st = .merged then
        let t := resolveHyp c.hyps v.tag
        if isOrphan c.hyps v.tag then .next ((s.setCtx rest).tidyHyps ctx)
        else if t = 0 then .next (((s.setCtx rest).scrubRoot ctx v).tidyHyps ctx)
        else
          let put := v.cells.foldl (fun (a : Ctx) b => a.putVersion t ⟨64 * v.block + b.1, v.comp, none⟩ b.2 (v.poison.contains b.1)) rest
          .next ((s.setCtx put).tidyHyps ctx)
      else .next s

end Sys2Proof.Machine
end

