-- ==== Sys2Proof/Machine/Flags.lean ====
section
/-! DEFINITION. The sticky floating-point flags and WRAP within a block (R63, R84, R174) and the carry predicate of R210. -/

namespace Sys2Proof.Machine

/-- OR flags raised by an instruction of the block into the lane's block flags (R63). -/
def Lane.orFlags (ln : Lane) (f : Flags) : Lane := { ln with flags := ln.flags ||| f }
/-- A floating-point result written to d with its flags. -/
def Lane.wrF (ln : Lane) (d : Reg) (r : Nat × Flags) : Lane := (ln.wr d (BitVec.ofNat 32 r.1)).orFlags r.2

/-- STATUS as the commit leaves it: the last CTXW's value or the block-start value, with the flags and the wrap of the
instructions after that CTXW ORed in (R172, R174). -/
def Lane.statusOut (ln : Lane) : BitVec 6 :=
  ln.status ||| ln.flags.setWidth 6 ||| (if ln.wrap then 0x20 else 0)
/-- A CTXW to STATUS: its value stands, and what earlier instructions of the block raised is lost (R174). -/
def Lane.writeStatus (ln : Lane) (x : Word) : Lane :=
  { ln with status := x.setWidth 6, statusW := true, flags := 0, wrap := false }

/-- One draw of RNGS: the counter advances, and an advance to 0 raises WRAP (R84). -/
def Lane.drawRng (ln : Lane) : Lane :=
  { ln with rngs := ln.rngs + 1, wrap := ln.wrap || ln.rngs == 0xFFFFFFFF }

/-- ADDC (R210): the sum and the carry out. -/
def addcOf (a b : Word) (c : Bool) : Word × Bool :=
  let t := a.toNat + b.toNat + (if c then 1 else 0)
  (BitVec.ofNat 32 t, decide (2 ^ 32 ≤ t))
/-- SUBB (R210): the difference and the borrow out. -/
def subbOf (a b : Word) (c : Bool) : Word × Bool :=
  let t : Int := (a.toNat : Int) - b.toNat - (if c then 1 else 0)
  (wrap32 t, decide (t < 0))

end Sys2Proof.Machine
end

