-- ==== Sys2Proof/Machine/Sys.lean ====
section
/-! DEFINITION. System instructions (R366 to R370), control registers (R171 to R175) and MODW (R44, R204). -/

namespace Sys2Proof.Machine

/-- NOP has no effect (R366). -/
def execNop (h : Hdr) : State → Host.Outcome State Fault Refusal := lanewise h [] [] fun _ ln => ln

/-- TRAP n (R367). -/
def execTrap (h : Hdr) (n : BitVec 7) : State → Host.Outcome State Fault Refusal :=
  lanewise h [] [] fun e ln => ln.raise e.p.pc cTRAP n.toNat

/-- BKPT n (R367). -/
def execBkpt (h : Hdr) (n : BitVec 7) : State → Host.Outcome State Fault Refusal :=
  lanewise h [] [] fun e ln => ln.raise e.p.pc cBKPT n.toNat

/-- STAGE as a number (R173). -/
def stageCode : Stage → Nat
  | .compute => 0
  | .task => 1
  | .mesh => 2
  | .pixel => 3

/-- LAUNCHINFO (R173). -/
def Env.launchInfo (e : Env) : Word :=
  BitVec.ofNat 32 (e.t.shape.vregs + (if e.t.stage = .compute && e.launch.det then 512 else 0) + 1024 * stageCode e.t.stage)

/-- SEED of the DISPATCH, 0 for graphics teams (R171). -/
def Env.seedReg (e : Env) : Dword := if e.t.stage = .compute then e.launch.seed else 0

/-- The value of a control register for a thread within its block (R171 to R175). -/
def Env.ctl (e : Env) (ln : Lane) (n : Nat) : Word :=
  if n = 0x00 then ln.status.setWidth 32
  else if n = 0x01 then BitVec.ofNat 32 ln.wb
  else if n = 0x02 then ln.rngsRead
  else if n = 0x08 then e.t.seqcfg
  else if n = 0x09 then e.launchInfo
  else if n = 0x0A then (if e.t.stage = .compute then e.launch.tileExt else 0)
  else if n = 0x0B then loW e.seedReg
  else if n = 0x0C then hiW e.seedReg
  else if 0x10 ≤ n ∧ n ≤ 0x13 then (e.t.thread ln.tid).frec.getD (n - 0x10) 0
  else if 0x20 ≤ n ∧ n ≤ 0x40 then alGetD e.t.loss (n - 0x20) 0
  else 0

/-- CTXR d, name (R368). -/
def execCtxr (h : Hdr) (d : Reg) (n : BitVec 7) : State → Host.Outcome State Fault Refusal :=
  lanewise h [] [(d, 1)] fun e ln => ln.wr d (e.ctl ln n.toNat)

/-- A CTXW within the block (R174, R175): thread registers at once for later instructions of the block, team registers at
commit. -/
def Lane.ctlWrite (ln : Lane) (word n : Nat) (x : Word) : Lane :=
  if n = 0x00 then ln.writeStatus x
  else if n = 0x02 then { ln with rngs := x, rngsRead := x }
  else ln.record word (.teamWrite n x)

/-- CTXW name, a (R368). -/
def execCtxw (h : Hdr) (n : BitVec 7) (a : Reg) : State → Host.Outcome State Fault Refusal :=
  lanewise h [(a, 1)] [] fun e ln => ln.ctlWrite e.p.pc n.toNat (e.rd ln a)

/-- CLK.CYC d (R369). -/
def execClkCyc (h : Hdr) (d : Reg) : State → Host.Outcome State Fault Refusal :=
  lanewise h [] [(d, 2)] fun e ln => ln.wrPair d (BitVec.ofNat 64 e.s.cycle)

/-- CLK.NS d (R369). -/
def execClkNs (h : Hdr) (d : Reg) : State → Host.Outcome State Fault Refusal :=
  lanewise h [] [(d, 2)] fun e ln => ln.wrPair d (BitVec.ofNat 64 e.s.ns)

/-- SIGNAL [a], b (R370): performed at commit. -/
def execSignal (h : Hdr) (a b : Reg) : State → Host.Outcome State Fault Refusal :=
  lanewise h [(a, 2), (b, 1)] [] fun e ln =>
    let ea := e.rdPair ln a
    if ea.toNat % 8 ≠ 0 then ln.raise e.p.pc cOPERAND
    else if ln.hyp ≠ 0 then ln.raise e.p.pc cHYP
    else ln.record e.p.pc (.signal ea (e.rd ln b))

/-- MODW modifies the next word of the block (R44, R204). -/
def execModw (rm : BitVec 2) (alt : Bool) (fill nf : BitVec 2) (s : State) : Host.Outcome State Fault Refusal :=
  match s.issue with
  | none => .refused .noPackIssued
  | some p =>
    match s.team? p.team with
    | none => .fault .strayPack
    | some _ => .next (s.toFlight { p.advance false with modw := ⟨rm, alt, fill, nf⟩ })

end Sys2Proof.Machine
end

