-- ==== Sys2Proof/Machine/Commit.lean ====
section
/-! DEFINITION. The operations of a block as the commit of one thread performs them (line 7 of R143): the accesses whose translations
are checked, memory-class operations in program order (R254 to R274, R287 to R304, R322 to R330, R343 to R345), then SIGNALs and
appends (R74, R370), barrier arrivals (R163) and the rest of the thread's next state. -/

namespace Sys2Proof.Machine

/-- Who commits: the thread, where it stands, its HYP and WB at block start, its block and its pack. -/
structure Who where
  team  : Nat
  tid   : Nat
  mast  : Nat
  ctx   : Nat
  hyp   : Nat
  wb    : Nat
  block : Nat
  det   : Bool
  codeBase : Nat
  pack  : Nat

/-- The writes of the thread (R336, R337). -/
def Who.writer (w : Who) : Writer := ⟨w.ctx, w.hyp, some w.mast⟩

/-- Apply a function to the committing thread. -/
def State.onThread (s : State) (w : Who) (f : Thread → Thread) : State :=
  s.onTeam w.team fun t => t.setThread w.tid (f (t.thread w.tid))
/-- The committing thread. -/
def State.threadOf (s : State) (w : Who) : Thread := ((s.team? w.team).map fun t => t.thread w.tid).getD default

/-! ### Accesses and their translations (R127, R255) -/

/-- A global access of an operation that is translated at commit: address, bytes, what it needs; a read of a pattern carries the failure
of its translation as it executed (R195; log entry 74). -/
structure Access where
  word  : Nat
  va    : Nat
  n     : Nat
  acc   : Acc
  fault : Option (Nat × Nat)

/-- Bytes of an LD or ST width code. -/
def opBytes (w : Nat) : Nat := widthBytes (BitVec.ofNat 3 w)

/-- The accesses of an operation that line 5 of R143 checks. -/
def OpRec.accesses (codeBase : Nat) (o : OpRec) : List Access :=
  let a := fun (va n : Nat) (acc : Acc) => if n = 0 then [] else [⟨o.word, va, n, acc, none⟩]
  match o.op with
  | .load ea w _ => a ea.toNat (opBytes w) .rd
  | .store ea bs => a ea.toNat bs.length .wr
  | .cpAsync src _ v _ _ => a src.toNat v .rd
  | .cpPlane src _ fmt sc _ _ => a src.toNat (groupElemBytes fmt) .rd ++ (if fmt ≤ 2 then a sc.toNat 16 .rd else [])
  | .cpOut dst _ c _ => a dst.toNat c .wr
  | .atom ea _ ty _ _ _ => a ea.toNat (if ty = 2 then 8 else 4) .wr
  | .atomb ea _ ty _ _ => a ea.toNat (if ty = 2 then 8 else 4) .wr
  | .ldacq ea n _ _ => a ea.toNat n .rd
  | .strel ea bs _ => a ea.toNat bs.length .wr
  | .sample _ slot _ _ _ => a (headerVa codeBase slot) 64 .rd
  | .signal ea _ => a ea.toNat 8 .wr
  | .append list _ _ => a list.toNat 4 .wr ++ a (list.toNat + 4) 4 .rd
  | .patRead ea e => [⟨o.word, ea.toNat, 32, .rd, e⟩]
  | _ => []

/-- The first access of a mast, in program order, whose translation fails: its word, cause and address (R127). -/
def State.firstFault (s : State) (m : Nat) (c : Ctx) : List Access → Option (Nat × Nat × Nat)
  | [] => none
  | a :: r => match a.fault, s.xrange c a.va a.n a.acc (some m) with
    | some e, _ | none, .error e => some (a.word, e.1, e.2)
    | none, .ok _ => s.firstFault m c r

/-- Keep the leaves that a list of accesses of a mast used (R126). -/
def State.keepLeaves (s : State) (m : Nat) (c : Ctx) : List Access → State
  | [] => s
  | a :: r => ((s.tlbKeepLeaf c a.va a.acc m).tlbKeepLeaf c (a.va + a.n - 1) a.acc m).keepLeaves m c r

/-! ### Performing operations -/

/-- The state of a commit under way: the device, the earliest trap that an operation has raised, what the thread will wait for, and the
tags that operations have counted up, one entry for each (R261). -/
structure CommitSt where
  s     : State
  trap  : Option TrapRec
  waits : List Wait
  tags  : List Nat

/-- The position of a word in its block. -/
def wordPos (block word : Nat) : Nat := (word + 2 ^ 32 - block) % 2 ^ 32
/-- The earlier of two traps in program order (R143 line 3, R348). -/
def earlierTrap (block : Nat) : Option TrapRec → Option TrapRec → Option TrapRec
  | some a, some b => some (if wordPos block b.word < wordPos block a.word then b else a)
  | some a, none => some a
  | none, b => b
/-- An operation raises a trap. -/
def CommitSt.raise (a : CommitSt) (w : Who) (word code : Nat) : CommitSt :=
  { a with trap := earlierTrap w.block a.trap (some ⟨code, 0, word⟩) }
/-- Change the device. -/
def CommitSt.st (a : CommitSt) (s : State) : CommitSt := { a with s := s }
/-- An operation counts on a tag. -/
def CommitSt.count (a : CommitSt) (tag : Nat) : CommitSt := { a with tags := a.tags ++ [tag] }

/-- The words of successive groups of four bytes. -/
def chunkWords : List (Byte × Bool) → List (Word × Bool)
  | a :: b :: c :: d :: r => (d.1 ++ c.1 ++ b.1 ++ a.1, a.2 || b.2 || c.2 || d.2) :: chunkWords r
  | _ => []
/-- The words of a load (R258). -/
def loadWords (w : Nat) (bs : List (Byte × Bool)) : List (Word × Bool) :=
  let b := fun i => bs.getD i (0, false)
  if w = 0 then [((b 0).1.setWidth 32, (b 0).2)]
  else if w = 5 then [((b 0).1.signExtend 32, (b 0).2)]
  else if w = 1 then [(((b 1).1 ++ (b 0).1).setWidth 32, (b 0).2 || (b 1).2)]
  else chunkWords bs

/-- A result on its way with its words known. -/
def Who.known (w : Who) (dst : Reg) (ws : List (Word × Bool)) (p : Option (Nat × Bool) := none) : Result :=
  ⟨landRegs w.wb dst ws.length, p, 0, .words ws⟩
/-- A result on its way whose words come later. -/
def Who.later (w : Who) (dst : Reg) (n : Nat) (v : Pending) : Result := ⟨landRegs w.wb dst n, none, 0, v⟩
/-- The thread awaits a result. -/
def State.awaits (s : State) (w : Who) (r : Result) : State := s.onThread w fun x => x.await r

/-- The translated pieces of an access of the block, as its check found them (`s0` is the state before the commit). -/
def State.pieces (s0 : State) (w : Who) (va n : Nat) (acc : Acc) : List (Loc × Nat) :=
  match s0.xrange (s0.ctxD w.ctx) va n acc (some w.mast) with
  | .ok l => l
  | .error _ => []

/-- The state as it would be with COMP and PEER accepted (R90): where a page lies does not hang on the features. -/
def State.withPageFeatures (s : State) : State :=
  { s with start := { s.start with st := .running, featAccept := s.start.featAccept ||| BitVec.twoPow 256 9 ||| BitVec.twoPow 256 10 } }
/-- The pages of a range that have a leaf, whatever it permits and whatever feature it needs, by where they lie. -/
def State.pageLocs (s : State) (c : Ctx) (m : Nat) : Nat → Nat → Nat → List Loc
  | 0, _, _ => []
  | fuel + 1, va, n =>
    if n = 0 then []
    else
      let k := min n (4096 - va % 4096)
      let r := s.pageLocs c m fuel (va + k) (n - k)
      match s.withPageFeatures.xlate c va .rd (some m) with
      | .ok l => l :: r
      | .error _ => r
/-- A version write to a page outside local HBM (R336): the page need not permit the write, nor need the other pages of the access be
there, since the trap comes before any translation fault (R143). -/
def State.versionBad (s0 : State) (w : Who) (va n : Nat) : Bool :=
  w.hyp != 0 && (s0.pageLocs (s0.ctxD w.ctx) w.mast (n / 4096 + 2) va n).any fun l => l.port.isSome || !isHbm l.pa

/-- A store of the thread (R259). -/
def State.storeAs (s : State) (w : Who) (segs : List (Loc × Nat)) (bs : List (Byte × Bool)) : State :=
  (s.shieldJobs w.mast w.team w.tid (s.ctxD w.ctx) w.hyp segs).writeSegs w.writer segs bs

/-- The thread's samples that stand before an access make no later read of its bytes than it (R315). -/
def State.heldBy (s : State) (w : Who) (segs : List (Loc × Nat)) (bs : List (Byte × Bool)) : State :=
  s.holdBytes w.mast (fun j => j.team == w.team && j.tid == w.tid) (heldAt (segLocs segs) bs)

/-- An operation that counts on a tag enters the device's copies (R261). -/
def State.startCopy (s : State) (w : Who) (word tag : Nat) (kind : CopyKind) (segs scales : List (Loc × Nat)) : State :=
  let (id, s1) := s.fresh
  let s2 := s1.onThread w fun x => x.countUp tag
  { s2 with asyncs := s2.asyncs ++ [⟨id, w.team, w.tid, tag, w.hyp, w.block, word, kind, segs, scales, [], false, none⟩] }

/-- An atomic at its home (R324, R325). -/
def State.atomAs (s : State) (w : Who) (l : Loc) (op ty scope : Nat) (ws : List Word) (dst : Option Reg) : State :=
  let n := if ty = 2 then 8 else 4
  let num := fun (k : Nat) => ((ws.drop (k * (n / 4))).take (n / 4)).foldr (fun (x : Word) a => x.toNat + 2 ^ 32 * a) 0
  let s1 := s.shieldJobs w.mast w.team w.tid (s.ctxD w.ctx) w.hyp [(l, n)]
  let r := s1.rmw (s1.ctxD w.ctx) w.writer l n scope (op == 6) fun old => atomNew op ty old (num 0) (num 1)
  match dst with
  | none => r.1
  | some d => r.1.awaits w (w.known d ((leWords (natLE r.2.1 n)).map fun x => (x, r.2.2)))

/-- A contribution of ATOMB (R326): to the staging buffer, or to the team's DET entries. -/
def State.atombAs (s : State) (w : Who) (va : Nat) (l : Loc) (op ty scope value : Nat) : State :=
  if w.det then
    let (id, s1) := s.fresh
    s1.onTeam w.team fun t =>
      { t with staging := t.staging ++ [⟨va, l, op, ty, scope, value, w.tid, (t.thread w.tid).aflush + 1, id⟩] }
  else
    let m := s.mast w.mast
    s.setMast { m with staging := stageAdd ⟨w.team, w.ctx, va, l, op, ty, scope, value⟩ m.staging }

/-- FENCE (R322) at TEAM scope and above: kind 0 is ACQ, 1 REL and 2 AR. -/
def State.fenceAs (s : State) (w : Who) (scope kind : Nat) : State :=
  let s1 := if kind ≠ 0 then s.release w.team w.tid scope else s
  if kind ≠ 1 ∧ 2 ≤ scope then s1.acquire w.mast else s1

/-- LDACQ (R323): below DEVICE scope as LD; else its location is read at its home, in host memory itself at SYSTEM scope (R320), and
the mast acquires. The mast's own copies of the location go, so that no later load of the thread reads an older value (R315). -/
def State.ldacqAs (s : State) (w : Who) (segs : List (Loc × Nat)) (n scope : Nat) (dst : Reg) : State :=
  let c := s.ctxD w.ctx
  let code := if n = 8 then 3 else 2
  if scope ≤ 1 then
    let r := s.l1Segs w.mast c w.hyp segs
    (r.1.heldBy w segs r.2).awaits w (w.known dst (loadWords code r.2))
  else
    let s1 := if scope = 3 then
        segs.foldl (fun (a : State) x => if x.1.port.isNone && isHost x.1.pa then a.hostPurge x.1.pa else a) s
      else s
    let s2 := s1.onMast (some w.mast) fun m => segs.foldl (fun (x : Mast) g => if g.1.port.isSome then x else x.l1DropLine g.1.pa) m
    let r := s2.homeSegs c w.hyp segs
    ((r.1.heldBy w segs r.2).awaits w (w.known dst (loadWords code r.2))).acquire w.mast

/-- ACQR (R330) at a victim mast of the context, then the thread's device acquire. -/
def State.acqrAs (s : State) (w : Who) (q : Nat) : Nat × State :=
  let victim := (coreMasts (s.ctxD w.ctx).coreSet).getD q 0
  let n := ((s.mast victim).staging.filter fun e => e.ctx == w.ctx).length
  let (ks, s1) := s.choices n
  let s2 := s1.flushWhere victim (fun e => e.ctx == w.ctx) ks
  let m := s2.mast victim
  let s3 := (s2.setMast { m with l1 := m.l1.filter fun x => x.ctx != w.ctx }).acquire w.mast
  let (id, s4) := s3.fresh
  (id, { s4 with running := s4.running ++ [.acqr id w.ctx w.mast victim w.team] })

/-- MX.ISSUE and MX.ZERO enter the mast's queue and count on their tag (R303, R304). -/
def State.enterMx (s : State) (w : Who) (word : Nat) (zero : Bool) (params : List Byte) (tile tag passes : Nat) : State :=
  let (id, s1) := s.fresh
  let s2 := s1.onThread w fun x => x.countUp tag
  let m := s2.mast w.mast
  s2.setMast { m with mxq := m.mxq ++ [⟨id, w.team, w.tid, zero, params, tile, tag, w.block, word, passes⟩] }

/-- An accumulator operation enters its tile's order (R274). -/
def State.enterAcc (s : State) (w : Who) (word tile elem : Nat) (kind : AccKind) : Nat × State :=
  let (id, s1) := s.fresh
  (id, s1.onTeam w.team fun t => { t with accOps := t.accOps ++ [⟨id, w.tid, word, tile, elem, kind⟩] })

/-- A mast's lowest free payload slot (R131). -/
def Mast.freeSlot (m : Mast) : Option Nat := (List.range 4).find? fun k => !m.ring.any (·.slot == k)

/-- TASKOUT (R135): a slot of the ring takes the payload, and n mesh teams wait for admission. -/
def State.taskoutAs (s : State) (w : Who) (n off : Nat) : State :=
  match s.team? w.team with
  | none => s
  | some t =>
    let l := s.launchD t.launch
    match (s.mast w.mast).freeSlot, l.draw with
    | some k, some d =>
      let m := s.mast w.mast
      let s1 := s.setMast { m with ring := m.ring ++ [⟨k, l.id, t.deckGet off d.payload, n⟩] }
      let reqs := (List.range n).map fun i =>
        (⟨w.mast, some k, t.num, w.tid * 2 ^ 40 + t.taskouts, i, n⟩ : MeshReq)
      (s1.setLaunch { l with draw := some { d with meshes := d.meshes ++ reqs } }).setTeam { t with taskouts := t.taskouts + 1 }
    | _, _ => s

/-- HSTATE's layout (R344). -/
def hstateWord (e : HypEntry) : Word :=
  let code := match e.st with
    | .free => 0
    | .opened => 1
    | .merged => 2
    | .refuted => 3
    | .scrubbing => 4
  let par := match e.st with
    | .free => 0
    | .merged => e.link
    | _ => e.parent
  let dep := match e.st with
    | .free | .merged => 0
    | _ => e.depth
  BitVec.ofNat 32 (code + 256 * par + 65536 * dep)

/-- A thread whose resolved HYP changes reads through another view from then on: its mast drops that view's lines, so that no read of
the thread returns an older value than one it has read or written under the view it leaves (R315, R341; log entry 94). -/
def State.enterView (s : State) (w : Who) (old new : Nat) : State :=
  if old = new then s else s.onMast (some w.mast) fun m => m.l1DropView w.ctx new

/-- HOPEN (R343): `hs` is the table as the thread sees it. No L1 line is left with the view tag of an earlier use of the ID, whose
writes no read of the new one may see (R337). -/
def State.hopenAs (s : State) (w : Who) (hs : List (Nat × HypEntry)) (dst : Reg) (pf : Nat) : State :=
  let c := s.ctxD w.ctx
  let h := resolveHyp hs w.hyp
  match lowestFree c.hyps with
  | some n =>
    if (hypAt hs h).depth = 8 then s.awaits w (w.known dst [(0, false)] (some (pf, true)))
    else ((s.forgetView w.ctx n).setCtx { c with hyps := openHyp c.hyps n h }).awaits w (w.known dst [(BitVec.ofNat 32 n, false)] (some (pf, false)))
  | none => s.awaits w (w.known dst [(0, false)] (some (pf, true)))

/-- A resolve by the thread takes its place in the order, and the thread waits for it (R343). -/
def CommitSt.resolveBy (a : CommitSt) (w : Who) (s : State) (r : ResolveOp) : CommitSt :=
  let (id, s1) := s.startResolve w.ctx none (some w.team) r
  { a with s := s1, waits := a.waits ++ [.op id] }
/-- The table as the thread's instructions read it: as it stands, with the thread's own earlier resolves of the block (R343, R344). -/
def CommitSt.hyps (a : CommitSt) (w : Who) : List (Nat × HypEntry) :=
  a.s.hypsAhead w.ctx (some (a.waits.filterMap fun x => match x with
    | .op id => some id
    | _ => none))

/-- What an operation finds of its thread's own CP.OUTs in flight (R315, R321): those of its own locations are written; a sample finds
all of them written, since its texels lie where its header says. -/
def State.settleFor (s s0 : State) (w : Who) (o : OpRec) : State :=
  if s.asyncs.any fun a => a.team == w.team && a.tid == w.tid && a.isOut then
    match o.op with
    | .sample .. => s.settleOuts w.team w.tid fun _ => true
    | _ =>
      let ls := (o.accesses w.codeBase).flatMap fun x => segLocs (s0.pieces w x.va x.n x.acc)
      s.settleOuts w.team w.tid ls.contains
  else s

/-- One memory-class operation, or another operation that its place in program order decides. -/
def commitOp (s0 : State) (w : Who) (o : OpRec) (a : CommitSt) : CommitSt :=
  let s := a.s.settleFor s0 w o
  let c := s.ctxD w.ctx
  match o.op with
  | .load ea k dst =>
    let g := s0.pieces w ea.toNat (opBytes k) .rd
    let r := s.l1Segs w.mast c w.hyp g
    a.st ((r.1.heldBy w g r.2).awaits w (w.known dst (loadWords k r.2)))
  | .store ea bs =>
    if s0.versionBad w ea.toNat bs.length then a.raise w o.word cHYP
    else a.st (s.storeAs w (s0.pieces w ea.toNat bs.length .wr) bs)
  | .deckLoad off n dst => a.st (s.awaits w (w.known dst (chunkWords (((s.team? w.team).map fun t => t.deckGet off n).getD []))))
  | .deckStore off bs => a.st (s.onTeam w.team fun t => (t.deckPuts off bs).markDeck off bs.length 0)
  | .cpAsync src off v tag keep =>
    (a.st (s.startCopy w o.word tag (.async src off v keep) (s0.pieces w src.toNat v .rd) [])).count tag
  | .cpPlane src off fmt sc tag keep =>
    (a.st (s.startCopy w o.word tag (.plane src off fmt sc keep) (s0.pieces w src.toNat (groupElemBytes fmt) .rd)
      (if fmt ≤ 2 then s0.pieces w sc.toNat 16 .rd else []))).count tag
  | .cpOut dst off n tag =>
    if n = 0 then a.count tag
    else if s0.versionBad w dst.toNat n then a.raise w o.word cHYP
    else (a.st (s.startCopy w o.word tag (.out dst off n) (s0.pieces w dst.toNat n .wr) [])).count tag
  | .tagGet k dst =>
    let x := s.threadOf w
    let v := BitVec.ofNat 32 (x.count k % 256 + if x.tagErr.getD k false then 256 else 0)
    a.st ((s.onThread w fun y => { y with tagErr := y.tagErr.set k false }).awaits w (w.known dst [(v, false)]))
  | .prefetch ea =>
    match s0.xrange c (ea.toNat / 128 * 128) 128 .rd (some w.mast) with
    | .ok g => if (segLocs g).any (fun l => (s.viewByte c w.hyp l).2) then a else a.st (s.l1Segs w.mast c w.hyp g).1
    | .error _ => a
  | .accRead elem tile fmt dst =>
    let r := s.enterAcc w o.word tile elem (.read fmt)
    a.st (r.2.awaits w (w.later dst (accRegs (BitVec.ofNat 3 fmt)) (.acc r.1)))
  | .accWrite elem tile fmt ws => a.st (s.enterAcc w o.word tile elem (.write fmt ws)).2
  | .atom ea op ty scope ws dst =>
    if s0.versionBad w ea.toNat (if ty = 2 then 8 else 4) then a.raise w o.word cHYP
    else match s0.pieces w ea.toNat (if ty = 2 then 8 else 4) .wr with
      | [] => a
      | g => a.st (s.atomAs w (g.headD default).1 op ty scope ws dst)
  | .atomb ea op ty scope value =>
    match s0.pieces w ea.toNat (if ty = 2 then 8 else 4) .wr with
    | [] => a
    | g => a.st (s.atombAs w ea.toNat (g.headD default).1 op ty scope value)
  | .fence scope kind => if scope = 0 then a else a.st (s.fenceAs w scope kind)
  | .ldacq ea n scope dst => a.st (s.ldacqAs w (s0.pieces w ea.toNat n .rd) n scope dst)
  | .strel ea bs scope =>
    if s0.versionBad w ea.toNat bs.length then a.raise w o.word cHYP
    else a.st ((s.release w.team w.tid scope).storeAs w (s0.pieces w ea.toNat bs.length .wr) bs)
  | .acqr q =>
    let r := s.acqrAs w q
    { a with s := r.2, waits := a.waits ++ [.op r.1] }
  | .aflush =>
    if w.det then
      let i := (s.threadOf w).aflush + 1
      { a with s := s.onThread w fun x => { x with aflush := i }, waits := a.waits ++ [.epoch i] }
    else
      let (id, s1) := s.fresh
      { a with s := { s1 with running := s1.running ++ [.flush id w.team] }, waits := a.waits ++ [.op id] }
  | .sample kind slot ops derivs dst =>
    let (id, s1) := s.fresh
    let j : SampleJob := ⟨id, w.team, w.tid, w.ctx, slot, s1.slotGen w.mast w.ctx slot, w.hyp, kind, ops, derivs, [], []⟩
    a.st ((s1.awaits w (w.later dst 4 (.job id))).advanceJob w.mast (headerVa w.codeBase slot) j)
  | .hinv slot =>
    let (id, s1) := (s.hinvSlot w.mast w.ctx slot).fresh
    { a with s := { s1 with running := s1.running ++ [.hinv id w.ctx slot w.mast] }, waits := a.waits ++ [.op id] }
  | .wpin slot => a.st (s.pinSlot w.mast w.ctx slot (headerVa w.codeBase slot))
  | .wunpin slot =>
    let m := s.mast w.mast
    a.st (s.setMast { m with pins := m.pins.filter fun p => !(p.ctx == w.ctx && p.slot == slot) })
  | .smma dst ws =>
    let (id, s1) := s.fresh
    let m := s1.mast w.mast
    a.st ((s1.setMast { m with smmaq := m.smmaq ++ [⟨id, w.team, w.tid, w.pack, o.word, ws.map fun x => (x, false)⟩] }).awaits w
      (w.later dst 8 (.job id)))
  | .mxIssue off =>
    let p := (((s.team? w.team).map fun t => t.deckGet off 64).getD []).map (·.1)
    let sh := ((s.team? w.team).map fun t => t.shape).getD default
    (a.st (s.enterMx w o.word false p (mxTile p) (mxTag p) (if mxValid sh p && mxCtrl p % 4 != 2 then mxField p 8 2 else 0))).count (mxTag p)
  | .mxZero t k => (a.st (s.enterMx w o.word true [] t k 0)).count k
  | .hopen dst pf => a.st (s.hopenAs w (a.hyps w) dst pf)
  | .hset x =>
    let e := hypAt (a.hyps w) x.toNat
    if 255 < x.toNat ∨ (e.st ≠ .opened ∧ e.st ≠ .merged) then a.raise w o.word cHYP
    else a.st ((s.enterView w (resolveHyp c.hyps w.hyp) (resolveHyp (a.hyps w) x.toNat)).onThread w fun y =>
      { y with hyp := resolveHyp (a.hyps w) x.toNat })
  | .hget dst => a.st (s.awaits w (w.known dst [(BitVec.ofNat 32 (resolveHyp (a.hyps w) w.hyp), false)]))
  | .hconfirm x =>
    if confirmBad (s.hypsAhead w.ctx) x.toNat then a.raise w o.word cHYP
    else a.resolveBy w (s.release w.team w.tid 2) ⟨true, x.toNat, some w.mast⟩
  | .hrefute x =>
    if refuteBad (s.hypsAhead w.ctx) x.toNat then a.raise w o.word cHYP
    else if (hypAt (s.hypsAhead w.ctx) x.toNat).st = .opened then a.resolveBy w s ⟨false, x.toNat, none⟩
    else a
  | .hstate x dst => a.st (s.awaits w (w.known dst [(hstateWord (hypAt (a.hyps w) x.toNat), false)]))
  | .horphan x => a.st (s.onTeam w.team fun t => { t with orphan := if x = 0xFFFFFFFF then none else some x.toNat })
  | .taskout n off => a.st (s.taskoutAs w n off)
  | .vtxout slot ws =>
    a.st (s.onTeam w.team fun t =>
      { t with verts := putBy (fun v => v.1 == w.tid && v.2.1 == slot) (w.tid, slot, ws) t.verts })
  | .primout x => a.st (s.onTeam w.team fun t => { t with prims := alPut w.tid x t.prims })
  | .pixout k ws => a.st (s.onThread w fun x => { x with exports := alPut k ws x.exports })
  | .kill => a.st (s.onThread w fun x => { x with killed := true })
  | .tilef dst px i =>
    let ans := ((s.team? w.team).map fun t => t.held.find? fun x => x.1 ≤ i && x.2.isNone).getD none
    let k : Option Nat := match ans with
      | some _ => none
      | none => ((s.team? w.team).bind fun t => alGet i t.held).getD none
    let v : Word := match k with
      | some t => BitVec.ofNat 32 t
      | none => 0xFFFFFFFF
    a.st (s.onThread w fun x =>
      let y := x.putWords (landRegs w.wb dst 1) [(v, false)]
      { y with preds := Machine.setPred y.preds px k.isNone })
  | .maskSet m v => a.st (s.onTeam w.team fun t => t.setMasks s0.cycle (alPut (8 * (w.tid / 32) + m) v t.masks))
  | .maskJoin m =>
    a.st (s.onTeam w.team fun t =>
      let k := 8 * (w.tid / 32) + m
      t.setMasks s0.cycle (alPut k (alGetD t.masks k 0 ||| BitVec.twoPow 32 (w.tid % 32)) t.masks))
  | .maskClear m =>
    a.st (s.onTeam w.team fun t =>
      let k := 8 * (w.tid / 32) + m
      t.setMasks s0.cycle (alPut k (alGetD t.masks k 0 &&& ~~~BitVec.twoPow 32 (w.tid % 32)) t.masks))
  | .teamWrite n x =>
    a.st (s.onTeam w.team fun t =>
      if n = 0x08 then
        let fill := if x.toNat % 64 = 0 ∨ 32 < x.toNat % 64 then 32 else x.toNat % 64
        let age := if bits x.toNat 16 16 < 256 then 256 else bits x.toNat 16 16
        { t with seqcfg := BitVec.ofNat 32 (fill + 256 * bits x.toNat 8 8 + 65536 * age) }
      else if 0x20 ≤ n ∧ n ≤ 0x40 then { t with loss := alPut (n - 0x20) x t.loss }
      else t)
  | .barArrive .. | .signal .. | .append .. | .patRead .. => a

/-- Perform the memory-class operations in program order. -/
def commitOps (s0 : State) (w : Who) : List OpRec → CommitSt → CommitSt
  | [], a => a
  | o :: r, a => commitOps s0 w r (commitOp s0 w o a)

/-! ### SIGNALs and appends (R74, R228, R370) -/

/-- One append (R74), and whether its entry is a version write to a page outside local HBM, which traps (R336). An entry slot whose page
fails translation or is not writable raises nothing and the count stands (R74, R228). CAP is read at its home (log entry 100). -/
def State.appendAs (s0 s : State) (w : Who) (list : Nat) (index value : Word) : State × Bool :=
  match s0.pieces w list 4 .wr, s0.pieces w (list + 4) 4 .rd with
  | (lc, _) :: _, (lp, _) :: _ =>
    let c := s.ctxD w.ctx
    let cap := s.peekBytes c w.hyp lp 4
    if (s.peekBytes c w.hyp lc 4).any (·.2) || cap.any (·.2) then (s, false)
    else
      let s1 := s.shieldJobs w.mast w.team w.tid c w.hyp [(lc, 4)]
      let r := s1.rmw (s1.ctxD w.ctx) w.writer lc 4 2 false fun old => some ((old + 1) % 2 ^ 32)
      if r.2.1 < leNat (cap.map (·.1)) then
        match s0.xrange (s0.ctxD w.ctx) (list + 8 + 8 * r.2.1) 8 .wr (some w.mast) with
        | .ok g =>
          ((r.1.settleOuts w.team w.tid (segLocs g).contains).storeAs w g ((natLE index.toNat 4 ++ natLE value.toNat 4).map fun b => (b, false)), s0.versionBad w (list + 8 + 8 * r.2.1) 8)
        | .error _ => (r.1, false)
      else (r.1, false)
  | _, _ => (s, false)

/-- A SIGNAL or an append in program order. -/
def commitLate (s0 : State) (w : Who) (o : OpRec) (a : CommitSt) : CommitSt :=
  let s := a.s.settleFor s0 w o
  match o.op with
  | .signal ea v =>
    match s0.pieces w ea.toNat 8 .wr with
    | [] => a
    | g =>
      let s1 := s.release w.team w.tid 3
      let s2 := s1.shieldJobs w.mast w.team w.tid (s1.ctxD w.ctx) 0 g
      a.st (s2.rmw (s2.ctxD w.ctx) w.writer (g.headD default).1 8 3 false fun old => some ((old + v.toNat) % 2 ^ 64)).1
  | .append list index value =>
    if s0.versionBad w list.toNat 4 then a.raise w o.word cHYP
    else
      let r := s0.appendAs s w list.toNat index value
      if r.2 then a.raise w o.word cHYP else a.st r.1
  | .barArrive n c last =>
    let s1 := s.release w.team w.tid 1
    match s1.team? w.team with
    | none => a
    | some t =>
      if t.barBad w.tid n c then a.raise w o.word cOPERAND
      else a.st (s1.setTeam (t.arrive w.det s1.cycle w.tid n c last))
  | _ => a
/-- Perform SIGNALs, appends and arrivals in program order. -/
def commitLates (s0 : State) (w : Who) : List OpRec → CommitSt → CommitSt
  | [], a => a
  | o :: r, a => commitLates s0 w r (commitLate s0 w o a)

/-! ### The thread after its commit -/

/-- The registers, predicates, counters and status that the block leaves (R142, R174, R63). -/
def Thread.take (x : Thread) (ln : Lane) : Thread :=
  { x with
    v := ln.v, poison := ln.poison, preds := ln.preds, status := ln.statusOut, rngs := ln.rngs, tilef := ln.tilef
    wb := ln.win.getD x.wb, recPend := false }

/-- The wait conditions that a commit imposes beside results and operations (R140). -/
def Lane.newWaits (ln : Lane) (x : Thread) (cycle : Nat) : List Wait :=
  (match ln.tagWait with
    | some (k, n) => if n < x.count k then [.tag k n] else []
    | none => []) ++
  (match ln.pause with
    | some n => [.pause (cycle + n)]
    | none => []) ++
  ln.barWait.filterMap fun n => (alGet n x.barPend).map fun ph => .barrier n ph

/-- A pixel thread that has exited delivers its exports once, unless it is a helper or has performed KILL (R138, R396). -/
def State.deliverPixel (s : State) (team tid : Nat) : State :=
  match s.team? team with
  | none => s
  | some t =>
    let x := t.thread tid
    match x.pix with
    | none => s
    | some p =>
      let s1 := s.setTeam (t.setThread tid { x with pix := none, exports := [] })
      let l := s.launchD t.launch
      match l.draw with
      | none => s1
      | some d =>
        if p.helper || x.killed then s1
        else s1.setLaunch { l with draw := some { d with pixels := d.pixels ++ [⟨p.x, p.y, p.order, p.depth, x.exports⟩] } }

/-- The thread leaves its pack: it exits, or stands in the bin of its next block under its wait conditions. -/
def State.leavePack (s : State) (w : Who) (ln : Lane) (next : Nat) (waits : List Wait) : State :=
  match s.team? w.team with
  | none => s
  | some t =>
    let x := t.thread w.tid
    if ln.exits then (s.setTeam (t.exitThread w.det s.cycle w.tid)).deliverPixel w.team w.tid
    else
      let ws := waits ++ ln.newWaits x s.cycle
      let ws := if (s.ctxD w.ctx).orphan x then ws.filter fun y => !y.dropsForOrphan else ws
      s.setTeam (t.stand s.cycle w.tid next ws)

/-- The whole commit of a thread on trial (line 7 of R143): the state after it, and the earliest trap that its operations raised. -/
def State.commitThread (s : State) (w : Who) (ln : Lane) : CommitSt :=
  let s1 := s.onThread w fun x => x.take ln
  commitLates s w ln.ops (commitOps s w ln.ops ⟨s1, none, [], []⟩)

end Sys2Proof.Machine
end

