-- ==== Sys2Proof/Machine/Resolve.lean ====
section
/-! DEFINITION. BLOCK_RESOLVE: a pack at the end of its block resolves its threads by the lines of R143, in ascending lane order
(R144); tile requests are made before (R121, R197); a pack is held for full tags (R261), a full array queue (R303) or a full
staging buffer (R326). -/

namespace Sys2Proof.Machine

/-! ### Tile requests (R121, R197, R198) -/

/-- The tiles of a launch's tile space (R120). -/
def Launch.tileCount (l : Launch) : Nat := l.tilesX * l.tilesY * l.tilesZ

/-- The team's next request is answered by the dispenser (R121). -/
def State.tileRequest (s : State) (t : Team) : State :=
  let l := s.launchD t.launch
  let i := t.tilefNext
  let put := fun (a : Option Nat) => { t with tilefNext := i + 1, held := alPut i a t.held }
  if t.stage ≠ .compute ∨ l.tileCount = 0 then s.setTeam (put none)
  else if l.det then
    let k := t.num + l.teams * t.detPos
    s.setTeam { put (if l.tileCount ≤ k then none else some k) with detPos := t.detPos + 1 }
  else
    (s.setLaunch { l with cursor := l.cursor + 1, cursorAt := some (s.cycle, t.mast) }).setTeam (put (if l.tileCount ≤ l.cursor then none else some l.cursor))

/-- Whether an answer numbered i or below is an exhaustion (R198). -/
def Team.exhausted (t : Team) (i : Nat) : Bool := t.held.any fun x => x.1 ≤ i && x.2.isNone
/-- Whether some live thread lags sixteen answers behind (R198). -/
def Team.lagging (t : Team) (i : Nat) : Bool := t.threads.any fun x => x.live && x.tilef + 16 ≤ i

/-- The TILEFs of a lane: word and answer number. -/
def Lane.tilefs (ln : Lane) : List (Nat × Nat) := ln.ops.filterMap fun o => match o.op with
  | .tilef _ _ i => some (o.word, i)
  | _ => none

/-- Whether the dispenser can serve a pack in this cycle: the requests that reach it in one cycle go in ascending logical mast number,
which rises with the mast (R121). -/
def State.cursorServes (s : State) (t : Team) (p : Pack) : Bool :=
  match (s.launchD t.launch).cursorAt with
  | some (c, m) => !(c == s.cycle && decide (p.mast < m) &&
      p.lanes.any fun x => x.2.tilefs.any fun y => !t.exhausted y.2 && (alGet y.2 t.held).isNone)
  | none => true

/-- One lane's requests, in program order; a TILEF that R198 forbids traps and makes no request. -/
def laneRequests : List (Nat × Nat) → Nat → State → Lane → State × Lane
  | [], _, s, ln => (s, ln)
  | (word, i) :: r, team, s, ln =>
    match s.team? team with
    | none => (s, ln)
    | some t =>
      if t.exhausted i || (alGet i t.held).isSome then laneRequests r team s ln
      else if t.lagging i then
        (s, { ln with trap := match ln.trap with
                | some x => some x
                | none => some ⟨cOPERAND, 0, word⟩ })
      else laneRequests r team (s.tileRequest t) ln

/-- A TILEF's trap stands before a later instruction's (R143 line 3). -/
def withTilefTrap (block : Nat) (old new : Lane) : Lane :=
  { new with trap := earlierTrap block old.trap new.trap }

/-- The requests of every lane in ascending order. -/
def packRequests (team block : Nat) : List (Nat × Lane) → State → State × List (Nat × Lane)
  | [], s => (s, [])
  | (k, ln) :: r, s =>
    let (s1, x) := laneRequests ln.tilefs team s { ln with trap := none }
    let (s2, rest) := packRequests team block r s1
    (s2, (k, withTilefTrap block ln x) :: rest)

/-- Answers that no live thread still needs are dropped; the lowest exhaustion stays (R198). -/
def Team.pruneHeld (t : Team) : Team :=
  let low := (t.threads.filter (·.live)).foldl (fun (a : Option Nat) x => match a with
    | none => some x.tilef
    | some m => some (min m x.tilef)) none
  let ex := ((t.held.find? fun x => x.2.isNone).map (·.1)).getD 0
  match low with
  | none => t
  | some m => { t with held := t.held.filter fun x => m ≤ x.1 && x.2.isSome || x.2.isNone && x.1 == ex }

/-! ### Resources (R143 line 6) -/

/-- The overflow slots that a context's versions hold, with those its copies in flight will need (R266, R339): one whose HYP has merged
into the root writes no version, one under a refuted HYP writes nothing. -/
def State.slotsUsed (s : State) (c : Ctx) : Nat :=
  let have_ := c.versions.map fun v => (v.tag, v.block)
  let coming := s.asyncs.flatMap fun a =>
    if a.isOut && resolveHyp c.hyps a.hyp != 0 && !isOrphan c.hyps a.hyp && (s.team? a.team).any (s.ofCtx c.num) then
      (segLocs a.segs).map fun l => (resolveHyp c.hyps a.hyp, l.pa / 64)
    else []
  (have_ ++ coming).dedup.length

/-- Whether a commit under way has taken the context past its overflow area. -/
def State.slotsOver (s0 s : State) (ctx : Nat) : Bool :=
  let c := s.ctxD ctx
  let used := s.slotsUsed c
  c.hypOvfSize * 512 < used && s0.slotsUsed (s0.ctxD ctx) < used

/-- Whether an operation writes global memory, a version under a non-zero HYP (R336). -/
def MemOp.writes : MemOp → Bool
  | .store .. | .strel .. | .cpOut .. | .atom .. | .append .. => true
  | _ => false

/-- The word of the first write, in the order of the commit, that takes the context past its overflow area (R339). -/
def fullWord (w : Who) (f : OpRec → CommitSt → CommitSt) : List OpRec → CommitSt → Option Nat × CommitSt
  | [], a => (none, a)
  | o :: r, a =>
    let b := f o a
    if o.op.writes && a.s.slotsOver b.s w.ctx then (some o.word, b) else fullWord w f r b

/-- Where HYP-FULL is raised, if a write of the block finds no slot. -/
def State.hypFullWord (s : State) (w : Who) (ln : Lane) : Option Nat :=
  let s1 := s.onThread w fun x => x.take ln
  let r := fullWord w (commitOp s w) ln.ops ⟨s1, none, [], []⟩
  r.1.or (fullWord w (commitLate s w) ln.ops r.2).1
/-- HYP-FULL of a commit that leaves more slots in use than there are. -/
def State.hypFull (s after : State) (w : Who) (ln : Lane) : Option Nat :=
  if s.slotsOver after w.ctx then s.hypFullWord w ln else none

/-- The word of the ATOMB that takes the team past its entries (R326): the last one of the block. -/
def Lane.detWord (ln : Lane) (block : Nat) : Nat :=
  (((ln.ops.filter fun o => match o.op with
    | .atomb .. => true
    | _ => false).getLast?).map (·.word)).getD block

/-- The payload slots that a lane's block needs (R135). -/
def Lane.slots (ln : Lane) : Nat := (ln.ops.filter fun o => match o.op with
  | .taskout .. => true
  | _ => false).length

/-! ### Resolving -/

/-- What has come of the lanes so far: the state, the pages on which threads have become FAULTED, the threads that committed, and
whether the commit of one has taken a count above 255 (R261). -/
structure Resolved where
  s    : State
  vas  : List Nat
  done : List Nat
  full : Bool

/-- A program trap (R350, R351): the record is written, and the thread stands READY at TRAP_ENTRY; without one the launch ends with the
cycle (R352). -/
def Resolved.programTrap (a : Resolved) (w : Who) (l : Launch) (pipe code num : Nat) (va : Option Nat) (word : Nat) : Resolved :=
  let r := faultRecord code num va w.block word
  let s1 := a.s.onThread w fun x => x.record r
  match l.trapEntry with
  | some e => { a with s := s1.onTeam w.team fun t => t.stand s1.cycle w.tid e [] }
  | none => { a with s := s1.dies l.id ⟨s1.cycle, pipe, w.tid % 32, w.mast, code, r⟩ }

/-- The highest count of a tag (R261). -/
def tagMax : Nat := 255
/-- Whether the counts of a thread and what its commit adds to them pass the limit. -/
def Thread.overfull (x : Thread) (tags : List Nat) : Bool := tags.any fun k => decide (tagMax < x.count k + tags.count k)

/-- A thread parks on a translation fault (R353). -/
def Resolved.park (a : Resolved) (w : Who) (cause va word : Nat) : Resolved :=
  let r := faultRecord cause 0 (some va) w.block word
  { a with s := a.s.onThread w fun x => { x.record r with st := .faulted, next := w.block, waits := [] },
           vas := a.vas ++ [va] }

/-- An orphan follows the orphan rule (R346): its mast's L1 drops the view that it comes under, and a pixel thread that exits delivers. -/
def State.orphanThread (s : State) (c : Ctx) (w : Who) : State :=
  match s.team? w.team with
  | none => s
  | some t =>
    let u := t.orphanRule c w.det s.cycle w.tid
    let s1 := (s.setTeam u).enterViews c.num t u
    if (u.thread w.tid).st = .exited then s1.deliverPixel w.team w.tid else s1

/-- One lane resolves: the first line of R143 that holds decides. -/
def Resolved.lane (a : Resolved) (p : Pack) (w : Who) (l : Launch) (ln : Lane) : Resolved :=
  let s := a.s
  let c := s.ctxD w.ctx
  if isOrphan c.hyps w.hyp then
    { a with s := s.orphanThread c w }
  else
    let r := s.commitThread w ln
    match earlierTrap w.block ln.trap r.trap with
    | some x => a.programTrap w l p.pipe x.code x.num none x.word
    | none =>
      match ln.poisonAt with
      | some (word, va) => a.programTrap w l p.pipe cPOISON 0 va word
      | none =>
        let accs := ln.ops.flatMap (·.accesses w.codeBase)
        match s.firstFault w.mast c accs with
        | some (word, cause, va) => a.park w cause va word
        | none =>
          match s.hypFull r.s w ln with
          | some word => a.programTrap w l p.pipe cHYPFULL 0 none word
          | none =>
          if w.det && ((r.s.team? w.team).any fun t => detEntries < t.detUsed) &&
              (ln.ops.any fun o => match o.op with
                | .atomb .. => true
                | _ => false) then
            a.programTrap w l p.pipe cDETOVF 0 none (ln.detWord w.block)
          else if 4 < (s.mast w.mast).ring.length + ln.slots then
            { a with s := s.onTeam w.team fun t => t.stand s.cycle w.tid w.block [.ring] }
          else { a with s := (r.s.keepLeaves w.mast c accs).leavePack w ln (ln.next.getD p.pc) r.waits, done := a.done ++ [w.tid],
                        full := a.full || (s.threadOf w).overfull r.tags }

/-- Every lane in ascending order. -/
def Resolved.lanes (a : Resolved) (p : Pack) (who : Lane → Who) (l : Launch) : List (Nat × Lane) → Resolved
  | [] => a
  | (_, ln) :: r => (a.lane p (who ln) l ln).lanes p who l r

/-- The registers whose tags the writes of a pack's committed threads change, by warp (R177): those written, and the destinations of
its TILEFs. -/
def Pack.written (p : Pack) (done : List Nat) : List (Nat × List Nat) :=
  (p.lanes.filter fun c => done.contains c.2.tid).map fun c =>
    (c.2.tid / 32, c.2.written ++ c.2.ops.flatMap fun o => match o.op with
      | .tilef d _ _ => (landRegs c.2.wb d 1).filterMap fun r => r
      | _ => [])

/-- Recompute the tags of each warp that a pack wrote in. -/
def Team.retagPack (t : Team) (p : Pack) (done : List Nat) : Team :=
  (p.written done).foldl (fun (a : Team) c => a.retag c.1 c.2) t

/-! ### The order of a pack's operations on tiles and on the dot-product array (R274, R295, R309) -/

/-- An operation on a tile that a pack has entered: its identity, its tile, its lane and the place of its word; an MX operation or an
ACCRD or ACCWR. -/
structure TileOp where
  id   : Nat
  tile : Nat
  lane : Nat
  word : Nat
  mx   : Bool
  deriving DecidableEq, Repr
/-- The order of a pack's operations on one tile: an ACCRD or ACCWR stands by its word among the MX operations, which stand by theirs
(R309); those that no MX operation parts go by lane, then by word (R274; DEDUCED, log entry 97). -/
def TileOp.before (l : List TileOp) (a b : TileOp) : Bool :=
  let part := fun (x : TileOp) => (l.filter fun y => y.mx && y.word < x.word).length
  let key := fun (x : TileOp) => [part x, if x.mx then 1 else 0, x.lane, x.word]
  decide (key a ≤ key b)
/-- The identities of a pack's operations on one tile, dealt out anew in their order. -/
def TileOp.renumber (l : List TileOp) : List (Nat × Nat) :=
  ((l.mergeSort (TileOp.before l)).map (·.id)).zip ((l.map (·.id)).mergeSort (· ≤ ·))

/-- The operations of a pack on the tiles of its team, from identity `since` on, take the order of the instructions that entered them,
and accumulator accesses that wait for nothing are applied. -/
def State.orderTileOps (s : State) (team mast block since : Nat) : State :=
  match s.team? team with
  | none => s
  | some t =>
    let ma := s.mast mast
    let new := fun (o : MxOp) => o.team == team && since ≤ o.id
    let mxs := (ma.mxq.filter new).map fun o => (⟨o.id, o.tile, o.tid % 32, wordPos block o.word, true⟩ : TileOp)
    let accs := (t.accOps.filter fun o => since ≤ o.id).map fun o => (⟨o.id, o.tile, o.tid % 32, wordPos block o.word, false⟩ : TileOp)
    let items := mxs ++ accs
    if items.isEmpty then s
    else
      let ren := ((items.map (·.tile)).dedup).flatMap fun k => TileOp.renumber (items.filter (·.tile == k))
      let name := fun (id : Nat) => (alGet id ren).getD id
      let pend := fun (r : Result) => match r.value with
        | .acc id => { r with value := .acc (name id) }
        | _ => r
      let t1 := { t with
        accOps := (t.accOps.map fun o => { o with id := name o.id }).mergeSort fun a b => a.id ≤ b.id
        threads := t.threads.map fun x => { x with out := x.out.map pend } }
      let queue := ((ma.mxq.filter new).mergeSort fun a b => wordPos block a.word ≤ wordPos block b.word).map fun o => { o with id := name o.id }
      ((s.setTeam t1).setMast { ma with mxq := (ma.mxq.filter fun o => !new o) ++ queue }).runAccs team

/-- The SMMAs of a pack take the array one after the other, each with all its threads (R295). -/
def State.orderSmma (s : State) (mast block pack : Nat) : State :=
  let ma := s.mast mast
  let mine := fun (q : SmmaJob) => q.pack == pack
  if ma.smmaq.any mine then
    s.setMast { ma with smmaq := ma.smmaq.filter (fun q => !mine q) ++
      (ma.smmaq.filter mine).mergeSort fun a b => wordPos block a.word ≤ wordPos block b.word }
  else s

/-- The lanes of a pack resolve, after its tile requests (R121). -/
def State.resolveLanes (s : State) (t : Team) (p : Pack) : Resolved :=
  let l := s.launchD t.launch
  let (s1, lanes) := packRequests t.id p.block p.lanes s
  let who := fun (ln : Lane) =>
    (⟨t.id, ln.tid, p.mast, l.ctx, ln.hyp, ln.wb, p.block, l.det, l.codeBase, p.id⟩ : Who)
  (⟨s1, [], [], false⟩ : Resolved).lanes p who l lanes
/-- The whole pack has resolved. Its tags are recomputed once its threads have exited or gone on (R177; DESIGN CHOICE, log entry 100). -/
def State.resolvePack (s : State) (t : Team) (p : Pack) (r : Resolved) : State :=
  let l := s.launchD t.launch
  let was := s.fcount l.ctx
  let so := (r.s.orderTileOps t.id p.mast p.block s.nextId).orderSmma p.mast p.block p.id
  let s2 := { so with flight := so.flight.filter (·.id != p.id), free := so.free + 1 }
  let s3 := s2.onTeam t.id fun u => (u.retagPack p r.done).pruneHeld
  (s3.noteFaults l was r.vas).tidyHyps l.ctx

/-- A pack is held at the end of its block while a tag that it counts on, or the array queue that it adds to, would pass its limit
(R261, R297). -/
def State.mustHold (s s' : State) (p : Pack) (r : Resolved) : Bool :=
  let n := (s'.mast p.mast).mxq.length
  r.full || (decide (mxQueueLen < n) && decide ((s.mast p.mast).mxq.length < n))

/-- Entries of a mast's staging buffer for the teams without DET: each DET team on the mast has its own (R326). -/
def State.stagingRoom (s : State) (m : Nat) : Nat :=
  stagingEntries - detEntries * ((s.on m).filter fun t => (s.launchD t.launch).det).length
/-- Flush the oldest entries that a mast's buffer has no room for. -/
def State.flushExcess (s : State) (m : Nat) : State := s.flushOldest m ((s.mast m).staging.length - s.stagingRoom m)

/-- A pack at the end of its block: the state after it, and whether it has resolved. While the array queue or a tag holds it nothing
comes about; when its contributions find no free entry, the mast flushes its oldest entries first (R326). `marked` is the state in
which it resolves if it does. -/
def State.tryResolve (s marked : State) (t : Team) (p : Pack) : State × Bool :=
  let r := marked.resolveLanes t p
  let s' := marked.resolvePack t p r
  let old := (s.mast p.mast).staging.length
  let excess := (s'.mast p.mast).staging.length - s'.stagingRoom p.mast
  if s.mustHold s' p r then (s, false)
  else if excess = 0 then (s', true)
  else if old = 0 then (s'.flushExcess p.mast, true)
  else (s.flushOldest p.mast (min excess old), false)

end Sys2Proof.Machine
end

