-- ==== Sys2Proof/Machine/Seq.lean ====
section
/-! DEFINITION. The block sequencer: the words of a block in the instruction cache (R156), the checks of R52, eligibility and
choice (R147 to R150, R160), pack formation (R153 to R155, R161), instruction fetch (R156 to R158), issue (R159, R180), results that
land (R257) and pauses that end (R200). -/

namespace Sys2Proof.Machine

/-! ### The words of a block (R141, R156) -/

/-- A word of the instruction cache at a virtual address, and whether it is poisoned; none when its line is absent. -/
def Mast.codeWord (m : Mast) (ctx va : Nat) : Option (Word × Bool) :=
  (m.icache.find? fun l => l.ctx == ctx && l.line == va / 128).map fun l =>
    let o := va % 128
    (wordOfBytes ((List.range 4).map fun i => l.bytes.getD (o + i) 0), (List.range 4).any fun i => l.poison.contains (o + i))

/-- The words of a block as far as they are present and unpoisoned, and the address of the first absent or poisoned word. -/
structure Scan where
  words   : List Word
  missing : Option Nat
  bad     : Option Nat

/-- Scan a block from its i-th word, at most `fuel` words. -/
def scanFrom (m : Mast) (ctx base block : Nat) : Nat → Nat → Scan
  | 0, _ => ⟨[], none, none⟩
  | fuel + 1, i =>
    let va := base + (block + 4 * i) % 2 ^ 32
    match m.codeWord ctx va with
    | none => ⟨[], some va, none⟩
    | some (w, true) => ⟨[w], none, some va⟩
    | some (w, false) =>
      if fS w then ⟨[w], none, none⟩
      else
        let r := scanFrom m ctx base block fuel (i + 1)
        { r with words := w :: r.words }
/-- Words that a block may hold (R42). -/
def blockWords : Nat := 64
/-- The block of a team at an address: up to the word with S = 1 or the 64th (R156). -/
def State.scanBlock (s : State) (t : Team) (block : Nat) : Scan :=
  let l := s.launchD t.launch
  scanFrom (s.mast t.mast) l.ctx l.codeBase block blockWords 0
/-- The whole block is present and can be checked. -/
def Scan.present (c : Scan) : Bool := c.missing.isNone && c.bad.isNone

/-! ### The checks of R52 -/

/-- The feature that an instruction needs (R90). -/
def featureOf : Instr → Nat
  | .mxIssue .. | .mxZero .. | .cpPlane .. | .accrd .. | .accwr .. => 1
  | .sample .. | .sampleg .. | .sload .. | .hinv .. | .wpin .. | .wunpin .. => 2
  | .smma .. => 3
  | .hopen .. | .hset .. | .hget .. | .hconfirm .. | .hrefute .. | .hstate .. | .horphan .. => 4
  | .taskout .. | .vtxout .. | .primout .. | .pixout .. | .kill .. => 5
  | .atomb .. | .aflush .. => 6
  | .acqr .. => 7
  | .cvtbd .. | .spk .. => 8
  | _ => 0

/-- The row of a word, whatever rules it breaks. -/
def rowInstr (w : Word) : Option Instr := if 0x1D ≤ (fMaj w).toNat then none else (decRow w).map (·.instr)
/-- Whether a word is RALLY. -/
def isRally (w : Word) : Bool := fMaj w == 0x02 && fFn w == 0
/-- Whether a word is MODW. -/
def isModw (w : Word) : Bool := fMaj w == 0x00 && fFn w == 7
/-- A word of class LANE, or SMMA (R42). -/
def isLane (w : Word) : Bool := fMaj w == 0x03 || (fMaj w == 0x19 && fFn w == 6)
/-- NF of a MODW. -/
def modwNf (w : Word) : BitVec 2 := (fB w).extractLsb' 5 2

/-- Whether a MODW with S = 0 has a field that the next word of the block does not accept, or FILL = 3 (R44). The 65th word is not
judged. -/
def modwBad (w : Word) (next : Option Word) : Bool :=
  let fill := (fB w).extractLsb' 3 2
  isModw w && !fS w && (fill == 3 ||
    match next with
    | none => false
    | some n => match rowInstr n with
      | some i => !modwAccepts (lo 2 (fB w)) ((fB w).getLsbD 2) fill (modwNf w) i
      | none => fB w != 0)

/-- Whether a word is a CVTBD without a MODW that gives NF directly before it (R204). -/
def cvtbdBad (prev : Option Word) (w : Word) : Bool :=
  (match rowInstr w with
    | some (.cvtbd ..) => true
    | _ => false) &&
  !(match prev with
    | some p => isModw p && modwNf p != 0
    | none => false)

/-- The causes that a word breaks, in its place in the block (R42, R44, R53, R90, R204). -/
def State.wordCauses (s : State) (rally : Bool) (i mems : Nat) (prev next : Option Word) (w : Word) : List Nat :=
  (match decodeWord w with
    | .error c => [c]
    | .ok x => if s.feature (featureOf x) then [] else [cFEATURE]) ++
  (if modwBad w next || cvtbdBad prev w then [0x03] else []) ++
  (if memClass w && 8 ≤ mems then [0x08] else []) ++
  (if isLane w && !rally then [0x09] else []) ++
  (if isRally w && i != 0 then [0x0A] else [])

/-- The first word that breaks a rule, with its lowest cause. Words stand in program order, also where a block runs on past code address
0xFFFF_FFFC to address 0 (R52, R156; DESIGN CHOICE, log entry 98). -/
def State.checkFrom (s : State) (rally : Bool) : Nat → Nat → Option Word → List Word → Option (Nat × Nat)
  | _, _, _, [] => none
  | i, mems, prev, w :: r =>
    match s.wordCauses rally i mems prev r.head? w with
    | c :: cs => some (i, cs.foldl min c)
    | [] => s.checkFrom rally (i + 1) (if memClass w then mems + 1 else mems) (some w) r

/-- The checks of R52 on the words of a block: the place of the offending word and the cause. -/
def State.checkBlock (s : State) (ws : List Word) : Option (Nat × Nat) :=
  match s.checkFrom (ws.head?.any isRally) 0 0 none ws with
  | some x => some x
  | none => if ws.any fS then none else some (ws.length, 0x07)

/-! ### Waiting times and eligibility (R148, R149, R160) -/

/-- SEQCFG's fields (R148). -/
def Team.fill (t : Team) : Nat := bits t.seqcfg.toNat 0 6
def Team.gather (t : Team) : Nat := bits t.seqcfg.toNat 8 8
def Team.age (t : Team) : Nat := bits t.seqcfg.toNat 16 16

/-- The READY cycle of the longest-waiting thread among some threads. -/
def Team.oldest (t : Team) : List Nat → Option Nat
  | [] => none
  | i :: r => match t.oldest r with
    | some m => some (min m (t.thread i).readyAt)
    | none => some (t.thread i).readyAt
/-- Whether the longest-waiting of some threads has waited n cycles. -/
def Team.waited (t : Team) (cycle n : Nat) (tids : List Nat) : Bool := (t.oldest tids).any fun r => r + n ≤ cycle
/-- Mask and timeout of a rally block (R186). -/
def Scan.rally (c : Scan) : Option (Nat × Nat) :=
  c.words.head?.bind fun w => if isRally w then some ((lo 3 (fD w)).toNat, 64 * (fB w).toNat) else none

/-- A bin with its marks as its threads' waiting times give them in this cycle: GATHER and AGE of its oldest READY thread, the RALLY
that its block begins with once its first word is there, and the warps that it is due for. -/
def Team.markBin (t : Team) (cycle : Nat) (scan : Scan) (b : Bin) : Bin :=
  let ready := t.readyOf cycle b.threads
  t.markDue cycle
    { b with
      short := t.waited cycle t.gather ready
      aged := t.waited cycle t.age ready
      rally := if scan.words.isEmpty then b.rally else scan.rally }
/-- A team as its sequencer finds it in a cycle: every PAUSE that has run out has ended, every bin and entry is marked. -/
def State.markBins (s : State) (cycle : Nat) (t : Team) : Team :=
  let u := t.settlePauses cycle
  let f := fun (b : Bin) => u.markBin cycle (s.scanBlock u b.block) b
  { u with bins := u.bins.map f, overflow := u.overflow.map f }

/-! ### The threads of a pack (R153, R154, R161) -/

/-- The best of a list under a strict order. -/
def bestBy {α : Type} (better : α → α → Bool) : List α → Option α
  | [] => none
  | x :: r => match bestBy better r with
    | some y => if better y x then some y else some x
    | none => some x

/-- One thread for each lane: the lowest TID, or under the aged choice the longest-waiting (R153). -/
def Team.laneChoice (t : Team) (aged : Bool) (ready : List Nat) : List Nat :=
  (List.range 32).filterMap fun l =>
    let c := ready.filter fun i => i % 32 == l
    if aged then bestBy (fun a b => decide ((t.thread a).readyAt < (t.thread b).readyAt)) c else c.head?

/-- The live threads of a quad (R154). -/
def Team.quad (t : Team) (q : Nat) : List Nat :=
  (List.range 4).filterMap fun k => if (t.thread (4 * q + k)).live && decide (4 * q + k < t.threads.length) then some (4 * q + k) else none
/-- The threads of a quad that may enter a pack from a bin: all of them when every one is READY there; those READY there when
others stand elsewhere and one has waited GATHER cycles (R154). -/
def Team.quadReady (t : Team) (cycle : Nat) (b : Bin) (q : Nat) : List Nat :=
  let live := t.quad q
  let here := t.readyOf cycle (live.filter fun i => b.threads.contains i)
  if here.length = live.length then here
  else if (live.any fun i => !b.threads.contains i) && t.waited cycle t.gather (t.readyOf cycle live) then here
  else []
/-- One quad for each group of four lanes (R154). -/
def Team.quadChoice (t : Team) (cycle : Nat) (aged : Bool) (b : Bin) : List Nat :=
  (List.range 8).flatMap fun g =>
    let qs := ((List.range ((t.threads.length + 31) / 32)).map fun w => 8 * w + g).filterMap fun q =>
      let l := t.quadReady cycle b q
      if l.isEmpty then none else some l
    let pick := if aged then bestBy (fun x y => decide ((t.oldest x).getD 0 < (t.oldest y).getD 0)) qs else qs.head?
    pick.getD []

/-- What the sequencer could form from a bin: its threads, the warp of a rally block, and the rank of R150. -/
structure Pick where
  block : Nat
  words : List Word
  tids  : List Nat
  warp  : Option Nat
  aged  : Bool
  since : Nat

/-- The order of R150. -/
def Pick.before (a b : Pick) : Bool :=
  if a.aged && b.aged then decide (a.since < b.since) || (a.since == b.since && decide (a.block < b.block))
  else if a.aged || b.aged then a.aged
  else decide (a.block < b.block)

/-- A rally bin is eligible for the first of its due warps (R160, R161). -/
def Team.rallyPick (t : Team) (cycle : Nat) (b : Bin) (words : List Word) : Option Pick :=
  let ready := t.readyOf cycle b.threads
  let opened := fun (w : Nat) => alGetD b.rounds w 0
  let cands := b.due.filterMap fun w =>
    let tids := ofWarp w ready
    match t.oldest tids with
    | some o => some (⟨b.block, words, tids, some w, t.waited cycle t.age tids, o⟩ : Pick)
    | none => none
  bestBy (fun x y =>
    let wx := x.warp.getD 0
    let wy := y.warp.getD 0
    if x.aged && y.aged then decide (x.since < y.since) || (x.since == y.since && decide (wx < wy))
    else if x.aged || y.aged then x.aged
    else decide (opened wx < opened wy) || (opened wx == opened wy && decide (wx < wy))) cands

/-- Whether an ordinary bin is eligible under the first two conditions of R149. -/
def Team.fillsOrShort (t : Team) (cycle : Nat) (b : Bin) : Bool :=
  let ready := t.readyOf cycle b.threads
  !ready.isEmpty && (decide (t.fill ≤ ready.length) || b.short)

/-- What an ordinary bin gives, if it is eligible (R149). A pixel bin none of whose quads may enter a pack (R154) gives nothing, and the
next bin is looked at (DESIGN CHOICE, log entry 98). -/
def Team.ordinaryPick (t : Team) (cycle : Nat) (others : Bool) (b : Bin) (words : List Word) : Option Pick :=
  let ready := t.readyOf cycle b.threads
  match t.oldest ready with
  | none => none
  | some o =>
    if t.fillsOrShort cycle b || !others || b.aged then
      let tids := if t.stage = .pixel then t.quadChoice cycle b.aged b else t.laneChoice b.aged ready
      if tids.isEmpty then none else some ⟨b.block, words, tids, none, b.aged, o⟩
    else none

/-- The pack that the sequencer forms for a team (R149, R150, R160). The team's bins are marked. -/
def State.pick (s : State) (t : Team) : Option Pick :=
  let scans := t.bins.map fun b => (b, s.scanBlock t b.block)
  let ready := scans.filter fun x => x.2.present
  let strong := (ready.filter fun x => x.2.rally.isNone && t.fillsOrShort s.cycle x.1).map fun x => x.1.block
  bestBy Pick.before (ready.filterMap fun x =>
    if x.2.rally.isSome then t.rallyPick s.cycle x.1 x.2.words
    else t.ordinaryPick s.cycle (strong.any (· != x.1.block)) x.1 x.2.words)

/-! ### PACK_FORM -/

/-- A spill (R147): the head entry of the overflow list takes the bin whose longest-waiting READY thread has waited least. -/
def Team.spill (t : Team) (cycle : Nat) (flying : List Nat) : Team :=
  match t.overflow with
  | [] => t
  | e :: rest =>
    if t.spillAt = some cycle ∨ t.waited cycle t.age (t.readyOf cycle e.threads) = false then t
    else
      let since := fun (b : Bin) => t.oldest (t.readyOf cycle b.threads)
      let less := fun (a b : Bin) => match since a, since b with
        | none, none => decide (b.block < a.block)
        | none, some _ => true
        | some _, none => false
        | some x, some y => decide (y < x) || (x == y && decide (b.block < a.block))
      match bestBy less (t.bins.filter fun b => !b.listed && !flying.contains b.block) with
      | none => t
      | some v =>
        { t with bins := t.bins.filter (·.block != v.block) ++ [{ e with listed := true }],
                 overflow := rest ++ [{ v with listed := false }], spillAt := some cycle }

/-- A team whose packs may be formed: resident and not being stopped (R356). -/
def Team.running (t : Team) : Bool := match t.place with
  | .resident | .restored .. => true
  | _ => false

/-- Pipes of a mast, and packs in flight of a pipe (R155). -/
def pipes : Nat := 4
def packsPerPipe : Nat := 8

/-- The least of a list of cycles. -/
def least : List Nat → Option Nat
  | [] => none
  | x :: r => some (((least r).map (min x)).getD x)

/-- The rounds of a bin after a rally pack of a warp has closed its round (R161): a thread of the warp that the pack leaves out, because
it becomes READY only in the next cycle, has opened a new one. -/
def Team.closeRound (t : Team) (b : Bin) (k : Pick) (w : Nat) : List (Nat × Nat) :=
  let late := (ofWarp w b.threads).filter fun i => !k.tids.contains i && (t.thread i).st == .ready
  b.rounds.filter (·.1 != w) ++ match least (late.map fun i => (t.thread i).readyAt) with
    | some c => [(w, c)]
    | none => []

/-- The bin after its pack has left: it has issued since it took an entry, and the round of a rally pack is closed. -/
def Team.afterPack (t : Team) (k : Pick) (b : Bin) : Bin :=
  if b.block = k.block then
    { b with listed := false,
             rounds := match k.warp with
               | some w => t.closeRound b k w
               | none => b.rounds,
             met := match k.warp with
               | some w => b.met.filter fun x => decide (x / 8 ≠ w)
               | none => b.met,
             due := match k.warp with
               | some w => b.due.filter (· != w)
               | none => b.due }
  else b

/-- Every thread of a pack that fails the checks takes ILLEGAL, but an orphan follows the orphan rule (R52, R55). -/
def State.illegalPack (s : State) (t : Team) (k : Pick) (pipe place cause : Nat) : State :=
  let l := s.launchD t.launch
  let word := (k.block + 4 * place) % 2 ^ 32
  let one := fun (a : Resolved) (tid : Nat) =>
    let x := ((a.s.team? t.id).map fun u => u.thread tid).getD default
    let w : Who := ⟨t.id, tid, t.mast, l.ctx, x.hyp, x.wb, k.block, l.det, l.codeBase, 0⟩
    if isOrphan (a.s.ctxD l.ctx).hyps x.hyp then { a with s := a.s.orphanThread (a.s.ctxD l.ctx) w }
    else a.programTrap w l pipe cause 0 none word
  ((k.tids.mergeSort fun a b => a % 32 ≤ b % 32).foldl one ⟨s, [], [], false⟩).s.tidyHyps l.ctx

/-- Form the pack: the threads leave the bin, the words are checked, and the pack enters its pipe (R52, R153). A pack that fails the checks
counts as one that its team and its bin have issued (R147; DESIGN CHOICE, log entry 98). -/
def State.formPack (s : State) (t : Team) (pipe : Nat) (claim : Bool) (k : Pick) : State :=
  let (id, s1) := s.fresh
  let t1 := { t with bins := t.bins.map (t.afterPack k) }
  let t2 := k.tids.foldl (fun (a : Team) i => a.setThread i { a.thread i with st := .issued }) (t1.leaveBins k.tids)
  match s.checkBlock k.words with
  | some (place, cause) => (s1.setTeam (t2.spill s.cycle ((s.flight.filter (·.team == t.id)).map (·.block)))).illegalPack t k pipe place cause
  | none =>
    let p : Pack :=
      { (default : Pack) with
        id := id, team := t.id, mast := t.mast, pipe := pipe, block := k.block, words := k.words, pc := k.block,
        rally := k.warp.isSome, formed := s.cycle, claim := claim,
        lanes := (k.tids.map fun i => (i % 32, Lane.start t s.cycle i)).mergeSort fun a b => a.1 ≤ b.1 }
    let flying := k.block :: (s.flight.filter (·.team == t.id)).map (·.block)
    let s2 := s1.setTeam (t2.spill s.cycle flying)
    { s2 with flight := s2.flight ++ [p.collect t] }

/-! ### Sharing a mast's issue cycles (R111, R112, R151; log entries 78 and 79) -/

/-- The rank of a deadline: its signed distance from now; none ranks last (R102). -/
def State.deadlineRank (s : State) (d : Word) : Int :=
  if d = 0 then 2 ^ 31 else (d - BitVec.ofNat 32 (s.ns / 1000)).toInt

/-- The class and the context of a team's launch. -/
def State.teamClass (s : State) (t : Team) : Nat := (s.launchD t.launch).cls
def State.teamCtx (s : State) (t : Team) : Nat := (s.launchD t.launch).ctx

/-- The teams of a mast that may issue: a restored team does so once its abandoned operations are in the array queue again (R312). -/
def State.runningOn (s : State) (mast : Nat) : List Team := s.teams.filter fun t => t.mast == mast && t.running && t.mxSaved.isEmpty

/-- The teams ready on a mast: they hold a READY thread or have a pack in flight. -/
def State.readyTeams (s : State) (mast : Nat) : List Team :=
  (s.runningOn mast).filter fun t => !(t.readyOf s.cycle (List.range t.threads.length)).isEmpty || s.flight.any (·.team == t.id)

/-- Whether the power arbiter withholds a cycle from a context (R128): of the cycles of a context that measures P watts with a cap of
C, it leaves C out of P. -/
def State.withheld (s : State) (ctx : Nat) : Bool :=
  match alGet ctx s.throttled with
  | none => false
  | some p =>
    let c := (s.ctxD ctx).powerCap
    !decide (s.cycle * c / p < (s.cycle + 1) * c / p)

/-- The context of a pack. -/
def State.packCtx (s : State) (p : Pack) : Nat := ((s.team? p.team).map s.teamCtx).getD 0
/-- The packs that a pipe holds. -/
def State.inPipe (s : State) (mast pipe : Nat) : List Pack := s.flight.filter fun p => p.mast == mast && p.pipe == pipe

/-- How many of a pipe's places a context that is held back may fill: C of every P of them, rounded down, but one at least when its cap
is not 0; none for a context that is not held back (R128; DESIGN CHOICE, log entry 68). -/
def State.heldPlaces (s : State) (ctx : Nat) : Option Nat :=
  (alGet ctx s.throttled).map fun p =>
    let c := (s.ctxD ctx).powerCap
    if c = 0 then 0 else max 1 (packsPerPipe * c / p)
/-- Whether a context may have another pack in a pipe. A context that is held back fills no more than its places there, and all that
are held back no more than the most that one of them may fill, so that the others find a pipe for the cycles withheld (R128). -/
def State.mayEnter (s : State) (mast pipe ctx : Nat) : Bool :=
  match s.heldPlaces ctx with
  | none => true
  | some n =>
    let held := ((s.inPipe mast pipe).map s.packCtx).filter fun c => (s.heldPlaces c).isSome
    decide ((held.filter (· == ctx)).length < n) &&
      decide (held.length < ((s.throttled.filterMap fun x => s.heldPlaces x.1).foldl max 0))
/-- Whether a context fills places of a full pipe that are not its own, as it may when it begins to be held back: its packs then issue
on until one of them is free (R128; DESIGN CHOICE, log entry 68). -/
def State.overfills (s : State) (mast pipe ctx : Nat) : Bool :=
  let here := s.inPipe mast pipe
  decide (packsPerPipe ≤ here.length) && (s.heldPlaces ctx).any fun n => decide (n < (here.filter fun p => s.packCtx p == ctx).length)

/-- The classes that a cycle serves: those with a team ready on the mast whose context the cycle is not withheld from (R111, R128). -/
def State.readyClasses (s : State) (mast : Nat) : List Nat :=
  ((s.readyTeams mast).filter fun t => !s.withheld (s.teamCtx t)).map s.teamClass
/-- The classes whose teams ready on a mast all have the cycle withheld: it is not one of the cycles left to them (R128). -/
def State.heldClasses (s : State) (mast : Nat) : List Nat :=
  ((s.readyTeams mast).map s.teamClass).filter fun c => !(s.readyClasses mast).contains c

/-- Instructions that a place in a round may issue before its turn passes. -/
def quantum : Nat := 64

/-- The deficit of a key in a round; one that is not in it enters with a quantum. -/
def deficitOf {κ : Type} [DecidableEq κ] (round : List (κ × Int)) (k : κ) : Int :=
  ((round.find? fun x => decide (x.1 = k)).map (·.2)).getD quantum
/-- A round with every key of a list in it. -/
def enterRound {κ : Type} [DecidableEq κ] (ks : List κ) (round : List (κ × Int)) : List (κ × Int) :=
  ks.foldl (fun r k => if r.any fun x => decide (x.1 = k) then r else r ++ [(k, (quantum : Int))]) round
/-- Quanta that the keys of a list lack before the best of them has credit. -/
def quantaShort {κ : Type} [DecidableEq κ] (round : List (κ × Int)) : List κ → Nat
  | [] => 0
  | k :: r =>
    let mine := ((quantum : Int) - deficitOf round k).toNat / quantum
    if r.isEmpty then mine else min mine (quantaShort round r)
/-- Deficit round-robin: the first in the round of the keys that can use a turn and have credit; when none has, each of them receives
the same number of quanta. -/
def serve {κ : Type} [DecidableEq κ] (ks : List κ) (round : List (κ × Int)) : Option κ × List (κ × Int) :=
  let r1 := enterRound ks round
  let q : Int := (quantum * quantaShort r1 ks : Nat)
  let r2 := r1.map fun x => if ks.any fun k => decide (k = x.1) then (x.1, x.2 + q) else x
  ((r2.find? fun x => ks.any (fun k => decide (k = x.1)) && decide (0 < x.2)).map (·.1), r2)
/-- An issued instruction costs its key one; a key whose credit is spent goes to the end of the round. -/
def charge {κ : Type} [DecidableEq κ] (k : κ) (round : List (κ × Int)) : List (κ × Int) :=
  let d := deficitOf round k - 1
  if 0 < d then round.map fun x => if x.1 = k then (k, d) else x
  else (round.filter fun x => decide (x.1 ≠ k)) ++ [(k, d)]

/-- Credit, in hundredths of an issue cycle, with which a class claims a pack under its floor. -/
def claimCredit : Int := 100

/-- The highest class of some classes. -/
def highestClass (cs : List Nat) : Option Nat := bestBy (fun a b => decide (a < b)) cs

/-- The class that a new pack is for, and whether it claims it under its floor (R111): the highest class with credit, else the highest
class that can use the pack. -/
def MastSeq.classFor (q : MastSeq) (cs : List Nat) : Option (Nat × Bool) :=
  match highestClass (cs.filter fun c => decide (claimCredit ≤ alGetD q.claims c 0)) with
  | some c => some (c, true)
  | none => (highestClass cs).map fun c => (c, false)

/-- The earliest rank of the DEADLINEs of a context's FRAME launches that run on a mast (R112). -/
def State.frameRank (s : State) (mast ctx : Nat) : Int :=
  (((s.runningOn mast).filter fun t => s.teamClass t == 0 && s.teamCtx t == ctx).map fun t =>
    s.deadlineRank (s.launchD t.launch).deadline).foldl min (2 ^ 31)

/-- The contexts of a class that are served first: in the FRAME class those of the earliest DEADLINE, in another all (R112). -/
def State.frontCtxs (s : State) (mast cls : Nat) (ctxs : List Nat) : List Nat :=
  if cls = 0 then
    let ranks := ctxs.map (s.frameRank mast)
    ctxs.filter fun c => ranks.all fun r => decide (s.frameRank mast c ≤ r)
  else ctxs

/-- The team that receives a pipe's next pack with what is formed of it, whether its class claims it, and the rounds as they then
stand (R111, R112, R128, R151). -/
def State.chooseTeam (s : State) (mast pipe : Nat) : Option (Team × Pick × Bool × MastSeq) :=
  let q := (s.mast mast).seq
  let cands := ((s.runningOn mast).filter fun t => s.mayEnter mast pipe (s.teamCtx t)).filterMap fun t => (s.pick t).map fun k => (t, k)
  (q.classFor (cands.map fun x => s.teamClass x.1)).bind fun (cls, claim) =>
    let mine := cands.filter fun x => s.teamClass x.1 == cls
    let (c, ctxs) := serve ((s.frontCtxs mast cls (mine.map fun x => s.teamCtx x.1)).map fun c => (cls, c)) q.ctxs
    c.bind fun c =>
      let (t, teams) := serve ((mine.filter fun x => s.teamCtx x.1 == c.2).map (·.1.id)) q.teams
      t.bind fun t => (mine.find? (·.1.id == t)).map fun x => (x.1, x.2, claim, { q with ctxs := ctxs, teams := teams })

/-- What an issued instruction costs (R111, R151): every class that the cycle serves earns its floor, one that has it withheld stands as
it stood, the pack's class pays for a claimed pack, its context and team pay a cycle each. -/
def MastSeq.pay (q : MastSeq) (floors ready held : List Nat) (p : Pack) (cls ctx : Nat) : MastSeq :=
  let earn := fun (c : Nat) =>
    let old := alGetD q.claims c 0
    let now := if ready.contains c then old + floors.getD c 0 else if held.contains c then old else min old 0
    (c, if p.claim && c == cls then now - claimCredit else now)
  { q with claims := (List.range 4).map earn, ctxs := charge (cls, ctx) q.ctxs, teams := charge p.team q.teams }

/-! ### PACK_FORM (R155) -/

/-- Whether a pipe may still be served in a cycle: pipes are served in ascending number, once each (R155). -/
def servedBefore (last : Option (Nat × Nat)) (cycle pipe : Nat) : Bool := match last with
  | some (c, q) => !(c == cycle && decide (pipe ≤ q))
  | none => true

/-- Change how a mast's sequencer stands. -/
def State.onSeq (s : State) (mast : Nat) (f : MastSeq → MastSeq) : State :=
  let m := s.mast mast
  s.setMast { m with seq := f m.seq }

/-- The teams of a mast as its sequencer finds them when it forms packs in this cycle. -/
def State.markMast (s : State) (mast : Nat) : State :=
  { s with teams := s.teams.map fun t =>
      if t.mast = mast ∧ t.running then { s.markBins s.cycle t with seqAt := some s.cycle } else t }

/-- As time passes from one cycle to a later one, the sequencers look at what that cycle has left, unless packs have been formed in it,
and at what the later one begins with: PAUSEs that have run out by then have ended, and rally conditions that hold are marked (R140,
R160, R187). -/
def State.look (s : State) (before : Nat) : State :=
  { s with teams := s.teams.map fun t =>
      if t.running then s.markBins s.cycle (if t.seqAt = some before then t else s.markBins before t)
      else if t.here then t.settlePauses s.cycle else t }

/-- PACK_FORM: the sequencer of a mast serves a pipe with room; the team and the bin are those of R111, R112, R150 and R151. -/
def execPackForm (mast pipe : Nat) (s : State) : Host.Outcome State Fault Refusal :=
  let here := (s.inPipe mast pipe).length
  if pipes ≤ pipe || packsPerPipe ≤ here || !servedBefore (s.mast mast).seq.formed s.cycle pipe then .next s
  else
    let s1 := (s.markMast mast).onSeq mast fun q => { q with formed := some (s.cycle, pipe) }
    match s1.chooseTeam mast pipe with
    | none => .next s1
    | some (t, k, claim, q) => .next ((s1.onSeq mast fun _ => q).formPack t pipe claim k)

/-! ### BLOCK_RESOLVE -/

/-- Whether the results of a pack's block have had their cycles (R159, R202). -/
def Pack.resultsIn (p : Pack) (cycle : Nat) : Bool := p.usable.all fun u => decide (u.2 ≤ cycle)

/-- BLOCK_RESOLVE: a pack that has issued its last word resolves, unless it is held; a full staging buffer flushes its oldest
entries first (R326). Its values are the threads' from then on, so it resolves when its results have had their cycles, and a later block
uses none of them early (R202; DESIGN CHOICE, log entry 100). The packs of a mast that resolve in one cycle do so in ascending pipe number (R163, R175, R187, R197),
those of several masts that request tiles in ascending mast number (R121). -/
def execBlockResolve (pack : Nat) (s : State) : Host.Outcome State Fault Refusal :=
  match s.flight.find? (·.id == pack) with
  | none => .next s
  | some p =>
    match s.team? p.team with
    | none => .next s
    | some t =>
      if !p.ended || !p.resultsIn s.cycle || !servedBefore (s.mast p.mast).seq.resolved s.cycle p.pipe || !s.cursorServes t p then .next s
      else
        .next (s.tryResolve (s.onSeq p.mast fun q => { q with resolved := some (s.cycle, p.pipe) }) t p).1

/-! ### Expiries (R149, R160, R200) -/

/-- Mark the bin or entry of one block. -/
def State.markBlock (s : State) (team block : Nat) (f : Team → Bin → Bin) : State :=
  s.onTeam team fun t =>
    let g := fun (b : Bin) => if b.block = block then f t b else b
    { t with bins := t.bins.map g, overflow := t.overflow.map g }

/-- BIN_GATHER_EXPIRY: the bin's oldest READY thread has waited GATHER cycles, and the bin may issue short. -/
def execBinGatherExpiry (team block : Nat) (s : State) : Host.Outcome State Fault Refusal :=
  .next (s.markBlock team block fun t b => { b with short := t.waited s.cycle t.gather (t.readyOf s.cycle b.threads) })

/-- BIN_AGE_EXPIRY: the bin's oldest READY thread has waited AGE cycles, and the bin is aged. -/
def execBinAgeExpiry (team block : Nat) (s : State) : Host.Outcome State Fault Refusal :=
  .next (s.markBlock team block fun t b => { b with aged := t.waited s.cycle t.age (t.readyOf s.cycle b.threads) })

/-- RALLY_TIMEOUT: the round of a warp has been open for the timeout of its block, and the bin is eligible for the warp. -/
def execRallyTimeout (team block warp : Nat) (s : State) : Host.Outcome State Fault Refusal :=
  .next (s.markBlock team block fun t b =>
    match b.rally.or (s.scanBlock t block).rally, alGet warp b.rounds with
    | some (_, lim), some o => if lim ≠ 0 ∧ o + lim ≤ s.cycle then { b with due := nsInsert warp b.due } else b
    | _, _ => b)

/-- PAUSE_EXPIRY: the cycles of a PAUSE have passed (R200); a thread that waits for nothing else became READY as they passed. -/
def execPauseExpiry (team tid : Nat) (s : State) : Host.Outcome State Fault Refusal :=
  .next (s.onTeam team fun t =>
    if t.here then t.clearWaits s.cycle tid fun w => !w.holds s.cycle
    else t)

/-- RESULT_LAND: the k-th result on its way to a thread lands, if its value is known (R257). -/
def execResultLand (team tid k : Nat) (s : State) : Host.Outcome State Fault Refusal :=
  .next (s.onTeam team fun t => if t.here then t.land s.cycle tid k else t)

/-! ### ICACHE_FILL (R156 to R158) -/

/-- Every thread of a bin is parked on a fetch fault (R158). -/
def State.parkBin (s : State) (t : Team) (b : Bin) (cause va : Nat) : State :=
  let l := s.launchD t.launch
  let was := s.fcount l.ctx
  let r := faultRecord cause 0 (some va) b.block b.block
  let t1 := b.threads.foldl (fun (a : Team) i =>
    a.setThread i { (a.thread i).record r with st := .faulted, next := b.block }) (t.leaveBins b.threads)
  (((s.setTeam t1).noteFaults l was (b.threads.map fun _ => va)).sweepOrphans l.ctx).tidyHyps l.ctx

/-- Every thread of a bin takes the POISON fault of a fetched word (R158, R349). -/
def State.poisonBin (s : State) (t : Team) (b : Bin) (va : Nat) : State :=
  let l := s.launchD t.launch
  let r := faultRecord cPOISON 0 (some va) b.block b.block
  let t1 := b.threads.foldl (fun (a : Team) i => a.setThread i ((a.thread i).record r)) (t.leaveBins b.threads)
  match l.trapEntry with
  | none => (s.setTeam t1).dies l.id ⟨s.cycle, pipes, (least (b.threads.map (· % 32))).getD 0, t.mast, cPOISON, r⟩
  | some e => s.setTeam (b.threads.foldl (fun (a : Team) i => a.stand s.cycle i e (a.thread i).waits) t1)

/-- Lines of the instruction cache of 64 KiB (R156). -/
def icacheLines : Nat := 512
/-- The line of a virtual address comes into the instruction cache through L2 (R157); a line too many takes the place of the one that
came first (log entry 85). -/
def State.fetchLine (s : State) (t : Team) (c : Ctx) (va : Nat) (segs : List (Loc × Nat)) : State :=
  let (s1, bs) := s.homeSegs c 0 segs
  let line : ILine := ⟨c.num, va / 128, bs.map (·.1), (List.range 128).filter fun i => (bs.getD i (0, true)).2⟩
  let m := s1.mast t.mast
  let lines := putBy (fun l => l.ctx == c.num && l.line == va / 128) line m.icache
  (s1.setMast { m with icache := lines.drop (lines.length - icacheLines) }).tlbKeepLeaf c va .ex t.mast

/-- ICACHE_FILL: the next line that a bin's block lacks arrives; a fetch fault parks the bin's threads, and poison in a fetched
word sends them to the POISON fault. -/
def execIcacheFill (team block : Nat) (s : State) : Host.Outcome State Fault Refusal :=
  match s.team? team with
  | none => .next s
  | some t =>
    match t.bins.find? (·.block == block) with
    | none => .next s
    | some b =>
      if !t.running then .next s
      else
        let c := s.ctxD (s.launchD t.launch).ctx
        match (s.scanBlock t block).bad, (s.scanBlock t block).missing with
        | some va, _ => .next (s.poisonBin t b va)
        | none, none => .next s
        | none, some va =>
          match s.xrange c (va / 128 * 128) 128 .ex (some t.mast) with
          | .error (cause, _) => .next { s.parkBin t b cause va with free := s.free + 1 }
          | .ok segs =>
            let s1 := { s.fetchLine t c va segs with free := s.free + 1 }
            match (s1.scanBlock t block).bad with
            | some v => .next (s1.poisonBin t b v)
            | none => .next s1

/-! ### PIPE_ISSUE (R128, R159, R180) -/

/-- A launch has executed its first instruction (R114). -/
def State.firstIssue (s : State) (lid : Nat) : State :=
  match s.launch? lid with
  | some l => if l.firstRun.isNone then s.setLaunch { l with firstRun := some s.ns } else s
  | none => s

/-- Cycles after which a result may be used, and cycles for which an FSFU word holds its unit (R159). -/
def aluLatency : Nat := 4
/-- Both for DIV and REM (R202). -/
def divLatency : Nat := 8
/-- DIV and REM (R202). -/
def isDivision : Instr → Bool
  | .div .. | .rem .. => true
  | _ => false
/-- Cycles for which an instruction holds the pipe's special-function unit, 0 for one that does not use it: words of class FSFU (R35,
R159), DIV and REM (R202). -/
def sfuCycles (w : Word) (i : Instr) : Nat := if isDivision i then divLatency else if fMaj w == 0x10 then aluLatency else 0
/-- Cycles after which the results of an instruction may be used (R159, R202). -/
def latencyOf (i : Instr) : Nat := if isDivision i then divLatency else aluLatency

/-- Whether a pack may issue its next instruction (R159, R202): its sources are gathered, the results that it uses have had their
cycles, and an instruction that needs the special-function unit finds it free. -/
def State.issuable (s : State) (q : MastSeq) (p : Pack) : Bool :=
  !p.ended && p.reads.isEmpty && match p.nextInstr with
    | none => true
    | some (w, i) => (usesOf w i).all (fun c => decide (alGetD p.usable c 0 ≤ s.cycle)) &&
        !(sfuCycles w i != 0 && decide (s.cycle < alGetD q.sfu p.pipe 0))

/-- The pack whose next instruction a pipe issues: the earliest formed of those that may (R159). -/
def State.issueChoice (s : State) (mast pipe : Nat) : Option Pack :=
  let q := (s.mast mast).seq
  bestBy (fun a b => decide (a.formed < b.formed)) ((s.inPipe mast pipe).filter fun p =>
    s.issuable q p && (!s.withheld (s.packCtx p) || s.overfills mast pipe (s.packCtx p)))

/-- The pack with its results' cycles noted (R159, R202). Under a guard some lanes may keep an earlier result, whose cycles go on. -/
def Pack.noteResults (p : Pack) (cycle : Nat) : Pack :=
  match p.nextInstr with
  | none => p
  | some (w, i) =>
    let at_ := fun (l : List (Nat × Nat)) (c : Nat) =>
      if fG w = 0 then cycle + latencyOf i else max (alGetD l c 0) (cycle + latencyOf i)
    { p with usable := (makesOf i).foldl (fun l c => alPut c (at_ l c) l) p.usable }

/-- How the sequencer stands after an instruction of a pack has issued. -/
def State.payIssue (s : State) (p : Pack) (t : Team) : State :=
  let hold := (p.nextInstr.map fun x => sfuCycles x.1 x.2).getD 0
  s.onSeq p.mast fun q =>
    let q1 := q.pay s.floors (s.readyClasses p.mast) (s.heldClasses p.mast) p (s.teamClass t) (s.teamCtx t)
    { q1 with
      issued := alPut p.pipe s.cycle q1.issued
      sfu := if hold = 0 then q1.sfu else alPut p.pipe (s.cycle + hold) q1.sfu }

/-- PIPE_ISSUE: a pipe issues at most one instruction in a cycle, the next one of the earliest-formed pack that is ready; the record of
a restored team becomes free with its first pack (R359). -/
def execPipeIssue (mast pipe : Nat) (s : State) : Host.Outcome State Fault Refusal :=
  if alGet pipe (s.mast mast).seq.issued = some s.cycle then .next s
  else
    match s.issueChoice mast pipe with
    | none => .next s
    | some p =>
      let t := (s.team? p.team).getD default
      let s1 := match t.place with
        | .restored .. => (s.freeRecord t).onTeam p.team fun u => { u with place := .resident }
        | _ => s
      let s2 := (s1.payIssue p t).firstIssue t.launch
      .next { s2 with flight := s2.flight.filter (·.id != p.id), issue := some (p.noteResults s.cycle) }

end Sys2Proof.Machine
end

