-- ==== Sys2Proof/Machine/Agenda.lean ====
section
/-! DEFINITION. What comes next: the word that an issued pack fetches, or the next due device step of the agenda or of the free
schedule (log entry 2). -/

namespace Sys2Proof.Machine

/-- Whether a step is one of the device's own, rather than an instruction word. -/
def isEvent : Instr → Bool
  | .moduleReset | .selfTestDone | .imageLen .. | .verifyDone | .startGo .. | .contextCreate ..
  | .contextDestroy .. | .contextDestroyComplete | .queueCreate .. | .queueDestroy .. | .queueResume .. | .setFloors ..
  | .attest .. | .setSaveArea .. | .wake .. | .hoGoToHost .. | .hoGoToDevice .. | .handoverComplete ..
  | .tlbiGo .. | .tlbiAll .. | .tlbiComplete | .learn .. | .learnComplete | .load ..
  | .loadComplete | .recode .. | .recodeComplete | .retry .. | .abort .. | .registerWrite ..
  | .packetCoreScan .. | .mappingRound .. | .nopPacket .. | .dispatch .. | .draw .. | .copyLinear ..
  | .copyFill .. | .copyTwoD .. | .copyEngineDone .. | .signalPacketWrite .. | .signalPacketAdd .. | .wait ..
  | .waitPoll .. | .waitTimeout .. | .handoverToHost .. | .handoverToDevice .. | .encode .. | .hypresConfirm ..
  | .hypresRefute .. | .packetComplete .. | .admissionStep | .rasterPixelTeam .. | .rasterQuadTimeout .. | .outputMerge ..
  | .encodeFrameEnd .. | .packForm .. | .binGatherExpiry .. | .binAgeExpiry .. | .rallyTimeout .. | .icacheFill ..
  | .pipeIssue .. | .blockResolve .. | .resultLand .. | .pauseExpiry .. | .copyComplete .. | .mxPassStart ..
  | .mxOpComplete .. | .smmaArrayGrant .. | .samplerFillLand .. | .hinvComplete .. | .atombFlushComplete .. | .epochClose ..
  | .acqrComplete .. | .resolveComplete .. | .scrubberStart .. | .scrubBlock .. | .l2Replace .. | .hostWindowAccess ..
  | .peerAccess .. | .peerTimeout .. | .teamRetire .. | .launchFinish .. | .watchdogExpiry .. | .powerSample ..
  | .preemptRequest .. | .teamSave .. | .teamSwap .. | .teamRestore .. | .eccCorrected | .eccUncorrectable ..
  | .cmdLo .. | .beadGoOpNone .. => true
  | _ => false

/-- Every thread of the pack raises ILLEGAL with a cause at its next word, and the block ends there (R52). -/
def State.illegal (s : State) (p : Pack) (cause : Nat) : State :=
  s.toFlight ({ p.mapLanes (fun _ ln => ln.raise p.pc cause) with ended := true })

/-- The head of the agenda, or of the free schedule when the agenda is empty, and the state without it. -/
def State.takeDue (s : State) : Due × State :=
  match s.agenda with
  | d :: r => (d, { s with agenda := r })
  | [] =>
    let d := Config.schedule s.tick
    (⟨d.1, d.2⟩, { s with tick := s.tick + 1 })

/-- The next due step: the nanoseconds before it, the step, and the state that has taken it. A line that L2 has to replace goes first
(R235, R236), then a mapping round that falls due before the step at hand, which stays on the agenda with what is left of its time
(R113). -/
def State.nextDue (s : State) : Nat × Instr × State :=
  match s.l2Victim with
  | some line => (0, .l2Replace (128 * line), s)
  | none =>
    let (d, s1) := s.takeDue
    if s.roundAt ≤ s.ns + d.ns then
      let wait := s.roundAt - s.ns
      (wait, .mappingRound (Config.unmaps s.free), { s1 with agenda := ⟨d.ns - wait, d.step⟩ :: s1.agenda, free := s.free + 1 })
    else (d.ns, d.step, s1)

/-- What a cycle leaves behind as a later one begins: the sequencers look at it (R160), and the launches that took a program trap in it
end (R352). -/
def State.endCycle (s : State) (before : Nat) : State := if s.cycle = before then s else (s.look before).endDying

/-- Time passes before a step: queues that have gained work are noted (R113), copies in flight go on (R270), and the clocks run. -/
def State.elapse (s : State) (n : Nat) : State := ((s.noteWork.driftCopies).pass n).endCycle s.cycle

end Sys2Proof.Machine
end

