-- ==== Sys2Proof/Machine/Start.lean ====
section
/-! DEFINITION. Start: reset, self-test, the firmware image and its checks, feature acceptance (R85 to R90). -/

namespace Sys2Proof.Machine

/-- Codes of FAIL (R89). -/
def failRSA : Nat := 1
def failSLH : Nat := 2
def failROLLBACK : Nat := 3
def failFORMAT : Nat := 4
def failFEATURE : Nat := 5

/-- Offsets and sizes of the image's signature fields (R88). -/
def rsaOff : Nat := 0x40
def rsaLen : Nat := 384
def slhOff : Nat := 0x200
def slhLen : Nat := 16224

/-- n bytes of local HBM from an address as the firmware cores read them; none when one bears poison. -/
def State.hbmBytes (s : State) (pa n : Nat) : Option (List Byte) :=
  let bs := (List.range n).map fun i => s.homeByte (pa + i)
  if bs.any (·.2) then none else some (bs.map (·.1))

/-- A field of four bytes of an image. -/
def imgWord (img : List Byte) (o : Nat) : Nat := leNat ((img.drop o).take 4)
/-- Whether every byte of a range is zero. -/
def zeroRange (img : List Byte) (lo hi : Nat) : Bool := ((img.drop lo).take (hi - lo)).all (· == 0)

/-- The limits of the image's header fields, which are judged before the rest is read (R88). -/
def headerLimits (img : List Byte) (len : Nat) : Bool :=
  let total := imgWord img 8
  let off := imgWord img 12
  let size := imgWord img 16
  let entry := imgWord img 20
  imgWord img 0 == 0x4D494650 && total == len && total % 4096 == 0 && 0x10000 ≤ total && total ≤ 0x4000000 &&
    off % 4096 == 0 && 0x5000 ≤ off && 4 ≤ size && off + size ≤ total && entry % 4 == 0 && decide (entry < size)

/-- The bytes that must be zero (R88). -/
def zerosOk (img : List Byte) : Bool :=
  let off := imgWord img 12
  zeroRange img 0x18 0x40 && zeroRange img 0x1C0 0x200 && zeroRange img 0x4160 off &&
    zeroRange img (off + imgWord img 16) img.length

/-- The image without its two signature fields, as the digest takes it (R87). -/
def signedPart (img : List Byte) : List Byte :=
  img.take rsaOff ++ ((img.drop (rsaOff + rsaLen)).take 64) ++ img.drop (slhOff + slhLen)

/-- The checks of R88 in their order: what the firmware cores keep of a good image, or the code of FAIL. -/
def State.verify (s : State) : Except Nat Firmware :=
  let len := s.start.imageLen.toNat
  match s.hbmBytes 0 64 with
  | none => .error failFORMAT
  | some h =>
    if headerLimits h len then
      match s.hbmBytes 0 len with
      | none => .error failFORMAT
      | some img =>
        let rsa := (img.drop rsaOff).take rsaLen
        let slh := (img.drop slhOff).take slhLen
        let digest := Config.sha384 (signedPart img)
        if !zerosOk img then .error failFORMAT
        else if !Config.rsaVerifies digest rsa then .error failRSA
        else if !Config.slhVerifies digest slh then .error failSLH
        else if imgWord img 4 < Config.fuseMinVersion then .error failROLLBACK
        else .ok ⟨imgWord img 4, rsa, slh, digest⟩
    else .error failFORMAT

/-- Move START_STATUS to a state with a FAIL code (R86, R89). -/
def State.startTo (s : State) (st : StartState) (fail : Nat) : State := { s with start := { s.start with st := st, fail := fail } }

/-- MODULE_RESET (R86): every register and all SRAM return to reset; HBM, host memory and the peers are no part of them. -/
def execModuleReset (s : State) : Host.Outcome State Fault Refusal :=
  .next { State.reset with
    mem := s.mem, poison := s.poison, peers := s.peers, agenda := s.agenda, tick := s.tick, free := s.free, nextId := s.nextId }

/-- SELF_TEST_DONE (R86). -/
def execSelfTestDone (s : State) : Host.Outcome State Fault Refusal :=
  .next (if s.start.st = .reset then s.startTo .awaitImage 0 else s)

/-- IMAGE_LEN (R88). -/
def execImageLen (v : Word) (s : State) : Host.Outcome State Fault Refusal :=
  if s.start.st = .awaitImage ∨ s.start.st = .failed then
    let s1 : State := { s with start := { s.start with imageLen := v } }
    .next (s1.startTo .verifying 0)
  else .next s

/-- VERIFY_DONE (R87, R88). -/
def execVerifyDone (s : State) : Host.Outcome State Fault Refusal :=
  if s.start.st = .verifying then
    match s.verify with
    | .error f => .next (s.startTo .failed f)
    | .ok fw =>
      let s1 : State := { s with start := { s.start with fw := some fw } }
      .next (s1.startTo .awaitAccept 0)
  else .next s

/-- Whether an accepted set passes (R90). -/
def featuresPass (accept : BitVec 256) : Bool :=
  accept.getLsbD 0 && (accept &&& ~~~BitVec.ofNat 256 Config.featOffer) == 0

/-- START_GO (R86, R90). -/
def execStartGo (v : Word) (s : State) : Host.Outcome State Fault Refusal :=
  if v.getLsbD 0 && s.start.st == .awaitAccept then
    .next (if featuresPass s.start.featAccept then s.startTo .running 0 else s.startTo .awaitAccept failFEATURE)
  else .next s

end Sys2Proof.Machine
end

