-- ==== Sys2Proof/Machine/Regs.lean ====
section
/-! DEFINITION. The device register window (R5): what reads give and what writes do, for the registers of start (R89), commands (R94),
invalidation (R126), the bead table (R243 to R245), soft errors (R365), contexts (R353, R354) and kick pages (R98 to R100, R248). -/

namespace Sys2Proof.Machine

/-- Replace the k-th word of a wide value. -/
def putWord {n : Nat} (x : BitVec n) (k : Nat) (v : Word) : BitVec n :=
  (x &&& ~~~((0xFFFFFFFF : BitVec n) <<< (32 * k))) ||| (v.setWidth n <<< (32 * k))
/-- The k-th word of a wide value. -/
def getWord {n : Nat} (x : BitVec n) (k : Nat) : Word := (x >>> (32 * k)).setWidth 32

/-- The code of STATE (R89). -/
def StartState.code : StartState → Nat
  | .reset => 0
  | .awaitImage => 1
  | .verifying => 2
  | .awaitAccept => 3
  | .running => 4
  | .failed => 5

/-- The kick-page registers of a queue (R98, R248). -/
def State.hand (s : State) (q : Nat) : Handover := alGetD s.handregs q ⟨0, 0, false, false, false, 0, false⟩
/-- Put a queue's kick-page registers. -/
def State.setHand (s : State) (q : Nat) (h : Handover) : State := { s with handregs := alPut q h s.handregs }
/-- The fault registers of a context (R353). -/
def State.faultOf (s : State) (c : Nat) : CtxFault := alGetD s.cfault c ⟨false, 0, [0, 0, 0, 0]⟩

/-- COUNT of a bead-table slot (R243): the coded blocks in memory whose header names it. -/
def State.codedCount (s : State) (slot : Nat) : Nat :=
  (s.nsec.filter fun x => x.2 < 8 && (memGet s.mem (256 * x.1)).toNat % 4 == slot).length

/-- Queues of the device, and the window offset of their kick pages (R98). -/
def queueLimit : Nat := 1024
def kickBase : Nat := 0x100000

/-! ### Reads -/

/-- What a read of a kick page gives (R98, R99, R248). -/
def State.readKick (s : State) (q o : Nat) : Word :=
  let x := s.queueD q
  let h := s.hand q
  if o = 0x008 then
    BitVec.ofNat 32 (s.qstate q + 256 * x.cause.toNat + if h.miss then 65536 else 0)
  else if o = 0x00C then x.errIndex
  else if o = 0x010 then x.c
  else if o = 0x100 then loW h.addr
  else if o = 0x104 then hiW h.addr
  else if o = 0x108 then loW h.bytes
  else if o = 0x10C then hiW h.bytes
  else if o = 0x110 then
    BitVec.ofNat 32 ((if h.dir then 1 else 0) + (if h.busy then 4 else 0) + (if h.err then 8 else 0) + 256 * h.cause.toNat)
  else 0

/-- What a read of a context's fault registers gives (R353). -/
def State.readCtx (s : State) (c o : Nat) : Word :=
  let n := s.fcount c
  let f := s.faultOf c
  let va := ((s.ctxD c).fvas).headD 0
  if o = 0 then BitVec.ofNat 32 ((if n = 0 then 0 else 1) + (if f.lfault then 2 else 0) + 256 * f.lcode.toNat)
  else if o = 4 then BitVec.ofNat 32 n
  else if o = 8 then (if n = 0 then 0 else BitVec.ofNat 32 va)
  else if o = 12 then (if n = 0 then 0 else BitVec.ofNat 32 (va / 2 ^ 32))
  else if 16 ≤ o then f.words.getD ((o - 16) / 4) 0
  else 0

/-- What a read of the bead-table registers gives (R243). -/
def State.readBead (s : State) (off : Nat) : Word :=
  let b := s.bead
  let slot := fun (i : Nat) => b.slots.getD i ⟨.empty, []⟩
  let code := fun (x : SlotState) => match x with
    | .empty => 0
    | .learning => 1
    | .frozen => 2
  if off = 0x600 then
    BitVec.ofNat 32 (b.slot.toNat + 4 * b.op.toNat + (if b.adopt then 16 else 0) + (if b.job.isSome then 64 else 0) +
      256 * b.cur.toNat + 65536 * b.samples.toNat)
  else if off = 0x604 then b.result.setWidth 32
  else if off = 0x608 then loW b.addr
  else if off = 0x60C then hiW b.addr
  else if off = 0x610 then loW b.len
  else if off = 0x614 then hiW b.len
  else if 0x618 ≤ off ∧ off < 0x638 then
    let i := (off - 0x618) / 8
    if off % 8 = 0 then BitVec.ofNat 32 (s.codedCount i)
    else BitVec.ofNat 32 (s.codedCount i / 2 ^ 32 % 65536 + 65536 * code (slot i).st)
  else if 0x700 ≤ off ∧ off < 0xB00 then
    let i := (off - 0x700) / 256
    let k := (off - 0x700) % 256
    BitVec.ofNat 32 ((List.range 4).foldl (fun a j => a + ((slot i).lens.getD (k + j) 0) * 256 ^ j) 0)
  else 0

/-- What the host reads at a word of the device register window (R5); write-only and reserved fields read zero. -/
def State.readReg (s : State) (off : Nat) : Word :=
  if off = 0x000 then BitVec.ofNat 32 (s.start.st.code + 16 * s.start.fail)
  else if 0x100 ≤ off ∧ off < 0x120 then getWord (BitVec.ofNat 256 Config.featOffer) ((off - 0x100) / 4)
  else if 0x120 ≤ off ∧ off < 0x140 then getWord s.start.featAccept ((off - 0x120) / 4)
  else if off = 0x404 then s.cmd.hi
  else if off = 0x408 then
    BitVec.ofNat 32 ((if s.cmd.busy then 1 else 0) + (if s.cmd.lost then 2 else 0) + 256 * s.cmd.result.toNat)
  else if off = 0x500 then loW s.tlbi.addr
  else if off = 0x504 then hiW s.tlbi.addr
  else if off = 0x508 then
    BitVec.ofNat 32 (s.tlbi.ctx.toNat + (if s.tlbi.all then 16 else 0) + 32 * s.tlbi.size.toNat +
      (if s.tlbi.job.isSome then 512 else 0))
  else if 0x600 ≤ off ∧ off < 0xB00 then s.readBead off
  else if off = 0xB00 then s.ceCount
  else if off = 0xB04 then s.ueCount
  else if off = 0xB08 then loW s.ueAddr
  else if off = 0xB0C then hiW s.ueAddr
  else if 0xC00 ≤ off ∧ off < 0xE00 then s.readCtx ((off - 0xC00) / 0x20) ((off - 0xC00) % 0x20)
  else if kickBase ≤ off ∧ off < kickBase + queueLimit * 0x1000 then s.readKick ((off - kickBase) / 0x1000) ((off - kickBase) % 0x1000)
  else 0

/-! ### Plain writes (R5) -/

/-- The RW fields of the invalidation control register (R126). -/
def State.putTlbi (s : State) (v : Word) : State :=
  { s with tlbi := { s.tlbi with ctx := v.extractLsb' 0 4, all := v.getLsbD 4, size := v.extractLsb' 5 3 } }
/-- The RW fields of the bead-table control register (R243). -/
def State.putBeadCtl (s : State) (v : Word) : State :=
  { s with bead := { s.bead with slot := v.extractLsb' 0 2, op := v.extractLsb' 2 2, adopt := v.getLsbD 4,
                                 cur := v.extractLsb' 8 2, samples := v.extractLsb' 16 16 } }
/-- DIR and the W1C bit ERR of a kick page (R248). -/
def State.putHandCtl (s : State) (q : Nat) (v : Word) : State :=
  let h := s.hand q
  s.setHand q { h with dir := v.getLsbD 0, err := h.err && !v.getLsbD 3 }

/-- A plain write to a kick page. -/
def State.writeKick (s : State) (q o : Nat) (v : Word) : State :=
  let h := s.hand q
  if o = 0x008 then s.setHand q { h with miss := h.miss && !v.getLsbD 16 }
  else if o = 0x100 then s.setHand q { h with addr := putWord h.addr 0 v }
  else if o = 0x104 then s.setHand q { h with addr := putWord h.addr 1 v }
  else if o = 0x108 then s.setHand q { h with bytes := putWord h.bytes 0 v }
  else if o = 0x10C then s.setHand q { h with bytes := putWord h.bytes 1 v }
  else if o = 0x110 ∧ v.getLsbD 1 = false then s.putHandCtl q v
  else s

/-- LFAULT is W1C (R353). -/
def State.clearLfault (s : State) (c : Nat) (v : Word) : State :=
  if v.getLsbD 1 then
    let f := { s.faultOf c with lfault := false }
    { s with cfault := alPut c f s.cfault }
  else s

/-- A write to a word of the window that starts nothing (R5): RW fields take the value, W1C bits clear, everything else is
ignored. -/
def State.writeReg (s : State) (off : Nat) (v : Word) : State :=
  if 0x120 ≤ off ∧ off < 0x140 ∧ s.start.st = .awaitAccept then
    { s with start := { s.start with featAccept := putWord s.start.featAccept ((off - 0x120) / 4) v } }
  else if off = 0x404 then { s with cmd := { s.cmd with hi := v } }
  else if off = 0x408 then { s with cmd := { s.cmd with lost := s.cmd.lost && !v.getLsbD 1 } }
  else if off = 0x500 then { s with tlbi := { s.tlbi with addr := putWord s.tlbi.addr 0 v } }
  else if off = 0x504 then { s with tlbi := { s.tlbi with addr := putWord s.tlbi.addr 1 v } }
  else if off = 0x508 ∧ v.getLsbD 8 = false then s.putTlbi v
  else if off = 0x600 ∧ v.getLsbD 5 = false then s.putBeadCtl v
  else if off = 0x608 then { s with bead := { s.bead with addr := putWord s.bead.addr 0 v } }
  else if off = 0x60C then { s with bead := { s.bead with addr := putWord s.bead.addr 1 v } }
  else if off = 0x610 then { s with bead := { s.bead with len := putWord s.bead.len 0 v } }
  else if off = 0x614 then { s with bead := { s.bead with len := putWord s.bead.len 1 v } }
  else if off = 0xB00 then { s with ceCount := v }
  else if off = 0xB04 then { s with ueCount := v }
  else if 0xC00 ≤ off ∧ off < 0xE00 ∧ (off - 0xC00) % 0x20 = 0 ∧ v.getLsbD 16 = false ∧ v.getLsbD 17 = false then
    s.clearLfault ((off - 0xC00) / 0x20) v
  else if kickBase ≤ off ∧ off < kickBase + queueLimit * 0x1000 then
    s.writeKick ((off - kickBase) / 0x1000) ((off - kickBase) % 0x1000) v
  else s

/-- REGISTER_WRITE: a write of one word to a register that has no row of its own (R5). -/
def execRegisterWrite (off : Nat) (v : Word) (s : State) : Host.Outcome State Fault Refusal :=
  .next (if off % 4 = 0 then s.writeReg off v else s)

/-! ### WAKE (R100) -/

/-- WAKE: a wake write is ignored, accepted as W, or puts the queue in ERROR (R99, R100). -/
def execWake (q : Nat) (v : Word) (s : State) : Host.Outcome State Fault Refusal :=
  match s.queue? q with
  | none => .next s
  | some x =>
    let d := (v - x.w).toNat
    if d = 0 ∨ 2 ^ 31 ≤ d then .next s
    else if (v - x.c).toNat ≤ 2 ^ x.size then .next (s.setQueue { x with w := v })
    else .next (s.queueError q eWAKE v none false)

/-! ### Invalidation (R126) -/

/-- The page sizes of SIZE (R126). -/
def tlbiBytes (size : Nat) : Option Nat :=
  match size with
  | 0 => some (2 ^ 12)
  | 1 => some (2 ^ 16)
  | 2 => some (2 ^ 22)
  | 3 => some (2 ^ 26)
  | 4 => some (2 ^ 32)
  | _ => none

/-- TLBI_GO: a GO with ALL clear starts removing what overlaps the aligned page; a reserved SIZE, and a GO while BUSY, are
ignored. -/
def execTlbiGo (v : Word) (s : State) : Host.Outcome State Fault Refusal :=
  if v.getLsbD 8 && !v.getLsbD 4 then
    let s1 := s.putTlbi v
    match s1.tlbi.job, tlbiBytes s1.tlbi.size.toNat with
    | none, some n =>
      let a := s1.tlbi.addr.toNat
      let s2 : State := { s1 with tlbi := { s1.tlbi with job := some (s1.tlbi.ctx.toNat, a / n * n, n) } }
      .next s2
    | _, _ => .next s1
  else .next s

/-- TLBI_ALL: a GO with ALL set starts removing every cached translation of the context. -/
def execTlbiAll (v : Word) (s : State) : Host.Outcome State Fault Refusal :=
  if v.getLsbD 8 && v.getLsbD 4 then
    let s1 := s.putTlbi v
    match s1.tlbi.job with
    | none =>
      let s2 : State := { s1 with tlbi := { s1.tlbi with job := some (s1.tlbi.ctx.toNat, 0, 2 ^ 64) } }
      .next s2
    | some _ => .next s1
  else .next s

/-- The staging entries of a context flush on every mast, since they hold translations. -/
def State.flushCtx (s : State) (c : Nat) : State :=
  s.masts.foldl (fun (a : State) m =>
    let n := ((a.mast m.num).staging.filter fun e => e.ctx == c).length
    let (ks, b) := a.choices n
    b.flushWhere m.num (fun e => e.ctx == c) ks) s

/-- A contribution or partial of a DET launch of a context has still to be merged at an address of a range (R328). -/
def State.detHolds (s : State) (c base n : Nat) : Bool :=
  let hits := fun (va : Nat) => decide (va < base + n) && decide (base < va + 8)
  (s.teams.any fun t => s.ofCtx c t && ((t.staging.any fun e => hits e.va) || t.partials.any fun p => hits p.va)) ||
    s.launches.any fun l => l.ctx == c && l.partials.any fun p => hits p.2.va

/-- TLBI_COMPLETE: the translations are gone, and every block that checked one has finished its accesses: copies in flight of the
context complete and its staging entries merge; contributions and partials of a DET launch in the range are waited for, since they
merge only at the close of their epoch and at launch end (R126, R328; log entry 82). -/
def execTlbiComplete (s : State) : Host.Outcome State Fault Refusal :=
  match s.tlbi.job with
  | none => .next s
  | some (c, base, n) =>
    if s.detHolds c base n then .next s
    else
      let s1 := s.completeCopies (s.asyncs.filter fun a => (s.team? a.team).any (s.ofCtx c))
      let s2 := (s1.flushCtx c).tlbDrop fun t => t.ctx == c && decide (base < t.va + t.bytes) && decide (t.va < base + n)
      .next { s2 with tlbi := { s2.tlbi with job := none } }

/-! ### The bead table (R243 to R245) -/

/-- RESULT of a bead-table command (R243). -/
def State.beadResult (s : State) (r : Nat) : State := { s with bead := { s.bead with result := BitVec.ofNat 8 r, job := none } }
/-- Start a bead-table command. -/
def State.beadStart (s : State) (j : BeadJob) : State := { s with bead := { s.bead with job := some j } }
/-- A GO write with an OP starts its command unless one is in progress; OP is that of the write. -/
def State.beadGo (s : State) (v : Word) (op : Nat) (f : State → State) : State :=
  if v.getLsbD 5 && (v.extractLsb' 2 2).toNat == op then
    let s1 := s.putBeadCtl v
    if s1.bead.job.isSome then s1 else f s1
  else s
/-- Put a bead-table slot. -/
def State.setSlot (s : State) (i : Nat) (b : BeadSlot) : State := { s with bead := { s.bead with slots := s.bead.slots.set i b } }

/-- LEARN (R244): BAD-ARG comes before SLOT-IN-USE (DESIGN CHOICE, log entry 99). -/
def execLearn (v : Word) (s : State) : Host.Outcome State Fault Refusal :=
  .next (s.beadGo v 1 fun a =>
    let i := a.bead.slot.toNat
    if a.bead.samples = 0 then a.beadResult 3
    else if a.codedCount i ≠ 0 then a.beadResult 1
    else
      let b : State := { a with bead := { a.bead with hist := List.replicate 256 0 } }
      (b.setSlot i { (b.bead.slots.getD i ⟨.empty, []⟩) with st := .learning }).beadStart (.learn i a.bead.samples.toNat a.bead.adopt))

/-- A slot is frozen with lengths, and adopted if ADOPT was set (R243, R244). -/
def State.freeze (s : State) (i : Nat) (lens : List Nat) (adopt : Bool) : State :=
  let s1 := s.setSlot i ⟨.frozen, lens⟩
  let s2 : State := if adopt then { s1 with bead := { s1.bead with cur := BitVec.ofNat 2 i } } else s1
  s2.beadResult 0

/-- LEARN_COMPLETE: after SAMPLES blocks the device chooses lengths (R244, R245). -/
def execLearnComplete (s : State) : Host.Outcome State Fault Refusal :=
  match s.bead.job with
  | some (.learn i 0 adopt) =>
    let lens := Config.learnLengths s.bead.hist
    .next (s.freeze i (if lensValid lens then lens else List.replicate 256 8) adopt)
  | _ => .next s

/-- LOAD (R244): BAD-ARG comes before SLOT-IN-USE (DESIGN CHOICE, log entry 99). -/
def execLoad (v : Word) (s : State) : Host.Outcome State Fault Refusal :=
  .next (s.beadGo v 2 fun a =>
    let i := a.bead.slot.toNat
    if a.bead.addr.toNat % 256 ≠ 0 then a.beadResult 3
    else if a.codedCount i ≠ 0 then a.beadResult 1
    else a.beadStart (.load i a.bead.addr.toNat a.bead.adopt))

/-- LOAD_COMPLETE: a valid set freezes the slot; an invalid one, or one that cannot be read, leaves it unchanged (R244, R245). -/
def execLoadComplete (s : State) : Host.Outcome State Fault Refusal :=
  match s.bead.job with
  | some (.load i addr adopt) =>
    match s.readPhys addr 256 with
    | some bs =>
      let lens := bs.map (·.toNat)
      .next (if lensValid lens then s.freeze i lens adopt else s.beadResult 2)
    | none => .next (s.beadResult 2)
  | _ => .next s

/-- RECODE (R244). -/
def execRecode (v : Word) (s : State) : Host.Outcome State Fault Refusal :=
  .next (s.beadGo v 3 fun a =>
    if a.bead.addr.toNat % 256 ≠ 0 ∨ a.bead.len.toNat % 256 ≠ 0 then a.beadResult 3
    else a.beadStart (.recode a.bead.slot.toNat a.bead.addr.toNat a.bead.len.toNat))

/-- Write the NSEC sectors of a block's stored form, which then bear no poison; the bytes above them keep what was there (R239; log
entry 44). -/
def State.putStored (s : State) (blk nsec : Nat) (bs : List Byte) : State :=
  let s1 := (List.range (32 * nsec)).foldl (fun (a : State) i => { a with mem := memPut (256 * blk + i) (bs.getD i 0) a.mem }) s
  { s1 with nsec := if nsec < 8 then alPut blk nsec s1.nsec else alDel blk s1.nsec
            poison := s1.poison.filter fun a => !(256 * blk ≤ a && a < 256 * blk + 32 * nsec) }

/-- Encode a block of plain bytes with CUR as a write-back does (R240); a block with poison is stored RAW. -/
def State.encodeAt (s : State) (blk : Nat) (bs : List (Byte × Bool)) : State :=
  if bs.any (·.2) then { s with nsec := alDel blk s.nsec }
  else
    let cur := s.bead.cur.toNat
    let r := encodeBlock cur (s.slotLens cur) (bs.map (·.1))
    s.putStored blk r.1 r.2

/-- Re-encode one coded block whose header names a slot; one that does not decode keeps its stored form. -/
def State.recodeBlock (s : State) (slot blk : Nat) : State :=
  let d := s.decodedBlock (256 * blk)
  if (memGet s.mem (256 * blk)).toNat % 4 ≠ slot ∨ d.2 < 8 ∨ d.1.any (·.2) then s else s.encodeAt blk d.1

/-- RECODE_COMPLETE: every coded block of the range that names the slot has been encoded with CUR (R244). -/
def execRecodeComplete (s : State) : Host.Outcome State Fault Refusal :=
  match s.bead.job with
  | some (.recode slot addr len) =>
    let blks := (s.nsec.filter fun x => x.2 < 8 && addr ≤ 256 * x.1 && 256 * x.1 < addr + len).map (·.1)
    .next ((blks.foldl (fun (a : State) b => a.recodeBlock slot b) s).beadResult 0)
  | _ => .next s

/-- BEAD_GO_OP_NONE: a GO write with OP 0 gives BAD-ARG; it is ignored while BUSY (R243, R244). -/
def execBeadGoOpNone (v : Word) (s : State) : Host.Outcome State Fault Refusal :=
  .next (s.beadGo v 0 fun a => a.beadResult 3)

/-- A block written through COMP leaves is encoded with CUR as its line is written back, and counted by a LEARN (R240, R244). -/
def State.encodeDirty (s : State) (blk : Nat) : State :=
  if s.dirtyComp.contains blk then
    let bs := s.storedBlock (256 * blk)
    let s1 : State := { s with dirtyComp := s.dirtyComp.filter (· != blk) }
    let s2 := s1.encodeAt blk bs
    match s.bead.job with
    | some (.learn i (n + 1) adopt) =>
      let h := bs.foldl (fun (l : List Nat) b => l.modify b.1.toNat (· + 1)) s.bead.hist
      { s2 with bead := { s2.bead with hist := h, job := some (.learn i n adopt) } }
    | _ => s2
  else s
/-- The line of an address leaves L2: dirty bytes of host memory go to host memory (R235), a written block of a compressed page to its
stored form (R240). -/
def State.l2Evict (s : State) (pa : Nat) : State :=
  let s1 : State := { s with l2 := s.l2.filter (·.line != pa / 128) }
  if isHost pa then (s1.hostWriteBack (pa / 128 * 128) 128).hostDrop (pa / 128 * 128) 128 else s1.encodeDirty (pa / 256)

/-- L2_REPLACE: the line that L2 replaces next leaves it (R235, R236); a step that names another address names no line to be
replaced. -/
def execL2Replace (pa : Nat) (s : State) : Host.Outcome State Fault Refusal :=
  if s.l2Victim = some (pa / 128) then .next (s.l2Evict pa) else .next s

/-! ### Faults of a context (R354) -/

/-- Return the FAULTED threads of a team to their bins (R354). -/
def Team.retry (t : Team) (cycle : Nat) : Team :=
  (List.range t.threads.length).foldl (fun (a : Team) i =>
    let x := a.thread i
    if x.st = .faulted then a.stand cycle i x.next x.waits else a) t

/-- RETRY: every FAULTED thread of the context, resident or saved, goes back to the bin of its block. A write that sets ABORT too
is ABORT's. -/
def execRetry (ctx : Nat) (v : Word) (s : State) : Host.Outcome State Fault Refusal :=
  let s0 := s.clearLfault ctx v
  if v.getLsbD 16 && !v.getLsbD 17 then
    let ts := s0.teams.map fun t => if s0.ofCtx ctx t then t.retry s0.cycle else t
    let s1 : State := { s0 with teams := ts }
    match s1.ctx? ctx with
    | some c => .next (s1.setCtx { c with fvas := [] })
    | none => .next s1
  else .next s0

/-- ABORT: every launch of the context with a FAULTED thread ends with cause FAULT. -/
def execAbort (ctx : Nat) (v : Word) (s : State) : Host.Outcome State Fault Refusal :=
  let s0 := s.clearLfault ctx v
  if v.getLsbD 17 then
    let ls := s0.launches.filter fun l => l.ctx == ctx &&
      s0.teams.any fun t => t.launch == l.id && t.threads.any (·.st == .faulted)
    .next ((s0.endLaunches eFAULT ls).tidyFaults ctx)
  else .next s0

end Sys2Proof.Machine
end

