-- ==== Sys2Proof/Machine/Commands.lean ====
section
/-! DEFINITION. Driver commands (R91, R94 to R97, R99, R111, R112, R360, R378): what a write to CMD_LO starts. -/

namespace Sys2Proof.Machine

/-- RESULT codes (R94). -/
def rOK : Nat := 0
def rBADARG : Nat := 1
def rINUSE : Nat := 2
def rDENIED : Nat := 3

/-- A command ends with a result. -/
def State.result (s : State) (r : Nat) : State :=
  { s with cmd := { s.cmd with result := BitVec.ofNat 8 r, busy := false } }

/-- A command block as it is read (R94). -/
structure CmdBlock where
  op    : Nat
  num   : Nat
  addr  : Nat
  nonce : List Byte

/-- The command block at an address: none when it is misaligned, reserved, poisoned, or not zero at the end (R94). -/
def State.cmdBlock (s : State) (a : Nat) : Option CmdBlock :=
  if a % 64 ≠ 0 then none
  else match s.readPhys a 64 with
    | none => none
    | some bs =>
      if ((bs.drop 0x30).all (· == 0)) then
        some ⟨leNat (bs.take 4), leNat ((bs.drop 4).take 4), leNat ((bs.drop 8).take 8), (bs.drop 16).take 32⟩
      else none

/-- A write to CMD_LO (R94): ignored while not RUNNING, LOST while BUSY, BAD-ARG without a readable block; else the command,
if the block names the operation of this step. -/
def State.command (s : State) (lo : Word) (mine : Nat → Bool) (f : CmdBlock → State) : State :=
  if s.start.st ≠ .running then s
  else if s.cmd.busy then { s with cmd := { s.cmd with lost := true } }
  else match s.cmdBlock (pairOf lo s.cmd.hi).toNat with
    | none => s.result rBADARG
    | some b => if mine b.op then f b else s

/-- A little-endian field of a byte list. -/
def fieldLE (bs : List Byte) (o n : Nat) : Nat := leNat ((bs.drop o).take n)

/-! ### Contexts (R95, R96, R378) -/

/-- Whether a context descriptor keeps its limits (R96). A PT_ROOT at or above 2^52 is no physical address and is refused too
(DEDUCED, log entry 90). -/
def ctxDescOk (d : List Byte) : Bool :=
  let root := fieldLE d 0 8
  let ovf := fieldLE d 0x20 8
  let size := fieldLE d 0x28 4
  root % 8192 == 0 && decide (root < 2 ^ 52) && fieldLE d 8 24 != 0 && ovf % 65536 == 0 &&
    (size == 0 || decide (ovf + 65536 * size ≤ Config.hbmEnd)) &&
    1 ≤ fieldLE d 0x2C 1 && fieldLE d 0x2C 1 ≤ 16 && fieldLE d 0x2D 1 ≤ 16 && decide (fieldLE d 0x2E 2 < 4096) &&
    1 ≤ fieldLE d 0x30 4 && fieldLE d 0x30 4 ≤ 1500 && fieldLE d 0x38 8 == 0

/-- The context that a descriptor describes. -/
def ctxOfDesc (n : Nat) (d : List Byte) : Ctx :=
  { (default : Ctx) with
    num := n, ptRoot := fieldLE d 0 8, coreSet := fieldLE d 8 24, hypOvf := fieldLE d 0x20 8, hypOvfSize := fieldLE d 0x28 4,
    l2Share := fieldLE d 0x2C 1, hypShare := if fieldLE d 0x2D 1 = 0 then 4 else fieldLE d 0x2D 1, encMask := fieldLE d 0x2E 2,
    powerCap := fieldLE d 0x30 4, watchdog := fieldLE d 0x34 4 }

/-- CONTEXT_CREATE (R94, R96, R378). -/
def execContextCreate (lo : Word) (s : State) : Host.Outcome State Fault Refusal :=
  .next (s.command lo (· == 1) fun b =>
    if 15 < b.num then s.result rBADARG
    else if (s.ctx? b.num).isSome then s.result rINUSE
    else match s.readPhys b.addr 64 with
      | none => s.result rBADARG
      | some d =>
        let c := ctxOfDesc b.num d
        if !ctxDescOk d then s.result rBADARG
        else if s.ctxs.any fun x => x.encMask &&& c.encMask != 0 then s.result rINUSE
        else (s.setCtx c).result rOK)

/-- The queues of a context are destroyed and its packets end without signals or successors; its handovers end where they stand, and
BUSY of a register handover clears (R95, R248; DEDUCED, log entry 90). -/
def State.stopQueues (s : State) (c : Nat) : State :=
  let mine := fun (q : Nat) => (s.queue? q).any (·.ctx == c)
  let cut := fun (q : Nat) => s.handovers.any fun h => h.ctx == c && h.packet.isNone && h.queue == q
  { s with packets := s.packets.filter fun p => !mine p.queue
           handovers := s.handovers.filter fun h => h.ctx != c
           handregs := s.handregs.map fun x => if cut x.1 then (x.1, { x.2 with busy := false }) else x
           queues := s.queues.filter (·.ctx != c) }

/-- Discard every launch in a list (R95, R114). -/
def State.discardLaunches (s : State) : List Launch → State
  | [] => s
  | l :: r => (s.discardLaunch l).discardLaunches r

/-- CONTEXT_DESTROY (R95): the queues stop and the teams are discarded; BUSY stays until the destroy is complete. -/
def execContextDestroy (lo : Word) (s : State) : Host.Outcome State Fault Refusal :=
  .next (s.command lo (· == 2) fun b =>
    if 15 < b.num ∨ (s.ctx? b.num).isNone then s.result rBADARG
    else
      let s1 := (s.discardLaunches (s.launches.filter (·.ctx == b.num))).stopQueues b.num
      { s1 with cmd := { s1.cmd with busy := true, destroying := some b.num } })

/-- Versions merged into the root are root data: they are written back before the rest is dropped (R95, R338). -/
def State.scrubMerged (s : State) (c : Ctx) : State :=
  (c.versions.filter fun v => resolveHyp c.hyps v.tag == 0).foldl (fun (a : State) v => a.scrubRoot c.num v) s

/-- A mast without anything of a context. -/
def Mast.dropCtx (m : Mast) (c : Nat) : Mast :=
  { m with
    l1 := m.l1.filter (·.ctx != c)
    icache := m.icache.filter (·.ctx != c)
    gens := m.gens.filter (·.1.1 != c)
    slines := m.slines.filter (·.ctx != c)
    sfills := m.sfills.filter (·.ctx != c)
    tlb := m.tlb.filter (·.ctx != c)
    pins := m.pins.filter (·.ctx != c) }

/-- The resolves of a context that have not taken effect take it, in their order: they are committed (R95, R342). -/
def State.applyPending (s : State) (c : Nat) : State :=
  (s.running.filterMap (Running.todoOf c)).foldl (fun (a : State) x => a.applyResolve c x.2) s

/-- CONTEXT_DESTROY_COMPLETE (R95): table, versions, save area, streams, pins, generations and translations are gone. -/
def execContextDestroyComplete (s : State) : Host.Outcome State Fault Refusal :=
  match s.cmd.destroying with
  | none => .next s
  | some n =>
    let sp := s.applyPending n
    let s0 := sp.scrubMerged (sp.ctxD n)
    let ofN := fun (r : Running) => match r with
      | .resolve _ x _ _ _ => x == n
      | .hinv _ x _ _ => x == n
      | .flush _ _ => false
      | .acqr _ x _ _ _ => x == n
    let s1 : State := { s0.tlbDrop (·.ctx == n) with
      ctxs := s0.ctxs.filter (·.num != n)
      running := s0.running.filter fun r => !ofN r
      streams := s0.streams.filter (·.ctx != n)
      masts := s0.masts.map fun m => m.dropCtx n
      throttled := s0.throttled.filter (·.1 != n)
      cmd := { s0.cmd with destroying := none } }
    .next (s1.result rOK)

/-! ### Queues (R97, R99, R112) -/

/-- Whether a queue descriptor keeps its limits (R97). RING and CONSUMED_ADDR at or above 2^52 are no virtual addresses and are refused
too, and the refusal is BAD-ARG as R96 has it for contexts (DEDUCED, log entry 90). -/
def State.queueDescOk (s : State) (d : List Byte) : Bool :=
  let cls := fieldLE d 9 1
  let per := fieldLE d 0x18 4
  let bud := fieldLE d 0x1C 4
  fieldLE d 0 8 % 4096 == 0 && decide (fieldLE d 0 8 < 2 ^ 52) && 4 ≤ fieldLE d 8 1 && fieldLE d 8 1 ≤ 16 && cls ≤ 3 &&
    fieldLE d 0x0A 1 ≤ 15 && (s.ctx? (fieldLE d 0x0A 1)).isSome && fieldLE d 0x0C 4 == 0 &&
    fieldLE d 0x10 8 % 8 == 0 && decide (fieldLE d 0x10 8 < 2 ^ 52) &&
    (if cls = 0 then 100 ≤ per && per ≤ 1000000 && 1 ≤ bud && bud ≤ per else per == 0 && bud == 0)

/-- The queue that a descriptor describes, IDLE with W and C 0 (R99). -/
def queueOfDesc (n : Nat) (d : List Byte) : Queue :=
  { (default : Queue) with
    num := n, ring := fieldLE d 0 8, size := fieldLE d 8 1, cls := fieldLE d 9 1, ctx := fieldLE d 0x0A 1,
    vector := fieldLE d 0x0B 1, consumedAddr := fieldLE d 0x10 8, period := fieldLE d 0x18 4, budget := fieldLE d 0x1C 4 }

/-- The sum of BUDGET ÷ PERIOD of FRAME queues on a mast, as numerator and denominator (R112). -/
def State.frameLoad (s : State) (qs : List Queue) (m : Nat) : Nat × Nat :=
  (qs.filter fun q => q.cls == 0 && bit (s.ctxD q.ctx).coreSet m).foldl
    (fun a q => (a.1 * q.period + q.budget * a.2, a.2 * q.period)) (0, 1)
/-- Whether FRAME admission holds on a mast under a floor in per cent (R112). -/
def State.frameFits (s : State) (qs : List Queue) (floor m : Nat) : Bool :=
  let r := s.frameLoad qs m
  decide (100 * r.1 ≤ floor * r.2)

/-- QUEUE_CREATE (R94, R97, R112). -/
def execQueueCreate (lo : Word) (s : State) : Host.Outcome State Fault Refusal :=
  .next (s.command lo (· == 3) fun b =>
    if queueLimit ≤ b.num then s.result rBADARG
    else if (s.queue? b.num).isSome then s.result rINUSE
    else match s.readPhys b.addr 32 with
      | none => s.result rBADARG
      | some d =>
        let q := queueOfDesc b.num d
        if !s.queueDescOk d then s.result rBADARG
        else if q.cls == 0 && !((coreMasts (s.ctxD q.ctx).coreSet).all fun m => s.frameFits (q :: s.queues) (s.floors.getD 0 0) m) then
          s.result rDENIED
        else (s.setQueue q).result rOK)

/-- QUEUE_DESTROY (R94, R99): reading stops; what has started runs on. -/
def execQueueDestroy (lo : Word) (s : State) : Host.Outcome State Fault Refusal :=
  .next (s.command lo (· == 4) fun b =>
    match s.queue? b.num with
    | none => s.result rBADARG
    | some q =>
      let s1 := s.setQueue { q with destroyed := true }
      let s2 : State := { s1 with packets := s1.packets.filter fun (p : Packet) => !(p.queue == b.num && p.parent.isNone && p.st == .read) }
      (s2.reapQueue b.num).result rOK)

/-- A packet in error is read again from where it was read (R94); one that cannot be read puts the queue in ERROR again. -/
def State.rereadPacket (s : State) (q : Queue) (p : Packet) : State :=
  match s.readRoot (s.ctxD q.ctx) p.addr 64 with
  | (s1, some bs) => s1.setPacket { p with words := leWords bs, tail := [], st := .read }
  | (s1, none) => s1.queueError q.num eFAULT p.index (some p.id) false

/-- QUEUE_RESUME (R94, R99): the queue leaves ERROR; a packet that the error names is skipped or read again. The skip of a packet whose
reading failed moves C past it and writes nothing at CONSUMED_ADDR, which follows reading (R100; DEDUCED, log entry 90). -/
def execQueueResume (lo : Word) (s : State) : Host.Outcome State Fault Refusal :=
  .next (s.command lo (· == 5) fun b =>
    match s.queue? b.num with
    | none => s.result rBADARG
    | some q =>
      if !q.error then s.result rBADARG
      else
        let skip := b.addr % 2 == 1
        let q1 := { q with error := false, errPacket := none, errUnread := false,
                           c := if q.errUnread && skip then q.c + 1 else q.c }
        let s1 := s.setQueue q1
        let s2 := match q.errPacket.bind s1.packet? with
          | none => s1
          | some p => if skip then s1.dropPacket p else s1.rereadPacket q1 p
        s2.result rOK)

/-! ### Floors, attestation, save areas (R91, R111, R360) -/

/-- SET_FLOORS (R94, R111, R112). -/
def execSetFloors (lo : Word) (s : State) : Host.Outcome State Fault Refusal :=
  .next (s.command lo (· == 6) fun b =>
    let f := (List.range 4).map fun i => bits b.addr (8 * i) 8
    if 100 < f.sum then s.result rBADARG
    else if (List.range Config.masts).all fun m => s.frameFits s.queues (f.getD 0 0) m then
      let s1 : State := { s with floors := f }
      s1.result rOK
    else s.result rDENIED)

/-- The attestation report (R91). -/
def State.report (s : State) (nonce : List Byte) : List Byte :=
  let fw := s.start.fw.getD ⟨0, [], [], []⟩
  let fit := fun (n : Nat) (l : List Byte) => (l ++ List.replicate n 0).take n
  let body := natLE 0x54525441 4 ++ natLE fw.version 4 ++ fit 16 Config.fuseDeviceId ++ fit 48 fw.digest ++ fit 32 nonce ++
    natLE s.start.featAccept.toNat 32 ++ fit 384 fw.rsaSig ++ fit 16224 fw.slhSig
  body ++ fit 96 (Config.deviceSign body)

/-- ATTEST (R91, R94). An address that is not a multiple of 64 gives BAD-ARG (DEDUCED, log entry 90). -/
def execAttest (lo : Word) (s : State) : Host.Outcome State Fault Refusal :=
  .next (s.command lo (· == 7) fun b =>
    let r := s.report b.nonce
    if b.addr % 64 ≠ 0 ∨ (List.range r.length).any (fun i => isReserved (b.addr + i)) then s.result rBADARG
    else (s.writePhys b.addr r).result rOK)

/-- SET_SAVE_AREA (R360). -/
def execSetSaveArea (lo : Word) (s : State) : Host.Outcome State Fault Refusal :=
  .next (s.command lo (· == 8) fun b =>
    match s.ctx? b.num with
    | none => s.result rBADARG
    | some c =>
      let base := bits b.addr 16 36 * 65536
      let size := b.addr % 65536 * 65536
      if 15 < b.num ∨ size = 0 ∨ 2 ^ 52 ≤ b.addr ∨ Config.hbmEnd < base + size then s.result rBADARG
      else if s.teams.any fun t => s.ofCtx b.num t && (match t.place with
          | .saved .. | .restored .. => true
          | _ => false) then s.result rINUSE
      else (s.setCtx { c with saveArea := some (base, size) }).result rOK)

/-- CMD_LO: a write whose block holds an OP of 0 or above 8 gives BAD-ARG (R94). -/
def execCmdLo (lo : Word) (s : State) : Host.Outcome State Fault Refusal :=
  .next (s.command lo (fun op => op == 0 || 8 < op) fun _ => s.result rBADARG)

end Sys2Proof.Machine
end

