-- ==== Sys2Proof/Machine/Ctrl.lean ====
section
/-! DEFINITION. Control transfer (R182 to R185). Every CTRL word ends its block and bears no guard; a thread whose next block
is not named here goes on at the word after the block. -/

namespace Sys2Proof.Machine

/-- What CTRL words share: S = 1 and G = 0. -/
def ctrlHdr : Hdr := ⟨true, 0⟩

/-- The target of a branch (R182). -/
def branchTarget (pc : Nat) (off : BitVec 19) : Nat := (((pc : Int) + 4 * off.toInt) % 2 ^ 32).toNat

/-- BRA and BRA.NOT on the predicate as it stands at the instruction (R182). -/
def branch (p : BitVec 3) (off : BitVec 19) (n : Bool) : State → Host.Outcome State Fault Refusal :=
  lanewise ctrlHdr [] [] fun e ln =>
    { ln with next := some (if (ln.pred p.toNat).xor n then branchTarget e.p.pc off else (e.p.pc + 4) % 2 ^ 32) }

/-- BRA p, label (R182). -/
def execBra (p : BitVec 3) (off : BitVec 19) : State → Host.Outcome State Fault Refusal := branch p off false

/-- BRA.NOT p, label (R182). -/
def execBraNot (p : BitVec 3) (off : BitVec 19) : State → Host.Outcome State Fault Refusal := branch p off true

/-- JMP label (R182). -/
def execJmp (off : BitVec 19) : State → Host.Outcome State Fault Refusal :=
  lanewise ctrlHdr [] [] fun e ln => { ln with next := some (branchTarget e.p.pc off) }

/-- The next block from a register (R183): a target that is not a multiple of 4 traps. -/
def Lane.jumpTo (ln : Lane) (word : Nat) (x : Word) : Lane :=
  if x.toNat % 4 ≠ 0 then ln.raise word cOPERAND else { ln with next := some x.toNat }

/-- CALL d, a (R183): the target is read before d is written. -/
def execCall (d a : Reg) : State → Host.Outcome State Fault Refusal :=
  lanewise ctrlHdr [(a, 1)] [(d, 1)] fun e ln =>
    (ln.wr d (BitVec.ofNat 32 (e.p.pc + 4))).jumpTo e.p.pc (e.rd ln a)

/-- JMPI a (R183). -/
def execJmpi (a : Reg) : State → Host.Outcome State Fault Refusal :=
  lanewise ctrlHdr [(a, 1)] [] fun e ln => ln.jumpTo e.p.pc (e.rd ln a)

/-- RET a (R183). -/
def execRet (a : Reg) : State → Host.Outcome State Fault Refusal :=
  lanewise ctrlHdr [(a, 1)] [] fun e ln => ln.jumpTo e.p.pc (e.rd ln a)

/-- EXIT (R185): the thread ends when its block commits. -/
def execExit : State → Host.Outcome State Fault Refusal :=
  lanewise ctrlHdr [] [] fun _ ln => { ln with exits := true }

end Sys2Proof.Machine
end

