-- ==== Sys2Proof/Machine/Encode.lean ====
section
/-! DEFINITION. Tail signals (R103, R105, R373) and the encode engines: streams, tiles, frame end (R378 to R381). -/

namespace Sys2Proof.Machine

/-! ### Signals of packets (R105, R373, R374) -/

/-- A signal of a packet core: a system-scope release, then the write, or the addition as a system-scope atomic, of 8 bytes at
their home or in host memory itself. None on a translation fault, or on poison that an addition reads; a tail signal stops on
poison at SIG_ADDR whatever its operation (R373). -/
def State.signalAt (s : State) (ctx addr value : Nat) (add tail : Bool) : Option State :=
  let c := s.ctxD ctx
  match s.xrange c addr 8 .wr with
  | .error _ => none
  | .ok g =>
    let s1 := s.systemRelease
    let r := s1.rmw c (agentOf ctx) (g.headD default).1 8 3 (!add) fun old =>
      some (if add then (old + value) % 2 ^ 64 else value % 2 ^ 64)
    if (add || tail) && r.2.2 then none else some r.1

/-- A field of a tail record by its byte offset (R103). -/
def Packet.tailW (p : Packet) (o : Nat) : Nat := (p.tail.getD (o / 4) 0).toNat
/-- An eight-byte field of a tail record. -/
def Packet.tailD (p : Packet) (o : Nat) : Nat := p.tailW o + 2 ^ 32 * p.tailW (o + 4)

/-- The tail signal of a packet: nothing when there is no tail record or SIG_ADDR is 0. -/
def State.tailSignal (s : State) (ctx : Nat) (p : Packet) : Option State :=
  if p.tail.isEmpty || p.tailD 0 == 0 then some s
  else s.signalAt ctx (p.tailD 0) (p.tailD 8) (bit (p.tailW 0x10) 0) true

/-- A packet that had started ends in error: it leaves its queue, which enters ERROR and names no packet to be read again. -/
def State.failStarted (s : State) (p : Packet) (cause : Nat) : State :=
  (s.queueError p.queue cause p.index none false).dropPacket p

/-- A started packet ends: its tail signal, then it is complete (R108). -/
def State.endWithTail (s : State) (ctx : Nat) (p : Packet) : State :=
  match s.tailSignal ctx p with
  | some s1 => s1.completePacket p
  | none => s.failStarted p eFAULT

/-! ### Parameters of a stream (R379) -/

/-- A parameter word of an armed stream by its byte offset. -/
def Stream.par (x : Stream) (o : Nat) : Nat := (x.params.getD (o / 4) 0).toNat
def Stream.width (x : Stream) : Nat := x.par 4 % 65536
def Stream.height (x : Stream) : Nat := x.par 4 / 65536
def Stream.pitch (x : Stream) : Nat := x.par 8
def Stream.format (x : Stream) : Nat := x.par 12
/-- The side of a tile (R380). -/
def tileSide : Nat := 64
def Stream.tilesAcross (x : Stream) : Nat := ceilDiv x.width tileSide
/-- The tiles of a frame. -/
def Stream.tileCount (x : Stream) : Nat := x.tilesAcross * ceilDiv x.height tileSide

/-! ### Pixels -/

/-- A colour channel stored as U8 (R377): clamped to 0..1, times 255, rounded to an integer; a NaN gives 0. -/
def toU8 (v : Nat) : Nat :=
  let x := unpack f32 v
  if x.isNan || ltFv x (.fin false 0 0) then 0
  else if !ltFv x (.fin false 1 0) then 255
  else match x with
    | .fin _ m e => (roundAt RNE false (m * 255) e 0 false).1
    | _ => 0

/-- A byte of a context's space in the root view for an engine: 0 and a mark where it is poisoned or has no translation. -/
def State.rootViewByte (s : State) (c : Ctx) (va : Nat) : Byte × Bool :=
  match s.xlate c va .rd with
  | .error _ => (0, true)
  | .ok l =>
    let b := (s.homeViewByte c 0 l).2
    if b.2 then (0, true) else b

/-- One pixel of a target as the engine takes it: R, G and B as U8 values, packed, and whether a source byte bore poison. -/
def State.framePixel (s : State) (c : Ctx) (x : Stream) (px py : Nat) : Nat × Bool :=
  let n := texelBytes x.format
  let bs := (List.range n).map fun i => s.rootViewByte c (x.target + py * x.pitch + px * n + i)
  let ch := texelOf x.format (bs.map (·.1))
  (toU8 (ch.getD 0 0) + 256 * toU8 (ch.getD 1 0) + 65536 * toU8 (ch.getD 2 0), bs.any (·.2))

/-- The places of a tile's pixels within the frame, row by row. -/
def Stream.places (x : Stream) (tile : Nat) : List (Nat × Nat) :=
  let tx := tile % x.tilesAcross * tileSide
  let ty := tile / x.tilesAcross * tileSide
  (List.range (min tileSide (x.height - ty))).flatMap fun j =>
    (List.range (min tileSide (x.width - tx))).map fun i => (tx + i, ty + j)

/-! ### Release of tiles (R380) -/

/-- Put a stream in the place of the one of its engine and number. -/
def State.setStream (s : State) (x : Stream) : State :=
  { s with streams := putBy (fun y => y.engine == x.engine && y.stream == x.stream) x s.streams }

/-- A stream is armed by an ENCODE that is not complete. -/
def Stream.armed (x : Stream) : Bool := x.packet.isSome
/-- Whether a tile of the frame has been released. -/
def Stream.released (x : Stream) (tile : Nat) : Bool := x.tiles.any (·.1 == tile)

/-- A tile is released, unless it has been released before, from the target's root contents as they stand at that moment: also a streamed
tile, where its draw has written nothing or another agent has written since (R14, R380; DESIGN CHOICE, log entry 57). -/
def State.releaseTile (s : State) (x : Stream) (tile : Nat) : Stream :=
  if x.released tile || x.tileCount ≤ tile then x
  else
    let c := s.ctxD x.ctx
    let ps := (x.places tile).map fun p => s.framePixel c x p.1 p.2
    { x with tiles := alPut tile (ps.map (·.1)) x.tiles, poison := x.poison || ps.any (·.2) }

/-- A draw under h releases tiles: at the root at once, under an open hypothesis they are held pending on it, under a refuted one
they are dropped. -/
def State.offerTiles (s : State) (x : Stream) (h : Nat) (tiles : List Nat) : State :=
  let hs := (s.ctxD x.ctx).hyps
  let t := resolveHyp hs h
  if isOrphan hs h then s
  else if t = 0 then s.setStream (tiles.foldl (fun a k => s.releaseTile a k) x)
  else
    let new := tiles.filter fun k => decide (k < x.tileCount) && !x.released k && !x.pending.contains (k, t)
    s.setStream { x with pending := x.pending ++ new.map fun k => (k, t) }

/-- Tiles whose hypothesis has merged into the root are read from the target in the root view. -/
def State.settleTiles (s : State) (ctx : Nat) : State :=
  (s.streams.filter fun x => x.ctx == ctx && x.armed).foldl (fun (a : State) x =>
    let due := (x.pending.filter (·.2 == 0)).map (·.1)
    a.setStream { (due.foldl (fun y k => a.releaseTile y k) x) with pending := x.pending.filter (·.2 != 0) }) s

/-- The armed stream of a context whose TARGET is an address. -/
def State.streamFor (s : State) (ctx target : Nat) : Option Stream :=
  s.streams.find? fun x => x.ctx == ctx && x.armed && x.target == target

/-! ### Frame end (R381) -/

/-- The pixels of a frame in tile order. -/
def Stream.pixels (x : Stream) : List Nat := (List.range x.tileCount).flatMap fun k => (alGet k x.tiles).getD []

/-- The colour values of a packed pixel. -/
def pixR (p : Nat) : Nat := p % 256
def pixG (p : Nat) : Nat := p / 256 % 256
def pixB (p : Nat) : Nat := p / 65536
/-- BT.709 luma of a pixel, times 10,000, on the scale of its U8 values. -/
def luma709 (p : Nat) : Nat := 2126 * pixR p + 7152 * pixG p + 722 * pixB p
/-- Y′ of a pixel at 8 bits in limited range: 16 + 219 × luma, rounded to an integer (R379). -/
def lumaSample (p : Nat) : Nat := 16 + (2 * 219 * luma709 p + 2550000) / (2 * 2550000)
/-- C′b and C′r of a pixel in limited range, less 128, as numerators: over 18,556 × 255 and over 15,748 × 255. -/
def cbNum (p : Nat) : Int := 224 * (10000 * (pixB p : Int) - luma709 p)
def crNum (p : Nat) : Int := 224 * (10000 * (pixR p : Int) - luma709 p)

/-- What the engine codes of a frame: its Y′CbCr 4:2:0 samples, Y′ then C′b then C′r (R379; log entry 91). -/
def Stream.frame (x : Stream) : List Nat :=
  x.pixels.map lumaSample ++ Config.chroma420 x.width x.height (x.pixels.map cbNum) ++
    Config.chroma420 x.width x.height (x.pixels.map crNum)

/-- The parameters that the engine takes: QP only when BITRATE is 0 (R379). -/
def Stream.coderPars (x : Stream) : List Nat :=
  [0, 4, 8, 12, 16].map x.par ++ [if x.par 0x10 = 0 then x.par 0x14 else 0, x.par 0x18]

/-- The stream after a frame: not armed, the frame in its history. -/
def Stream.afterFrame (x : Stream) (overflow : Bool) : Stream :=
  { x with packet := none, history := x.history ++ [x.coderPars ++ x.frame], cut := overflow, poison := false, tiles := [], pending := [] }

/-- The frame is coded and written: the bitstream, cut at BUF_BYTES, then OUT_BYTES and OUT_STATUS; whether it overflowed, none
on a translation fault, which leaves what was written before it. -/
def State.writeFrame (s : State) (x : Stream) (p : Packet) : State × Option Bool :=
  let c := s.ctxD x.ctx
  let all := Config.encodeFrame x.coderPars x.history x.frame
  let overflow := decide (p.w 0x20 < all.length)
  let out := all.take (p.w 0x20)
  let status := if overflow then 1 else if x.poison then 2 else 0
  match s.writeRoot c (p.d 0x10) out with
  | none => (s, none)
  | some s1 => match s1.writeRoot c (p.d 0x28 + 0x20) (natLE out.length 4 ++ natLE status 4) with
    | none => (s1, none)
    | some s2 => (s2, some overflow)

/-- ENCODE_FRAME_END: every tile of an armed stream's frame has been encoded; the bitstream, OUT_BYTES and OUT_STATUS are written,
then the tail signal is performed and the packet is complete. -/
def execEncodeFrameEnd (engine stream : Nat) (s : State) : Host.Outcome State Fault Refusal :=
  match s.streams.find? fun x => x.engine == engine && x.stream == stream with
  | none => .next s
  | some x =>
    match x.packet.bind s.packet? with
    | none => .next s
    | some p =>
      if x.tiles.length < x.tileCount then .next s
      else match s.writeFrame x p with
        | (s1, none) => .next ((s1.setStream (x.afterFrame false)).failStarted p eFAULT)
        | (s1, some overflow) => .next ((s1.setStream (x.afterFrame overflow)).endWithTail x.ctx p)

end Sys2Proof.Machine
end

