-- ==== Sys2Proof/Machine/Gfx.lean ====
section
/-! DEFINITION. Export instructions as they are recorded (R134 to R138). -/

namespace Sys2Proof.Machine

/-- An export of a stage: in any other team a thread whose guard is true traps ILLEGAL-STAGE (R134). -/
def stageExport (h : Hdr) (st : Stage) (src : Names) (f : Env → Lane → Lane) : State → Host.Outcome State Fault Refusal :=
  lanewise h src [] fun e ln => if e.t.stage ≠ st then ln.raise e.p.pc cSTAGE else f e ln

/-- Whether a recorded operation is a TASKOUT. -/
def MemOp.isTaskout : MemOp → Bool
  | .taskout _ _ => true
  | _ => false

/-- TASKOUT a, c (R135). -/
def execTaskout (h : Hdr) (a c : Reg) : State → Host.Outcome State Fault Refusal :=
  stageExport h .task [(a, 1), (c, 1)] fun e ln =>
    let n := (e.rd ln c).toNat
    let off := (e.rd ln a).toNat
    let payload := (e.launch.draw.map (·.payload)).getD 0
    if 4096 < n then ln.raise e.p.pc cOPERAND
    else if n = 0 then ln
    else if off % 16 ≠ 0 ∨ e.t.shape.deck < off + payload then ln.raise e.p.pc cOPERAND
    else if 4 ≤ (ln.ops.filter fun o => o.op.isTaskout).length then ln.raise e.p.pc cOPERAND
    else ln.record e.p.pc (.taskout n off)

/-- VTXOUT a, s (R136). -/
def execVtxout (h : Hdr) (a : Reg) (slot : BitVec 6) : State → Host.Outcome State Fault Refusal :=
  stageExport h .mesh [(a, 4)] fun e ln => ln.record e.p.pc (.vtxout slot.toNat (e.rdGroup ln a 4))

/-- PRIMOUT a (R137). -/
def execPrimout (h : Hdr) (a : Reg) : State → Host.Outcome State Fault Refusal :=
  stageExport h .mesh [(a, 1)] fun e ln =>
    let x := e.rd ln a
    if bits x.toNat 30 2 ≠ 0 then ln.raise e.p.pc cOPERAND else ln.record e.p.pc (.primout x)

/-- The number of targets bound in a draw state block (R375). -/
def drawTargets (state : List Byte) : Nat := (state.getD 0x40 0).toNat % 16

/-- PIXOUT a, t (R138). -/
def execPixout (h : Hdr) (a : Reg) (t : BitVec 3) : State → Host.Outcome State Fault Refusal :=
  stageExport h .pixel [(a, 4)] fun e ln =>
    if drawTargets ((e.launch.draw.map (·.state)).getD []) ≤ t.toNat then ln.raise e.p.pc cOPERAND
    else ln.record e.p.pc (.pixout t.toNat (e.rdGroup ln a 4))

/-- KILL (R138). -/
def execKill (h : Hdr) : State → Host.Outcome State Fault Refusal :=
  stageExport h .pixel [] fun e ln => ln.record e.p.pc .kill

end Sys2Proof.Machine
end

