-- ==== Sys2Proof/Machine/Draw.lean ====
section
/-! DEFINITION. The draw path behind the mesh stage: primitive setup in primitive order (R133, R137), raster (R376), pixel teams
(R130), output merge (R377, R347, R396), tiles that a draw releases to an encode engine (R380). -/

namespace Sys2Proof.Machine

/-! ### The draw state block (R129, R375) -/

/-- A field of n bytes of a draw state block. -/
def drawField (b : List Byte) (o n : Nat) : Nat := leNat ((b.drop o).take n)
def omCtrl (b : List Byte) : Nat := drawField b 0x40 4
/-- Depth and stencil test enables. -/
def omDtest (b : List Byte) : Bool := bit (omCtrl b) 4
def omStest (b : List Byte) : Bool := bit (omCtrl b) 9
/-- Width and height of the area. -/
def areaW (b : List Byte) : Nat := drawField b 0x4C 2 + 1
def areaH (b : List Byte) : Nat := drawField b 0x4E 2 + 1
/-- Address, pitch and control word of target t. -/
def rtAddr (b : List Byte) (t : Nat) : Nat := drawField b (0x80 + 16 * t) 8
def rtPitch (b : List Byte) (t : Nat) : Nat := drawField b (0x88 + 16 * t) 4
def rtCtrl (b : List Byte) (t : Nat) : Nat := drawField b (0x8C + 16 * t) 4
def rtFormat (b : List Byte) (t : Nat) : Nat := rtCtrl b t % 16
/-- The target whose tiles stream to an encode engine (R375). -/
def encodeTarget (b : List Byte) : Option Nat := (List.range (drawTargets b)).find? fun t => bit (rtCtrl b t) 10

/-! ### Triangles (R376) -/

/-- A finite F32 as a multiple of 2^-149. -/
def fixF32 (x : Nat) : Int := match unpack f32 x with
  | .fin n m e => finAt n m e (-149)
  | _ => 0

/-- 1.0 as an exact value. -/
def oneFv : Fv := .fin false 1 0
/-- The exact sum of three values. -/
def sum3 (a b c : Fv) : Fv := (addFv RNE (addFv RNE a b).v c).v

/-- A quotient of exact values, rounded once to F32. -/
def ratioF32 (n d : Fv) : Nat :=
  match n, d with
  | .nan _, _ => f32.nan
  | _, .nan _ => f32.nan
  | .inf _, .inf _ => f32.nan
  | .inf a, .fin b _ _ => infEnc f32 (a != b)
  | .fin a _ _, .inf b => zeroEnc f32 (a != b)
  | .fin a m e, .fin b k g =>
    if k = 0 then (if m = 0 then f32.nan else infEnc f32 (a != b))
    else if m = 0 then zeroEnc f32 (a != b)
    else
      let sh := Nat.log2 k + 40
      (roundFp f32 RNE (a != b) (m * 2 ^ sh / k) (e - g - sh) (m * 2 ^ sh % k != 0)).1

/-- A triangle after setup: order number, screen coordinates in units of 2^-149, z', q and the attribute words of each vertex. -/
structure Tri where
  order : Nat
  sx    : List Int
  sy    : List Int
  z     : List Nat
  q     : List Nat
  attrs : List (List Word)

/-- Screen coordinates of vertex k. -/
def Tri.x (t : Tri) (k : Nat) : Int := t.sx.getD (k % 3) 0
def Tri.y (t : Tri) (k : Nat) : Int := t.sy.getD (k % 3) 0

/-- The edge function of the edge opposite vertex k at a place. -/
def Tri.edge (t : Tri) (k : Nat) (px py : Int) : Int :=
  (t.x (k + 1) - px) * (t.y (k + 2) - py) - (t.x (k + 2) - px) * (t.y (k + 1) - py)
/-- e of R376. -/
def Tri.area (t : Tri) : Int := (t.x 1 - t.x 0) * (t.y 2 - t.y 0) - (t.x 2 - t.x 0) * (t.y 1 - t.y 0)

/-- The edge opposite vertex k is a top edge (horizontal, triangle below) or a left edge (triangle to its right). -/
def Tri.topLeft (t : Tri) (k : Nat) : Bool :=
  let xa := t.x (k + 1); let ya := t.y (k + 1)
  let xb := t.x (k + 2); let yb := t.y (k + 2)
  let u := (t.y k - ya) * (xb - xa)
  let v := (t.x k - xa) * (yb - ya)
  if ya = yb then decide (ya < t.y k) else if ya < yb then decide (u < v) else decide (v < u)

/-- The centre of a pixel row or column. -/
def centre (i : Nat) : Int := (2 * i + 1) * 2 ^ 148

/-- Whether the triangle covers the pixel at (i, j). -/
def Tri.covers (t : Tri) (i j : Nat) : Bool :=
  let sgn : Int := if t.area < 0 then -1 else 1
  let w := fun k => sgn * t.edge k (centre i) (centre j)
  (List.range 3).all (fun k => decide (0 ≤ w k)) &&
    ((List.range 3).all (fun k => decide (0 < w k)) || (List.range 3).any fun k => w k == 0 && t.topLeft k)

/-- λk at the centre of a pixel. -/
def Tri.lambda (t : Tri) (i j k : Nat) : Fv := unpack f32 (ratioF32 (intFv (t.edge k (centre i) (centre j))) (intFv t.area))
/-- Depth at a pixel. -/
def Tri.depth (t : Tri) (i j : Nat) : Word :=
  let p := fun k => (mulFv (t.lambda i j k) (unpack f32 (t.z.getD k 0))).v
  BitVec.ofNat 32 (packFv f32 RNE (sum3 (p 0) (p 1) (p 2))).1
/-- Attribute word n at a pixel. -/
def Tri.attr (t : Tri) (i j n : Nat) : Word :=
  let lq := fun k => (mulFv (t.lambda i j k) (unpack f32 (t.q.getD k 0))).v
  let laq := fun k => (mulFv (lq k) (unpack f32 ((t.attrs.getD k []).getD n 0).toNat)).v
  BitVec.ofNat 32 (ratioF32 (sum3 (laq 0) (laq 1) (laq 2)) (sum3 (lq 0) (lq 1) (lq 2)))

/-- Whether a value lies in lo..1; a NaN does not. -/
def insideClip (lo : Fv) (x : Nat) : Bool :=
  let v := unpack f32 x
  !v.isNan && !ltFv v lo && !ltFv oneFv v

/-- A screen coordinate: v × n ÷ 2, rounded once. -/
def screen (v : Fv) (n : Nat) : Int := fixF32 (packFv f32 RNE (mulFv v (.fin false n (-1))).v).1

/-- Setup of a triangle from its clip-space positions (x, y, z, w of each vertex): none when it is dropped. -/
def setupTri (w h cull order : Nat) (pos attrs : List (List Word)) : Option Tri :=
  let c := fun (k i : Nat) => ((pos.getD k []).getD i 0).toNat
  let q := fun k => (fpRcp (c k 3)).1
  let by_ := fun (k i : Nat) => (fpMul f32 RNE (c k i) (q k)).1
  let ok := fun k =>
    let wv := unpack f32 (c k 3)
    (wv.isNan || ltFv (.fin false 0 0) wv) && insideClip (.fin true 1 0) (by_ k 0) && insideClip (.fin true 1 0) (by_ k 1) &&
      insideClip (.fin false 0 0) (by_ k 2)
  if (List.range 3).all ok then
    let ks := List.range 3
    let t : Tri :=
      { order := order
        sx := ks.map fun k => screen (addFv RNE (unpack f32 (by_ k 0)) oneFv).v w
        sy := ks.map fun k => screen (addFv RNE oneFv (unpack f32 (by_ k 1)).neg).v h
        z := ks.map fun k => by_ k 2, q := ks.map q, attrs := attrs }
    if t.area = 0 ∨ (cull = 1 ∧ t.area < 0) ∨ (cull = 2 ∧ 0 < t.area) then none else some t
  else none

/-- The lowest and highest pixel that a list of coordinates can touch, of n. -/
def pixelSpan (l : List Int) (n : Nat) : Nat × Nat :=
  let p := l.map fun x => (x / 2 ^ 149).toNat
  (min (n - 1) (p.foldl min n), min (n - 1) (p.foldl max 0))

/-- The quads that a triangle covers, row by row; every pixel of a quad is interpolated, its uncovered ones as helpers. -/
def Tri.quads (t : Tri) (w h nAttrs : Nat) : List Quad :=
  let (x0, x1) := pixelSpan t.sx w
  let (y0, y1) := pixelSpan t.sy h
  (List.range (y1 / 2 + 1 - y0 / 2)).flatMap fun b => (List.range (x1 / 2 + 1 - x0 / 2)).filterMap fun a =>
    let qx := 2 * (x0 / 2 + a)
    let qy := 2 * (y0 / 2 + b)
    let cov := (List.range 4).map fun k => decide (qx + k % 2 < w) && decide (qy + k / 2 < h) && t.covers (qx + k % 2) (qy + k / 2)
    if cov.any id then
      some ⟨qx, qy, t.order, (List.range 4).map fun k =>
        (cov.getD k false, t.depth (qx + k % 2) (qy + k / 2), (List.range (4 * nAttrs)).map fun n => t.attr (qx + k % 2) (qy + k / 2) n)⟩
    else none

/-! ### Primitives in order (R133, R137) -/

/-- The lexicographic order of keys; a key that another begins with comes first. -/
def keyLt : List Nat → List Nat → Bool
  | [], [] => false
  | [], _ :: _ => true
  | _ :: _, [] => false
  | a :: r, b :: t => decide (a < b) || (a == b && keyLt r t)

/-- The key of a mesh team (R133). -/
def Team.meshKey (t : Team) : List Nat := match t.mesh with
  | some r => [r.task, r.key, r.num]
  | none => [0, 0, t.num]

/-- The primitives that a mesh team hands to setup when it retires (R137, R371). -/
def Team.handOver (t : Team) : List Prim :=
  let vert := fun (n : Nat) => (t.verts.filter (·.1 == n)).map fun v => v.2
  t.prims.map fun p => ⟨t.meshKey ++ [p.1], (List.range 3).map fun k => vert (bits p.2.toNat (10 * k) 10)⟩

/-- Keys below which no primitive of a draw can still appear. -/
def State.drawSources (s : State) (l : Launch) (d : DrawData) : List (List Nat) :=
  (if d.nextTeam < d.groups then [if d.taskEntry.isSome then [d.nextTeam] else [0, 0, d.nextTeam]] else []) ++
  d.meshes.map (fun r => [r.task, r.key, r.num]) ++
  (s.teams.filter fun t => t.launch == l.id).filterMap fun t => match t.stage with
    | .task => some [t.num]
    | .mesh => some t.meshKey
    | _ => none

/-- Raster has no primitive left to come (R130). -/
def State.drawExhausted (s : State) (l : Launch) (d : DrawData) : Bool := d.prims.isEmpty && (s.drawSources l d).isEmpty

/-- The attribute words of a vertex: those of a slot that was never written are free values, taken from a free number on. -/
def vertAttrs (n free : Nat) (v : List (Nat × List Word)) : List Word :=
  (List.range n).flatMap fun i => match alGet (i + 1) v with
    | some ws => ws
    | none => (List.range 4).map fun c => BitVec.ofNat 32 (Config.freeNat (free + 4 * i + c))

/-- Where a tile of the area lies, as one number. -/
def tileCode (x y : Nat) : Nat := y / tileSide * 256 + x / tileSide

/-- One primitive goes through setup and raster: it takes the next order number, and its covered quads arrive; without a pixel
stage its covered pixels go to output merge (R396). -/
def State.setupPrim (s : State) (l : Launch) (d : DrawData) (p : Prim) : State :=
  let d1 := { d with prims := d.prims.erase p, setup := d.setup + 1 }
  let pos := p.verts.map fun v => (alGet 0 v).getD []
  let free := s.free
  let attrs := (List.range 3).map fun k => vertAttrs d.attrs (free + 64 * k) (p.verts.getD k [])
  let s1 := { s with free := s.free + 192 }
  let w := areaW d.state
  let h := areaH d.state
  let tri := if p.verts.all fun v => (alGet 0 v).isSome then setupTri w h (bits (omCtrl d.state) 13 2) d.setup pos attrs else none
  match tri with
  | none => s1.setLaunch { l with draw := some d1 }
  | some t =>
    let qs := t.quads w h d.attrs
    let d2 := { d1 with tilesHit := qs.foldl (fun (a : List Nat) (q : Quad) => nsInsert (tileCode q.x q.y) a) d1.tilesHit }
    let d3 :=
      if d.pixEntry.isSome then
        { d2 with quads := d2.quads ++ qs, lastQuad := if qs.isEmpty then d2.lastQuad else s.cycle }
      else
        let px := qs.flatMap fun q => (List.range 4).filterMap fun k =>
          let x := q.pix.getD k (false, 0, [])
          if x.1 then some (⟨q.x + k % 2, q.y + k / 2, q.order, x.2.1, []⟩ : PixelOut) else none
        { d2 with pixels := d2.pixels ++ px }
    s1.setLaunch { l with draw := some d3 }

/-- Set up, in primitive order, every primitive that none can precede any more. -/
def State.runSetup (s : State) (lid : Nat) : Nat → State
  | 0 => s
  | n + 1 =>
    match s.launch? lid with
    | none => s
    | some l => match l.draw with
      | none => s
      | some d =>
        match bestBy (fun (a b : Prim) => keyLt a.key b.key) d.prims with
        | none => s
        | some p =>
          if (s.drawSources l d).all fun b => keyLt p.key b then (s.setupPrim l d p).runSetup lid n else s

/-! ### Pixel teams (R130) -/

/-- Quads of a pixel team. -/
def DrawData.quadsPerTeam (d : DrawData) : Nat := d.pixShape.tsize / 4
/-- Form one pixel team of the quads that have arrived first. -/
def DrawData.formPixels (d : DrawData) : DrawData :=
  { d with pixTeams := d.pixTeams ++ [d.quads.take d.quadsPerTeam], quads := d.quads.drop d.quadsPerTeam }

/-- RASTER_PIXEL_TEAM: a whole team of quads, or a partial one when the draw's primitives are exhausted. -/
def execRasterPixelTeam (launch : Nat) (s : State) : Host.Outcome State Fault Refusal :=
  match s.launch? launch with
  | none => .next s
  | some l => match l.draw with
    | none => .next s
    | some d =>
      if d.quads.isEmpty then .next s
      else if d.quadsPerTeam ≤ d.quads.length ∨ s.drawExhausted l d then .next (s.setLaunch { l with draw := some d.formPixels })
      else .next s

/-- RASTER_QUAD_TIMEOUT: no quad has arrived for 256 cycles, and a partial team is formed. -/
def execRasterQuadTimeout (launch : Nat) (s : State) : Host.Outcome State Fault Refusal :=
  match s.launch? launch with
  | none => .next s
  | some l => match l.draw with
    | none => .next s
    | some d =>
      if d.quads.isEmpty ∨ s.cycle < d.lastQuad + 256 then .next s
      else .next (s.setLaunch { l with draw := some d.formPixels })

/-! ### Output merge (R377) -/

/-- The tests' functions, from the three outcomes of a comparison. -/
def testFunc (f : Nat) (lt eq gt : Bool) : Bool :=
  match f with
  | 0 => false
  | 1 => lt
  | 2 => eq
  | 3 => lt || eq
  | 4 => gt
  | 5 => !eq
  | 6 => gt || eq
  | _ => true

/-- A stencil operation under a write mask. -/
def stencilOp (op ref wmask old : Nat) : Nat :=
  let v := match op with
    | 0 => old
    | 1 => 0
    | 2 => ref
    | 3 => min 255 (old + 1)
    | 4 => old - 1
    | 5 => 255 - old
    | 6 => (old + 1) % 256
    | _ => (old + 255) % 256
  Nat.lor (Nat.land v wmask) (Nat.land old (255 - wmask))

/-- A number read from bytes, a free one where they bear poison. -/
def cleanNum (free : Nat) (bs : List (Byte × Bool)) : Nat :=
  if bs.any (·.2) then Config.freeNat free % 256 ^ bs.length else leNat (bs.map (·.1))

/-- The stencil and depth steps: whether the pixel goes on, the new stencil byte, and whether the depth is written. -/
def depthStencil (b : List Byte) (depth d st : Nat) : Bool × Nat × Bool :=
  let ref := drawField b 0x44 1
  let rm := drawField b 0x45 1
  let wm := drawField b 0x46 1
  let ops := drawField b 0x48 4
  let a := Nat.land ref rm
  let c := Nat.land st rm
  let passS := !omStest b || testFunc (bits (omCtrl b) 10 3) (decide (a < c)) (a == c) (decide (c < a))
  let x := unpack f32 depth
  let y := unpack f32 d
  let passD := !omDtest b || testFunc (bits (omCtrl b) 6 3) (ltFv x y) (eqFv x y) (ltFv y x)
  let upd := fun op => if omStest b then stencilOp op ref wm st else st
  if !passS then (false, upd (bits ops 0 3), false)
  else if !passD then (false, upd (bits ops 3 3), false)
  else (true, upd (bits ops 6 3), bit (omCtrl b) 5)

/-- Bytes at one virtual address of a draw, as output merge reads them in the draw's view; none when they have no translation. -/
def State.omRead (s : State) (c : Ctx) (h va n : Nat) : Option (Loc × List (Byte × Bool)) :=
  match s.xlate c va .wr with
  | .error _ => none
  | .ok l => some (l, s.peekBytes c h l n)

/-- A blended channel (R377). -/
def blendChannel (mode sv dv sa : Nat) : Nat :=
  if mode = 0 then sv
  else if mode = 2 then (fpAdd f32 RNE sv dv).1
  else
    let rest := (fpSub f32 RNE 0x3F800000 sa).1
    (packFv f32 RNE (addFv RNE (mulFv (unpack f32 sv) (unpack f32 sa)).v (mulFv (unpack f32 dv) (unpack f32 rest)).v).v).1

/-- Channels of a format and bytes of each (R280). -/
def channelCount (fmt : Nat) : Nat := if fmt % 2 = 0 then 1 else 4
def channelBytes (fmt : Nat) : Nat := texelBytes fmt / channelCount fmt
/-- A channel in stored form. -/
def storeChannel (fmt v : Nat) : List Byte :=
  if fmt ≤ 1 then natLE (toU8 v) 1
  else if fmt ≤ 3 then natLE (packFv f16 RNE (unpack f32 v)).1 2
  else natLE v 4

/-- What a pixel's export writes of a target's texel: the offset and the bytes of each channel in WMASK. A channel outside it is
not written, so it keeps its stored value, and no version of it arises under a hypothesis. -/
def mergedChannels (ctrl : Nat) (old : List (Byte × Bool)) (out : List Word) : List (Nat × List (Byte × Bool)) :=
  let fmt := ctrl % 16
  let n := channelBytes fmt
  let d := texelOf fmt (old.map (·.1))
  let o := fun i => (out.getD i 0).toNat
  let mode := bits ctrl 4 2
  ((List.range (channelCount fmt)).filter fun c => bit ctrl (6 + c)).map fun c =>
    let bad := mode != 0 && ((old.drop (c * n)).take n).any (·.2)
    (c * n, (storeChannel fmt (blendChannel mode (o c) (d.getD c 0) (o 3))).map fun b => (b, bad))

/-- The export of a pixel to target t. -/
def State.mergeTarget (s : State) (c h : Nat) (b : List Byte) (p : PixelOut) (t : Nat) : State :=
  match alGet t p.outs with
  | none => s
  | some out =>
    let n := texelBytes (rtFormat b t)
    match s.omRead (s.ctxD c) h (rtAddr b t + p.y * rtPitch b t + p.x * n) n with
    | none => s
    | some (l, old) =>
      (mergedChannels (rtCtrl b t) old out).foldl (fun a k => a.writeBytes ⟨c, h, none⟩ { l with pa := l.pa + k.1 } k.2) s

/-- One pixel is applied: stencil, depth, then each target, as one step. -/
def State.mergePixel (s : State) (l : Launch) (d : DrawData) (p : PixelOut) : State :=
  let b := d.state
  let w : Writer := ⟨l.ctx, l.hyp, none⟩
  let buffer := if omDtest b || omStest b then
      s.omRead (s.ctxD l.ctx) l.hyp (drawField b 0x50 8 + p.y * drawField b 0x58 4 + p.x * 8) 5
    else none
  let (loc, bs) := buffer.getD (default, List.replicate 5 (0, false))
  let dv := cleanNum s.free (bs.take 4)
  let st := cleanNum (s.free + 1) (bs.drop 4)
  let r := depthStencil b p.depth.toNat dv st
  let s0 := { s with free := s.free + 2 }
  let s1 := if buffer.isSome && omStest b then
      s0.writeBytes w { loc with pa := loc.pa + 4 } [(BitVec.ofNat 8 r.2.1, (bs.drop 4).any (·.2))]
    else s0
  let s2 := if buffer.isSome && r.2.2 then s1.writeBytes w loc ((natLE p.depth.toNat 4).map fun x => (x, false)) else s1
  if r.1 then (List.range (drawTargets b)).foldl (fun (a : State) t => a.mergeTarget l.ctx l.hyp b p t) s2 else s2

/-- Whether a quad covers a pixel. -/
def Quad.covers (q : Quad) (x y : Nat) : Bool :=
  q.x ≤ x && x < q.x + 2 && q.y ≤ y && y < q.y + 2 && (q.pix.getD (x - q.x + 2 * (y - q.y)) (false, 0, [])).1

/-- The pixel threads of a draw that have not delivered. -/
def State.livePixels (s : State) (l : Launch) : List PixData :=
  (s.teams.filter fun t => t.launch == l.id && t.stage == .pixel).flatMap fun t => t.threads.filterMap fun x => x.pix

/-- Whether a primitive of a lower order may still reach a pixel's place. -/
def State.pixelHeld (s : State) (l : Launch) (d : DrawData) (p : PixelOut) : Bool :=
  (d.pixels.any fun x => x.x == p.x && x.y == p.y && decide (x.order < p.order)) ||
  (((d.quads ++ d.pixTeams.flatten)).any fun q => q.covers p.x p.y && decide (q.order < p.order)) ||
  ((s.livePixels l).any fun x => x.x == p.x && x.y == p.y && !x.helper && decide (x.order < p.order))

/-- A draw of the same queue that started earlier has not finished. -/
def State.earlierDraw (s : State) (l : Launch) : Bool :=
  s.launches.any fun m => m.queue == l.queue && m.draw.isSome && decide (m.id < l.id)

/-- Apply the next pixel that may be applied; one whose version writes find no free slot waits for one. -/
def State.mergeNext (s : State) (l : Launch) (d : DrawData) : State :=
  if s.earlierDraw l then s
  else match d.pixels.find? fun p => !s.pixelHeld l d p with
    | none => s
    | some p =>
      let s1 := (s.setLaunch { l with draw := some { d with pixels := d.pixels.erase p } }).mergePixel l d p
      if s.slotsOver s1 l.ctx then s else s1

/-! ### Tiles of a draw (R380) -/

/-- Whether raster has emitted and output merge has applied everything of the draw in a tile. -/
def State.tileDone (s : State) (l : Launch) (d : DrawData) (k : Nat) : Bool :=
  s.drawExhausted l d && !((d.quads ++ d.pixTeams.flatten).any fun q => tileCode q.x q.y == k) &&
    !(d.pixels.any fun p => tileCode p.x p.y == k) && !((s.livePixels l).any fun x => tileCode x.x x.y == k)

/-- The armed stream that a draw's ENCODE target feeds. -/
def State.drawStream (s : State) (l : Launch) (d : DrawData) : Option Stream :=
  (encodeTarget d.state).bind fun t => s.streamFor l.ctx (rtAddr d.state t)

/-- Tiles that the draw has completed are streamed to the engine. -/
def State.streamTiles (s : State) (l : Launch) (d : DrawData) : State :=
  match s.drawStream l d with
  | none => s
  | some x =>
    let done := d.tilesHit.filter fun k => s.tileDone l d k
    let s1 := s.setLaunch { l with draw := some { d with tilesHit := d.tilesHit.filter fun k => !done.contains k } }
    s1.offerTiles x l.hyp ((done.filter fun k => decide (k % 256 < x.tilesAcross)).map fun k => k / 256 * x.tilesAcross + k % 256)

/-- A closing draw finishes: every tile not yet released is released (R380). -/
def State.closeTiles (s : State) (l : Launch) (d : DrawData) : State :=
  match encodeTarget d.state, s.drawStream l d with
  | some t, some x => if bit (rtCtrl d.state t) 11 then s.offerTiles x l.hyp (List.range x.tileCount) else s
  | _, _ => s

/-- Stream what a launch's draw has completed. -/
def State.streamOf (s : State) (lid : Nat) : State :=
  match s.launch? lid with
  | none => s
  | some l => match l.draw with
    | some d => s.streamTiles l d
    | none => s

/-- OUTPUT_MERGE: the next pixel's exports are applied, in primitive order (R377); tiles that are complete are streamed. -/
def execOutputMerge (launch : Nat) (s : State) : Host.Outcome State Fault Refusal :=
  match s.launch? launch with
  | none => .next s
  | some l => match l.draw with
    | none => .next s
    | some d => .next ((s.mergeNext l d).streamOf launch)

end Sys2Proof.Machine
end

