-- ==== Sys2Proof/Machine/Record.lean ====
section
/-! DEFINITION. Team records as a save writes them and as a restore reads them back (R359, R362, R363). -/

namespace Sys2Proof.Machine

/-! ### Records (R362, R363) -/

/-- Four bytes of a number. -/
def le4 (x : Nat) : List Byte := natLE x 4
/-- Bytes padded with zeros to a length. -/
def padTo (n : Nat) (l : List Byte) : List Byte := l ++ List.replicate (n - l.length) 0

/-- Static warps of a team. -/
def Team.warps (t : Team) : Nat := (t.shape.tsize + 31) / 32

/-- STATE of a thread in a record. -/
def recordState : ThreadState → Nat
  | .ready | .issued => 0
  | .waiting => 1
  | .faulted => 2
  | .exited => 3
  | .absent => 4

/-- The wait conditions of a thread in a record. -/
def recordWaits (ws : List Wait) : Nat :=
  ws.foldl (fun a w => a + match w with
    | .tag k n => 2 ^ 4 + 2 ^ 8 * k + 2 ^ 10 * n
    | .barrier n ph => 2 ^ 5 + 2 ^ 16 * n + (if ph then 2 ^ 20 else 0)
    | .ring => 2 ^ 6
    | .pause n => 2 ^ 21 * n
    | _ => 0) 0

/-- The 64 bytes of a thread. -/
def Thread.section (x : Thread) : List Byte :=
  let errs := (List.range 4).foldl (fun a k => a + if x.tagErr.getD k false then 2 ^ k else 0) 0
  let pend := (List.range 16).foldl (fun a n => a + if x.pending n then 2 ^ (4 + n) else 0) 0
  le4 (recordState x.st + (if x.recPend then 8 else 0) + recordWaits x.waits) ++ le4 x.next ++
    le4 (x.preds.toNat / 2 * 2 + 1 + 256 * x.wb + 65536 * x.hyp) ++
    (List.range 4).map (fun k => BitVec.ofNat 8 (x.count k)) ++ le4 (errs + pend) ++
    le4 x.rngs.toNat ++ le4 x.status.toNat ++ le4 x.tilef ++ le4 x.aflush ++ List.replicate 12 0 ++
    padTo 16 ((x.frec.take 4).flatMap fun w => le4 w.toNat)

/-- The 64 bytes of a warp. -/
def Team.warpSection (t : Team) (w : Nat) : List Byte :=
  padTo 64 ((List.range 8).flatMap fun m => le4 (alGetD t.masks (8 * w + m) 0).toNat)

/-- The value that a tag gives a lane (R176): none for General. -/
def Tag.value (l : Nat) : Tag → Option Word
  | .uniform u => some u
  | .affine b s => some (b + s * BitVec.ofNat 32 l)
  | .general => none
/-- The tag under which a register is stored: its own, unless its words are not those of the live lanes, as after a start that gives
the lanes different values; then every lane's word is stored (R176 to R178; log entry 89). -/
def Team.storedTag (t : Team) (w r : Nat) : Tag :=
  let x := t.tag w r
  if (t.laneValues w r).all fun c => (x.value c.1).all (· == c.2) then x else .general
/-- The words of one register of a warp: its descriptor, then what its shape keeps. -/
def Team.regSection (t : Team) (w r : Nat) : List Byte :=
  let x := t.storedTag w r
  let bad := (List.range 32).foldl (fun a l => a + if (t.thread (32 * w + l)).poison.contains r then 2 ^ l else 0) 0
  le4 x.code ++ le4 bad ++ match x with
    | .uniform u => le4 u.toNat
    | .affine b s => le4 b.toNat ++ le4 s.toNat
    | .general => (List.range 32).flatMap fun l => le4 (alGetD (t.thread (32 * w + l)).v r 0).toNat

/-- The marks of a space's granules: the form, then a bit for each sector that holds a poisoned byte. -/
def markSection (size : Nat) (marks : List (Nat × Nat)) (poison : List Nat) : List Byte :=
  (List.range (ceilDiv size 256)).flatMap fun g =>
    [BitVec.ofNat 8 (alGetD marks g 0),
     BitVec.ofNat 8 ((List.range 8).foldl (fun a k => a + if poison.any (fun o => o / 32 == 8 * g + k) then 2 ^ k else 0) 0)]

/-- One tile. -/
def Tile.section (x : Tile) : List Byte :=
  (List.range 4096).flatMap (fun i => natLE (BitVec.ofInt 64 (x.elem i)).toNat 8) ++
    padTo 64 (le4 ((BitVec.ofInt 16 x.te).toNat + (if x.ovf then 2 ^ 16 else 0) + (if x.void then 2 ^ 17 else 0)))

/-- One abandoned MX operation. -/
def MxOp.section (o : MxOp) : List Byte :=
  padTo 64 o.params ++ padTo 16 (le4 ((if o.zero then 1 else 0) + 4 * o.tile + 64 * o.tag + 65536 * o.tid))

/-- The DET staging entries and partials of a team. -/
def Team.atombSection (t : Team) : List Byte :=
  let one := fun (va value op ty part tid epoch num : Nat) =>
    natLE va 8 ++ natLE value 8 ++ le4 (op + 8 * ty + 32 * part + 65536 * tid) ++ le4 epoch ++ padTo 8 (le4 num)
  t.staging.flatMap (fun e => one e.va e.value e.op e.ty 0 e.tid e.epoch e.num) ++
    t.partials.flatMap fun p => one p.va p.value 0 3 1 0 0 0

/-- The sections of a record in their order. -/
def Team.sections (t : Team) : List (List Byte) :=
  [t.threads.flatMap (·.section),
   (List.range t.warps).flatMap t.warpSection,
   (List.range t.warps).flatMap fun w => (List.range t.shape.vregs).flatMap fun r => t.regSection w r,
   (t.deckGet 0 t.shape.deck).map (·.1),
   markSection t.shape.deck t.deckMarks t.deckPoison ++ markSection t.shape.plane t.planeMarks t.planePoison,
   (t.planeGet 0 t.shape.plane).map (·.1),
   (List.range t.shape.tiles).flatMap fun k => (t.tile k).section,
   t.mxSaved.flatMap (·.section),
   t.atombSection]

/-- Where sections begin, each at a multiple of 64 from `at_` on, and where the last ends. -/
def sectionOffsets : Nat → List (List Byte) → List Nat × Nat
  | at_, [] => ([], at_)
  | at_, x :: r =>
    let (os, e) := sectionOffsets (roundUp (at_ + x.length) 64) r
    (at_ :: os, e)

/-- HELD: the answers of the last sixteen requests. -/
def Team.heldWord (t : Team) (j : Nat) : Nat :=
  match (List.range 16).find? fun k => t.tilefNext ≥ k + 1 && (t.tilefNext - 1 - k) % 16 == j with
  | none => 0
  | some k =>
    let i := t.tilefNext - 1 - k
    if t.exhausted i then 0xFFFFFFFF else ((alGet i t.held).getD none).getD 0

/-- The header of a record (R362). -/
def Team.recordHeader (t : Team) (det : Bool) (offs : List Nat) (total : Nat) : List Byte :=
  let bar := fun n => let b := t.bar n; b.count + 65536 * b.expected + if b.phase then 2 ^ 31 else 0
  padTo 1024 (le4 0x4D415354 ++ le4 total ++ le4 t.num ++ le4 (if t.stage = .pixel then 0 else t.count) ++
    natLE t.shape.tsize 2 ++ natLE t.shape.vregs 2 ++
    [BitVec.ofNat 8 (stageCode t.stage), if det then 1 else 0, BitVec.ofNat 8 t.shape.tiles, 0] ++
    le4 t.shape.deck ++ le4 t.shape.plane ++ le4 t.seqcfg.toNat ++ le4 (t.orphan.getD 0xFFFFFFFF) ++
    le4 t.tilefNext ++ le4 t.detPos ++ (List.range 16).flatMap (fun j => le4 (t.heldWord j)) ++
    (List.range 16).flatMap (fun n => le4 (bar n) ++ le4 0) ++
    (List.range 33).flatMap (fun n => le4 (alGetD t.loss n 0).toNat) ++
    le4 t.mxSaved.length ++ le4 (t.staging.length + t.partials.length) ++ le4 0 ++ offs.flatMap le4)

/-- The bytes of a team's record, with the poison of its accumulator elements (R364; log entry 20). -/
def Team.record (t : Team) (det : Bool) : List (Byte × Bool) :=
  let ss := t.sections
  let (offs, total) := sectionOffsets 1024 ss
  let plain := fun (l : List Byte) => l.map fun b => (b, false)
  let elems := (List.range t.shape.tiles).flatMap fun k =>
    (List.range 32832).map fun i => decide (i < 32768) && (t.tile k).poison.contains (i / 8)
  plain (t.recordHeader det offs total) ++ (List.range ss.length).flatMap fun k =>
    let x := ss.getD k []
    let y := padTo (roundUp x.length 64) x
    if k = 6 then (List.range y.length).map fun i => (y.getD i 0, elems.getD i false) else plain y

/-! ### Reading a record back (R359) -/

/-- Stored bytes of a record at physical addresses, with their poison. -/
def State.recordBytes (s : State) (pa n : Nat) : List (Byte × Bool) := (List.range n).map fun i => s.rootByte ⟨pa + i, false, none⟩
/-- A little-endian number of a record, and whether some byte of it bears poison. -/
def State.recordNum (s : State) (pa n : Nat) : Nat × Bool :=
  let bs := s.recordBytes pa n
  (leNat (bs.map (·.1)), bs.any (·.2))
/-- Where the k-th section of a record begins (R362). -/
def State.sectionAt (s : State) (pa k : Nat) : Nat := pa + (s.recordNum (pa + 0x180 + 4 * k) 4).1

/-- The bytes of a space that are not 0, and those that bear poison, as memory holds them. -/
def State.readSpace (s : State) (pa n : Nat) : List (Nat × Byte) × List Nat :=
  let bs := s.recordBytes pa n
  ((List.range n).filterMap fun i => (bs[i]?).bind fun b => if b.1 = 0 then none else some (i, b.1),
   (List.range n).filter fun i => (bs[i]?).any (·.2))
/-- The marks of a space's granules and the bytes that they poison; a mark that itself bears poison poisons its granule. -/
def State.readMarks (s : State) (pa size : Nat) : List (Nat × Nat) × List Nat :=
  let gs := (List.range (ceilDiv size 256)).map fun g => (g, s.recordNum (pa + 2 * g) 1, s.recordNum (pa + 2 * g + 1) 1)
  (gs.filterMap fun x => if x.2.1.1 = 0 then none else some (x.1, x.2.1.1),
   gs.flatMap fun x => (List.range (min 256 (size - 256 * x.1))).filterMap fun i =>
     if x.2.1.2 || x.2.2.2 || bit x.2.2.1 (i / 32) then some (256 * x.1 + i) else none)
/-- One tile. -/
def State.readTile (s : State) (pa : Nat) : Tile :=
  let es := (List.range 4096).map fun i => (i, s.recordNum (pa + 8 * i) 8)
  let st := s.recordNum (pa + 32768) 4
  { elems := es.filterMap fun x => if x.2.1 = 0 then none else some (x.1, sextNat 64 x.2.1)
    te := sextNat 16 st.1, ovf := bit st.1 16, void := bit st.1 17
    poison := (es.filter fun x => x.2.2 || st.2).map (·.1) }

/-- What the REG section holds of one register of a warp: the tag, the words of the lanes with their poison, and where it ends. -/
def State.readReg1 (s : State) (pa : Nat) : Tag × List (Word × Bool) × Nat :=
  let d := s.recordNum pa 4
  let m := s.recordNum (pa + 4) 4
  let word := fun (k : Nat) => s.recordNum (pa + 8 + 4 * k) 4
  let marked := fun (l : Nat) => d.2 || m.2 || bit m.1 l
  let code := d.1 % 4
  if code = 0 then
    let u := word 0
    (.uniform (BitVec.ofNat 32 u.1), (List.range 32).map fun l => (BitVec.ofNat 32 u.1, marked l || u.2), pa + 12)
  else if code = 1 then
    let b := word 0
    let st := word 1
    (.affine (BitVec.ofNat 32 b.1) (BitVec.ofNat 32 st.1),
      (List.range 32).map fun l => (BitVec.ofNat 32 (b.1 + st.1 * l), marked l || b.2 || st.2), pa + 16)
  else (.general, (List.range 32).map fun l => (BitVec.ofNat 32 (word l).1, marked l || (word l).2), pa + 136)

/-- A register of a thread takes a restored word with its mark. -/
def Thread.restoreReg (x : Thread) (r : Nat) (w : Word × Bool) : Thread :=
  { x with v := if alGetD x.v r 0 = w.1 then x.v else alPut r w.1 x.v
           poison := if w.2 then nsInsert r x.poison else x.poison.filter (· != r) }
/-- The registers of the warps from w on: `regs` lists what is left, warp by warp. -/
def State.readRegs (s : State) (t : Team) (pa : Nat) : List (Nat × Nat) → Team
  | [] => t
  | (w, r) :: rest =>
    let x := s.readReg1 pa
    let t1 := (List.range 32).foldl (fun (a : Team) l =>
      let y := a.thread (32 * w + l)
      if 32 * w + l < a.threads.length && y.live then a.setThread (32 * w + l) (y.restoreReg r (x.2.1.getD l (0, false))) else a) t
    s.readRegs (t1.setTag w r x.1) x.2.2 rest

/-- A team as its record gives it back (R359 step 2): masks, registers, tags, DECK, PLANE, form marks and tiles, each with its poison,
as memory holds them; the rest stands as it was kept (log entry 20). -/
def State.readRecord (s : State) (t : Team) (pa : Nat) : Team :=
  let deck := s.readSpace (s.sectionAt pa 3) t.shape.deck
  let plane := s.readSpace (s.sectionAt pa 5) t.shape.plane
  let dm := s.readMarks (s.sectionAt pa 4) t.shape.deck
  let pm := s.readMarks (s.sectionAt pa 4 + 2 * ceilDiv t.shape.deck 256) t.shape.plane
  let mask := fun (k : Nat) => BitVec.ofNat 32 (s.recordNum (s.sectionAt pa 1 + 64 * (k / 8) + 4 * (k % 8)) 4).1
  let regs := (List.range t.warps).flatMap fun w => (List.range t.shape.vregs).map fun r => (w, r)
  let t1 := s.readRegs t (s.sectionAt pa 2) regs
  { t1 with
    masks := (List.range (8 * t.warps)).filterMap fun k => if mask k = 0 then none else some (k, mask k)
    deck := deck.1, deckPoison := (deck.2 ++ dm.2).foldr nsInsert [], deckMarks := dm.1
    plane := plane.1, planePoison := (plane.2 ++ pm.2).foldr nsInsert [], planeMarks := pm.1
    tiles := (List.range t.shape.tiles).filterMap fun k =>
      let x := s.readTile (s.sectionAt pa 6 + 32832 * k)
      if x = zeroTile then none else some (k, x) }

end Sys2Proof.Machine
end

