-- ==== Sys2Proof/Machine/Place.lean ====
section
/-! DEFINITION. Room on a mast (R115, R116, R131, R132), team start state (R122, R130, R232), restoring a saved team (R355, R359),
admission (R117 to R119, R121, R132). -/

namespace Sys2Proof.Machine

/-! ### Room (R115, R116, R131, R132) -/

/-- Amounts of the resources of R115. -/
structure Room where
  places : Nat
  slots  : Nat
  live   : Nat
  deck   : Nat
  plane  : Nat
  tiles  : Nat
  deriving DecidableEq, Repr, Inhabited

/-- What a mast has (R115). -/
def mastRoom : Room := ⟨8, 1536, 393216, 524288, 786432, 16⟩
/-- What a team of a shape needs. -/
def Shape.need (x : Shape) : Room := ⟨1, x.tsize, x.tsize * x.vregs * 4, x.deck, x.plane, x.tiles⟩
/-- Sums and differences of amounts. -/
def Room.add (a b : Room) : Room :=
  ⟨a.places + b.places, a.slots + b.slots, a.live + b.live, a.deck + b.deck, a.plane + b.plane, a.tiles + b.tiles⟩
def Room.sub (a b : Room) : Room :=
  ⟨a.places - b.places, a.slots - b.slots, a.live - b.live, a.deck - b.deck, a.plane - b.plane, a.tiles - b.tiles⟩
/-- Whether amounts lie within others, line by line. -/
def Room.le (a b : Room) : Bool :=
  a.places ≤ b.places && a.slots ≤ b.slots && a.live ≤ b.live && a.deck ≤ b.deck && a.plane ≤ b.plane && a.tiles ≤ b.tiles
/-- The sum of several amounts. -/
def Room.sum (l : List Room) : Room := l.foldl Room.add ⟨0, 0, 0, 0, 0, 0⟩

/-- The payload ring region of a mast (R131). -/
def ringRegion : Nat := 65536
/-- A DECK need alone. -/
def deckNeed (n : Nat) : Room := ⟨0, 0, 0, n, 0, 0⟩

/-- The mesh teams created by TASKOUT that wait for a mast. -/
def State.waitingMesh (s : State) (m : Nat) : Bool :=
  s.launches.any fun l => l.draw.any fun d => d.meshes.any fun r => r.slot.isSome && r.mast == m
/-- Whether a mast's ring region counts against its DECK (R131). -/
def State.ringCounts (s : State) (m : Nat) : Bool :=
  s.waitingMesh m || (s.on m).any fun t => t.stage == .task || (t.mesh.any fun r => r.slot.isSome)
/-- The draws that a mast keeps room for, by launch (R132). -/
def State.reserves (s : State) (m : Nat) : List (Nat × Room) :=
  s.launches.filterMap fun l => l.draw.bind fun d =>
    if (s.on m).any fun t => t.launch == l.id && t.stage == .task then some (l.id, d.meshShape.need) else none

/-- What a mast's teams, its ring region and the room kept for other draws take (R115, R131, R132). -/
def State.taken (s : State) (m : Nat) (own : Option Nat) : Room :=
  Room.sum ((s.on m).map (fun t => t.shape.need) ++
    (if s.ringCounts m then [deckNeed ringRegion] else []) ++
    ((s.reserves m).filter fun r => own != some r.1).map (·.2))

/-- Whether a need fits a mast beside what is there. -/
def State.fitsOn (s : State) (m : Nat) (own : Option Nat) (need : Room) : Bool :=
  Room.le (Room.add need (s.taken m own)) mastRoom

/-- Free thread slots and free live-value store of a mast: what its teams and the room kept for draws leave (R115, R116). -/
def State.load (s : State) (m : Nat) : Nat × Nat :=
  let r := s.taken m none
  (mastRoom.slots - r.slots, mastRoom.live - r.live)
/-- Mast a is less loaded than mast b; masts are compared in rising number, so an equal load keeps the first (R116). -/
def State.lessLoaded (s : State) (a b : Nat) : Bool :=
  let x := s.load a
  let y := s.load b
  decide (y.1 < x.1) || (x.1 == y.1 && (decide (y.2 < x.2) || (x.2 == y.2 && decide (a < b))))
/-- The n least-loaded of some masts. -/
def State.leastLoaded (s : State) (n : Nat) (ms : List Nat) : List Nat := (ms.mergeSort fun a b => !s.lessLoaded b a).take n

/-! ### New teams (R122, R130, R232) -/

/-- A thread at its start: READY at an address, v0:v1 with ARG (R122). -/
def startThread (l : Launch) (entry : Nat) (more : List (Nat × Word)) : Thread :=
  { (default : Thread) with
    st := .waiting, next := entry, hyp := l.hyp, tagCount := [0, 0, 0, 0], tagErr := [false, false, false, false],
    frec := [0, 0, 0, 0], v := more.foldl (fun a x => if x.2 = 0 then a else alPut x.1 x.2 a) [(0, loW l.arg), (1, hiW l.arg)] }
/-- A slot that belongs to no thread (R139). -/
def absentThread : Thread :=
  { (default : Thread) with tagCount := [0, 0, 0, 0], tagErr := [false, false, false, false], frec := [0, 0, 0, 0] }

/-- A register of a warp at team start: its tag is Uniform, with the word of the first live lane (R167, R177). -/
def Team.startTag (t : Team) (w r : Nat) : Team := t.setTag w r (.uniform (((t.laneValues w r).headD (0, 0)).2))
/-- A team on a mast with its threads at the entry block (R122, R232). -/
def Team.begin (t : Team) (cycle entry : Nat) (ths : List Thread) : Team :=
  let t1 := { t with threads := ths, seqcfg := 0x10002020 }
  let t2 := (List.range ths.length).foldl (fun (a : Team) i =>
    if (a.thread i).st = .absent then a else a.stand cycle i entry []) t1
  (List.range ((ths.length + 31) / 32)).foldl (fun (a : Team) w => (List.range t.shape.vregs).foldl (fun b r => b.startTag w r) a) t2

/-- A new team comes to a mast: an identity, its threads, the staging entries that a DET team is given, a device-scope acquire (R109,
R117, R122, R326). -/
def State.placeTeam (s : State) (l : Launch) (mast num count : Nat) (stage : Stage) (shape : Shape) (entry : Nat) (ths : List Thread)
    (f : Team → Team) : State :=
  let (id, s1) := s.fresh
  let t : Team :=
    { (default : Team) with id := id, launch := l.id, num := num, count := count, stage := stage, shape := shape, mast := mast }
  let u := (f t).begin s.cycle entry ths
  ({ s1 with teams := s1.teams ++ [u] }.flushExcess mast).acquire mast

/-- A compute team of a DISPATCH (R117, R118). -/
def State.placeCompute (s : State) (l : Launch) (num mast : Nat) : State :=
  s.placeTeam l mast num l.teams .compute l.shape l.entry (List.replicate l.shape.tsize (startThread l l.entry [])) fun t => t

/-- A task team of a draw (R130). -/
def State.placeTask (s : State) (l : Launch) (d : DrawData) (num mast : Nat) : State :=
  let entry := d.taskEntry.getD 0
  s.placeTeam l mast num d.groups .task d.taskShape entry (List.replicate d.taskShape.tsize (startThread l entry [])) fun t => t

/-- A mesh team of a draw: with a task stage the payload is copied into its DECK and v2 holds the task team's number (R130, R131). -/
def State.placeMesh (s : State) (l : Launch) (d : DrawData) (r : MeshReq) (mast : Nat) : State :=
  let bytes := match r.slot with
    | some k => (((s.mast mast).ring.find? (·.slot == k)).map (·.bytes)).getD []
    | none => []
  s.placeTeam l mast r.num r.count .mesh d.meshShape d.meshEntry
    (List.replicate d.meshShape.tsize (startThread l d.meshEntry [(2, BitVec.ofNat 32 r.task)]))
    fun t => { t.deckPuts 0 bytes with mesh := some r }

/-- The thread of one pixel of a quad (R130). -/
def pixelThread (l : Launch) (entry : Nat) (q : Quad) (k : Nat) : Thread :=
  let x := q.x + k % 2
  let y := q.y + k / 2
  let (cov, depth, attrs) := q.pix.getD k (false, 0, [])
  let more := (2, BitVec.ofNat 32 (y % 65536 * 65536 + x % 65536)) ::
    (3, BitVec.ofNat 32 ((if cov then 0 else 2 ^ 31) + q.order % 2 ^ 31)) ::
    (List.range attrs.length).map fun i => (4 + i, attrs.getD i 0)
  { startThread l entry more with pix := some ⟨x, y, !cov, q.order, depth⟩ }

/-- A pixel team of a draw: four threads for each quad, no thread for the lanes it lacks (R130). -/
def State.placePixel (s : State) (l : Launch) (d : DrawData) (quads : List Quad) (mast : Nat) : State :=
  let entry := d.pixEntry.getD 0
  let ths := quads.flatMap fun q => (List.range 4).map fun k => pixelThread l entry q k
  let s1 := s.setLaunch { l with draw := some { d with pixNext := d.pixNext + 1 } }
  s1.placeTeam l mast d.pixNext 0 .pixel d.pixShape entry
    (ths ++ List.replicate (d.pixShape.tsize - ths.length) absentThread) fun t => t

/-! ### Saved teams (R355, R359) -/

/-- A parked team: every live thread FAULTED or WAITING on a barrier, at least one FAULTED (R355). -/
def Team.parked (t : Team) : Bool :=
  (t.threads.any (·.st == .faulted)) && t.threads.all fun x =>
    !x.live || x.st == .faulted || (x.st == .waiting && x.waits.any fun w => match w with
      | .barrier _ _ => true
      | _ => false)

/-- Whether a saved team waits for admission (R355). -/
def Team.wantsRoom (t : Team) : Bool := match t.place with
  | .saved .. => !t.parked && t.threads.any (·.live)
  | _ => false

/-- A list of numbers in rising order without repeats. -/
def sortedSet (l : List Nat) : List Nat := l.foldr nsInsert []

/-- Bins rebuilt from the NEXT of each READY or WAITING thread, in rising block address; waiting times and rally rounds begin in
this cycle (R166, R359). -/
def Team.rebuildBins (t : Team) (cycle : Nat) : Team :=
  let ths := t.threads.map fun x =>
    { x with readyAt := cycle, waits := x.waits.map fun w => match w with
      | .pause n => .pause (n + cycle)
      | y => y }
  let standing := fun (i : Nat) => match ths[i]? with
    | some x => x.st == .ready || x.st == .waiting
    | none => false
  let tids := (List.range ths.length).filter standing
  let at_ := fun (i : Nat) => ((ths[i]?).map (·.next)).getD 0
  let blocks := sortedSet (tids.map at_)
  let bin := fun (b : Nat) =>
    let mine := tids.filter fun i => at_ i == b
    let ready := mine.filter fun i => ((ths[i]?).map (·.st)) == some ThreadState.ready
    { emptyBin b with threads := mine, rounds := (sortedSet (ready.map (· / 32))).map fun w => (w, cycle) }
  let bs := blocks.map bin
  { t with threads := ths, bins := bs.take binsPerTeam, overflow := bs.drop binsPerTeam }

/-- Where a team's record lies in its context's save area, and its place once it is back. -/
def State.recordPa (s : State) (t : Team) : Nat × Place :=
  let base := (((s.ctxD (s.launchD t.launch).ctx).saveArea).map (·.1)).getD 0
  match t.place with
  | .saved o e => (base + o, .restored o e)
  | p => (base, p)

/-- A saved team is restored on a mast (R359): placed, its record read, a device-scope acquire, its abandoned MX operations entered
again, its bins rebuilt. A thread that waits for a payload slot goes on where the mast has one free (R140; DEDUCED, log entry 88). -/
def State.restoreTeam (s : State) (t : Team) (mast : Nat) : State :=
  let at_ := s.recordPa t
  let u := { s.readRecord t at_.1 with place := at_.2, mast := mast }.rebuildBins s.cycle
  let v := if (s.mast mast).ring.length < 4 then u.clearWaitsAll s.cycle (· == Wait.ring) else u
  (((s.setTeam v).flushExcess mast).acquire mast).enterSaved mast

/-! ### Admission (R117 to R119, R121, R130, R132) -/

/-- The masts that a launch's teams may go to: the core set, or those chosen for a draw (R130). -/
def State.launchMasts (s : State) (l : Launch) : List Nat :=
  match l.draw with
  | some d => d.masts
  | none => coreMasts (s.ctxD l.ctx).coreSet

/-- Cursors that the dispenser holds (R121). -/
def cursorLimit : Nat := 256
/-- Cursors in use: admitted DISPATCH launches that have not finished. -/
def State.cursors (s : State) : Nat := (s.launches.filter fun l => l.admitted && l.draw.isNone).length

/-- The order of R119 among waiting launches: class, deadline within FRAME, start time; the earlier read packet first on a tie. -/
def State.launchBefore (s : State) (a b : Launch) : Bool :=
  let ra := if a.cls = 0 then s.deadlineRank a.deadline else 0
  let rb := if b.cls = 0 then s.deadlineRank b.deadline else 0
  decide (a.cls < b.cls) || (a.cls == b.cls && (decide (ra < rb) || (ra == rb &&
    (decide (a.since < b.since) || (a.since == b.since && decide (a.id ≤ b.id))))))

/-- Masts that a launch waiting 1 ms or more is short of room on, with its class (R119). -/
abbrev Blocked := List (Nat × Nat)
/-- Whether a launch of a class may not be admitted onto a mast. -/
def blockedFor (bl : Blocked) (cls m : Nat) : Bool := bl.any fun b => b.1 == m && b.2 ≤ cls

/-- Place the mesh requests of a draw that TASKOUT made, in order, where there is room (R130, R132). -/
def State.admitMeshOf (s : State) (lid : Nat) : List MeshReq → State
  | [] => s
  | r :: rest =>
    match s.launch? lid with
    | none => s
    | some l => match l.draw with
      | none => s
      | some d =>
        if r.slot.isSome && s.fitsOn r.mast (some lid) d.meshShape.need then
          let l1 := { l with draw := some { d with meshes := d.meshes.erase r } }
          ((s.setLaunch l1).placeMesh l1 d r r.mast).admitMeshOf lid rest
        else s.admitMeshOf lid rest

/-- Mesh teams created by TASKOUT come first (R132). -/
def State.admitMeshes (s : State) : List Launch → State
  | [] => s
  | l :: r => (s.admitMeshOf l.id ((l.draw.map (·.meshes)).getD [])).admitMeshes r

/-- The masts of a launch that can take a need now. -/
def State.takers (s : State) (l : Launch) (bl : Blocked) (own : Option Nat) (need : Nat → Room) : List Nat :=
  (s.launchMasts l).filter fun m => !blockedFor bl l.cls m && s.fitsOn m own (need m)

/-- A DISPATCH is admitted whole, or not (R117, R118, R121). -/
def State.admitDispatch (s : State) (l : Launch) (bl : Blocked) : Option State :=
  let ms := s.launchMasts l
  let ok := s.takers l bl none fun _ => l.shape.need
  let pick := if l.det then (if (ms.take l.teams).all ok.contains then ms.take l.teams else [])
    else if ok.length < l.teams then [] else sortedSet (s.leastLoaded l.teams ok)
  if cursorLimit ≤ s.cursors ∨ pick.length < l.teams then none
  else
    let l1 := { l with admitted := true }
    some ((List.range l.teams).foldl (fun (a : State) t => a.placeCompute l1 t (pick.getD t 0)) (s.setLaunch l1))

/-- What a task team needs of a mast: itself, the ring region and the room kept for one mesh team, unless they count already. -/
def State.taskNeed (s : State) (l : Launch) (d : DrawData) (m : Nat) : Room :=
  Room.sum (d.taskShape.need :: (if s.ringCounts m then [] else [deckNeed ringRegion]) ++
    (if (s.reserves m).any (·.1 == l.id) then [] else [d.meshShape.need]))

/-- Place the next task teams, or mesh teams without a task stage, of a draw while there is room (R130). -/
def State.admitGroups (s : State) (lid : Nat) (bl : Blocked) : Nat → State
  | 0 => s
  | n + 1 =>
    match s.launch? lid with
    | none => s
    | some l => match l.draw with
      | none => s
      | some d =>
        if d.groups ≤ d.nextTeam then s
        else
          let task := d.taskEntry.isSome
          let need := fun m => if task then s.taskNeed l d m else d.meshShape.need
          match s.leastLoaded 1 (s.takers l bl none need) with
          | [] => s
          | m :: _ =>
            let d1 := { d with nextTeam := d.nextTeam + 1 }
            let l1 := { l with admitted := true, draw := some d1 }
            let s1 := s.setLaunch l1
            let s2 := if task then s1.placeTask l1 d1 d.nextTeam m
              else s1.placeMesh l1 d1 ⟨m, none, 0, 0, d.nextTeam, d.groups⟩ m
            s2.admitGroups lid bl n

/-- Place the pixel teams that raster has formed while there is room (R130). -/
def State.admitPixels (s : State) (lid : Nat) (bl : Blocked) : Nat → State
  | 0 => s
  | n + 1 =>
    match s.launch? lid with
    | none => s
    | some l => match l.draw with
      | none => s
      | some d => match d.pixTeams with
        | [] => s
        | q :: rest => match s.leastLoaded 1 (s.takers l bl none fun _ => d.pixShape.need) with
          | [] => s
          | m :: _ =>
            let d1 := { d with pixTeams := rest }
            let l1 := { l with draw := some d1 }
            ((s.setLaunch l1).placePixel l1 d1 q m).admitPixels lid bl n

/-- What a saved team needs of a mast: a task team what a new one needs, a mesh team that consumes from a ring the ring region too
(R131, R132). -/
def State.restoreNeed (s : State) (l : Launch) (t : Team) (m : Nat) : Room :=
  match l.draw with
  | some d =>
    if t.stage = .task then s.taskNeed l d m
    else if (t.mesh.any fun r => r.slot.isSome) && !s.ringCounts m then Room.add t.shape.need (deckNeed ringRegion)
    else t.shape.need
  | none => t.shape.need
/-- The masts that a saved team may be placed on: with room, and without another team of its launch (R355). -/
def State.restoreMasts (s : State) (t : Team) (bl : Blocked) : List Nat :=
  let l := s.launchD t.launch
  (s.takers l bl (if t.stage = .mesh then some l.id else none) (s.restoreNeed l t)).filter fun m =>
    !(s.on m).any (·.launch == l.id)

/-- Restore the saved teams of a launch that wait for admission, where there is room (R355). -/
def State.admitSaved (s : State) (bl : Blocked) : List Team → State
  | [] => s
  | t :: r => match s.leastLoaded 1 (s.restoreMasts t bl) with
    | [] => s.admitSaved bl r
    | m :: _ => (s.restoreTeam t m).admitSaved bl r

/-- The masts that the teams of a launch may wait for: of a DET launch logical masts 0 to N − 1 (R118). -/
def State.waitMasts (s : State) (l : Launch) : List Nat :=
  if l.draw.isNone && l.det then (s.launchMasts l).take l.teams else s.launchMasts l

/-- A waiting launch of 1 ms or more blocks the masts on which it is short of room (R119). A DRAW waits until its first team has been
placed, and a swapped team, though it takes its launch's place in the order (R355), blocks nothing (DEDUCED, log entry 87). -/
def State.blocks (s : State) (l : Launch) (bl : Blocked) : Blocked :=
  if l.admitted || s.ns < l.since + 1000000 then bl
  else
    let need := fun m => match l.draw with
      | none => l.shape.need
      | some d => if d.taskEntry.isSome then s.taskNeed l d m else d.meshShape.need
    bl ++ ((s.waitMasts l).filter fun m => !s.fitsOn m none (need m)).map fun m => (m, l.cls)

/-- One launch at its turn: what it may place is placed. -/
def State.admitOne (s : State) (l : Launch) (bl : Blocked) : State :=
  let s1 := s.admitSaved bl (s.teams.filter fun t => t.launch == l.id && t.wantsRoom)
  match l.draw with
  | some d => ((s1.admitGroups l.id bl (d.groups - d.nextTeam)).admitPixels l.id bl d.pixTeams.length)
  | none => if l.admitted then s1 else (s1.admitDispatch l bl).getD s1

/-- What the launches that have waited 1 ms or more block as things stand, whatever their place in the order (R119). -/
def State.bars (s : State) : Blocked := s.launches.foldl (fun bl l => s.blocks l bl) []

/-- The launches at their turns (R119). -/
def State.admitAll (s : State) : List Launch → State
  | [] => s
  | l :: r => (s.admitOne l s.bars).admitAll r

/-- The launches in the order of R119. -/
def State.inOrder (s : State) : List Launch := s.launches.mergeSort fun x y => s.launchBefore x y
/-- What is placed before a launch has its turn (R119, R132): mesh teams of TASKOUTs, then what the launches before it may place. -/
def State.admitBefore (s : State) (l : Launch) : State :=
  let s1 := s.admitMeshes s.inOrder
  s1.admitAll (s1.inOrder.takeWhile fun x => x.id != l.id)

/-- ADMISSION_STEP (R119, R132): mesh teams of TASKOUTs first, then launches, graphics teams and saved teams in the order of R119. -/
def execAdmissionStep (s : State) : Host.Outcome State Fault Refusal :=
  let s1 := s.admitMeshes s.inOrder
  .next (s1.admitAll s1.inOrder)

end Sys2Proof.Machine
end

