-- ==== Sys2Proof/Machine/Packets.lean ====
section
/-! DEFINITION. Packets: their checks (R101 to R107, R110, R129, R375, R379), the order in which they start (R109, R110, R112), what
each type does (R102 to R105, R247 to R251, R378), the packet cores' scan (R93, R100) and the mapping round (R113). -/

namespace Sys2Proof.Machine

/-! ### Fields -/

/-- The words of a packet from byte lo to byte hi are zero. -/
def Packet.zeros (p : Packet) (lo hi : Nat) : Bool := (List.range ((hi - lo) / 4)).all fun i => p.w (lo + 4 * i) == 0
/-- HYP and MASTS of a packet (R101). -/
def Packet.hyp (p : Packet) : Nat := bits p.header 16 8
def Packet.mastCount (p : Packet) : Nat := bits p.header 24 8
def Packet.overlap (p : Packet) : Bool := bit p.header 8
def Packet.det (p : Packet) : Bool := bit p.header 9
/-- The DEADLINE of a DISPATCH or DRAW; none for other packets. -/
def Packet.deadline (p : Packet) : Word := if p.type = 1 ∨ p.type = 2 then p.words.getD 7 0 else 0
/-- A successor address of a tail record. -/
def Packet.succ (p : Packet) (k : Nat) : Nat := p.tailD (0x18 + 8 * k)

/-- A cause when a condition holds. -/
def failIf (b : Bool) (cause : Nat) : List Nat := if b then [cause] else []

/-- The sizes of a SHAPE word (R102) with a PLANE size. -/
def shapeOf (w plane : Nat) : Shape := ⟨32 * bits w 0 6, 16 * bits w 6 5, bits w 11 5, 128 * bits w 16 13, plane⟩
/-- The limits of a SHAPE word (R102). -/
def shapeLimits (w : Nat) : Bool :=
  1 ≤ bits w 0 6 && bits w 0 6 ≤ 32 && 1 ≤ bits w 6 5 && bits w 6 5 ≤ 16 && bits w 11 5 ≤ 16 && bits w 16 13 ≤ 4096

/-! ### Checks (R106) -/

/-- The checks of the header and of a successor's place (R101, R106, R110). -/
def Packet.headCauses (p : Packet) : List Nat :=
  let launch := p.type == 1 || p.type == 2
  failIf (bits p.header 11 5 != 0 || (p.det && p.type != 1) || (!launch && bits p.header 16 16 != 0)) eRESERVED ++
  failIf (10 ≤ p.depth || (p.parent.isSome && p.type == 5)) eDEPTH

/-- The hypothesis of a DISPATCH or DRAW (R90, R106). -/
def State.hypCauses (s : State) (c : Ctx) (p : Packet) : List Nat :=
  if p.hyp = 0 then []
  else
    let e := hypAt c.hyps p.hyp
    failIf (!s.feature 4) eFEATURE ++ failIf (e.st != .opened && e.st != .merged) eHYP

/-- The tail record of a packet that may have one, with its checks (R103, R105, R106). Of the successor addresses only the first
SUCC_COUNT, which the record uses, must be multiples of 64: the manual does not say whether an unused one must (DESIGN CHOICE, log
entry 90). -/
def State.tailCheck (s : State) (c : Ctx) (p : Packet) : List Nat × List Word :=
  let a := p.d 0x38
  if a = 0 then ([], [])
  else if 2 ^ 52 ≤ a then ([eRESERVED], [])
  else if a % 64 ≠ 0 then ([eLIMIT], [])
  else match (s.readRoot c a 64).2 with
    | none => ([eFAULT], [])
    | some bs =>
      let q := { p with tail := leWords bs }
      let n := q.tailW 0x14
      (failIf (q.tailW 0x10 / 2 != 0 || q.tailD 0x38 != 0) eRESERVED ++
       failIf (4 < n || q.tailD 0 % 8 != 0 || (List.range (min n 4)).any (fun k => q.succ k % 64 != 0) ||
         ((p.type == 3 || p.type == 7) && n != 0)) eLIMIT, q.tail)

/-- The entries and addresses that a DISPATCH and a DRAW share (R102, R104, R107). -/
def launchCauses (c : Ctx) (p : Packet) (entries : List Nat) : List Nat :=
  failIf (2 ^ 52 ≤ p.d 0x08 || 2 ^ 52 ≤ p.d 0x28) eRESERVED ++
  failIf (p.d 0x08 % 256 != 0 || entries.any (fun e => e % 4 != 0) || (p.w 0x18 != 0xFFFFFFFF && p.w 0x18 % 4 != 0) ||
    decide ((coreMasts c.coreSet).length < p.mastCount)) eLIMIT

/-- The checks of a DISPATCH (R102, R107, R120). -/
def dispatchCauses (c : Ctx) (p : Packet) : List Nat :=
  let sh := p.w 0x10
  let sp := p.w 0x14
  let tiles := bits (p.w 0x20) 0 16 * bits (p.w 0x20) 16 16 * bits (p.w 0x24) 0 16
  launchCauses c p [p.w 0x04] ++
  failIf (bits sh 29 3 != 0 || bits sp 13 3 != 0 || bits sp 28 4 != 0 || bits (p.w 0x24) 16 16 != 0) eRESERVED ++
  failIf (!shapeLimits sh || 6144 < bits sp 0 13 || mastRoom.live < (shapeOf sh 0).need.live || 0xFFFFFFFE < tiles) eLIMIT

/-- The checks of a stage's SHAPE word (R129). -/
def stageCauses (used : Bool) (w : Nat) : List Nat :=
  if used then failIf (bits w 29 3 != 0) eRESERVED ++ failIf (!shapeLimits w || bits w 11 5 != 0) eLIMIT
  else failIf (w != 0) eRESERVED

/-- The checks of a draw state block's stage fields (R129). -/
def stageFieldCauses (b : List Byte) (task pixel : Bool) : List Nat :=
  let t := drawField b 0 4
  let m := drawField b 4 4
  let x := drawField b 8 4
  let pay := drawField b 0x0C 4
  let attrs := drawField b 0x18 4
  let room := fun (l : List Room) => Room.le (Room.sum l) mastRoom
  stageCauses task t ++ stageCauses true m ++ stageCauses pixel x ++
  failIf (pay / 2 ^ 15 != 0 || attrs / 16 != 0 || !((b.drop 0x1C).take 36).all (· == 0)) eRESERVED ++
  failIf (16384 < pay % 2 ^ 15 || pay % 16 != 0 || (shapeOf m 0).deck < pay % 2 ^ 15 ||
    (pixel && (shapeOf x 0).vregs < 4 + 4 * (attrs % 16)) ||
    (task && !room [(shapeOf t 0).need, (shapeOf m 0).need, deckNeed ringRegion]) ||
    (!task && !room [(shapeOf m 0).need]) || (pixel && !room [(shapeOf x 0).need])) eLIMIT

/-- Whether a range of a context's space lies in local HBM and may be written. -/
def State.inHbm (s : State) (c : Ctx) (va n : Nat) : Bool :=
  match s.xrange c va n .wr with
  | .ok g => g.all fun x => x.1.port.isNone && isHbm x.1.pa
  | .error _ => false

/-- The checks of one render target (R375). -/
def State.targetCauses (s : State) (c : Ctx) (b : List Byte) (t : Nat) : List Nat :=
  let ctrl := rtCtrl b t
  let codes := failIf (bits ctrl 12 20 != 0 || 5 < rtFormat b t || bits ctrl 4 2 == 3) eRESERVED
  if t < drawTargets b then
    let row := areaW b * texelBytes (rtFormat b t)
    let bad := rtAddr b t % 256 != 0 || rtPitch b t % 256 != 0 || rtPitch b t < row ||
      !s.inHbm c (rtAddr b t) ((areaH b - 1) * rtPitch b t + row) ||
      (bit ctrl 10 && rtFormat b t != 1 && rtFormat b t != 3) || (bit ctrl 11 && !bit ctrl 10)
    codes ++ failIf bad eLIMIT
  else codes ++ failIf (rtAddr b t != 0) eRESERVED

/-- The checks of a draw state block's output fields (R375). -/
def State.outputCauses (s : State) (c : Ctx) (b : List Byte) : List Nat :=
  let tests := omDtest b || omStest b
  let addr := drawField b 0x50 8
  let pitch := drawField b 0x58 4
  let row := 8 * areaW b
  failIf (bits (omCtrl b) 15 17 != 0 || bits (omCtrl b) 13 2 == 3 || drawField b 0x47 1 != 0 || bits (drawField b 0x48 4) 9 23 != 0 ||
    !((b.drop 0x5C).take 36).all (· == 0) || (!tests && addr != 0) || (addr == 0 && pitch != 0)) eRESERVED ++
  failIf (8 < drawTargets b || 16384 < areaW b || 16384 < areaH b ||
    (tests && (addr % 256 != 0 || pitch % 256 != 0 || pitch < row || !s.inHbm c addr ((areaH b - 1) * pitch + row))) ||
    1 < ((List.range (min 8 (drawTargets b))).filter fun t => bit (rtCtrl b t) 10).length) eLIMIT ++
  (List.range 8).flatMap fun t => s.targetCauses c b t

/-- The checks of a DRAW (R104, R129, R375). -/
def State.drawCauses (s : State) (c : Ctx) (p : Packet) : List Nat :=
  let opt := fun (o : Nat) => if p.w o = 0xFFFFFFFF then [] else [p.w o]
  failIf (!s.feature 5) eFEATURE ++ launchCauses c p (p.w 0x10 :: opt 0x04 ++ opt 0x14) ++
  failIf (p.w 0x24 != 0) eRESERVED ++ failIf (p.w 0x20 == 0 || 2 ^ 24 < p.w 0x20 || p.d 0x30 % 64 != 0) eLIMIT ++
  match (s.readRoot c (p.d 0x30) 256).2 with
  | none => [eFAULT]
  | some b => stageFieldCauses b (p.w 0x04 != 0xFFFFFFFF) (p.w 0x14 != 0xFFFFFFFF) ++ s.outputCauses c b

/-- ROWS of a COPY: 0 is taken as 1 (R105). -/
def Packet.rows (p : Packet) : Nat := max 1 (p.w 0x20)
/-- Whether some source row of a COPY meets some destination row: the byte ranges of a TWO_D copy are taken as its rows, not as the
whole spans from the first byte to the last, which the manual leaves open (DEDUCED, log entry 90). -/
def Packet.rowsMeet (p : Packet) : Bool :=
  let n := p.d 0x18
  (List.range p.rows).any fun i => (List.range p.rows).any fun j =>
    let a := p.d 0x08 + i * p.w 0x24
    let b := p.d 0x10 + j * p.w 0x28
    decide (a < b + n) && decide (b < a + n)

/-- The checks of a COPY (R105, R250). -/
def copyCauses (p : Packet) : List Nat :=
  let kind := p.w 0x04 % 4
  let n := p.d 0x18
  let res := p.w 0x04 / 4 != 0 || kind == 3 || !p.zeros 0x2C 0x38 || (kind == 0 && (p.w 0x24 != 0 || p.w 0x28 != 0)) ||
    (kind == 1 && p.w 0x24 != 0)
  let lim := n == 0 || decide (2 ^ 40 < n) || decide (2 ^ 40 < p.rows * n) || (kind == 0 && 1 < p.w 0x20) ||
    (1 < p.rows && p.w 0x28 < n)
  failIf res eRESERVED ++ failIf lim eLIMIT ++ failIf (!res && !lim && kind != 1 && p.rowsMeet) eRANGE

/-- The fields of an encode parameter block (R379). -/
def paramCauses (b : List Byte) : List Nat :=
  let f := fun o n => drawField b o n
  let codec := f 0 4
  let fmt := f 0x0C 4
  let w := f 4 2
  let h := f 6 2
  let qp := f 0x14 4
  failIf (codec / 8 != 0 || 1 < codec % 4 || (fmt != 1 && fmt != 3) || f 0x1C 4 != 0 || !((b.drop 0x28).take 24).all (· == 0)) eRESERVED ++
  failIf (w < 64 || 1920 < w || h < 64 || 1088 < h || f 8 4 % 256 != 0 || f 8 4 < w * texelBytes fmt ||
    (f 0x10 4 != 0 && (f 0x10 4 < 100 || 200000 < f 0x10 4)) || (if codec % 4 = 1 then 51 else 255) < qp ||
    f 0x18 4 == 0 || 120 < f 0x18 4) eLIMIT

/-- The checks of an ENCODE (R105, R378, R379). -/
def State.encodeCauses (s : State) (c : Ctx) (p : Packet) : List Nat :=
  let engine := bits (p.w 0x18) 0 4
  let stream := bits (p.w 0x18) 4 3
  let elsewhere := s.streams.any fun x => x.ctx == c.num && x.armed && x.target == p.d 0x08 && !(x.engine == engine && x.stream == stream)
  failIf (!s.feature 11) eFEATURE ++
  failIf (p.w 0x04 != 0 || p.d 0x18 / 2 ^ 7 != 0 || !p.zeros 0x30 0x38) eRESERVED ++
  failIf (11 < engine || !bit c.encMask engine || p.d 0x08 % 256 != 0 || p.d 0x28 % 64 != 0 || elsewhere) eLIMIT ++
  if p.d 0x28 % 64 ≠ 0 then []
  else match (s.readRoot c (p.d 0x28) 64).2 with
    | none => [eFAULT]
    | some b => paramCauses b

/-- The checks of the remaining types (R105). -/
def State.plainCauses (s : State) (c : Ctx) (p : Packet) : List Nat :=
  match p.type with
  | 0 => failIf (!p.zeros 0x04 0x40) eRESERVED
  | 4 => failIf (p.w 0x04 != 0 || p.d 0x18 / 2 != 0 || !p.zeros 0x20 0x40) eRESERVED ++ failIf (p.d 0x08 % 8 != 0) eLIMIT
  | 5 => failIf (p.w 0x04 != 0 || 3 < p.w 0x20 || !p.zeros 0x28 0x40) eRESERVED ++ failIf (p.d 0x08 % 8 != 0) eLIMIT
  | 6 => failIf (p.w 0x04 != 0 || p.d 0x18 / 2 != 0 || !p.zeros 0x20 0x40) eRESERVED ++
      failIf (p.d 0x08 % 4096 != 0 || p.d 0x10 % 4096 != 0) eLIMIT
  | _ =>
    let x := p.w 0x08 % 256
    failIf (!s.feature 4) eFEATURE ++ failIf (p.w 0x04 != 0 || p.d 0x08 / 512 != 0 || !p.zeros 0x10 0x40) eRESERVED ++
    let hs := s.hypsAhead c.num
    failIf (if bit (p.w 0x08) 8 then refuteBad hs x else confirmBad hs x) eHYP

/-- Every cause that a packet's checks find, and the words of its tail record. -/
def State.packetChecks (s : State) (c : Ctx) (p : Packet) : List Nat × List Word :=
  if 8 < p.type then ([eTYPE], [])
  else
    let tail := if p.type = 1 ∨ p.type = 2 ∨ p.type = 3 ∨ p.type = 7 then s.tailCheck c p else ([], [])
    let own := match p.type with
      | 1 => s.hypCauses c p ++ failIf (p.det && !s.feature 12) eFEATURE ++ dispatchCauses c p
      | 2 => s.hypCauses c p ++ s.drawCauses c p
      | 3 => copyCauses p
      | 7 => s.encodeCauses c p
      | _ => s.plainCauses c p
    (p.headCauses ++ tail.1 ++ own, tail.2)

/-! ### Order (R93, R109, R110, R112) -/

/-- Two packets stand in one order: the queue's own, or that of one parent's successors. -/
def Packet.sameLine (a b : Packet) : Bool := a.queue == b.queue && a.parent == b.parent
/-- a comes before b in their order. -/
def Packet.before (a b : Packet) : Bool := a.sameLine b && (if a.parent.isSome then decide (a.place < b.place) else decide (a.id < b.id))
/-- R109: the earlier packets of the line are complete, or under OVERLAP have started. -/
def State.lineClear (s : State) (p : Packet) : Bool :=
  !(s.packets.any fun x => x.before p && (!p.overlap || x.st == .read))

/-- An ENCODE waits while its stream is armed (R378). -/
def State.streamBusy (s : State) (p : Packet) : Bool :=
  p.type == 7 && s.streams.any fun x => x.armed && x.engine == bits (p.w 0x18) 0 4 && x.stream == bits (p.w 0x18) 4 3 &&
    x.ctx == (s.queueD p.queue).ctx
/-- Whether a packet is next to start as far as its own queue goes. -/
def State.isReady (s : State) (p : Packet) : Bool :=
  p.st == .read && ((s.queue? p.queue).any fun q => !q.error && (q.mapped.isSome || p.parent.isSome)) && s.lineClear p && !s.streamBusy p

/-- The packet core of a slot (R92). -/
def coreOfSlot (k : Nat) : Nat := if k < 44 then k / 11 else 4 + (k - 44) / 10
/-- Whether a ready FRAME packet of the same packet core has an earlier deadline (R112). -/
def State.frameAhead (s : State) (p : Packet) : Bool :=
  let q := s.queueD p.queue
  q.cls == 0 && s.packets.any fun x =>
    let y := s.queueD x.queue
    y.cls == 0 && y.mapped.isSome && q.mapped.isSome && coreOfSlot (y.mapped.getD 0) == coreOfSlot (q.mapped.getD 0) &&
      x.id != p.id && s.isReady x && decide (s.deadlineRank x.deadline < s.deadlineRank p.deadline)

/-! ### DISPATCH and DRAW (R102, R104, R117, R129, R130, R157) -/

/-- The context's lines leave the instruction caches of its core set when a launch starts (R157). -/
def State.dropCode (s : State) (c : Ctx) : State :=
  { s with masts := s.masts.map fun (m : Mast) =>
      if bit c.coreSet m.num then { m with icache := m.icache.filter (·.ctx != c.num) } else m }

/-- What a DISPATCH and a DRAW give their launch alike. -/
def launchOf (q : Queue) (p : Packet) (id now : Nat) : Launch :=
  { (default : Launch) with
    id := id, packet := p.id, queue := q.num, ctx := q.ctx, cls := q.cls, deadline := p.deadline, hyp := p.hyp,
    masts := p.mastCount, codeBase := p.d 0x08, trapEntry := if p.w 0x18 = 0xFFFFFFFF then none else some (p.w 0x18),
    arg := BitVec.ofNat 64 (p.d 0x28), since := now }

/-- The launch of a DISPATCH. -/
def dispatchLaunch (c : Ctx) (q : Queue) (p : Packet) (id now : Nat) : Launch :=
  { launchOf q p id now with
    det := p.det, entry := p.w 0x04, shape := shapeOf (p.w 0x10) (128 * bits (p.w 0x14) 0 13)
    tileExt := BitVec.ofNat 32 (bits (p.w 0x14) 16 12), seed := BitVec.ofNat 64 (p.d 0x30)
    tilesX := bits (p.w 0x20) 0 16, tilesY := bits (p.w 0x20) 16 16, tilesZ := bits (p.w 0x24) 0 16
    teams := if p.mastCount = 0 then (coreMasts c.coreSet).length else p.mastCount }

/-- The launch of a DRAW from its state block. -/
def State.drawLaunch (s : State) (c : Ctx) (q : Queue) (p : Packet) (b : List Byte) (id : Nat) : Launch :=
  let all := coreMasts c.coreSet
  let entry := fun (o : Nat) => if p.w o = 0xFFFFFFFF then none else some (p.w o)
  let d : DrawData :=
    { state := b, taskEntry := entry 0x04, meshEntry := p.w 0x10, pixEntry := entry 0x14, groups := p.w 0x20,
      taskShape := shapeOf (drawField b 0 4) 0, meshShape := shapeOf (drawField b 4 4) 0, pixShape := shapeOf (drawField b 8 4) 0,
      payload := drawField b 0x0C 4 % 2 ^ 15, seed := BitVec.ofNat 64 (drawField b 0x10 8), attrs := drawField b 0x18 4 % 16,
      masts := if p.mastCount = 0 then all else sortedSet (s.leastLoaded p.mastCount all),
      nextTeam := 0, meshes := [], prims := [], setup := 0, quads := [], lastQuad := s.cycle, pixTeams := [], pixNext := 0,
      pixels := [], tilesHit := [] }
  { launchOf q p id s.ns with entry := p.w 0x10, shape := d.meshShape, draw := some d }

/-- A packet has started. -/
def State.begun (s : State) (p : Packet) : State := s.setPacket { p with st := .started, since := s.ns }

/-- A DISPATCH starts its launch. -/
def State.startDispatch (s : State) (c : Ctx) (q : Queue) (p : Packet) : State :=
  let (id, s1) := (s.begun p).fresh
  (s1.dropCode c).setLaunch (dispatchLaunch c q p id s.ns)

/-- A DRAW starts its launch. -/
def State.startDraw (s : State) (c : Ctx) (q : Queue) (p : Packet) : State :=
  let b := ((s.readRoot c (p.d 0x30) 256).2).getD []
  let (id, s1) := (s.begun p).fresh
  (s1.dropCode c).setLaunch (s1.drawLaunch c q p b id)

/-! ### Copies (R249 to R251) -/

/-- A source byte of a COPY as the engine reads it: none on a translation fault, poison or a decode failure. -/
def State.copySrc (s : State) (c : Ctx) (p : Packet) (r i : Nat) : Option Byte :=
  if p.w 0x04 % 4 = 1 then some (BitVec.ofNat 8 (p.d 0x08 / 256 ^ (i % 8)))
  else
    let x := s.rootViewByte c (p.d 0x08 + r * p.w 0x24 + i)
    if x.2 then none else some x.1

/-- The bytes of a COPY in row order: where each goes and what it is, none where the engine meets a fault. -/
def State.copyPlan (s : State) (c : Ctx) (p : Packet) : List (Option (Loc × Byte)) :=
  (List.range p.rows).flatMap fun r => (List.range (p.d 0x18)).map fun i =>
    match s.copySrc c p r i, s.xlate c (p.d 0x10 + r * p.w 0x28 + i) .wr with
    | some b, .ok l => some (l, b)
    | _, _ => none

/-- Write the bytes that a test on their number selects. -/
def State.writePlan (s : State) (ctx : Nat) (p : Nat → Bool) : Nat → List (Option (Loc × Byte)) → State
  | _, [] => s
  | i, x :: r =>
    let s1 := match x with
      | some (l, b) => if p i then s.writeByte (agentOf ctx) l b else s
      | none => s
    s1.writePlan ctx p (i + 1) r

/-- The copy engines (R11, R249). -/
def copyEngines : Nat := 8
/-- Whether one of the eight copy engines has a started COPY: they take the copies in the order in which they started (log entry
92). -/
def State.onEngine (s : State) (p : Packet) : Bool :=
  decide ((s.packets.filter fun x => x.type == 3 && x.st == .started &&
    (decide (x.since < p.since) || (x.since == p.since && decide (x.id < p.id)))).length < copyEngines)

/-- COPY_ENGINE_DONE: the copy of a started packet that an engine has taken ends. When the engine has met a fault, the destination bytes that hold their new
values are those that `done` names, and the queue enters ERROR (R251). -/
def execCopyEngineDone (p done : Nat) (s : State) : Host.Outcome State Fault Refusal :=
  match s.packet? p with
  | none => .next s
  | some x =>
    if x.type ≠ 3 ∨ x.st ≠ .started ∨ !s.onEngine x then .next s
    else
      let q := s.queueD x.queue
      let plan := s.copyPlan (s.ctxD q.ctx) x
      if plan.all (·.isSome) then .next ((s.writePlan q.ctx (fun _ => true) 0 plan).endWithTail q.ctx x)
      else .next ((s.writePlan q.ctx (fun i => bit done i) 0 plan).failStarted x eFAULT)

/-! ### SIGNAL, WAIT, HYPRES, ENCODE -/

/-- A SIGNAL is performed at once (R105). -/
def State.startSignal (s : State) (q : Queue) (p : Packet) : State :=
  match s.signalAt q.ctx (p.d 0x08) (p.d 0x10) (bit (p.w 0x18) 0) false with
  | some s1 => s1.completePacket p
  | none => s.failStarted p eFAULT

/-- Whether the condition of a WAIT holds for a value (R105). -/
def Packet.waitHolds (p : Packet) (v : Nat) : Bool :=
  let a := Nat.land v (p.d 0x18)
  match p.w 0x20 with
  | 0 => a == p.d 0x10
  | 1 => a != p.d 0x10
  | 2 => p.d 0x10 ≤ a
  | _ => a < p.d 0x10

/-- What a WAIT reads at ADDR: host memory is read itself, past L2 (R320). -/
def State.waitValue (s : State) (c : Ctx) (p : Packet) : State × Option Nat :=
  match s.xrange c (p.d 0x08) 8 .rd with
  | .error _ => (s, none)
  | .ok g =>
    let l := (g.headD default).1
    let s1 := if l.port.isNone && isHost l.pa then s.hostPurge l.pa else s
    let bs := s1.peekBytes c 0 l 8
    (s1, if bs.any (·.2) then none else some (leNat (bs.map (·.1))))

/-- WAIT_POLL: the packet core reads ADDR again; the WAIT completes when its condition holds. -/
def execWaitPoll (p : Nat) (s : State) : Host.Outcome State Fault Refusal :=
  match s.packet? p with
  | none => .next s
  | some x =>
    if x.type ≠ 5 ∨ x.st ≠ .started then .next s
    else match s.waitValue (s.ctxD (s.queueD x.queue).ctx) x with
      | (s1, none) => .next (s1.failStarted x eFAULT)
      | (s1, some v) => .next (if x.waitHolds v then s1.completePacket x else s1)

/-- WAIT_TIMEOUT: TIMEOUT has passed and the condition does not hold; the error names the WAIT (R94). -/
def execWaitTimeout (p : Nat) (s : State) : Host.Outcome State Fault Refusal :=
  match s.packet? p with
  | none => .next s
  | some x =>
    let late := x.w 0x24 != 0 && decide (x.since + 1000 * x.w 0x24 ≤ s.ns)
    if x.type ≠ 5 ∨ x.st ≠ .started ∨ !late ∨ (s.queue? x.queue).any (·.error) then .next s
    else match (s.waitValue (s.ctxD (s.queueD x.queue).ctx) x).2 with
      | none => .next s
      | some v =>
        if x.waitHolds v then .next s
        else .next ((s.setPacket { x with st := .read }).queueError x.queue eTIMEOUT x.index (some x.id) false)

/-- A HYPRES confirms or refutes on the context's behalf in the resolve order (R105, R342); the refuting of an ID that is refuted
already is complete. -/
def State.startHypres (s : State) (q : Queue) (p : Packet) : State :=
  let x := p.w 0x08 % 256
  let open_ := (hypAt (s.hypsAhead q.ctx) x).st == .opened
  if bit (p.w 0x08) 8 && !open_ then s.completePacket p
  else (((s.begun p).startResolve q.ctx (some p.id) none ⟨!bit (p.w 0x08) 8, x, none⟩).2).tidyHyps q.ctx

/-- An ENCODE arms its stream for one frame (R378): the history starts anew for a key frame. -/
def State.startEncode (s : State) (c : Ctx) (p : Packet) : State :=
  let engine := bits (p.w 0x18) 0 4
  let stream := bits (p.w 0x18) 4 3
  let frame := p.words.getD 9 0
  let pars := leWords (((s.readRoot c (p.d 0x28) 64).2).getD [])
  let old := (s.streams.find? fun x => x.engine == engine && x.stream == stream).getD default
  let key := old.last != some (frame - 1) || bit (pars.getD 0 0).toNat 2 || old.cut
  (s.begun p).setStream
    { engine := engine, stream := stream, ctx := c.num, packet := some p.id, target := p.d 0x08, params := pars,
      history := if key then [] else old.history, last := some frame, cut := false, poison := false, tiles := [], pending := [] }

/-! ### Handovers (R247, R248) -/

/-- A HANDOVER packet starts. -/
def State.startHandover (s : State) (p : Packet) : State :=
  let (id, s1) := (s.begun p).fresh
  { s1 with handovers := s1.handovers ++ [⟨id, p.queue, (s.queueD p.queue).ctx, some p.id, p.d 0x08, p.d 0x10, bit (p.w 0x18) 0⟩] }

/-- One page of a handover. -/
def State.handPage (s : State) (l : Loc) (n : Nat) (toDev : Bool) : State :=
  if l.port.isSome || !isHost l.pa then s
  else if toDev then
    (List.range (ceilDiv n 64)).foldl (fun (a : State) k => a.sigAll (l.pa / 64 + k)) (s.hostDrop l.pa n)
  else s.hostWriteBack l.pa n

/-- The pages of a handover in order: none at the page that faults. -/
def State.handPages (s : State) (c : Ctx) (toDev : Bool) : Nat → Nat → State × Bool
  | 0, _ => (s, true)
  | n + 1, va =>
    match s.xlate c va .rd with
    | .error _ => (s, false)
    | .ok l => (s.handPage l 4096 toDev).handPages c toDev n (va + 4096)

/-- HANDOVER_COMPLETE: the handover has been done page by page, or has stopped at a faulting page. -/
def execHandoverComplete (id : Nat) (s : State) : Host.Outcome State Fault Refusal :=
  match s.handovers.find? (·.id == id) with
  | none => .next s
  | some h =>
    let (s1, ok) := s.handPages (s.ctxD h.ctx) h.toDev (h.bytes / 4096) h.addr
    let s2 : State := { s1 with handovers := s1.handovers.filter (·.id != id) }
    match h.packet with
    | some k => match s2.packet? k with
      | some p => .next (if ok then s2.completePacket p else s2.failStarted p eFAULT)
      | none => .next s2
    | none =>
      let r := s2.hand h.queue
      .next (s2.setHand h.queue { r with busy := false, err := !ok, cause := if ok then 0 else BitVec.ofNat 8 eFAULT })

/-- A GO on a kick page (R248): ignored on a DISABLED queue and while BUSY; a range that is misaligned or empty fails at once. -/
def State.handGo (s : State) (q : Nat) (v : Word) : State :=
  if (s.queue? q).isNone then s.setHand q { s.hand q with dir := v.getLsbD 0 }
  else
    let s1 := s.putHandCtl q v
    let h := s1.hand q
    if h.busy then s1
    else if h.addr.toNat % 4096 ≠ 0 ∨ h.bytes.toNat % 4096 ≠ 0 ∨ h.bytes = 0 then
      s1.setHand q { h with err := true, cause := BitVec.ofNat 8 eLIMIT }
    else
      let (id, s2) := (s1.setHand q { h with busy := true }).fresh
      { s2 with handovers := s2.handovers ++ [⟨id, q, (s.queueD q).ctx, none, h.addr.toNat, h.bytes.toNat, v.getLsbD 0⟩] }

/-- HO_GO_TO_HOST: a GO write with DIR 0. -/
def execHoGoToHost (q : Nat) (v : Word) (s : State) : Host.Outcome State Fault Refusal :=
  .next (if v.getLsbD 1 && !v.getLsbD 0 then s.handGo q v else s)
/-- HO_GO_TO_DEVICE: a GO write with DIR 1. -/
def execHoGoToDevice (q : Nat) (v : Word) (s : State) : Host.Outcome State Fault Refusal :=
  .next (if v.getLsbD 1 && v.getLsbD 0 then s.handGo q v else s)

/-! ### Starting a packet -/

/-- A packet that has passed its checks starts (R108). -/
def State.carryOut (s : State) (c : Ctx) (q : Queue) (p : Packet) : State :=
  match p.type with
  | 0 => s.completePacket p
  | 1 => s.startDispatch c q p
  | 2 => s.startDraw c q p
  | 3 => s.begun p
  | 4 => s.startSignal q p
  | 5 => s.begun p
  | 6 => s.startHandover p
  | 7 => s.startEncode c p
  | _ => s.startHypres q p

/-- A packet core takes a packet whose turn it is: it fails a check, or it starts (R106, R109). -/
def State.tryPacket (s : State) (p : Packet) : State :=
  if !s.isReady p || s.frameAhead p then s
  else
    let q := s.queueD p.queue
    let c := s.ctxD q.ctx
    match s.packetChecks c p with
    | (e :: es, _) => s.queueError p.queue (es.foldl min e) p.index (some p.id) false
    | ([], tail) => s.carryOut c q { p with tail := tail }

/-- A step of one packet type: it comes about for a packet of that type. -/
def State.packetStep (s : State) (p : Nat) (mine : Packet → Bool) : State :=
  match s.packet? p with
  | some x => if mine x then s.tryPacket x else s
  | none => s

/-- NOP_PACKET (R108): complete at once. -/
def execNopPacket (p : Nat) (s : State) : Host.Outcome State Fault Refusal := .next (s.packetStep p (·.type == 0))
/-- DISPATCH (R102). -/
def execDispatch (p : Nat) (s : State) : Host.Outcome State Fault Refusal := .next (s.packetStep p (·.type == 1))
/-- DRAW (R104). -/
def execDraw (p : Nat) (s : State) : Host.Outcome State Fault Refusal := .next (s.packetStep p (·.type == 2))
/-- COPY of kind LINEAR (R250). -/
def execCopyLinear (p : Nat) (s : State) : Host.Outcome State Fault Refusal :=
  .next (s.packetStep p fun x => x.type == 3 && x.w 0x04 % 4 == 0)
/-- COPY of kind FILL (R250). -/
def execCopyFill (p : Nat) (s : State) : Host.Outcome State Fault Refusal :=
  .next (s.packetStep p fun x => x.type == 3 && x.w 0x04 % 4 == 1)
/-- COPY of kind TWO_D (R250). -/
def execCopyTwoD (p : Nat) (s : State) : Host.Outcome State Fault Refusal :=
  .next (s.packetStep p fun x => x.type == 3 && x.w 0x04 % 4 == 2)
/-- SIGNAL with OP WRITE (R105). -/
def execSignalPacketWrite (p : Nat) (s : State) : Host.Outcome State Fault Refusal :=
  .next (s.packetStep p fun x => x.type == 4 && !bit (x.w 0x18) 0)
/-- SIGNAL with OP ADD (R105). -/
def execSignalPacketAdd (p : Nat) (s : State) : Host.Outcome State Fault Refusal :=
  .next (s.packetStep p fun x => x.type == 4 && bit (x.w 0x18) 0)
/-- WAIT (R105). -/
def execWait (p : Nat) (s : State) : Host.Outcome State Fault Refusal := .next (s.packetStep p (·.type == 5))
/-- HANDOVER to the host (R247). -/
def execHandoverToHost (p : Nat) (s : State) : Host.Outcome State Fault Refusal :=
  .next (s.packetStep p fun x => x.type == 6 && !bit (x.w 0x18) 0)
/-- HANDOVER to the device (R247). -/
def execHandoverToDevice (p : Nat) (s : State) : Host.Outcome State Fault Refusal :=
  .next (s.packetStep p fun x => x.type == 6 && bit (x.w 0x18) 0)
/-- ENCODE (R378). -/
def execEncode (p : Nat) (s : State) : Host.Outcome State Fault Refusal := .next (s.packetStep p (·.type == 7))
/-- HYPRES with CONFIRM (R105). -/
def execHypresConfirm (p : Nat) (s : State) : Host.Outcome State Fault Refusal :=
  .next (s.packetStep p fun x => x.type == 8 && !bit (x.w 0x08) 8)
/-- HYPRES with REFUTE (R105). -/
def execHypresRefute (p : Nat) (s : State) : Host.Outcome State Fault Refusal :=
  .next (s.packetStep p fun x => x.type == 8 && bit (x.w 0x08) 8)

/-- The packet of a finished launch stands with the next successor of its tail read and released (R110); a fault on reading it stops the
release there, and the successors released before run on (R373). -/
def State.releaseNext (s : State) (ctx : Nat) (p : Packet) : State :=
  match p.left with
  | [] => s.setPacket p
  | k :: r =>
    match s.readRoot (s.ctxD ctx) (p.succ k) 64 with
    | (s1, none) => (s1.setPacket { p with left := [] }).queueError p.queue eFAULT p.index none false
    | (s1, some bs) =>
      let (id, s2) := s1.fresh
      let s3 := s2.setPacket { p with left := r }
      let c : Packet :=
        { (default : Packet) with
          id := id, queue := p.queue, index := p.index, words := leWords bs, addr := p.succ k, parent := some p.id, place := k,
          depth := p.depth + 1, st := .read }
      { s3 with packets := s3.packets ++ [c] }

/-- PACKET_COMPLETE (R108, R110): the packet of a finished launch releases the next successor of its tail while there is one (log entry
96), and completes once every successor released from it has. -/
def execPacketComplete (p : Nat) (s : State) : Host.Outcome State Fault Refusal :=
  match s.packet? p with
  | none => .next s
  | some x =>
    .next (if x.st ≠ .finished then s
      else if !x.left.isEmpty then s.releaseNext (s.queueD x.queue).ctx x
      else if s.packets.any fun y => y.parent == some x.id then s
      else s.completePacket x)

/-! ### PACKET_CORE_SCAN (R93, R100) -/

/-- The next packet of a ring is read, and the consumed index is written (R100). -/
def State.readPacket (s : State) (q : Queue) : State :=
  let c := s.ctxD q.ctx
  let a := q.ring + 64 * (q.c.toNat % 2 ^ q.size)
  match s.readRoot c a 64 with
  | (s1, none) => s1.queueError q.num eFAULT q.c none true
  | (s1, some bs) =>
    match s1.writeRoot c q.consumedAddr (natLE (q.c + 1).toNat 8) with
    | none => s1.queueError q.num eFAULT q.c none true
    | some s2 =>
      let (id, s3) := s2.fresh
      let p : Packet :=
        { (default : Packet) with id := id, queue := q.num, index := q.c, words := leWords bs, addr := a, depth := 1, st := .read }
      let s4 : State := { s3 with packets := s3.packets ++ [p] }
      s4.setQueue { q with c := q.c + 1 }

/-- PACKET_CORE_SCAN: a mapped queue that has work is examined: its unstarted packet starts if it may, else the next one is read. -/
def execPacketCoreScan (q : Nat) (s : State) : Host.Outcome State Fault Refusal :=
  match s.queue? q with
  | none => .next s
  | some x =>
    if x.mapped.isNone || !s.hasWork x then .next s
    else match s.packets.find? fun p => p.queue == q && p.parent.isNone && p.st == .read with
      | some p => .next (s.tryPacket p)
      | none => .next (if x.w = x.c then s else s.readPacket x)

/-! ### MAPPING_ROUND (R113) -/

/-- By the bound of R113, then by class, then by number (log entry 63). -/
def mapBefore (now : Nat) (a b : Queue) : Bool :=
  let due := fun (q : Queue) => q.due.getD now
  decide (due a < due b) || (due a == due b && (decide (a.cls < b.cls) || (a.cls == b.cls && decide (a.num ≤ b.num))))
/-- By class, then by the bound. -/
def classBefore (now : Nat) (a b : Queue) : Bool := decide (a.cls < b.cls) || (a.cls == b.cls && mapBefore now a b)
/-- The rounds, from one at time `now` on, that fall within a queue's bound. -/
def roundsLeft (now : Nat) (q : Queue) : Nat := (q.due.getD now - now) / roundNs + 1
/-- Whether rounds of 64 slots each can map every one of the queues within its bound. -/
def boundsFit (now : Nat) (qs : List Queue) : Bool :=
  qs.all fun x => decide ((qs.filter fun y => decide (roundsLeft now y ≤ roundsLeft now x)).length ≤ queueSlots * roundsLeft now x)
/-- The order in which waiting queues are mapped in a round at time `now` (R113; log entry 86): those whose bounds all fit, by their
bounds; a queue whose bound does not fit beside those of its class and the classes above it comes after them. -/
def mapOrder (now : Nat) (waiting : List Queue) : List Queue :=
  let byClass := waiting.mergeSort (classBefore now)
  let kept := byClass.foldl (fun l q => if boundsFit now (l ++ [q]) then l ++ [q] else l) []
  kept.mergeSort (mapBefore now) ++ byClass.filter fun q => !kept.contains q
/-- Map queues in order while a slot is free. -/
def State.mapQueues (s : State) : List Queue → State
  | [] => s
  | q :: r =>
    match (List.range queueSlots).find? fun k => !s.queues.any fun x => x.mapped == some k with
    | none => s
    | some k => (s.setQueue { q with mapped := some k, rounds := 0, due := none }).mapQueues r

/-- The order in which a round takes slots from mapped queues: those without work, then the lowest class, then the longest mapped (log
entry 86). -/
def State.cutBefore (s : State) (a b : Queue) : Bool :=
  let rank := fun (q : Queue) => if s.hasWork q then 4 - q.cls else 0
  decide (rank a < rank b) || (rank a == rank b && (decide (b.rounds < a.rounds) || (a.rounds == b.rounds && decide (a.num ≤ b.num))))
/-- The queues that a round unmaps: those that `unmap` names, and as many more as the waiting queues need slots, all of them mapped for
a whole round (R113). -/
def State.roundCut (s : State) (unmap : List Nat) : List Nat :=
  let old := s.queues.filter fun q => q.mapped.isSome && 1 ≤ q.rounds
  let named := (old.filter fun q => unmap.contains q.num).map (·.num)
  let free := queueSlots - (s.queues.filter fun q => q.mapped.isSome).length + named.length
  let waiting := (s.queues.filter fun q => q.mapped.isNone && s.hasWork q).length
  named ++ (((old.filter fun q => !unmap.contains q.num).mergeSort s.cutBefore).take (waiting - free)).map (·.num)

/-- MAPPING_ROUND (R113): comes about when its 250 µs have passed. Queues that have been mapped for a whole round may lose their slots,
then the queues that were waiting with work get the free ones. -/
def execMappingRound (unmap : List Nat) (s : State) : Host.Outcome State Fault Refusal :=
  if s.ns < s.roundAt then .next s
  else
    let qs := s.queues.map fun q => if q.mapped.isSome then { q with rounds := q.rounds + 1 } else q
    let s1 : State := { s with queues := qs, roundAt := s.roundAt + roundNs }
    let waiting := mapOrder s.ns (qs.filter fun q => q.mapped.isNone && s1.hasWork q)
    let cut := s1.roundCut unmap
    let s2 : State := { s1 with queues := qs.map fun q => if cut.contains q.num then { q with mapped := none, rounds := 0 } else q }
    .next (s2.mapQueues waiting)

end Sys2Proof.Machine
end

