-- ==== Sys2Proof/Machine/Finish.lean ====
section
/-! DEFINITION. Operations that complete (R261, R327 to R330, R342), the retirement of a team (R371), the finish of a launch and the
release of its successors (R110, R372, R373), the watchdog (R114). -/

namespace Sys2Proof.Machine

/-! ### Completions -/

/-- COPY_COMPLETE: an asynchronous copy has written its destination (R261, R267); its hypothesis is no longer held by it (R335). -/
def execCopyComplete (id : Nat) (s : State) : Host.Outcome State Fault Refusal :=
  match s.asyncs.find? (·.id == id) with
  | some a =>
    let c := ((s.team? a.team).map fun t => (s.launchD t.launch).ctx).getD 0
    .next (({ s.completeCopy a with free := s.free + 1 } : State).tidyHyps c)
  | none => .next s

/-- The flush of an AFLUSH: the team's entries merge, in the order that is given (R327). -/
def State.runFlush (s : State) (team : Nat) (order : List Nat) : State :=
  match s.team? team with
  | some t => s.flushWhere t.mast (fun e => e.team == team) order
  | none => s

/-- ATOMB_FLUSH_COMPLETE: every merge of a flush has been performed, in any order (R327, R329). -/
def execAtombFlushComplete (id : Nat) (order : List Nat) (s : State) : Host.Outcome State Fault Refusal :=
  match s.running.find? fun r => r.id == id with
  | some (.flush _ team) => .next ((s.runFlush team order).endRunning id)
  | _ => .next s

/-- Every live thread of the team has committed its next AFLUSH, and some thread has (R328). -/
def Team.epochDue (t : Team) : Bool :=
  (t.threads.all fun x => !x.live || t.epochsClosed + 1 ≤ x.aflush) && t.threads.any fun x => t.epochsClosed + 1 ≤ x.aflush

/-- EPOCH_CLOSE (R328): contributions are applied by TID and program order. -/
def execEpochClose (team : Nat) (s : State) : Host.Outcome State Fault Refusal :=
  match s.team? team with
  | some t => .next (if t.here && t.epochDue then s.closeEpoch t else s)
  | none => .next s

/-- ACQR_COMPLETE (R330): the thief stops waiting. -/
def execAcqrComplete (id : Nat) (s : State) : Host.Outcome State Fault Refusal :=
  match s.running.find? fun r => r.id == id with
  | some (.acqr ..) => .next (s.endRunning id)
  | _ => .next s

/-- A resolve has reached every home slice and L1 (R342): threads and HYPRES packets that await it go on, tiles held on what has
merged into the root are read (R380), orphans move on (R346), and the next resolve of the context takes effect. -/
def State.endResolve (s : State) (id ctx : Nat) (packet : Option Nat) : State :=
  let s1 := ((s.endRunning id).settleTiles ctx).sweepOrphans ctx
  let s2 := match packet.bind s1.packet? with
    | some p => s1.completePacket p
    | none => s1
  (s2.nextResolve ctx).tidyHyps ctx

/-- RESOLVE_COMPLETE: a resolve that has taken effect completes. -/
def execResolveComplete (id : Nat) (s : State) : Host.Outcome State Fault Refusal :=
  match s.running.find? fun r => r.id == id with
  | some (.resolve _ ctx packet _ none) => .next (s.endResolve id ctx packet)
  | _ => .next s

/-- Whether a running operation is a resolve that a team made. -/
def Running.byTeam (team : Nat) : Running → Bool
  | .resolve _ _ _ t _ => t == some team
  | _ => false
/-- Complete the resolves of a context in their order until none that a team made is left (R357, R371). -/
def State.finishResolves (s : State) (ctx team : Nat) : Nat → State
  | 0 => s
  | n + 1 =>
    if s.running.any (Running.byTeam team) then
      match s.running.find? (Running.resolves ctx) with
      | some (.resolve id _ packet _ _) => (s.endResolve id ctx packet).finishResolves ctx team n
      | _ => s
    else s

/-! ### TEAM_RETIRE (R371) -/

/-- Deliver the pixels of exited threads that have not been delivered. -/
def State.deliverAll (s : State) (t : Team) : State :=
  (List.range t.threads.length).foldl (fun (a : State) i => a.deliverPixel t.id i) s

/-- Step 2 for a DET team: every open epoch closes, and its partials pass to the launch. -/
def State.retireDet (s : State) (team : Nat) : State :=
  match s.team? team with
  | none => s
  | some t =>
    let last := (t.staging.map (·.epoch)).foldl max 0
    let s1 := s.closeEpochs team (last - t.epochsClosed)
    match s1.team? team with
    | none => s1
    | some u =>
      let l := s1.launchD u.launch
      (s1.setLaunch { l with partials := l.partials ++ u.partials.map fun p => (u.num, p) }).setTeam { u with partials := [] }

/-- Step 3: a mesh team's primitives go to primitive setup. -/
def State.handOverTeam (s : State) (t : Team) : State :=
  let l := s.launchD t.launch
  match l.draw with
  | some d => if t.stage = .mesh then s.setLaunch { l with draw := some { d with prims := d.prims ++ t.handOver } } else s
  | none => s

/-- Flushes and copies of a team that are under way are part of its drain. -/
def State.endTeamOps (s : State) (team : Nat) : State :=
  { s with running := s.running.filter fun r => match r with
      | .flush _ x => x != team
      | _ => true }

/-- The drain of a team: copies, MX operations, resolves, then staging entries or epochs. -/
def State.retireDrain (s : State) (t : Team) : State :=
  let s0 := s.completeCopies (s.asyncs.filter (·.team == t.id))
  let s1 := s0.completeAllMx t.mast ((s0.mast t.mast).mxq.filter (·.team == t.id) ++ t.mxSaved)
  let s2 := s1.finishResolves (s1.launchD t.launch).ctx t.id s1.running.length
  let s3 := if (s2.launchD t.launch).det then s2.retireDet t.id
    else match s2.team? t.id with
      | some u => s2.flushTeam u
      | none => s2
  s3.endTeamOps t.id

/-- The team retires; its room is free, and primitives that nothing precedes any more go through setup. -/
def State.retire (s : State) (t : Team) : State :=
  let s1 := (s.deliverAll t).retireDrain t
  match s1.team? t.id with
  | none => s1
  | some u =>
    let s2 := (s1.handOverTeam u).removeTeam u
    let n := (((s2.launchD t.launch).draw).map fun (d : DrawData) => d.prims.length).getD 0
    (s2.runSetup t.launch n).tidyHyps (s2.launchD t.launch).ctx

/-- TEAM_RETIRE: a team none of whose threads is live retires. -/
def execTeamRetire (team : Nat) (s : State) : Host.Outcome State Fault Refusal :=
  match s.team? team with
  | none => .next s
  | some t =>
    if t.threads.any (·.live) || s.flight.any (·.team == team) then .next s
    else .next { s.retire t with free := s.free + 1 }

/-! ### LAUNCH_FINISH (R372, R373, R110) -/

/-- Whether every team that a launch will ever have has retired and output merge has nothing left of it. -/
def State.launchDone (s : State) (l : Launch) : Bool :=
  !(s.teams.any fun t => t.launch == l.id) &&
  match l.draw with
  | none => l.admitted
  | some d => d.groups ≤ d.nextTeam && d.meshes.isEmpty && d.prims.isEmpty && d.quads.isEmpty && d.pixTeams.isEmpty && d.pixels.isEmpty


/-- A FRAME launch that finishes after its DEADLINE sets DEADLINE_MISS (R112). -/
def State.missDeadline (s : State) (l : Launch) : State :=
  if l.cls = 0 ∧ l.deadline ≠ 0 ∧ s.deadlineRank l.deadline < 0 then s.setHand l.queue { s.hand l.queue with miss := true } else s

/-- The addresses for which a DET launch holds partials, in rising order. -/
def Launch.partialVas (l : Launch) : List Nat := sortedSet (l.partials.map fun p => p.2.va)

/-- The finish: tiles and partials, the tail signal, then the successors. -/
def State.finish (s : State) (l : Launch) (p : Packet) : State :=
  let s1 := s.streamOf l.id
  let s2 := (match l.draw with
    | some d => s1.closeTiles l d
    | none => s1).mergePartials l l.partialVas
  let gone := fun (a : State) => (({ a with launches := a.launches.filter (·.id != l.id) } : State).tidyFaults l.ctx).tidyHyps l.ctx
  match s2.tailSignal l.ctx p with
  | none => gone (s2.failStarted p eFAULT)
  | some s3 =>
    let s4 := gone (s3.missDeadline l)
    s4.releaseNext l.ctx { p with st := .finished, left := List.range (min 4 (p.tailW 0x14)) }

/-- LAUNCH_FINISH: the last team of a launch has retired. -/
def execLaunchFinish (launch : Nat) (s : State) : Host.Outcome State Fault Refusal :=
  match s.launch? launch with
  | none => .next s
  | some l =>
    match s.packet? l.packet with
    | none => .next s
    | some p => .next (if s.launchDone l then s.finish l p else s)

/-! ### WATCHDOG_EXPIRY (R114) -/

/-- The nanoseconds that the watchdog has counted of a launch: from its first instruction, without the time in which every team not
yet retired was saved. -/
def State.watchTime (s : State) (l : Launch) : Nat :=
  match l.firstRun with
  | none => 0
  | some f => s.ns - f - l.awayNs

/-- WATCHDOG_EXPIRY: the count has reached the context's WATCHDOG, and the launch ends. -/
def execWatchdogExpiry (launch : Nat) (s : State) : Host.Outcome State Fault Refusal :=
  match s.launch? launch with
  | none => .next s
  | some l =>
    let w := (s.ctxD l.ctx).watchdog
    .next (if w ≠ 0 ∧ 1000000 * w ≤ s.watchTime l then s.endLaunch l eWATCHDOG else s)

end Sys2Proof.Machine
end

