-- ==== Sys2Proof/Machine/Fpu.lean ====
section
/-! DEFINITION. Floating-point, special-function, conversion and packing instructions (R216 to R228). -/

namespace Sys2Proof.Machine

/-- d := f mode a b with flags, in the mode of MODW.RM. -/
def fpBinary (h : Hdr) (d a b : Reg) (f : Mode → Nat → Nat → Nat × Flags) : State → Host.Outcome State Fault Refusal :=
  lanewise h [(a, 1), (b, 1)] [(d, 1)] fun e ln =>
    ln.wrF d (f e.p.modw.rm (e.rd ln a).toNat (e.rd ln b).toNat)
/-- d := f mode a b d with flags. -/
def fpTernary (h : Hdr) (d a b : Reg) (f : Mode → Nat → Nat → Nat → Nat × Flags) :
    State → Host.Outcome State Fault Refusal :=
  lanewise h [(a, 1), (b, 1), (d, 1)] [(d, 1)] fun e ln =>
    ln.wrF d (f e.p.modw.rm (e.rd ln a).toNat (e.rd ln b).toNat (e.rd ln d).toNat)
/-- d := f a with flags. -/
def fpUnary (h : Hdr) (d a : Reg) (f : Nat → Nat × Flags) : State → Host.Outcome State Fault Refusal :=
  lanewise h [(a, 1)] [(d, 1)] fun e ln => ln.wrF d (f (e.rd ln a).toNat)

/-! ### FALU (R216, R218, R219) -/

/-- FADD (R216). -/
def execFadd (h : Hdr) (d a b : Reg) := fpBinary h d a b (fpAdd f32)
/-- FSUB (R216). -/
def execFsub (h : Hdr) (d a b : Reg) := fpBinary h d a b (fpSub f32)
/-- FMUL (R216). -/
def execFmul (h : Hdr) (d a b : Reg) := fpBinary h d a b (fpMul f32)
/-- FMIN (R218). -/
def execFmin (h : Hdr) (d a b : Reg) := fpBinary h d a b fun _ => fpMinMax f32 false
/-- FMAX (R218). -/
def execFmax (h : Hdr) (d a b : Reg) := fpBinary h d a b fun _ => fpMinMax f32 true
/-- FCMP (R219). -/
def execFcmp (h : Hdr) (cmp pd : BitVec 3) (a b : Reg) :=
  lanewise h [(a, 1), (b, 1)] [] fun e ln =>
    let r := fpCmp f32 cmp (e.rd ln a).toNat (e.rd ln b).toNat
    (ln.setPred pd.toNat r.1).orFlags r.2

/-! ### FFMA and packed pairs (R217, R220) -/

/-- FFMA (R217). -/
def execFfma (h : Hdr) (d a b : Reg) := fpTernary h d a b fun m => fpFma f32 m false false
/-- FFMS (R217). -/
def execFfms (h : Hdr) (d a b : Reg) := fpTernary h d a b fun m => fpFma f32 m false true
/-- FNMA (R217). -/
def execFnma (h : Hdr) (d a b : Reg) := fpTernary h d a b fun m => fpFma f32 m true false

/-- An operation on each of the two packed elements (R57, R220). -/
def packed2 (f : Nat → Nat → Nat → Nat × Flags) (a b d : Nat) : Nat × Flags :=
  let lo := f (a % 65536) (b % 65536) (d % 65536)
  let hi := f (a / 65536) (b / 65536) (d / 65536)
  (lo.1 + 65536 * hi.1, lo.2 ||| hi.2)

/-- PKFMA (R220): F16, or BF16 under ALT. -/
def execPkfma (h : Hdr) (d a b : Reg) :=
  lanewise h [(a, 1), (b, 1), (d, 1)] [(d, 1)] fun e ln =>
    ln.wrF d (packed2 (fpFma (if e.p.modw.alt then bf16 else f16) e.p.modw.rm false false)
      (e.rd ln a).toNat (e.rd ln b).toNat (e.rd ln d).toNat)
/-- PKADD (R220). -/
def execPkadd (h : Hdr) (d a b : Reg) := fpBinary h d a b fun m x y => packed2 (fun p q _ => fpAdd f16 m p q) x y 0
/-- PKMUL (R220). -/
def execPkmul (h : Hdr) (d a b : Reg) := fpBinary h d a b fun m x y => packed2 (fun p q _ => fpMul f16 m p q) x y 0

/-! ### FSFU (R221 to R223) -/

/-- FRCP (R221). -/
def execFrcp (h : Hdr) (d a : Reg) := fpUnary h d a fpRcp
/-- FRSQ (R221). -/
def execFrsq (h : Hdr) (d a : Reg) := fpUnary h d a fpRsq
/-- FSQRT (R221). -/
def execFsqrt (h : Hdr) (d a : Reg) := fpUnary h d a fpSqrt
/-- FEXP2 (R221). -/
def execFexp2 (h : Hdr) (d a : Reg) := fpUnary h d a fpExp2
/-- FLOG2 (R221). -/
def execFlog2 (h : Hdr) (d a : Reg) := fpUnary h d a fpLog2
/-- FSIN (R221). -/
def execFsin (h : Hdr) (d a : Reg) := fpUnary h d a fpSinPi
/-- FCOS (R221). -/
def execFcos (h : Hdr) (d a : Reg) := fpUnary h d a fpCosPi
/-- FRND (R223). -/
def execFrnd (h : Hdr) (d a : Reg) (mode : BitVec 2) := fpUnary h d a (fpRnd f32 mode)

/-! ### CVT (R224, R225) -/

/-- The width and signedness of an integer type code 0 to 7 (R46, R56). -/
def intWidth (code : Nat) : Nat := [32, 32, 64, 64, 8, 8, 4, 4].getD code 32
def intSigned (code : Nat) : Bool := code % 2 == 0
/-- The float format of a type code 8 to 12 (R46). -/
def floatFmt (code : Nat) : Fmt := [f32, f16, bf16, e4m3, e5m2].getD (code - 8) f32

/-- An integer result placed in its register or pair (R57): I4 and I8 sign-extended, N4 and N8 zero-extended. -/
def placeInt (code : Nat) (r : Int) : Dword :=
  let w := intWidth code
  if w = 64 then BitVec.ofInt 64 r
  else if w = 32 then BitVec.ofNat 64 (wrap32 r).toNat
  else if intSigned code then BitVec.ofNat 64 (wrap32 (sextNat w (r % 2 ^ w).toNat)).toNat
  else BitVec.ofInt 64 (r % 2 ^ w)

/-- The converted value and its flags (R225): `src` is FN, `x` the source register or pair. -/
def cvtOf (src : Nat) (alt : Bool) (dst : Nat) (mode : Mode) (x : Nat) : Dword × Flags :=
  if src ≤ 3 then
    let w := intWidth src
    let v : Int := if intSigned src then sextNat w x else ((x % 2 ^ w : Nat) : Int)
    if dst ≤ 7 then (placeInt dst v, fNone)
    else
      let r := packFv (floatFmt dst) mode (intFv v)
      (BitVec.ofNat 64 r.1, r.2)
  else
    let f := if src = 7 then (if alt then e5m2 else e4m3) else floatFmt (src + 4)
    let v := unpack f (x % 2 ^ (f.ebits + f.fbits + 1))
    if dst ≤ 7 then
      let r := fvToInt mode (intSigned dst) (intWidth dst) v
      (placeInt dst r.1, r.2)
    else
      let r := packFv (floatFmt dst) mode v
      (BitVec.ofNat 64 r.1, r.2)

/-- CVT (R224, R225). -/
def execCvt (h : Hdr) (src : BitVec 3) (d a : Reg) (dst : BitVec 5) (mode : BitVec 2) :=
  let na := if src = 2 ∨ src = 3 then 2 else 1
  let nd := if cvtPairDst dst then 2 else 1
  lanewise h [(a, na)] [(d, nd)] fun e ln =>
    let x := if na = 2 then (e.rdPair ln a).toNat else (e.rd ln a).toNat
    let r := cvtOf src.toNat e.p.modw.alt dst.toNat mode x
    (if nd = 2 then ln.wrPair d r.1 else ln.wr d (loW r.1)).orFlags r.2

/-! ### SPK and CVTBD (R226 to R228) -/

/-- SPK (R226). -/
def execSpk (h : Hdr) (d a : Reg) :=
  lanewise h [(a, 4)] [(d, 2)] fun e ln =>
    let r := spkOf ((e.rdGroup ln a 4).map (·.toNat % 65536))
    ln.wrGroup d [BitVec.ofNat 32 r.1, BitVec.ofNat 32 r.2]

/-- CVTBD (R227, R228): the block to the group at d, and one append for each outlier, made at commit. Without a MODW of
NF ≠ 0 before it the word raises RESERVED-VALUE (R204). -/
def execCvtbd (h : Hdr) (d a b : Reg) :=
  lanewise h [(a, 8), (b, 4)] [(d, 4)] fun e ln =>
    let nf := e.p.modw.nf.toNat
    let list := e.rdPair ln b
    if nf = 0 then ln.raise e.p.pc 0x03
    else if list.toNat % 8 ≠ 0 then ln.raise e.p.pc cOPERAND
    else
      let bl := beadPack (beadM nf) (e.rd ln (b + 2)).toNat ((e.rdGroup ln a 8).map (·.toNat))
      let index := (e.rd ln (b + 3)).toNat
      let out := (ln.wrGroup d [BitVec.ofNat 32 bl.stream, BitVec.ofNat 32 (bl.stream / 2 ^ 32),
        BitVec.ofNat 32 bl.scale, BitVec.ofNat 32 bl.outliers.length]).orFlags bl.flags
      if list = 0 then out
      else bl.outliers.foldl (fun x o =>
        x.record e.p.pc (.append list (BitVec.ofNat 32 (index * 8 + o.1)) (BitVec.ofNat 32 o.2))) out

end Sys2Proof.Machine
end

