-- ==== Sys2Proof/Machine/HypIns.lean ====
section
/-! DEFINITION. Resolve and query instructions as they are recorded (R343 to R345); the tests on the table are made when the
thread's commit falls. -/

namespace Sys2Proof.Machine

/-- HOPEN d, pF (R343). -/
def execHopen (h : Hdr) (d : Reg) (pf : BitVec 3) : State → Host.Outcome State Fault Refusal :=
  lanewise h [] [(d, 1)] fun e ln => ln.record e.p.pc (.hopen d pf.toNat)

/-- HSET a (R343). -/
def execHset (h : Hdr) (a : Reg) : State → Host.Outcome State Fault Refusal :=
  lanewise h [(a, 1)] [] fun e ln => ln.record e.p.pc (.hset (e.rd ln a))

/-- HGET d (R343). -/
def execHget (h : Hdr) (d : Reg) : State → Host.Outcome State Fault Refusal :=
  lanewise h [] [(d, 1)] fun e ln => ln.record e.p.pc (.hget d)

/-- HCONFIRM a (R343). -/
def execHconfirm (h : Hdr) (a : Reg) : State → Host.Outcome State Fault Refusal :=
  lanewise h [(a, 1)] [] fun e ln => ln.record e.p.pc (.hconfirm (e.rd ln a))

/-- HREFUTE a (R343). -/
def execHrefute (h : Hdr) (a : Reg) : State → Host.Outcome State Fault Refusal :=
  lanewise h [(a, 1)] [] fun e ln => ln.record e.p.pc (.hrefute (e.rd ln a))

/-- HSTATE d, a (R344). -/
def execHstate (h : Hdr) (d a : Reg) : State → Host.Outcome State Fault Refusal :=
  lanewise h [(a, 1)] [(d, 1)] fun e ln =>
    let x := e.rd ln a
    if 255 < x.toNat then ln.raise e.p.pc cOPERAND else ln.record e.p.pc (.hstate x d)

/-- HORPHAN a (R345). -/
def execHorphan (h : Hdr) (a : Reg) : State → Host.Outcome State Fault Refusal :=
  lanewise h [(a, 1)] [] fun e ln =>
    let x := e.rd ln a
    if x ≠ 0xFFFFFFFF ∧ x.toNat % 4 ≠ 0 then ln.raise e.p.pc cOPERAND else ln.record e.p.pc (.horphan x)

end Sys2Proof.Machine
end

