-- ==== Sys2Proof/Machine/Ialu.lean ====
section
/-! DEFINITION. Integer, logical, bit-field, multiply-add, comparison, immediate and predicate instructions (R202 to R215). -/

namespace Sys2Proof.Machine

/-! ### IALU (R205) -/

/-- floor(a × b ÷ 2^32) mod 2^32 with signed operands. -/
def mulHiS (a b : Word) : Word := wrap32 (a.toInt * b.toInt / 2 ^ 32)
/-- floor(a × b ÷ 2^32) with unsigned operands. -/
def mulHiU (a b : Word) : Word := BitVec.ofNat 32 (a.toNat * b.toNat / 2 ^ 32)
def minS (a b : Word) : Word := if a.toInt ≤ b.toInt then a else b
def minU (a b : Word) : Word := if a.toNat ≤ b.toNat then a else b
def maxS (a b : Word) : Word := if a.toInt ≤ b.toInt then b else a
def maxU (a b : Word) : Word := if a.toNat ≤ b.toNat then b else a
/-- The exact absolute difference of signed operands, as N32. -/
def absdS (a b : Word) : Word := BitVec.ofNat 32 (a.toInt - b.toInt).natAbs
/-- The exact absolute difference of unsigned operands. -/
def absdU (a b : Word) : Word := BitVec.ofNat 32 ((a.toNat : Int) - b.toNat).natAbs

/-- ADD (R205). -/
def execAdd (h : Hdr) (d a b : Reg) := binary h d a b fun x y => x + y
/-- SUB (R205). -/
def execSub (h : Hdr) (d a b : Reg) := binary h d a b fun x y => x - y
/-- MUL.LO (R205). -/
def execMulLo (h : Hdr) (d a b : Reg) := binary h d a b fun x y => x * y
/-- MUL.HI (R205). -/
def execMulHi (h : Hdr) (d a b : Reg) := binaryAlt h d a b mulHiS mulHiU
/-- MIN (R205). -/
def execMin (h : Hdr) (d a b : Reg) := binaryAlt h d a b minS minU
/-- MAX (R205). -/
def execMax (h : Hdr) (d a b : Reg) := binaryAlt h d a b maxS maxU
/-- ABSD (R205). -/
def execAbsd (h : Hdr) (d a b : Reg) := binaryAlt h d a b absdS absdU
/-- NEG (R205). -/
def execNeg (h : Hdr) (d a : Reg) := unary h d a fun x => -x

/-! ### ILOG (R206) -/

/-- A shift amount: k := b[5:0]. -/
def shAmt (b : Word) : Nat := b.toNat % 64
def shlW (a b : Word) : Word := if 32 ≤ shAmt b then 0 else a <<< shAmt b
def shrW (a b : Word) : Word := if 32 ≤ shAmt b then 0 else a >>> shAmt b
def shraW (a b : Word) : Word := if 32 ≤ shAmt b then (if a.msb then 0xFFFFFFFF else 0) else a.sshiftRight (shAmt b)
/-- Rotate left by b[4:0]. -/
def rotW (a b : Word) : Word := a.rotateLeft (b.toNat % 32)

/-- AND (R206). -/
def execAnd (h : Hdr) (d a b : Reg) := binary h d a b fun x y => x &&& y
/-- OR (R206). -/
def execOr (h : Hdr) (d a b : Reg) := binary h d a b fun x y => x ||| y
/-- XOR (R206). -/
def execXor (h : Hdr) (d a b : Reg) := binary h d a b fun x y => x ^^^ y
/-- ANDN (R206). -/
def execAndn (h : Hdr) (d a b : Reg) := binary h d a b fun x y => x &&& ~~~y
/-- SHL (R206). -/
def execShl (h : Hdr) (d a b : Reg) := binary h d a b shlW
/-- SHR (R206). -/
def execShr (h : Hdr) (d a b : Reg) := binary h d a b shrW
/-- SHRA (R206). -/
def execShra (h : Hdr) (d a b : Reg) := binary h d a b shraW
/-- ROT (R206). -/
def execRot (h : Hdr) (d a b : Reg) := binary h d a b rotW

/-! ### IBIT (R207 to R209) -/

/-- The position of a bit field: b[7:0], at most 32. -/
def bfPos (b : Word) : Nat := min (b.toNat % 256) 32
/-- The length of a bit field: b[15:8], at most 32. -/
def bfLen (b : Word) : Nat := min (b.toNat / 256 % 256) 32
/-- BFE, signed (R207). -/
def bfeS (a b : Word) : Word :=
  let l := bfLen b
  let f := (a.toInt / 2 ^ bfPos b) % 2 ^ l
  if l = 0 then 0 else wrap32 (sextNat l f.toNat)
/-- BFE.N32 (R207). -/
def bfeU (a b : Word) : Word :=
  let l := bfLen b
  if l = 0 then 0 else BitVec.ofNat 32 (a.toNat / 2 ^ bfPos b % 2 ^ l)
/-- BFI (R207): the low l bits of a replace bits p to p + l - 1 of d, none above bit 31. -/
def bfiW (a b d : Word) : Word :=
  let mask : Word := BitVec.ofNat 32 ((2 ^ bfLen b - 1) * 2 ^ bfPos b)
  (d &&& ~~~mask) ||| (BitVec.ofNat 32 (a.toNat * 2 ^ bfPos b) &&& mask)
/-- The number of 1 bits (R208). -/
def popcW (a : Word) : Word := BitVec.ofNat 32 ((List.range 32).filter fun i => a.getLsbD i).length
/-- The number of 0 bits above the most significant 1 (R208). -/
def clzW (a : Word) : Word := if a = 0 then 32 else BitVec.ofNat 32 (31 - Nat.log2 a.toNat)
/-- Bit i moved to bit 31 - i (R208). -/
def brevW (a : Word) : Word := a.reverse
/-- Signed quotient, truncated toward zero (R209). -/
def divS (a b : Word) : Word := if b = 0 then 0xFFFFFFFF else wrap32 (a.toInt.tdiv b.toInt)
/-- Unsigned quotient (R209). -/
def divU (a b : Word) : Word := if b = 0 then 0xFFFFFFFF else BitVec.ofNat 32 (a.toNat / b.toNat)
/-- Signed remainder, with the sign of a (R209). -/
def remS (a b : Word) : Word := if b = 0 then a else wrap32 (a.toInt.tmod b.toInt)
/-- Unsigned remainder (R209). -/
def remU (a b : Word) : Word := if b = 0 then a else BitVec.ofNat 32 (a.toNat % b.toNat)

/-- BFE (R207). -/
def execBfe (h : Hdr) (d a b : Reg) := binaryAlt h d a b bfeS bfeU
/-- BFI (R207). -/
def execBfi (h : Hdr) (d a b : Reg) := ternary h d a b bfiW
/-- POPC (R208). -/
def execPopc (h : Hdr) (d a : Reg) := unary h d a popcW
/-- CLZ (R208). -/
def execClz (h : Hdr) (d a : Reg) := unary h d a clzW
/-- BREV (R208). -/
def execBrev (h : Hdr) (d a : Reg) := unary h d a brevW
/-- DIV (R209). -/
def execDiv (h : Hdr) (d a b : Reg) := binaryAlt h d a b divS divU
/-- REM (R209). -/
def execRem (h : Hdr) (d a b : Reg) := binaryAlt h d a b remS remU

/-! ### IMAD (R210) -/

/-- MAD (R210). -/
def execMad (h : Hdr) (d a b : Reg) := ternary h d a b fun x y z => x * y + z
/-- MADH (R210). -/
def execMadh (h : Hdr) (d a b : Reg) :=
  lanewise h [(a, 1), (b, 1), (d, 1)] [(d, 1)] fun e ln =>
    ln.wr d ((if e.p.modw.alt then mulHiU else mulHiS) (e.rd ln a) (e.rd ln b) + e.rd ln d)
/-- ADD64 (R210). -/
def execAdd64 (h : Hdr) (d a b : Reg) :=
  lanewise h [(a, 2), (b, 2)] [(d, 2)] fun e ln => ln.wrPair d (e.rdPair ln a + e.rdPair ln b)
/-- SUB64 (R210). -/
def execSub64 (h : Hdr) (d a b : Reg) :=
  lanewise h [(a, 2), (b, 2)] [(d, 2)] fun e ln => ln.wrPair d (e.rdPair ln a - e.rdPair ln b)
/-- ADDC (R210): carry in and out in p7. -/
def execAddc (h : Hdr) (d a b : Reg) :=
  lanewise h [(a, 1), (b, 1)] [(d, 1)] fun e ln =>
    let r := addcOf (e.rd ln a) (e.rd ln b) (ln.pred 7)
    (ln.wr d r.1).setPred 7 r.2
/-- SUBB (R210): borrow in and out in p7. -/
def execSubb (h : Hdr) (d a b : Reg) :=
  lanewise h [(a, 1), (b, 1)] [(d, 1)] fun e ln =>
    let r := subbOf (e.rd ln a) (e.rd ln b) (ln.pred 7)
    (ln.wr d r.1).setPred 7 r.2

/-! ### ICMP (R211) -/

/-- The integer comparisons of R46, as I32 or N32. -/
def icmpOf (cmp : BitVec 3) (alt : Bool) (a b : Word) : Bool :=
  let lt := if alt then decide (a.toNat < b.toNat) else decide (a.toInt < b.toInt)
  match cmp.toNat with
  | 0 => a == b
  | 1 => a != b
  | 2 => lt
  | 3 => lt || a == b
  | 4 => !(lt || a == b)
  | 5 => !lt
  | _ => a &&& b != 0
/-- ICMP (R211). -/
def execIcmp (h : Hdr) (cmp pd pc : BitVec 3) (orr : Bool) (a b : Reg) :=
  lanewise h [(a, 1), (b, 1)] [] fun e ln =>
    let r := icmpOf cmp e.p.modw.alt (e.rd ln a) (e.rd ln b)
    let c := ln.pred pc.toNat
    ln.setPred pd.toNat (if orr then r || c else r && c)

/-! ### Immediates (R212, R213) -/

/-- ADDI (R212). -/
def execAddi (h : Hdr) (d a : Reg) (imm : BitVec 10) := unary h d a fun x => x + imm.signExtend 32
/-- ANDI (R212). -/
def execAndi (h : Hdr) (d a : Reg) (imm : BitVec 7) := unary h d a fun x => x &&& imm.setWidth 32
/-- ORI (R212). -/
def execOri (h : Hdr) (d a : Reg) (imm : BitVec 7) := unary h d a fun x => x ||| imm.setWidth 32
/-- XORI (R212). -/
def execXori (h : Hdr) (d a : Reg) (imm : BitVec 7) := unary h d a fun x => x ^^^ imm.setWidth 32
/-- SHLI (R212). -/
def execShli (h : Hdr) (d a : Reg) (imm : BitVec 6) := unary h d a fun x => shlW x (imm.setWidth 32)
/-- SHRI (R212). -/
def execShri (h : Hdr) (d a : Reg) (imm : BitVec 6) := unary h d a fun x => shrW x (imm.setWidth 32)
/-- SHRAI (R212). -/
def execShrai (h : Hdr) (d a : Reg) (imm : BitVec 6) := unary h d a fun x => shraW x (imm.setWidth 32)
/-- ROTI (R212). -/
def execRoti (h : Hdr) (d a : Reg) (imm : BitVec 6) := unary h d a fun x => rotW x (imm.setWidth 32)
/-- MOVL.LO (R213): unguarded. -/
def execMovlLo (stop : Bool) (d : Reg) (imm : BitVec 16) :=
  lanewise ⟨stop, 0⟩ [] [(d, 1)] fun _ ln => ln.wr d (imm.setWidth 32)
/-- MOVL.HI (R213): unguarded, keeps d[15:0]. -/
def execMovlHi (stop : Bool) (d : Reg) (imm : BitVec 16) :=
  lanewise ⟨stop, 0⟩ [(d, 1)] [(d, 1)] fun e ln => ln.wr d (imm ++ (e.rd ln d).setWidth 16)

/-! ### PRED (R214, R215) -/

/-- PAND (R214). -/
def execPand (h : Hdr) (pd pa pb : BitVec 3) :=
  lanewise h [] [] fun _ ln => ln.setPred pd.toNat (ln.pred pa.toNat && ln.pred pb.toNat)
/-- POR (R214). -/
def execPor (h : Hdr) (pd pa pb : BitVec 3) :=
  lanewise h [] [] fun _ ln => ln.setPred pd.toNat (ln.pred pa.toNat || ln.pred pb.toNat)
/-- PXOR (R214). -/
def execPxor (h : Hdr) (pd pa pb : BitVec 3) :=
  lanewise h [] [] fun _ ln => ln.setPred pd.toNat (ln.pred pa.toNat != ln.pred pb.toNat)
/-- PNOT (R214). -/
def execPnot (h : Hdr) (pd pa : BitVec 3) :=
  lanewise h [] [] fun _ ln => ln.setPred pd.toNat (!ln.pred pa.toNat)
/-- SEL (R215): G names the selector; every thread of the pack executes it. -/
def execSel (h : Hdr) (d a b : Reg) :=
  lanewise ⟨h.stop, 0⟩ [(a, 1), (b, 1)] [(d, 1)] fun e ln =>
    ln.wr d (if ln.pred h.guard.toNat then e.rd ln a else e.rd ln b)
/-- MOVP (R214). -/
def execMovp (h : Hdr) (d : Reg) (pa : BitVec 3) :=
  lanewise h [] [(d, 1)] fun _ ln => ln.wr d (if ln.pred pa.toNat then 1 else 0)
/-- PSET (R214). -/
def execPset (h : Hdr) (pd : BitVec 3) (a : Reg) :=
  lanewise h [(a, 1)] [] fun e ln => ln.setPred pd.toNat (e.rd ln a != 0)

end Sys2Proof.Machine
end

