-- ==== Sys2Proof/Machine/LaneOps.lean ====
section
/-! DEFINITION. Lane instructions (R78 to R81, R190 to R195). A lane is present and active when its thread is in the pack and
its guard is true. -/

namespace Sys2Proof.Machine

/-- The present and active lanes (R78), in ascending lane order. -/
def Env.active (e : Env) (g : BitVec 2) : List (Nat × Lane) := e.p.lanes.filter fun c => c.2.pred g.toNat
/-- The value of a register in a lane when it is present and active. A lane that itself takes REGISTER-RANGE at the instruction gives what
its registers hold, 0 above VREGS (R190; DESIGN CHOICE, log entry 95). -/
def Env.laneVal (e : Env) (g : BitVec 2) (a : Reg) (l : Nat) : Option Word := (alGet l (e.active g)).map fun ln => e.rd ln a

/-- VOTE (R191): 0 ANY, 1 ALL, 2 BALLOT, 3 EQ over the present and active lanes with their predicate values. -/
def voteOf (kind : Nat) (ps : List (Nat × Bool)) : Word :=
  if kind = 0 then (if ps.any (·.2) then 1 else 0)
  else if kind = 1 then (if ps.all (·.2) then 1 else 0)
  else if kind = 2 then BitVec.ofNat 32 (ps.foldl (fun a c => a + if c.2 then 2 ^ c.1 else 0) 0)
  else if ps.all (·.2) || !(ps.any (·.2)) then 1 else 0

/-- VOTE.kind d, pA (R191). -/
def execVote (h : Hdr) (kind : BitVec 2) (d : Reg) (p : BitVec 3) : State → Host.Outcome State Fault Refusal :=
  lanewise h [] [(d, 1)] fun e ln =>
    ln.wr d (voteOf kind.toNat ((e.active h.guard).map fun c => (c.1, c.2.pred p.toNat)))

/-- The identity of a reduction (R78). -/
def redIdentity (op ty : Nat) : Nat :=
  if op = 0 then (if ty = 2 then 0x80000000 else 0)
  else if op = 1 then (if ty = 0 then 0x7FFFFFFF else if ty = 1 then 0xFFFFFFFF else 0x7F800000)
  else if op = 2 then (if ty = 0 then 0x80000000 else if ty = 1 then 0 else 0xFF800000)
  else if op = 3 then 0xFFFFFFFF
  else 0

/-- One node of a reduction or scan (R78): integers wrap, F32 ADD rounds RNE, F32 MIN and MAX follow R64. -/
def redOp (op ty : Nat) (x y : Nat × Flags) : Nat × Flags :=
  let a : Word := BitVec.ofNat 32 x.1
  let b : Word := BitVec.ofNat 32 y.1
  let r : Nat × Flags :=
    if op = 0 then (if ty = 2 then fpAdd f32 RNE x.1 y.1 else ((a + b).toNat, fNone))
    else if op = 1 ∨ op = 2 then
      if ty = 2 then fpMinMax f32 (op == 2) x.1 y.1
      else
        let le := if ty = 0 then decide (a.toInt ≤ b.toInt) else decide (a.toNat ≤ b.toNat)
        (if le == (op == 1) then x.1 else y.1, fNone)
    else if op = 3 then ((a &&& b).toNat, fNone)
    else if op = 4 then ((a ||| b).toNat, fNone)
    else ((a ^^^ b).toNat, fNone)
  (r.1, x.2 ||| y.2 ||| r.2)

/-- One level of the tree of R79. -/
def redLevel (f : Nat × Flags → Nat × Flags → Nat × Flags) : List (Nat × Flags) → List (Nat × Flags)
  | x :: y :: r => f x y :: redLevel f r
  | l => l
/-- The root of the tree after k levels. -/
def redTree (f : Nat × Flags → Nat × Flags → Nat × Flags) : Nat → List (Nat × Flags) → List (Nat × Flags)
  | 0, l => l
  | k + 1, l => redTree f k (redLevel f l)

/-- One step of the scan order of R80 at distance d. -/
def scanStep (f : Nat × Flags → Nat × Flags → Nat × Flags) (d : Nat) (s : List (Nat × Flags)) : List (Nat × Flags) :=
  (List.range 32).map fun l => if d ≤ l then f (s.getD (l - d) (0, 0)) (s.getD l (0, 0)) else s.getD l (0, 0)

/-- The operands of the 32 lanes, or the identity (R78). -/
def Env.redInputs (e : Env) (g : BitVec 2) (op ty : Nat) (a : Reg) : List (Nat × Flags) :=
  (List.range 32).map fun l => (((e.laneVal g a l).map (·.toNat)).getD (redIdentity op ty), fNone)

/-- RED.op.type d, a, pE (R192). -/
def execRed (h : Hdr) (op : BitVec 3) (ty : BitVec 2) (d a : Reg) (pe : BitVec 2) (s : State) :
    Host.Outcome State Fault Refusal :=
  onIssue s h.stop fun s t p =>
    let e : Env := ⟨s, t, p⟩
    let r := (redTree (redOp op.toNat ty.toNat) 5 (e.redInputs h.guard op.toNat ty.toNat a)).headD (0, 0)
    let none_ := (e.active h.guard).isEmpty
    let p1 := p.mapLanes fun _ ln => e.onLane h.guard [(a, 1)] [(d, 1)] (fun x => x.wrF d r) ln
    (s, p1.mapLanes fun _ ln => ln.setPred pe.toNat none_)

/-- The inclusive and exclusive results of a scan (R80), with every node's flags. -/
def scanOf (op ty : Nat) (xs : List (Nat × Flags)) : List Nat × Flags :=
  let s := [1, 2, 4, 8, 16].foldl (fun (s : List (Nat × Flags)) d => scanStep (redOp op ty) d s) xs
  (s.map (·.1), s.foldl (fun f x => f ||| x.2) 0)

/-- SCAN.op.type d, a (R193). Lane 0's inclusive result, and lane 1's exclusive one, is lane 0's operand as it stands, a NaN with its bits
(R62, R80; DEDUCED, log entry 95). -/
def execScan (h : Hdr) (op : BitVec 3) (ty : BitVec 2) (excl : Bool) (d a : Reg) :
    State → Host.Outcome State Fault Refusal :=
  lanewise h [(a, 1)] [(d, 1)] fun e ln =>
    let r := scanOf op.toNat ty.toNat (e.redInputs h.guard op.toNat ty.toNat a)
    let l := ln.tid % 32
    let x := if excl then (if l = 0 then redIdentity op.toNat ty.toNat else r.1.getD (l - 1) 0) else r.1.getD l 0
    ln.wrF d (x, r.2)

/-- The value that a lane takes from a source lane, or its fill (R194): `src` is none when out of range. -/
def Env.moved (e : Env) (h : Hdr) (a b : Reg) (ln : Lane) (src : Option Nat) : Word :=
  match src.bind fun l => e.laneVal h.guard a l with
  | some x => x
  | none => if e.p.modw.fill = 0 then 0 else if e.p.modw.fill = 1 then e.rd ln a else e.rd ln b

/-- The source lane of XLANE (R194). -/
def xlaneSrc (kind n l : Nat) : Option Nat :=
  if kind = 0 then some n
  else if kind = 1 then (if l < n then none else some (l - n))
  else if kind = 2 then (if 31 < l + n then none else some (l + n))
  else some (l ^^^ n)

/-- XLANE.kind d, a, n (R194). -/
def execXlane (h : Hdr) (kind : BitVec 2) (d a : Reg) (n : BitVec 5) : State → Host.Outcome State Fault Refusal :=
  lanewise h [(a, 1)] [(d, 1)] fun e ln =>
    ln.wr d (e.moved h a a ln (xlaneSrc kind.toNat n.toNat (ln.tid % 32)))

/-- PERM d, a, b (R194). -/
def execPerm (h : Hdr) (d a b : Reg) : State → Host.Outcome State Fault Refusal :=
  lanewise h [(a, 1), (b, 1)] [(d, 1)] fun e ln =>
    let x := (e.rd ln b).toNat
    ln.wr d (e.moved h a b ln (if 31 < x then none else some x))

/-- BCAST d, a, n (R194). -/
def execBcast (h : Hdr) (d a : Reg) (n : BitVec 5) : State → Host.Outcome State Fault Refusal :=
  lanewise h [(a, 1)] [(d, 1)] fun e ln => ln.wr d (e.moved h a a ln (some n.toNat))

/-- What PATLD read: the 32 bytes of the pattern, whether one is poisoned, and the cause and address of a translation that failed. -/
structure Pattern where
  bytes : List Byte
  bad   : Bool
  fault : Option (Nat × Nat)

/-- The pattern at an address through L1 in a thread's view (R195); a translation that fails is judged at the end of the block. -/
def State.pattern (s : State) (m : Nat) (c : Ctx) (hyp : Nat) (va : Nat) : State × Pattern :=
  match s.xrange c va 32 .rd (some m) with
  | .error e => (s, ⟨List.replicate 32 0, false, some e⟩)
  | .ok segs =>
    let (s1, bs) := (s.tlbKeepLeaf c va .rd m).l1Segs m c hyp segs
    ({ s1 with free := s1.free + 1 }, ⟨bs.map (·.1), bs.any (·.2), none⟩)

/-- One lane of PATLD with the pattern read (R194, R195). -/
def Env.patLane (e : Env) (h : Hdr) (d a b : Reg) (lowest ea : Nat) (pat : Pattern) (l : Nat) (ln : Lane) : Lane :=
  if rangeBad e.t.shape.vregs ln.wb [(a, 1), (b, 2), (d, 1)] then ln.raise e.p.pc cRANGE
  else if !ln.pred h.guard.toNat then ln
  else if ea % 32 ≠ 0 then ln.raise e.p.pc cOPERAND
  else
    let src : Names := if l = lowest then [(a, 1), (b, 2)] else [(a, 1)]
    let ln1 := if ln.srcPoison src then ln.notePoison e.p.pc else ln
    let ln2 := if pat.bad then ln1.notePoison e.p.pc (some ea) else ln1
    let x := (pat.bytes.getD l 0).toNat
    (ln2.wr d (e.moved h a b ln (if 31 < x then none else some x))).record e.p.pc (.patRead (BitVec.ofNat 64 ea) pat.fault)

/-- The CP.OUTs of a pack's lanes that stand before their read of a pattern are written where it lies (R315). -/
def State.settlePattern (s : State) (p : Pack) (c : Ctx) (tids : List Nat) (va : Nat) : State :=
  match s.xrange c va 32 .rd (some p.mast) with
  | .ok segs => tids.foldl (fun (a : State) i => a.settleOuts p.team i fun l => (segLocs segs).contains l) s
  | .error _ => s

/-- PATLD d, a, b (R195): the address is that of the lowest present and active lane. -/
def execPatld (h : Hdr) (d a b : Reg) (s : State) : Host.Outcome State Fault Refusal :=
  onIssue s h.stop fun s t p =>
    let e : Env := ⟨s, t, p⟩
    match e.active h.guard with
    | [] => (s, p.mapLanes fun l ln => e.patLane h d a b 32 0 ⟨[], false, none⟩ l ln)
    | (low, x) :: rest =>
      let ea := (e.rdPair x b).toNat
      let r := if ea % 32 = 0 then
          (s.settlePattern p e.ctx (((low, x) :: rest).map (·.2.tid)) ea).pattern p.mast e.ctx x.hyp ea
        else (s, ⟨[], false, none⟩)
      (r.1, p.mapLanes fun l ln => e.patLane h d a b low ea r.2 l ln)

end Sys2Proof.Machine
end

