-- ==== Sys2Proof/Machine/Save.lean ====
section
/-! DEFINITION. Interruption of teams: pre-emption (R55, R356), the drain before a save (R357, R312), the save area and its records
(R360 to R363), swap and restore (R355, R359). -/

namespace Sys2Proof.Machine

/-! ### PREEMPT_REQUEST (R356, R143 line 1) -/

/-- A pack is discarded: its threads stand READY at the same block, as if it had not been formed; a rally round opens anew. -/
def Team.discard (t : Team) (cycle : Nat) (p : Pack) : Team :=
  p.lanes.foldl (fun (a : Team) c =>
    let x := a.thread c.2.tid
    ((a.setThread c.2.tid { x with st := .ready }).addToBin c.2.tid p.block).onBinOf c.2.tid fun b => b.openRound (c.2.tid / 32) cycle) t

/-- A pack in flight leaves without effect. -/
def State.discardPack (s : State) (p : Pack) : State :=
  let s1 : State := { s with flight := s.flight.filter (·.id != p.id) }
  s1.onTeam p.team fun t => t.discard s.cycle p

/-- Each pack in flight of a stopped team is resolved, if the device chooses so, it has issued its last word, no pack of a higher pipe
has resolved in the cycle (R163, R175, R187, R197) and nothing holds it (R121, R261, R297, R326), or discarded. -/
def State.settlePacks (s : State) (resolve : List Nat) : List Pack → State
  | [] => s
  | p :: r =>
    match s.team? p.team with
    | none => s
    | some t =>
      let s1 := if p.ended && resolve.contains p.id && servedBefore (s.mast p.mast).seq.resolved s.cycle (p.pipe + 1) && s.cursorServes t p then
          let (a, done) := s.tryResolve (s.onSeq p.mast fun q => { q with resolved := some (s.cycle, p.pipe) }) t p
          if done then a else a.discardPack p
        else s.discardPack p
      s1.settlePacks resolve r

/-- PREEMPT_REQUEST: no pack of the team is formed any more, and its packs in flight are discarded or resolved. -/
def execPreemptRequest (team : Nat) (resolve : List Nat) (s : State) : Host.Outcome State Fault Refusal :=
  match s.team? team with
  | none => .next s
  | some t =>
    if t.running then
      let s1 := (s.freeRecord t).onTeam team fun u => { u with place := .stopping }
      .next (s1.settlePacks resolve ((s1.flight.filter (·.team == team)).mergeSort fun a b => a.pipe ≤ b.pipe))
    else .next s

/-! ### The drain before a save (R357) -/

/-- Every SMMA of a team takes the array, after those that were performed before it on the mast (R295). -/
def State.drainSmma (s : State) (mast team : Nat) : State :=
  let ma := s.mast mast
  let rest := (ma.smmaq.reverse.takeWhile (·.team != team)).reverse
  (ma.smmaq.take (ma.smmaq.length - rest.length)).foldl State.landSmma (s.setMast { ma with smmaq := rest })

/-- An operation other than a resolve that a thread of the team awaits completes. -/
def State.finishOp (s : State) (id : Nat) : State :=
  match s.running.find? fun r => r.id == id with
  | some (.resolve ..) => s
  | some (.hinv _ ctx slot _) => (s.hinvAll ctx slot).endRunning id
  | some (.flush _ team) => (s.runFlush team []).endRunning id
  | some (.acqr ..) => s.endRunning id
  | none => s

/-- The operations that a team's threads await. -/
def Team.awaited (t : Team) : List Nat := t.threads.flatMap fun x => x.waits.filterMap fun w => match w with
  | .op id => some id
  | _ => none

/-- The MX operations of a team that precede a committed ACCRD or ACCWR of their tile are completed (R274). -/
def State.completeBefore (s : State) (t : Team) : State :=
  s.completeAllMx t.mast ((s.mast t.mast).mxq.filter fun o =>
    o.team == t.id && t.accOps.any fun a => a.tile == o.tile && decide (o.id < a.id))

/-- Every result of a team lands. -/
def Team.landAll (t : Team) (cycle : Nat) : Team :=
  (List.range t.threads.length).foldl (fun (a : Team) i =>
    (List.range (a.thread i).out.length).foldl (fun (b : Team) _ => b.land cycle i 0) a) t

/-- The committed work of a team drains. -/
def State.drainForSave (s : State) (t : Team) : State :=
  let s1 := (s.completeCopies (s.asyncs.filter (·.team == t.id))).performJobs t.mast (·.team == t.id)
  let s2 := (s1.drainSmma t.mast t.id).completeBefore t
  let s3 := t.awaited.foldl (fun (a : State) id => a.finishOp id)
    (s2.finishResolves (s2.launchD t.launch).ctx t.id s2.running.length)
  let s4 := s3.onTeam t.id fun u => u.landAll s.cycle
  if (s4.launchD t.launch).det then s4
  else match s4.team? t.id with
    | some u => s4.flushTeam u
    | none => s4

/-! ### The save area (R360, R361) -/

/-- The most that a record of a shape needs (R363). -/
def Shape.recordBound (x : Shape) : Nat :=
  let w := (x.tsize + 31) / 32
  1024 + 64 * x.tsize + w * (64 + 136 * x.vregs) + x.deck + x.plane + (x.deck + x.plane) / 128 + 32832 * x.tiles + 5120 + 16384 + 448

/-- The records of a context that are not free: offset, directory entry and extent. -/
def State.records (s : State) (c : Nat) : List (Nat × Nat × Nat) :=
  (s.teams.filter (s.ofCtx c)).filterMap fun t => match t.place with
    | .saved o e | .restored o e => some (o, e, t.shape.recordBound)
    | _ => none

/-- Alignment of records, and bytes of the directory. -/
def recordAlign : Nat := 65536
/-- Entries of the directory. -/
def directoryEntries : Nat := 4096

/-- A free offset and a free directory entry for a record. -/
def State.recordRoom (s : State) (c size need : Nat) : Option (Nat × Nat) :=
  let used := s.records c
  let free := fun (o : Nat) => o + need ≤ size && used.all fun u => o + need ≤ u.1 || u.1 + u.2.2 ≤ o
  match ((List.range (size / recordAlign)).drop 1).find? fun k => free (k * recordAlign),
      (List.range directoryEntries).find? fun e => used.all fun u => u.2.1 != e with
  | some k, some e => some (k * recordAlign, e)
  | _, _ => none

/-! ### TEAM_SAVE, TEAM_SWAP -/

/-- Every byte of a sector that holds a poisoned one, as a restore poisons them (R363). -/
def wholeSectors (l : List Nat) : List Nat := sortedSet (l.flatMap fun o => (List.range 32).map fun i => o / 32 * 32 + i)

/-- The team as it waits in the save area: pauses as the cycles that remain, MX operations with all their passes to do. -/
def Team.away (t : Team) (cycle off entry : Nat) (mx : List MxOp) : Team :=
  let wait := fun (w : Wait) => match w with
    | .pause u => Wait.pause (u - cycle)
    | y => y
  let fullPasses := fun (o : MxOp) =>
    { o with passes := if !o.zero && mxValid t.shape o.params && mxCtrl o.params % 4 != 2 then mxField o.params 8 2 else 0 }
  { t with
    place := .saved off entry, bins := [], overflow := [], mxSaved := mx.map fullPasses
    deckPoison := wholeSectors t.deckPoison, planePoison := wholeSectors t.planePoison
    threads := t.threads.map fun x => { x with waits := x.waits.map wait } }

/-- A team is saved: its work drains, its record and directory entry are written, its place is free; without room its launch ends.
The MX operations that it has not completed are abandoned: they leave the queue and the arrays (R312), and its place in the mast's round is not saved (R151). -/
def State.saveTeam (s : State) (t : Team) : State :=
  let s1 := s.drainForSave t
  match s1.team? t.id with
  | none => s1
  | some u =>
    let l := s1.launchD u.launch
    match (s1.ctxD l.ctx).saveArea.bind fun a => (s1.recordRoom l.ctx a.2 u.shape.recordBound).map fun r => (a.1, r) with
    | none => s1.launchFault l eLIMIT 0 [0, 0, 0, 0]
    | some (base, off, entry) =>
      let m := s1.mast u.mast
      let mine := m.mxq.filter (·.team == u.id)
      let v := u.away s1.cycle off entry (mine ++ u.mxSaved)
      let index := ((s1.packet? l.packet).map (·.index)).getD 0
      let m1 := { m with
        seq := { m.seq with teams := m.seq.teams.filter (·.1 != u.id) }
        mxq := m.mxq.filter (·.team != u.id), sjobs := m.sjobs.filter (·.team != u.id)
        arrays := m.arrays.filter fun a => !mine.any (·.id == a.2.1) }
      let s2 := ((s1.setMast m1).setTeam v).enterSaved u.mast
      let s3 := s2.writeBytes (agentOf 16) ⟨base + off, false, none⟩ (v.record l.det)
      let s4 := s3.writePhys (base + 16 * entry) (natLE off 6 ++ natLE l.queue 2 ++ le4 index.toNat ++ le4 v.num)
      s4.dropPins l.ctx u.mast

/-- TEAM_SAVE: a team that a pre-emption has stopped is saved once none of its packs is in flight (R357). -/
def execTeamSave (team : Nat) (s : State) : Host.Outcome State Fault Refusal :=
  match s.team? team with
  | none => .next s
  | some t =>
    if t.place = .stopping ∧ !(s.flight.any (·.team == team)) then .next { s.saveTeam t with free := s.free + 1 } else .next s

/-- Some other team waits for room on a mast (R355). -/
def State.waitsFor (s : State) (m : Nat) : Bool :=
  (s.launches.any fun l => (s.waitMasts l).contains m && match l.draw with
    | none => !l.admitted
    | some d => d.nextTeam < d.groups || !d.pixTeams.isEmpty || d.meshes.any fun r => r.mast == m) ||
  s.teams.any fun t => t.wantsRoom && (s.launchMasts (s.launchD t.launch)).contains m

/-- TEAM_SWAP: a parked team is saved when another team waits for room on its mast. -/
def execTeamSwap (team : Nat) (s : State) : Host.Outcome State Fault Refusal :=
  match s.team? team with
  | none => .next s
  | some t =>
    if t.running && t.parked && s.waitsFor t.mast && !(s.flight.any (·.team == team)) then
      let s1 := (s.freeRecord t).onTeam team fun u => { u with place := .stopping }
      .next { s1.saveTeam { t with place := .stopping } with free := s.free + 1 }
    else .next s

/-! ### TEAM_RESTORE (R355, R359) -/

/-- TEAM_RESTORE: a saved team that waits for admission is placed on the least-loaded mast that can take it, once what comes before its
launch in the order of R119 and fits has been placed (R355; log entry 66). -/
def execTeamRestore (team : Nat) (s : State) : Host.Outcome State Fault Refusal :=
  match s.team? team with
  | none => .next s
  | some t =>
    if t.wantsRoom then
      let s1 := s.admitBefore (s.launchD t.launch)
      match s1.leastLoaded 1 (s1.restoreMasts t s1.bars) with
      | m :: _ => .next (s1.restoreTeam t m)
      | [] => .next s
    else .next s

end Sys2Proof.Machine
end

