-- ==== Sys2Proof/Machine/Misc.lean ====
section
/-! DEFINITION. The outside of the device and its supply: the host window (R252, R246), peer ports (R253), the power arbiter (R128),
soft errors (R364, R365). -/

namespace Sys2Proof.Machine

/-! ### Host and peers -/

/-- Bytes at physical addresses in the root view, stored form, with poison. -/
def State.windowBytes (s : State) (pa n : Nat) : List (Byte × Bool) := (List.range n).map fun i => s.rootByte ⟨pa + i, false, none⟩

/-- Write bytes at physical addresses that a test admits, as an agent that is no mast. -/
def State.windowWrite (s : State) (ok : Nat → Bool) (pa : Nat) : List Byte → State
  | [] => s
  | b :: r => (if ok pa then s.writeByte (agentOf 16) ⟨pa, false, none⟩ b else s).windowWrite ok (pa + 1) r

/-- The host's own accesses to its memory go past the device's L2 copies. -/
def State.hostStore (s : State) (pa : Nat) : List Byte → State
  | [] => s
  | b :: r =>
    let s1 : State := if isHost pa then { s with mem := memPut pa b s.mem, poison := s.poison.filter (· != pa) } else s
    s1.hostStore (pa + 1) r

/-- HOST_WINDOW_ACCESS (R252, R88): from AWAIT_IMAGE on, the host reads or writes local HBM at its home; an address of host memory
is the host's access to its own memory (log entry 27). -/
def execHostWindowAccess (write : Bool) (addr len : Nat) (data : List Byte) (s : State) : Host.Outcome State Fault Refusal :=
  if isHost addr then
    .next (if write then s.hostStore addr data
      else { s with hostData := (List.range len).map fun i => (memGet s.mem (addr + i), false) })
  else if s.start.st = .reset then .next s
  else if write then .next (s.windowWrite isHbm addr data)
  else .next { s with hostData := (s.windowBytes addr len).map fun b => if b.2 then (0, true) else b }

/-- A port's link is up or down. -/
def State.setLink (s : State) (port : Nat) (up : Bool) : State :=
  let p := (s.peers.find? (·.port == port)).getD ⟨port, true, [], []⟩
  { s with peers := putBy (·.port == port) { p with up := up } s.peers }

/-- The bytes that a peer reads: outside local HBM poison. -/
def State.peerReads (s : State) (addr n : Nat) : List (Byte × Bool) :=
  (List.range n).map fun i => if isHbm (addr + i) then s.rootByte ⟨addr + i, false, none⟩ else (0, true)

/-- An atomic of a peer at this owner's home slice (R253, R324): the old bytes go back; outside local HBM they are poison and nothing is
written. `data` holds its operand, then for a compare the new value. -/
def State.peerAtomic (s : State) (op ty addr : Nat) (data : List Byte) : State :=
  let n := if ty = 2 then 8 else 4
  let bs := s.peerReads addr n
  let bad := bs.any (·.2)
  let s1 := match atomNew op ty (leNat (bs.map (·.1))) (leNat (data.take n)) (leNat ((data.drop n).take n)) with
    | some x =>
      if (List.range n).all fun i => isHbm (addr + i) then
        s.writeBytes (agentOf 16) ⟨addr, false, none⟩ ((natLE x n).map fun b => (b, bad && op != 6))
      else s
    | none => s
  { s1 with hostData := bs }

/-- Peer ports (R11, R253). -/
def peerPorts : Nat := 12
/-- PEER_ACCESS (R253): an access that arrives through a port is performed at the home slice; outside local HBM it reads poison and
its writes are discarded. A port that carries an access is up. -/
def execPeerAccess (op : PeerOp) (port addr len : Nat) (data : List Byte) (s : State) : Host.Outcome State Fault Refusal :=
  if peerPorts ≤ port then .next s
  else
    let s1 := s.setLink port true
    match op with
    | .write => .next (s1.windowWrite isHbm addr data)
    | .read => .next { s1 with hostData := s1.peerReads addr len }
    | .atomic k ty => .next (s1.peerAtomic k ty addr data)

/-- PEER_TIMEOUT (R253): the port's link is down, and an access through it delivers poison or is discarded. -/
def execPeerTimeout (port : Nat) (s : State) : Host.Outcome State Fault Refusal :=
  if peerPorts ≤ port then .next s else .next (s.setLink port false)

/-! ### POWER_SAMPLE (R128) -/

/-- The module's budget in watts, and the range and step of the arithmetic clock in MHz. -/
def moduleBudget : Nat := 1500
def clockTop : Nat := 1000
def clockLow : Nat := 500
def clockStep : Nat := 50

/-- Contexts that are held back, with the power measured of each: those over their cap, and those held back before that have not
fallen below it. A context that this sample does not measure stands as it stood. -/
def State.heldBack (s : State) (watts : List (Nat × Nat)) : List (Nat × Nat) :=
  s.ctxs.filterMap fun c => match alGet c.num watts with
    | some w => if c.powerCap < w ∨ ((alGet c.num s.throttled).isSome ∧ c.powerCap ≤ w) then some (c.num, w) else none
    | none => (alGet c.num s.throttled).map fun w => (c.num, w)
/-- Whether some context that is held back is over its cap. -/
def State.overCap (s : State) (held : List (Nat × Nat)) : Bool := held.any fun x => decide ((s.ctxD x.1).powerCap < x.2)

/-- POWER_SAMPLE: contexts over their cap are held back; a module over its budget with none over its cap slows the clock by a step,
and one below it restores the clock. -/
def execPowerSample (module : Nat) (watts : List (Nat × Nat)) (s : State) : Host.Outcome State Fault Refusal :=
  let t := s.heldBack watts
  let mhz := if moduleBudget < module then (if s.overCap t then s.clockMHz else max clockLow (s.clockMHz - clockStep))
    else if module < moduleBudget then clockTop else s.clockMHz
  .next { s with throttled := t, clockMHz := mhz }

/-! ### Soft errors (R364, R365) -/

/-- A counter that saturates. -/
def satInc (x : Word) : Word := if x = 0xFFFFFFFF then x else x + 1

/-- ECC_CORRECTED: counted; no value changes. -/
def execEccCorrected (s : State) : Host.Outcome State Fault Refusal := .next { s with ceCount := satInc s.ceCount }

/-- Poison the register copies that a word of the live-value store holds: every lane's of the warp for a uniform or affine register. -/
def State.poisonReg (s : State) (team tid reg : Nat) : State :=
  match s.team? team with
  | none => s
  | some t =>
    let hit := fun (i : Nat) => if t.tag (tid / 32) reg = .general then i == tid else i / 32 == tid / 32
    let mark := fun (l : List Nat) => if reg < t.shape.vregs then nsInsert reg l else l
    let ths := t.threads.mapIdx fun i x => if hit i then { x with poison := mark x.poison } else x
    let fl := s.flight.map fun p => if p.team = team then p.mapLanes (fun _ ln => if hit ln.tid then { ln with poison := mark ln.poison } else ln) else p
    ({ s with flight := fl } : State).setTeam { t with threads := ths }

/-- The 32 bytes of a sector. -/
def sectorOf (x : Nat) : List Nat := (List.range 32).map fun i => x / 32 * 32 + i
/-- Poison a sector of memory. -/
def State.poisonSector (s : State) (pa : Nat) : State := { s with poison := (sectorOf pa).foldl (fun l a => nsInsert a l) s.poison }

/-- A sector of a dirty L2 line of host memory is stored poisoned: all 32 bytes, which go to host memory with the line. -/
def State.poisonHostSector (s : State) (pa : Nat) : State :=
  if s.hostCache.any fun h => h.dirty && h.addr / 128 == pa / 128 then
    (sectorOf pa).foldl (fun (a : State) x => a.homeWrite x (a.homeByte x).1 true) s
  else s
/-- A sector of a version is stored poisoned: all 32 bytes, those too that the version has not written (log entry 67), with the values
that a reader under its ID finds. -/
def State.poisonVersion (s : State) (c : Ctx) (v : Version) (sector : Nat) : State :=
  let o := 32 * (sector % 2)
  if v.cells.any fun x => x.1 / 32 == sector % 2 then
    s.setCtx ((List.range 32).foldl (fun (a : Ctx) i =>
      let l : Loc := ⟨64 * v.block + o + i, v.comp, none⟩
      a.putVersion v.tag l (s.viewByte c v.tag l).1 true) c)
  else s

/-- What an uncorrectable error does to the storage that holds it (R364). -/
def State.softError (s : State) (k : Storage) : State :=
  match k with
  | .liveValue team tid reg => s.poisonReg team tid reg
  | .l1Line mast ctx view sector =>
    s.onMast (some mast) fun m => { m with l1 := m.l1.filter fun x => !(x.ctx == ctx && x.view == view && x.sector / 4 == sector / 4) }
  | .icacheLine mast ctx line =>
    s.onMast (some mast) fun m => { m with icache := m.icache.filter fun x => !(x.ctx == ctx && x.line == line) }
  | .samplerLine mast ctx slot =>
    s.onMast (some mast) fun m => { m with slines := m.slines.filter fun x => !(x.ctx == ctx && x.slot == slot) }
  | .tlbEntry ctx page =>
    s.tlbDrop fun t => t.ctx == ctx && t.va ≤ 4096 * page && 4096 * page < t.va + t.bytes
  | .l2Clean pa =>
    let keep := fun (h : HostByte) => h.dirty || h.addr / 128 != pa / 128
    { s with hostCache := s.hostCache.filter keep }
  | .l2Dirty pa => if isHost pa then s.poisonHostSector pa else s.poisonSector pa
  | .l2Version ctx tag block sector =>
    match s.ctx? ctx with
    | none => s
    | some c =>
      match c.versions.find? fun v => v.tag == tag && v.block == block with
      | none => s
      | some v => s.poisonVersion c v sector
  | .deckSector team off =>
    s.onTeam team fun t =>
      if off < t.shape.deck then { t with deckPoison := (sectorOf off).foldl (fun l o => nsInsert o l) t.deckPoison } else t
  | .planeSector team off =>
    s.onTeam team fun t =>
      if off < t.shape.plane then { t with planePoison := (sectorOf off).foldl (fun l o => nsInsert o l) t.planePoison } else t
  | .accumElem team tile elem =>
    s.onTeam team fun t =>
      if tile < t.shape.tiles ∧ elem < 4096 then
        let x := t.tile tile
        t.setTile tile { x with poison := nsInsert elem x.poison }
      else t
  | .hbm pa => if isHbm pa then { s.poisonSector pa with ueAddr := BitVec.ofNat 64 pa } else s
  | .contextSram ctx => s.endLaunches eFAULT (s.launches.filter (·.ctx == ctx))

/-- ECC_UNCORRECTABLE: counted, with the effect of R364. -/
def execEccUncorrectable (at_ : Storage) (s : State) : Host.Outcome State Fault Refusal :=
  .next { s.softError at_ with ueCount := satInc s.ueCount }

end Sys2Proof.Machine
end

