-- ==== Sys2Proof/Machine/Rally.lean ====
section
/-! DEFINITION. Rally blocks, rejoin masks and named barriers as their instructions record them (R186 to R189). The operations
take effect at commit. -/

namespace Sys2Proof.Machine

/-- RALLY mN, t (R186): what it does, it does when the pack is formed; executed, it has no effect. -/
def execRally (h : Hdr) (_m : BitVec 3) (_t : BitVec 7) : State → Host.Outcome State Fault Refusal :=
  lanewise ⟨h.stop, 0⟩ [] [] fun _ ln => ln

/-- A mask as the thread sees it in its block (R187). -/
def Lane.mask (ln : Lane) (m : Nat) : Word := alGetD ln.masks m 0
/-- The thread's own operation on a mask (R187): seen by its later MGETs, performed at commit. -/
def Lane.maskOp (ln : Lane) (word m : Nat) (x : Word) (op : MemOp) : Lane :=
  { ln with masks := alPut m x ln.masks }.record word op

/-- MJOIN mN (R187). -/
def execMjoin (h : Hdr) (m : BitVec 3) : State → Host.Outcome State Fault Refusal :=
  lanewise h [] [] fun e ln =>
    ln.maskOp e.p.pc m.toNat (ln.mask m.toNat ||| BitVec.twoPow 32 (ln.tid % 32)) (.maskJoin m.toNat)

/-- MCLR mN (R187). -/
def execMclr (h : Hdr) (m : BitVec 3) : State → Host.Outcome State Fault Refusal :=
  lanewise h [] [] fun e ln =>
    ln.maskOp e.p.pc m.toNat (ln.mask m.toNat &&& ~~~BitVec.twoPow 32 (ln.tid % 32)) (.maskClear m.toNat)

/-- MSET mN, a (R187). -/
def execMset (h : Hdr) (m : BitVec 3) (a : Reg) : State → Host.Outcome State Fault Refusal :=
  lanewise h [(a, 1)] [] fun e ln => ln.maskOp e.p.pc m.toNat (e.rd ln a) (.maskSet m.toNat (e.rd ln a))

/-- MGET d, mN (R187). -/
def execMget (h : Hdr) (d : Reg) (m : BitVec 3) : State → Host.Outcome State Fault Refusal :=
  lanewise h [] [(d, 1)] fun _ ln => ln.wr d (ln.mask m.toNat)

/-- Record that the thread awaits a barrier's phase. -/
def Lane.awaitBar (ln : Lane) (n : Nat) : Lane := { ln with barWait := ln.barWait ++ [n] }

/-- BAR n, a, pL (R188). -/
def execBar (g : BitVec 2) (n : BitVec 4) (a : Reg) (pl : BitVec 3) : State → Host.Outcome State Fault Refusal :=
  lanewise ⟨true, g⟩ [(a, 1)] [] fun e ln =>
    (ln.record e.p.pc (.barArrive n.toNat (e.rd ln a).toNat (some pl.toNat))).awaitBar n.toNat

/-- BARARR n, a (R188). -/
def execBararr (h : Hdr) (n : BitVec 4) (a : Reg) : State → Host.Outcome State Fault Refusal :=
  lanewise h [(a, 1)] [] fun e ln => ln.record e.p.pc (.barArrive n.toNat (e.rd ln a).toNat none)

/-- BARWT n (R188). -/
def execBarwt (g : BitVec 2) (n : BitVec 4) : State → Host.Outcome State Fault Refusal :=
  lanewise ⟨true, g⟩ [] [] fun _ ln => ln.awaitBar n.toNat

end Sys2Proof.Machine
end

