-- ==== Sys2Proof/Machine/SampIns.lean ====
section
/-! DEFINITION. Sampling instructions as they are recorded (R282, R287, R288, R291) and SMMA (R292 to R294). -/

namespace Sys2Proof.Machine

/-- A register of a quad neighbour, when its lane is in the pack, whatever its guard (R282). -/
def Env.quadVal (e : Env) (a : Reg) (l : Nat) : Option Nat := (e.p.lane? l).map fun ln => (e.rd ln a).toNat
/-- A difference of F32 values by RNE, +0 when a lane is not in the pack (R282). -/
def quadDiff : Option Nat → Option Nat → Nat
  | some x, some y => (fpSub f32 RNE x y).1
  | _, _ => 0
/-- The derivatives of SAMPLE (R282): dudx, dvdx, dudy, dvdy; zeros outside pixel teams. -/
def Env.derivs (e : Env) (a : Reg) (l : Nat) : List Word :=
  if e.t.stage ≠ .pixel then [0, 0, 0, 0]
  else
    let row := l / 2 * 2
    let col := l / 4 * 4 + l % 2
    let d := fun r i j => BitVec.ofNat 32 (quadDiff (e.quadVal r i) (e.quadVal r j))
    [d a (row + 1) row, d (a + 1) (row + 1) row, d a (col + 2) col, d (a + 1) (col + 2) col]

/-- SAMPLE d, a, h (R287). -/
def execSample (h : Hdr) (d a : Reg) (slot : BitVec 7) : State → Host.Outcome State Fault Refusal :=
  lanewise h [(a, 4)] [(d, 4)] fun e ln =>
    ln.record e.p.pc (.sample 0 slot.toNat (e.rdGroup ln a 4) (e.derivs a (ln.tid % 32)) d)

/-- SAMPLEG d, a, h (R287): a + 4 dudx, a + 5 dvdx, a + 6 dudy, a + 7 dvdy. -/
def execSampleg (h : Hdr) (d a : Reg) (slot : BitVec 7) : State → Host.Outcome State Fault Refusal :=
  lanewise h [(a, 8)] [(d, 4)] fun e ln =>
    ln.record e.p.pc (.sample 1 slot.toNat (e.rdGroup ln a 4) (e.rdGroup ln (a + 4) 4) d)

/-- SLOAD d, a, h (R287). A mark on a + 3, whose value is ignored, counts as consumed (DESIGN CHOICE, log entry 101). -/
def execSload (h : Hdr) (d a : Reg) (slot : BitVec 7) : State → Host.Outcome State Fault Refusal :=
  lanewise h [(a, 4)] [(d, 4)] fun e ln => ln.record e.p.pc (.sample 2 slot.toNat (e.rdGroup ln a 4) [] d)

/-- HINV h (R288). -/
def execHinv (h : Hdr) (slot : BitVec 7) : State → Host.Outcome State Fault Refusal :=
  lanewise h [] [] fun e ln => ln.record e.p.pc (.hinv slot.toNat)

/-- WPIN h (R291). -/
def execWpin (h : Hdr) (slot : BitVec 7) : State → Host.Outcome State Fault Refusal :=
  lanewise h [] [] fun e ln => ln.record e.p.pc (.wpin slot.toNat)

/-- WUNPIN h (R291). -/
def execWunpin (h : Hdr) (slot : BitVec 7) : State → Host.Outcome State Fault Refusal :=
  lanewise h [] [] fun e ln => ln.record e.p.pc (.wunpin slot.toNat)

/-- The 512 bytes of an SMMA area (R293): four registers of each lane, zeros for a lane that is not present and active. -/
def Env.smmaArea (e : Env) (g : BitVec 2) (r : Reg) : List Byte :=
  (List.range 32).flatMap fun l => match alGet l (e.active g) with
    | some ln => (e.rdGroup ln r 4).flatMap fun w => natLE w.toNat 4
    | none => List.replicate 16 0
/-- The accumulators of an SMMA, row by row (R293): 0 for a lane that is not present and active (DESIGN CHOICE, log entry 95). -/
def Env.smmaAcc (e : Env) (g : BitVec 2) (d : Reg) : List Nat :=
  (List.range 32).flatMap fun l => match alGet l (e.active g) with
    | some ln => (e.rdGroup ln d 8).map (·.toNat)
    | none => List.replicate 8 0

/-- SMMA d, a, f (R292 to R294): operands are read at the instruction, the results land after commit. -/
def execSmma (h : Hdr) (d a f : Reg) (s : State) : Host.Outcome State Fault Refusal :=
  onIssue s h.stop fun s t p =>
    let e : Env := ⟨s, t, p⟩
    let fs := (e.active h.guard).map fun c => (e.rd c.2 f).toNat
    let same := fs.all (· == fs.headD 0)
    let fw := fs.headD 0
    let rs := if same && smmaFmtOk fw && !fs.isEmpty
      then smmaOf fw (e.smmaArea h.guard a) (e.smmaArea h.guard (a + 4)) (e.smmaAcc h.guard d) else []
    let fl := rs.foldl (fun x r => x ||| r.2) fNone
    (s, p.mapLanes fun l ln => e.onLane h.guard [(a, 8), (d, 8), (f, 1)] [] (fun x =>
      if !same then x.raise e.p.pc cDIVERGE
      else if !smmaFmtOk fw then x.raise e.p.pc cOPERAND
      else (x.record e.p.pc (.smma d (((rs.drop (8 * l)).take 8).map fun r => BitVec.ofNat 32 r.1))).orFlags fl) ln)

end Sys2Proof.Machine
end

