-- ==== Sys2Proof/Machine/SparIns.lean ====
section
/-! DEFINITION. MX.ISSUE and MX.ZERO as they are recorded (R302 to R304): only the executing thread of the pack acts. -/

namespace Sys2Proof.Machine

/-- A single-issue instruction (R302): the range check for every thread (R168), the effect for the lowest lane whose guard is
true; the other threads neither read nor trap. -/
def singleIssue (h : Hdr) (src : Names) (f : Env → Lane → Lane) (s : State) : Host.Outcome State Fault Refusal :=
  onIssue s h.stop fun s t p =>
    let e : Env := ⟨s, t, p⟩
    let low := ((e.active h.guard).head?).map (·.1)
    (s, p.mapLanes fun l ln =>
      if rangeBad t.shape.vregs ln.wb src then ln.raise p.pc cRANGE
      else if low = some l then f e (if ln.srcPoison src then ln.notePoison p.pc else ln)
      else ln)

/-- MX.ISSUE a (R303). -/
def execMxIssue (h : Hdr) (a : Reg) : State → Host.Outcome State Fault Refusal :=
  singleIssue h [(a, 1)] fun e ln =>
    let o := (e.rd ln a).toNat
    if o % 64 ≠ 0 then ln.raise e.p.pc cOPERAND
    else if e.t.shape.deck < o + 64 then ln.raise e.p.pc cSPACE
    else ln.record e.p.pc (.mxIssue o)

/-- MX.ZERO t, k (R304). -/
def execMxZero (h : Hdr) (t : BitVec 4) (k : BitVec 2) : State → Host.Outcome State Fault Refusal :=
  singleIssue h [] fun e ln =>
    if e.t.shape.tiles ≤ t.toNat then ln.raise e.p.pc cSPACE else ln.record e.p.pc (.mxZero t.toNat k.toNat)

end Sys2Proof.Machine
end

