-- ==== Sys2Proof/Machine/Work.lean ====
section
/-! DEFINITION. Work, window, pause, shape and random-number instructions (R197 to R201, R229). -/

namespace Sys2Proof.Machine

/-- TILEF d, pX (R197): the team's answer of the thread's count is written at commit; within the block d keeps its value. -/
def execTilef (h : Hdr) (d : Reg) (px : BitVec 3) : State → Host.Outcome State Fault Refusal :=
  lanewise h [] [(d, 1)] fun e ln => { ln with tilef := ln.tilef + 1 }.record e.p.pc (.tilef d px.toNat ln.tilef)

/-- WIN n (R199): WB at commit. -/
def execWin (h : Hdr) (n : BitVec 4) : State → Host.Outcome State Fault Refusal :=
  lanewise h [] [] fun _ ln => { ln with win := some (16 * n.toNat) }

/-- PAUSE n (R200): the wait begins at commit; 0 imposes none. -/
def execPause (g : BitVec 2) (n : BitVec 7) : State → Host.Outcome State Fault Refusal :=
  lanewise ⟨true, g⟩ [] [] fun _ ln => if n = 0 then ln else { ln with pause := some (16 * n.toNat) }

/-- SHAPE d, a (R201): the tag's code as it stands; a is a name, not a value, so no mark is consumed. -/
def execShape (h : Hdr) (d : Reg) (a : BitVec 7) : State → Host.Outcome State Fault Refusal :=
  lanewise h [] [(d, 1), (a, 1)] fun e ln =>
    ln.wr d (BitVec.ofNat 32 (e.t.tag (ln.tid / 32) (ln.wb + a.toNat)).code)

/-- RNG.LO d, a, b (R229). -/
def execRngLo (h : Hdr) (d a b : Reg) : State → Host.Outcome State Fault Refusal :=
  lanewise h [(a, 2), (b, 2)] [(d, 1)] fun e ln => ln.wr d (loW (fjopomo (e.rdPair ln a) (e.rdPair ln b)))

/-- RNG.HI d, a, b (R229). -/
def execRngHi (h : Hdr) (d a b : Reg) : State → Host.Outcome State Fault Refusal :=
  lanewise h [(a, 2), (b, 2)] [(d, 1)] fun e ln => ln.wr d (hiW (fjopomo (e.rdPair ln a) (e.rdPair ln b)))

/-- The global thread number (R170). -/
def Env.gtn (e : Env) (tid : Nat) : Nat := (e.t.num * e.t.shape.tsize + tid) % 2 ^ 32
/-- The seed of a team's streams (R84): FRAME_SEED with the stage in the high word for a graphics team. -/
def Env.streamSeed (e : Env) : Dword :=
  if e.t.stage = .compute then e.launch.seed
  else ((e.launch.draw.map (·.seed)).getD 0) ^^^ BitVec.ofNat 64 (stageCode e.t.stage * 2 ^ 32)
/-- One draw of a thread's stream (R84). -/
def Env.rngsDraw (e : Env) (ln : Lane) : Dword :=
  fjopomo (pairOf (BitVec.ofNat 32 (e.gtn ln.tid)) (hiW e.streamSeed)) (pairOf ln.rngs 0)

/-- RNGS.LO d (R229). -/
def execRngsLo (h : Hdr) (d : Reg) : State → Host.Outcome State Fault Refusal :=
  lanewise h [] [(d, 1)] fun e ln => (ln.wr d (loW (e.rngsDraw ln))).drawRng

/-- RNGS.HI d (R229). -/
def execRngsHi (h : Hdr) (d : Reg) : State → Host.Outcome State Fault Refusal :=
  lanewise h [] [(d, 1)] fun e ln => (ln.wr d (hiW (e.rngsDraw ln))).drawRng

end Sys2Proof.Machine
end

