-- ==== Sys2Proof/Machine/Dispatch.lean ====
section
/-! DEFINITION. One step of the Taloft 3 by its kind: one arm for each row of the opcode table. -/

namespace Sys2Proof.Machine

def exec (i : Instr) (s : State) : Host.Outcome State Fault Refusal :=
  match i with
  | .moduleReset => Sys2Proof.Machine.execModuleReset s
  | .selfTestDone => Sys2Proof.Machine.execSelfTestDone s
  | .imageLen v => Sys2Proof.Machine.execImageLen v s
  | .verifyDone => Sys2Proof.Machine.execVerifyDone s
  | .startGo v => Sys2Proof.Machine.execStartGo v s
  | .contextCreate lo => Sys2Proof.Machine.execContextCreate lo s
  | .contextDestroy lo => Sys2Proof.Machine.execContextDestroy lo s
  | .contextDestroyComplete => Sys2Proof.Machine.execContextDestroyComplete s
  | .queueCreate lo => Sys2Proof.Machine.execQueueCreate lo s
  | .queueDestroy lo => Sys2Proof.Machine.execQueueDestroy lo s
  | .queueResume lo => Sys2Proof.Machine.execQueueResume lo s
  | .setFloors lo => Sys2Proof.Machine.execSetFloors lo s
  | .attest lo => Sys2Proof.Machine.execAttest lo s
  | .setSaveArea lo => Sys2Proof.Machine.execSetSaveArea lo s
  | .wake q v => Sys2Proof.Machine.execWake q v s
  | .hoGoToHost q v => Sys2Proof.Machine.execHoGoToHost q v s
  | .hoGoToDevice q v => Sys2Proof.Machine.execHoGoToDevice q v s
  | .handoverComplete id => Sys2Proof.Machine.execHandoverComplete id s
  | .tlbiGo v => Sys2Proof.Machine.execTlbiGo v s
  | .tlbiAll v => Sys2Proof.Machine.execTlbiAll v s
  | .tlbiComplete => Sys2Proof.Machine.execTlbiComplete s
  | .learn v => Sys2Proof.Machine.execLearn v s
  | .learnComplete => Sys2Proof.Machine.execLearnComplete s
  | .load v => Sys2Proof.Machine.execLoad v s
  | .loadComplete => Sys2Proof.Machine.execLoadComplete s
  | .recode v => Sys2Proof.Machine.execRecode v s
  | .recodeComplete => Sys2Proof.Machine.execRecodeComplete s
  | .retry ctx v => Sys2Proof.Machine.execRetry ctx v s
  | .abort ctx v => Sys2Proof.Machine.execAbort ctx v s
  | .registerWrite off v => Sys2Proof.Machine.execRegisterWrite off v s
  | .packetCoreScan q => Sys2Proof.Machine.execPacketCoreScan q s
  | .mappingRound unmap => Sys2Proof.Machine.execMappingRound unmap s
  | .nopPacket p => Sys2Proof.Machine.execNopPacket p s
  | .dispatch p => Sys2Proof.Machine.execDispatch p s
  | .draw p => Sys2Proof.Machine.execDraw p s
  | .copyLinear p => Sys2Proof.Machine.execCopyLinear p s
  | .copyFill p => Sys2Proof.Machine.execCopyFill p s
  | .copyTwoD p => Sys2Proof.Machine.execCopyTwoD p s
  | .copyEngineDone p done => Sys2Proof.Machine.execCopyEngineDone p done s
  | .signalPacketWrite p => Sys2Proof.Machine.execSignalPacketWrite p s
  | .signalPacketAdd p => Sys2Proof.Machine.execSignalPacketAdd p s
  | .wait p => Sys2Proof.Machine.execWait p s
  | .waitPoll p => Sys2Proof.Machine.execWaitPoll p s
  | .waitTimeout p => Sys2Proof.Machine.execWaitTimeout p s
  | .handoverToHost p => Sys2Proof.Machine.execHandoverToHost p s
  | .handoverToDevice p => Sys2Proof.Machine.execHandoverToDevice p s
  | .encode p => Sys2Proof.Machine.execEncode p s
  | .hypresConfirm p => Sys2Proof.Machine.execHypresConfirm p s
  | .hypresRefute p => Sys2Proof.Machine.execHypresRefute p s
  | .packetComplete p => Sys2Proof.Machine.execPacketComplete p s
  | .admissionStep => Sys2Proof.Machine.execAdmissionStep s
  | .rasterPixelTeam launch => Sys2Proof.Machine.execRasterPixelTeam launch s
  | .rasterQuadTimeout launch => Sys2Proof.Machine.execRasterQuadTimeout launch s
  | .outputMerge launch => Sys2Proof.Machine.execOutputMerge launch s
  | .encodeFrameEnd engine stream => Sys2Proof.Machine.execEncodeFrameEnd engine stream s
  | .packForm team pipe => Sys2Proof.Machine.execPackForm team pipe s
  | .binGatherExpiry team block => Sys2Proof.Machine.execBinGatherExpiry team block s
  | .binAgeExpiry team block => Sys2Proof.Machine.execBinAgeExpiry team block s
  | .rallyTimeout team block warp => Sys2Proof.Machine.execRallyTimeout team block warp s
  | .icacheFill team block => Sys2Proof.Machine.execIcacheFill team block s
  | .pipeIssue pack losses => Sys2Proof.Machine.execPipeIssue pack losses s
  | .blockResolve pack => Sys2Proof.Machine.execBlockResolve pack s
  | .resultLand team tid k => Sys2Proof.Machine.execResultLand team tid k s
  | .pauseExpiry team tid => Sys2Proof.Machine.execPauseExpiry team tid s
  | .copyComplete id => Sys2Proof.Machine.execCopyComplete id s
  | .mxPassStart mast => Sys2Proof.Machine.execMxPassStart mast s
  | .mxOpComplete mast id => Sys2Proof.Machine.execMxOpComplete mast id s
  | .smmaArrayGrant mast => Sys2Proof.Machine.execSmmaArrayGrant mast s
  | .samplerFillLand mast k => Sys2Proof.Machine.execSamplerFillLand mast k s
  | .hinvComplete id => Sys2Proof.Machine.execHinvComplete id s
  | .atombFlushComplete id order => Sys2Proof.Machine.execAtombFlushComplete id order s
  | .epochClose team => Sys2Proof.Machine.execEpochClose team s
  | .acqrComplete id => Sys2Proof.Machine.execAcqrComplete id s
  | .resolveComplete id => Sys2Proof.Machine.execResolveComplete id s
  | .scrubberStart ctx hyp => Sys2Proof.Machine.execScrubberStart ctx hyp s
  | .scrubBlock ctx k => Sys2Proof.Machine.execScrubBlock ctx k s
  | .l2Replace pa => Sys2Proof.Machine.execL2Replace pa s
  | .hostWindowAccess write addr len data => Sys2Proof.Machine.execHostWindowAccess write addr len data s
  | .peerAccess op port addr len data => Sys2Proof.Machine.execPeerAccess op port addr len data s
  | .peerTimeout port => Sys2Proof.Machine.execPeerTimeout port s
  | .teamRetire team => Sys2Proof.Machine.execTeamRetire team s
  | .launchFinish launch => Sys2Proof.Machine.execLaunchFinish launch s
  | .watchdogExpiry launch => Sys2Proof.Machine.execWatchdogExpiry launch s
  | .powerSample module watts => Sys2Proof.Machine.execPowerSample module watts s
  | .preemptRequest team resolve => Sys2Proof.Machine.execPreemptRequest team resolve s
  | .teamSave team => Sys2Proof.Machine.execTeamSave team s
  | .teamSwap team => Sys2Proof.Machine.execTeamSwap team s
  | .teamRestore team => Sys2Proof.Machine.execTeamRestore team s
  | .eccCorrected => Sys2Proof.Machine.execEccCorrected s
  | .eccUncorrectable at_ => Sys2Proof.Machine.execEccUncorrectable at_ s
  | .nop h => Sys2Proof.Machine.execNop h s
  | .trap h n => Sys2Proof.Machine.execTrap h n s
  | .bkpt h n => Sys2Proof.Machine.execBkpt h n s
  | .ctxr h d n => Sys2Proof.Machine.execCtxr h d n s
  | .ctxw h n a => Sys2Proof.Machine.execCtxw h n a s
  | .clkCyc h d => Sys2Proof.Machine.execClkCyc h d s
  | .clkNs h d => Sys2Proof.Machine.execClkNs h d s
  | .signal h a b => Sys2Proof.Machine.execSignal h a b s
  | .modw rm alt fill nf => Sys2Proof.Machine.execModw rm alt fill nf s
  | .bra p off => Sys2Proof.Machine.execBra p off s
  | .braNot p off => Sys2Proof.Machine.execBraNot p off s
  | .jmp off => Sys2Proof.Machine.execJmp off s
  | .call d a => Sys2Proof.Machine.execCall d a s
  | .jmpi a => Sys2Proof.Machine.execJmpi a s
  | .ret a => Sys2Proof.Machine.execRet a s
  | .exit => Sys2Proof.Machine.execExit s
  | .rally h m t => Sys2Proof.Machine.execRally h m t s
  | .mjoin h m => Sys2Proof.Machine.execMjoin h m s
  | .mclr h m => Sys2Proof.Machine.execMclr h m s
  | .mset h m a => Sys2Proof.Machine.execMset h m a s
  | .mget h d m => Sys2Proof.Machine.execMget h d m s
  | .bar g n a pl => Sys2Proof.Machine.execBar g n a pl s
  | .bararr h n a => Sys2Proof.Machine.execBararr h n a s
  | .barwt g n => Sys2Proof.Machine.execBarwt g n s
  | .vote h kind d p => Sys2Proof.Machine.execVote h kind d p s
  | .red h op ty d a pe => Sys2Proof.Machine.execRed h op ty d a pe s
  | .scan h op ty excl d a => Sys2Proof.Machine.execScan h op ty excl d a s
  | .xlane h kind d a n => Sys2Proof.Machine.execXlane h kind d a n s
  | .perm h d a b => Sys2Proof.Machine.execPerm h d a b s
  | .bcast h d a n => Sys2Proof.Machine.execBcast h d a n s
  | .patld h d a b => Sys2Proof.Machine.execPatld h d a b s
  | .tilef h d px => Sys2Proof.Machine.execTilef h d px s
  | .win h n => Sys2Proof.Machine.execWin h n s
  | .pause g n => Sys2Proof.Machine.execPause g n s
  | .shape h d a => Sys2Proof.Machine.execShape h d a s
  | .rngLo h d a b => Sys2Proof.Machine.execRngLo h d a b s
  | .rngsLo h d => Sys2Proof.Machine.execRngsLo h d s
  | .rngsHi h d => Sys2Proof.Machine.execRngsHi h d s
  | .rngHi h d a b => Sys2Proof.Machine.execRngHi h d a b s
  | .add h d a b => Sys2Proof.Machine.execAdd h d a b s
  | .sub h d a b => Sys2Proof.Machine.execSub h d a b s
  | .mulLo h d a b => Sys2Proof.Machine.execMulLo h d a b s
  | .mulHi h d a b => Sys2Proof.Machine.execMulHi h d a b s
  | .min h d a b => Sys2Proof.Machine.execMin h d a b s
  | .max h d a b => Sys2Proof.Machine.execMax h d a b s
  | .absd h d a b => Sys2Proof.Machine.execAbsd h d a b s
  | .neg h d a => Sys2Proof.Machine.execNeg h d a s
  | .and h d a b => Sys2Proof.Machine.execAnd h d a b s
  | .or h d a b => Sys2Proof.Machine.execOr h d a b s
  | .xor h d a b => Sys2Proof.Machine.execXor h d a b s
  | .andn h d a b => Sys2Proof.Machine.execAndn h d a b s
  | .shl h d a b => Sys2Proof.Machine.execShl h d a b s
  | .shr h d a b => Sys2Proof.Machine.execShr h d a b s
  | .shra h d a b => Sys2Proof.Machine.execShra h d a b s
  | .rot h d a b => Sys2Proof.Machine.execRot h d a b s
  | .bfe h d a b => Sys2Proof.Machine.execBfe h d a b s
  | .bfi h d a b => Sys2Proof.Machine.execBfi h d a b s
  | .popc h d a => Sys2Proof.Machine.execPopc h d a s
  | .clz h d a => Sys2Proof.Machine.execClz h d a s
  | .brev h d a => Sys2Proof.Machine.execBrev h d a s
  | .div h d a b => Sys2Proof.Machine.execDiv h d a b s
  | .rem h d a b => Sys2Proof.Machine.execRem h d a b s
  | .mad h d a b => Sys2Proof.Machine.execMad h d a b s
  | .madh h d a b => Sys2Proof.Machine.execMadh h d a b s
  | .add64 h d a b => Sys2Proof.Machine.execAdd64 h d a b s
  | .sub64 h d a b => Sys2Proof.Machine.execSub64 h d a b s
  | .addc h d a b => Sys2Proof.Machine.execAddc h d a b s
  | .subb h d a b => Sys2Proof.Machine.execSubb h d a b s
  | .icmp h cmp pd pc orr a b => Sys2Proof.Machine.execIcmp h cmp pd pc orr a b s
  | .addi h d a imm => Sys2Proof.Machine.execAddi h d a imm s
  | .andi h d a imm => Sys2Proof.Machine.execAndi h d a imm s
  | .ori h d a imm => Sys2Proof.Machine.execOri h d a imm s
  | .xori h d a imm => Sys2Proof.Machine.execXori h d a imm s
  | .shli h d a imm => Sys2Proof.Machine.execShli h d a imm s
  | .shri h d a imm => Sys2Proof.Machine.execShri h d a imm s
  | .shrai h d a imm => Sys2Proof.Machine.execShrai h d a imm s
  | .roti h d a imm => Sys2Proof.Machine.execRoti h d a imm s
  | .movlLo stop d imm => Sys2Proof.Machine.execMovlLo stop d imm s
  | .movlHi stop d imm => Sys2Proof.Machine.execMovlHi stop d imm s
  | .pand h pd pa pb => Sys2Proof.Machine.execPand h pd pa pb s
  | .por h pd pa pb => Sys2Proof.Machine.execPor h pd pa pb s
  | .pxor h pd pa pb => Sys2Proof.Machine.execPxor h pd pa pb s
  | .pnot h pd pa => Sys2Proof.Machine.execPnot h pd pa s
  | .sel h d a b => Sys2Proof.Machine.execSel h d a b s
  | .movp h d pa => Sys2Proof.Machine.execMovp h d pa s
  | .pset h pd a => Sys2Proof.Machine.execPset h pd a s
  | .fadd h d a b => Sys2Proof.Machine.execFadd h d a b s
  | .fsub h d a b => Sys2Proof.Machine.execFsub h d a b s
  | .fmul h d a b => Sys2Proof.Machine.execFmul h d a b s
  | .fmin h d a b => Sys2Proof.Machine.execFmin h d a b s
  | .fmax h d a b => Sys2Proof.Machine.execFmax h d a b s
  | .fcmp h cmp pd a b => Sys2Proof.Machine.execFcmp h cmp pd a b s
  | .ffma h d a b => Sys2Proof.Machine.execFfma h d a b s
  | .ffms h d a b => Sys2Proof.Machine.execFfms h d a b s
  | .fnma h d a b => Sys2Proof.Machine.execFnma h d a b s
  | .pkfma h d a b => Sys2Proof.Machine.execPkfma h d a b s
  | .frcp h d a => Sys2Proof.Machine.execFrcp h d a s
  | .frsq h d a => Sys2Proof.Machine.execFrsq h d a s
  | .fsqrt h d a => Sys2Proof.Machine.execFsqrt h d a s
  | .fexp2 h d a => Sys2Proof.Machine.execFexp2 h d a s
  | .flog2 h d a => Sys2Proof.Machine.execFlog2 h d a s
  | .fsin h d a => Sys2Proof.Machine.execFsin h d a s
  | .fcos h d a => Sys2Proof.Machine.execFcos h d a s
  | .frnd h d a mode => Sys2Proof.Machine.execFrnd h d a mode s
  | .cvt h src d a dst mode => Sys2Proof.Machine.execCvt h src d a dst mode s
  | .pkadd h d a b => Sys2Proof.Machine.execPkadd h d a b s
  | .pkmul h d a b => Sys2Proof.Machine.execPkmul h d a b s
  | .spk h d a => Sys2Proof.Machine.execSpk h d a s
  | .cvtbd h d a b => Sys2Proof.Machine.execCvtbd h d a b s
  | .ld h w d a off => Sys2Proof.Machine.execLd h w d a off s
  | .st h w d a off => Sys2Proof.Machine.execSt h w d a off s
  | .ldd h w d a off => Sys2Proof.Machine.execLdd h w d a off s
  | .std h w d a off => Sys2Proof.Machine.execStd h w d a off s
  | .cpAsync h d a tag keep => Sys2Proof.Machine.execCpAsync h d a tag keep s
  | .cpPlane h d a tag keep => Sys2Proof.Machine.execCpPlane h d a tag keep s
  | .cpOut h d a tag => Sys2Proof.Machine.execCpOut h d a tag s
  | .tagwait g k n => Sys2Proof.Machine.execTagwait g k n s
  | .tagget h d k => Sys2Proof.Machine.execTagget h d k s
  | .pref h a off => Sys2Proof.Machine.execPref h a off s
  | .accrd h d a t fmt => Sys2Proof.Machine.execAccrd h d a t fmt s
  | .accwr h d a t fmt => Sys2Proof.Machine.execAccwr h d a t fmt s
  | .atom h op d a ty sc ret => Sys2Proof.Machine.execAtom h op d a ty sc ret s
  | .atomb h op d a ty sc => Sys2Proof.Machine.execAtomb h op d a ty sc s
  | .fence h sc kind => Sys2Proof.Machine.execFence h sc kind s
  | .ldacq h d a sc b64 => Sys2Proof.Machine.execLdacq h d a sc b64 s
  | .strel h d a sc b64 => Sys2Proof.Machine.execStrel h d a sc b64 s
  | .acqr h a => Sys2Proof.Machine.execAcqr h a s
  | .aflush h => Sys2Proof.Machine.execAflush h s
  | .sample h d a slot => Sys2Proof.Machine.execSample h d a slot s
  | .sampleg h d a slot => Sys2Proof.Machine.execSampleg h d a slot s
  | .sload h d a slot => Sys2Proof.Machine.execSload h d a slot s
  | .hinv h slot => Sys2Proof.Machine.execHinv h slot s
  | .wpin h slot => Sys2Proof.Machine.execWpin h slot s
  | .wunpin h slot => Sys2Proof.Machine.execWunpin h slot s
  | .smma h d a f => Sys2Proof.Machine.execSmma h d a f s
  | .mxIssue h a => Sys2Proof.Machine.execMxIssue h a s
  | .mxZero h t k => Sys2Proof.Machine.execMxZero h t k s
  | .hopen h d pf => Sys2Proof.Machine.execHopen h d pf s
  | .hset h a => Sys2Proof.Machine.execHset h a s
  | .hget h d => Sys2Proof.Machine.execHget h d s
  | .hconfirm h a => Sys2Proof.Machine.execHconfirm h a s
  | .hrefute h a => Sys2Proof.Machine.execHrefute h a s
  | .hstate h d a => Sys2Proof.Machine.execHstate h d a s
  | .horphan h a => Sys2Proof.Machine.execHorphan h a s
  | .taskout h a c => Sys2Proof.Machine.execTaskout h a c s
  | .vtxout h a slot => Sys2Proof.Machine.execVtxout h a slot s
  | .primout h a => Sys2Proof.Machine.execPrimout h a s
  | .pixout h a t => Sys2Proof.Machine.execPixout h a t s
  | .kill h => Sys2Proof.Machine.execKill h s
  | .cmdLo lo => Sys2Proof.Machine.execCmdLo lo s
  | .beadGoOpNone v => Sys2Proof.Machine.execBeadGoOpNone v s

end Sys2Proof.Machine
end

