-- ==== Sys2Proof/Machine/Step.lean ====
section
/-! DEFINITION. One step of the machine: the instruction of the pack that a pipe has issued, else the next due device step. -/

namespace Sys2Proof.Machine

/-- One step. A pack that a pipe has issued runs its next word; a word that breaks a rule ends its block with ILLEGAL (R52),
and so does a block that goes on past the words that R156 fetches. With no pack issued, time passes to the next due device
step, which then comes about; an instruction word on the agenda is no device step and nothing comes about. -/
def step (s : State) : Host.Outcome State Fault Refusal :=
  match s.issue with
  | some p =>
    match p.fetch with
    | none => .next (s.illegal p 0x07)
    | some w =>
      match decodeWord w with
      | .ok i => exec i s
      | .error cause => .next (s.illegal p cause)
  | none =>
    let (ns, i, s1) := s.nextDue
    if isEvent i then exec i (s1.elapse ns) else .next (s1.elapse ns)

/-- The shape of the team that `withFetchWord` places: 32 threads with 256 registers, 64 KiB of DECK and PLANE, one tile. -/
def fetchShape : Shape := ⟨32, 256, 1, 65536, 65536⟩

/-- The state with one instruction word as the block of a pack that a pipe has issued (log entry 11): a context, a launch and a
team of 32 threads at their start state hold it, since a word runs only in a pack of a team. -/
def State.withFetchWord (s : State) (nbits w : Nat) : State :=
  let thread : Thread :=
    { (default : Thread) with st := .issued, tagCount := [0, 0, 0, 0], tagErr := [false, false, false, false] }
  let t : Team :=
    { (default : Team) with
      id := 0, launch := 0, count := 1, shape := fetchShape, seqcfg := 0x10002020,
      threads := List.replicate 32 thread }
  let l : Launch :=
    { (default : Launch) with id := 0, shape := fetchShape, masts := 1, admitted := true, teams := 1 }
  let p : Pack :=
    { (default : Pack) with
      id := 0, team := 0, words := if nbits = 0 then [] else [BitVec.ofNat 32 w], rally := true,
      lanes := (List.range 32).map fun i => (i, Lane.start t s.cycle i) }
  { s with ctxs := [{ (default : Ctx) with num := 0, coreSet := 1 }], launches := [l], teams := [t], flight := [], issue := some p }

end Sys2Proof.Machine
end

