-- ==== Sys2Proof/Certificates/Slice0/Obligations.lean ====
section
/-! DEFINITION. The statements for the provers, with the vocabulary that they share: what one instruction word does to the lanes of
the issued pack, told from the manual's tables, and what the device steps do. -/

namespace Sys2Proof.Claims

open Sys2Proof.Machine

/-! ### Words: the issued pack -/

/-- A pipe has issued pack p, and the state holds its team t. -/
def Issued (s : State) (p : Pack) (t : Team) : Prop := s.issue = some p ∧ s.team? p.team = some t

/-- A pack of team t after its word: four bytes on, no MODW in force, ended if S is 1; its collector gathers for its next word (R180). -/
def Advanced (t : Team) (p p' : Pack) (stop : Bool) : Prop :=
  { p' with lanes := p.lanes, reads := p.reads } =
    { p with pc := (p.pc + 4) % 2 ^ 32, modw := ⟨0, false, 0, 0⟩, ended := p.ended || stop } ∧
  p'.collect t = p'

/-- exec of i answers a next state in which nothing but the pack has changed: it is back in flight after its word, and each of its
lanes has changed by Q. -/
def LaneStep (i : Instr) (s : State) (p : Pack) (t : Team) (stop : Bool) (Q : Nat → Lane → Lane → Prop) : Prop :=
  ∃ p' : Pack,
    exec i s = .next { s with issue := none, flight := putBy (fun x => x.id == p'.id) p' s.flight } ∧ Advanced t p p' stop ∧
    List.Forall₂ (fun c c' => c'.1 = c.1 ∧ Q c.1 c.2 c'.2) p.lanes p'.lanes

/-- Every window name of some operands maps below VREGS (R168). -/
def InRange (e : Env) (ln : Lane) (ns : Names) : Prop :=
  ∀ c ∈ ns, c.1.toNat < 96 → ln.wb + c.1.toNat + c.2 ≤ e.t.shape.vregs
/-- No source register bears a poison mark (R257). -/
def Clean (ln : Lane) (ns : Names) : Prop :=
  ∀ c ∈ ns, c.1.toNat < 96 → ∀ r ∈ ln.poison, ¬(ln.wb + c.1.toNat ≤ r ∧ r < ln.wb + c.1.toNat + c.2)
/-- The guard is true: p0 reads true (R41). -/
def GuardOn (ln : Lane) (g : BitVec 2) : Prop := g = 0 ∨ ln.preds.getLsbD g.toNat = true
/-- The lane executes the word: its operands are in range, its guard is true, no source is marked. -/
def Runs (e : Env) (ln : Lane) (g : BitVec 2) (src dst : Names) : Prop :=
  InRange e ln (src ++ dst) ∧ GuardOn ln g ∧ Clean ln src
/-- The lane passes the word over: its operands are in range and its guard is false. -/
def Skips (e : Env) (ln : Lane) (g : BitVec 2) (src dst : Names) : Prop := InRange e ln (src ++ dst) ∧ ¬GuardOn ln g

/-- v-register q is one of the n that a write to d names (R40, R167). -/
def Names_ (ln : Lane) (d : Reg) (n q : Nat) : Prop := d.toNat < 96 ∧ ln.wb + d.toNat ≤ q ∧ q < ln.wb + d.toNat + n

/-- The words xs have been written to d and the registers after it, and the flags f ORed in; every other register code reads as
before, every other v-register of the thread, in the window or outside it, holds what it held, the written ones are noted and lose
their poison marks, DISCARD drops the result, and nothing else of the lane has changed. -/
def Wrote (e : Env) (d : Reg) (xs : List Word) (f : BitVec 5) (ln ln' : Lane) : Prop :=
  (d.toNat < 112 → ∀ k x, xs[k]? = some x → e.rd ln' (d + BitVec.ofNat 7 k) = x) ∧
  (∀ r : Reg, (∀ k, k < xs.length → r ≠ d + BitVec.ofNat 7 k) → e.rd ln' r = e.rd ln r) ∧
  (112 ≤ d.toNat → ln'.v = ln.v ∧ ln'.e = ln.e) ∧
  (∀ q, ¬Names_ ln d xs.length q → alGetD ln'.v q 0 = alGetD ln.v q 0) ∧
  (∀ q, q ∈ ln'.written ↔ q ∈ ln.written ∨ Names_ ln d xs.length q) ∧
  (∀ q, q ∈ ln'.poison ↔ q ∈ ln.poison ∧ ¬Names_ ln d xs.length q) ∧
  ln'.flags = ln.flags ||| f ∧
  { ln' with v := ln.v, written := ln.written, poison := ln.poison, e := ln.e, flags := ln.flags } = ln

/-- Predicate p has been written with b, unless it is p0; nothing else has changed. -/
def WrotePred (p : BitVec 3) (b : Bool) (ln ln' : Lane) : Prop :=
  (p ≠ 0 → ln'.preds.getLsbD p.toNat = b) ∧
  (∀ q, q < 8 → q ≠ p.toNat → ln'.preds.getLsbD q = ln.preds.getLsbD q) ∧
  (p = 0 → ln' = ln) ∧ { ln' with preds := ln.preds } = ln

/-- An instruction of one result: its header, its sources, its destination, and the relation that the manual gives between the
flag of MODW.ALT, the values of registers and the result. -/
structure Val where
  hdr : Hdr
  src : Names
  dst : Reg
  rel : Bool → (Reg → Word) → Word → Prop

/-- A result that is a function of the sources. -/
def Val.fn (h : Hdr) (src : Names) (d : Reg) (f : Bool → (Reg → Word) → Word) : Val := ⟨h, src, d, fun alt r x => x = f alt r⟩

/-- What exec of a one-result instruction does, in every state and for every lane of the pack. -/
def ValueResult (i : Instr) (v : Val) : Prop :=
  ∀ s p t, Issued s p t → LaneStep i s p t v.hdr.stop fun _ ln ln' =>
    (Runs ⟨s, t, p⟩ ln v.hdr.guard v.src [(v.dst, 1)] →
      ∃ x, v.rel p.modw.alt (Env.rd ⟨s, t, p⟩ ln) x ∧ Wrote ⟨s, t, p⟩ v.dst [x] 0 ln ln') ∧
    (Skips ⟨s, t, p⟩ ln v.hdr.guard v.src [(v.dst, 1)] → ln' = ln)

/-! ### Integer values (R205 to R213) -/

/-- A value as I32, or as N32 under ALT. -/
def asInt (alt : Bool) (x : Word) : Int := if alt then (x.toNat : Int) else x.toInt

/-- The IALU table of R205. -/
def ialuVal : Instr → Option Val
  | .add h d a b => some (.fn h [(a, 1), (b, 1)] d fun _ r => BitVec.ofNat 32 ((r a).toNat + (r b).toNat))
  | .sub h d a b => some (.fn h [(a, 1), (b, 1)] d fun _ r => BitVec.ofInt 32 ((r a).toNat - (r b).toNat))
  | .mulLo h d a b => some (.fn h [(a, 1), (b, 1)] d fun _ r => BitVec.ofNat 32 ((r a).toNat * (r b).toNat))
  | .mulHi h d a b => some (.fn h [(a, 1), (b, 1)] d fun alt r => BitVec.ofInt 32 (asInt alt (r a) * asInt alt (r b) / 2 ^ 32))
  | .min h d a b => some (.fn h [(a, 1), (b, 1)] d fun alt r => if asInt alt (r a) < asInt alt (r b) then r a else r b)
  | .max h d a b => some (.fn h [(a, 1), (b, 1)] d fun alt r => if asInt alt (r b) < asInt alt (r a) then r a else r b)
  | .absd h d a b => some (.fn h [(a, 1), (b, 1)] d fun alt r => BitVec.ofInt 32 |asInt alt (r a) - asInt alt (r b)|)
  | .neg h d a => some (.fn h [(a, 1)] d fun _ r => BitVec.ofInt 32 (0 - (r a).toInt))
  | _ => none

/-- The shifts of R206 by an amount 0 to 63, and the rotation, as arithmetic. -/
def shlBy (k : Nat) (x : Word) : Word := BitVec.ofNat 32 (x.toNat * 2 ^ k)
def shrBy (k : Nat) (x : Word) : Word := BitVec.ofNat 32 (x.toNat / 2 ^ k)
def shraBy (k : Nat) (x : Word) : Word := BitVec.ofInt 32 (x.toInt / 2 ^ k)
def rotBy (k : Nat) (x : Word) : Word := BitVec.ofNat 32 (x.toNat * 2 ^ k + x.toNat / 2 ^ (32 - k))

/-- The ILOG table of R206. -/
def ilogVal : Instr → Option Val
  | .and h d a b => some (.fn h [(a, 1), (b, 1)] d fun _ r => r a &&& r b)
  | .or h d a b => some (.fn h [(a, 1), (b, 1)] d fun _ r => r a ||| r b)
  | .xor h d a b => some (.fn h [(a, 1), (b, 1)] d fun _ r => r a ^^^ r b)
  | .andn h d a b => some (.fn h [(a, 1), (b, 1)] d fun _ r => r a &&& ~~~r b)
  | .shl h d a b => some (.fn h [(a, 1), (b, 1)] d fun _ r => shlBy ((r b).toNat % 64) (r a))
  | .shr h d a b => some (.fn h [(a, 1), (b, 1)] d fun _ r => shrBy ((r b).toNat % 64) (r a))
  | .shra h d a b => some (.fn h [(a, 1), (b, 1)] d fun _ r => shraBy ((r b).toNat % 64) (r a))
  | .rot h d a b => some (.fn h [(a, 1), (b, 1)] d fun _ r => rotBy ((r b).toNat % 32) (r a))
  | _ => none

/-- ADDI and the LOGI forms of R212, MOVL of R213. -/
def immVal : Instr → Option Val
  | .addi h d a imm => some (.fn h [(a, 1)] d fun _ r => BitVec.ofInt 32 ((r a).toInt + imm.toInt))
  | .andi h d a imm => some (.fn h [(a, 1)] d fun _ r => r a &&& imm.setWidth 32)
  | .ori h d a imm => some (.fn h [(a, 1)] d fun _ r => r a ||| imm.setWidth 32)
  | .xori h d a imm => some (.fn h [(a, 1)] d fun _ r => r a ^^^ imm.setWidth 32)
  | .shli h d a imm => some (.fn h [(a, 1)] d fun _ r => shlBy imm.toNat (r a))
  | .shri h d a imm => some (.fn h [(a, 1)] d fun _ r => shrBy imm.toNat (r a))
  | .shrai h d a imm => some (.fn h [(a, 1)] d fun _ r => shraBy imm.toNat (r a))
  | .roti h d a imm => some (.fn h [(a, 1)] d fun _ r => rotBy (imm.toNat % 32) (r a))
  | .movlLo s d imm => some (.fn ⟨s, 0⟩ [] d fun _ _ => BitVec.ofNat 32 imm.toNat)
  | .movlHi s d imm => some (.fn ⟨s, 0⟩ [(d, 1)] d fun _ r => BitVec.ofNat 32 (imm.toNat * 2 ^ 16 + (r d).toNat % 2 ^ 16))
  | _ => none

/-- The position and the length of a bit field (R207). -/
def fieldPos (b : Word) : Nat := if b.toNat % 256 ≤ 32 then b.toNat % 256 else 32
def fieldLen (b : Word) : Nat := if b.toNat / 256 % 256 ≤ 32 then b.toNat / 256 % 256 else 32
/-- The low l bits of an integer, read as signed. -/
def signedField (l : Nat) (f : Int) : Int := if 2 * (f % 2 ^ l) < 2 ^ l then f % 2 ^ l else f % 2 ^ l - 2 ^ l

/-- IBIT (R207 to R209), MAD and MADH (R210). -/
def ibitVal : Instr → Option Val
  | .bfe h d a b => some (.fn h [(a, 1), (b, 1)] d fun alt r =>
      let f := asInt alt (r a) / 2 ^ fieldPos (r b) % 2 ^ fieldLen (r b)
      if fieldLen (r b) = 0 then 0 else BitVec.ofInt 32 (if alt then f else signedField (fieldLen (r b)) f))
  | .bfi h d a b => some ⟨h, [(a, 1), (b, 1), (d, 1)], d, fun _ r x => ∀ j, j < 32 →
      x.getLsbD j = if fieldPos (r b) ≤ j ∧ j < fieldPos (r b) + fieldLen (r b) then (r a).getLsbD (j - fieldPos (r b))
        else (r d).getLsbD j⟩
  | .popc h d a => some (.fn h [(a, 1)] d fun _ r => BitVec.ofNat 32 ((List.range 32).countP fun j => (r a).getLsbD j))
  | .clz h d a => some ⟨h, [(a, 1)], d, fun _ r x =>
      (r a = 0 ∧ x = 32) ∨
        ∃ k, k < 32 ∧ x = BitVec.ofNat 32 k ∧ (r a).getLsbD (31 - k) = true ∧ ∀ j, 31 - k < j → (r a).getLsbD j = false⟩
  | .brev h d a => some ⟨h, [(a, 1)], d, fun _ r x => ∀ j, j < 32 → x.getLsbD j = (r a).getLsbD (31 - j)⟩
  | .div h d a b => some (.fn h [(a, 1), (b, 1)] d fun alt r =>
      if r b = 0 then 0xFFFFFFFF else BitVec.ofInt 32 ((asInt alt (r a)).tdiv (asInt alt (r b))))
  | .rem h d a b => some (.fn h [(a, 1), (b, 1)] d fun alt r =>
      if r b = 0 then r a
      else BitVec.ofInt 32 (asInt alt (r a) - (asInt alt (r a)).tdiv (asInt alt (r b)) * asInt alt (r b)))
  | .mad h d a b => some (.fn h [(a, 1), (b, 1), (d, 1)] d fun _ r =>
      BitVec.ofNat 32 ((r a).toNat * (r b).toNat + (r d).toNat))
  | .madh h d a b => some (.fn h [(a, 1), (b, 1), (d, 1)] d fun alt r =>
      BitVec.ofInt 32 (asInt alt (r a) * asInt alt (r b) / 2 ^ 32 + (r d).toNat))
  | _ => none

/-! ### Predicates (R211, R214, R219) -/

/-- A predicate as it reads: p0 reads true (R41). -/
def predVal (ln : Lane) (p : BitVec 3) : Bool := p == 0 || ln.preds.getLsbD p.toNat

/-- The integer comparisons of R46. -/
def icmpVal (cmp : Nat) (alt : Bool) (a b : Word) : Bool :=
  match cmp with
  | 0 => decide (a = b)
  | 1 => decide (a ≠ b)
  | 2 => decide (asInt alt a < asInt alt b)
  | 3 => decide (asInt alt a ≤ asInt alt b)
  | 4 => decide (asInt alt b < asInt alt a)
  | 5 => decide (asInt alt b ≤ asInt alt a)
  | _ => decide (a &&& b ≠ 0)

/-- An instruction that writes one predicate: its header, its sources, the predicate, its value. -/
structure PredOp where
  hdr : Hdr
  src : Names
  pd  : BitVec 3
  val : Env → Lane → Bool

/-- ICMP and the PRED forms that write a predicate. -/
def predOp : Instr → Option PredOp
  | .icmp h cmp pd pc orr a b => some ⟨h, [(a, 1), (b, 1)], pd, fun e ln =>
      let r := icmpVal cmp.toNat e.p.modw.alt (e.rd ln a) (e.rd ln b)
      if orr then r || predVal ln pc else r && predVal ln pc⟩
  | .pand h pd pa pb => some ⟨h, [], pd, fun _ ln => predVal ln pa && predVal ln pb⟩
  | .por h pd pa pb => some ⟨h, [], pd, fun _ ln => predVal ln pa || predVal ln pb⟩
  | .pxor h pd pa pb => some ⟨h, [], pd, fun _ ln => xor (predVal ln pa) (predVal ln pb)⟩
  | .pnot h pd pa => some ⟨h, [], pd, fun _ ln => !predVal ln pa⟩
  | .pset h pd a => some ⟨h, [(a, 1)], pd, fun e ln => decide (e.rd ln a ≠ 0)⟩
  | _ => none

/-! ### Floating point (R216 to R225) -/

/-- An instruction that writes words with flags: its header, its sources, how many words its destination takes, and the words and
flags. -/
structure WordsOp where
  hdr : Hdr
  src : Names
  dst : Reg
  n   : Nat
  val : Env → Lane → List Word × BitVec 5

/-- One word and its flags from a value computed on naturals. -/
def oneF (r : Nat × Flags) : List Word × BitVec 5 := ([BitVec.ofNat 32 r.1], r.2)

/-- What exec of such an instruction does. -/
def WordsResult (i : Instr) (v : WordsOp) : Prop :=
  ∀ s p t, Issued s p t → LaneStep i s p t v.hdr.stop fun _ ln ln' =>
    (Runs ⟨s, t, p⟩ ln v.hdr.guard v.src [(v.dst, v.n)] →
      Wrote ⟨s, t, p⟩ v.dst (v.val ⟨s, t, p⟩ ln).1 (v.val ⟨s, t, p⟩ ln).2 ln ln') ∧
    (Skips ⟨s, t, p⟩ ln v.hdr.guard v.src [(v.dst, v.n)] → ln' = ln)

/-- FADD to PKMUL (R216 to R218, R220). -/
def fpOp : Instr → Option WordsOp
  | .fadd h d a b => some ⟨h, [(a, 1), (b, 1)], d, 1, fun e ln => oneF (fpAdd f32 e.p.modw.rm (e.rd ln a).toNat (e.rd ln b).toNat)⟩
  | .fsub h d a b => some ⟨h, [(a, 1), (b, 1)], d, 1, fun e ln => oneF (fpSub f32 e.p.modw.rm (e.rd ln a).toNat (e.rd ln b).toNat)⟩
  | .fmul h d a b => some ⟨h, [(a, 1), (b, 1)], d, 1, fun e ln => oneF (fpMul f32 e.p.modw.rm (e.rd ln a).toNat (e.rd ln b).toNat)⟩
  | .fmin h d a b => some ⟨h, [(a, 1), (b, 1)], d, 1, fun e ln => oneF (fpMinMax f32 false (e.rd ln a).toNat (e.rd ln b).toNat)⟩
  | .fmax h d a b => some ⟨h, [(a, 1), (b, 1)], d, 1, fun e ln => oneF (fpMinMax f32 true (e.rd ln a).toNat (e.rd ln b).toNat)⟩
  | .ffma h d a b => some ⟨h, [(a, 1), (b, 1), (d, 1)], d, 1, fun e ln =>
      oneF (fpFma f32 e.p.modw.rm false false (e.rd ln a).toNat (e.rd ln b).toNat (e.rd ln d).toNat)⟩
  | .ffms h d a b => some ⟨h, [(a, 1), (b, 1), (d, 1)], d, 1, fun e ln =>
      oneF (fpFma f32 e.p.modw.rm false true (e.rd ln a).toNat (e.rd ln b).toNat (e.rd ln d).toNat)⟩
  | .fnma h d a b => some ⟨h, [(a, 1), (b, 1), (d, 1)], d, 1, fun e ln =>
      oneF (fpFma f32 e.p.modw.rm true false (e.rd ln a).toNat (e.rd ln b).toNat (e.rd ln d).toNat)⟩
  | .pkfma h d a b => some ⟨h, [(a, 1), (b, 1), (d, 1)], d, 1, fun e ln =>
      let f := fun (x y z : Word) => fpFma (if e.p.modw.alt then bf16 else f16) e.p.modw.rm false false
        x.toNat y.toNat z.toNat
      let lo := f (e.rd ln a &&& 0xFFFF) (e.rd ln b &&& 0xFFFF) (e.rd ln d &&& 0xFFFF)
      let hi := f (e.rd ln a >>> 16) (e.rd ln b >>> 16) (e.rd ln d >>> 16)
      ([BitVec.ofNat 32 (lo.1 + 65536 * hi.1)], lo.2 ||| hi.2)⟩
  | .pkadd h d a b => some ⟨h, [(a, 1), (b, 1)], d, 1, fun e ln =>
      let f := fun (x y : Word) => fpAdd f16 e.p.modw.rm x.toNat y.toNat
      let lo := f (e.rd ln a &&& 0xFFFF) (e.rd ln b &&& 0xFFFF)
      let hi := f (e.rd ln a >>> 16) (e.rd ln b >>> 16)
      ([BitVec.ofNat 32 (lo.1 + 65536 * hi.1)], lo.2 ||| hi.2)⟩
  | .pkmul h d a b => some ⟨h, [(a, 1), (b, 1)], d, 1, fun e ln =>
      let f := fun (x y : Word) => fpMul f16 e.p.modw.rm x.toNat y.toNat
      let lo := f (e.rd ln a &&& 0xFFFF) (e.rd ln b &&& 0xFFFF)
      let hi := f (e.rd ln a >>> 16) (e.rd ln b >>> 16)
      ([BitVec.ofNat 32 (lo.1 + 65536 * hi.1)], lo.2 ||| hi.2)⟩
  | _ => none

/-- FSFU (R221 to R223). -/
def fsfuOp : Instr → Option WordsOp
  | .frcp h d a => some ⟨h, [(a, 1)], d, 1, fun e ln => oneF (fpRcp (e.rd ln a).toNat)⟩
  | .frsq h d a => some ⟨h, [(a, 1)], d, 1, fun e ln => oneF (fpRsq (e.rd ln a).toNat)⟩
  | .fsqrt h d a => some ⟨h, [(a, 1)], d, 1, fun e ln => oneF (fpSqrt (e.rd ln a).toNat)⟩
  | .fexp2 h d a => some ⟨h, [(a, 1)], d, 1, fun e ln => oneF (fpExp2 (e.rd ln a).toNat)⟩
  | .flog2 h d a => some ⟨h, [(a, 1)], d, 1, fun e ln => oneF (fpLog2 (e.rd ln a).toNat)⟩
  | .fsin h d a => some ⟨h, [(a, 1)], d, 1, fun e ln => oneF (fpSinPi (e.rd ln a).toNat)⟩
  | .fcos h d a => some ⟨h, [(a, 1)], d, 1, fun e ln => oneF (fpCosPi (e.rd ln a).toNat)⟩
  | .frnd h d a mode => some ⟨h, [(a, 1)], d, 1, fun e ln => oneF (fpRnd f32 mode (e.rd ln a).toNat)⟩
  | _ => none

/-- A register, or the pair that begins there, as a number (R57). -/
def pairNat (e : Env) (ln : Lane) (a : Reg) : Nat := (e.rd ln a).toNat + 2 ^ 32 * (e.rd ln (a + 1)).toNat

/-- CVT (R224, R225) and SPK (R226). -/
def cvtOp : Instr → Option WordsOp
  | .cvt h src d a dst mode => some ⟨h, [(a, if src = 2 ∨ src = 3 then 2 else 1)], d, if dst = 2 ∨ dst = 3 then 2 else 1, fun e ln =>
      let x := if src = 2 ∨ src = 3 then pairNat e ln a else (e.rd ln a).toNat
      let r := cvtOf src.toNat e.p.modw.alt dst.toNat mode x
      (if dst = 2 ∨ dst = 3 then [r.1.setWidth 32, (r.1 >>> 32).setWidth 32] else [r.1.setWidth 32], r.2)⟩
  | .spk h d a => some ⟨h, [(a, 4)], d, 2, fun e ln =>
      let r := spkOf [(e.rd ln a).toNat % 65536, (e.rd ln (a + 1)).toNat % 65536, (e.rd ln (a + 2)).toNat % 65536,
        (e.rd ln (a + 3)).toNat % 65536]
      ([BitVec.ofNat 32 r.1, BitVec.ofNat 32 r.2], 0)⟩
  | _ => none

/-! ### Registers without flags: pairs, selections, specials, lanes, random numbers -/

/-- ADD64 and SUB64 (R210), SEL and MOVP (R214, R215), CLK (R369), RNG (R229), MGET (R187). -/
def wordOp : Instr → Option WordsOp
  | .add64 h d a b => some ⟨h, [(a, 2), (b, 2)], d, 2, fun e ln =>
      let z := pairNat e ln a + pairNat e ln b
      ([BitVec.ofNat 32 z, BitVec.ofNat 32 (z / 2 ^ 32)], 0)⟩
  | .sub64 h d a b => some ⟨h, [(a, 2), (b, 2)], d, 2, fun e ln =>
      let z : Int := (pairNat e ln a : Int) - pairNat e ln b
      ([BitVec.ofInt 32 z, BitVec.ofInt 32 (z / 2 ^ 32)], 0)⟩
  | .sel h d a b => some ⟨⟨h.stop, 0⟩, [(a, 1), (b, 1)], d, 1, fun e ln =>
      ([if h.guard = 0 ∨ ln.preds.getLsbD h.guard.toNat = true then e.rd ln a else e.rd ln b], 0)⟩
  | .movp h d pa => some ⟨h, [], d, 1, fun _ ln => ([if predVal ln pa then 1 else 0], 0)⟩
  | .clkCyc h d => some ⟨h, [], d, 2, fun e _ => ([BitVec.ofNat 32 e.s.cycle, BitVec.ofNat 32 (e.s.cycle / 2 ^ 32)], 0)⟩
  | .clkNs h d => some ⟨h, [], d, 2, fun e _ => ([BitVec.ofNat 32 e.s.ns, BitVec.ofNat 32 (e.s.ns / 2 ^ 32)], 0)⟩
  | .rngLo h d a b => some ⟨h, [(a, 2), (b, 2)], d, 1, fun e ln =>
      ([(fjopomo (BitVec.ofNat 64 (pairNat e ln a)) (BitVec.ofNat 64 (pairNat e ln b))).setWidth 32], 0)⟩
  | .rngHi h d a b => some ⟨h, [(a, 2), (b, 2)], d, 1, fun e ln =>
      ([(fjopomo (BitVec.ofNat 64 (pairNat e ln a)) (BitVec.ofNat 64 (pairNat e ln b)) >>> 32).setWidth 32], 0)⟩
  | .mget h d m => some ⟨h, [], d, 1, fun _ ln => ([alGetD ln.masks m.toNat 0], 0)⟩
  | _ => none

/-- The control registers of R171 that a CTXR reads, by number, with what each reads as for a thread in its block. -/
def ctlVal (e : Env) (ln : Lane) (n : Nat) : Word :=
  match n with
  | 0x00 => ln.status.setWidth 32
  | 0x01 => BitVec.ofNat 32 ln.wb
  | 0x02 => ln.rngsRead
  | 0x08 => e.t.seqcfg
  | 0x09 => BitVec.ofNat 32 (e.t.shape.vregs + (if e.t.stage = .compute ∧ (e.s.launchD e.t.launch).det = true then 512 else 0) +
      1024 * stageCode e.t.stage)
  | 0x0A => if e.t.stage = .compute then (e.s.launchD e.t.launch).tileExt else 0
  | 0x0B => if e.t.stage = .compute then (e.s.launchD e.t.launch).seed.setWidth 32 else 0
  | 0x0C => if e.t.stage = .compute then ((e.s.launchD e.t.launch).seed >>> 32).setWidth 32 else 0
  | n => if n < 0x20 then (e.t.thread ln.tid).frec.getD (n - 0x10) 0 else alGetD e.t.loss (n - 0x20) 0

/-- CTXR (R368). -/
def ctxrOp : Instr → Option WordsOp
  | .ctxr h d n => some ⟨h, [], d, 1, fun e ln => ([ctlVal e ln n.toNat], 0)⟩
  | _ => none

/-- The present and active lanes (R78). -/
def actives (p : Pack) (g : BitVec 2) : List (Nat × Lane) := p.lanes.filter fun c => g == 0 || c.2.preds.getLsbD g.toNat
/-- A register of lane j, when j is present and active. -/
def laneReg (e : Env) (g : BitVec 2) (a : Reg) (j : Nat) : Option Word :=
  ((actives e.p g).find? fun c => c.1 == j).map fun c => e.rd c.2 a
/-- R194: what a lane takes from its source lane, or its fill. -/
def takes (e : Env) (g : BitVec 2) (a b : Reg) (ln : Lane) (src : Option Nat) : Word :=
  match src.bind (laneReg e g a) with
  | some x => x
  | none => if e.p.modw.fill = 0 then 0 else if e.p.modw.fill = 1 then e.rd ln a else e.rd ln b

/-- VOTE (R191), XLANE, PERM and BCAST (R194). -/
def laneOp : Instr → Option WordsOp
  | .vote h kind d pa => some ⟨h, [], d, 1, fun e _ =>
      let on := actives e.p h.guard
      ([match kind.toNat with
        | 0 => if on.any fun c => predVal c.2 pa then 1 else 0
        | 1 => if on.all fun c => predVal c.2 pa then 1 else 0
        | 2 => BitVec.ofNat 32 ((on.filter fun c => predVal c.2 pa).map fun c => 2 ^ c.1).sum
        | _ => if (on.all fun c => predVal c.2 pa) || (on.all fun c => !predVal c.2 pa) then 1 else 0], 0)⟩
  | .xlane h kind d a n => some ⟨h, [(a, 1)], d, 1, fun e ln =>
      let l := ln.tid % 32
      ([takes e h.guard a a ln (match kind.toNat with
        | 0 => some n.toNat
        | 1 => if l < n.toNat then none else some (l - n.toNat)
        | 2 => if 31 < l + n.toNat then none else some (l + n.toNat)
        | _ => some (l ^^^ n.toNat))], 0)⟩
  | .perm h d a b => some ⟨h, [(a, 1), (b, 1)], d, 1, fun e ln =>
      ([takes e h.guard a b ln (if 31 < (e.rd ln b).toNat then none else some (e.rd ln b).toNat)], 0)⟩
  | .bcast h d a n => some ⟨h, [(a, 1)], d, 1, fun e ln => ([takes e h.guard a a ln (some n.toNat)], 0)⟩
  | _ => none

/-- The operands of the 32 lanes of a reduction: the identity of R78 for a lane that is not present and active. -/
def redOperands (e : Env) (g : BitVec 2) (op ty : Nat) (a : Reg) : List (Nat × Flags) :=
  (List.range 32).map fun l => (match laneReg e g a l with
    | some x => x.toNat
    | none => redIdentity op ty, 0)

/-- The order of R80: lane l's value after k rounds from the values x. -/
def scanAt {α : Type} (f : α → α → α) (x : Nat → α) : Nat → Nat → α
  | 0, l => x l
  | k + 1, l => if 2 ^ k ≤ l then f (scanAt f x k (l - 2 ^ k)) (scanAt f x k l) else scanAt f x k l

/-- SCAN (R80, R193): the inclusive result of the lane, or the exclusive one, with the flags of every node. -/
def scanOp : Instr → Option WordsOp
  | .scan h op ty excl d a => some ⟨h, [(a, 1)], d, 1, fun e ln =>
      let r := scanAt (redOp op.toNat ty.toNat) (fun l => (redOperands e h.guard op.toNat ty.toNat a).getD l (0, 0)) 5
      let l := ln.tid % 32
      ([BitVec.ofNat 32 (if excl then (if l = 0 then redIdentity op.toNat ty.toNat else (r (l - 1)).1) else (r l).1)],
        (List.range 32).foldl (fun f j => f ||| (r j).2) 0)⟩
  | _ => none

/-! ### Words that trap, that turn a thread, or that record an operation for the commit -/

/-- What a word does to a lane: its header, its sources and destinations, the trap code that its operands raise, if any, and the lane
after it otherwise. -/
structure Act where
  hdr  : Hdr
  src  : Names
  dst  : Names
  trap : Env → Lane → Option Nat
  upd  : Env → Lane → Lane

/-- A lane after a trap of the word: the earliest trap of the block stands (R143). -/
def trapped (p : Pack) (code num : Nat) (ln : Lane) : Lane := { ln with trap := ln.trap.or (some ⟨code, num, p.pc⟩) }

/-- What exec of such a word does. -/
def ActResult (i : Instr) (v : Act) : Prop :=
  ∀ s p t, Issued s p t → LaneStep i s p t v.hdr.stop fun _ ln ln' =>
    (Runs ⟨s, t, p⟩ ln v.hdr.guard v.src v.dst →
      ln' = match v.trap ⟨s, t, p⟩ ln with
        | none => v.upd ⟨s, t, p⟩ ln
        | some c => trapped p c 0 ln) ∧
    (Skips ⟨s, t, p⟩ ln v.hdr.guard v.src v.dst → ln' = ln)

/-- No operand of the word raises a trap. -/
def never : Env → Lane → Option Nat := fun _ _ => none
/-- An operation recorded for the commit, in program order (R254). -/
def recorded (op : Env → Lane → MemOp) : Env → Lane → Lane := fun e ln => { ln with ops := ln.ops ++ [⟨e.p.pc, op e ln⟩] }

/-- NOP, TRAP, BKPT, CTXW and SIGNAL (R174, R366 to R370). -/
def sysAct : Instr → Option Act
  | .nop h => some ⟨h, [], [], never, fun _ ln => ln⟩
  | .trap h n => some ⟨h, [], [], never, fun e ln => trapped e.p 0x20 n.toNat ln⟩
  | .bkpt h n => some ⟨h, [], [], never, fun e ln => trapped e.p 0x21 n.toNat ln⟩
  | .ctxw h n a => some ⟨h, [(a, 1)], [], never, fun e ln =>
      if n = 0 then { ln with status := (e.rd ln a).setWidth 6, statusW := true, flags := 0, wrap := false }
      else if n = 2 then { ln with rngs := e.rd ln a, rngsRead := e.rd ln a }
      else recorded (fun e ln => .teamWrite n.toNat (e.rd ln a)) e ln⟩
  | .signal h a b => some ⟨h, [(a, 2), (b, 1)], [],
      fun e ln => if pairNat e ln a % 8 ≠ 0 then some 0x22 else if ln.hyp ≠ 0 then some 0x24 else none,
      recorded fun e ln => .signal (BitVec.ofNat 64 (pairNat e ln a)) (e.rd ln b)⟩
  | _ => none

/-- A branch target: pc + 4 × sext(OFF) modulo 2^32 (R182). -/
def target (pc : Nat) (off : BitVec 19) : Nat := (((pc : Int) + 4 * off.toInt) % 2 ^ 32).toNat

/-- BRA, BRA.NOT, JMP, JMPI, RET and EXIT (R182, R183, R185). -/
def ctrlAct : Instr → Option Act
  | .bra p off => some ⟨⟨true, 0⟩, [], [], never, fun e ln =>
      { ln with next := some (if predVal ln p then target e.p.pc off else (e.p.pc + 4) % 2 ^ 32) }⟩
  | .braNot p off => some ⟨⟨true, 0⟩, [], [], never, fun e ln =>
      { ln with next := some (if predVal ln p then (e.p.pc + 4) % 2 ^ 32 else target e.p.pc off) }⟩
  | .jmp off => some ⟨⟨true, 0⟩, [], [], never, fun e ln => { ln with next := some (target e.p.pc off) }⟩
  | .jmpi a => some ⟨⟨true, 0⟩, [(a, 1)], [], fun e ln => if (e.rd ln a).toNat % 4 ≠ 0 then some 0x22 else none,
      fun e ln => { ln with next := some (e.rd ln a).toNat }⟩
  | .ret a => some ⟨⟨true, 0⟩, [(a, 1)], [], fun e ln => if (e.rd ln a).toNat % 4 ≠ 0 then some 0x22 else none,
      fun e ln => { ln with next := some (e.rd ln a).toNat }⟩
  | .exit => some ⟨⟨true, 0⟩, [], [], never, fun _ ln => { ln with exits := true }⟩
  | _ => none

/-- The mask of the thread's warp as it sees it, with an operation of its own applied and recorded (R187). -/
def maskAct (m : BitVec 3) (f : Env → Lane → Word) (op : Env → Lane → MemOp) : Env → Lane → Lane :=
  fun e ln => { ln with masks := alPut m.toNat (f e ln) ln.masks, ops := ln.ops ++ [⟨e.p.pc, op e ln⟩] }

/-- RALLY, MJOIN, MCLR, MSET, BAR, BARARR and BARWT (R186 to R188). -/
def rallyAct : Instr → Option Act
  | .rally h _ _ => some ⟨⟨h.stop, 0⟩, [], [], never, fun _ ln => ln⟩
  | .mjoin h m => some ⟨h, [], [], never,
      maskAct m (fun _ ln => alGetD ln.masks m.toNat 0 ||| BitVec.twoPow 32 (ln.tid % 32)) fun _ _ => .maskJoin m.toNat⟩
  | .mclr h m => some ⟨h, [], [], never,
      maskAct m (fun _ ln => alGetD ln.masks m.toNat 0 &&& ~~~BitVec.twoPow 32 (ln.tid % 32)) fun _ _ => .maskClear m.toNat⟩
  | .mset h m a => some ⟨h, [(a, 1)], [], never, maskAct m (fun e ln => e.rd ln a) fun e ln => .maskSet m.toNat (e.rd ln a)⟩
  | .bar g n a pl => some ⟨⟨true, g⟩, [(a, 1)], [], never, fun e ln =>
      { recorded (fun e ln => .barArrive n.toNat (e.rd ln a).toNat (some pl.toNat)) e ln with barWait := ln.barWait ++ [n.toNat] }⟩
  | .bararr h n a => some ⟨h, [(a, 1)], [], never, recorded fun e ln => .barArrive n.toNat (e.rd ln a).toNat none⟩
  | .barwt g n => some ⟨⟨true, g⟩, [], [], never, fun _ ln => { ln with barWait := ln.barWait ++ [n.toNat] }⟩
  | _ => none

/-- TILEF, WIN and PAUSE (R197, R199, R200). -/
def workAct : Instr → Option Act
  | .tilef h d px => some ⟨h, [], [(d, 1)], never, fun e ln =>
      { recorded (fun _ ln => .tilef d px.toNat ln.tilef) e ln with tilef := ln.tilef + 1 }⟩
  | .win h n => some ⟨h, [], [], never, fun _ ln => { ln with win := some (16 * n.toNat) }⟩
  | .pause g n => some ⟨⟨true, g⟩, [], [], never, fun _ ln =>
      if n = 0 then ln else { ln with pause := some (16 * n.toNat) }⟩
  | _ => none

/-- The access size of a width code of LD and ST, and the registers that it names (R46, R257). -/
def accessBytes (w : BitVec 3) : Nat := [1, 2, 4, 8, 16, 1].getD w.toNat 16
def accessRegs (w : BitVec 3) : Nat := [1, 1, 1, 2, 4, 1].getD w.toNat 1
/-- A global address: the pair plus the scaled signed offset, modulo 2^64 (R255). -/
def globalEa (e : Env) (ln : Lane) (a : Reg) (off : BitVec 7) (scale : Nat) : Dword :=
  BitVec.ofInt 64 (pairNat e ln a + off.toInt * scale)
/-- A DECK offset, modulo 2^32 (R255). -/
def deckOff (e : Env) (ln : Lane) (a : Reg) (off : BitVec 7) (scale : Nat) : Nat :=
  ((((e.rd ln a).toNat : Int) + off.toInt * scale) % 2 ^ 32).toNat
/-- The first n bytes of the registers from d on, little-endian (R2, R257). -/
def regBytes (e : Env) (ln : Lane) (d : Reg) (n : Nat) : List (Byte × Bool) :=
  (List.range n).map fun k => ((e.rd ln (d + BitVec.ofNat 7 (k / 4)) >>> (8 * (k % 4))).setWidth 8, false)
/-- The bytes that LDD and STD move (R260). -/
def deckBytes (w : BitVec 2) : Nat := [4, 8, 16].getD w.toNat 16
/-- The trap of a DECK access: ILLEGAL-OPERAND when misaligned, SPACE beyond the team's DECK. -/
def deckTrap (e : Env) (o n : Nat) : Option Nat := if o % n ≠ 0 then some 0x22 else if e.t.shape.deck < o + n then some 0x26 else none

/-- LD, ST, LDD, STD and PREF (R254 to R260, R271). -/
def memAct : Instr → Option Act
  | .ld h w d a off => some ⟨h, [(a, 2)], [(d, accessRegs w)],
      fun e ln => if (globalEa e ln a off (accessBytes w)).toNat % accessBytes w ≠ 0 then some 0x22 else none,
      recorded fun e ln => .load (globalEa e ln a off (accessBytes w)) w.toNat d⟩
  | .st h w d a off => some ⟨h, [(a, 2), (d, accessRegs w)], [],
      fun e ln => if (globalEa e ln a off (accessBytes w)).toNat % accessBytes w ≠ 0 then some 0x22 else none,
      recorded fun e ln => .store (globalEa e ln a off (accessBytes w)) (regBytes e ln d (accessBytes w))⟩
  | .ldd h w d a off => some ⟨h, [(a, 1)], [(d, deckBytes w / 4)],
      fun e ln => deckTrap e (deckOff e ln a off (deckBytes w)) (deckBytes w),
      recorded fun e ln => .deckLoad (deckOff e ln a off (deckBytes w)) (deckBytes w) d⟩
  | .std h w d a off => some ⟨h, [(a, 1), (d, deckBytes w / 4)], [],
      fun e ln => deckTrap e (deckOff e ln a off (deckBytes w)) (deckBytes w),
      recorded fun e ln => .deckStore (deckOff e ln a off (deckBytes w)) (regBytes e ln d (deckBytes w))⟩
  | .pref h a off => some ⟨h, [(a, 2)], [], never, recorded fun e ln => .prefetch (globalEa e ln a off 64)⟩
  | _ => none

/-- The scale address of a CP.PLANE (R264): the element address plus the signed offset SOFF of its descriptor. -/
def scaleAt (s : Nat) (desc : Word) : Dword := BitVec.ofInt 64 (s + (desc.extractLsb' 3 29).toInt)
/-- The operands that R264 traps with ILLEGAL-OPERAND: a reserved FMT, an offset where no scale words are, an element address or a PLANE
offset off its multiple, a scale address off its multiple, KEEP of a format that has none. -/
def planeTraps (s o : Nat) (desc : Word) (keep : Bool) : Bool :=
  let fmt := desc.toNat % 8
  decide (fmt = 5 ∨ fmt = 6 ∨ ((fmt = 3 ∨ fmt = 4 ∨ fmt = 7) ∧ desc.toNat / 8 ≠ 0) ∨ (fmt ≤ 4 ∧ (s % 8 ≠ 0 ∨ o % 8 ≠ 0)) ∨
    (fmt ≤ 2 ∧ (scaleAt s desc).toNat % 16 ≠ 0) ∨ (fmt = 7 ∧ (s % 256 ≠ 0 ∨ o % 256 ≠ 0)) ∨ (keep = true ∧ fmt ≤ 4))
/-- The bytes of PLANE that a group takes (R265). -/
def planeBytes (fmt : Nat) : Nat := [40, 56, 80, 32, 64, 0, 0, 256].getD fmt 0

/-- CP.ASYNC, CP.PLANE, CP.OUT, TAGWAIT, TAGGET (R262 to R269). -/
def copyAct : Instr → Option Act
  | .cpAsync h d a tag keep => some ⟨h, [(d, 2), (a, 2)], [],
      fun e ln =>
        let o := (e.rd ln d).toNat
        let v := (e.rd ln (d + 1)).toNat % 64
        let src := pairNat e ln a
        if 32 < v ∨ o % 4 ≠ 0 ∨ (keep = true ∧ (src % 32 ≠ 0 ∨ o % 256 ≠ src % 256 ∨ v ≠ 32)) then some 0x22
        else if e.t.shape.deck < o + 32 then some 0x26 else none,
      recorded fun e ln => .cpAsync (BitVec.ofNat 64 (pairNat e ln a)) (e.rd ln d).toNat ((e.rd ln (d + 1)).toNat % 64) tag.toNat keep⟩
  | .cpPlane h d a tag keep => some ⟨h, [(d, 2), (a, 2)], [],
      fun e ln =>
        let o := (e.rd ln d).toNat
        if planeTraps (pairNat e ln a) o (e.rd ln (d + 1)) keep then some 0x22
        else if e.t.shape.plane < o + planeBytes ((e.rd ln (d + 1)).toNat % 8) then some 0x26 else none,
      recorded fun e ln => .cpPlane (BitVec.ofNat 64 (pairNat e ln a)) (e.rd ln d).toNat ((e.rd ln (d + 1)).toNat % 8)
        (scaleAt (pairNat e ln a) (e.rd ln (d + 1))) tag.toNat keep⟩
  | .cpOut h d a tag => some ⟨h, [(d, 2), (a, 2)], [],
      fun e ln =>
        let o := (e.rd ln d).toNat
        let c := (e.rd ln (d + 1)).toNat % 64
        if 32 < c ∨ o % 4 ≠ 0 then some 0x22 else if e.t.shape.deck < o + c then some 0x26 else none,
      recorded fun e ln => .cpOut (BitVec.ofNat 64 (pairNat e ln a)) (e.rd ln d).toNat ((e.rd ln (d + 1)).toNat % 64) tag.toNat⟩
  | .tagwait g k n => some ⟨⟨true, g⟩, [], [], never, fun _ ln => { ln with tagWait := some (k.toNat, n.toNat) }⟩
  | .tagget h d k => some ⟨h, [], [(d, 1)], never, recorded fun _ _ => .tagGet k.toNat d⟩
  | _ => none

/-- The registers of an ACCUM read format (R272). -/
def accWords (fmt : BitVec 3) : Nat := [1, 1, 4, 4, 4, 2].getD fmt.toNat 4
/-- The traps of ACCRD and ACCWR on the element and the tile (R272). -/
def accTrap (e : Env) (ln : Lane) (a : Reg) (t : BitVec 4) (fmt : BitVec 3) : Option Nat :=
  if 4095 < (e.rd ln a).toNat ∨ (2 ≤ fmt.toNat ∧ fmt.toNat ≤ 4 ∧ (e.rd ln a).toNat % 8 ≠ 0) then some 0x22
  else if e.t.shape.tiles ≤ t.toNat then some 0x26 else none

/-- ACCRD and ACCWR (R272, R273): a write of a bead block with an invalid scale word raises FORMAT. -/
def accAct : Instr → Option Act
  | .accrd h d a t fmt => some ⟨h, [(a, 1)], [(d, accWords fmt)], fun e ln => accTrap e ln a t fmt,
      recorded fun e ln => .accRead (e.rd ln a).toNat t.toNat fmt.toNat d⟩
  | .accwr h d a t fmt => some ⟨h, [(a, 1), (d, accWords fmt)], [],
      fun e ln => (accTrap e ln a t fmt).or
        (if 2 ≤ fmt.toNat ∧ fmt.toNat ≤ 4 ∧ (e.rd ln (d + 2)).toNat % 65536 / 4096 ≠ 0 then some 0x27 else none),
      recorded fun e ln => .accWrite (e.rd ln a).toNat t.toNat fmt.toNat (e.rdGroup ln d (accWords fmt))⟩
  | _ => none

/-- The bytes of an atomic's type (R324): type 2 is N64. -/
def atomSize (ty : BitVec 2) : Nat := if ty = 2 then 8 else 4
/-- The data registers of an atomic: two values for CAS (operation 7), pairs for N64. -/
def atomData (op : BitVec 3) (ty : BitVec 2) : Nat := (if op = 7 then 2 else 1) * (if ty = 2 then 2 else 1)

/-- ATOM, ATOMB, FENCE, LDACQ, STREL and AFLUSH (R322 to R329). -/
def atomAct : Instr → Option Act
  | .atom h op d a ty sc ret => some ⟨h, [(a, 2), (d, atomData op ty)], [],
      fun e ln => if pairNat e ln a % atomSize ty ≠ 0 then some 0x22 else none,
      recorded fun e ln => .atom (BitVec.ofNat 64 (pairNat e ln a)) op.toNat ty.toNat sc.toNat (e.rdGroup ln d (atomData op ty))
        (if ret then some d else none)⟩
  | .atomb h op d a ty sc => some ⟨h, [(a, 2), (d, if ty = 2 then 2 else 1)], [],
      fun e ln => if pairNat e ln a % atomSize ty ≠ 0 then some 0x22 else if ln.hyp ≠ 0 then some 0x24 else none,
      recorded fun e ln => .atomb (BitVec.ofNat 64 (pairNat e ln a)) op.toNat ty.toNat sc.toNat
        (if ty = 2 then pairNat e ln d else (e.rd ln d).toNat)⟩
  | .fence h sc kind => some ⟨h, [], [], never, recorded fun _ _ => .fence sc.toNat kind.toNat⟩
  | .ldacq h d a sc b64 => some ⟨h, [(a, 2)], [(d, if b64 then 2 else 1)],
      fun e ln => if pairNat e ln a % (if b64 then 8 else 4) ≠ 0 then some 0x22 else none,
      recorded fun e ln => .ldacq (BitVec.ofNat 64 (pairNat e ln a)) (if b64 then 8 else 4) sc.toNat d⟩
  | .strel h d a sc b64 => some ⟨h, [(a, 2), (d, if b64 then 2 else 1)], [],
      fun e ln => if pairNat e ln a % (if b64 then 8 else 4) ≠ 0 then some 0x22 else none,
      recorded fun e ln => .strel (BitVec.ofNat 64 (pairNat e ln a)) (regBytes e ln d (if b64 then 8 else 4)) sc.toNat⟩
  | .acqr h a => some ⟨h, [(a, 1)], [],
      fun e ln => if (coreMasts (e.s.ctxD (e.s.launchD e.t.launch).ctx).coreSet).length ≤ (e.rd ln a).toNat then some 0x22 else none,
      recorded fun e ln => .acqr (e.rd ln a).toNat⟩
  | .aflush h => some ⟨h, [], [], never, recorded fun _ _ => .aflush⟩
  | _ => none

/-- The four registers from r on. -/
def four (e : Env) (ln : Lane) (r : Reg) : List Word := [e.rd ln r, e.rd ln (r + 1), e.rd ln (r + 2), e.rd ln (r + 3)]

/-- The difference of a register between two lanes in F32 by RNE; +0 when one is not in the pack (R282). -/
def laneDiff (e : Env) (r : Reg) (i j : Nat) : Word :=
  let val := fun (k : Nat) => (e.p.lanes.find? fun c => c.1 == k).map fun c => e.rd c.2 r
  match val i, val j with
  | some x, some y => BitVec.ofNat 32 (fpSub f32 0 x.toNat y.toNat).1
  | _, _ => 0
/-- The derivatives dudx, dvdx, dudy, dvdy of SAMPLE in lane l of a pixel team (R282): the right pixel less the left one of the lane's
row, the lower pixel less the upper one of its column, u in register a and v in the next. -/
def quadDerivs (e : Env) (a : Reg) (l : Nat) : List Word :=
  let q := 4 * (l / 4)
  let row := if l % 4 < 2 then q else q + 2
  let col := q + l % 2
  [laneDiff e a (row + 1) row, laneDiff e (a + 1) (row + 1) row, laneDiff e a (col + 2) col, laneDiff e (a + 1) (col + 2) col]

/-- SAMPLE, SAMPLEG, SLOAD, HINV, WPIN and WUNPIN (R282, R287, R288, R291). -/
def sampAct : Instr → Option Act
  | .sample h d a slot => some ⟨h, [(a, 4)], [(d, 4)], never, recorded fun e ln =>
      .sample 0 slot.toNat (four e ln a) (if e.t.stage = .pixel then quadDerivs e a (ln.tid % 32) else [0, 0, 0, 0]) d⟩
  | .sampleg h d a slot => some ⟨h, [(a, 8)], [(d, 4)], never,
      recorded fun e ln => .sample 1 slot.toNat (four e ln a) (four e ln (a + 4)) d⟩
  | .sload h d a slot => some ⟨h, [(a, 4)], [(d, 4)], never, recorded fun e ln => .sample 2 slot.toNat (four e ln a) [] d⟩
  | .hinv h slot => some ⟨h, [], [], never, recorded fun _ _ => .hinv slot.toNat⟩
  | .wpin h slot => some ⟨h, [], [], never, recorded fun _ _ => .wpin slot.toNat⟩
  | .wunpin h slot => some ⟨h, [], [], never, recorded fun _ _ => .wunpin slot.toNat⟩
  | _ => none

/-- The HYP class (R343 to R345). -/
def hypAct : Instr → Option Act
  | .hopen h d pf => some ⟨h, [], [(d, 1)], never, recorded fun _ _ => .hopen d pf.toNat⟩
  | .hset h a => some ⟨h, [(a, 1)], [], never, recorded fun e ln => .hset (e.rd ln a)⟩
  | .hget h d => some ⟨h, [], [(d, 1)], never, recorded fun _ _ => .hget d⟩
  | .hconfirm h a => some ⟨h, [(a, 1)], [], never, recorded fun e ln => .hconfirm (e.rd ln a)⟩
  | .hrefute h a => some ⟨h, [(a, 1)], [], never, recorded fun e ln => .hrefute (e.rd ln a)⟩
  | .hstate h d a => some ⟨h, [(a, 1)], [(d, 1)], fun e ln => if 255 < (e.rd ln a).toNat then some 0x22 else none,
      recorded fun e ln => .hstate (e.rd ln a) d⟩
  | .horphan h a => some ⟨h, [(a, 1)], [],
      fun e ln => if e.rd ln a ≠ 0xFFFFFFFF ∧ (e.rd ln a).toNat % 4 ≠ 0 then some 0x22 else none,
      recorded fun e ln => .horphan (e.rd ln a)⟩
  | _ => none

/-- Whether an operation that the lane has recorded is a TASKOUT. -/
def taskouts (ln : Lane) : Nat := ln.ops.countP fun o => match o.op with
  | .taskout _ _ => true
  | _ => false
/-- PAYLOAD and the number of bound targets of the pack's draw. -/
def drawPayload (e : Env) : Nat := (((e.s.launchD e.t.launch).draw).map fun (d : DrawData) => d.payload).getD 0
def boundTargets (e : Env) : Nat := ((((e.s.launchD e.t.launch).draw).map fun (d : DrawData) => d.state).getD [] |>.getD 0x40 0).toNat % 16

/-- The GFX class (R134 to R138): in a team of another stage the word traps ILLEGAL-STAGE. -/
def gfxAct : Instr → Option Act
  | .taskout h a c => some ⟨h, [(a, 1), (c, 1)], [],
      fun e ln =>
        let n := (e.rd ln c).toNat
        let off := (e.rd ln a).toNat
        if e.t.stage ≠ .task then some 0x25
        else if 4096 < n then some 0x22
        else if n = 0 then none
        else if off % 16 ≠ 0 ∨ e.t.shape.deck < off + drawPayload e ∨ 4 ≤ taskouts ln then some 0x22
        else none,
      fun e ln => if (e.rd ln c).toNat = 0 then ln else recorded (fun e ln => .taskout (e.rd ln c).toNat (e.rd ln a).toNat) e ln⟩
  | .vtxout h a slot => some ⟨h, [(a, 4)], [], fun e _ => if e.t.stage ≠ .mesh then some 0x25 else none,
      recorded fun e ln => .vtxout slot.toNat (four e ln a)⟩
  | .primout h a => some ⟨h, [(a, 1)], [],
      fun e ln => if e.t.stage ≠ .mesh then some 0x25 else if 2 ^ 30 ≤ (e.rd ln a).toNat then some 0x22 else none,
      recorded fun e ln => .primout (e.rd ln a)⟩
  | .pixout h a k => some ⟨h, [(a, 4)], [],
      fun e _ => if e.t.stage ≠ .pixel then some 0x25 else if boundTargets e ≤ k.toNat then some 0x22 else none,
      recorded fun e ln => .pixout k.toNat (four e ln a)⟩
  | .kill h => some ⟨h, [], [], fun e _ => if e.t.stage ≠ .pixel then some 0x25 else none, recorded fun _ _ => .kill⟩
  | _ => none

/-! ### Words with a shape of their own -/

/-- SHAPE (R201): the tag's code; its A field is a window name, checked like one. -/
def ShapeResult (h : Hdr) (d : Reg) (a : BitVec 7) : Prop :=
  ∀ s p t, Issued s p t → LaneStep (.shape h d a) s p t h.stop fun _ ln ln' =>
    (Runs ⟨s, t, p⟩ ln h.guard [] [(d, 1), (a, 1)] →
      Wrote ⟨s, t, p⟩ d [BitVec.ofNat 32 (((t.tags.find? fun c => c.1 == (ln.tid / 32, ln.wb + a.toNat)).map (·.2.code)).getD 0)] 0 ln ln') ∧
    (Skips ⟨s, t, p⟩ ln h.guard [] [(d, 1), (a, 1)] → ln' = ln)

/-- The carry of p7 as a number (R210). -/
def carryIn (ln : Lane) : Nat := if predVal ln 7 then 1 else 0

/-- ADDC and SUBB (R210): the word modulo 2^32, and the carry or borrow in p7. -/
def CarryResult (i : Instr) (h : Hdr) (d a b : Reg) (z : Nat → Nat → Nat → Int) (out : Int → Bool) : Prop :=
  ∀ s p t, Issued s p t → LaneStep i s p t h.stop fun _ ln ln' =>
    (Runs ⟨s, t, p⟩ ln h.guard [(a, 1), (b, 1)] [(d, 1)] →
      let x := z (Env.rd ⟨s, t, p⟩ ln a).toNat (Env.rd ⟨s, t, p⟩ ln b).toNat (carryIn ln)
      ∃ mid, Wrote ⟨s, t, p⟩ d [BitVec.ofInt 32 x] 0 ln mid ∧ WrotePred 7 (out x) mid ln') ∧
    (Skips ⟨s, t, p⟩ ln h.guard [(a, 1), (b, 1)] [(d, 1)] → ln' = ln)

/-- What exec of an instruction that writes one predicate does. -/
def PredResult (i : Instr) (v : PredOp) : Prop :=
  ∀ s p t, Issued s p t → LaneStep i s p t v.hdr.stop fun _ ln ln' =>
    (Runs ⟨s, t, p⟩ ln v.hdr.guard v.src [] → WrotePred v.pd (v.val ⟨s, t, p⟩ ln) ln ln') ∧
    (Skips ⟨s, t, p⟩ ln v.hdr.guard v.src [] → ln' = ln)

/-- FCMP (R219): the predicate that the comparison gives, and its flags. -/
def FcmpResult (h : Hdr) (cmp pd : BitVec 3) (a b : Reg) : Prop :=
  ∀ s p t, Issued s p t → LaneStep (.fcmp h cmp pd a b) s p t h.stop fun _ ln ln' =>
    let r := fpCmp f32 cmp (Env.rd ⟨s, t, p⟩ ln a).toNat (Env.rd ⟨s, t, p⟩ ln b).toNat
    (Runs ⟨s, t, p⟩ ln h.guard [(a, 1), (b, 1)] [] →
      ∃ mid, WrotePred pd r.1 ln mid ∧ ln' = { mid with flags := mid.flags ||| r.2 }) ∧
    (Skips ⟨s, t, p⟩ ln h.guard [(a, 1), (b, 1)] [] → ln' = ln)

/-- CVTBD (R227, R228): NF 0 is a reserved value, a list address is a multiple of 8, the block's four words are written, and each
outlier is appended to a list that is not 0. -/
def CvtbdResult (h : Hdr) (d a b : Reg) : Prop :=
  ∀ s p t, Issued s p t → LaneStep (.cvtbd h d a b) s p t h.stop fun _ ln ln' =>
    let e : Env := ⟨s, t, p⟩
    let list := pairNat e ln b
    let bl := beadPack (beadM p.modw.nf.toNat) (e.rd ln (b + 2)).toNat ((List.range 8).map fun k => (e.rd ln (a + BitVec.ofNat 7 k)).toNat)
    (Runs e ln h.guard [(a, 8), (b, 4)] [(d, 4)] →
      (p.modw.nf = 0 → ln' = trapped p 0x03 0 ln) ∧
      (p.modw.nf ≠ 0 → list % 8 ≠ 0 → ln' = trapped p 0x22 0 ln) ∧
      (p.modw.nf ≠ 0 → list % 8 = 0 → ∃ mid,
        Wrote e d [BitVec.ofNat 32 bl.stream, BitVec.ofNat 32 (bl.stream / 2 ^ 32), BitVec.ofNat 32 bl.scale,
          BitVec.ofNat 32 bl.outliers.length] bl.flags ln mid ∧
        ln' = { mid with ops := mid.ops ++ if list = 0 then [] else bl.outliers.map fun o =>
          ⟨p.pc, .append (BitVec.ofNat 64 list) (BitVec.ofNat 32 ((e.rd ln (b + 3)).toNat * 8 + o.1)) (BitVec.ofNat 32 o.2)⟩ })) ∧
    (Skips e ln h.guard [(a, 8), (b, 4)] [(d, 4)] → ln' = ln)

/-- RNGS (R84, R229): the word of the draw, and the counter one on; an advance to 0 sets WRAP. -/
def RngsResult (i : Instr) (h : Hdr) (d : Reg) (half : Dword → Word) : Prop :=
  ∀ s p t, Issued s p t → LaneStep i s p t h.stop fun _ ln ln' =>
    let e : Env := ⟨s, t, p⟩
    let seed : Dword := if t.stage = .compute then (s.launchD t.launch).seed
      else (((s.launchD t.launch).draw.map (·.seed)).getD 0) ^^^ BitVec.ofNat 64 (stageCode t.stage * 2 ^ 32)
    let key : Dword := (seed >>> 32).setWidth 32 ++ BitVec.ofNat 32 (t.num * t.shape.tsize + ln.tid)
    (Runs e ln h.guard [] [(d, 1)] → ∃ mid, Wrote e d [half (fjopomo key (ln.rngs.setWidth 64))] 0 ln mid ∧
      ln' = { mid with rngs := mid.rngs + 1, wrap := mid.wrap || mid.rngs == 0xFFFFFFFF }) ∧
    (Skips e ln h.guard [] [(d, 1)] → ln' = ln)

/-- The tree of R79 over 2^k leaves from leaf 2^k × i. -/
def treeAt {α : Type} (f : α → α → α) (x : Nat → α) : Nat → Nat → α
  | 0, i => x i
  | k + 1, i => f (treeAt f x k (2 * i)) (treeAt f x k (2 * i + 1))

/-- RED (R192): the root of the tree in every present and active lane, EMPTY in every lane of the pack. -/
def RedResult (h : Hdr) (op : BitVec 3) (ty : BitVec 2) (d a : Reg) (pe : BitVec 2) : Prop :=
  ∀ s p t, Issued s p t → LaneStep (.red h op ty d a pe) s p t h.stop fun _ ln ln' =>
    let e : Env := ⟨s, t, p⟩
    let r := treeAt (redOp op.toNat ty.toNat) (fun l => (redOperands e h.guard op.toNat ty.toNat a).getD l (0, 0)) 5 0
    (Runs e ln h.guard [(a, 1)] [(d, 1)] → ∃ mid, Wrote e d [BitVec.ofNat 32 r.1] r.2 ln mid ∧
      WrotePred (pe.setWidth 3) (actives p h.guard).isEmpty mid ln') ∧
    (Skips e ln h.guard [(a, 1)] [(d, 1)] → WrotePred (pe.setWidth 3) (actives p h.guard).isEmpty ln ln')

/-- RED.ADD of integers (R78, R192): the sum over the present and active lanes modulo 2^32, whatever the tree. -/
def RedAddResult (h : Hdr) (ty : BitVec 2) (d a : Reg) (pe : BitVec 2) : Prop :=
  ∀ s p t, Issued s p t → (p.lanes.map (·.1)).Nodup → (∀ c ∈ p.lanes, c.1 < 32) →
    LaneStep (.red h 0 ty d a pe) s p t h.stop fun _ ln ln' =>
      Runs ⟨s, t, p⟩ ln h.guard [(a, 1)] [(d, 1)] → d.toNat < 112 →
        Env.rd ⟨s, t, p⟩ ln' d = BitVec.ofNat 32 ((actives p h.guard).map fun c => (Env.rd ⟨s, t, p⟩ c.2 a).toNat).sum

/-- CALL (R183): the return address in d and the target as the next block; a misaligned target traps. -/
def CallResult (d a : Reg) : Prop :=
  ∀ s p t, Issued s p t → LaneStep (.call d a) s p t true fun _ ln ln' =>
    let e : Env := ⟨s, t, p⟩
    InRange e ln [(a, 1), (d, 1)] → Clean ln [(a, 1)] →
      ∃ mid, Wrote e d [BitVec.ofNat 32 (p.pc + 4)] 0 ln mid ∧
        ln' = if (e.rd ln a).toNat % 4 = 0 then { mid with next := some (e.rd ln a).toNat } else trapped p 0x22 0 mid

/-- MODW (R44): it changes no lane; the next word has its fields in force. -/
def ModwResult (rm : BitVec 2) (alt : Bool) (fill nf : BitVec 2) : Prop :=
  ∀ s p t, Issued s p t →
    exec (.modw rm alt fill nf) s =
      .next { s with
        issue := none
        flight := putBy (fun x => x.id == p.id)
          (({ p with pc := (p.pc + 4) % 2 ^ 32, modw := ⟨rm, alt, fill, nf⟩ } : Pack).collect t) s.flight }

/-- The lowest present and active lane. -/
def lowest (p : Pack) (g : BitVec 2) : Option Nat := ((actives p g).head?).map (·.1)

/-- MX.ISSUE and MX.ZERO (R168, R257, R302 to R304): a name out of range traps in every lane; else the lowest present and active lane acts,
and no other. -/
def SingleResult (i : Instr) (h : Hdr) (src : Names) (trap : Env → Lane → Option Nat) (op : Env → Lane → MemOp) : Prop :=
  ∀ s p t, Issued s p t → LaneStep i s p t h.stop fun l ln ln' =>
    let e : Env := ⟨s, t, p⟩
    (¬InRange e ln src → ln' = trapped p 0x23 0 ln) ∧
    (InRange e ln src →
      (lowest p h.guard = some l → Clean ln src → ln' = match trap e ln with
        | some c => trapped p c 0 ln
        | none => recorded op e ln) ∧
      (lowest p h.guard = some l → ¬Clean ln src → ln'.poisonAt = ln.poisonAt.or (some (p.pc, none))) ∧
      (lowest p h.guard ≠ some l → ln' = ln))

/-- SMMA (R292 to R294): format words that differ between the lanes raise FORMAT-DIVERGENCE, a code that names no formats raises
ILLEGAL-OPERAND, and else each lane's eight results of the product are recorded for the array. -/
def SmmaResult (h : Hdr) (d a f : Reg) : Prop :=
  ∀ s p t, Issued s p t → LaneStep (.smma h d a f) s p t h.stop fun l ln ln' =>
    let e : Env := ⟨s, t, p⟩
    let fs := (actives p h.guard).map fun c => (e.rd c.2 f).toNat
    let fw := fs.headD 0
    let rs := smmaOf fw (e.smmaArea h.guard a) (e.smmaArea h.guard (a + 4)) (e.smmaAcc h.guard d)
    (Runs e ln h.guard [(a, 8), (d, 8), (f, 1)] [] → (l, ln) ∈ p.lanes →
      ln' = if ∃ x ∈ fs, x ≠ fw then trapped p 0x28 0 ln
        else if smmaFmtOk fw = false then trapped p 0x22 0 ln
        else { recorded (fun _ _ => .smma d (((rs.drop (8 * l)).take 8).map fun r => BitVec.ofNat 32 r.1)) e ln with
          flags := ln.flags ||| rs.foldl (fun x r => x ||| r.2) 0 }) ∧
    (Skips e ln h.guard [(a, 8), (d, 8), (f, 1)] [] → ln' = ln)

/-- PATLD (R195). With no lane present and active nothing changes. A misaligned address of the lowest present and active lane traps in
every active lane. Else the pattern there picks each lane's source, a lane notes the consumption of a poisoned pattern, and, with no
CP.OUT of the team in flight, the machine's state changes in its caches alone. A name out of range traps in its lane, and a lane notes a
marked register that it reads. -/
def PatldResult (h : Hdr) (d a b : Reg) : Prop :=
  ∀ s p t, Issued s p t →
    let e : Env := ⟨s, t, p⟩
    let runs := fun (ln : Lane) => Runs e ln h.guard [(a, 1), (b, 2)] [(d, 1)]
    let skips := fun (ln : Lane) => Skips e ln h.guard [(a, 1), (b, 2)] [(d, 1)]
    let outside := fun (ln ln' : Lane) => ¬InRange e ln [(a, 1), (b, 2), (d, 1)] → ln' = trapped p 0x23 0 ln
    (actives p h.guard = [] → LaneStep (.patld h d a b) s p t h.stop fun _ ln ln' => (skips ln → ln' = ln) ∧ outside ln ln') ∧
    (∀ low x rest, actives p h.guard = (low, x) :: rest → pairNat e x b % 32 ≠ 0 →
      LaneStep (.patld h d a b) s p t h.stop fun _ ln ln' =>
        (runs ln → ln' = trapped p 0x22 0 ln) ∧ (skips ln → ln' = ln) ∧ outside ln ln') ∧
    (∀ low x rest, actives p h.guard = (low, x) :: rest → pairNat e x b % 32 = 0 → (∀ y ∈ s.asyncs, y.team = p.team → y.isOut = false) →
      let ea := pairNat e x b
      let r := s.pattern p.mast e.ctx x.hyp ea
      ∃ p' : Pack,
        exec (.patld h d a b) s =
          .next { r.1 with issue := none, flight := putBy (fun y => y.id == p'.id) p' r.1.flight } ∧ Advanced t p p' h.stop ∧
        r.1.mem = s.mem ∧ r.1.poison = s.poison ∧ r.1.teams = s.teams ∧ r.1.flight = s.flight ∧ r.1.launches = s.launches ∧
        r.1.ctxs = s.ctxs ∧ r.1.queues = s.queues ∧
        List.Forall₂ (fun c c' => c'.1 = c.1 ∧
          (runs c.2 → ∃ mid,
            Wrote e d [takes e h.guard a b c.2 (if 31 < (r.2.bytes.getD c.1 0).toNat then none else some (r.2.bytes.getD c.1 0).toNat)] 0
              (if r.2.bad then { c.2 with poisonAt := c.2.poisonAt.or (some (p.pc, some ea)) } else c.2) mid ∧
            c'.2 = recorded (fun _ _ => .patRead (BitVec.ofNat 64 ea) r.2.fault) e mid) ∧
          (skips c.2 → c'.2 = c.2) ∧ outside c.2 c'.2 ∧
          (InRange e c.2 [(a, 1), (b, 2), (d, 1)] → GuardOn c.2 h.guard → ¬Clean c.2 (if c.1 = low then [(a, 1), (b, 2)] else [(a, 1)]) →
            c'.2.poisonAt = c.2.poisonAt.or (some (p.pc, none)))) p.lanes p'.lanes)

/-- The rational number that F32 bits of a finite value stand for (R59). -/
def f32Val (x : Word) : ℚ :=
  let sign : ℚ := if x.getLsbD 31 then -1 else 1
  let e : Nat := x.toNat / 2 ^ 23 % 2 ^ 8
  let f : Nat := x.toNat % 2 ^ 23
  sign * if e = 0 then (f : ℚ) / 2 ^ 149 else ((2 ^ 23 + f : Nat) : ℚ) * 2 ^ e / 2 ^ 150
/-- F32 bits of a finite value. -/
def f32Finite (x : Word) : Prop := x.toNat / 2 ^ 23 % 2 ^ 8 ≠ 255

/-- A finite F32 nearest to a number, with an even significand where two values are equally near (R60). -/
def Nearest (x : Word) (z : ℚ) : Prop :=
  f32Finite x ∧ ∀ y, f32Finite y → |f32Val x - z| ≤ |f32Val y - z| ∧
    (f32Val y ≠ f32Val x → |f32Val x - z| = |f32Val y - z| → x.toNat % 2 = 0)
/-- The largest finite F32. -/
def f32Max : ℚ := 2 ^ 128 - 2 ^ 104
/-- The value of a finite F16 (R59). -/
def f16Val (x : Nat) : ℚ :=
  let f : Nat := x % 2 ^ 10
  let e : Nat := x / 2 ^ 10 % 2 ^ 5
  (if Nat.testBit x 15 then (-1 : ℚ) else 1) * if e = 0 then (f : ℚ) / 2 ^ 24 else ((2 ^ 10 + f : Nat) : ℚ) * 2 ^ e / 2 ^ 25
/-- A NaN and a signalling NaN (R59). -/
def f32Nan (x : Word) : Prop := 0x7F800000 < x.toNat % 2 ^ 31
def f32Sig (x : Word) : Prop := f32Nan x ∧ x.getLsbD 22 = false
/-- The order of the values that are no NaN, −0 below +0 (R64). -/
def f32Ord (x : Word) : Int := if x.getLsbD 31 then -((x.toNat % 2 ^ 31 : Nat) : Int) - 1 else ((x.toNat % 2 ^ 31 : Nat) : Int)
/-- The number by which a value that is no NaN is compared: the two zeros are equal (R219). -/
def f32Key (x : Word) : Int := if x.getLsbD 31 then -((x.toNat % 2 ^ 31 : Nat) : Int) else ((x.toNat % 2 ^ 31 : Nat) : Int)
/-- k is z rounded to an integer: to nearest with ties to even, toward zero, down, up (R46, R60). -/
def RoundsTo (mode : Mode) (z : ℚ) (k : Int) : Prop :=
  (mode = 0 ∧ |(k : ℚ) - z| ≤ 1 / 2 ∧ (|(k : ℚ) - z| = 1 / 2 → k % 2 = 0)) ∨ (mode = 1 ∧ |(k : ℚ)| ≤ |z| ∧ |z| < |(k : ℚ)| + 1 ∧ 0 ≤ (k : ℚ) * z) ∨
  (mode = 2 ∧ (k : ℚ) ≤ z ∧ z < k + 1) ∨ (mode = 3 ∧ (k : ℚ) - 1 < z ∧ z ≤ k)

/-- The comparisons of R46 as R219 has them, apart from the model's arithmetic: −0 equals +0, a NaN is unordered, and a signalling NaN
alone raises NV. -/
def CompareFacts : Prop :=
  ∀ (cmp : BitVec 3) (a b : Word),
    let r := fpCmp f32 cmp a.toNat b.toNat
    (¬f32Nan a → ¬f32Nan b → (r.1 = true ↔ [f32Key a = f32Key b, f32Key a ≠ f32Key b, f32Key a < f32Key b, f32Key a ≤ f32Key b,
      f32Key b < f32Key a, f32Key b ≤ f32Key a, True, False].getD cmp.toNat False)) ∧
    (f32Nan a ∨ f32Nan b → (r.1 = true ↔ cmp = 1 ∨ cmp = 7)) ∧
    (f32Sig a ∨ f32Sig b → r.2 = 1) ∧ (¬f32Sig a → ¬f32Sig b → r.2 = 0)

/-- The value of the bits of a format with eb exponent and fb fraction bits (R59), and whether they are a finite value. -/
def binVal (eb fb x : Nat) : ℚ :=
  let e := x / 2 ^ fb % 2 ^ eb
  let f := x % 2 ^ fb
  (if Nat.testBit x (eb + fb) then (-1 : ℚ) else 1) * (if e = 0 then (f : ℚ) else ((2 ^ fb + f : Nat) : ℚ) * 2 ^ (e - 1)) /
    2 ^ (2 ^ (eb - 1) - 2 + fb)
def binFinite (eb fb x : Nat) : Prop := x < 2 ^ (eb + fb + 1) ∧ x / 2 ^ fb % 2 ^ eb ≠ 2 ^ eb - 1
/-- The largest finite value and the smallest normal one. -/
def binMax (eb fb : Nat) : ℚ := ((2 ^ (fb + 1) - 1 : Nat) : ℚ) * 2 ^ (2 ^ eb - 3) / 2 ^ (2 ^ (eb - 1) - 2 + fb)
def binTiny (eb : Nat) : ℚ := 1 / 2 ^ (2 ^ (eb - 1) - 2)
/-- x is the finite value that z rounds to (R60): the nearest, with an even significand where two are equally near; the largest toward
zero; the largest that is not above; the smallest that is not below. -/
def RoundsIn (eb fb : Nat) (mode : Mode) (z : ℚ) (x : Nat) : Prop :=
  let v := binVal eb fb
  binFinite eb fb x ∧ ∀ y, binFinite eb fb y →
    (mode = 0 → |v x - z| ≤ |v y - z| ∧ (v y ≠ v x → |v x - z| = |v y - z| → x % 2 = 0)) ∧
    (mode = 1 → |v x| ≤ |z| ∧ 0 ≤ v x * z ∧ (0 ≤ v y * z → |v y| ≤ |z| → |v y| ≤ |v x|)) ∧
    (mode = 2 → v x ≤ z ∧ (v y ≤ z → v y ≤ v x)) ∧
    (mode = 3 → z ≤ v x ∧ (z ≤ v y → v x ≤ v y))
/-- z is tiny after rounding (R63): rounded to fb + 1 bits with an unbounded exponent it is not zero and below the smallest normal value;
g is the value of that precision just below it. -/
def TinyIn (eb fb : Nat) (mode : Mode) (z : ℚ) : Prop :=
  let n := binTiny eb
  let g := n - n / 2 ^ (fb + 1)
  z ≠ 0 ∧ |z| < n ∧ (g < |z| → (mode = 0 → |z| < (g + n) / 2) ∧ (mode = 2 → 0 < z) ∧ (mode = 3 → z < 0))
/-- A result of an exact value z in a format, with its flags (R60, R63): z rounded in the mode, NX where that is not z, UF beside it
where z is tiny too; past the largest finite value what R60 delivers, with NX, and with OF where the rounded magnitude exceeds it. -/
def RoundedResult (eb fb : Nat) (mode : Mode) (z : ℚ) (r : Nat × BitVec 5) : Prop :=
  let top : ℚ := 2 ^ (2 ^ (eb - 1))
  let away := (mode = 0 ∧ binMax eb fb + (top - binMax eb fb) / 2 ≤ |z|) ∨ (mode = 2 ∧ z < 0) ∨ (mode = 3 ∧ 0 < z)
  let inf := 2 ^ fb * (2 ^ eb - 1)
  let sign := if z < 0 then 2 ^ (eb + fb) else 0
  (|z| ≤ binMax eb fb → RoundsIn eb fb mode z r.1 ∧ (z ≠ 0 → (Nat.testBit r.1 (eb + fb) = true ↔ z < 0)) ∧
    (binVal eb fb r.1 = z → r.2 = 0) ∧ (binVal eb fb r.1 ≠ z → (TinyIn eb fb mode z → r.2 = 24) ∧ (¬TinyIn eb fb mode z → r.2 = 16))) ∧
  (binMax eb fb < |z| → (away → r = (inf + sign, 20)) ∧
    (¬away → r = (inf - 1 + sign, if top ≤ |z| then 20 else 16)))
/-- Sums, differences, products and fused results of finite values of F32, F16 and BF16 in every mode, apart from the model's
arithmetic. -/
def RoundingFacts : Prop :=
  ∀ (f : Fmt) (eb fb : Nat), (f, eb, fb) ∈ [(f32, 8, 23), (f16, 5, 10), (bf16, 8, 7)] → ∀ (mode : Mode) (a b d : Nat),
    binFinite eb fb a → binFinite eb fb b → binFinite eb fb d →
    let v := binVal eb fb
    RoundedResult eb fb mode (v a + v b) (fpAdd f mode a b) ∧ RoundedResult eb fb mode (v a - v b) (fpSub f mode a b) ∧
    RoundedResult eb fb mode (v a * v b) (fpMul f mode a b) ∧
    ∀ negP negD, RoundedResult eb fb mode ((if negP then -1 else 1) * (v a * v b) + (if negD then -1 else 1) * v d) (fpFma f mode negP negD a b d)

/-- Values of FMIN, FMAX and FRND, the NaN and zero results of the arithmetic, and the worked example of R223, apart from the
model's own arithmetic. A flag word has NV at bit 0, DZ 1, OF 2, UF 3 and NX 4. -/
def FloatFacts : Prop :=
  (∀ mx (a b : Word), ((fpMinMax f32 mx a.toNat b.toNat).2 = 0 ∨ (fpMinMax f32 mx a.toNat b.toNat).2 = 1) ∧
    ((fpMinMax f32 mx a.toNat b.toNat).2 = 1 ↔ f32Sig a ∨ f32Sig b) ∧
    (f32Nan a → f32Nan b → (fpMinMax f32 mx a.toNat b.toNat).1 = 0x7FC00000) ∧
    (f32Nan a → ¬f32Nan b → (fpMinMax f32 mx a.toNat b.toNat).1 = b.toNat) ∧
    (¬f32Nan a → f32Nan b → (fpMinMax f32 mx a.toNat b.toNat).1 = a.toNat) ∧
    (¬f32Nan a → ¬f32Nan b → (fpMinMax f32 mx a.toNat b.toNat).1 =
      (if f32Ord a < f32Ord b then (if mx then b else a) else (if mx then a else b)).toNat)) ∧
  (∀ mode (a : Word),
    (f32Nan a → (fpRnd f32 mode a.toNat).1 = 0x7FC00000 ∧ ((fpRnd f32 mode a.toNat).2 = 0 ∨ (fpRnd f32 mode a.toNat).2 = 1) ∧
      ((fpRnd f32 mode a.toNat).2 = 1 ↔ f32Sig a)) ∧
    (¬f32Nan a → ¬f32Finite a → fpRnd f32 mode a.toNat = (a.toNat, 0)) ∧
    (f32Finite a → ∃ (r : Word) (k : Int), fpRnd f32 mode a.toNat = (r.toNat, 0) ∧ f32Finite r ∧ r.getLsbD 31 = a.getLsbD 31 ∧
      f32Val r = k ∧ RoundsTo mode (f32Val a) k)) ∧
  (∀ mode (a b : Word), f32Nan a ∨ f32Nan b → ∀ r ∈ [fpAdd f32 mode a.toNat b.toNat, fpSub f32 mode a.toNat b.toNat, fpMul f32 mode a.toNat b.toNat],
    r.1 = 0x7FC00000 ∧ (r.2 = 0 ∨ r.2 = 1) ∧ (r.2 = 1 ↔ f32Sig a ∨ f32Sig b)) ∧
  (∀ mode negP negD (a b d : Word), f32Nan a ∨ f32Nan b ∨ f32Nan d → (fpFma f32 mode negP negD a.toNat b.toNat d.toNat).1 = 0x7FC00000) ∧
  (∀ mode negP negD (d : Word), fpFma f32 mode negP negD 0 0x7F800000 d.toNat = (0x7FC00000, 1)) ∧
  (∀ mode, fpAdd f32 mode 0x7F800000 0xFF800000 = (0x7FC00000, 1) ∧ fpMul f32 mode 0 0x7F800000 = (0x7FC00000, 1) ∧
    fpAdd f32 mode 0x80000000 0x80000000 = (0x80000000, 0) ∧ fpFma f32 mode false false 0x80000000 0x3F800000 0x80000000 = (0x80000000, 0) ∧
    fpFma f32 mode false false 0 0x3F800000 0 = (0, 0) ∧
    fpFma f32 mode false false 0 0x3F800000 0x80000000 = (if mode = 2 then 0x80000000 else 0, 0)) ∧
  fpMul f32 0 0x3F800800 0x3F800800 = (0x3F801000, 16) ∧ fpFma f32 0 false true 0x3F800800 0x3F800800 0x3F801000 = (0x33800000, 0)

/-- The special inputs of R222, the exact results of R221, and reciprocals and roots nearest to the exact ones. -/
def SpecialFacts : Prop :=
  [fpRcp 0, fpRcp 0x80000000, fpRcp 0x7F800000, fpRcp 0xFF800000] = [(0x7F800000, 2), (0xFF800000, 2), (0, 0), (0x80000000, 0)] ∧
  [fpRsq 0, fpRsq 0x80000000, fpRsq 0x7F800000, fpRsq 0xFF800000] = [(0x7F800000, 2), (0xFF800000, 2), (0, 0), (0x7FC00000, 1)] ∧
  [fpSqrt 0, fpSqrt 0x80000000, fpSqrt 0x7F800000, fpSqrt 0xFF800000] = [(0, 0), (0x80000000, 0), (0x7F800000, 0), (0x7FC00000, 1)] ∧
  [fpExp2 0, fpExp2 0x80000000, fpExp2 0x7F800000, fpExp2 0xFF800000] = [(0x3F800000, 0), (0x3F800000, 0), (0x7F800000, 0), (0, 0)] ∧
  [fpLog2 0, fpLog2 0x80000000, fpLog2 0x7F800000, fpLog2 0xFF800000] = [(0xFF800000, 2), (0xFF800000, 2), (0x7F800000, 0), (0x7FC00000, 1)] ∧
  [fpSinPi 0, fpSinPi 0x80000000, fpSinPi 0x7F800000, fpSinPi 0xFF800000] = [(0, 0), (0x80000000, 0), (0x7FC00000, 1), (0x7FC00000, 1)] ∧
  [fpCosPi 0, fpCosPi 0x80000000, fpCosPi 0x7F800000, fpCosPi 0xFF800000] = [(0x3F800000, 0), (0x3F800000, 0), (0x7FC00000, 1), (0x7FC00000, 1)] ∧
  (∀ a : Word, f32Nan a → ∀ f ∈ [fpRcp, fpRsq, fpSqrt, fpExp2, fpLog2, fpSinPi, fpCosPi],
    (f a.toNat).1 = 0x7FC00000 ∧ (f32Sig a → (f a.toNat).2 = 1) ∧ (¬f32Sig a → (f a.toNat).2 = 0)) ∧
  (∀ a : Word, f32Finite a → f32Val a < 0 → fpRsq a.toNat = (0x7FC00000, 1) ∧ fpSqrt a.toNat = (0x7FC00000, 1) ∧ fpLog2 a.toNat = (0x7FC00000, 1)) ∧
  (∀ (a : Word) (n : Int), f32Finite a → f32Val a = n → n ≠ 0 → fpSinPi a.toNat = (if 0 < n then 0 else 0x80000000, 0) ∧
    fpCosPi a.toNat = (if n % 2 = 0 then 0x3F800000 else 0xBF800000, 0)) ∧
  (∀ (a : Word) (n : Int), f32Finite a → f32Val a = n + 1 / 2 → fpCosPi a.toNat = (0, 0) ∧
    fpSinPi a.toNat = (if n % 2 = 0 then 0x3F800000 else 0xBF800000, 0)) ∧
  (∀ (a : Word) (n : Int), f32Finite a → f32Val a = n → -149 ≤ n → n ≤ 127 →
    ∃ r : Word, fpExp2 a.toNat = (r.toNat, 0) ∧ f32Finite r ∧ f32Val r = (2 : ℚ) ^ n) ∧
  (∀ (a : Word) (n : Int), f32Finite a → f32Val a = (2 : ℚ) ^ n → ∃ r : Word, fpLog2 a.toNat = (r.toNat, 0) ∧ f32Finite r ∧ f32Val r = n) ∧
  (∀ a : Word, f32Finite a → f32Val a ≠ 0 →
    (|(f32Val a)⁻¹| < 2 ^ 128 - 2 ^ 103 → ∃ r : Word, (fpRcp a.toNat).1 = r.toNat ∧ Nearest r (f32Val a)⁻¹) ∧
    (2 ^ 128 - 2 ^ 103 ≤ |(f32Val a)⁻¹| → fpRcp a.toNat = (if a.getLsbD 31 then 0xFF800000 else 0x7F800000, 20))) ∧
  (∀ a : Word, f32Finite a → 0 < f32Val a →
    (∃ r : Word, (fpSqrt a.toNat).1 = r.toNat ∧ f32Finite r ∧ ∀ y, f32Finite y → 0 ≤ f32Val y →
      (f32Val y < f32Val r → ((f32Val y + f32Val r) / 2) ^ 2 ≤ f32Val a) ∧ (f32Val r < f32Val y → f32Val a ≤ ((f32Val y + f32Val r) / 2) ^ 2)) ∧
    (∃ r : Word, (fpRsq a.toNat).1 = r.toNat ∧ f32Finite r ∧ ∀ y, f32Finite y → 0 ≤ f32Val y →
      (f32Val y < f32Val r → ((f32Val y + f32Val r) / 2) ^ 2 * f32Val a ≤ 1) ∧
      (f32Val r < f32Val y → 1 ≤ ((f32Val y + f32Val r) / 2) ^ 2 * f32Val a)))

/-- The 32 bits and the flags of a CVT. -/
def cvt32 (src : Nat) (alt : Bool) (dst : Nat) (mode : Mode) (x : Nat) : Word × Flags :=
  ((cvtOf src alt dst mode x).1.setWidth 32, (cvtOf src alt dst mode x).2)
/-- The worked tables of R67 and R225 and the rules of R65 for 32-bit integers, F32 and F16; SPK (R226). The type codes are those of
R46 and the source codes those of R224. -/
def ConvertFacts : Prop :=
  [cvt32 4 false 0 0 0xC0200000, cvt32 4 false 0 2 0xC0200000, cvt32 4 false 0 1 0x4F32D05E, cvt32 4 false 1 1 0x4F32D05E,
    cvt32 4 false 4 0 0x7FC00000, cvt32 0 false 4 0 300, cvt32 0 false 11 0 1000, cvt32 7 true 8 0 0x7D] =
    [(0xFFFFFFFE, 16), (0xFFFFFFFD, 16), (0x7FFFFFFF, 1), (0xB2D05E00, 0), (0, 1), (0x2C, 0), (0x7E, 20), (0x7FC00000, 1)] ∧
  [cvt32 4 false 11 0 0x447A0000, cvt32 4 false 11 0 0x3E99999A, cvt32 4 false 11 0 0x80000000, cvt32 4 false 11 0 0xFF800000,
    cvt32 4 false 11 0 0x7F800001] = [(0x7E, 20), (0x2A, 16), (0x80, 0), (0xFE, 1), (0x7F, 1)] ∧
  [cvt32 4 false 12 0 0x447A0000, cvt32 4 false 12 0 0x3E99999A, cvt32 4 false 12 0 0x80000000, cvt32 4 false 12 0 0xFF800000,
    cvt32 4 false 12 0 0x7F800001] = [(0x64, 16), (0x35, 16), (0x80, 0), (0xFC, 0), (0x7E, 1)] ∧
  (∀ alt (x : Word), cvtOf 0 alt 3 0 x.toNat = (x.signExtend 64, 0) ∧ cvtOf 1 alt 2 0 x.toNat = (x.setWidth 64, 0) ∧
    cvt32 0 alt 4 0 x.toNat = ((x.setWidth 8).signExtend 32, 0)) ∧
  (∀ alt (x : Dword), cvt32 3 alt 0 0 x.toNat = (x.setWidth 32, 0)) ∧
  (∀ alt mode (x : Word) (k : Int), f32Finite x → RoundsTo mode (f32Val x) k → cvt32 4 alt 0 mode x.toNat =
    if k < -2 ^ 31 then (0x80000000, 1) else if 2 ^ 31 ≤ k then (0x7FFFFFFF, 1)
    else (BitVec.ofInt 32 k, if (k : ℚ) = f32Val x then 0 else 16)) ∧
  (∀ alt (x : Word), Nearest (cvt32 0 alt 8 0 x.toNat).1 x.toInt ∧
    (cvt32 0 alt 8 0 x.toNat).2 = if f32Val (cvt32 0 alt 8 0 x.toNat).1 = x.toInt then 0 else 16) ∧
  (∀ alt mode x, x < 2 ^ 16 → x / 2 ^ 10 % 2 ^ 5 ≠ 31 → (cvt32 5 alt 8 mode x).2 = 0 ∧ f32Finite (cvt32 5 alt 8 mode x).1 ∧
    f32Val (cvt32 5 alt 8 mode x).1 = f16Val x) ∧
  (∀ x : List Nat, x.length = 4 → (∀ n ∈ x, n < 2 ^ 16) → ∃ p q, p < q ∧ q < 4 ∧
    spkOf x = (x.getD p 0 + 65536 * x.getD q 0, p + 4 * q) ∧
    ∀ i j, i = p ∨ i = q → j < 4 → j ≠ p → j ≠ q → x.getD j 0 % 2 ^ 15 < x.getD i 0 % 2 ^ 15 ∨
      (x.getD j 0 % 2 ^ 15 = x.getD i 0 % 2 ^ 15 ∧ i < j)) ∧
  spkOf [0x4000, 0xC000, 0x3C00, 0x4200] = (0x42004000, 0xC)

/-- The conversion of eight F32 values into a bead block of m-bit magnitudes under the limit el, and its example (R73, R74). -/
def BeadFacts (m el : Nat) (xs : List Word) : Prop :=
  let bl := beadPack m el (xs.map (·.toNat))
  let x := fun (i : Nat) => xs.getD i 0
  let v := fun (i : Nat) => |f32Val (x i)|
  let lim := if el % 256 = 255 then 254 else el % 256
  let E := bl.scale % 256
  let mu := fun (i : Nat) => bl.scale / 2 ^ (8 + i / 2) % 2
  let q := fun (i : Nat) => (2 : ℚ) ^ ((E : Int) - 127 - mu i - (m - 1))
  let out := fun (i : Nat) => (2 : ℚ) ^ ((E : Int) - 126) ≤ v i
  let el := fun (i : Nat) => bl.stream / 2 ^ ((m + 1) * i) % 2 ^ (m + 1)
  xs.length = 8 → m ∈ [2, 4, 7] →
  ((∃ i, i < 8 ∧ f32Nan (x i)) → bl = ⟨0, 0x00FF, [], 1⟩) ∧
  ((∀ i, i < 8 → ¬f32Nan (x i)) →
    E ≤ lim ∧ (E < lim → ∀ i, i < 8 → f32Finite (x i) → v i < (2 : ℚ) ^ ((E : Int) - 126)) ∧
    (0 < E → ∃ i, i < 8 ∧ f32Finite (x i) ∧ (2 : ℚ) ^ ((E : Int) - 127) ≤ v i) ∧ bl.scale < 2 ^ 12 ∧ bl.stream < 2 ^ (8 * (m + 1)) ∧
    (∀ i, i < 8 → (mu i = 1 ↔ ∀ k, k < 8 → k / 2 = i / 2 → out k ∨ v k < (2 : ℚ) ^ ((E : Int) - 127))) ∧
    (∀ i, i < 8 → out i → el i = 0) ∧
    (∀ i, i < 8 → ¬out i → (el i).testBit m = (x i).getLsbD 31 ∧ ∃ g : Nat, |v i / q i - g| ≤ 1 / 2 ∧ (|v i / q i - g| = 1 / 2 → g % 2 = 0) ∧
      el i % 2 ^ m = min g (2 ^ m - 1)) ∧
    (bl.outliers.map (·.1)).Pairwise (· < ·) ∧ (∀ i n, (i, n) ∈ bl.outliers ↔ i < 8 ∧ out i ∧ n = (x i).toNat) ∧
    (bl.flags = 0 ∨ bl.flags = 16) ∧ (bl.flags = 16 ↔ ∃ i, i < 8 ∧ ¬out i ∧ ((el i % 2 ^ m : Nat) : ℚ) * q i ≠ v i))

/-- Element values of SMMA: E4M3, and MXF4 under an E8M0 scale (R66, R68). -/
def e4m3Val (x : Nat) : ℚ :=
  let e := x / 2 ^ 3 % 2 ^ 4
  (if Nat.testBit x 7 then (-1 : ℚ) else 1) * if e = 0 then ((x % 8 : Nat) : ℚ) / 2 ^ 9 else ((8 + x % 8 : Nat) : ℚ) * 2 ^ e / 2 ^ 10
def mxf4Val (x scale : Nat) : ℚ :=
  (if Nat.testBit x 3 then (-1 : ℚ) else 1) * ([0, 1 / 2, 1, 3 / 2, 2, 3, 4, 6].getD (x % 8) 0) * (2 : ℚ) ^ ((scale : Int) - 127)
/-- The value of D[i][j] of an SMMA (R293, R294): z goes from the accumulator, or +0, through the K rounded steps. -/
def SmmaFacts (fw : Nat) (areaA areaB : List Byte) (d : List Nat) : Prop :=
  let b := fun (l : List Byte) (n : Nat) => (l.getD n 0).toNat
  let el := fun (l : List Byte) (row k scale : Nat) =>
    if fw % 4 = 0 then e4m3Val (b l (32 * row + k)) else mxf4Val (b l (32 * row + k / 2) / 16 ^ (k % 2) % 16) scale
  let K := if fw % 4 = 0 then 32 else 64
  areaA.length = 512 → areaB.length = 512 → smmaFmtOk fw = true →
  (fw % 4 = 0 → ∀ x ∈ areaA ++ areaB, x.toNat % 128 ≠ 127) → fw / 2 ^ 8 % 256 ≠ 255 → fw / 2 ^ 16 % 256 ≠ 255 →
  ∀ i j (z : Nat → Word), i < 16 → j < 16 → z 0 = (if Nat.testBit fw 2 then 0 else BitVec.ofNat 32 (d.getD (16 * i + j) 0)) →
    d.getD (16 * i + j) 0 < 2 ^ 32 → f32Finite (z 0) →
    (∀ k, k < K → let y := el areaA i k (fw / 2 ^ 8 % 256) * el areaB j k (fw / 2 ^ 16 % 256) + f32Val (z k)
      |y| ≤ f32Max ∧ Nearest (z (k + 1)) y) →
    ∃ (r : Word) (f : Flags), (smmaOf fw areaA areaB d)[16 * i + j]? = some (r.toNat, f) ∧ f32Finite r ∧ f32Val r = f32Val (z K)
/-- Which byte of an SMMA area a lane's register holds (R293). -/
def AreaFacts (e : Env) (g : BitVec 2) (a : Reg) : Prop :=
  (e.p.lanes.map (·.1)).Nodup → ∀ n, n < 512 → (e.smmaArea g a)[n]? = some
    (match (actives e.p g).find? fun c => c.1 == n / 16 with
    | some c => BitVec.ofNat 8 ((e.rd c.2 (a + BitVec.ofNat 7 (n / 4 % 4))).toNat / 256 ^ (n % 4))
    | none => 0)

/-- The little-endian value of n bytes of a list from place o. -/
def listVal (l : List Byte) (o n : Nat) : Nat := ((List.range n).map fun k => (l.getD (o + k) 0).toNat * 256 ^ k).sum

/-! ### The sampler (R276 to R286) -/

/-- A CLASSIC header within the limits of its table (R276, R277). -/
def GoodClassic (h : List Byte) : Prop :=
  let w := listVal h 0 4
  w % 4 = 0 ∧ w / 2 ^ 8 % 16 ≤ 5 ∧ w / 2 ^ 12 % 16 ≠ 0 ∧ w / 2 ^ 16 = 0 ∧ listVal h 8 8 % 256 = 0 ∧ listVal h 8 8 < 2 ^ 52 ∧
  ∀ k, 0x18 ≤ k → k < 64 → h.getD k 0 = 0
/-- A LATENT header within the limits of its table (R276, R278). -/
def GoodLatent (h : List Byte) : Prop :=
  let w := listVal h 0 4
  let width := fun (i : Nat) => listVal h 0x20 4 / 2 ^ (6 * (i - 1)) % 64
  let act := fun (i : Nat) => listVal h 0x20 4 / 2 ^ (24 + 2 * (i - 1)) % 4
  let layers := w / 2 ^ 12 % 8
  w % 4 = 1 ∧ w.testBit 3 = false ∧ 1 ≤ layers ∧ layers ≤ 4 ∧ w / 2 ^ 18 % 16 ≠ 0 ∧ w / 2 ^ 22 = 0 ∧
  (∀ o ∈ [8, 0x10], listVal h o 8 % 256 = 0 ∧ listVal h o 8 < 2 ^ 52) ∧
  (∀ i, 1 ≤ i → i ≤ 4 → (i ≤ layers → 1 ≤ width i ∧ width i ≤ 32 ∧ act i ≤ 2) ∧ (layers < i → width i = 0 ∧ act i = 0)) ∧
  width layers = w / 2 ^ 15 % 4 + 1 ∧ ∀ k, 0x24 ≤ k → k < 64 → h.getD k 0 = 0
/-- Width and height of a level (R279). -/
def levelW (h : List Byte) (l : Nat) : Nat := max 1 ((listVal h 4 2 + 1) / 2 ^ l)
def levelH (h : List Byte) (l : Nat) : Nat := max 1 ((listVal h 6 2 + 1) / 2 ^ l)
/-- The features of a LATENT header's texel (R278). -/
def featureCount (h : List Byte) : Nat := 2 ^ (listVal h 0 4 / 2 ^ 8 % 4 + 1)
/-- The base of a level (R279). -/
def levelBase (h : List Byte) (l : Nat) : Nat :=
  let align := fun (x : Nat) => (x + 255) / 256 * 256
  listVal h 8 8 + ((List.range l).map fun i =>
    let n := levelW h i * levelH h i * featureCount h
    if listVal h 0 4 % 4 = 0 then align (levelW h i * [1, 4, 2, 8, 4, 16].getD (listVal h 0 4 / 2 ^ 8 % 16) 1) * levelH h i
    else if (listVal h 0 4).testBit 10 then align (n / 2) + align ((n + 31) / 32) else align n).sum

/-- How a corner coordinate is mapped into 0 to n − 1 (R283); none outside a BORDER. -/
def Mapped (mode n : Nat) (c : Int) (r : Option Nat) : Prop :=
  match r with
  | none => mode = 3 ∧ (c < 0 ∨ (n : Int) ≤ c)
  | some k => k < n ∧ (mode = 0 → (n : Int) ∣ c - k) ∧ (mode = 1 → (k : Int) = min (max c 0) (n - 1)) ∧
    (mode = 2 → (2 * n : Int) ∣ c - k ∨ (2 * n : Int) ∣ c + k + 1) ∧ (mode = 3 → (k : Int) = c)
/-- The corners of a sample at u and v (R283): a place, or none in a BORDER, and the weight in 65,536ths. -/
def CornerFacts (h : List Byte) (l : Nat) (u v : Word) : Prop :=
  let place := fun (x y : Int) (p : Option (Nat × Nat)) => ∃ a b, Mapped (listVal h 0 4 / 2 ^ 4 % 4) (levelW h l) x a ∧
    Mapped (listVal h 0 4 / 2 ^ 6 % 4) (levelH h l) y b ∧ p = a.bind fun i => b.map fun j => (i, j)
  (¬(f32Finite u ∧ f32Finite v) → corners h l u.toNat v.toNat = none) ∧
  (f32Finite u → f32Finite v →
    (listVal h 0 4 % 4 = 0 → (listVal h 0 4).testBit 3 = false → ∃ p, corners h l u.toNat v.toNat = some [(p, 65536)] ∧
      place ⌊f32Val u * levelW h l⌋ ⌊f32Val v * levelH h l⌋ p) ∧
    (listVal h 0 4 % 4 ≠ 0 ∨ (listVal h 0 4).testBit 3 = true →
      let x := f32Val u * levelW h l - 1 / 2
      let y := f32Val v * levelH h l - 1 / 2
      let fx := ⌊(x - ⌊x⌋) * 256⌋.toNat
      let fy := ⌊(y - ⌊y⌋) * 256⌋.toNat
      ∃ p q r w, corners h l u.toNat v.toNat =
          some [(p, (256 - fx) * (256 - fy)), (q, fx * (256 - fy)), (r, (256 - fx) * fy), (w, fx * fy)] ∧
        place ⌊x⌋ ⌊y⌋ p ∧ place (⌊x⌋ + 1) ⌊y⌋ q ∧ place ⌊x⌋ (⌊y⌋ + 1) r ∧ place (⌊x⌋ + 1) (⌊y⌋ + 1) w))
/-- The level of a sample (R282) whose bias is 0: p holds the four rounded products of its derivatives. -/
def LevelFacts (h : List Byte) (derivs : List Word) (p : Nat → Word) : Prop :=
  let size := fun (i : Nat) => (if i % 2 = 0 then levelW h 0 else levelH h 0 : Nat)
  let levels := if listVal h 0 4 % 4 = 0 then listVal h 0 4 / 2 ^ 12 % 16 else listVal h 0 4 / 2 ^ 18 % 16
  (∀ i, i < 4 → f32Finite (derivs.getD i 0) ∧ |f32Val (derivs.getD i 0)| * size i ≤ f32Max ∧
    Nearest (p i) (|f32Val (derivs.getD i 0)| * size i)) → listVal h 0 4 % 4 < 2 → levels ≠ 0 →
  let lev := sampleLevel h derivs 0
  lev < levels ∧ ((∀ i, i < 4 → f32Val (p i) < 1) → lev = 0) ∧
    ((∃ i, i < 4 ∧ 1 ≤ f32Val (p i)) → ∀ l, l < levels → (l ≤ lev ↔ ∃ i, i < 4 ∧ (2 : ℚ) ^ l ≤ f32Val (p i)))

/-- The value that a stored channel of a texel format reads as (R280). -/
def ChannelReads (fmt n : Nat) (d : Word) : Prop :=
  if fmt ≤ 1 then Nearest d ((n : ℚ) / 255)
  else if fmt ≤ 3 then n / 2 ^ 10 % 2 ^ 5 ≠ 31 ∧ f32Finite d ∧ f32Val d = f16Val n
  else d.toNat = n
/-- The four channels of a texel (R280): a missing one reads 0, a missing A 1.0. -/
def TexelFacts (fmt : Nat) (bs : List Byte) : Prop :=
  let n := [1, 1, 2, 2, 4, 4].getD fmt 4
  let count := if fmt % 2 = 0 then 1 else 4
  fmt ≤ 5 → bs.length = count * n → (texelOf fmt bs).length = 4 ∧ ∀ c, c < 4 →
    (count ≤ c → (texelOf fmt bs).getD c 0 = if c = 3 then 0x3F800000 else 0) ∧
    (c < count → (2 ≤ fmt → fmt ≤ 3 → listVal bs (n * c) n / 2 ^ 10 % 2 ^ 5 ≠ 31) →
      ChannelReads fmt (listVal bs (n * c) n) (BitVec.ofNat 32 ((texelOf fmt bs).getD c 0)))

/-- The exact value of a finite number. -/
def fvVal : Fv → ℚ
  | .fin neg m e => (if neg then -1 else 1) * (m : ℚ) * (2 : ℚ) ^ e
  | _ => 0
def FvFinite : Fv → Prop
  | .fin _ _ _ => True
  | _ => False
/-- z runs through K steps that each add an exact term and round once (R284, R285). -/
def Steps (term : Nat → ℚ) (K : Nat) (z : Nat → Word) : Prop :=
  z 0 = 0 ∧ ∀ k, k < K → |term k + f32Val (z k)| ≤ f32Max ∧ Nearest (z (k + 1)) (term k + f32Val (z k))
/-- A blend of corner values ts with weights ws in 65,536ths (R284). -/
def BlendFacts (ws : List Nat) (ts : List Fv) (z : Nat → Word) : Prop :=
  ws.length = ts.length → (∀ w ∈ ws, w ≤ 65536) → (∀ t ∈ ts, FvFinite t) →
  Steps (fun k => (ws.getD k 0 : ℚ) / 65536 * fvVal (ts.getD k (.nan false))) ws.length z →
  ∃ r : Word, blend ws ts = r.toNat ∧ f32Finite r ∧ f32Val r = f32Val (z ws.length)
/-- x is the E4M3 code nearest to v: ties go to the even code, and magnitudes above 448 give 448 (R67). -/
def E4m3Near (v : ℚ) (x : Nat) : Prop :=
  x < 256 ∧ x % 128 ≠ 127 ∧ ∀ y, y < 256 → y % 128 ≠ 127 → |e4m3Val x - v| ≤ |e4m3Val y - v| ∧
    (e4m3Val y ≠ e4m3Val x → |e4m3Val x - v| = |e4m3Val y - v| → x % 2 = 0)
/-- The inputs of the network (R285, R286): the blended features, or those of the corner drawn, as E4M3. -/
def InputFacts (h : List Byte) (ls : List SLine) (ws : List Nat) (fs : List (List Fv)) : Prop :=
  (∀ l ∈ fs, l.length = featureCount h) → ws.length = fs.length → 1 ≤ ws.length → listVal h 0 4 % 4 = 1 →
  (∀ z : Nat → Word, (∀ f, f < featureCount h → blend ws (fs.map fun l => l.getD f (.nan false)) = (z f).toNat ∧ f32Finite (z f)) →
    ∃ x : Nat → Nat, (∀ f, f < featureCount h → E4m3Near (f32Val (z f)) (x f)) ∧
      latentBlend h ls ws fs = networkOut h ls ((List.range (featureCount h)).map fun f => unpack e4m3 (x f))) ∧
  ∀ l ∈ fs, (∀ v ∈ l, FvFinite v) → ∃ x : Nat → Nat, (∀ f, f < featureCount h → E4m3Near (fvVal (l.getD f (.nan false))) (x f)) ∧
    latentPick h ls l = networkOut h ls ((List.range (featureCount h)).map fun f => unpack e4m3 (x f))
/-- What an activation gives of z (R285). -/
def Activated (act : Nat) (z y : Word) : Prop :=
  (act = 0 → y = z) ∧ (act ≠ 0 → f32Val z ≤ 0 → y = 0) ∧ (act = 1 → 0 < f32Val z → y = z) ∧
  (act = 2 → 0 < f32Val z → y = if 1 ≤ f32Val z then 0x3F800000 else z)
/-- The inputs of layer i + 1 of a network, or the outputs of layer i (R278). -/
def widthAt (h : List Byte) (i : Nat) : Nat := if i = 0 then featureCount h else listVal h 0x20 4 / 2 ^ (6 * (i - 1)) % 64
/-- The bytes of a layer's weights, and where a layer's bytes begin in the weight set (R281). -/
def layerBytes (h : List Byte) (i : Nat) : Nat :=
  if (listVal h 0 4).testBit 11 then (17 * widthAt h (i + 1) + 15) / 16 * 16 else (widthAt h (i + 1) * widthAt h i + 15) / 16 * 16
def layerAt (h : List Byte) (i : Nat) : Nat :=
  ((List.range i).map fun j => layerBytes h j + (4 * widthAt h (j + 1) + 15) / 16 * 16).sum
/-- The network (R281, R285) on E4M3 inputs x 0, with the weights and biases of the weight set wb: z (i, n) runs through the rounded
steps of output n of layer i, b adds the bias, y is activated and x (i + 1) is the next layer's input. -/
def NetworkFacts (h : List Byte) (ls : List SLine) (wb : Nat → Byte) (x : Nat → Nat → Nat) (z : Nat → Nat → Nat → Word)
    (b y : Nat → Nat → Word) : Prop :=
  let w := listVal h 0 4
  let layers := w / 2 ^ 12 % 8
  let N := widthAt h
  let own := layerBytes h
  let off := layerAt h
  let nib := fun (o k : Nat) => (wb (o + k / 2)).toNat / 16 ^ (k % 2) % 16
  let weight := fun (i n k : Nat) => if w.testBit 11 then mxf4Val (nib (off i + 16 * n) k) (wb (off i + 16 * N (i + 1) + n)).toNat
    else e4m3Val (wb (off i + n * N i + k)).toNat
  let bias := fun (i n : Nat) => BitVec.ofNat 32 ((List.range 4).map fun j => (wb (off i + own i + 4 * n + j)).toNat * 256 ^ j).sum
  GoodLatent h → (∀ o, o < off layers → lineByte ls (listVal h 0x10 8 + o) = some (wb o)) →
  (∀ i n k, i < layers → n < N (i + 1) → k < N i → if w.testBit 11 then (wb (off i + 16 * N (i + 1) + n)).toNat ≠ 255
    else (wb (off i + n * N i + k)).toNat % 128 ≠ 127) →
  (∀ k, k < N 0 → x 0 k < 256 ∧ x 0 k % 128 ≠ 127) →
  (∀ i n, i < layers → n < N (i + 1) → Steps (fun k => weight i n k * e4m3Val (x i k)) (N i) (z i n) ∧ f32Finite (bias i n) ∧
    |f32Val (z i n (N i)) + f32Val (bias i n)| ≤ f32Max ∧ Nearest (b i n) (f32Val (z i n (N i)) + f32Val (bias i n)) ∧
    Activated (listVal h 0x20 4 / 2 ^ (24 + 2 * i) % 4) (b i n) (y i n) ∧ E4m3Near (f32Val (y i n)) (x (i + 1) n)) →
  ∃ out : List Nat, networkOut h ls ((List.range (N 0)).map fun k => unpack e4m3 (x 0 k)) = some out ∧ out.length = 4 ∧
    ∀ k, k < 4 → (N layers ≤ k → out.getD k 0 = 0) ∧
      (k < N layers → w.testBit 17 = false → ∃ r : Word, out.getD k 0 = r.toNat ∧ f32Finite r ∧ f32Val r = f32Val (y (layers - 1) k)) ∧
      (k < N layers → w.testBit 17 = true → |f32Val (y (layers - 1) k)| < 65520 →
        ∃ r, out.getD k 0 = r ∧ r < 2 ^ 16 ∧ r / 2 ^ 10 % 2 ^ 5 ≠ 31 ∧ ∀ m, m < 2 ^ 16 → m / 2 ^ 10 % 2 ^ 5 ≠ 31 →
          |f16Val r - f32Val (y (layers - 1) k)| ≤ |f16Val m - f32Val (y (layers - 1) k)| ∧
          (f16Val m ≠ f16Val r → |f16Val r - f32Val (y (layers - 1) k)| = |f16Val m - f32Val (y (layers - 1) k)| → r % 2 = 0))
/-- The corner that a stochastic draw r picks (R286): the first whose cumulative weight passes it. -/
def PickFacts (r : Nat) (cs : List (Option (Nat × Nat) × Nat)) : Prop :=
  ∀ i p w, cs[i]? = some (p, w) → ((cs.take i).map (·.2)).sum ≤ r → r < ((cs.take i).map (·.2)).sum + w → pickCorner r cs = p

/-- The codes of a latent texel and of a weight as exact values (R65, R67, R68). -/
def CodeFacts : Prop :=
  (∀ n, n < 256 → (n % 128 ≠ 127 → FvFinite (unpack e4m3 n) ∧ fvVal (unpack e4m3 n) = e4m3Val n) ∧
    (n % 128 = 127 → (unpack e4m3 n).isNan = true)) ∧
  ∀ n x, n < 16 → x < 256 → (x ≠ 255 → FvFinite (mxf4Elem n x) ∧ fvVal (mxf4Elem n x) = mxf4Val n x) ∧
    (x = 255 → (mxf4Elem n x).isNan = true)
/-- What the header, its levels, its corners, its texels, its blends and its networks are (R276 to R286). -/
def SampleFacts : Prop :=
  (∀ h : List Byte, h.length = 64 → (headerValid h = true ↔ GoodClassic h ∨ GoodLatent h)) ∧
  (∀ h l u v, CornerFacts h l u v) ∧ (∀ h derivs p, LevelFacts h derivs p) ∧ (∀ fmt bs, TexelFacts fmt bs) ∧
  (∀ ws ts z, BlendFacts ws ts z) ∧ CodeFacts ∧ (∀ h ls ws fs, InputFacts h ls ws fs) ∧
  (∀ h ls wb x z b y, NetworkFacts h ls wb x z b y) ∧ ∀ r cs, PickFacts r cs

/-! ### Every word, as the range check and the poison marks see it -/

/-- The operands of the words that have statements of their own: carries, FCMP, CVTBD, SHAPE, the draws, CALL, and SMMA, whose check and
marks are those of each lane. -/
def ownOperands : Instr → Option (Hdr × Names × Names)
  | .addc h d a b | .subb h d a b => some (h, [(a, 1), (b, 1)], [(d, 1)])
  | .fcmp h _ _ a b => some (h, [(a, 1), (b, 1)], [])
  | .cvtbd h d a b => some (h, [(a, 8), (b, 4)], [(d, 4)])
  | .shape h d a => some (h, [], [(d, 1), (a, 1)])
  | .rngsLo h d | .rngsHi h d => some (h, [], [(d, 1)])
  | .call d a => some (⟨true, 0⟩, [(a, 1)], [(d, 1)])
  | .smma h d a f => some (h, [(a, 8), (d, 8), (f, 1)], [])
  | _ => none
/-- The guard, the sources and the destinations of a word whose range check and marks are those of each lane by itself. -/
def operands (i : Instr) : Option (Hdr × Names × Names) :=
  ownOperands i <|>
  ((ialuVal i).orElse fun _ => (ilogVal i).orElse fun _ => (immVal i).orElse fun _ => ibitVal i).map
      (fun v => (v.hdr, v.src, [(v.dst, 1)])) <|>
  ((fpOp i).orElse fun _ => (fsfuOp i).orElse fun _ => (cvtOp i).orElse fun _ => (wordOp i).orElse fun _ => (ctxrOp i).orElse fun _ =>
      (laneOp i).orElse fun _ => scanOp i).map (fun v => (v.hdr, v.src, [(v.dst, v.n)])) <|>
  (predOp i).map (fun v => (v.hdr, v.src, [])) <|>
  ((sysAct i).orElse fun _ => (ctrlAct i).orElse fun _ => (rallyAct i).orElse fun _ => (workAct i).orElse fun _ => (memAct i).orElse fun _ =>
      (copyAct i).orElse fun _ => (accAct i).orElse fun _ => (atomAct i).orElse fun _ => (sampAct i).orElse fun _ =>
      (hypAct i).orElse fun _ => gfxAct i).map (fun v => (v.hdr, v.src, v.dst))

/-- R168: a window name at or above VREGS traps REGISTER-RANGE, whatever the guard. -/
def RangeTraps (i : Instr) (o : Hdr × Names × Names) : Prop :=
  ∀ s p t, Issued s p t → LaneStep i s p t o.1.stop fun _ ln ln' =>
    ¬InRange ⟨s, t, p⟩ ln (o.2.1 ++ o.2.2) → ln' = trapped p 0x23 0 ln

/-- R257: a word that executes and reads a marked register is noted, and the first of the block stands. -/
def MarksNoted (i : Instr) (o : Hdr × Names × Names) : Prop :=
  ∀ s p t, Issued s p t → LaneStep i s p t o.1.stop fun _ ln ln' =>
    InRange ⟨s, t, p⟩ ln (o.2.1 ++ o.2.2) → GuardOn ln o.1.guard → ¬Clean ln o.2.1 →
      ln'.poisonAt = ln.poisonAt.or (some (p.pc, none))

/-- RED with a name out of range (R168, R192): the lane traps; EMPTY is written in it too, as in every lane of the pack. -/
def RedRange (h : Hdr) (op : BitVec 3) (ty : BitVec 2) (d a : Reg) (pe : BitVec 2) : Prop :=
  ∀ s p t, Issued s p t → LaneStep (.red h op ty d a pe) s p t h.stop fun _ ln ln' =>
    ¬InRange ⟨s, t, p⟩ ln [(a, 1), (d, 1)] → WrotePred (pe.setWidth 3) (actives p h.guard).isEmpty (trapped p 0x23 0 ln) ln'

/-! ### Device steps -/

/-- exec of a device step answers a next state with a property. -/
def Comes (i : Instr) (s : State) (Q : State → Prop) : Prop := ∃ t, exec i s = .next t ∧ Q t

/-- No context has written a version. -/
def NoVersions (s : State) : Prop := ∀ c ∈ s.ctxs, c.versions = []
/-- The little-endian value of n bytes of memory (R2). -/
def valueAt (s : State) (pa n : Nat) : Nat := ((List.range n).map fun k => (memGet s.mem (pa + k)).toNat * 256 ^ k).sum
/-- The location of a byte of local HBM in a page without COMP. -/
def hbmLoc (pa : Nat) : Loc := ⟨pa, false, none⟩
/-- n bytes from pa lie in local HBM and bear no poison. -/
def CleanHbm (s : State) (pa n : Nat) : Prop := pa + n ≤ Config.hbmEnd ∧ ∀ k, k < n → pa + k ∉ s.poison
/-- One translated piece of n bytes, none for no byte. -/
def piece (pa n : Nat) : List (Loc × Nat) := if n = 0 then [] else [(hbmLoc pa, n)]
/-- Software has written a command block of operation op where a write of lo to CMD_LO points, and the device can take it (R94). -/
def CommandReady (s : State) (lo : Word) (op : Nat) (b : CmdBlock) : Prop :=
  s.start.st = .running ∧ s.cmd.busy = false ∧ s.cmdBlock (pairOf lo s.cmd.hi).toNat = some b ∧ b.op = op
/-- The command has ended with a RESULT. -/
def Ended (t : State) (r : Nat) : Prop := t.cmd.busy = false ∧ t.cmd.result = BitVec.ofNat 8 r
/-- Nothing but the named fields has changed. -/
def SameMemory (s t : State) : Prop := t.mem = s.mem ∧ t.poison = s.poison ∧ t.hostCache = s.hostCache

/-- The packet has left its queue (R108). -/
def Gone (t : State) (p : Nat) : Prop := ∀ y ∈ t.packets, y.id ≠ p

/-- The bytes of local HBM from an address up to another. -/
def rawBytes (s : State) (lo hi : Nat) : List Byte := (List.range (hi - lo)).map fun k => memGet s.mem (lo + k)
/-- The image at address 0 has the format of R88: the header fields are within their limits, and every byte not named is zero. -/
def GoodImage (s : State) (len : Nat) : Prop :=
  let field := fun o => valueAt s o 4
  let zero := fun lo hi => ∀ a, lo ≤ a → a < hi → memGet s.mem a = 0
  field 0 = 0x4D494650 ∧ field 8 = len ∧ len % 4096 = 0 ∧ 65536 ≤ len ∧ len ≤ 2 ^ 26 ∧
  field 12 % 4096 = 0 ∧ 0x5000 ≤ field 12 ∧ 4 ≤ field 16 ∧ field 12 + field 16 ≤ len ∧ field 20 % 4 = 0 ∧ field 20 < field 16 ∧
  zero 0x18 0x40 ∧ zero 0x1C0 0x200 ∧ zero 0x4160 (field 12) ∧ zero (field 12 + field 16) len

/-- MODULE_RESET, SELF_TEST_DONE, IMAGE_LEN, VERIFY_DONE and START_GO (R86 to R90). -/
def StartSteps (s : State) : Prop :=
  Comes .moduleReset s (fun t => t.start = State.reset.start ∧ t.cmd = State.reset.cmd ∧ t.ctxs = [] ∧ t.queues = [] ∧ t.packets = [] ∧
    t.launches = [] ∧ t.teams = [] ∧ t.flight = [] ∧ t.issue = none ∧ t.masts = [] ∧ t.tlb = [] ∧ t.hostCache = [] ∧ t.l2 = [] ∧ t.ceCount = 0 ∧
    t.mem = s.mem ∧ t.peers = s.peers) ∧
  (s.start.st = .reset → Comes .selfTestDone s fun t => t = { s with start := { s.start with st := .awaitImage, fail := 0 } }) ∧
  (∀ v, s.start.st = .awaitImage ∨ s.start.st = .failed →
    Comes (.imageLen v) s fun t => t = { s with start := { s.start with imageLen := v, st := .verifying, fail := 0 } }) ∧
  (s.start.st = .verifying →
    let len := s.start.imageLen.toNat
    let rsa := rawBytes s 0x40 0x1C0
    let slh := rawBytes s 0x200 0x4160
    let digest := Config.sha384 (rawBytes s 0 0x40 ++ rawBytes s 0x1C0 0x200 ++ rawBytes s 0x4160 len)
    let goes := fun (st : StartState) (fail : Nat) (fw : Option Firmware) => Comes .verifyDone s fun t =>
      t = { s with start := { s.start with st := st, fail := fail, fw := fw } }
    (¬GoodImage s len → goes .failed 4 s.start.fw) ∧
    (GoodImage s len → CleanHbm s 0 len →
      (Config.rsaVerifies digest rsa = false → goes .failed 1 s.start.fw) ∧
      (Config.rsaVerifies digest rsa = true → Config.slhVerifies digest slh = false → goes .failed 2 s.start.fw) ∧
      (Config.rsaVerifies digest rsa = true → Config.slhVerifies digest slh = true → valueAt s 4 4 < Config.fuseMinVersion →
        goes .failed 3 s.start.fw) ∧
      (Config.rsaVerifies digest rsa = true → Config.slhVerifies digest slh = true → Config.fuseMinVersion ≤ valueAt s 4 4 →
        goes .awaitAccept 0 (some ⟨valueAt s 4 4, rsa, slh, digest⟩))) ∧
    (GoodImage s len → ¬CleanHbm s 0 len → goes .failed 4 s.start.fw)) ∧
  (∀ v : Word, v.getLsbD 0 = true → s.start.st = .awaitAccept → Comes (.startGo v) s fun t =>
    ((s.start.featAccept.getLsbD 0 = true ∧ ∀ k, s.start.featAccept.getLsbD k = true → k < 13) →
      t = { s with start := { s.start with st := .running, fail := 0 } }) ∧
    (¬(s.start.featAccept.getLsbD 0 = true ∧ ∀ k, s.start.featAccept.getLsbD k = true → k < 13) →
      t = { s with start := { s.start with st := .awaitAccept, fail := 5 } }))

/-- A transition of R86 with the FAIL that R89 gives it, or none. -/
def StartMove (st : StartState) (fail : Nat) (st' : StartState) (fail' : Nat) : Prop :=
  (st' = st ∧ fail' = fail) ∨ (st' = .reset ∧ fail' = 0) ∨ (st = .reset ∧ st' = .awaitImage ∧ fail' = 0) ∨
  ((st = .awaitImage ∨ st = .failed) ∧ st' = .verifying ∧ fail' = 0) ∨
  (st = .verifying ∧ (st' = .awaitAccept ∧ fail' = 0 ∨ st' = .failed ∧ 1 ≤ fail' ∧ fail' ≤ 4)) ∨
  (st = .awaitAccept ∧ (st' = .running ∧ fail' = 0 ∨ st' = .awaitAccept ∧ fail' = 5))

/-- Every context but n is as it was; of a byte written in the root view meanwhile, only versions that have merged into the root lose
their copy (R338). -/
def OthersKept (s t : State) (n : Nat) : Prop :=
  ∀ m, m ≠ n → (s.ctx? m = none → t.ctx? m = none) ∧ ∀ c, s.ctx? m = some c → ∃ c', t.ctx? m = some c' ∧
    { c' with versions := c.versions } = c ∧ ((∀ v ∈ c.versions, resolveHyp c.hyps v.tag ≠ 0) → c' = c)

/-- CONTEXT_CREATE, CONTEXT_DESTROY, its completion and SET_SAVE_AREA (R94 to R96, R360). CONTEXT_DESTROY itself takes away the queues,
the packets, the launches, the teams with their FAULTED threads, and the staging entries; its completion the rest. -/
def ContextSteps (s : State) (lo : Word) : Prop :=
  (∀ b d, CommandReady s lo 1 b → b.num ≤ 15 → s.ctx? b.num = none → s.readPhys b.addr 64 = some d → ctxDescOk d = true →
    (∀ x ∈ s.ctxs, x.encMask &&& fieldLE d 0x2E 2 = 0) → Comes (.contextCreate lo) s fun t =>
      Ended t 0 ∧ (∃ c, t.ctx? b.num = some c ∧ c.ptRoot = fieldLE d 0 8 ∧ c.coreSet = fieldLE d 8 24 ∧ c.hypOvf = fieldLE d 0x20 8 ∧
        c.powerCap = fieldLE d 0x30 4 ∧ c.watchdog = fieldLE d 0x34 4 ∧ c.hyps = [] ∧ c.versions = [] ∧ c.saveArea = none) ∧
      (∀ n, n ≠ b.num → t.ctx? n = s.ctx? n) ∧ SameMemory s t) ∧
  (∀ b, CommandReady s lo 2 b → b.num ≤ 15 → (s.ctx? b.num).isSome → Comes (.contextDestroy lo) s fun t =>
    t.cmd.busy = true ∧ t.cmd.destroying = some b.num ∧ (∀ q ∈ t.queues, q.ctx ≠ b.num) ∧ (∀ h ∈ t.handovers, h.ctx ≠ b.num) ∧
    (∀ p ∈ t.packets, ∀ q, s.queue? p.queue = some q → q.ctx ≠ b.num) ∧ (∀ l ∈ t.launches, l.ctx ≠ b.num) ∧
    (∀ u ∈ t.teams, ∀ l ∈ s.launches, l.ctx = b.num → u.launch ≠ l.id) ∧
    (t.readReg (0xC00 + 32 * b.num)).getLsbD 0 = false ∧ ∀ o, o ∈ [0xC04, 0xC08, 0xC0C] → t.readReg (o + 32 * b.num) = 0) ∧
  (∀ b, CommandReady s lo 2 b → b.num ≤ 15 → (s.ctx? b.num).isSome → (s.launches.map (·.id)).Nodup → (s.teams.map (·.id)).Nodup →
    Comes (.contextDestroy lo) s fun t => OthersKept s t b.num) ∧
  (∀ b, CommandReady s lo 2 b → b.num ≤ 15 → (s.ctx? b.num).isSome → (s.launches.map (·.id)).Nodup → (s.teams.map (·.id)).Nodup →
    Comes (.contextDestroy lo) s fun t => ∀ l ∈ s.launches, l.ctx = b.num → ∀ u ∈ s.teams, u.launch = l.id →
      (∀ v ∈ t.teams, v.id ≠ u.id) ∧ (∀ a ∈ t.asyncs, a.team ≠ u.id) ∧ (l.det = false → ∀ e ∈ (t.mast u.mast).staging, e.team ≠ u.id)) ∧
  (∀ n, s.cmd.destroying = some n → Comes .contextDestroyComplete s fun t =>
    Ended t 0 ∧ t.cmd.destroying = none ∧ t.ctx? n = none ∧ (∀ x ∈ t.streams, x.ctx ≠ n) ∧ (∀ x ∈ t.tlb, x.ctx ≠ n) ∧
    (∀ r ∈ t.running, r.resolves n = false) ∧ (∀ x ∈ t.throttled, x.1 ≠ n) ∧
    ∀ m ∈ t.masts, (∀ x ∈ m.tlb, x.ctx ≠ n) ∧ (∀ x ∈ m.pins, x.ctx ≠ n) ∧ (∀ x ∈ m.gens, x.1.1 ≠ n) ∧ (∀ x ∈ m.slines, x.ctx ≠ n) ∧
      ∀ x ∈ m.l1, x.ctx ≠ n) ∧
  (∀ n, s.cmd.destroying = some n → (s.ctx? n).isSome → Comes .contextDestroyComplete s fun t => OthersKept s t n) ∧
  (∀ b c, CommandReady s lo 8 b → b.num ≤ 15 → s.ctx? b.num = some c → b.addr < 2 ^ 52 → b.addr % 65536 ≠ 0 →
    b.addr / 65536 * 65536 + b.addr % 65536 * 65536 ≤ Config.hbmEnd → (∀ t ∈ s.teams, t.place = .resident ∨ t.place = .stopping) →
    Comes (.setSaveArea lo) s fun t =>
      Ended t 0 ∧ t.ctx? b.num = some { c with saveArea := some (b.addr / 65536 * 65536, b.addr % 65536 * 65536) } ∧
      (∀ n, n ≠ b.num → t.ctx? n = s.ctx? n) ∧ SameMemory s t)

/-- QUEUE_CREATE, QUEUE_DESTROY, QUEUE_RESUME, SET_FLOORS and a block of no operation (R94, R97, R99, R111, R112). -/
def QueueSteps (s : State) (lo : Word) : Prop :=
  (∀ b d, CommandReady s lo 3 b → b.num < 1024 → s.queue? b.num = none → s.readPhys b.addr 32 = some d → s.queueDescOk d = true →
    (fieldLE d 9 1 = 0 → ∀ m ∈ coreMasts (s.ctxD (fieldLE d 0x0A 1)).coreSet,
      s.frameFits (queueOfDesc b.num d :: s.queues) (s.floors.getD 0 0) m = true) → Comes (.queueCreate lo) s fun t =>
      Ended t 0 ∧ (∃ q, t.queue? b.num = some q ∧ q.ring = fieldLE d 0 8 ∧ q.size = fieldLE d 8 1 ∧ q.cls = fieldLE d 9 1 ∧
        q.ctx = fieldLE d 0x0A 1 ∧ q.vector = fieldLE d 0x0B 1 ∧ q.consumedAddr = fieldLE d 0x10 8 ∧ q.w = 0 ∧ q.c = 0 ∧
        q.error = false) ∧ (∀ n, n ≠ b.num → t.queue? n = s.queue? n) ∧ SameMemory s t) ∧
  (∀ b, CommandReady s lo 4 b → (s.queue? b.num).isSome → Comes (.queueDestroy lo) s fun t =>
    Ended t 0 ∧ (∀ q, t.queue? b.num = some q → q.destroyed = true) ∧ SameMemory s t ∧
    ∀ p ∈ t.packets, p.queue = b.num → p.parent = none → p.st ≠ .read) ∧
  (∀ b q, CommandReady s lo 5 b → s.queue? b.num = some q → q.error = true → q.errPacket = none → Comes (.queueResume lo) s fun t =>
    Ended t 0 ∧ t.queue? b.num = some { q with
      error := false
      errUnread := false
      c := if q.errUnread = true ∧ b.addr % 2 = 1 then q.c + 1 else q.c } ∧ SameMemory s t) ∧
  (∀ b q k p, CommandReady s lo 5 b → s.queue? b.num = some q → q.error = true → q.errPacket = some k → q.errUnread = false →
    q.destroyed = false → s.packet? k = some p → p.queue = b.num →
    let q1 := { q with error := false, errPacket := none, errUnread := false }
    (b.addr % 2 = 1 → Comes (.queueResume lo) s fun t => Ended t 0 ∧ t.queue? b.num = some q1 ∧ Gone t k ∧ SameMemory s t) ∧
    (∀ s1 bs, b.addr % 2 = 0 → (s.setQueue q1).readRoot (s.ctxD q.ctx) p.addr 64 = (s1, some bs) → Comes (.queueResume lo) s fun t =>
      Ended t 0 ∧ t.queue? b.num = some q1 ∧ t.packet? k = some { p with words := leWords bs, tail := [], st := .read })) ∧
  (∀ b, CommandReady s lo 6 b →
    b.addr % 256 + b.addr / 256 % 256 + b.addr / 65536 % 256 + b.addr / 16777216 % 256 ≤ 100 →
    (∀ m, m < 192 → s.frameFits s.queues (b.addr % 256) m = true) → Comes (.setFloors lo) s fun t =>
      Ended t 0 ∧ t.floors = [b.addr % 256, b.addr / 256 % 256, b.addr / 65536 % 256, b.addr / 16777216 % 256] ∧ SameMemory s t) ∧
  (∀ b op, CommandReady s lo op b → op = 0 ∨ 8 < op → Comes (.cmdLo lo) s fun t =>
    t = { s with cmd := { s.cmd with busy := false, result := 1 } })

/-- The fields of an attestation report before its signature (R91): offset, size, and the bytes. -/
def reportFields (s : State) (fw : Firmware) (nonce : List Byte) : List (Nat × Nat × (Nat → Byte)) :=
  let num := fun (x k : Nat) => BitVec.ofNat 8 (x / 256 ^ k)
  let list := fun (l : List Byte) (k : Nat) => l.getD k 0
  [(0x0000, 4, num 0x54525441), (0x0004, 4, num fw.version), (0x0008, 16, list Config.fuseDeviceId), (0x0018, 48, list fw.digest),
   (0x0048, 32, list nonce), (0x0068, 32, num s.start.featAccept.toNat), (0x0088, 384, list fw.rsaSig), (0x0208, 16224, list fw.slhSig)]

/-- ATTEST (R91): every field of the report stands at its offset, the signature is that of the bytes before it, and no other byte has
changed. -/
def AttestStep (s : State) (lo : Word) : Prop :=
  ∀ b fw, Memory.wf s.mem = true → CommandReady s lo 7 b → s.start.fw = some fw → b.addr % 64 = 0 →
    (∀ k, k < 0x41C8 → isReserved (b.addr + k) = false) →
    Comes (.attest lo) s fun t => Ended t 0 ∧
      (∀ f ∈ reportFields s fw b.nonce, ∀ k, k < f.2.1 → t.homeByte (b.addr + f.1 + k) = (f.2.2 k, false)) ∧
      (∀ k, k < 96 → t.homeByte (b.addr + 0x4168 + k) =
        ((Config.deviceSign ((List.range 0x4168).map fun j => (t.homeByte (b.addr + j)).1)).getD k 0, false)) ∧
      ∀ x, x < b.addr ∨ b.addr + 0x41C8 ≤ x → t.homeByte x = s.homeByte x

/-- WAKE and the handover GO of a kick page (R100, R248). -/
def KickSteps (s : State) (q : Nat) (v : Word) : Prop :=
  (∀ x, s.queue? q = some x → v ≠ x.w → (v - x.w).toNat < 2 ^ 31 → (v - x.c).toNat ≤ 2 ^ x.size → Comes (.wake q v) s fun t =>
    t = { s with queues := t.queues } ∧ t.queue? q = some { x with w := v } ∧ ∀ n, n ≠ q → t.queue? n = s.queue? n) ∧
  (∀ x, s.queue? q = some x → x.error = false → v ≠ x.w → (v - x.w).toNat < 2 ^ 31 → 2 ^ x.size < (v - x.c).toNat →
    Comes (.wake q v) s fun t => t = { s with queues := t.queues, vectors := s.vectors ++ [x.vector] } ∧
      t.queue? q = some { x with error := true, cause := 0x0A, errIndex := v, errPacket := none, errUnread := false }) ∧
  (∀ i, (i = .hoGoToHost q v ∧ v.getLsbD 0 = false) ∨ (i = .hoGoToDevice q v ∧ v.getLsbD 0 = true) → v.getLsbD 1 = true →
    (s.queue? q).isSome → (s.hand q).busy = false → (s.hand q).addr.toNat % 4096 = 0 → (s.hand q).bytes.toNat % 4096 = 0 →
    (s.hand q).bytes ≠ 0 → Comes i s fun t =>
      (t.hand q).busy = true ∧ (t.hand q).dir = v.getLsbD 0 ∧
      t.handovers = s.handovers ++ [⟨s.nextId, q, (s.queueD q).ctx, none, (s.hand q).addr.toNat, (s.hand q).bytes.toNat, v.getLsbD 0⟩] ∧
      SameMemory s t ∧ t.queues = s.queues) ∧
  (∀ i, (i = .hoGoToHost q v ∧ v.getLsbD 0 = false) ∨ (i = .hoGoToDevice q v ∧ v.getLsbD 0 = true) → v.getLsbD 1 = true →
    let h := s.hand q
    ((s.queue? q).isSome → h.busy = false → (h.addr.toNat % 4096 ≠ 0 ∨ h.bytes.toNat % 4096 ≠ 0 ∨ h.bytes = 0) → Comes i s fun t =>
      t = { s with handregs := t.handregs } ∧ t.hand q = { h with dir := v.getLsbD 0, err := true, cause := 0x04 }) ∧
    ((s.queue? q).isSome → h.busy = true → Comes i s fun t =>
      t = { s with handregs := t.handregs } ∧ t.hand q = { h with dir := v.getLsbD 0, err := h.err && !v.getLsbD 3 }) ∧
    (s.queue? q = none → Comes i s fun t =>
      t = { s with handregs := t.handregs } ∧ t.hand q = { h with dir := v.getLsbD 0 }))

/-- HANDOVER_COMPLETE (R247, R248): it ends; a range whose first page has no translation does nothing and is in error; one page of host
memory has its dirty lines of L2 written back (TO_HOST), or its lines dropped and the signature bits of its blocks set (TO_DEVICE); one
page of HBM or of a peer stands as it was. -/
def HandoverStep (s : State) (id : Nat) : Prop :=
  ∀ h, s.handovers.find? (·.id == id) = some h →
  Comes (.handoverComplete id) s (fun t => (∀ x ∈ t.handovers, x.id ≠ id) ∧ (h.packet = none → (t.hand h.queue).busy = false)) ∧
  (∀ e, s.xlate (s.ctxD h.ctx) h.addr .rd = .error e → 4096 ≤ h.bytes →
    (h.packet = none → Comes (.handoverComplete id) s fun t => SameMemory s t ∧ (t.hand h.queue).err = true ∧ (t.hand h.queue).cause = 0x06) ∧
    (∀ k p q, h.packet = some k → s.packet? k = some p → s.queue? p.queue = some q → q.error = false → q.destroyed = false →
      Comes (.handoverComplete id) s fun t => SameMemory s t ∧ Gone t k ∧ t.vectors = s.vectors ++ [q.vector] ∧ t.queue? p.queue =
        some { q with error := true, cause := 0x06, errIndex := p.index, errPacket := none, errUnread := false })) ∧
  (∀ loc, s.xlate (s.ctxD h.ctx) h.addr .rd = .ok loc → h.bytes = 4096 →
    (h.packet = none → Comes (.handoverComplete id) s fun t => (t.hand h.queue).err = false ∧ (t.hand h.queue).cause = 0) ∧
    let inPage := fun (a : Nat) => loc.pa ≤ a ∧ a < loc.pa + 4096
    ((loc.port.isSome ∨ isHost loc.pa = false) → Comes (.handoverComplete id) s fun t => SameMemory s t ∧ t.wlog = s.wlog) ∧
    (loc.port = none → isHost loc.pa = true → h.toDev = false → Memory.wf s.mem = true → (s.hostCache.map (·.addr)).Nodup →
      Comes (.handoverComplete id) s fun t =>
        (∀ x ∈ s.hostCache, x.dirty = true → inPage x.addr → memGet t.mem x.addr = x.val) ∧
        (∀ a, (∀ x ∈ s.hostCache, x.addr = a → x.dirty = false ∨ ¬inPage a) → memGet t.mem a = memGet s.mem a) ∧
        t.hostCache.map (fun x => (x.addr, x.val)) = s.hostCache.map (fun x => (x.addr, x.val)) ∧
        ∀ x ∈ t.hostCache, inPage x.addr → x.dirty = false) ∧
    (loc.port = none → isHost loc.pa = true → h.toDev = true → Comes (.handoverComplete id) s fun t =>
      t.mem = s.mem ∧ (∀ x ∈ t.hostCache, ¬inPage x.addr) ∧ (∀ x ∈ s.hostCache, ¬inPage x.addr → x ∈ t.hostCache) ∧
      ∀ k, k < 64 → (loc.pa / 64 + k, none) ∈ t.wlog))

/-- The bytes of a page size of SIZE (R126). -/
def pageBytes (size : Nat) : Nat := [2 ^ 12, 2 ^ 16, 2 ^ 22, 2 ^ 26, 2 ^ 32].getD size 0

/-- TLBI_GO, TLBI_ALL and TLBI_COMPLETE (R126). -/
def InvalidationSteps (s : State) (v : Word) : Prop :=
  (v.getLsbD 8 = true → v.getLsbD 4 = false → s.tlbi.job = none → (v.toNat / 32) % 8 < 5 → Comes (.tlbiGo v) s fun t =>
    let n := pageBytes (v.toNat / 32 % 8)
    t = { s with tlbi := t.tlbi } ∧ t.tlbi.addr = s.tlbi.addr ∧
    t.tlbi.job = some (v.toNat % 16, s.tlbi.addr.toNat / n * n, n)) ∧
  (v.getLsbD 8 = true → v.getLsbD 4 = true → s.tlbi.job = none → Comes (.tlbiAll v) s fun t =>
    t = { s with tlbi := t.tlbi } ∧ t.tlbi.job = some (v.toNat % 16, 0, 2 ^ 64)) ∧
  (∀ c base n, s.tlbi.job = some (c, base, n) → s.detHolds c base n = false → Comes .tlbiComplete s fun t =>
    t.tlbi.job = none ∧ (∀ x ∈ t.tlb, x.ctx = c → x.va + x.bytes ≤ base ∨ base + n ≤ x.va) ∧
    ∀ m ∈ t.masts, ∀ x ∈ m.tlb, x.ctx = c → x.va + x.bytes ≤ base ∨ base + n ≤ x.va) ∧
  (∀ c base n, s.tlbi.job = some (c, base, n) → s.detHolds c base n = true → Comes .tlbiComplete s fun t => t = s)

/-- A write of a word to a register leaves memory, teams, queues, contexts and what every other word of its page reads. -/
def WritesOnly (s : State) (off : Nat) (v : Word) (Q : State → Prop) : Prop :=
  Comes (.registerWrite off v) s fun t => Q t ∧ SameMemory s t ∧ t.teams = s.teams ∧ t.queues = s.queues ∧ t.ctxs = s.ctxs ∧
    ∀ o, o % 4 = 0 → o ≠ off → t.readReg o = s.readReg o

/-- Plain writes to the words with fields of their own (R5, R89, R99, R126, R243, R248, R353): FEAT_ACCEPT before START alone, the control
registers of invalidation and of the bead table without GO, a kick page, and LFAULT. -/
def FieldWrites (s : State) (v : Word) : Prop :=
  (∀ k, k < 8 → (s.start.st = .awaitAccept → WritesOnly s (0x120 + 4 * k) v fun t => t.readReg (0x120 + 4 * k) = v) ∧
    (s.start.st ≠ .awaitAccept → Comes (.registerWrite (0x120 + 4 * k) v) s fun t => t = s)) ∧
  (v.getLsbD 8 = false → WritesOnly s 0x508 v fun t => t.tlbi.job = s.tlbi.job ∧
    (t.readReg 0x508).toNat = v.toNat % 256 + if s.tlbi.job.isSome then 512 else 0) ∧
  (v.getLsbD 5 = false → WritesOnly s 0x600 v fun t => t.bead.job = s.bead.job ∧
    (t.readReg 0x600).toNat = v.toNat % 32 + (if s.bead.job.isSome then 64 else 0) + v.toNat / 256 % 4 * 256 + v.toNat / 65536 * 65536) ∧
  (∀ q, q < 1024 → let page := 0x100000 + 0x1000 * q
    (∀ o, o ∈ [0x100, 0x104, 0x108, 0x10C] → WritesOnly s (page + o) v fun t => t.readReg (page + o) = v) ∧
    (v.getLsbD 1 = false → WritesOnly s (page + 0x110) v fun t =>
      let old := s.readReg (page + 0x110)
      let new := t.readReg (page + 0x110)
      new.getLsbD 0 = v.getLsbD 0 ∧ new.getLsbD 2 = old.getLsbD 2 ∧ new.getLsbD 3 = (old.getLsbD 3 && !v.getLsbD 3) ∧
        new.extractLsb' 8 8 = old.extractLsb' 8 8) ∧
    WritesOnly s (page + 0x008) v fun t =>
      (t.readReg (page + 0x008)).getLsbD 16 = ((s.readReg (page + 0x008)).getLsbD 16 && !v.getLsbD 16) ∧
      (t.readReg (page + 0x008)).extractLsb' 0 16 = (s.readReg (page + 0x008)).extractLsb' 0 16) ∧
  (∀ ctx, ctx < 16 → v.getLsbD 16 = false → v.getLsbD 17 = false → WritesOnly s (0xC00 + 32 * ctx) v fun t =>
    let old := s.readReg (0xC00 + 32 * ctx)
    let new := t.readReg (0xC00 + 32 * ctx)
    new.getLsbD 0 = old.getLsbD 0 ∧ new.getLsbD 1 = (old.getLsbD 1 && !v.getLsbD 1) ∧ new.extractLsb' 8 8 = old.extractLsb' 8 8)

/-- REGISTER_WRITE (R5): a read-write register reads back what was written; a write-one-to-clear bit clears. -/
def RegisterSteps (s : State) (v : Word) : Prop :=
  (∀ off, off ∈ [0x404, 0x500, 0x504, 0x608, 0x60C, 0x610, 0x614, 0xB00, 0xB04] → Comes (.registerWrite off v) s fun t =>
    t.readReg off = v ∧ SameMemory s t ∧ t.teams = s.teams ∧ t.queues = s.queues ∧ t.ctxs = s.ctxs) ∧
  (Comes (.registerWrite 0x408 v) s fun t => t = { s with cmd := { s.cmd with lost := s.cmd.lost && !v.getLsbD 1 } })

/-- What the fault registers of a context read (R353), RETRY and ABORT (R354). -/
def FaultSteps (s : State) (ctx : Nat) (v : Word) : Prop :=
  (∀ n, ctx < 16 → s.fcount ctx = n → n < 2 ^ 32 →
    let f := s.faultOf ctx
    let r := fun o => s.readReg (0xC00 + 32 * ctx + o)
    (r 0).getLsbD 0 = decide (n ≠ 0) ∧ (r 0).getLsbD 1 = f.lfault ∧ (r 0).extractLsb' 8 8 = f.lcode ∧ r 4 = BitVec.ofNat 32 n ∧
    (n = 0 → r 8 = 0 ∧ r 12 = 0) ∧
    (∀ va rest, n ≠ 0 → (s.ctxD ctx).fvas = va :: rest → r 8 = BitVec.ofNat 32 va ∧ r 12 = BitVec.ofNat 32 (va / 2 ^ 32)) ∧
    ∀ k, k < 4 → r (16 + 4 * k) = f.words.getD k 0) ∧
  (∀ c, s.ctx? ctx = some c → v.getLsbD 16 = true → v.getLsbD 17 = false → Comes (.retry ctx v) s fun t =>
    SameMemory s t ∧ (t.ctx? ctx).map (·.fvas) = some [] ∧
    ∀ u ∈ t.teams, t.ofCtx ctx u = true → ∀ x ∈ u.threads, x.st ≠ .faulted) ∧
  (v.getLsbD 17 = true → Comes (.abort ctx v) s fun t =>
    ∀ l ∈ s.launches, l.ctx = ctx → (∃ u ∈ s.teams, u.launch = l.id ∧ ∃ x ∈ u.threads, x.st = .faulted) →
      ∀ m ∈ t.launches, m.id ≠ l.id)

/-- A write of BEAD_CTL with GO and an OP reaches a bead table that is not busy (R243). -/
def BeadReady (s : State) (v : Word) (op : Nat) : Prop := v.getLsbD 5 = true ∧ v.toNat / 4 % 4 = op ∧ s.bead.job = none

/-- A bead-table command has been refused with a RESULT: no slot has changed and none is in progress (R244). -/
def BeadRefused (s t : State) (v : Word) (r : BitVec 8) : Prop :=
  t = { s with bead := t.bead } ∧ t.bead.slots = s.bead.slots ∧ t.bead.cur.toNat = v.toNat / 256 % 4 ∧ t.bead.job = none ∧ t.bead.result = r

/-- LEARN, LOAD, RECODE, a GO without an operation, and their completions (R243 to R245). -/
def BeadSteps (s : State) (v : Word) : Prop :=
  let slot := v.toNat % 4
  (BeadReady s v 1 → v.toNat / 65536 ≠ 0 → s.codedCount slot = 0 → Comes (.learn v) s fun t =>
    t = { s with bead := t.bead } ∧ t.bead.job = some (.learn slot (v.toNat / 65536) (v.getLsbD 4)) ∧
    t.bead.hist = List.replicate 256 0 ∧ ∀ x, t.bead.slots[slot]? = some x → x.st = .learning) ∧
  (BeadReady s v 1 → v.toNat / 65536 = 0 → Comes (.learn v) s fun t => BeadRefused s t v 3) ∧
  (BeadReady s v 1 → v.toNat / 65536 ≠ 0 → s.codedCount slot ≠ 0 → Comes (.learn v) s fun t => BeadRefused s t v 1) ∧
  (BeadReady s v 2 → s.bead.addr.toNat % 256 ≠ 0 → Comes (.load v) s fun t => BeadRefused s t v 3) ∧
  (BeadReady s v 2 → s.bead.addr.toNat % 256 = 0 → s.codedCount slot ≠ 0 → Comes (.load v) s fun t => BeadRefused s t v 1) ∧
  (BeadReady s v 3 → s.bead.addr.toNat % 256 ≠ 0 ∨ s.bead.len.toNat % 256 ≠ 0 → Comes (.recode v) s fun t => BeadRefused s t v 3) ∧
  (∀ i adopt, s.bead.job = some (.learn i 0 adopt) → Comes .learnComplete s fun t =>
    t = { s with bead := t.bead } ∧ t.bead.job = none ∧ t.bead.result = 0 ∧
    (∀ x, t.bead.slots[i]? = some x → x.st = .frozen ∧ lensValid x.lens = true) ∧
    t.bead.cur = if adopt then BitVec.ofNat 2 i else s.bead.cur) ∧
  (BeadReady s v 2 → s.bead.addr.toNat % 256 = 0 → s.codedCount slot = 0 → Comes (.load v) s fun t =>
    t = { s with bead := t.bead } ∧ t.bead.slots = s.bead.slots ∧
    t.bead.job = some (.load slot s.bead.addr.toNat (v.getLsbD 4))) ∧
  (∀ i addr adopt bs, s.bead.job = some (.load i addr adopt) → s.readPhys addr 256 = some bs → Comes .loadComplete s fun t =>
    t = { s with bead := t.bead } ∧ t.bead.job = none ∧
    (lensValid (bs.map (·.toNat)) = true → t.bead.result = 0 ∧ ∀ x, t.bead.slots[i]? = some x → x = ⟨.frozen, bs.map (·.toNat)⟩) ∧
    (lensValid (bs.map (·.toNat)) = false → t.bead.result = 2 ∧ t.bead.slots = s.bead.slots)) ∧
  (BeadReady s v 3 → s.bead.addr.toNat % 256 = 0 → s.bead.len.toNat % 256 = 0 → Comes (.recode v) s fun t =>
    t = { s with bead := t.bead } ∧ t.bead.job = some (.recode slot s.bead.addr.toNat s.bead.len.toNat)) ∧
  (∀ i addr len, s.bead.job = some (.recode i addr len) → (s.nsec.map (·.1)).Nodup → Memory.wf s.mem = true → Comes .recodeComplete s fun t =>
    t.bead.job = none ∧ t.bead.result = 0 ∧ ∀ blk n d, (blk, n) ∈ s.nsec → n < 8 → 256 * blk + 256 ≤ Config.hbmEnd →
      (addr ≤ 256 * blk → 256 * blk < addr + len → (memGet s.mem (256 * blk)).toNat % 4 = i → s.decodedBlock (256 * blk) = (d, 8) →
        (∀ x ∈ d, x.2 = false) → (∀ lens, s.slotLens s.bead.cur.toNat = some lens → lensValid lens = true) →
        t.decodedBlock (256 * blk) = (d, 8) ∧
        (s.slotLens s.bead.cur.toNat = none → t.nsecAt (256 * blk) = 8) ∧
        (∀ lens, s.slotLens s.bead.cur.toNat = some lens →
          let bits := (d.map fun x => lens.getD x.1.toNat 0).sum
          t.nsecAt (256 * blk) = (if bits ≤ 1696 then (12 + (bits + 7) / 8 + 31) / 32 else 8) ∧
          (bits ≤ 1696 → (memGet t.mem (256 * blk)).toNat % 4 = s.bead.cur.toNat)) ∧
        ∀ k, 32 * t.nsecAt (256 * blk) ≤ k → k < 256 → memGet t.mem (256 * blk + k) = memGet s.mem (256 * blk + k)) ∧
      (256 * blk < addr ∨ addr + len ≤ 256 * blk ∨ (memGet s.mem (256 * blk)).toNat % 4 ≠ i →
        t.nsecAt (256 * blk) = n ∧ ∀ k, k < 256 → memGet t.mem (256 * blk + k) = memGet s.mem (256 * blk + k))) ∧
  (BeadReady s v 0 → Comes (.beadGoOpNone v) s fun t => t = { s with bead := t.bead } ∧ t.bead.job = none ∧ t.bead.result = 3)

/-- A packet whose turn it is has passed its checks (R106, R109). -/
def Turn (s : State) (p : Nat) (x : Packet) (tail : List Word) : Prop :=
  s.packet? p = some x ∧ s.isReady x = true ∧ s.frameAhead x = false ∧
    s.packetChecks (s.ctxD (s.queueD x.queue).ctx) x = ([], tail)
/-- The packet has started (R108). -/
def Started (s t : State) (p : Nat) (x : Packet) (tail : List Word) : Prop :=
  t.packet? p = some { x with tail := tail, st := .started, since := s.ns }

/-- NOP, DISPATCH, DRAW, COPY, WAIT, HANDOVER, ENCODE and HYPRES as they start (R102 to R105, R247, R378). -/
def PacketStarts (s : State) (p : Nat) (x : Packet) (tail : List Word) : Prop :=
  Turn s p x tail →
  (x.type = 0 → Comes (.nopPacket p) s fun t => Gone t p ∧ SameMemory s t) ∧
  (x.type = 1 → Comes (.dispatch p) s fun t => Started s t p x tail ∧ SameMemory s t ∧
    ∃ l ∈ t.launches, l.packet = p ∧ l.draw = none ∧ l.admitted = false ∧ l.entry = x.w 0x04 ∧ l.codeBase = x.d 0x08 ∧
      l.arg = BitVec.ofNat 64 (x.d 0x28) ∧ l.seed = BitVec.ofNat 64 (x.d 0x30) ∧ l.hyp = x.hyp ∧ l.det = x.det ∧
      l.tilesX = x.w 0x20 % 65536 ∧ l.tilesY = x.w 0x20 / 65536 % 65536 ∧ l.tilesZ = x.w 0x24 % 65536) ∧
  (x.type = 2 → Comes (.draw p) s fun t => Started s t p x tail ∧ SameMemory s t ∧
    ∃ l ∈ t.launches, l.packet = p ∧ l.admitted = false ∧ l.codeBase = x.d 0x08 ∧ l.hyp = x.hyp ∧
      ∃ d, l.draw = some d ∧ d.groups = x.w 0x20 ∧ d.meshEntry = x.w 0x10 ∧ d.nextTeam = 0) ∧
  (∀ i k, (i, k) ∈ [(Instr.copyLinear p, 0), (.copyFill p, 1), (.copyTwoD p, 2)] → x.type = 3 → x.w 0x04 % 4 = k →
    Comes i s fun t => Started s t p x tail ∧ t = { s with packets := t.packets }) ∧
  (x.type = 5 → Comes (.wait p) s fun t => Started s t p x tail ∧ t = { s with packets := t.packets }) ∧
  (∀ i d, (i, d) ∈ [(Instr.handoverToHost p, 0), (.handoverToDevice p, 1)] → x.type = 6 → x.w 0x18 % 2 = d → Comes i s fun t =>
    Started s t p x tail ∧ SameMemory s t ∧
    t.handovers = s.handovers ++ [⟨s.nextId, x.queue, (s.queueD x.queue).ctx, some p, x.d 0x08, x.d 0x10, d == 1⟩]) ∧
  (x.type = 7 → Comes (.encode p) s fun t => Started s t p x tail ∧ SameMemory s t ∧
    ∃ y ∈ t.streams, y.packet = some p ∧ y.engine = x.w 0x18 % 16 ∧ y.stream = x.w 0x18 / 16 % 8 ∧ y.target = x.d 0x08 ∧ y.tiles = []) ∧
  (let c := (s.queueD x.queue).ctx
    let h := x.w 0x08 % 256
    let alone := ∀ r ∈ s.running, r.resolves c = false
    (x.type = 8 → x.w 0x08 / 256 % 2 = 0 → Comes (.hypresConfirm p) s fun t =>
      ∃ id todo, .resolve id c (some p) none todo ∈ t.running ∧
        (alone → todo = none ∧ (hypAt (t.ctxD c).hyps h).st ∈ [.merged, .free])) ∧
    (x.type = 8 → x.w 0x08 / 256 % 2 = 1 → (hypAt (s.hypsAhead c) h).st = .opened → Comes (.hypresRefute p) s fun t =>
      ∃ id todo, .resolve id c (some p) none todo ∈ t.running ∧ (alone → todo = none ∧ (hypAt (t.ctxD c).hyps h).st = .refuted)) ∧
    (x.type = 8 → x.w 0x08 / 256 % 2 = 1 → (hypAt (s.hypsAhead c) h).st ≠ .opened → Comes (.hypresRefute p) s fun t => Gone t p))

/-- SIGNAL (R105): eight bytes at a page of local HBM without COMP in the root view take VALUE, or the old value plus VALUE; the packet is
complete. -/
def SignalStarts (s : State) (p : Nat) (x : Packet) (tail : List Word) : Prop :=
  Memory.wf s.mem = true → ∀ i add pa, (i, add) ∈ [(Instr.signalPacketWrite p, 0), (.signalPacketAdd p, 1)] → Turn s p x tail → x.type = 4 → x.w 0x18 % 2 = add →
    s.xrange (s.ctxD (s.queueD x.queue).ctx) (x.d 0x08) 8 .wr = .ok [(⟨pa, false, none⟩, 8)] → pa + 8 ≤ Config.hbmEnd →
    (∀ k, k < 8 → pa + k ∉ s.poison) → (∀ c ∈ s.ctxs, c.versions = []) →
    Comes i s fun t => Gone t p ∧
      (∀ k, k < 8 → memGet t.mem (pa + k) = BitVec.ofNat 8
        ((x.d 0x10 + if add = 1 then leNat ((List.range 8).map fun j => memGet s.mem (pa + j)) else 0) / 256 ^ k)) ∧
      ∀ a, a < Config.hbmEnd → a < pa ∨ pa + 8 ≤ a → memGet t.mem a = memGet s.mem a

/-- A COPY moves the bytes of R250: byte i of row r comes from SRC + r × SRC_PITCH + i in the root view, or is byte i mod 8 of the pattern
of a FILL, and goes to DST + r × DST_PITCH + i; all of them lie in pages of local HBM without COMP, no two at one place. -/
def CopyMoves (s : State) (c : Ctx) (x : Packet) (src : Nat → Nat → Byte) (dst : Nat → Nat → Nat) : Prop :=
  let rows := max 1 (x.w 0x20)
  Memory.wf s.mem = true ∧ (∀ y ∈ s.ctxs, y.versions = []) ∧
  (∀ r i, r < rows → i < x.d 0x18 →
    (x.w 0x04 % 4 = 1 → src r i = BitVec.ofNat 8 (x.d 0x08 / 256 ^ (i % 8))) ∧
    (x.w 0x04 % 4 ≠ 1 → ∃ pa, s.xlate c (x.d 0x08 + r * x.w 0x24 + i) .rd = .ok ⟨pa, false, none⟩ ∧ pa < Config.hbmEnd ∧
      pa ∉ s.poison ∧ memGet s.mem pa = src r i) ∧
    s.xlate c (x.d 0x10 + r * x.w 0x28 + i) .wr = .ok ⟨dst r i, false, none⟩ ∧ dst r i < Config.hbmEnd) ∧
  ∀ r i k j, r < rows → i < x.d 0x18 → k < rows → j < x.d 0x18 → dst r i = dst k j → r = k ∧ i = j

/-- The end of a COPY, a WAIT and a finished launch's packet, which releases the successors of its tail one by one first (R105, R108, R110,
R250, R373). -/
def PacketEnds (s : State) (p : Nat) (x : Packet) : Prop :=
  s.packet? p = some x →
  (∀ done, x.type = 3 → x.st = .started → s.onEngine x = true → Comes (.copyEngineDone p done) s fun t => Gone t p) ∧
  (∀ done (src : Nat → Nat → Byte) (dst : Nat → Nat → Nat), x.type = 3 → x.st = .started → s.onEngine x = true → x.tail = [] →
    CopyMoves s (s.ctxD (s.queueD x.queue).ctx) x src dst → Comes (.copyEngineDone p done) s fun t =>
      (∀ r i, r < max 1 (x.w 0x20) → i < x.d 0x18 → memGet t.mem (dst r i) = src r i) ∧
      ∀ a, (∀ r i, r < max 1 (x.w 0x20) → i < x.d 0x18 → dst r i ≠ a) → memGet t.mem a = memGet s.mem a) ∧
  (∀ s1 v, x.type = 5 → x.st = .started → s.waitValue (s.ctxD (s.queueD x.queue).ctx) x = (s1, some v) → Comes (.waitPoll p) s fun t =>
    (x.waitHolds v = true → Gone t p) ∧ (x.waitHolds v = false → t = s1)) ∧
  (∀ q s1 v, x.type = 5 → x.st = .started → s.queue? x.queue = some q → q.error = false → x.w 0x24 ≠ 0 →
    x.since + 1000 * x.w 0x24 ≤ s.ns → s.waitValue (s.ctxD (s.queueD x.queue).ctx) x = (s1, some v) → x.waitHolds v = false →
    Comes (.waitTimeout p) s fun t => t.packet? p = some { x with st := .read } ∧
      t.queue? x.queue = some { q with error := true, cause := 0x07, errIndex := x.index, errPacket := some p, errUnread := false } ∧
      t.vectors = s.vectors ++ [q.vector]) ∧
  (∀ k r, x.st = .finished → x.left = k :: r →
    (∀ s1 bs, s.readRoot (s.ctxD (s.queueD x.queue).ctx) (x.succ k) 64 = (s1, some bs) → Comes (.packetComplete p) s fun t =>
      t.packet? p = some { x with left := r } ∧ t.queues = s.queues ∧ ∃ y ∈ t.packets, y.parent = some p ∧ y.place = k ∧ y.queue = x.queue ∧
        y.index = x.index ∧ y.depth = x.depth + 1 ∧ y.st = .read ∧ y.words = leWords bs) ∧
    (∀ s1 q, s.readRoot (s.ctxD (s.queueD x.queue).ctx) (x.succ k) 64 = (s1, none) → s.queue? x.queue = some q → q.error = false →
      Comes (.packetComplete p) s fun t => t.packet? p = some { x with left := [] } ∧ t.vectors = s.vectors ++ [q.vector] ∧
        t.packets.map (fun y => (y.id, y.st)) = s.packets.map (fun y => (y.id, y.st)) ∧ t.queue? x.queue =
          some { q with error := true, cause := 0x06, errIndex := x.index, errPacket := none, errUnread := false })) ∧
  (x.st = .finished → x.left = [] → (∀ y ∈ s.packets, y.parent ≠ some p) → Comes (.packetComplete p) s fun t => Gone t p ∧ SameMemory s t ∧
    (∀ q, s.queue? x.queue = some q → x.header / 1024 % 2 = 1 → t.vectors = s.vectors ++ [q.vector]))

/-- The rounds, from one at this moment on, that fall within the bound by which R113 has a queue mapped. -/
def roundsOf (s : State) (q : Queue) : Nat := (q.due.getD s.ns - s.ns) / 250000 + 1
/-- Rounds of 64 slots each can map every queue of some classes that waits with work within its bound. -/
def BoundsFit (s : State) (cls : Nat) : Prop :=
  let waits := fun (q : Queue) => q.mapped.isNone && s.hasWork q && decide (q.cls ≤ cls)
  ∀ x ∈ s.queues, waits x = true →
    (s.queues.filter fun y => waits y && decide (roundsOf s y ≤ roundsOf s x)).length ≤ 64 * roundsOf s x

/-- PACKET_CORE_SCAN reads the next packet of a mapped queue that has work and writes the consumed index at CONSUMED_ADDR (R93, R100).
MAPPING_ROUND, once its time has come, maps at most one queue to a slot (R113): no queue that waited with work is left out while a slot
is free. Where rounds of 64 slots can keep the bounds of all that wait, the one with the earlier bound goes first, then the one of the
higher class; and a queue for which this round is the last within its bound is mapped where such rounds can keep the bounds of its own
class and of those above it. Where no queue waits, only the queues that the round names lose their slots; else others may too. What R113
leaves open here is the model's choice (log entries 63 and 86). -/
def ScanSteps (s : State) (q : Nat) : Prop :=
  (∀ x s1 bs s2, s.queue? q = some x → x.mapped.isSome → s.hasWork x = true → x.w ≠ x.c →
    s.packets.find? (fun p => p.queue == q && p.parent.isNone && p.st == .read) = none →
    s.readRoot (s.ctxD x.ctx) (x.ring + 64 * (x.c.toNat % 2 ^ x.size)) 64 = (s1, some bs) →
    s1.writeRoot (s.ctxD x.ctx) x.consumedAddr (natLE (x.c + 1).toNat 8) = some s2 → Comes (.packetCoreScan q) s fun t =>
      t.queue? q = some { x with c := x.c + 1 } ∧
      (∃ p ∈ t.packets, p.queue = q ∧ p.index = x.c ∧ p.words = leWords bs ∧ p.st = .read ∧ p.parent = none ∧ p.depth = 1) ∧
      ∀ pa, Memory.wf s.mem = true → (∀ y ∈ s.ctxs, y.versions = []) →
        s1.xrange (s.ctxD x.ctx) x.consumedAddr 8 .wr = .ok [(⟨pa, false, none⟩, 8)] → pa + 8 ≤ Config.hbmEnd →
        (∀ k, k < 8 → memGet t.mem (pa + k) = BitVec.ofNat 8 ((x.c + 1).toNat / 256 ^ k)) ∧
        ∀ a, a < pa ∨ pa + 8 ≤ a → memGet t.mem a = memGet s.mem a) ∧
  (∀ unmap, s.roundAt ≤ s.ns → (s.queues.map (·.num)).Nodup → (∀ a ∈ s.queues, ∀ k, a.mapped = some k → k < 64) →
    (∀ a ∈ s.queues, ∀ b ∈ s.queues, ∀ k, a.mapped = some k → b.mapped = some k → a.num = b.num) → Comes (.mappingRound unmap) s fun t =>
      let slot := fun (a : Queue) => (t.queue? a.num).bind (·.mapped)
      let waits := fun (a : Queue) => a ∈ s.queues ∧ a.mapped = none ∧ s.hasWork a = true
      t = { s with queues := t.queues, roundAt := t.roundAt } ∧ t.roundAt = s.roundAt + 250000 ∧
      t.queues.map (·.num) = s.queues.map (·.num) ∧ (∀ a ∈ t.queues, ∀ k, a.mapped = some k → k < 64) ∧
      (∀ a ∈ t.queues, ∀ b ∈ t.queues, ∀ k, a.mapped = some k → b.mapped = some k → a.num = b.num) ∧
      (∀ a, waits a → slot a = none → ∀ k, k < 64 → ∃ b ∈ t.queues, b.mapped = some k) ∧
      (∀ a b i j, BoundsFit s 3 → waits a → waits b → a.cls ≤ 3 → b.cls ≤ 3 → a.due = some i → b.due = some j → slot b ≠ none →
        i < j ∨ (i = j ∧ a.cls < b.cls) → slot a ≠ none) ∧
      (∀ a, waits a → roundsOf s a = 1 → BoundsFit s a.cls → slot a ≠ none) ∧
      ((∀ a, ¬waits a) → ∀ a ∈ s.queues, ∀ k, a.mapped = some k → a.num ∉ unmap → slot a = some k))
/-- ADMISSION_STEP with one DISPATCH waiting on an empty device (R117 to R119, R121, R122): a team on each of as many masts as the
launch has teams, its threads READY at the entry block. -/
def AdmissionStep (s : State) (l : Launch) : Prop :=
  s.launches = [l] → s.teams = [] → l.draw = none → l.admitted = false → Room.le l.shape.need mastRoom = true →
  l.teams ≤ (coreMasts (s.ctxD l.ctx).coreSet).length → Comes .admissionStep s fun t =>
    t.launches = [{ l with admitted := true }] ∧ t.teams.map (·.num) = List.range l.teams ∧ (t.teams.map (·.mast)).Nodup ∧
    ∀ u ∈ t.teams, u.launch = l.id ∧ u.shape = l.shape ∧ u.count = l.teams ∧ u.mast ∈ coreMasts (s.ctxD l.ctx).coreSet ∧
      u.threads.length = l.shape.tsize ∧ ∀ x ∈ u.threads, x.st = .ready ∧ x.next = l.entry ∧ x.hyp = l.hyp

/-- The six functions of DFUNC and SFUNC and the two constant ones (R375). -/
def testPasses (f : Nat) (a b : ℚ) : Prop :=
  f = 1 ∧ a < b ∨ f = 2 ∧ a = b ∨ f = 3 ∧ a ≤ b ∨ f = 4 ∧ b < a ∨ f = 5 ∧ a ≠ b ∨ f = 6 ∧ b ≤ a ∨ f = 7
/-- How a channel of value v is stored (R377): F32 unchanged, F16 nearest, U8 the nearest integer of 255 times v held in 0 to 1. -/
def ChannelStored (fmt n : Nat) (v : Word) : Prop :=
  if fmt ≤ 1 then
    (f32Finite v → ∀ m : Nat, |255 * max 0 (min 1 (f32Val v)) - n| ≤ |255 * max 0 (min 1 (f32Val v)) - m| ∧
      (m ≠ n → |255 * max 0 (min 1 (f32Val v)) - n| = |255 * max 0 (min 1 (f32Val v)) - m| → n % 2 = 0)) ∧
    (¬f32Finite v → n = if v = 0x7F800000 then 255 else 0)
  else if fmt ≤ 3 then f32Finite v → |f32Val v| ≤ 65504 → n / 2 ^ 10 % 2 ^ 5 ≠ 31 ∧ ∀ m, m < 2 ^ 16 → m / 2 ^ 10 % 2 ^ 5 ≠ 31 →
    |f32Val v - f16Val n| ≤ |f32Val v - f16Val m| ∧ (f16Val m ≠ f16Val n → |f32Val v - f16Val n| = |f32Val v - f16Val m| → n % 2 = 0)
  else n = v.toNat
/-- The value v that a channel takes from the exported value x, the stored value d and the exported alpha a (R377). -/
def Blends (mode : Nat) (x d a v : Word) : Prop :=
  (mode = 0 → v = x) ∧
  (f32Finite x → f32Finite d → (mode = 2 → |f32Val x + f32Val d| ≤ f32Max → Nearest v (f32Val x + f32Val d)) ∧
    (mode = 1 → f32Finite a → ∃ r, Nearest r (1 - f32Val a) ∧
      (|f32Val x * f32Val a + f32Val d * f32Val r| ≤ f32Max → Nearest v (f32Val x * f32Val a + f32Val d * f32Val r))))
/-- The depth and stencil bytes after a pixel that exports to no target (R375, R377), its buffer at pa. -/
def DepthStencil (s t : State) (b : List Byte) (depth : Word) (pa : Nat) : Prop :=
  let field := fun o n => (listVal b o n)
  let ctl := field 0x40 4
  let old := (memGet s.mem (pa + 4)).toNat
  let ref := field 0x44 1
  let passS := ctl.testBit 9 = true → testPasses (ctl / 2 ^ 10 % 8) (Nat.land ref (field 0x45 1) : Nat) (Nat.land old (field 0x45 1) : Nat)
  let passD := ctl.testBit 4 = true → testPasses (ctl / 2 ^ 6 % 8) (f32Val depth) (f32Val (BitVec.ofNat 32 (valueAt s pa 4)))
  let after := fun (op k : Nat) => (memGet t.mem (pa + 4)).getLsbD k =
    if ctl.testBit 9 && (field 0x46 1).testBit k then
      ([old, 0, ref, min 255 (old + 1), old - 1, 255 - old, (old + 1) % 256, (old + 255) % 256].getD op 0).testBit k
    else old.testBit k
  (¬passS → ∀ k, k < 8 → after (field 0x48 4 % 8) k) ∧
  (passS → ¬passD → ∀ k, k < 8 → after (field 0x48 4 / 8 % 8) k) ∧
  (passS → passD → ∀ k, k < 8 → after (field 0x48 4 / 64 % 8) k) ∧
  (passS ∧ passD ∧ ctl.testBit 5 = true → valueAt t pa 4 = depth.toNat) ∧
  (¬(passS ∧ passD ∧ ctl.testBit 5 = true) → valueAt t pa 4 = valueAt s pa 4) ∧
  ∀ x, x < pa ∨ pa + 5 ≤ x → memGet t.mem x = memGet s.mem x
/-- The texel at pa after the export of one pixel to target t with no test (R280, R377). -/
def TargetMerged (s t : State) (b : List Byte) (k : Nat) (out : List Word) (pa : Nat) : Prop :=
  let ctl := listVal b (0x8C + 16 * k) 4
  let fmt := ctl % 16
  let n := [1, 1, 2, 2, 4, 4].getD fmt 4
  let count := if fmt % 2 = 0 then 1 else 4
  (∀ c, c < count → ctl.testBit (6 + c) = true → ∃ d v, ChannelStored fmt (valueAt t (pa + c * n) n) v ∧
    ((fmt ≤ 3 ∧ 1 < fmt → valueAt s (pa + c * n) n / 2 ^ 10 % 2 ^ 5 ≠ 31) → ChannelReads fmt (valueAt s (pa + c * n) n) d) ∧
    Blends (ctl / 16 % 4) (out.getD c 0) d (out.getD 3 0) v) ∧
  ∀ x, (∀ c i, c < count → ctl.testBit (6 + c) = true → i < n → pa + c * n + i ≠ x) → memGet t.mem x = memGet s.mem x

/-- RASTER_PIXEL_TEAM, RASTER_QUAD_TIMEOUT and OUTPUT_MERGE of a draw (R130, R377). -/
def DrawSteps (s : State) (launch : Nat) (l : Launch) (d : DrawData) : Prop :=
  s.launch? launch = some l → l.draw = some d →
  (∀ i, (i = .rasterPixelTeam launch ∧ (d.pixShape.tsize / 4 ≤ d.quads.length ∨ s.drawExhausted l d = true)) ∨
      (i = .rasterQuadTimeout launch ∧ d.lastQuad + 256 ≤ s.cycle) → d.quads ≠ [] → Comes i s fun t =>
    t = { s with launches := t.launches } ∧ ∃ d', (t.launch? launch).bind (·.draw) = some d' ∧
      d'.pixTeams = d.pixTeams ++ [d.quads.take (d.pixShape.tsize / 4)] ∧ d'.quads = d.quads.drop (d.pixShape.tsize / 4)) ∧
  (∀ p, l.hyp = 0 → s.earlierDraw l = false → d.pixels.find? (fun x => !s.pixelHeld l d x) = some p → Comes (.outputMerge launch) s fun t =>
    ∃ d', (t.launch? launch).bind (·.draw) = some d' ∧ d'.pixels = d.pixels.erase p ∧ t.teams = s.teams ∧ t.queues = s.queues) ∧
  (∀ p pa, l.hyp = 0 → s.earlierDraw l = false → d.pixels.find? (fun x => !s.pixelHeld l d x) = some p → NoVersions s →
    Memory.wf s.mem = true →
    let tests := (listVal d.state 0x40 4).testBit 4 || (listVal d.state 0x40 4).testBit 9
    (p.outs = [] → tests = true → s.xlate (s.ctxD l.ctx) (listVal d.state 0x50 8 + p.y * listVal d.state 0x58 4 + p.x * 8) .wr = .ok (hbmLoc pa) →
      CleanHbm s pa 5 → f32Finite p.depth → f32Finite (BitVec.ofNat 32 (valueAt s pa 4)) →
      Comes (.outputMerge launch) s fun t => DepthStencil s t d.state p.depth pa) ∧
    (∀ k out, p.outs = [(k, out)] → tests = false → k < listVal d.state 0x40 4 % 16 → listVal d.state (0x8C + 16 * k) 4 % 16 ≤ 5 →
      let size := [1, 4, 2, 8, 4, 16].getD (listVal d.state (0x8C + 16 * k) 4 % 16) 0
      s.xlate (s.ctxD l.ctx) (listVal d.state (0x80 + 16 * k) 8 + p.y * listVal d.state (0x88 + 16 * k) 4 + p.x * size) .wr = .ok (hbmLoc pa) →
      CleanHbm s pa size → Comes (.outputMerge launch) s fun t => TargetMerged s t d.state k out pa))

/-- ENCODE_FRAME_END (R381): the packet leaves its queue, and the stream is no longer armed; for a packet without a tail record the
bitstream, cut at BUF_BYTES, then OUT_BYTES and OUT_STATUS are in memory. What the engine codes is the codec's (R379). -/
def FrameEndStep (s : State) (engine stream : Nat) : Prop :=
  ∀ x p, s.streams.find? (fun y => y.engine == engine && y.stream == stream) = some x → x.packet.bind s.packet? = some p →
    x.tileCount ≤ x.tiles.length → Comes (.encodeFrameEnd engine stream) s fun t =>
      Gone t p.id ∧ (t.streams.find? fun y => y.engine == engine && y.stream == stream).map (·.packet) = some none ∧
      ∀ s1 pa, p.tail = [] → NoVersions s1 → Memory.wf s1.mem = true →
        let all := Config.encodeFrame x.coderPars x.history x.frame
        let n := min all.length (p.w 0x20)
        s.writeRoot (s.ctxD x.ctx) (p.d 0x10) (all.take (p.w 0x20)) = some s1 → s1.xrange (s.ctxD x.ctx) (p.d 0x28 + 0x20) 8 .wr = .ok (piece pa 8) →
        pa + 8 ≤ Config.hbmEnd →
          valueAt t pa 4 = n % 2 ^ 32 ∧ valueAt t (pa + 4) 4 = (if p.w 0x20 < all.length then 1 else if x.poison then 2 else 0) ∧
          (∀ y, y < pa ∨ pa + 8 ≤ y → memGet t.mem y = memGet s1.mem y) ∧
          ∀ pb, NoVersions s → Memory.wf s.mem = true → s.xrange (s.ctxD x.ctx) (p.d 0x10) n .wr = .ok (piece pb n) → pb + n ≤ Config.hbmEnd →
            (pb + n ≤ pa ∨ pa + 8 ≤ pb) → ∀ i, i < n → memGet t.mem (pb + i) = all.getD i 0

/-- A pipe is served in a cycle in ascending order and once (R155, R163). -/
def NotServed (last : Option (Nat × Nat)) (cycle pipe : Nat) : Prop := ∀ c q, last = some (c, q) → c ≠ cycle ∨ q < pipe

/-- A READY thread that stands in a bin (R149), and one of the warp of a rally pack (R160). -/
def Standing (t : Team) (cycle : Nat) (b : Bin) (warp : Option Nat) (i : Nat) : Prop :=
  i ∈ b.threads ∧ (t.thread i).st = .ready ∧ (t.thread i).readyAt ≤ cycle ∧ ∀ w, warp = some w → i / 32 = w
/-- One of them has waited n cycles. -/
def Waited (t : Team) (cycle : Nat) (b : Bin) (warp : Option Nat) (n : Nat) : Prop :=
  ∃ i, Standing t cycle b warp i ∧ (t.thread i).readyAt + n ≤ cycle
/-- The block of a bin lies whole in the instruction cache; it begins with RALLY or not (R155, R186). -/
def Cached (s : State) (t : Team) (b : Bin) (rally : Bool) : Prop :=
  (s.scanBlock t b.block).present = true ∧ (s.scanBlock t b.block).words.head?.any (fun w => fMaj w == 2 && fFn w == 0) = rally
/-- FILL or GATHER holds of a bin (R148, R149). -/
def Filled (s : State) (t : Team) (b : Bin) : Prop := Cached s t b false ∧ (∃ i, Standing t s.cycle b none i) ∧
  (t.seqcfg.toNat % 64 ≤ (b.threads.filter fun i => (t.thread i).st == .ready && decide ((t.thread i).readyAt ≤ s.cycle)).length ∨
    Waited t s.cycle b none (t.seqcfg.toNat / 256 % 256))
/-- The threads of a quad that may enter a pack from a bin of a pixel team, every one of them READY there unless GATHER has passed (R154). -/
def QuadEnters (s : State) (t : Team) (b : Bin) (q : Nat) : Prop :=
  let live := fun (i : Nat) => i < t.threads.length ∧ (t.thread i).live = true ∧ i / 4 = q
  (∃ i, live i ∧ Standing t s.cycle b none i) ∧ ((∀ i, live i → Standing t s.cycle b none i) ∨
    ((∃ i, live i ∧ i ∉ b.threads) ∧ ∃ i, live i ∧ (t.thread i).st = .ready ∧
      (t.thread i).readyAt + t.seqcfg.toNat / 256 % 256 ≤ s.cycle))
/-- A bin, or a static warp of a rally bin that it is due for, that a pack may be formed from (R149, R154, R160). -/
def Eligible (s : State) (t : Team) (b : Bin) (warp : Option Nat) : Prop :=
  match warp with
  | none => Cached s t b false ∧ (∃ i, Standing t s.cycle b none i) ∧ (t.stage = .pixel → ∃ q, QuadEnters s t b q) ∧
    (Filled s t b ∨ (∀ b' ∈ t.bins, b'.block ≠ b.block → ¬Filled s t b') ∨ Waited t s.cycle b none (t.seqcfg.toNat / 65536))
  | some w => Cached s t b true ∧ w ∈ b.due ∧ ∃ i, Standing t s.cycle b warp i
/-- One bin is not after another in the order of R150. -/
def Ahead (t : Team) (cycle : Nat) (b : Bin) (warp : Option Nat) (b' : Bin) (warp' : Option Nat) : Prop :=
  let age := t.seqcfg.toNat / 65536
  (Waited t cycle b' warp' age → Waited t cycle b warp age ∧ ∀ j, Standing t cycle b' warp' j → ∃ i, Standing t cycle b warp i ∧
    ((t.thread i).readyAt < (t.thread j).readyAt ∨ ((t.thread i).readyAt = (t.thread j).readyAt ∧ b.block ≤ b'.block))) ∧
  (¬Waited t cycle b' warp' age → Waited t cycle b warp age ∨ b.block ≤ b'.block)
/-- What a pick of a team's pack is (R149, R150, R153, R154, R160, R161): the first eligible bin, and of its READY threads one for each
lane, the lowest TID or under the aged choice the one that has waited longest; a quad for each four lanes of a pixel team; all of the
warp of a rally block. -/
def Picked (s : State) (t : Team) (k : Pick) : Prop :=
  let c := s.cycle
  (t.bins.map (·.block)).Nodup → (∀ b ∈ t.bins, b.threads.Pairwise (· < ·) ∧ ∀ i ∈ b.threads, i < t.threads.length) →
  ∃ b ∈ t.bins, b.block = k.block ∧ k.words = (s.scanBlock t b.block).words ∧ Eligible s t b k.warp ∧
    (k.aged = true ↔ Waited t c b k.warp (t.seqcfg.toNat / 65536)) ∧
    (∀ b' ∈ t.bins, b'.block ≠ b.block → ∀ w, Eligible s t b' w → Ahead t c b k.warp b' w) ∧
    (k.warp.isSome → ∀ i, i ∈ k.tids ↔ Standing t c b k.warp i) ∧
    (k.warp = none → t.stage ≠ .pixel → ∀ i, i ∈ k.tids ↔ Standing t c b none i ∧ ∀ j, Standing t c b none j → j % 32 = i % 32 →
      if k.aged then (t.thread i).readyAt < (t.thread j).readyAt ∨ ((t.thread i).readyAt = (t.thread j).readyAt ∧ i ≤ j) else i ≤ j) ∧
    (k.warp = none → t.stage = .pixel → ∀ i, i ∈ k.tids ↔ Standing t c b none i ∧ (t.thread i).live = true ∧ QuadEnters s t b (i / 4) ∧
      ∀ q, QuadEnters s t b q → q % 8 = i / 4 % 8 → if k.aged then ∀ j, Standing t c b none j → j / 4 = q →
          ∃ i', Standing t c b none i' ∧ i' / 4 = i / 4 ∧
            ((t.thread i').readyAt < (t.thread j).readyAt ∨ ((t.thread i').readyAt = (t.thread j).readyAt ∧ i / 4 ≤ q))
        else i / 4 ≤ q)

/-- PACK_FORM (R52, R111, R153, R155): a pipe that has room is served once in a cycle. The pack's class has a claim of a whole issue cycle
on the mast and none higher has, or no class has and it is the highest that can use the pack; a context that the power arbiter holds back
(R128) takes part while it may have another pack in the pipe (log entry 68). The threads leave their bin and enter the pipe at the head
of its block. -/
def FormStep (s : State) (mast pipe : Nat) : Prop :=
  let q0 := (s.mast mast).seq
  let s1 := (s.markMast mast).onSeq mast fun q => { q with formed := some (s.cycle, pipe) }
  let credit := fun (c : Nat) => (100 : Int) ≤ alGetD q0.claims c 0
  pipe < 4 → (s.flight.filter fun p => p.mast == mast && p.pipe == pipe).length < 8 →
  (¬NotServed q0.formed s.cycle pipe → exec (.packForm mast pipe) s = .next s) ∧
  (∀ t k claim q, NotServed q0.formed s.cycle pipe → s1.chooseTeam mast pipe = some (t, k, claim, q) → s.checkBlock k.words = none →
    t ∈ s1.teams ∧ t.mast = mast ∧ s1.pick t = some k ∧ Picked s1 t k ∧
    s1.mayEnter mast pipe (s1.teamCtx t) = true ∧
    (∀ x ∈ s1.teams, x.mast = mast → x.running = true → x.mxSaved = [] → s1.mayEnter mast pipe (s1.teamCtx x) = true → (s1.pick x).isSome →
      (claim = true → credit (s1.teamClass t) ∧ (credit (s1.teamClass x) → s1.teamClass t ≤ s1.teamClass x)) ∧
      (claim = false → ¬credit (s1.teamClass x) ∧ s1.teamClass t ≤ s1.teamClass x)) ∧
    Comes (.packForm mast pipe) s fun u =>
      (∃ pk : Pack, u.flight = s.flight ++ [pk] ∧ pk.team = t.id ∧ pk.mast = mast ∧ pk.pipe = pipe ∧ pk.block = k.block ∧
        pk.pc = k.block ∧ pk.words = k.words ∧ pk.modw = ⟨0, false, 0, 0⟩ ∧ pk.ended = false ∧ pk.formed = s.cycle ∧
        ∀ i, (∃ c ∈ pk.lanes, c.2.tid = i) ↔ i ∈ k.tids) ∧
      (∃ v, u.team? t.id = some v ∧ ∀ i ∈ k.tids, (i < t.threads.length → (v.thread i).st = .issued) ∧
        (∀ b ∈ v.bins, i ∉ b.threads) ∧ ∀ b ∈ v.overflow, i ∉ b.threads) ∧
      (u.mast mast).seq.formed = some (s.cycle, pipe) ∧ SameMemory s u ∧ u.issue = s.issue)

/-- BIN_GATHER_EXPIRY, BIN_AGE_EXPIRY and RALLY_TIMEOUT (R149, R160): the mark of the k-th bin. -/
def ExpirySteps (s : State) (team block : Nat) (tm : Team) (k : Nat) (b : Bin) : Prop :=
  let waited := fun (n : Nat) => ∃ i ∈ b.threads, (tm.thread i).st = .ready ∧ (tm.thread i).readyAt + n ≤ s.cycle
  s.team? team = some tm → tm.bins[k]? = some b → b.block = block →
  (Comes (.binGatherExpiry team block) s fun t => ∃ u b', t.team? team = some u ∧ u.bins[k]? = some b' ∧
    b' = { b with short := b'.short } ∧ (b'.short = true ↔ waited (tm.seqcfg.toNat / 256 % 256)) ∧ u.threads = tm.threads) ∧
  (Comes (.binAgeExpiry team block) s fun t => ∃ u b', t.team? team = some u ∧ u.bins[k]? = some b' ∧
    b' = { b with aged := b'.aged } ∧ (b'.aged = true ↔ waited (tm.seqcfg.toNat / 65536)) ∧ u.threads = tm.threads) ∧
  (∀ warp m lim o, b.rally = some (m, lim) ∨ (b.rally = none ∧ (s.scanBlock tm block).rally = some (m, lim)) →
    lim ≠ 0 → alGet warp b.rounds = some o → o + lim ≤ s.cycle →
    Comes (.rallyTimeout team block warp) s fun t => ∃ u b', t.team? team = some u ∧ u.bins[k]? = some b' ∧
      b' = { b with due := b'.due } ∧ warp ∈ b'.due ∧ u.threads = tm.threads)

/-- ICACHE_FILL (R156, R157): the line of the next address that a block lacks comes from memory into the instruction cache, which holds
64 KiB. -/
def FetchStep (s : State) (team block : Nat) (tm : Team) : Prop :=
  ∀ c b va segs, s.team? team = some tm → s.ctx? (s.launchD tm.launch).ctx = some c → tm.running = true →
    tm.bins.find? (·.block == block) = some b →
    (s.scanBlock tm block).bad = none → (s.scanBlock tm block).missing = some va →
    s.xrange c (va / 128 * 128) 128 .ex (some tm.mast) = .ok segs → (∀ y ∈ (s.homeSegs c 0 segs).2, y.2 = false) →
    (∀ x ∈ (s.mast tm.mast).icache, x.poison = []) → Comes (.icacheFill team block) s fun t =>
      (t.mast tm.mast).icache.length ≤ 512 ∧
      ∃ line ∈ (t.mast tm.mast).icache, line.ctx = c.num ∧ line.line = va / 128 ∧ line.bytes = (s.homeSegs c 0 segs).2.map (·.1)

/-- PIPE_ISSUE (R159): the earliest-formed pack of the pipe that may issue is the one that executes its next word, and a pipe issues one
word in a cycle. -/
def IssueStep (s : State) (mast pipe : Nat) : Prop :=
  (alGet pipe (s.mast mast).seq.issued = some s.cycle → exec (.pipeIssue mast pipe) s = .next s) ∧
  (∀ p tm, alGet pipe (s.mast mast).seq.issued ≠ some s.cycle → s.issueChoice mast pipe = some p → s.team? p.team = some tm →
    tm.place = .resident →
    p ∈ s.flight ∧ p.mast = mast ∧ p.pipe = pipe ∧ p.ended = false ∧ p.reads = [] ∧
    (∀ x ∈ s.flight, x.mast = mast → x.pipe = pipe → s.issuable (s.mast mast).seq x = true →
      s.withheld (s.packCtx x) = false → p.formed ≤ x.formed) ∧
    Comes (.pipeIssue mast pipe) s fun t =>
      t.issue = some (p.noteResults s.cycle) ∧ { p.noteResults s.cycle with usable := p.usable } = p ∧
      t.flight = s.flight.filter (·.id != p.id) ∧ t.teams = s.teams ∧ SameMemory s t ∧
      alGet pipe (t.mast mast).seq.issued = some s.cycle)

/-- R180: in one cycle of a mast's crossbar a lane bank gives its word to the older of two packs that ask for it; the younger keeps its
request, and its team's counter of that bank adds one, up to 2^32 − 1. -/
def LossStep (s : State) (m k : Nat) (a b : Pack) (tm : Team) : Prop :=
  s.flight = [a, b] → a.id ≠ b.id → a.mast = m → b.mast = m → a.older b = true → a.reads = [k] → b.reads = [k] → k < 32 →
  s.team? b.team = some tm →
    (s.gatherOn m).flight = [{ a with reads := [] }, b] ∧
    ∃ u, (s.gatherOn m).team? b.team = some u ∧
      (alGetD u.loss k 0).toNat = min (2 ^ 32 - 1) ((alGetD tm.loss k 0).toNat + 1) ∧
      (∀ j, j ≠ k → alGetD u.loss j 0 = alGetD tm.loss j 0) ∧ u.threads = tm.threads

/-- A pack of one lane stands at the end of its block with the operations ops; its thread has nothing outstanding, no sampler
work, its results have had their cycles (R159, R202), and no PAUSE runs in its team; its pipe may still resolve in this cycle; tags and the payload ring are not beyond their limits, and identities are those
given out. -/
def AtEnd (s : State) (pack : Nat) (p : Pack) (tm : Team) (l : Launch) (lane : Nat) (ln : Lane) (ops : List OpRec) : Prop :=
  s.flight.find? (·.id == pack) = some p ∧ p.ended = true ∧ (∀ u ∈ p.usable, u.2 ≤ s.cycle) ∧ p.lanes = [(lane, ln)] ∧ s.team? p.team = some tm ∧ p.mast = tm.mast ∧
  s.launch? tm.launch = some l ∧ (s.ctx? l.ctx).isSome ∧ ln.tid < tm.threads.length ∧ ln.ops = ops ∧ (tm.thread ln.tid).out = [] ∧
  (∀ n ∈ (tm.thread ln.tid).tagCount, n ≤ 255) ∧ isOrphan (s.ctxD l.ctx).hyps ln.hyp = false ∧
  isOrphan (s.ctxD l.ctx).hyps (tm.thread ln.tid).hyp = false ∧
  (s.mast p.mast).ring.length ≤ 4 ∧ (s.mast p.mast).staging.length ≤ s.stagingRoom p.mast ∧
  NotServed (s.mast p.mast).seq.resolved s.cycle p.pipe ∧ (∀ x ∈ tm.threads, ∀ n, Wait.pause n ∉ x.waits) ∧
  (∀ o ∈ (s.mast p.mast).mxq, o.id < s.nextId) ∧ (∀ o ∈ tm.accOps, o.id < s.nextId) ∧
  ∀ j ∈ (s.mast p.mast).sjobs, j.team = p.team → j.tid ≠ ln.tid

/-- The cycle in which a thread of the team that goes on now is READY: the next one once the team's packs have been formed in this one
(R155; log entry 79). -/
def readyCycle (s : State) (tm : Team) : Nat := if tm.seqAt = some s.cycle then s.cycle + 1 else s.cycle

/-- A thread has taken what its block left and stands READY at the next block, or has exited (R143 line 8). -/
def Committed (s t : State) (p : Pack) (tm : Team) (ln : Lane) : Prop :=
  SameMemory s t ∧ ∃ u, t.team? p.team = some u ∧
    let x := u.thread ln.tid
    x.v = ln.v ∧ x.poison = ln.poison ∧ x.rngs = ln.rngs ∧ x.tilef = ln.tilef ∧ x.wb = ln.win.getD (tm.thread ln.tid).wb ∧
    x.status = (ln.status ||| ln.flags.setWidth 6 ||| if ln.wrap then 0x20 else 0) ∧
    (ln.exits = false → x.preds = ln.preds ∧ x.st = .ready ∧ x.next = ln.next.getD p.pc ∧ x.hyp = (tm.thread ln.tid).hyp ∧
      x.readyAt = readyCycle s tm ∧ ∀ j, j ≠ ln.tid → u.thread j = tm.thread j) ∧
    (ln.exits = true → x.st = .exited)

/-- BLOCK_RESOLVE by line 8 of R143: the thread takes what its block left and stands READY at the next block, or has exited. -/
def CommitStep (s : State) (pack : Nat) (p : Pack) (tm : Team) (l : Launch) (lane : Nat) (ln : Lane) : Prop :=
  AtEnd s pack p tm l lane ln [] → ln.trap = none → ln.poisonAt = none → ln.tagWait = none → ln.pause = none → ln.barWait = [] →
  Comes (.blockResolve pack) s fun t => (∀ x ∈ t.flight, x.id ≠ pack) ∧ Committed s t p tm ln

/-- The thread has no CP.OUT in flight: one that it has is written, where an access of the thread lies, before the access (R315, R321;
log entry 94). -/
def NoOuts (s : State) (p : Pack) (ln : Lane) : Prop :=
  ∀ a ∈ s.asyncs, a.team = p.team → a.tid = ln.tid → ∀ dst o n, a.kind ≠ .out dst o n

/-- BLOCK_RESOLVE of a thread in the root view whose block stored bytes to a page of local HBM without COMP (R259, R337): the store's
bytes stand at its address, and every other byte reads as before. A CP.OUT of the thread to those bytes that is in flight stands before
the store and writes none of them after it (R315; log entry 94). -/
def StoreStep (s : State) (pack : Nat) (p : Pack) (tm : Team) (l : Launch) (lane : Nat) (ln : Lane) : Prop :=
  ∀ word ea bs pa, AtEnd s pack p tm l lane ln [⟨word, .store ea bs⟩] → Memory.wf s.mem = true →
  ln.trap = none → ln.poisonAt = none → resolveHyp (s.ctxD l.ctx).hyps ln.hyp = 0 → bs ≠ [] →
  s.xrange (s.ctxD l.ctx) ea.toNat bs.length .wr (some p.mast) = .ok [(⟨pa, false, none⟩, bs.length)] → pa + bs.length ≤ Config.hbmEnd →
  let done := fun (t : State) => (∀ x ∈ t.flight, x.id ≠ pack) ∧ (∀ k, k < bs.length → t.homeByte (pa + k) = bs.getD k (0, false)) ∧
    ∀ a, a < pa ∨ pa + bs.length ≤ a → t.homeByte a = s.homeByte a
  (NoOuts s p ln → Comes (.blockResolve pack) s done) ∧
  ∀ a dst o, s.asyncs = [a] → a.team = p.team → a.tid = ln.tid → a.kind = .out dst o bs.length → a.segs = piece pa bs.length → a.wrote = [] →
    resolveHyp (s.ctxD l.ctx).hyps a.hyp = 0 → Comes (.blockResolve pack) s fun t =>
      done t ∧ ∃ b ∈ t.asyncs, b.id = a.id ∧ ∀ k, k < bs.length → k ∈ b.wrote

/-! #### What a recorded operation does at its commit -/

/-- A pack of one lane commits a block with one operation and nothing else to wait for than the barriers ws. -/
def Performs (s : State) (pack : Nat) (p : Pack) (tm : Team) (l : Launch) (lane : Nat) (ln : Lane) (ws : List Nat) (word : Nat)
    (op : MemOp) : Prop :=
  AtEnd s pack p tm l lane ln [⟨word, op⟩] ∧ ln.trap = none ∧ ln.poisonAt = none ∧ ln.tagWait = none ∧ ln.pause = none ∧
  ln.barWait = ws ∧ ln.exits = false ∧ Memory.wf s.mem = true
/-- n bytes at an address of the pack's context lie at pa, in a page of local HBM without COMP, free of poison. -/
def Lies (s : State) (p : Pack) (l : Launch) (va n : Nat) (acc : Acc) (pa : Nat) : Prop :=
  s.xrange (s.ctxD l.ctx) va n acc (some p.mast) = .ok [(⟨pa, false, none⟩, n)] ∧ pa + n ≤ Config.hbmEnd ∧
    ∀ k, k < n → pa + k ∉ s.poison
/-- Memory holds the n bytes of a value at pa, and every other byte is as it was. -/
def Holds (s t : State) (pa n v : Nat) : Prop :=
  (∀ k, k < n → memGet t.mem (pa + k) = BitVec.ofNat 8 (v / 256 ^ k)) ∧ ∀ a, a < pa ∨ pa + n ≤ a → memGet t.mem a = memGet s.mem a
/-- The v-registers that a result of n words for d names; a block temporary or DISCARD names none (R257). -/
def lands (ln : Lane) (d : Reg) (n : Nat) : List (Option Nat) :=
  (List.range n).map fun i => if d.toNat < 96 then some (ln.wb + d.toNat + i) else none
/-- The result of an operation is on its way with its words. -/
def onWay (ln : Lane) (d : Reg) (ws : List (Word × Bool)) (pr : Option (Nat × Bool)) : Result := ⟨lands ln d ws.length, pr, 0, .words ws⟩
/-- The pack is gone, its thread is that of u, and no other thread of the team has changed. -/
def Leaves (t : State) (pack : Nat) (p : Pack) (tm : Team) (ln : Lane) (Q : Team → Prop) : Prop :=
  (∀ x ∈ t.flight, x.id ≠ pack) ∧ ∃ u, t.team? p.team = some u ∧ (∀ j, j ≠ ln.tid → u.thread j = tm.thread j) ∧ Q u

/-- The k-th word of a load with a width code (R46, R258). -/
def loaded (w : Nat) (bs : List Byte) (k : Nat) : Word :=
  if w = 5 then (bs.getD 0 0).signExtend 32
  else BitVec.ofNat 32 (((bs.drop (4 * k)).take 4).zipIdx.map fun x => x.1.toNat * 256 ^ x.2).sum

/-- The new value of an atomic on a value of its type (R324): none for a CAS that finds its values unequal. -/
def atomVal (op ty old v nv : Nat) : Option Nat :=
  let w := if ty = 2 then 64 else 32
  let num := fun (x : Nat) => if ty = 1 then (BitVec.ofNat 32 x).toInt else (x : Int)
  match op with
  | 0 => some (if ty = 3 then (fpAdd f32 0 old v).1 else (old + v) % 2 ^ w)
  | 1 => some (if ty = 3 then (fpMinMax f32 false old v).1 else if num v < num old then v else old)
  | 2 => some (if ty = 3 then (fpMinMax f32 true old v).1 else if num old < num v then v else old)
  | 3 => some (BitVec.ofNat 64 old &&& BitVec.ofNat 64 v).toNat
  | 4 => some (BitVec.ofNat 64 old ||| BitVec.ofNat 64 v).toNat
  | 5 => some (BitVec.ofNat 64 old ^^^ BitVec.ofNat 64 v).toNat
  | 6 => some v
  | _ => if old = v then some nv else none
/-- The k-th value of an atomic's data registers. -/
def atomDatum (n : Nat) (ws : List Word) (k : Nat) : Nat :=
  if n = 8 then (ws.getD (2 * k) 0).toNat + 2 ^ 32 * (ws.getD (2 * k + 1) 0).toNat else (ws.getD k 0).toNat

/-- Loads, ATOM and ATOMB (R258, R324, R326). -/
def AccessCommits (s : State) (pack : Nat) (p : Pack) (tm : Team) (l : Launch) (lane : Nat) (ln : Lane) : Prop :=
  (∀ word ea w d pa, Performs s pack p tm l lane ln [] word (.load ea w d) → NoOuts s p ln → w ≤ 5 → NoVersions s →
    Lies s p l ea.toNat (accessBytes (BitVec.ofNat 3 w)) .rd pa → (s.mast p.mast).l1 = [] → Comes (.blockResolve pack) s fun t =>
      t.mem = s.mem ∧ t.poison = s.poison ∧ Leaves t pack p tm ln fun u => (u.thread ln.tid).st = .waiting ∧
        (u.thread ln.tid).out = [onWay ln d ((List.range (accessRegs (BitVec.ofNat 3 w))).map fun k => (loaded w
          ((List.range (accessBytes (BitVec.ofNat 3 w))).map fun j => memGet s.mem (pa + j)) k, false)) none]) ∧
  (∀ word ea op ty sc ws dst pa, Performs s pack p tm l lane ln [] word (.atom ea op ty sc ws dst) → NoOuts s p ln → op ≤ 7 → ty ≤ 3 →
    NoVersions s → resolveHyp (s.ctxD l.ctx).hyps ln.hyp = 0 →
    let n := if ty = 2 then 8 else 4
    Lies s p l ea.toNat n .wr pa → Comes (.blockResolve pack) s fun t =>
      Holds s t pa n ((atomVal op ty (valueAt s pa n) (atomDatum n ws 0) (atomDatum n ws 1)).getD (valueAt s pa n)) ∧
      (∀ k, k < n → pa + k ∉ t.poison) ∧ (∀ x ∈ (t.mast p.mast).l1, x.sector / 4 ≠ pa / 128) ∧ Leaves t pack p tm ln fun u =>
        (u.thread ln.tid).out = match dst with
          | none => []
          | some d => [onWay ln d ((List.range (n / 4)).map fun k => (BitVec.ofNat 32 (valueAt s pa n / 2 ^ (32 * k)), false)) none]) ∧
  (∀ word ea op ty sc v pa, Performs s pack p tm l lane ln [] word (.atomb ea op ty sc v) → NoOuts s p ln → l.det = false →
    Lies s p l ea.toNat (if ty = 2 then 8 else 4) .wr pa → (s.mast p.mast).staging = [] → 0 < s.stagingRoom p.mast →
    Comes (.blockResolve pack) s fun t => SameMemory s t ∧ Leaves t pack p tm ln fun u => (u.thread ln.tid).st = .ready ∧
      (t.mast p.mast).staging = [⟨p.team, l.ctx, ea.toNat, ⟨pa, false, none⟩, op, ty, sc, v⟩])

/-- ACCRD and ACCWR when no MX operation on the tile and no accumulator operation of the team waits (R75 to R77, R272 to R274), and
MX.ZERO (R304). -/
def AccumCommits (s : State) (pack : Nat) (p : Pack) (tm : Team) (l : Launch) (lane : Nat) (ln : Lane) : Prop :=
  let idle := fun (tile : Nat) => tm.accOps = [] ∧ ∀ o ∈ (s.mast p.mast).mxq, o.team ≠ p.team ∨ o.tile ≠ tile
  (∀ word e tile ws n, Performs s pack p tm l lane ln [] word (.accWrite e tile 5 ws) → idle tile →
    n = ((ws.getD 1 0) ++ (ws.getD 0 0) : BitVec 64).toInt → Comes (.blockResolve pack) s fun t =>
      SameMemory s t ∧ Leaves t pack p tm ln fun u => (u.tile tile).elem e = n ∧ e ∉ (u.tile tile).poison ∧
        ∀ k j, (k ≠ tile ∨ j ≠ e) → (u.tile k).elem j = (tm.tile k).elem j) ∧
  (∀ word e tile ws n, Performs s pack p tm l lane ln [] word (.accWrite e tile 0 ws) → idle tile → f32Finite (ws.getD 0 0) →
    f32Val (ws.getD 0 0) = (n : ℚ) * (2 : ℚ) ^ ((tm.tile tile).te - 40) → -2 ^ 63 ≤ n → n < 2 ^ 63 → Comes (.blockResolve pack) s fun t =>
      SameMemory s t ∧ Leaves t pack p tm ln fun u => (u.tile tile).elem e = n ∧
        ∀ k j, (k ≠ tile ∨ j ≠ e) → (u.tile k).elem j = (tm.tile k).elem j) ∧
  (∀ word e tile d, Performs s pack p tm l lane ln [] word (.accRead e tile 5 d) → idle tile → Comes (.blockResolve pack) s fun t =>
    SameMemory s t ∧ Leaves t pack p tm ln fun u => u.tiles = tm.tiles ∧
      let x := BitVec.ofInt 64 ((tm.tile tile).elem e)
      let bad := decide (e ∈ (tm.tile tile).poison)
      (u.thread ln.tid).out = [onWay ln d [(x.setWidth 32, bad), ((x >>> 32).setWidth 32, bad)] none]) ∧
  (∀ word e tile d y, Performs s pack p tm l lane ln [] word (.accRead e tile 0 d) → idle tile → (tm.tile tile).void = false →
    f32Finite y → f32Val y = ((tm.tile tile).elem e : ℚ) * (2 : ℚ) ^ ((tm.tile tile).te - 40) → Comes (.blockResolve pack) s fun t =>
      SameMemory s t ∧ Leaves t pack p tm ln fun u => u.tiles = tm.tiles ∧
        ∃ w, f32Finite w ∧ f32Val w = f32Val y ∧
          (u.thread ln.tid).out = [onWay ln d [(w, decide (e ∈ (tm.tile tile).poison))] none]) ∧
  (∀ word tile tag, Performs s pack p tm l lane ln [] word (.mxZero tile tag) → tag < (tm.thread ln.tid).tagCount.length →
    (tm.thread ln.tid).count tag < 255 → (s.mast p.mast).mxq.length < 64 → Comes (.blockResolve pack) s fun t =>
      SameMemory s t ∧ (t.mast p.mast).mxq =
        (s.mast p.mast).mxq ++ [⟨s.nextId, p.team, ln.tid, true, [], tile, tag, p.block, word, 0⟩] ∧
      Leaves t pack p tm ln fun u => (u.thread ln.tid).count tag = (tm.thread ln.tid).count tag + 1)

/-- HOPEN, HSET and HCONFIRM with no resolve of the context under way (R333, R342, R343). -/
def HypCommits (s : State) (pack : Nat) (p : Pack) (tm : Team) (l : Launch) (lane : Nat) (ln : Lane) : Prop :=
  let hs := (s.ctxD l.ctx).hyps
  let h := resolveHyp hs ln.hyp
  (∀ r ∈ s.running, r.resolves l.ctx = false) → s.asyncs = [] →
  (∀ word d pf n, Performs s pack p tm l lane ln [] word (.hopen d pf) → (hypAt hs h).depth < 8 → 1 ≤ n → n ≤ 255 →
    (hypAt hs n).st = .free → (∀ m, 1 ≤ m → m < n → (hypAt hs m).st ≠ .free) → Comes (.blockResolve pack) s fun t =>
      SameMemory s t ∧ hypAt (t.ctxD l.ctx).hyps n = ⟨.opened, h, 0, (hypAt hs h).depth + 1⟩ ∧ Leaves t pack p tm ln fun u =>
        (u.thread ln.tid).hyp = (tm.thread ln.tid).hyp ∧
        (u.thread ln.tid).out = [onWay ln d [(BitVec.ofNat 32 n, false)] (some (pf, false))]) ∧
  (∀ word d pf, Performs s pack p tm l lane ln [] word (.hopen d pf) →
    (hypAt hs h).depth = 8 ∨ (∀ m, 1 ≤ m → m ≤ 255 → (hypAt hs m).st ≠ .free) → Comes (.blockResolve pack) s fun t =>
      SameMemory s t ∧ Leaves t pack p tm ln fun u => (u.thread ln.tid).out = [onWay ln d [(0, false)] (some (pf, true))]) ∧
  (∀ word (x : Word), Performs s pack p tm l lane ln [] word (.hset x) → x.toNat ≤ 255 →
    (hypAt hs x.toNat).st = .opened ∨ (hypAt hs x.toNat).st = .merged → isOrphan hs (resolveHyp hs x.toNat) = false →
    Comes (.blockResolve pack) s fun t => SameMemory s t ∧ Leaves t pack p tm ln fun u =>
      (u.thread ln.tid).hyp = resolveHyp hs x.toNat ∧ (u.thread ln.tid).st = .ready) ∧
  (∀ word (x : Word), Performs s pack p tm l lane ln [] word (.hconfirm x) → x ≠ 0 → x.toNat ≤ 255 → (hypAt hs x.toNat).st = .opened →
    Comes (.blockResolve pack) s fun t => (∀ a, (∃ u, t.team? p.team = some u ∧ a ∈ (u.thread ln.tid).waits) →
        ∃ id, a = .op id ∧ .resolve id l.ctx none (some p.team) none ∈ t.running) ∧
      ((hypAt (t.ctxD l.ctx).hyps x.toNat).st = .free ∨ ((hypAt (t.ctxD l.ctx).hyps x.toNat).st = .merged ∧
        (hypAt (t.ctxD l.ctx).hyps x.toNat).link = (hypAt hs x.toNat).parent)) ∧
      ∃ u, t.team? p.team = some u ∧ (u.thread ln.tid).st = .waiting ∧ (u.thread ln.tid).waits ≠ [])

/-- A barrier arrival at an explicit count (R163 to R165), outside DET; the BAR's predicate tells the last arriver. -/
def BarrierCommits (s : State) (pack : Nat) (p : Pack) (tm : Team) (l : Launch) (lane : Nat) (ln : Lane) : Prop :=
  ∀ word n c pl ws, Performs s pack p tm l lane ln ws word (.barArrive n c pl) → ws = (if pl.isSome then [n] else []) →
  s.asyncs = [] → l.det = false → c ≠ 0 → c ≤ tm.shape.tsize → (tm.thread ln.tid).pending n = false →
  (tm.bar n).count = 0 ∨ (tm.bar n).expected = c →
  let k := (tm.bar n).count
  (k + 1 < c → Comes (.blockResolve pack) s fun t => SameMemory s t ∧ Leaves t pack p tm ln fun u =>
    u.bar n = ⟨k + 1, c, (tm.bar n).phase, (tm.bar n).arrived ++ [(ln.tid, pl)]⟩ ∧ (u.thread ln.tid).pending n = true ∧
    (u.thread ln.tid).waits = (if pl.isSome then [.barrier n (tm.bar n).phase] else []) ∧
    ((u.thread ln.tid).st = .ready ↔ pl = none)) ∧
  (k + 1 = c → Comes (.blockResolve pack) s fun t => SameMemory s t ∧ ∃ u, t.team? p.team = some u ∧
    u.bar n = ⟨0, c, !(tm.bar n).phase, []⟩ ∧ (u.thread ln.tid).pending n = false ∧ (u.thread ln.tid).st = .ready ∧
    (∀ q, pl = some q → q ≠ 0 → q < 8 → (u.thread ln.tid).preds.getLsbD q = true) ∧
    ∀ j, j ≠ ln.tid → j < tm.threads.length → (tm.thread j).st = .waiting → (tm.thread j).waits = [.barrier n (tm.bar n).phase] →
      (tm.thread j).out = [] → (u.thread j).st = .ready)

/-- SIGNAL and the appends of CVTBD in the root view (R74, R228, R370), with nothing of the thread to release. -/
def LateCommits (s : State) (pack : Nat) (p : Pack) (tm : Team) (l : Launch) (lane : Nat) (ln : Lane) : Prop :=
  NoVersions s → resolveHyp (s.ctxD l.ctx).hyps ln.hyp = 0 → s.asyncs = [] → (s.mast p.mast).staging = [] → s.hostCache = [] →
  (∀ word ea v pa, Performs s pack p tm l lane ln [] word (.signal ea v) → Lies s p l ea.toNat 8 .wr pa → Comes (.blockResolve pack) s fun t =>
    Holds s t pa 8 (valueAt s pa 8 + v.toNat) ∧ Leaves t pack p tm ln fun u => (u.thread ln.tid).st = .ready) ∧
  (∀ word list i v pa pc, Performs s pack p tm l lane ln [] word (.append list i v) → Lies s p l list.toNat 4 .wr pa →
    Lies s p l (list.toNat + 4) 4 .rd pc → pc + 4 ≤ pa ∨ pa + 4 ≤ pc →
    let k := valueAt s pa 4
    (valueAt s pc 4 ≤ k → Comes (.blockResolve pack) s fun t => Holds s t pa 4 (k + 1) ∧
      Leaves t pack p tm ln fun u => (u.thread ln.tid).st = .ready) ∧
    (∀ pe, k < valueAt s pc 4 → Lies s p l (list.toNat + 8 + 8 * k) 8 .wr pe → pe + 8 ≤ pa ∨ pa + 4 ≤ pe →
      Comes (.blockResolve pack) s fun t =>
        (∀ j, j < 4 → memGet t.mem (pa + j) = BitVec.ofNat 8 ((k + 1) / 256 ^ j)) ∧
        (∀ j, j < 8 → memGet t.mem (pe + j) = BitVec.ofNat 8 ((i.toNat + 2 ^ 32 * v.toNat) / 256 ^ j)) ∧
        (∀ a, (a < pa ∨ pa + 4 ≤ a) → (a < pe ∨ pe + 8 ≤ a) → memGet t.mem a = memGet s.mem a) ∧
        Leaves t pack p tm ln fun u => (u.thread ln.tid).st = .ready))

/-- FENCE and ACQR (R320 to R322, R330): a REL fence completes the thread's CP.OUTs, an ACQ fence at DEVICE scope or above drops every
L1 line with a block that another agent has written since the last acquire, and ACQR makes the victim drop its L1 lines and flush its
entries of the context. -/
def SyncCommits (s : State) (pack : Nat) (p : Pack) (tm : Team) (l : Launch) (lane : Nat) (ln : Lane) : Prop :=
  (∀ word sc kind, Performs s pack p tm l lane ln [] word (.fence sc kind) → 1 ≤ sc → kind = 1 ∨ kind = 2 →
    Comes (.blockResolve pack) s fun t => ∀ a ∈ t.asyncs, ¬(a.team = p.team ∧ a.tid = ln.tid ∧ a.isOut = true)) ∧
  (∀ word sc, Performs s pack p tm l lane ln [] word (.fence sc 0) → 2 ≤ sc → Comes (.blockResolve pack) s fun t =>
    SameMemory s t ∧ t.asyncs = s.asyncs ∧ (∀ b ∈ s.sigBlocks p.mast, ∀ x ∈ (t.mast p.mast).l1, x.sector / 4 ≠ b / 2) ∧
    Leaves t pack p tm ln fun u => (u.thread ln.tid).st = .ready) ∧
  (∀ word q v, Performs s pack p tm l lane ln [] word (.acqr q) → (coreMasts (s.ctxD l.ctx).coreSet)[q]? = some v →
    Comes (.blockResolve pack) s fun t => (∀ x ∈ (t.mast v).l1, x.ctx ≠ l.ctx) ∧ (∀ e ∈ (t.mast v).staging, e.ctx ≠ l.ctx) ∧
      Leaves t pack p tm ln fun u => (u.thread ln.tid).st = .waiting ∧
        ∃ id, (u.thread ln.tid).waits = [.op id] ∧ .acqr id l.ctx p.mast v p.team ∈ t.running)

/-- The word of four bytes of a team's DECK from o on, and whether one of them is poisoned. -/
def deckWord (tm : Team) (o : Nat) : Word × Bool :=
  (BitVec.ofNat 32 ((List.range 4).map fun j => (alGetD tm.deck (o + j) 0).toNat * 256 ^ j).sum,
    (List.range 4).any fun j => tm.deckPoison.contains (o + j))

/-- LDD, STD, LDACQ and STREL (R260, R261 to R263, R320 to R323): the DECK bytes; an LDACQ at DEVICE scope and above reads its location at
its home and then drops the L1 lines of blocks that other agents have written; a STREL completes the thread's CP.OUTs and flushes the
team's contributions before its own bytes are written. -/
def OrderCommits (s : State) (pack : Nat) (p : Pack) (tm : Team) (l : Launch) (lane : Nat) (ln : Lane) : Prop :=
  (∀ word off n d, Performs s pack p tm l lane ln [] word (.deckLoad off n d) → n ∈ [4, 8, 16] → Comes (.blockResolve pack) s fun t =>
    SameMemory s t ∧ Leaves t pack p tm ln fun u => u.deck = tm.deck ∧ u.deckPoison = tm.deckPoison ∧
      (u.thread ln.tid).st = .waiting ∧
      (u.thread ln.tid).out = [onWay ln d ((List.range (n / 4)).map fun k => deckWord tm (off + 4 * k)) none]) ∧
  (∀ word off bs, Performs s pack p tm l lane ln [] word (.deckStore off bs) → Comes (.blockResolve pack) s fun t =>
    SameMemory s t ∧ Leaves t pack p tm ln fun u => (u.thread ln.tid).st = .ready ∧
      (∀ k, k < bs.length → alGetD u.deck (off + k) 0 = (bs.getD k (0, false)).1 ∧
        (off + k ∈ u.deckPoison ↔ (bs.getD k (0, false)).2 = true) ∧ alGetD u.deckMarks ((off + k) / 256) 0 = 0) ∧
      (∀ a, a < off ∨ off + bs.length ≤ a → alGetD u.deck a 0 = alGetD tm.deck a 0 ∧ (a ∈ u.deckPoison ↔ a ∈ tm.deckPoison)) ∧
      ∀ g, (∀ k, k < bs.length → (off + k) / 256 ≠ g) → alGetD u.deckMarks g 0 = alGetD tm.deckMarks g 0) ∧
  (∀ word ea n sc d pa, Performs s pack p tm l lane ln [] word (.ldacq ea n sc d) → NoOuts s p ln → n ∈ [4, 8] → NoVersions s →
    Lies s p l ea.toNat n .rd pa → (sc ≤ 1 → (s.mast p.mast).l1 = []) → Comes (.blockResolve pack) s fun t =>
      t.mem = s.mem ∧ t.poison = s.poison ∧
      (2 ≤ sc → ∀ b ∈ s.sigBlocks p.mast, ∀ x ∈ (t.mast p.mast).l1, x.sector / 4 ≠ b / 2) ∧
      Leaves t pack p tm ln fun u => (u.thread ln.tid).st = .waiting ∧ (u.thread ln.tid).out =
        [onWay ln d ((List.range (n / 4)).map fun k => (BitVec.ofNat 32 (valueAt s (pa + 4 * k) 4), false)) none]) ∧
  (∀ word ea bs sc pa, Performs s pack p tm l lane ln [] word (.strel ea bs sc) → 1 ≤ sc → bs ≠ [] →
    resolveHyp (s.ctxD l.ctx).hyps ln.hyp = 0 →
    s.xrange (s.ctxD l.ctx) ea.toNat bs.length .wr (some p.mast) = .ok [(⟨pa, false, none⟩, bs.length)] → pa + bs.length ≤ Config.hbmEnd →
    Comes (.blockResolve pack) s fun t => (∀ a ∈ t.asyncs, ¬(a.team = p.team ∧ a.tid = ln.tid ∧ a.isOut = true)) ∧
    (2 ≤ sc → l.det = false → ∀ e ∈ (t.mast p.mast).staging, e.team ≠ p.team)) ∧
  (∀ word ea bs sc pa, Performs s pack p tm l lane ln [] word (.strel ea bs sc) → bs ≠ [] → s.asyncs = [] → (s.mast p.mast).staging = [] →
    s.hostCache = [] → resolveHyp (s.ctxD l.ctx).hyps ln.hyp = 0 →
    s.xrange (s.ctxD l.ctx) ea.toNat bs.length .wr (some p.mast) = .ok [(⟨pa, false, none⟩, bs.length)] → pa + bs.length ≤ Config.hbmEnd →
    Comes (.blockResolve pack) s fun t => (∀ k, k < bs.length → t.homeByte (pa + k) = bs.getD k (0, false)) ∧
      (∀ a, a < pa ∨ pa + bs.length ≤ a → t.homeByte a = s.homeByte a) ∧ Leaves t pack p tm ln fun u => (u.thread ln.tid).st = .ready)

/-- The word that HSTATE gives of an entry (R332, R344). -/
def stateWord (e : HypEntry) : Nat :=
  match e.st with
  | .free => 0
  | .opened => 1 + 256 * e.parent + 65536 * e.depth
  | .merged => 2 + 256 * e.link
  | .refuted => 3 + 256 * e.parent + 65536 * e.depth
  | .scrubbing => 4 + 256 * e.parent + 65536 * e.depth

/-- HGET, HSTATE, HREFUTE and HORPHAN with no resolve of the context under way (R342 to R345). -/
def HypReads (s : State) (pack : Nat) (p : Pack) (tm : Team) (l : Launch) (lane : Nat) (ln : Lane) : Prop :=
  let hs := (s.ctxD l.ctx).hyps
  (∀ r ∈ s.running, r.resolves l.ctx = false) →
  (∀ word d, Performs s pack p tm l lane ln [] word (.hget d) → Comes (.blockResolve pack) s fun t => SameMemory s t ∧
    Leaves t pack p tm ln fun u => (u.thread ln.tid).out = [onWay ln d [(BitVec.ofNat 32 (resolveHyp hs ln.hyp), false)] none]) ∧
  (∀ word (x : Word) d, Performs s pack p tm l lane ln [] word (.hstate x d) → x.toNat ≤ 255 → Comes (.blockResolve pack) s fun t =>
    SameMemory s t ∧ Leaves t pack p tm ln fun u =>
      (u.thread ln.tid).out = [onWay ln d [(BitVec.ofNat 32 (stateWord (hypAt hs x.toNat)), false)] none]) ∧
  (∀ word (x : Word), Performs s pack p tm l lane ln [] word (.hrefute x) → x ≠ 0 → x.toNat ≤ 255 →
    ((hypAt hs x.toNat).st = .opened → Comes (.blockResolve pack) s fun t => (hypAt (t.ctxD l.ctx).hyps x.toNat).st = .refuted ∧
      (∀ h, 1 ≤ h → h ≤ 255 → (hypAt hs h).st = .opened → resolveHyp hs (hypAt hs h).parent = x.toNat →
        (hypAt (t.ctxD l.ctx).hyps h).st = .refuted) ∧
      (isOrphan (t.ctxD l.ctx).hyps (tm.thread ln.tid).hyp = false → ∃ id u, t.team? p.team = some u ∧
        (u.thread ln.tid).st = .waiting ∧ (u.thread ln.tid).waits = [.op id] ∧ .resolve id l.ctx none (some p.team) none ∈ t.running)) ∧
    ((hypAt hs x.toNat).st = .refuted ∨ (hypAt hs x.toNat).st = .scrubbing → Comes (.blockResolve pack) s fun t => SameMemory s t ∧
      ((hypAt (t.ctxD l.ctx).hyps x.toNat).st = (hypAt hs x.toNat).st ∨
        ((hypAt hs x.toNat).st = .scrubbing ∧ (hypAt (t.ctxD l.ctx).hyps x.toNat).st = .free)) ∧ t.running = s.running ∧
      Leaves t pack p tm ln fun u => (u.thread ln.tid).st = .ready)) ∧
  (∀ word (x : Word), Performs s pack p tm l lane ln [] word (.horphan x) → Comes (.blockResolve pack) s fun t => SameMemory s t ∧
    Leaves t pack p tm ln fun u => u.orphan = (if x = 0xFFFFFFFF then none else some x.toNat) ∧ (u.thread ln.tid).st = .ready)

/-- The mask words, the team registers of CTXW, TAGGET and TILEF (R148, R174, R180, R187, R197, R261). -/
def TeamCommits (s : State) (pack : Nat) (p : Pack) (tm : Team) (l : Launch) (lane : Nat) (ln : Lane) : Prop :=
  (∀ word op m, Performs s pack p tm l lane ln [] word op →
    let k := 8 * (ln.tid / 32) + m
    let old := alGetD tm.masks k 0
    let after := fun (Q : Word → Prop) => Comes (.blockResolve pack) s fun t => SameMemory s t ∧ Leaves t pack p tm ln fun u =>
      Q (alGetD u.masks k 0) ∧ (∀ j, j ≠ k → alGetD u.masks j 0 = alGetD tm.masks j 0) ∧ (u.thread ln.tid).st = .ready
    (∀ v, op = .maskSet m v → after fun x => x = v) ∧
    (op = .maskJoin m → after fun x => ∀ j, j < 32 → x.getLsbD j = (decide (j = ln.tid % 32) || old.getLsbD j)) ∧
    (op = .maskClear m → after fun x => ∀ j, j < 32 → x.getLsbD j = (!decide (j = ln.tid % 32) && old.getLsbD j))) ∧
  (∀ word x, Performs s pack p tm l lane ln [] word (.teamWrite 0x08 x) → Comes (.blockResolve pack) s fun t => SameMemory s t ∧
    Leaves t pack p tm ln fun u => u.loss = tm.loss ∧ (u.thread ln.tid).st = .ready ∧
      u.seqcfg.toNat % 256 = (if x.toNat % 64 = 0 ∨ 32 < x.toNat % 64 then 32 else x.toNat % 64) ∧
      u.seqcfg.toNat / 256 % 256 = x.toNat / 256 % 256 ∧ u.seqcfg.toNat / 65536 = max 256 (x.toNat / 65536)) ∧
  (∀ word n x, Performs s pack p tm l lane ln [] word (.teamWrite n x) → 0x20 ≤ n → n ≤ 0x40 → Comes (.blockResolve pack) s fun t =>
    SameMemory s t ∧ Leaves t pack p tm ln fun u => u.seqcfg = tm.seqcfg ∧ (u.thread ln.tid).st = .ready ∧
      alGetD u.loss (n - 0x20) 0 = x ∧ ∀ j, j ≠ n - 0x20 → alGetD u.loss j 0 = alGetD tm.loss j 0) ∧
  (∀ word k d, Performs s pack p tm l lane ln [] word (.tagGet k d) → Comes (.blockResolve pack) s fun t =>
    SameMemory s t ∧ Leaves t pack p tm ln fun u =>
      (u.thread ln.tid).out = [onWay ln d [(BitVec.ofNat 32 ((tm.thread ln.tid).count k +
        if (tm.thread ln.tid).tagErr.getD k false then 256 else 0), false)] none] ∧
      (u.thread ln.tid).tagErr.getD k false = false ∧ (u.thread ln.tid).tagCount = (tm.thread ln.tid).tagCount ∧
      ∀ j, j ≠ k → (u.thread ln.tid).tagErr.getD j false = (tm.thread ln.tid).tagErr.getD j false) ∧
  (∀ word d px i, Performs s pack p tm l lane ln [] word (.tilef d px i) → d.toNat < 96 → px < 8 →
    (∀ c m, l.cursorAt = some (c, m) → c ≠ s.cycle ∨ m ≤ p.mast) →
    let gets := fun (k : Option Nat) (Q : State → Prop) => Comes (.blockResolve pack) s fun t => SameMemory s t ∧ Q t ∧
      Leaves t pack p tm ln fun u => (u.thread ln.tid).st = .ready ∧ (u.thread ln.tid).tilef = ln.tilef ∧
        alGetD (u.thread ln.tid).v (ln.wb + d.toNat) 0 = (match k with
          | some n => BitVec.ofNat 32 n
          | none => 0xFFFFFFFF) ∧
        (∀ q, q ≠ ln.wb + d.toNat → alGetD (u.thread ln.tid).v q 0 = alGetD ln.v q 0) ∧
        (∀ j, j < 8 → (u.thread ln.tid).preds.getLsbD j = if j = px ∧ px ≠ 0 then k.isNone else ln.preds.getLsbD j)
    let tiles := l.tilesX * l.tilesY * l.tilesZ
    let ends := tm.held.any fun x => decide (x.1 ≤ i) && x.2.isNone
    (ends = true → gets none fun t => t.launches = s.launches) ∧
    (∀ k, ends = false → alGet i tm.held = some (some k) → gets (some k) fun t => t.launches = s.launches) ∧
    (ends = false → alGet i tm.held = none → tm.tilefNext = i → (∀ x ∈ tm.threads, x.live = true → i < x.tilef + 16) →
      (tm.stage ≠ .compute ∨ tiles = 0 → gets none fun t => t.launches = s.launches) ∧
      (tm.stage = .compute → l.det = false → tiles ≠ 0 → gets (if l.cursor < tiles then some l.cursor else none) fun t =>
        (t.launch? l.id).map (·.cursor) = some (l.cursor + 1)) ∧
      (tm.stage = .compute → l.det = true → tiles ≠ 0 →
        let k := tm.num + l.teams * tm.detPos
        gets (if k < tiles then some k else none) fun t => t.launches = s.launches)))

/-- TASKOUT, VTXOUT, PRIMOUT, PIXOUT and KILL (R131, R135 to R138). -/
def MeshCommits (s : State) (pack : Nat) (p : Pack) (tm : Team) (l : Launch) (lane : Nat) (ln : Lane) : Prop :=
  (∀ word n off k d, Performs s pack p tm l lane ln [] word (.taskout n off) → l.draw = some d → (s.mast p.mast).ring.length < 4 → k < 4 →
    (∀ r ∈ (s.mast p.mast).ring, r.slot ≠ k) → (∀ j, j < k → ∃ r ∈ (s.mast p.mast).ring, r.slot = j) → Comes (.blockResolve pack) s fun t =>
      SameMemory s t ∧ Leaves t pack p tm ln fun u => u.taskouts = tm.taskouts + 1 ∧ (u.thread ln.tid).st = .ready ∧
        (t.mast p.mast).ring = (s.mast p.mast).ring ++ [⟨k, l.id, (List.range d.payload).map fun i =>
          (alGetD tm.deck (off + i) 0, tm.deckPoison.contains (off + i)), n⟩] ∧
        ∃ d', (t.launch? l.id).bind (·.draw) = some d' ∧ ∃ ms : List MeshReq, d'.meshes = d.meshes ++ ms ∧
          ms.map (fun r => (r.mast, r.slot, r.task, r.num, r.count)) = (List.range n).map fun i => (p.mast, some k, tm.num, i, n)) ∧
  (∀ word slot ws, Performs s pack p tm l lane ln [] word (.vtxout slot ws) → Comes (.blockResolve pack) s fun t => SameMemory s t ∧
    Leaves t pack p tm ln fun u => (u.thread ln.tid).st = .ready ∧ u.prims = tm.prims ∧
      (u.verts.find? fun v => v.1 == ln.tid && v.2.1 == slot) = some (ln.tid, slot, ws) ∧
      ∀ i j, i ≠ ln.tid ∨ j ≠ slot → (u.verts.find? fun v => v.1 == i && v.2.1 == j) = tm.verts.find? fun v => v.1 == i && v.2.1 == j) ∧
  (∀ word x, Performs s pack p tm l lane ln [] word (.primout x) → Comes (.blockResolve pack) s fun t => SameMemory s t ∧
    Leaves t pack p tm ln fun u => (u.thread ln.tid).st = .ready ∧ u.verts = tm.verts ∧ alGet ln.tid u.prims = some x ∧
      ∀ j, j ≠ ln.tid → alGet j u.prims = alGet j tm.prims) ∧
  (∀ word k ws, Performs s pack p tm l lane ln [] word (.pixout k ws) → Comes (.blockResolve pack) s fun t => SameMemory s t ∧
    Leaves t pack p tm ln fun u => (u.thread ln.tid).st = .ready ∧ alGet k (u.thread ln.tid).exports = some ws ∧
      (u.thread ln.tid).killed = (tm.thread ln.tid).killed ∧
      ∀ j, j ≠ k → alGet j (u.thread ln.tid).exports = alGet j (tm.thread ln.tid).exports) ∧
  (∀ word, Performs s pack p tm l lane ln [] word .kill → Comes (.blockResolve pack) s fun t => SameMemory s t ∧
    Leaves t pack p tm ln fun u => (u.thread ln.tid).st = .ready ∧ (u.thread ln.tid).killed = true ∧
      (u.thread ln.tid).exports = (tm.thread ln.tid).exports)

/-- A byte of the pack's address space lies at pa in local HBM, by a leaf that both TLBs of the pack's mast hold. -/
def Warm (s : State) (p : Pack) (l : Launch) (va pa : Nat) : Prop :=
  pa < Config.hbmEnd ∧ pa ∉ s.poison ∧ ∃ t, s.xleaf (s.ctxD l.ctx) va .rd (some p.mast) = .ok t ∧ t ∈ s.tlb ∧ t ∈ (s.mast p.mast).tlb ∧
    t.loc va = hbmLoc pa
/-- The line that a cache of the pack's mast holds for a slot in the generation that a sample performed now captures. -/
def cachedLine (s : State) (p : Pack) (l : Launch) (slot line : Nat) (header : Bool) : Option SLine :=
  s.slineFor p.mast ⟨l.ctx, slot, s.slotGen p.mast l.ctx slot, line, header⟩
/-- The four channels of a texel of a CLASSIC level in memory, at its address of R279; +0 outside a BORDER (R280, R283). -/
def texelAt (s : State) (at_ : Nat → Nat) (h : List Byte) (lv : Nat) (q : Option (Nat × Nat)) : List Nat :=
  match q with
  | none => [0, 0, 0, 0]
  | some (x, y) =>
    let fmt := listVal h 0 4 / 2 ^ 8 % 16
    let n := [1, 4, 2, 8, 4, 16].getD fmt 1
    texelOf fmt ((List.range n).map fun k => memGet s.mem (at_ (levelBase h lv + y * ((levelW h lv * n + 255) / 256 * 256) + x * n + k)))
/-- The features of a texel of a LATENT level in memory (R279): E4M3 codes, or MXF4 codes with a scale for each 32. -/
def featuresAt (s : State) (at_ : Nat → Nat) (h : List Byte) (lv : Nat) (q : Option (Nat × Nat)) : List Fv :=
  let byte := fun (o : Nat) => (memGet s.mem (at_ (levelBase h lv + o))).toNat
  (List.range (featureCount h)).map fun f => match q with
    | none => .fin false 0 0
    | some (x, y) =>
      let e := (y * levelW h lv + x) * featureCount h + f
      if (listVal h 0 4).testBit 10 then
        mxf4Elem (byte (e / 2) / 16 ^ (e % 2) % 16) (byte ((levelW h lv * levelH h lv * featureCount h / 2 + 255) / 256 * 256 + e / 32))
      else unpack e4m3 (byte e)
/-- The seed and the place that a stochastic draw of a thread takes (R286). -/
def DrawPlace (tm : Team) (l : Launch) (tid : Nat) (seed : Dword) (px py : Nat) : Prop :=
  match (tm.thread tid).pix with
  | some q => tm.stage = .pixel ∧ l.draw.map (·.seed) = some seed ∧ px = q.x ∧ py = q.y
  | none => px = tid ∧ py = tm.num ∧ if tm.stage = .compute then seed = l.seed else l.draw.map (·.seed) = some seed

/-- SAMPLE, SAMPLEG and SLOAD with their header cached (R276, R282 to R287), of a thread with no other access under way: the marks of an
invalid header; else the words of the texels in memory, or of the network whose weight set wl is cached too. -/
def SampleCommits (s : State) (pack : Nat) (p : Pack) (tm : Team) (l : Launch) (lane : Nat) (ln : Lane) : Prop :=
  ∀ word kind slot ops derivs d, Performs s pack p tm l lane ln [] word (.sample kind slot ops derivs d) → NoOuts s p ln → kind ≤ 2 → ops.length = 4 →
  ∀ line ph, cachedLine s p l slot (headerVa l.codeBase slot / 256) true = some line → line.bytes.length = 256 →
  Warm s p l (headerVa l.codeBase slot) ph → NoVersions s → (s.mast p.mast).l1 = [] →
  (∀ b, ((s.mast p.mast).slines.filter (·.header == b)).length ≤ if b then 128 else 256) →
  let o := fun (i : Nat) => ops.getD i 0
  let gives := fun (ws : List (Word × Bool)) => Comes (.blockResolve pack) s fun t => SameMemory s t ∧
    Leaves t pack p tm ln fun u => (u.thread ln.tid).st = .waiting ∧ (u.thread ln.tid).out = [onWay ln d ws none]
  let words := fun (ns : List Nat) => gives (ns.map fun n => (BitVec.ofNat 32 n, false))
  let h := (line.bytes.drop (headerVa l.codeBase slot % 256)).take 64
  ((∃ k, k < 64 ∧ headerVa l.codeBase slot % 256 + k ∈ line.bad) → gives (List.replicate 4 (0, true))) ∧
  (line.bad = [] → ¬GoodClassic h → ¬GoodLatent h → gives (List.replicate 4 (0, true))) ∧
  (line.bad = [] → (GoodClassic h ∨ GoodLatent h) → kind ≠ 2 → ¬(f32Finite (o 0) ∧ f32Finite (o 1)) →
    words [0x7FC00000, 0x7FC00000, 0x7FC00000, 0x7FC00000]) ∧
  (∀ at_ : Nat → Nat, ∀ seed px py,
    let w := listVal h 0 4
    let levels := if w % 4 = 0 then w / 2 ^ 12 % 16 else w / 2 ^ 18 % 16
    let inside := (o 2).toNat < levels ∧ (o 0).toNat < levelW h (o 2).toNat ∧ (o 1).toNat < levelH h (o 2).toNat
    let lv := sampleLevel h derivs (o 2).toNat
    let r := (fjopomo (BitVec.ofNat 64 (listVal h (if w % 4 = 0 then 0x10 else 0x18) 8) ^^^ seed)
      (BitVec.ofNat 64 ((o 3).toNat + 2 ^ 32 * (px % 2 ^ 16) + 2 ^ 48 * (py % 2 ^ 16)))).toNat % 2 ^ 16
    line.bad = [] → DrawPlace tm l ln.tid seed px py →
    (∀ va, levelBase h 0 ≤ va → va < levelBase h levels → Warm s p l va (at_ va)) →
    (GoodClassic h →
      (kind = 2 → words (if inside then texelAt s at_ h (o 2).toNat (some ((o 0).toNat, (o 1).toNat)) else [0, 0, 0, 0])) ∧
      (kind ≠ 2 → ∀ cs, corners h lv (o 0).toNat (o 1).toNat = some cs →
        (w.testBit 3 = false → ∀ q k, cs = [(q, k)] → words (texelAt s at_ h lv q)) ∧
        (w.testBit 3 = true → w.testBit 2 = false → words ((List.range 4).map fun k =>
          blend (cs.map (·.2)) (cs.map fun c => unpack f32 ((texelAt s at_ h lv c.1).getD k 0)))) ∧
        (w.testBit 3 = true → w.testBit 2 = true → words (texelAt s at_ h lv (pickCorner r cs))))) ∧
    (GoodLatent h → ∀ wl : List SLine, wl.map some =
        ((List.range ((layerAt h (w / 2 ^ 12 % 8) + 255) / 256)).map fun i => cachedLine s p l slot (listVal h 0x10 8 / 256 + i) false) →
      (∀ x ∈ wl, x.bad = []) →
      let result := fun (x : Option (List Nat)) => ∀ ws, x = some ws → words ws
      (kind = 2 → if inside then result (latentBlend h wl [65536] [featuresAt s at_ h (o 2).toNat (some ((o 0).toNat, (o 1).toNat))])
        else words [0, 0, 0, 0]) ∧
      (kind ≠ 2 → ∀ cs, corners h lv (o 0).toNat (o 1).toNat = some cs →
        (w.testBit 2 = false → result (latentBlend h wl (cs.map (·.2)) (cs.map fun c => featuresAt s at_ h lv c.1))) ∧
        (w.testBit 2 = true → result (latentPick h wl (featuresAt s at_ h lv (pickCorner r cs)))))))

/-! #### Blocks that do not commit -/

/-- Stores to memory and to DECK. -/
def IsStore (o : OpRec) : Prop := (∃ ea bs, o.op = .store ea bs) ∨ ∃ off bs, o.op = .deckStore off bs
/-- The block has recorded stores of the root view and nothing else. -/
def Stored (ln : Lane) (ops : List OpRec) : Prop := (∀ o ∈ ops, IsStore o) ∧ ln.hyp = 0
/-- The words of a fault record (R349, R350). -/
def record (code num va block word : Nat) : List Word :=
  [BitVec.ofNat 32 (code + 256 + num * 65536 + va / 2 ^ 44 % 256 * 2 ^ 24), BitVec.ofNat 32 block, BitVec.ofNat 32 word,
    BitVec.ofNat 32 (va / 2 ^ 12 % 2 ^ 32)]
/-- Nothing of the block has taken effect, the record is written and the thread stands READY at TRAP_ENTRY (R349 to R351). -/
def Trapped (s t : State) (pack : Nat) (p : Pack) (tm : Team) (ln : Lane) (e : Nat) (r : List Word) : Prop :=
  SameMemory s t ∧ Leaves t pack p tm ln fun u => u.deck = tm.deck ∧ u.staging = tm.staging ∧
    u.thread ln.tid = { tm.thread ln.tid with
      st := .ready, next := e, readyAt := readyCycle s tm, waits := [], recPend := true, frec := r }

/-- BLOCK_RESOLVE of a thread that trapped or that consumed poison (R143 lines 3 and 4, R349 to R351). -/
def TrapStep (s : State) (pack : Nat) (p : Pack) (tm : Team) (l : Launch) (lane : Nat) (ln : Lane) : Prop :=
  ∀ ops e, AtEnd s pack p tm l lane ln ops → Stored ln ops → l.trapEntry = some e →
  (∀ r, ln.trap = some r → Comes (.blockResolve pack) s fun t => Trapped s t pack p tm ln e (record r.code r.num 0 p.block r.word)) ∧
  (∀ word va, ln.trap = none → ln.poisonAt = some (word, va) → Comes (.blockResolve pack) s fun t =>
    Trapped s t pack p tm ln e (record 0x30 0 (va.getD 0) p.block word))

/-- BLOCK_RESOLVE of a thread one of whose accesses fails its translation (R143 line 5, R353): it is FAULTED at its block with its
record, the context counts it and remembers the page, and the first one raises the launch's vector. -/
def ParkStep (s : State) (pack : Nat) (p : Pack) (tm : Team) (l : Launch) (lane : Nat) (ln : Lane) : Prop :=
  ∀ word ea bs cause va c, AtEnd s pack p tm l lane ln [⟨word, .store ea bs⟩] → ln.trap = none → ln.poisonAt = none → bs ≠ [] →
  s.ctx? l.ctx = some c → s.xrange c ea.toNat bs.length .wr (some p.mast) = .error (cause, va) → Comes (.blockResolve pack) s fun t =>
    SameMemory s t ∧ (t.ctx? l.ctx).map (·.fvas) = some (c.fvas ++ [va / 4096 * 4096]) ∧
    (s.fcount l.ctx ≠ 0 → t.vectors = s.vectors) ∧
    (∀ q, s.fcount l.ctx = 0 → s.queue? l.queue = some q → t.vectors = s.vectors ++ [q.vector]) ∧
    ((s.teams.map (·.id)).Nodup → (tm.thread ln.tid).st ≠ .faulted → t.fcount l.ctx = s.fcount l.ctx + 1) ∧
    Leaves t pack p tm ln fun u => u.thread ln.tid = { tm.thread ln.tid with
      st := .faulted, next := p.block, waits := [], recPend := true, frec := record cause 0 va p.block word }

/-- BLOCK_RESOLVE that finds a resource missing (R143 line 6): no overflow slot for a version (R339) and no entry of a DET team (R326)
trap; with no free slot of the payload ring the thread waits for one at its block (R135). -/
def ResourceStep (s : State) (pack : Nat) (p : Pack) (tm : Team) (l : Launch) (lane : Nat) (ln : Lane) : Prop :=
  (∀ word ea bs pa e, AtEnd s pack p tm l lane ln [⟨word, .store ea bs⟩] → ln.trap = none → ln.poisonAt = none → bs ≠ [] →
    l.trapEntry = some e → s.asyncs = [] →
    let c := s.ctxD l.ctx
    let h := resolveHyp c.hyps ln.hyp
    h ≠ 0 → c.hypOvfSize * 512 ≤ (c.versions.map fun v => (v.tag, v.block)).dedup.length → (∀ v ∈ c.versions, (v.tag, v.block) ≠ (h, pa / 64)) →
    s.xrange c ea.toNat bs.length .wr (some p.mast) = .ok [(⟨pa, false, none⟩, bs.length)] → pa + bs.length ≤ Config.hbmEnd →
    pa % 64 + bs.length ≤ 64 → Comes (.blockResolve pack) s fun t =>
      (t.ctxD l.ctx).versions = c.versions ∧ Trapped s t pack p tm ln e (record 0x2B 0 0 p.block word)) ∧
  (∀ word ea op ty sc v segs e, AtEnd s pack p tm l lane ln [⟨word, .atomb ea op ty sc v⟩] → ln.trap = none → ln.poisonAt = none →
    l.trapEntry = some e → l.det = true → 512 ≤ tm.detUsed →
    s.xrange (s.ctxD l.ctx) ea.toNat (if ty = 2 then 8 else 4) .wr (some p.mast) = .ok segs → segs ≠ [] → Comes (.blockResolve pack) s fun t =>
      Trapped s t pack p tm ln e (record 0x2A 0 0 p.block word)) ∧
  (∀ word n off, AtEnd s pack p tm l lane ln [⟨word, .taskout n off⟩] → ln.trap = none → ln.poisonAt = none →
    (s.mast p.mast).ring.length = 4 → Comes (.blockResolve pack) s fun t =>
      SameMemory s t ∧ t.launches = s.launches ∧ (t.mast p.mast).ring = (s.mast p.mast).ring ∧ Leaves t pack p tm ln fun u =>
        u.thread ln.tid = { tm.thread ln.tid with st := .waiting, next := p.block, waits := [.ring] })

/-- BLOCK_RESOLVE of a trap in a launch without TRAP_ENTRY (R352): the launch is to end with this trap, unless one of a lower pipe or lane
takes place in the same cycle. As the cycle passes, it ends: its queue is in ERROR with cause 0x0C, and the context's LFAULT, LCODE
and FREC0 to FREC3 hold the trap. -/
def LaunchFaultStep (s : State) (pack : Nat) (p : Pack) (tm : Team) (l : Launch) (lane : Nat) (ln : Lane) : Prop :=
  (∀ ops r, AtEnd s pack p tm l lane ln ops → Stored ln ops → l.trapEntry = none → ln.trap = some r →
    let mine : Dying := ⟨s.cycle, p.pipe, ln.tid % 32, p.mast, r.code, record r.code r.num 0 p.block r.word⟩
    (l.dying = none → Comes (.blockResolve pack) s fun t => t.launch? l.id = some { l with dying := some mine }) ∧
    ∀ d : Dying, l.dying = some d → d.cycle = s.cycle → d.mast = p.mast → Comes (.blockResolve pack) s fun t => t.launch? l.id = some { l with
      dying := some (if p.pipe < d.pipe ∨ (p.pipe = d.pipe ∧ ln.tid % 32 < d.lane) then mine else d) }) ∧
  ∀ (d : Dying) q cycle, (s.launches.filter fun m => m.dying.isSome) = [l] → l.dying = some d → s.queue? l.queue = some q → q.error = false →
    q.destroyed = false →
    (s.cycle = cycle → s.endCycle cycle = s) ∧
    (s.cycle ≠ cycle → let t := s.endCycle cycle
      (∀ m ∈ t.launches, m.id ≠ l.id) ∧ (∀ u ∈ t.teams, u.launch ≠ l.id) ∧ t.vectors = s.vectors ++ [q.vector] ∧
      (∃ q', t.queue? l.queue = some q' ∧ q'.error = true ∧ q'.cause = 0x0C) ∧
      alGet l.ctx t.cfault = some ⟨true, BitVec.ofNat 8 d.code, d.words⟩)

/-- RESULT_LAND and PAUSE_EXPIRY (R140, R200, R257). -/
def LandSteps (s : State) (team tid : Nat) (tm : Team) : Prop :=
  s.team? team = some tm → tm.place = .resident → tid < tm.threads.length →
  (∀ k r ws, (tm.thread tid).out[k]? = some r → r.value = .words ws → (tm.thread tid).st ≠ .exited → Comes (.resultLand team tid k) s fun t =>
    SameMemory s t ∧ ∃ u, t.team? team = some u ∧ (u.thread tid).out = (tm.thread tid).out.eraseIdx k ∧
      (u.thread tid).status = (tm.thread tid).status ||| r.flags.setWidth 6 ∧ (∀ j, j ≠ tid → u.thread j = tm.thread j) ∧
      (∀ q w bad, r.regs = [some q] → ws = [(w, bad)] → alGetD (u.thread tid).v q 0 = w ∧ (q ∈ (u.thread tid).poison ↔ bad = true) ∧
        ∀ j, j ≠ q → alGetD (u.thread tid).v j 0 = alGetD (tm.thread tid).v j 0)) ∧
  (∀ n, (tm.thread tid).st = .waiting → (tm.thread tid).waits = [.pause n] → (tm.thread tid).out = [] → n ≤ s.cycle →
    Comes (.pauseExpiry team tid) s fun t => SameMemory s t ∧ ∃ u, t.team? team = some u ∧
      u.thread tid = { tm.thread tid with st := .ready, waits := [], readyAt := n } ∧ ∀ j, j ≠ tid → u.thread j = tm.thread j)


/-- The destination bytes that a copy has not written yet when it completes (R262 to R266): of a CP.ASYNC the source bytes and then
zeros, in granules that are RAW; of a CP.PLANE group bit b of element i in plane b and the scale words after the planes, or 256 bytes
unchanged; of a CP.OUT the bytes of DECK. A copy to DECK or PLANE that has read its source writes what it has read. -/
def CopyWrites (s : State) (id : Nat) (a : AsyncCopy) (tm : Team) : Prop :=
  s.asyncs.find? (·.id == id) = some a → s.team? a.team = some tm → NoVersions s → (s.mast tm.mast).l1 = [] →
  (∀ x, a.image = some x →
    let put := fun (old : Byte) (i : Nat) => if i ∈ a.wrote then old else ((x.bytes.getD i none).map (·.1)).getD old
    (∀ src o v keep, a.kind = .async src o v keep → Comes (.copyComplete id) s fun t => t.mem = s.mem ∧ ∃ u, t.team? a.team = some u ∧
      u.plane = tm.plane ∧ ∀ i, alGetD u.deck (o + i) 0 = put (alGetD tm.deck (o + i) 0) i) ∧
    (∀ src o fmt scale keep, a.kind = .plane src o fmt scale keep → Comes (.copyComplete id) s fun t => t.mem = s.mem ∧
      ∃ u, t.team? a.team = some u ∧ u.deck = tm.deck ∧ ∀ i, alGetD u.plane (o + i) 0 = put (alGetD tm.plane (o + i) 0) i)) ∧
  (∀ src o v keep pa, a.image = none → a.kind = .async src o v keep → v ≤ 32 → a.segs = piece pa v → CleanHbm s pa v → Comes (.copyComplete id) s fun t =>
    t.mem = s.mem ∧ ∃ u, t.team? a.team = some u ∧ ∀ i, i < 32 → alGetD u.deckMarks ((o + i) / 256) 0 = 0 ∧
      alGetD u.deck (o + i) 0 = if i ∈ a.wrote then alGetD tm.deck (o + i) 0 else if i < v then memGet s.mem (pa + i) else 0) ∧
  (∀ src o fmt scale keep pa sa, a.image = none → a.kind = .plane src o fmt scale keep → fmt ≤ 4 →
    let w := [3, 5, 8, 4, 8].getD fmt 0
    a.segs = piece pa (8 * w) → CleanHbm s pa (8 * w) →
    a.scales = (if fmt ≤ 2 then piece sa 16 else []) →
    (fmt ≤ 2 → CleanHbm s sa 16 ∧ ∀ j, j < 8 → (memGet s.mem (sa + 2 * j + 1)).toNat < 16) → Comes (.copyComplete id) s fun t =>
      t.mem = s.mem ∧ ∃ u, t.team? a.team = some u ∧
        (∀ b i, b < w → i < 64 → 8 * b + i / 8 ∉ a.wrote →
          (alGetD u.plane (o + 8 * b + i / 8) 0).getLsbD (i % 8) = (valueAt s pa (8 * w)).testBit (w * i + b)) ∧
        (∀ k, fmt ≤ 2 → k < 16 → 8 * w + k ∉ a.wrote → alGetD u.plane (o + 8 * w + k) 0 = memGet s.mem (sa + k))) ∧
  (∀ src o scale keep pa, a.image = none → a.kind = .plane src o 7 scale keep → a.segs = piece pa 256 → CleanHbm s pa 256 → Comes (.copyComplete id) s fun t =>
    t.mem = s.mem ∧ ∃ u, t.team? a.team = some u ∧
      ∀ i, i < 256 → i ∉ a.wrote → alGetD u.plane (o + i) 0 = memGet s.mem (pa + i)) ∧
  (∀ dst o n pa, a.kind = .out dst o n → a.segs = piece pa n → pa + n ≤ Config.hbmEnd → Memory.wf s.mem = true →
    (s.ctx? (s.launchD tm.launch).ctx).isSome → resolveHyp (s.ctxD (s.launchD tm.launch).ctx).hyps a.hyp = 0 → Comes (.copyComplete id) s fun t =>
      (∀ i, i < n → i ∉ a.wrote → memGet t.mem (pa + i) = alGetD tm.deck (o + i) 0) ∧
      ∀ x, (∀ i, i < n → i ∉ a.wrote → pa + i ≠ x) → memGet t.mem x = memGet s.mem x)

/-- The tile after an MMA of rows on columns, K elements each, none in a void block (R306): x is the tile before it, with the products
negated where neg says so. -/
def MmaTile (x y : Tile) (neg : Bool) (rows cols : List (List MxElem)) (K : Nat) : Prop :=
  let el := fun (l : List (List MxElem)) (i k : Nat) => ((l.getD i []).getD k none).getD (0, 0, 0)
  let inside := fun (i j k : Nat) => i < rows.length ∧ j < cols.length ∧ k < K
  let beta := fun (i j k : Nat) => (el rows i k).2.2 + (el cols j k).2.2
  let old := fun (e : Nat) => x.elem e / 2 ^ (y.te - x.te).toNat
  let term := fun (i j k : Nat) =>
    ⌊((if neg then -1 else 1) * (el rows i k).1 * (el cols j k).1 : ℚ) * (2 : ℚ) ^ ((el rows i k).2.1 + (el cols j k).2.1 - y.te + 40)⌋
  let total := fun (i j : Nat) => old (64 * i + j) + ((List.range K).map fun k => term i j k).sum
  x.te ≤ y.te ∧ (∀ i j k, inside i j k → beta i j k ≤ y.te) ∧ (y.te = x.te ∨ ∃ i j k, inside i j k ∧ beta i j k = y.te) ∧
  (∀ i j, i < rows.length → j < cols.length → y.elem (64 * i + j) = max (-2 ^ 63) (min (2 ^ 63 - 1) (total i j))) ∧
  (∀ e, (∀ i j, i < rows.length → j < cols.length → 64 * i + j ≠ e) → y.elem e = old e) ∧
  y.void = x.void ∧
  (y.ovf = true ↔ x.ovf = true ∨ ∃ i j, i < rows.length ∧ j < cols.length ∧ (total i j < -2 ^ 63 ∨ 2 ^ 63 - 1 < total i j))

/-- An operation whose passes have ended takes effect on its tile in one step (R304, R306, R307, R309): MX.ZERO, MMA and MMA.ZERO with
the operands that its parameter block names, and SCALE. -/
def MxCompletes (s : State) (mast id : Nat) (o : MxOp) : Prop :=
  let ma := s.mast mast
  ma.mxq.find? (·.id == id) = some o → o.passes = 0 → (∀ a ∈ ma.arrays, s.cycle < a.2.2 → a.2.1 ≠ id) →
  (∀ x ∈ ma.mxq, x.team = o.team → x.tile = o.tile → o.id ≤ x.id) → (∀ u ∈ s.teams, ∀ x ∈ u.mxSaved, x.id ≠ id) →
  Comes (.mxOpComplete mast id) s (fun t => (∀ x ∈ (t.mast mast).mxq, x.id ≠ id) ∧ SameMemory s t ∧
    ∀ tm, s.team? o.team = some tm → o.tid < tm.threads.length →
      ∃ u, t.team? o.team = some u ∧ (u.thread o.tid).count o.tag = (tm.thread o.tid).count o.tag - 1) ∧
  ∀ tm, s.team? o.team = some tm → tm.accOps = [] →
    let op := (o.params.getD 0 0).toNat % 4
    let x := tm.tile o.tile
    let after := fun (Q : Tile → Prop) => Comes (.mxOpComplete mast id) s fun t => ∃ u, t.team? o.team = some u ∧ Q (u.tile o.tile)
    (o.zero = true → after fun y => y = ⟨[], -32768, false, false, []⟩) ∧
    (o.zero = false → mxValid tm.shape o.params = true → op = 2 →
      let te := x.te + (BitVec.ofNat 16 ((o.params.getD 10 0).toNat + 256 * (o.params.getD 11 0).toNat)).toInt
      after fun y => y = if -32768 ≤ te ∧ te ≤ 32767 then { x with te := te } else x) ∧
    (∀ rows cols, o.zero = false → mxValid tm.shape o.params = true → op ≤ 1 → s.mxOperands tm o.params = .ok (rows, cols) →
      (∀ l ∈ rows ++ cols, none ∉ l) → x.poison = [] → (x.elems.map (·.1)).Nodup →
      let K := 64 * ((o.params.getD 8 0).toNat + 256 * (o.params.getD 9 0).toNat)
      after fun y => MmaTile (if op = 1 then ⟨[], -32768, false, false, []⟩ else x) y ((o.params.getD 1 0).getLsbD 6) rows cols K)

/-- COPY_COMPLETE, MX_PASS_START, SMMA_ARRAY_GRANT and SAMPLER_FILL_LAND (R261, R289, R290, R295 to R297, R309). -/
def UnitSteps (s : State) : Prop :=
  (∀ id a tm, s.asyncs.find? (·.id == id) = some a → s.team? a.team = some tm → a.tid < tm.threads.length →
    Comes (.copyComplete id) s fun t => (∀ x ∈ t.asyncs, x.id ≠ id) ∧
      ∃ u, t.team? a.team = some u ∧ (u.thread a.tid).count a.tag = (tm.thread a.tid).count a.tag - 1) ∧
  (∀ mast,
    let ma := s.mast mast
    let runs := fun (k : Nat) => ∃ a ∈ ma.arrays, s.cycle < a.2.2 ∧ a.1 = k
    (∀ o k, ma.mxq.find? (fun x => x.passes != 0 && !(ma.mxq.any fun y => y.team == x.team && y.tile == x.tile && decide (y.id < x.id))) = some o →
      k < 8 → ¬runs k → (∀ j, j < k → runs j) → Comes (.mxPassStart mast) s fun t =>
        t = { s with masts := t.masts } ∧
        (t.mast mast).mxq = ma.mxq.map (fun x => if x.id = o.id then { x with passes := x.passes - 1 } else x) ∧
        (k, o.id, s.cycle + 16 * [2, 4, 7, 4, 8].getD ((o.params.getD 1 0).toNat % 8) 8) ∈ (t.mast mast).arrays) ∧
    ((∀ k, k < 8 → runs k) → Comes (.mxPassStart mast) s fun t => t = s)) ∧
  (∀ mast q r, (s.mast mast).smmaq = q :: r → ((q :: r).map (·.id)).Nodup → Comes (.smmaArrayGrant mast) s fun t =>
    (t.mast mast).smmaq = r.filter (fun x => !(x.pack == q.pack && x.word == q.word)) ∧
    ∀ x ∈ q :: r, x.pack = q.pack → x.word = q.word → ∀ tm (k : Nat) (res : Result), s.team? x.team = some tm → x.tid < tm.threads.length →
      (tm.thread x.tid).out[k]? = some res → res.value = .job x.id →
        ∃ u : Team, t.team? x.team = some u ∧ (u.thread x.tid).out[k]? = some { res with value := .words x.ws }) ∧
  (∀ mast k f, (s.mast mast).sfills[k]? = some f →
    Comes (.samplerFillLand mast k) s (fun t => ∃ new, (t.mast mast).sfills = (s.mast mast).sfills.eraseIdx k ++ new) ∧
    ((s.mast mast).sjobs = [] → (∀ x ∈ (s.mast mast).pins, x.ctx ≠ f.ctx ∨ x.slot ≠ f.slot) →
      (∀ e, s.xrange (s.ctxD f.ctx) (256 * f.line) 256 .rd (some mast) = .error e → Comes (.samplerFillLand mast k) s fun t =>
        (t.mast mast).slines = (s.mast mast).slines) ∧
      (∀ pa, s.xrange (s.ctxD f.ctx) (256 * f.line) 256 .rd (some mast) = .ok (piece pa 256) → CleanHbm s pa 256 → NoVersions s →
        ((s.mast mast).slines.filter (·.header == f.header)).length < (if f.header then 128 else 256) →
        (f.gen ≠ s.slotGen mast f.ctx f.slot → Comes (.samplerFillLand mast k) s fun t =>
          (t.mast mast).slines = (s.mast mast).slines) ∧
        (f.gen = s.slotGen mast f.ctx f.slot → Comes (.samplerFillLand mast k) s fun t => (t.mast mast).slines.head? =
          some ⟨f.ctx, f.slot, f.gen, f.line, f.header, (List.range 256).map fun i => memGet s.mem (pa + i), []⟩))))

/-- A contribution of an atomic on a location merges in the root view at pa, in a page of local HBM without COMP, free of poison. -/
def Merges (s : State) (pa : Nat) (l : Loc) (op ty : Nat) : Prop :=
  l = hbmLoc pa ∧ op ≤ 7 ∧ ty ≤ 3 ∧ CleanHbm s pa (if ty = 2 then 8 else 4) ∧ NoVersions s ∧ Memory.wf s.mem = true
/-- It has merged: the value at pa is the atomic's, and every other byte is as it was (R324, R327). -/
def Merged (s t : State) (pa op ty v : Nat) : Prop :=
  let n := if ty = 2 then 8 else 4
  Holds s t pa n ((atomVal op ty (valueAt s pa n) v 0).getD (valueAt s pa n))

/-- HINV_COMPLETE, ATOMB_FLUSH_COMPLETE, EPOCH_CLOSE, ACQR_COMPLETE and RESOLVE_COMPLETE (R288, R327 to R330, R342). -/
def OperationSteps (s : State) : Prop :=
  (∀ id r, s.running.find? (fun x => x.id == id) = some r →
    (∀ j ctx slot m, r = .hinv j ctx slot m → Comes (.hinvComplete id) s fun t => (∀ x ∈ t.running, x.id ≠ id) ∧ SameMemory s t ∧
      ∀ ma ∈ t.masts, ∀ x ∈ ma.slines, x.ctx = ctx → x.slot = slot → x.gen = alGetD (t.ctxD ctx).headerGen slot 0) ∧
    (∀ j team order tm, r = .flush j team → s.team? team = some tm → Comes (.atombFlushComplete id order) s fun t =>
      (∀ x ∈ t.running, x.id ≠ id) ∧ (∀ e ∈ (t.mast tm.mast).staging, e.team ≠ team) ∧
      ∀ e pa, (s.mast tm.mast).staging = [e] → e.team = team → Merges s pa e.loc e.op e.ty → Merged s t pa e.op e.ty e.value) ∧
    (∀ j c m v team, r = .acqr j c m v team → Comes (.acqrComplete id) s fun t => (∀ x ∈ t.running, x.id ≠ id) ∧ SameMemory s t ∧
      ∀ u ∈ t.teams, ∀ x ∈ u.threads, Wait.op id ∉ x.waits) ∧
    (∀ j ctx packet team, r = .resolve j ctx packet team none → Comes (.resolveComplete id) s fun t => (∀ x ∈ t.running, x.id ≠ id) ∧
      (∀ p, packet = some p → Gone t p) ∧ (∀ u ∈ t.teams, ∀ x ∈ u.threads, Wait.op id ∉ x.waits) ∧
      ∀ i p u op, (s.running.filter fun x => x.id != id && x.resolves ctx).head? = some (.resolve i ctx p u (some op)) → (s.ctx? ctx).isSome →
        let e := hypAt (s.ctxD ctx).hyps op.hyp
        let now := fun (h : Nat) => hypAt (t.ctxD ctx).hyps h
        e.st = .opened → op.hyp ≠ 0 →
        (op.confirm = true → (now op.hyp).st ∈ [.merged, .free] ∧ ((now op.hyp).st = .merged → (now op.hyp).link = e.parent) ∧
          ∀ h, (hypAt (s.ctxD ctx).hyps h).st = .opened → h ≠ op.hyp → (hypAt (s.ctxD ctx).hyps h).parent = op.hyp → h ≠ 0 →
            (now h).st = .opened ∧ (now h).parent = e.parent) ∧
        (op.confirm = false → (now op.hyp).st = .refuted))) ∧
  (∀ team tm, s.team? team = some tm → tm.place = .resident → tm.epochDue = true → Comes (.epochClose team) s fun t =>
    (∃ u, t.team? team = some u ∧ u.epochsClosed = tm.epochsClosed + 1 ∧
      u.staging = tm.staging.filter fun e => e.epoch != tm.epochsClosed + 1) ∧
    (∀ e pa, tm.staging = [e] → e.epoch = tm.epochsClosed + 1 → ¬(e.op = 0 ∧ e.ty = 3) → Merges s pa e.loc e.op e.ty →
      Merged s t pa e.op e.ty e.value) ∧
    (∀ e f, tm.staging = [e, f] → tm.partials = [] → e.epoch = tm.epochsClosed + 1 → f.epoch = e.epoch → e.op = 0 → e.ty = 3 → f.op = 0 →
      f.ty = 3 → e.va = f.va → f.tid < e.tid → SameMemory s t ∧ ∃ u, t.team? team = some u ∧
        u.partials.map (fun q => (q.va, q.value)) = [(e.va, (fpAdd f32 0 (fpAdd f32 0 0x80000000 f.value).1 e.value).1)]))

/-- SCRUBBER_START and SCRUB_BLOCK of what was refuted, and L2_REPLACE (R235, R240, R333, R340). -/
def MemorySteps (s : State) : Prop :=
  (∀ ctx hyp c, s.ctx? ctx = some c → (hypAt c.hyps hyp).st = .refuted → Comes (.scrubberStart ctx hyp) s fun t => SameMemory s t ∧
    ((hypAt (t.ctxD ctx).hyps hyp).st = .scrubbing ∨ ((hypAt (t.ctxD ctx).hyps hyp).st = .free ∧
      (∀ v ∈ (t.ctxD ctx).versions, v.tag ≠ hyp) ∧ (∀ l ∈ t.launches, l.ctx = ctx → l.hyp ≠ hyp ∧
        ∀ u ∈ t.teams, u.launch = l.id → ∀ x ∈ u.threads, x.live = true → x.hyp ≠ hyp) ∧
      ∀ e ∈ (t.ctxD ctx).hyps, e.2.st ≠ .free → (e.2.st = .merged → e.2.link ≠ hyp) ∧ (e.2.st ≠ .merged → e.2.parent ≠ hyp))) ∧
    ((∀ v ∈ c.versions, v.tag ≠ hyp) → s.holds c hyp = false → hyp < 256 → (hypAt (t.ctxD ctx).hyps hyp).st = .free)) ∧
  (∀ ctx k c v, s.ctx? ctx = some c → c.versions[k]? = some v →
    (hypAt c.hyps v.tag).st = .refuted ∨ (hypAt c.hyps v.tag).st = .scrubbing → Comes (.scrubBlock ctx k) s fun t => SameMemory s t ∧
      (t.ctxD ctx).versions = c.versions.eraseIdx k) ∧
  (∀ pa, s.l2Victim ≠ some (pa / 128) → Comes (.l2Replace pa) s fun t => t = s) ∧
  (∀ pa, s.l2Victim = some (pa / 128) → Comes (.l2Replace pa) s fun t => ∀ x ∈ t.l2, x.line ≠ pa / 128) ∧
  (∀ pa, s.l2Victim = some (pa / 128) → Memory.wf s.mem = true → isHost pa = true → (s.hostCache.map (·.addr)).Nodup → Comes (.l2Replace pa) s fun t =>
    (∀ x ∈ t.hostCache, ¬(pa / 128 * 128 ≤ x.addr ∧ x.addr < pa / 128 * 128 + 128)) ∧
    (∀ x ∈ s.hostCache, x.dirty = true → pa / 128 * 128 ≤ x.addr → x.addr < pa / 128 * 128 + 128 → memGet t.mem x.addr = x.val) ∧
    ∀ a, (∀ x ∈ s.hostCache, x.addr ≠ a) → memGet t.mem a = memGet s.mem a) ∧
  (∀ pa, s.l2Victim = some (pa / 128) → isHost pa = false → pa / 256 ∈ s.dirtyComp → Comes (.l2Replace pa) s fun t => pa / 256 ∉ t.dirtyComp)


/-- HOST_WINDOW_ACCESS, PEER_ACCESS and PEER_TIMEOUT (R252, R253) on local HBM; an atomic of a peer is performed at this owner's home. -/
def OutsideSteps (s : State) (addr : Nat) (data : List Byte) : Prop :=
  (∀ port op ty, port < 12 → Merges s addr (hbmLoc addr) op ty →
    let n := if ty = 2 then 8 else 4
    Comes (.peerAccess (.atomic op ty) port addr n data) s fun t =>
      Holds s t addr n ((atomVal op ty (valueAt s addr n) (listVal data 0 n) (listVal data n n)).getD (valueAt s addr n)) ∧
      t.hostData = (List.range n).map fun k => (memGet s.mem (addr + k), false)) ∧
  (∀ port op len, 12 ≤ port → Comes (.peerAccess op port addr len data) s fun t => t = s) ∧
  (addr + data.length ≤ Config.hbmEnd →
  (∀ i, (i = .hostWindowAccess true addr data.length data ∧ s.start.st ≠ .reset) ∨ (∃ port, port < 12 ∧ i = .peerAccess .write port addr data.length data) →
    Memory.wf s.mem = true → Comes i s fun t =>
      (∀ k, k < data.length → memGet t.mem (addr + k) = data.getD k 0) ∧
      ∀ a, a < addr ∨ addr + data.length ≤ a → memGet t.mem a = memGet s.mem a) ∧
  (∀ i, (i = .hostWindowAccess false addr data.length [] ∧ s.start.st ≠ .reset) ∨ (∃ port, port < 12 ∧ i = .peerAccess .read port addr data.length []) →
    (∀ k, k < data.length → addr + k ∉ s.poison) → (∀ c ∈ s.ctxs, c.versions = []) → Comes i s fun t =>
      t.hostData = (List.range data.length).map (fun k => (memGet s.mem (addr + k), false)) ∧ SameMemory s t)) ∧
  (∀ port, port < 12 → Comes (.peerTimeout port) s fun t => (t.peers.find? (·.port == port)).map (·.up) = some false ∧ SameMemory s t)

/-- TEAM_RETIRE (R371): the team and its packs, copies and operations are gone. Its copies complete; the contributions of a team without
DET merge, and the partials of a DET team pass to its launch; its ring slot has a consumer less; the context's pins on the mast go when
it has no other team there. -/
def RetireStep (s : State) (team : Nat) (tm : Team) : Prop :=
  s.team? team = some tm → (∀ x ∈ tm.threads, x.live = false) → (∀ p ∈ s.flight, p.team ≠ team) →
  let l := s.launchD tm.launch
  let alone := tm.place = .resident ∧ tm.mesh = none ∧ l.draw = none ∧ tm.mxSaved = [] ∧ s.running = [] ∧ (s.mast tm.mast).mxq = []
  Comes (.teamRetire team) s (fun t => (∀ u ∈ t.teams, u.id ≠ team) ∧ (∀ a ∈ t.asyncs, a.team ≠ team) ∧
    ((∀ r ∈ s.running, r.byTeam team = true → r.resolves l.ctx = true) → ∀ r ∈ t.running, r.byTeam team = false)) ∧
  (∀ e pa, alone → l.det = false → s.asyncs = [] → (s.mast tm.mast).staging = [e] → e.team = team → Merges s pa e.loc e.op e.ty →
    Comes (.teamRetire team) s fun t => Merged s t pa e.op e.ty e.value ∧ (t.mast tm.mast).staging = []) ∧
  (∀ a dst o n pa, alone → l.det = false → (s.mast tm.mast).staging = [] → s.asyncs = [a] → a.team = team → a.kind = .out dst o n →
    a.segs = piece pa n → pa + n ≤ Config.hbmEnd → a.wrote = [] → Memory.wf s.mem = true → (s.ctx? l.ctx).isSome →
    resolveHyp (s.ctxD l.ctx).hyps a.hyp = 0 → Comes (.teamRetire team) s fun t => (∀ i, i < n → memGet t.mem (pa + i) = alGetD tm.deck (o + i) 0) ∧
      ∀ x, x < pa ∨ pa + n ≤ x → memGet t.mem x = memGet s.mem x) ∧
  (∀ m, alone → s.launch? tm.launch = some m → m.det = true → s.asyncs = [] → tm.staging = [] → Comes (.teamRetire team) s fun t =>
    SameMemory s t ∧ (t.launch? tm.launch).map (·.partials) = some (m.partials ++ tm.partials.map fun q => (tm.num, q))) ∧
  (∀ r k x, s.asyncs = [] → s.running = [] → (s.mast tm.mast).staging = [] → (s.mast tm.mast).mxq = [] → tm.mxSaved = [] → tm.staging = [] →
    tm.mesh = some r → r.slot = some k → (s.mast r.mast).ring = [x] → x.slot = k → Comes (.teamRetire team) s fun t =>
      (t.mast r.mast).ring = if x.users ≤ 1 then [] else [{ x with users := x.users - 1 }]) ∧
  (alone → s.teams = [tm] → Comes (.teamRetire team) s fun t => ∀ x ∈ (t.mast tm.mast).pins, x.ctx ≠ l.ctx)

/-- LAUNCH_FINISH of a DISPATCH whose teams have all retired (R372, R373): the partials of a DET launch combine along the fixed tree, the
completion signal of the tail is written, the successors are next, and the launch is gone; where SIG_ADDR cannot be written the packet
ends with cause FAULT. -/
def FinishStep (s : State) (launch : Nat) (l : Launch) (p : Packet) : Prop :=
  s.launch? launch = some l → s.packet? l.packet = some p → s.launchDone l = true →
  let signal := p.tail ≠ [] ∧ p.tailD 0 ≠ 0
  let next := fun (t : State) => ∀ n, n = min 4 (p.tailW 0x14) →
    (n = 0 → t.packet? p.id = some { p with st := .finished, left := [] }) ∧
    (n ≠ 0 → ∃ q, t.packet? p.id = some q ∧ q.st = .finished ∧
      ((q.left = (List.range n).tail ∧ ∃ y ∈ t.packets, y.parent = some p.id ∧ y.place = 0 ∧ y.st = .read) ∨ q.left = []))
  Comes (.launchFinish launch) s (fun t => ∀ m ∈ t.launches, m.id ≠ launch) ∧
  (l.draw = none → l.partials = [] → ¬signal → Comes (.launchFinish launch) s fun t => t.mem = s.mem ∧ t.poison = s.poison ∧ next t) ∧
  (∀ pa, l.draw = none → l.partials = [] → signal → Memory.wf s.mem = true → NoVersions s →
    s.xrange (s.ctxD l.ctx) (p.tailD 0) 8 .wr = .ok (piece pa 8) → CleanHbm s pa 8 → Comes (.launchFinish launch) s fun t => next t ∧
      (∀ k, k < 8 → memGet t.mem (pa + k) =
        BitVec.ofNat 8 ((p.tailD 8 + if p.tailW 0x10 % 2 = 1 then valueAt s pa 8 else 0) / 256 ^ k)) ∧
      ∀ a, a < Config.hbmEnd → a < pa ∨ pa + 8 ≤ a → memGet t.mem a = memGet s.mem a) ∧
  (∀ e q, l.draw = none → l.partials = [] → signal → s.xrange (s.ctxD l.ctx) (p.tailD 0) 8 .wr = .error e → s.queue? p.queue = some q →
    q.error = false → q.destroyed = false → Comes (.launchFinish launch) s fun t => SameMemory s t ∧ Gone t p.id ∧
      t.vectors = s.vectors ++ [q.vector] ∧ t.queue? p.queue =
        some { q with error := true, cause := 0x06, errIndex := p.index, errPacket := none, errUnread := false }) ∧
  ∀ k pa va, l.draw = none → ¬signal → l.partials ≠ [] → (∀ x ∈ l.partials, x.1 < l.teams ∧ x.2.va = va ∧ x.2.loc = hbmLoc pa) →
    Merges s pa (hbmLoc pa) 0 3 → k ≤ 8 → l.teams ≤ 2 ^ k → (∀ j, l.teams ≤ 2 ^ j → k ≤ j) →
    let leaf := fun (i : Nat) => ((l.partials.find? fun x => x.1 == i).map (·.2.value)).getD 0x80000000
    Comes (.launchFinish launch) s fun t => Merged s t pa 0 3 (treeAt (fun x y => (fpAdd f32 0 x y).1) leaf k 0)

/-- WATCHDOG_EXPIRY (R114): the launch and its teams are gone, its packet too, and no signal is written; contributions without DET merge
and those of a DET team are dropped; the queue is in ERROR with cause WATCHDOG and raises VECTOR. -/
def WatchdogStep (s : State) (launch : Nat) (l : Launch) : Prop :=
  s.launch? launch = some l → (s.ctxD l.ctx).watchdog ≠ 0 → 1000000 * (s.ctxD l.ctx).watchdog ≤ s.watchTime l →
  Comes (.watchdogExpiry launch) s (fun t => (∀ m ∈ t.launches, m.id ≠ launch) ∧ (∀ u ∈ t.teams, u.launch ≠ launch) ∧ Gone t l.packet) ∧
  (∀ p q, s.packet? l.packet = some p → s.queue? l.queue = some q → q.error = false → q.destroyed = false →
    Comes (.watchdogExpiry launch) s fun t => t.vectors = s.vectors ++ [q.vector] ∧ t.queue? l.queue =
      some { q with error := true, cause := 0x0B, errIndex := p.index, errPacket := none, errUnread := false }) ∧
  (∀ u, s.teams = [u] → u.launch = launch → u.place = .resident → s.asyncs = [] →
    (l.det = true ∨ (s.mast u.mast).staging = [] → Comes (.watchdogExpiry launch) s fun t => SameMemory s t) ∧
    ∀ e pa, l.det = false → (s.mast u.mast).staging = [e] → e.team = u.id → Merges s pa e.loc e.op e.ty →
      Comes (.watchdogExpiry launch) s fun t => Merged s t pa e.op e.ty e.value ∧ (t.mast u.mast).staging = [])

/-- POWER_SAMPLE, ECC_CORRECTED and ECC_UNCORRECTABLE (R128, R364, R365). -/
def SupplySteps (s : State) : Prop :=
  (∀ module watts, Comes (.powerSample module watts) s fun t =>
    t = { s with throttled := t.throttled, clockMHz := t.clockMHz } ∧
    (∀ c ∈ s.ctxs, ∀ w, alGet c.num watts = some w → c.powerCap < w → (c.num, w) ∈ t.throttled) ∧
    ((s.ctxs.map (·.num)).Nodup → ∀ c ∈ s.ctxs, ∀ w, alGet c.num watts = some w → w < c.powerCap → ∀ x ∈ t.throttled, x.1 ≠ c.num) ∧
    (module < 1500 → t.clockMHz = 1000) ∧
    (1500 < module → (∃ x ∈ t.throttled, (s.ctxD x.1).powerCap < x.2) → t.clockMHz = s.clockMHz) ∧
    (1500 < module → (∀ x ∈ t.throttled, x.2 ≤ (s.ctxD x.1).powerCap) → t.clockMHz = max 500 (s.clockMHz - 50))) ∧
  (Comes .eccCorrected s fun t => t = { s with ceCount := t.ceCount } ∧ t.ceCount.toNat = min (2 ^ 32 - 1) (s.ceCount.toNat + 1)) ∧
  (∀ k, Comes (.eccUncorrectable k) s fun t => t.ueCount.toNat = min (2 ^ 32 - 1) (s.ueCount.toNat + 1) ∧
    ∀ pa, k = .hbm pa → pa < Config.hbmEnd → t.ueAddr.toNat = pa ∧ t.mem = s.mem ∧ ∀ a, a / 32 = pa / 32 → a ∈ t.poison)

/-! ### Team records (R361 to R363) -/

/-- The number whose bit k, below n, is f k. -/
def bitsOf (n : Nat) (f : Nat → Bool) : Nat := ((List.range n).map fun k => if f k then 2 ^ k else 0).sum
/-- Where sections of some lengths begin, each at a multiple of 64, and where the record ends. -/
def layout : Nat → List Nat → List Nat
  | at_, [] => [at_]
  | at_, n :: r => at_ :: layout ((at_ + n + 63) / 64 * 64) r
/-- Where the descriptor of the n-th register of a REG section lies: an entry takes 12 bytes, 16 or 136, as its shape requires. -/
def entryAt (s : State) (start : Nat) : Nat → Nat
  | 0 => start
  | n + 1 => entryAt s start n + [12, 16, 136, 136].getD (valueAt s (entryAt s start n) 4 % 4) 0
/-- The word that an entry holds for a lane: u, or b + s × LANE, or the lane's own. -/
def entryWord (s : State) (at_ l : Nat) : Word :=
  let w := fun (k : Nat) => valueAt s (at_ + 8 + 4 * k) 4
  BitVec.ofNat 32 (match valueAt s at_ 4 % 4 with
    | 0 => w 0
    | 1 => w 0 + w 1 * l
    | _ => w l)
/-- Static warps of a team. -/
def staticWarps (u : Team) : Nat := (u.shape.tsize + 31) / 32
/-- Where the section of a number begins in a record at pa. -/
def sectionOf (s : State) (pa k : Nat) : Nat := pa + valueAt s (pa + 0x180 + 4 * k) 4

/-- The fields of a record's header but for the answers and the sections (R362): offset, size, value. -/
def headerFields (u : Team) (det : Bool) (mx : List MxOp) : List (Nat × Nat × Nat) :=
  [(0x000, 4, 0x4D415354), (0x008, 4, u.num), (0x00C, 4, if u.stage = .pixel then 0 else u.count), (0x010, 2, u.shape.tsize),
   (0x012, 2, u.shape.vregs), (0x014, 1, stageCode u.stage), (0x015, 1, if det then 1 else 0), (0x016, 1, u.shape.tiles), (0x017, 1, 0),
   (0x018, 4, u.shape.deck), (0x01C, 4, u.shape.plane), (0x020, 4, u.seqcfg.toNat), (0x024, 4, u.orphan.getD 0xFFFFFFFF),
   (0x028, 4, u.tilefNext), (0x02C, 4, u.detPos), (0x174, 4, mx.length), (0x178, 4, u.staging.length + u.partials.length)] ++
  ((List.range 16).map fun n => (0x070 + 8 * n, 8, ((u.bar n).count + 2 ^ 16 * (u.bar n).expected + if (u.bar n).phase then 2 ^ 31 else 0) % 2 ^ 32)) ++
  (List.range 33).map fun n => (0x0F0 + 4 * n, 4, (alGetD u.loss n 0).toNat)

/-- The header: its fields, the held answers, and the sections one after the other, each at a multiple of 64. -/
def HeaderHolds (s : State) (pa : Nat) (u : Team) (det : Bool) (mx : List MxOp) : Prop :=
  let reg := 1024 + 64 * u.shape.tsize + 64 * staticWarps u
  let marks := (u.shape.deck + 255) / 256 + (u.shape.plane + 255) / 256
  let ends := layout 1024 [64 * u.shape.tsize, 64 * staticWarps u, entryAt s (pa + reg) (staticWarps u * u.shape.vregs) - (pa + reg),
    u.shape.deck, 2 * marks, u.shape.plane, 32832 * u.shape.tiles, 80 * mx.length, 32 * (u.staging.length + u.partials.length)]
  (∀ f ∈ headerFields u det mx, valueAt s (pa + f.1) f.2.1 = f.2.2 % 256 ^ f.2.1) ∧
  (∀ i, i < u.tilefNext → u.tilefNext ≤ i + 16 →
    ((∃ x ∈ u.held, x.1 ≤ i ∧ x.2 = none) → valueAt s (pa + 0x030 + 4 * (i % 16)) 4 = 0xFFFFFFFF) ∧
    ((∀ x ∈ u.held, x.1 ≤ i → x.2 ≠ none) → ∀ a, alGet i u.held = some (some a) → valueAt s (pa + 0x030 + 4 * (i % 16)) 4 = a % 2 ^ 32)) ∧
  (∀ k o, k < 9 → ends[k]? = some o → valueAt s (pa + 0x180 + 4 * k) 4 = o) ∧ ∀ o, ends[9]? = some o → valueAt s (pa + 0x004) 4 = o

/-- The bits of a wait condition (R140, R362); a PAUSE is stored as the cycles that remain. -/
def waitBits (cycle : Nat) : Wait → Nat
  | .tag k n => 2 ^ 4 + 2 ^ 8 * k + 2 ^ 10 * n
  | .barrier n ph => 2 ^ 5 + 2 ^ 16 * n + (if ph then 2 ^ 20 else 0)
  | .ring => 2 ^ 6
  | .pause n => 2 ^ 21 * (n - cycle)
  | .op _ | .epoch _ => 0
/-- STATE: a thread whose pack has not been resolved is READY. -/
def stateBits : ThreadState → Nat
  | .ready | .issued => 0
  | .waiting => 1
  | .faulted => 2
  | .exited => 3
  | .absent => 4
/-- The words of a thread at the offset of each. -/
def threadFields (cycle : Nat) (x : Thread) : List (Nat × Nat) :=
  [(0x00, stateBits x.st + (if x.recPend then 8 else 0) + (x.waits.map (waitBits cycle)).sum), (0x04, x.next),
   (0x08, x.preds.toNat / 2 * 2 + 1 + 2 ^ 8 * x.wb + 2 ^ 16 * x.hyp), (0x0C, ((List.range 4).map fun k => x.count k % 256 * 256 ^ k).sum),
   (0x10, bitsOf 4 (fun k => x.tagErr.getD k false) + 2 ^ 4 * bitsOf 16 x.pending), (0x14, x.rngs.toNat), (0x18, x.status.toNat),
   (0x1C, x.tilef), (0x20, x.aflush), (0x24, 0), (0x28, 0), (0x2C, 0)] ++
  (List.range 4).map fun k => (0x30 + 4 * k, (x.frec.getD k 0).toNat)

/-- The thread, warp and register sections. -/
def ThreadsHold (s : State) (pa : Nat) (u : Team) (cycle : Nat) : Prop :=
  (∀ j, j < u.threads.length → ∀ f ∈ threadFields cycle (u.thread j), valueAt s (sectionOf s pa 0 + 64 * j + f.1) 4 = f.2 % 2 ^ 32) ∧
  (∀ w m, w < staticWarps u → m < 8 → valueAt s (sectionOf s pa 1 + 64 * w + 4 * m) 4 = (alGetD u.masks (8 * w + m) 0).toNat) ∧
  ∀ w r, w < staticWarps u → r < u.shape.vregs → let at_ := entryAt s (sectionOf s pa 2) (w * u.shape.vregs + r)
    valueAt s (at_ + 4) 4 = bitsOf 32 (fun l => (u.thread (32 * w + l)).poison.contains r) ∧
    ∀ l, l < 32 → 32 * w + l < u.threads.length → (u.thread (32 * w + l)).live = true →
      entryWord s at_ l = alGetD (u.thread (32 * w + l)).v r 0

/-- A granule's mark: the form, and a bit for each sector that holds a poisoned byte. -/
def MarkHolds (s : State) (at_ g : Nat) (marks : List (Nat × Nat)) (poison : List Nat) : Prop :=
  valueAt s at_ 1 = alGetD marks g 0 % 256 ∧ valueAt s (at_ + 1) 1 = bitsOf 8 fun k => poison.any fun o => o / 32 == 8 * g + k

/-- The sections of DECK, PLANE and their marks, of the accumulator tiles, of the abandoned operations and of the staging entries. -/
def SpacesHold (s : State) (pa : Nat) (u : Team) (mx : List MxOp) : Prop :=
  let grans := (u.shape.deck + 255) / 256
  (∀ k, k < u.shape.deck → memGet s.mem (sectionOf s pa 3 + k) = alGetD u.deck k 0) ∧
  (∀ g, g < grans → MarkHolds s (sectionOf s pa 4 + 2 * g) g u.deckMarks u.deckPoison) ∧
  (∀ g, g < (u.shape.plane + 255) / 256 → MarkHolds s (sectionOf s pa 4 + 2 * grans + 2 * g) g u.planeMarks u.planePoison) ∧
  (∀ k, k < u.shape.plane → memGet s.mem (sectionOf s pa 5 + k) = alGetD u.plane k 0) ∧
  (∀ k, k < u.shape.tiles → let x := u.tile k
    let at_ := sectionOf s pa 6 + 32832 * k
    (∀ i, i < 4096 → valueAt s (at_ + 8 * i) 8 = (BitVec.ofInt 64 (x.elem i)).toNat) ∧
    valueAt s (at_ + 32768) 4 = (BitVec.ofInt 16 x.te).toNat + (if x.ovf then 2 ^ 16 else 0) + if x.void then 2 ^ 17 else 0) ∧
  (∀ j o, mx[j]? = some o → let at_ := sectionOf s pa 7 + 80 * j
    (∀ k, k < 64 → memGet s.mem (at_ + k) = o.params.getD k 0) ∧
    valueAt s (at_ + 64) 4 = ((if o.zero then 1 else 0) + 2 ^ 2 * o.tile + 2 ^ 6 * o.tag + 2 ^ 16 * o.tid) % 2 ^ 32) ∧
  (∀ j e, u.staging[j]? = some e → let at_ := sectionOf s pa 8 + 32 * j
    valueAt s at_ 8 = e.va % 2 ^ 64 ∧ valueAt s (at_ + 8) 8 = e.value % 2 ^ 64 ∧
    valueAt s (at_ + 16) 4 = (e.op + 2 ^ 3 * e.ty + 2 ^ 16 * e.tid) % 2 ^ 32 ∧ valueAt s (at_ + 20) 4 = e.epoch % 2 ^ 32 ∧
    valueAt s (at_ + 24) 4 = e.num % 2 ^ 32) ∧
  ∀ j q, u.partials[j]? = some q → let at_ := sectionOf s pa 8 + 32 * (u.staging.length + j)
    valueAt s at_ 8 = q.va % 2 ^ 64 ∧ valueAt s (at_ + 8) 8 = q.value % 2 ^ 64 ∧ (valueAt s (at_ + 16) 4).testBit 5 = true

/-- What a save of a team leaves, when its work has drained to a state in which the save area has room (R357, R360 to R363): the record
and its directory entry stand in the area, and the team waits there with its registers. An abandoned operation has a block of 64 bytes,
and at most 64 of them and 512 staging entries are recorded. -/
def Saves (i : Instr) (s drained : State) (team : Nat) : Prop :=
  ∀ u base size off entry, drained.team? team = some u →
    let l := drained.launchD u.launch
    let mx := (drained.mast u.mast).mxq.filter (·.team == team) ++ u.mxSaved
    (drained.ctxD l.ctx).saveArea = some (base, size) → drained.recordRoom l.ctx size u.shape.recordBound = some (off, entry) →
    Memory.wf drained.mem = true → base + off + u.shape.recordBound ≤ Config.hbmEnd → u.shape.recordBound < 2 ^ 32 →
    u.threads.length = u.shape.tsize → mx.length ≤ 64 → (∀ o ∈ mx, o.params.length ≤ 64) → u.staging.length + u.partials.length ≤ 512 →
    off % 65536 = 0 ∧ 65536 ≤ off ∧ off + u.shape.recordBound ≤ size ∧ entry < 4096 ∧ Comes i s fun t =>
      (∃ v, t.team? team = some v ∧ v.place = .saved off entry ∧ v.bins = [] ∧
        v.threads.map (fun x => (x.st, x.next, x.v, x.preds)) = u.threads.map (fun x => (x.st, x.next, x.v, x.preds))) ∧
      HeaderHolds t (base + off) u l.det mx ∧ ThreadsHold t (base + off) u drained.cycle ∧ SpacesHold t (base + off) u mx ∧
      valueAt t (base + 16 * entry) 6 = off % 2 ^ 48 ∧ valueAt t (base + 16 * entry + 6) 2 = l.queue % 2 ^ 16 ∧
      valueAt t (base + 16 * entry + 12) 4 = u.num % 2 ^ 32 ∧
      ∀ p, drained.packet? l.packet = some p → valueAt t (base + 16 * entry + 8) 4 = p.index.toNat

/-- PREEMPT_REQUEST (R55, R356): no pack of the team is left, and none is formed any more. A pack that is discarded leaves its threads
READY at its block; one that has issued its last word may resolve instead, as the device chooses. -/
def PreemptStep (s : State) (team : Nat) (tm : Team) : Prop :=
  (tm.running = true → Comes (.preemptRequest team []) s fun t =>
    (∀ p ∈ t.flight, p.team ≠ team) ∧ (∀ p ∈ s.flight, (∀ q ∈ s.flight, q.team = team → q.id ≠ p.id) → p ∈ t.flight) ∧
    ∃ u, t.team? team = some u ∧ u.place = .stopping ∧ ∀ i, u.thread i =
      if i < tm.threads.length ∧ ∃ p ∈ s.flight, p.team = team ∧ ∃ c ∈ p.lanes, c.2.tid = i then { tm.thread i with st := .ready } else tm.thread i) ∧
  (tm.place = .resident → Comes (.preemptRequest team []) s fun t => SameMemory s t) ∧
  ∀ pack p l lane ln, tm.place = .resident → p.team = team → s.flight = [p] → AtEnd s pack p tm l lane ln [] → ln.trap = none →
    ln.poisonAt = none → ln.tagWait = none → ln.pause = none → ln.barWait = [] → Comes (.preemptRequest team [pack]) s fun t =>
      t.flight = [] ∧ Committed s t p tm ln ∧ (t.team? team).map (·.place) = some .stopping

/-- TEAM_RESTORE (R355, R359), at a moment at which nothing that comes before its launch in the order of R119 can be placed (log entry
66): the team is on the least-loaded mast that can take it, its registers, masks and spaces as the record in memory has them, and the
rest of its threads as the save kept them (log entry 20). -/
def RestoreStep (s : State) (team : Nat) (tm : Team) : Prop :=
  ∀ m rest o e base size, tm.place = .saved o e → tm.wantsRoom = true → (s.ctxD (s.launchD tm.launch).ctx).saveArea = some (base, size) →
    s.admitBefore (s.launchD tm.launch) = s → s.leastLoaded 1 (s.restoreMasts tm s.bars) = m :: rest → Comes (.teamRestore team) s fun t =>
      let pa := base + o
      let regs := sectionOf s pa 2
      let n := staticWarps tm * tm.shape.vregs
      ∃ u, t.team? team = some u ∧ u.mast = m ∧ u.place = .restored o e ∧ u.threads.length = tm.threads.length ∧
        (∀ i, (u.thread i).next = (tm.thread i).next ∧ (u.thread i).preds = (tm.thread i).preds ∧ (u.thread i).hyp = (tm.thread i).hyp ∧
          ((tm.thread i).st ≠ .waiting → (u.thread i).st = (tm.thread i).st) ∧
          (u.thread i).v = ((s.readRecord tm pa).thread i).v) ∧
        (NoVersions s → pa + 0x1A4 ≤ Config.hbmEnd →
          (sectionOf s pa 3 + tm.shape.deck ≤ Config.hbmEnd → ∀ k, k < tm.shape.deck → alGetD u.deck k 0 = memGet s.mem (sectionOf s pa 3 + k)) ∧
          (sectionOf s pa 5 + tm.shape.plane ≤ Config.hbmEnd → ∀ k, k < tm.shape.plane → alGetD u.plane k 0 = memGet s.mem (sectionOf s pa 5 + k)) ∧
          (sectionOf s pa 1 + 64 * staticWarps tm ≤ Config.hbmEnd → ∀ w k, w < staticWarps tm → k < 8 →
            (alGetD u.masks (8 * w + k) 0).toNat = valueAt s (sectionOf s pa 1 + 64 * w + 4 * k) 4) ∧
          (regs + 136 * n ≤ Config.hbmEnd → (∀ a ∈ s.poison, ¬(regs ≤ a ∧ a < regs + 136 * n)) → ∀ w r l, w < staticWarps tm → r < tm.shape.vregs →
            l < 32 → 32 * w + l < tm.threads.length → (tm.thread (32 * w + l)).live = true →
            let at_ := entryAt s regs (w * tm.shape.vregs + r)
            alGetD (u.thread (32 * w + l)).v r 0 = entryWord s at_ l ∧
            (r ∈ (u.thread (32 * w + l)).poison ↔ (valueAt s (at_ + 4) 4).testBit l = true)))

/-- PREEMPT_REQUEST, TEAM_SAVE, TEAM_SWAP and TEAM_RESTORE (R355 to R363). -/
def InterruptSteps (s : State) (team : Nat) (tm : Team) : Prop :=
  s.team? team = some tm → PreemptStep s team tm ∧
  (tm.place = .stopping → (∀ p ∈ s.flight, p.team ≠ team) → Saves (.teamSave team) s (s.drainForSave tm) team) ∧
  (tm.running = true → tm.parked = true → s.waitsFor tm.mast = true → (∀ p ∈ s.flight, p.team ≠ team) →
    Saves (.teamSwap team) s (((s.freeRecord tm).onTeam team fun u => { u with place := .stopping }).drainForSave
      { tm with place := .stopping }) team) ∧
  RestoreStep s team tm

end Sys2Proof.Claims

open Sys2Proof Sys2Proof.Machine Sys2Proof.Claims

/-! ### The statements -/

/-- R37 to R57: decoding the word of a well-formed instruction gives the instruction back, with every operand. -/
def Obligations.EncodeThenDecode : Prop :=
  ∀ i : Instr, i.wellFormed = true → isEvent i = false → decodeWord (encode i) = .ok i

/-- R37 to R57: a word that decodes is the word of what it decodes to: no bit of it is dropped. -/
def Obligations.DecodeThenEncode : Prop := ∀ w i, decodeWord w = .ok i → encode i = w

/-- R47 to R53: what decodes is well formed and is an instruction word. -/
def Obligations.DecodedIsWellFormed : Prop := ∀ w i, decodeWord w = .ok i → i.wellFormed = true ∧ isEvent i = false

/-- Words written out from the field positions of R37 and the tables of R47 to R51. -/
def Obligations.SpecWordsDecode : Prop :=
  decodeWord 0x1400C082 = .ok (.add ⟨false, 0⟩ 3 1 2) ∧
  decodeWord 0x03800004 = .ok (.modw 0 true 0 0) ∧
  decodeWord 0x28040BFF = .ok (.addi ⟨false, 0⟩ 2 2 0x3FF) ∧
  decodeWord 0x842FFFF4 = .ok (.braNot 2 0x7FFF4) ∧
  decodeWord 0x86800000 = .ok .exit ∧
  decodeWord 0x4D810103 = .ok (.ld ⟨false, 0⟩ 3 4 2 3) ∧
  decodeWord 0x72000000 = .ok (.kill ⟨false, 0⟩)

/-- R42, R180: a pack that a pipe has issued runs the instruction that its next word decodes to. -/
def Obligations.StepRunsDecodedWord : Prop :=
  ∀ s p w i, s.issue = some p → p.fetch = some w → decodeWord w = .ok i → step s = exec i s

/-- R52: a word that does not decode, or that the fetch of R156 did not bring, ends the block with ILLEGAL in every lane. -/
def Obligations.StepRaisesIllegal : Prop :=
  ∀ s p cause, s.issue = some p →
    (p.fetch = none ∧ cause = 0x07 ∨ ∃ w, p.fetch = some w ∧ decodeWord w = .error cause) →
    ∃ p' : Pack, step s = .next { s with issue := none, flight := putBy (fun x => x.id == p'.id) p' s.flight } ∧
      { p' with lanes := p.lanes } = { p with ended := true, reads := [] } ∧
      List.Forall₂ (fun c c' => c'.1 = c.1 ∧ c'.2 = trapped p cause 0 c.2) p.lanes p'.lanes

/-- The model's choice (log entries 2, 80, 86): with no pack issued, a step lets the time before the next due device step pass and then
is that device step. An L2 line that must leave comes first, a mapping round falls due once per 250 µs, and an empty agenda takes the
next device step of the schedule. -/
def Obligations.StepTakesDueDeviceStep : Prop :=
  ∀ s : State, s.issue = none →
    (∀ line, s.l2Victim = some line → step s = exec (.l2Replace (128 * line)) (s.elapse 0)) ∧
    (s.l2Victim = none →
      ∀ d r u, (s.agenda = d :: r ∧ u = { s with agenda := r }) ∨ (s.agenda = [] ∧ d = ⟨(Config.schedule s.tick).1, (Config.schedule s.tick).2⟩ ∧ r = [] ∧ u = { s with tick := s.tick + 1 }) →
        (s.ns + d.ns < s.roundAt → isEvent d.step = true → step s = exec d.step (u.elapse d.ns)) ∧
        (s.roundAt ≤ s.ns + d.ns → step s = exec (.mappingRound (Config.unmaps s.free))
          (State.elapse { u with agenda := ⟨d.ns - (s.roundAt - s.ns), d.step⟩ :: r, free := s.free + 1 } (s.roundAt - s.ns))))

/-- Every step of the machine keeps memory in its canonical form. -/
def Obligations.StepKeepsMemoryCanonical : Prop :=
  ∀ s t, Memory.wf s.mem = true → step s = .next t → Memory.wf t.mem = true

/-- R86, R89: what reset leaves. -/
def Obligations.ResetLeavesStartState : Prop :=
  State.reset.start.st = .reset ∧ State.reset.start.fail = 0 ∧ State.reset.start.imageLen = 0 ∧ State.reset.cmd.busy = false ∧
  State.reset.ctxs = [] ∧ State.reset.queues = [] ∧ State.reset.launches = [] ∧ State.reset.teams = [] ∧ State.reset.issue = none ∧
  Memory.wf State.reset.mem = true ∧ ∀ a, memGet State.reset.mem a = unlisted

/-- R205: the IALU words. -/
def Obligations.IntegerResults : Prop := ∀ i v, ialuVal i = some v → i.wellFormed = true → ValueResult i v
/-- R206: the ILOG words. -/
def Obligations.LogicResults : Prop := ∀ i v, ilogVal i = some v → i.wellFormed = true → ValueResult i v
/-- R212, R213: the words with an immediate. A LOGI word of operation 7, or of a shift or rotation with IMM[6] = 1, raises
RESERVED-VALUE. -/
def Obligations.ImmediateResults : Prop :=
  (∀ i v, immVal i = some v → i.wellFormed = true → ValueResult i v) ∧
  ∀ w : Word, w.extractLsb' 26 5 = 0x0B →
    (w.extractLsb' 7 3 = 7 ∨ (3 ≤ (w.extractLsb' 7 3).toNat ∧ w.getLsbD 6 = true)) → decodeWord w = .error 0x03
/-- R207 to R210: bit fields, counts, division and multiply-add. -/
def Obligations.BitFieldResults : Prop := ∀ i v, ibitVal i = some v → i.wellFormed = true → ValueResult i v
/-- R210, R214, R215, R229, R368, R369, R187: pairs, selections, specials and random numbers. -/
def Obligations.PairAndSpecialResults : Prop :=
  (∀ i v, wordOp i = some v → i.wellFormed = true → WordsResult i v) ∧
  (∀ i v, ctxrOp i = some v → i.wellFormed = true → WordsResult i v)
/-- R210: ADDC and SUBB. -/
def Obligations.CarryResults : Prop :=
  (∀ h d a b, (Instr.addc h d a b).wellFormed = true →
    CarryResult (.addc h d a b) h d a b (fun x y c => (x + y + c : Nat)) fun z => decide (2 ^ 32 ≤ z)) ∧
  (∀ h d a b, (Instr.subb h d a b).wellFormed = true →
    CarryResult (.subb h d a b) h d a b (fun x y c => (x : Int) - y - c) fun z => decide (z < 0))
/-- R211, R214, R219: the words that write a predicate, and the values and flags of FCMP apart from the model's arithmetic. -/
def Obligations.PredicateResults : Prop :=
  (∀ i v, predOp i = some v → i.wellFormed = true → PredResult i v) ∧
  (∀ h cmp pd a b, (Instr.fcmp h cmp pd a b).wellFormed = true → FcmpResult h cmp pd a b) ∧ CompareFacts
/-- R59 to R64, R216 to R218, R220, R223: the FALU, FFMA and packed words, and apart from the model's arithmetic the values of FMIN, FMAX
and FRND, the NaN and zero results, R223's example, and how sums, differences, products and fused results of F32, F16 and BF16 round in
every mode, with OF, UF and NX. -/
def Obligations.FloatResults : Prop :=
  (∀ i v, fpOp i = some v → i.wellFormed = true → WordsResult i v) ∧ FloatFacts ∧ RoundingFacts
/-- R221 to R223: the FSFU words, the special inputs of R222, the exact results of R221, and reciprocals and roots nearest to the
exact ones. -/
def Obligations.SpecialFunctionResults : Prop :=
  (∀ i v, fsfuOp i = some v → i.wellFormed = true → WordsResult i v) ∧ SpecialFacts
/-- R65, R67, R224 to R226: CVT and SPK, with the values of R67's and R225's tables and of the rules of R65. -/
def Obligations.ConversionResults : Prop :=
  (∀ i v, cvtOp i = some v → i.wellFormed = true → WordsResult i v) ∧ ConvertFacts
/-- R73, R74, R227, R228: CVTBD, the block that R73 makes of eight values, and its example. -/
def Obligations.BeadConversionResult : Prop :=
  (∀ h d a b, (Instr.cvtbd h d a b).wellFormed = true → CvtbdResult h d a b) ∧ (∀ m el xs, BeadFacts m el xs) ∧
  beadPack 4 128 [0x3FA00000, 0xBF000000, 0x3E99999A, 0x3E4CCCCD, 0x40400000, 0x40A00000, 0, 0xBD800000] =
    ⟨0x8000C10A8A, 0x0B80, [(5, 0x40A00000)], 16⟩

/-- R60, R61, R63: in RNE a sum, difference, product or fused result of finite F32 values is the F32 nearest to the exact one, with an
even significand where two are equally near; NX says that it is not the exact one. Past the largest finite value it is an infinity,
with OF and NX. -/
def Obligations.FloatRoundsToNearest : Prop :=
  ∀ a b d : Word, f32Finite a → f32Finite b → f32Finite d →
    ∀ r z, (r, z) ∈ [(fpAdd f32 0 a.toNat b.toNat, f32Val a + f32Val b), (fpSub f32 0 a.toNat b.toNat, f32Val a - f32Val b),
        (fpMul f32 0 a.toNat b.toNat, f32Val a * f32Val b), (fpFma f32 0 false false a.toNat b.toNat d.toNat, f32Val a * f32Val b + f32Val d),
        (fpFma f32 0 false true a.toNat b.toNat d.toNat, f32Val a * f32Val b - f32Val d),
        (fpFma f32 0 true false a.toNat b.toNat d.toNat, f32Val d - f32Val a * f32Val b)] →
      (|z| < 2 ^ 128 - 2 ^ 103 → ∃ x : Word, r.1 = x.toNat ∧ Nearest x z ∧ (r.2.getLsbD 4 = true ↔ f32Val x ≠ z)) ∧
      (2 ^ 128 - 2 ^ 103 ≤ |z| → r = (if 0 < z then 0x7F800000 else 0xFF800000, 20))

/-- R191, R193, R194: votes, lane moves and scans. The model's choices: a lane whose own sources are clean takes another lane's marked
value and notes nothing (log entry 28, DEDUCED); lane 0's SCAN result is its operand with its bits, and a lane that itself traps
REGISTER-RANGE still gives the others its value (log entry 95). -/
def Obligations.LaneResults : Prop :=
  (∀ i v, laneOp i = some v → i.wellFormed = true → WordsResult i v) ∧
  (∀ i v, scanOp i = some v → i.wellFormed = true → WordsResult i v)
/-- R192: RED. The model's choices: poison of the other lanes' operands is not noted by the lane that takes the result, only a mark of
its own source is (log entry 28, DEDUCED); a lane that itself traps REGISTER-RANGE still gives its value (log entry 95). -/
def Obligations.ReductionResult : Prop :=
  ∀ h op ty d a pe, (Instr.red h op ty d a pe).wellFormed = true → RedResult h op ty d a pe
/-- R78, R192: RED.ADD of integers is the sum over the present and active lanes. The model's choice (log entry 95): so over one that
itself traps REGISTER-RANGE. -/
def Obligations.ReductionSums : Prop :=
  ∀ h ty d a pe, (Instr.red h 0 ty d a pe).wellFormed = true → ty.toNat ≤ 1 → RedAddResult h ty d a pe
/-- R195: PATLD. The model's choices: poison of another lane is not noted (log entry 28), the pattern is read through L1 when the word
executes (log entry 74), a CP.OUT of the team in flight is written before the pattern is read where it lies there (log entry 94), and a
lane that itself traps REGISTER-RANGE still gives its value and the address (log entry 95). -/
def Obligations.PatternResult : Prop := ∀ h d a b, (Instr.patld h d a b).wellFormed = true → PatldResult h d a b
/-- R44, R174, R186 to R188, R197 to R200, R366 to R370: SYS, RALLY and WORK words. The model's choices: SIGNAL ranks ILLEGAL-OPERAND
before ILLEGAL-HYP (log entry 23) and tests the HYP that the lane holds, not what it resolves to (log entry 21), both DEDUCED. -/
def Obligations.SystemResults : Prop :=
  (∀ i v, sysAct i = some v → i.wellFormed = true → ActResult i v) ∧
  (∀ i v, rallyAct i = some v → i.wellFormed = true → ActResult i v) ∧
  (∀ i v, workAct i = some v → i.wellFormed = true → ActResult i v)
/-- R44: MODW. -/
def Obligations.ModwInForce : Prop :=
  ∀ rm alt fill nf, (Instr.modw rm alt fill nf).wellFormed = true → ModwResult rm alt fill nf
/-- R84, R201, R229: SHAPE and RNGS. -/
def Obligations.ShapeAndRandomResults : Prop :=
  (∀ h d a, (Instr.shape h d a).wellFormed = true → ShapeResult h d a) ∧
  (∀ h d, (Instr.rngsLo h d).wellFormed = true → RngsResult (.rngsLo h d) h d fun x => x.setWidth 32) ∧
  (∀ h d, (Instr.rngsHi h d).wellFormed = true → RngsResult (.rngsHi h d) h d fun x => (x >>> 32).setWidth 32)
/-- R182, R183, R185: the control words. -/
def Obligations.ControlResults : Prop :=
  (∀ i v, ctrlAct i = some v → i.wellFormed = true → ActResult i v) ∧
  (∀ d a, (Instr.call d a).wellFormed = true → CallResult d a)
/-- R254 to R271: loads, stores, DECK accesses, prefetches and asynchronous copies. The model's choices: ILLEGAL-OPERAND is ranked before
ILLEGAL-SPACE in LDD, STD and the copies (log entry 23, DEDUCED), and CP.OUT of no byte beyond DECK traps (log entry 95). -/
def Obligations.MemoryResults : Prop :=
  (∀ i v, memAct i = some v → i.wellFormed = true → ActResult i v) ∧
  (∀ i v, copyAct i = some v → i.wellFormed = true → ActResult i v)
/-- R272, R273, R322 to R330: accumulators, atomics, fences and acquires. The model's choices (DEDUCED): the order of the traps of
ACCRD, ACCWR and ATOMB (log entry 23), and ATOMB's test of the HYP that the lane holds (log entry 21). -/
def Obligations.AtomicResults : Prop :=
  (∀ i v, accAct i = some v → i.wellFormed = true → ActResult i v) ∧
  (∀ i v, atomAct i = some v → i.wellFormed = true → ActResult i v)
/-- R134 to R138, R282 to R291, R343 to R345: sampler, hypothesis and graphics words. -/
def Obligations.UnitResults : Prop :=
  (∀ i v, sampAct i = some v → i.wellFormed = true → ActResult i v) ∧
  (∀ i v, hypAct i = some v → i.wellFormed = true → ActResult i v) ∧
  (∀ i v, gfxAct i = some v → i.wellFormed = true → ActResult i v)
/-- R292 to R294: SMMA, which bytes its areas hold, and the value of every D[i][j] by the K rounded steps. The model's choices:
its flags are ORed in when the word executes (log entry 29), poison of other lanes is not noted (log entry 28; both DEDUCED), and what
a lane that is not present and active or that traps REGISTER-RANGE gives (log entry 95). -/
def Obligations.SmmaResults : Prop :=
  (∀ h d a f, (Instr.smma h d a f).wellFormed = true → SmmaResult h d a f) ∧ (∀ fw areaA areaB d, SmmaFacts fw areaA areaB d) ∧
  ∀ e g a, AreaFacts e g a
/-- R168, R257, R302 to R304: MX.ISSUE and MX.ZERO, with their range check and marks. The model's choice (log entry 23, DEDUCED): MX.ISSUE ranks ILLEGAL-OPERAND before
ILLEGAL-SPACE. -/
def Obligations.MatrixResults : Prop :=
  (∀ h a, (Instr.mxIssue h a).wellFormed = true → SingleResult (.mxIssue h a) h [(a, 1)]
    (fun e ln => if (e.rd ln a).toNat % 64 ≠ 0 then some 0x22 else if e.t.shape.deck < (e.rd ln a).toNat + 64 then some 0x26 else none)
    fun e ln => .mxIssue (e.rd ln a).toNat) ∧
  (∀ h t k, (Instr.mxZero h t k).wellFormed = true → SingleResult (.mxZero h t k) h []
    (fun e _ => if e.t.shape.tiles ≤ t.toNat then some 0x26 else none) fun _ _ => .mxZero t.toNat k.toNat)
/-- R168: the range check of window names. The model's choice (log entry 22, DEDUCED): REGISTER-RANGE stands before the word's other
traps, and nothing else of the lane changes. -/
def Obligations.WindowRangeTraps : Prop :=
  (∀ i o, operands i = some o → i.wellFormed = true → RangeTraps i o) ∧
  ∀ h op ty d a pe, (Instr.red h op ty d a pe).wellFormed = true → RedRange h op ty d a pe
/-- R257: a marked source is noted. -/
def Obligations.PoisonMarksNoted : Prop :=
  (∀ i o, operands i = some o → i.wellFormed = true → MarksNoted i o) ∧
  ∀ h op ty d a pe, (Instr.red h op ty d a pe).wellFormed = true → MarksNoted (.red h op ty d a pe) (h, [(a, 1)], [(d, 1)])

/-- R74, R143, R228, R258 to R260, R276 to R287, R320 to R324, R326, R337, R370: what a committed access does: stores, loads, ATOM, ATOMB,
SIGNAL, appends, LDD, STD, LDACQ, STREL, and samples whose header is cached, with what headers, levels, corners, texels, blends and
networks are. The model's choices: the bytes stand at their home when the block commits, and a load takes its value then (log entry
14, DESIGN CHOICE); an access of a thread finds its own CP.OUTs in flight written (log entry 94); an append reads CAP at its home, and a
block resolves when its results have had their cycles (log entry 100); an invalid header goes before a NaN coordinate (log entry 95). -/
def Obligations.CommittedStoreWritesBytes : Prop :=
  (∀ s pack p tm l lane ln, StoreStep s pack p tm l lane ln ∧ AccessCommits s pack p tm l lane ln ∧ LateCommits s pack p tm l lane ln ∧
    OrderCommits s pack p tm l lane ln ∧ SampleCommits s pack p tm l lane ln) ∧ SampleFacts
/-- R143 line 8, R75 to R77, R131, R135 to R138, R148, R163 to R165, R180, R187, R197, R261, R272 to R274, R320 to R322, R330, R333, R342 to
R345: what a commit leaves, for a block of no operation and for ACCUM accesses, hypotheses, barriers, fences, ACQR, mask words, the
team registers of CTXW, TAGGET, TILEF and the outputs of the draw stages. The model's choices: a thread is READY in the cycle that log
entry 79 says, an unfinished resolve takes its turn as log entry 83 says, and a block resolves when its results have had their cycles (log
entry 100). -/
def Obligations.CommitTakesBlock : Prop :=
  ∀ s pack p tm l lane ln, CommitStep s pack p tm l lane ln ∧ AccumCommits s pack p tm l lane ln ∧ HypCommits s pack p tm l lane ln ∧
    BarrierCommits s pack p tm l lane ln ∧ SyncCommits s pack p tm l lane ln ∧ HypReads s pack p tm l lane ln ∧
    TeamCommits s pack p tm l lane ln ∧ MeshCommits s pack p tm l lane ln
/-- R143 lines 3 to 6, R135, R326, R339, R349 to R353: traps, poison, translation faults, missing resources and launch faults. The
model's choices: the cycle in which the thread is READY (log entry 79), and that a launch fault takes effect as its cycle passes (log
entry 93). -/
def Obligations.TrapEntersHandler : Prop :=
  ∀ s pack p tm l lane ln, TrapStep s pack p tm l lane ln ∧ ParkStep s pack p tm l lane ln ∧ ResourceStep s pack p tm l lane ln ∧
    LaunchFaultStep s pack p tm l lane ln

/-- R86 to R90: the steps of start, with the format of R88 and the order of its checks written out. The model's choices (DEDUCED):
MODULE_RESET keeps memory (log entry 49), and a poisoned byte of an image fails FORMAT (log entry 43). -/
def Obligations.StartTransitions : Prop := ∀ s, StartSteps s
/-- R94 to R96, R360: context commands, and what a CONTEXT_DESTROY takes with it (R95); no other context changes. The model's choice (log
entry 90, DEDUCED): it ends a handover of its context where it stands. -/
def Obligations.ContextCommands : Prop := ∀ s lo, ContextSteps s lo
/-- R94, R97, R99, R111, R112: queue commands. The model's choices (DEDUCED): QUEUE_DESTROY drops packets that have been read, and
QUEUE_RESUME keeps CAUSE and ERR_INDEX (log entry 47); a skip of a packet whose reading failed moves C on and writes nothing at
CONSUMED_ADDR (log entry 90). -/
def Obligations.QueueCommands : Prop := ∀ s lo, QueueSteps s lo
/-- R91: ATTEST. The model's choice (log entry 90): an address that is no multiple of 64 is left without a clause here. -/
def Obligations.AttestWritesReport : Prop := ∀ s lo, AttestStep s lo
/-- R98, R100, R247, R248: kicks and handovers. The model's choice (log entry 62, DEDUCED): ERR and CAUSE of a register handover change
when it ends, and a success clears both. -/
def Obligations.KickAndHandover : Prop := (∀ s q v, KickSteps s q v) ∧ ∀ s id, HandoverStep s id
/-- R5, R89, R98, R126, R243, R248, R353: registers, the fields that a plain write changes, and TLB invalidations. The model's choice (log entry 82): an invalidation ends only when no DET contribution
waits for its pages. -/
def Obligations.WindowRegisters : Prop := (∀ s v, InvalidationSteps s v) ∧ (∀ s v, RegisterSteps s v) ∧ ∀ s v, FieldWrites s v
/-- R353, R354: the fault registers, RETRY and ABORT. -/
def Obligations.FaultRegisters : Prop := ∀ s ctx v, FaultSteps s ctx v
/-- R243 to R245: the bead table's commands, and a recoded block decodes to what it decoded to before. The model's choices: the bytes of
a coded block above its sectors (log entry 44), and BAD-ARG before SLOT-IN-USE (log entry 99). -/
def Obligations.BeadCommands : Prop := ∀ s v, BeadSteps s v
/-- R102 to R108, R247, R378: packets start. The model's choices (DEDUCED): a refuting HYPRES of an ID that is not OPEN is complete at
once (log entry 64), and a HANDOVER packet with BYTES 0 starts (log entry 61). -/
def Obligations.PacketsStart : Prop := ∀ s p x tail, PacketStarts s p x tail
/-- R105: a SIGNAL packet. -/
def Obligations.SignalPacketWrites : Prop := ∀ s p x tail, SignalStarts s p x tail
/-- R105, R108, R110, R250, R373: packets end. The model's choice (log entry 96, DEDUCED): a packet's successors are read one in a step. -/
def Obligations.PacketsEnd : Prop := ∀ s p x, PacketEnds s p x
/-- R93, R100, R113: the packet cores read and queues are mapped. The model's choices: CONSUMED is written as eight bytes (log entry 60,
DESIGN CHOICE); the order of mapping within one bound (log entry 63), what yields where not all bounds can be kept, and which queues a
round unmaps: those that it is told to, and as many more as those that wait need (log entry 86). -/
def Obligations.QueueScan : Prop := ∀ s q, ScanSteps s q
/-- R117 to R122, R130, R280, R375, R377, R381: admission, pixel teams, output merge and the end of a frame. The model's choices: a DRAW
counts as admitted from its first team on (log entry 87); the depth buffer is used only with a test on (log entry 53); OUT_BYTES are the
bytes written, and OVERFLOW goes before POISON (log entry 58). -/
def Obligations.PlacementAndDraws : Prop :=
  (∀ s l, AdmissionStep s l) ∧ (∀ s launch l d, DrawSteps s launch l d) ∧ ∀ s engine stream, FrameEndStep s engine stream
/-- R52, R111, R149, R150, R153 to R155, R160, R161: packs form, of the bin and the lanes that the rules give, and bins are marked. The
model's choices: shares of issue cycles (log entry 78), the order within a cycle (log entry 79), and that a pixel bin none of whose quads
may enter a pack is passed over (log entry 98); a context that the power arbiter holds back fills a share of a pipe (log entry 68). -/
def Obligations.SequencerForms : Prop :=
  (∀ s mast pipe, FormStep s mast pipe) ∧ ∀ s team block tm k b, ExpirySteps s team block tm k b
/-- R156, R157, R159, R180: fetch and issue. The model's choices: an instruction line is the root view's bytes (log entry 37, DEDUCED),
and which line leaves a full instruction cache (log entry 85). -/
def Obligations.FetchAndIssue : Prop :=
  (∀ s team block tm, FetchStep s team block tm) ∧ (∀ s mast pipe, IssueStep s mast pipe) ∧ ∀ s m k a b tm, LossStep s m k a b tm
/-- R140, R200, R257, R261 to R266, R289, R290, R295 to R297, R304, R306, R307, R309: results land, pauses end, copies and MX operations
take effect, SMMAs take the array and sampler lines come. The model's choices: results land in any order (log entry 75), the bytes of a
copy move in any order up to its end (log entry 18), an MX operation reads its operands when it completes (log entry 97), and the
replacement of weight lines (log entry 85). -/
def Obligations.UnitsFinish : Prop :=
  (∀ s team tid tm, LandSteps s team tid tm) ∧ (∀ s, UnitSteps s) ∧ (∀ s id a tm, CopyWrites s id a tm) ∧
  ∀ s mast id o, MxCompletes s mast id o
/-- R235, R240, R288, R324, R327 to R333, R340, R342: contributions merge, acquires and resolves complete, lines of a freed ID are
scrubbed and L2 lines leave. The model's choices: the order of contributions (log entry 19), L2 (log entry 80), resolves in their order
of commit (log entry 83), and that a HINV reaches all other masts as it completes (log entry 101). -/
def Obligations.OperationsFinish : Prop := (∀ s, OperationSteps s) ∧ ∀ s, MemorySteps s
/-- R252, R253: the host's window and peers. The model's choice (log entry 6): how a peer's accesses arrive, and that PEER_TIMEOUT
marks the link down. -/
def Obligations.OutsideAccess : Prop := ∀ s addr data, OutsideSteps s addr data
/-- R114, R128, R364, R365, R371 to R373: the end of work, power and errors. The model's choices (DESIGN CHOICE): an uncorrectable
error poisons 32 bytes (log entry 67), the clock returns to 1,000 MHz in one step (log entry 68), contributions merge in the order of log
entry 19, and a packet's successors are read one in a step (log entry 96, DEDUCED). -/
def Obligations.EndAndSupply : Prop :=
  (∀ s team tm, RetireStep s team tm) ∧ (∀ s launch l p, FinishStep s launch l p) ∧ (∀ s launch l, WatchdogStep s launch l) ∧ ∀ s, SupplySteps s
/-- R55, R355 to R363: interruption, with the record that a save writes. The model's choices: which state a restore reads back (log
entry 20, unsafe), the shape under which a register is stored (log entry 89), and room, placement and moment of a restore (log entries 65,
66). -/
def Obligations.InterruptionSteps : Prop := ∀ s team tm, InterruptSteps s team tm

/-- R86: every step that answers a next state leaves START_STATUS and FAIL as they were, or moves them by a transition of the table. -/
def Obligations.StartMovesByTable : Prop := ∀ s t, step s = .next t → StartMove s.start.st s.start.fail t.start.st t.start.fail
end

