-- ==== Sys2Proof/Laws/Cells.lean ====
section
/-! SUPPORT. Memory cells and keyed lists: reading after writing, and the canonical form that every write keeps. -/

namespace Sys2Proof.Machine

/-! ### Cells -/

theorem risingFrom_mono {k j : Nat} (h : k ≤ j) {m : List Host.Cell} (w : risingFrom j m = true) : risingFrom k m = true := by
  cases m with
  | nil => rfl
  | cons c r => simp only [risingFrom, Bool.and_eq_true, decide_eq_true_eq] at w ⊢; exact ⟨by omega, w.2⟩

/-- Nothing is listed below the first address. -/
theorem memGet_below {k a : Nat} (h : a < k) : ∀ {m : List Host.Cell}, risingFrom k m = true → memGet m a = unlisted
  | [], _ => rfl
  | (j, b) :: r, w => by
    simp only [risingFrom, Bool.and_eq_true, decide_eq_true_eq] at w
    rw [memGet, if_neg (by omega)]
    exact memGet_below (k := j + 1) (by omega) w.2

/-- A write leaves every other address alone. -/
theorem memGet_memPut_other {a x : Nat} (h : x ≠ a) (b : Byte) : ∀ m : List Host.Cell, memGet (memPut a b m) x = memGet m x
  | [] => by unfold memPut; split <;> simp [memGet, Ne.symm h]
  | (j, c) :: r => by
    unfold memPut
    split
    · split <;> simp [memGet, Ne.symm h]
    · split
      · subst_vars; split <;> simp [memGet, Ne.symm h]
      · simp [memGet, memGet_memPut_other h b r]

/-- A read after a write to the same address gives the value written. -/
theorem memGet_memPut_same {k a : Nat} (b : Byte) (_h : k ≤ a) :
    ∀ {m : List Host.Cell}, risingFrom k m = true → memGet (memPut a b m) a = b
  | [], _ => by unfold memPut; split <;> simp_all [memGet]
  | (j, c) :: r, w => by
    simp only [risingFrom, Bool.and_eq_true, decide_eq_true_eq] at w
    unfold memPut
    split
    · rename_i hl
      split
      · rename_i hb
        rw [hb, memGet, if_neg (by omega)]
        exact memGet_below (k := j + 1) (by omega) w.2
      · simp [memGet]
    · split
      · rename_i he
        split
        · rename_i hb
          rw [hb]
          exact memGet_below (k := j + 1) (by omega) w.2
        · simp [memGet]
      · rw [memGet, if_neg (by omega)]
        exact memGet_memPut_same b (k := j + 1) (by omega) w.2

theorem risingFrom_memPut {k a : Nat} (b : Byte) (h : k ≤ a) :
    ∀ {m : List Host.Cell}, risingFrom k m = true → risingFrom k (memPut a b m) = true
  | [], _ => by unfold memPut; split <;> simp [risingFrom, h]
  | (j, c) :: r, w => by
    simp only [risingFrom, Bool.and_eq_true, decide_eq_true_eq] at w
    unfold memPut
    split
    · split
      · simp [risingFrom, w]
      · simp only [risingFrom, Bool.and_eq_true, decide_eq_true_eq]; exact ⟨h, by omega, w.2⟩
    · split
      · split
        · exact risingFrom_mono (by omega) w.2
        · simp only [risingFrom, Bool.and_eq_true, decide_eq_true_eq]
          exact ⟨h, risingFrom_mono (by omega) w.2⟩
      · simp only [risingFrom, Bool.and_eq_true, decide_eq_true_eq]
        exact ⟨w.1, risingFrom_memPut b (by omega) w.2⟩

theorem listed_memPut (a : Nat) (b : Byte) :
    ∀ {m : List Host.Cell}, (m.all fun c => c.2 != unlisted) = true → ((memPut a b m).all fun c => c.2 != unlisted) = true
  | [], _ => by
    unfold memPut
    split
    · rfl
    · rename_i hb
      simp only [List.all_cons, List.all_nil, Bool.and_true, bne_iff_ne]; exact hb
  | (j, c) :: r, w => by
    rw [List.all_cons, Bool.and_eq_true] at w
    unfold memPut
    split
    · split
      · rw [List.all_cons, w.1, w.2]; rfl
      · rename_i hb
        rw [List.all_cons, List.all_cons, w.1, w.2]
        simp only [Bool.and_true, bne_iff_ne]; exact hb
    · split
      · split
        · exact w.2
        · rename_i hb
          rw [List.all_cons, w.2]
          simp only [Bool.and_true, bne_iff_ne]; exact hb
      · rw [List.all_cons, listed_memPut a b w.2, w.1]; rfl

/-- A write keeps the canonical form. -/
theorem memPut_wf (a : Nat) (b : Byte) {m : List Host.Cell} (w : Memory.wf m = true) : Memory.wf (memPut a b m) = true := by
  simp only [Memory.wf, Bool.and_eq_true] at w ⊢
  exact ⟨risingFrom_memPut b (Nat.zero_le a) w.1, listed_memPut a b w.2⟩

/-- In canonical form a read after a write to the same address gives the value written. -/
theorem memGet_memPut {a : Nat} (b : Byte) {m : List Host.Cell} (w : Memory.wf m = true) : memGet (memPut a b m) a = b := by
  simp only [Memory.wf, Bool.and_eq_true] at w
  exact memGet_memPut_same b (Nat.zero_le a) w.1

/-! ### Keyed lists -/

/-- A write at one key leaves every other key alone. -/
theorem alGet_alPut_other {α : Type} {k x : Nat} (h : x ≠ k) (v : α) : ∀ l : List (Nat × α), alGet x (alPut k v l) = alGet x l
  | [] => by simp [alPut, alGet, Ne.symm h]
  | (j, y) :: r => by
    unfold alPut
    split
    · simp [alGet, Ne.symm h]
    · split
      · subst_vars; simp [alGet, Ne.symm h]
      · simp [alGet, alGet_alPut_other h v r]

/-- A read after a write at the same key gives the value written. -/
theorem alGet_alPut {α : Type} (k : Nat) (v : α) : ∀ l : List (Nat × α), alGet k (alPut k v l) = some v
  | [] => by simp [alPut, alGet]
  | (j, y) :: r => by
    unfold alPut
    split
    · simp [alGet]
    · split
      · simp [alGet]
      · rename_i h1 h2
        have : j ≠ k := fun e => h2 e.symm
        simp [alGet, this, alGet_alPut k v r]

theorem alGetD_alPut {α : Type} (k : Nat) (v d : α) (l : List (Nat × α)) : alGetD (alPut k v l) k d = v := by
  simp [alGetD, alGet_alPut]

theorem alGetD_alPut_other {α : Type} {k x : Nat} (h : x ≠ k) (v d : α) (l : List (Nat × α)) :
    alGetD (alPut k v l) x d = alGetD l x d := by
  simp [alGetD, alGet_alPut_other h]

/-- What is put by a test is found by it. -/
theorem find_putBy {α : Type} (same : α → Bool) (x : α) (hx : same x = true) :
    ∀ l : List α, (putBy same x l).find? same = some x
  | [] => by simp [putBy, hx]
  | y :: r => by
    unfold putBy
    split
    · simp [hx]
    · rename_i h
      simp only [Bool.not_eq_true] at h
      simp [h, find_putBy same x hx r]

/-- A mark that is set stands in the list. -/
theorem mem_nsInsert {k x : Nat} : ∀ {l : List Nat}, x ∈ nsInsert k l ↔ x = k ∨ x ∈ l
  | [] => by simp [nsInsert]
  | j :: r => by
    unfold nsInsert
    split
    · simp
    · split
      · subst_vars; simp
      · have := mem_nsInsert (k := k) (x := x) (l := r)
        simp only [List.mem_cons, this]; tauto

end Sys2Proof.Machine
end

