-- ==== Sys2Proof/Laws/Lanes.lean ====
section
/-! SUPPORT. What the shared operations of instruction words do: the issued pack, the range check and the marks of the operands,
registers and predicates after a write. -/

namespace Sys2Proof.Machine

/-! ### The issued pack -/

/-- A word acts on the issued pack and puts it back in flight after it. -/
theorem onIssue_next {s : State} {p : Pack} {t : Team} (hi : s.issue = some p) (ht : s.team? p.team = some t) (stop : Bool)
    (f : State → Team → Pack → State × Pack) :
    onIssue s stop f = .next ((f s t p).1.toFlight ((f s t p).2.advance stop)) := by
  simp [onIssue, hi, ht]

/-- A word whose effect on each lane depends on that lane alone changes the lanes and nothing else of the device. -/
theorem lanewise_next {s : State} {p : Pack} {t : Team} (hi : s.issue = some p) (ht : s.team? p.team = some t) (h : Hdr)
    (src dst : Names) (f : Env → Lane → Lane) :
    lanewise h src dst f s =
      .next (s.toFlight ((p.mapLanes fun _ ln => Env.onLane ⟨s, t, p⟩ h.guard src dst (f ⟨s, t, p⟩) ln).advance h.stop)) :=
  onIssue_next hi ht _ _

@[simp] theorem Pack.advance_lanes (p : Pack) (stop : Bool) : (p.advance stop).lanes = p.lanes := rfl
@[simp] theorem Pack.advance_id (p : Pack) (stop : Bool) : (p.advance stop).id = p.id := rfl
@[simp] theorem Pack.mapLanes_id (p : Pack) (f : Nat → Lane → Lane) : (p.mapLanes f).id = p.id := rfl
@[simp] theorem Pack.mapLanes_lanes (p : Pack) (f : Nat → Lane → Lane) :
    (p.mapLanes f).lanes = p.lanes.map fun c => (c.1, f c.1 c.2) := rfl
@[simp] theorem State.toFlight_issue (s : State) (p : Pack) : (s.toFlight p).issue = none := rfl
@[simp] theorem State.toFlight_mem (s : State) (p : Pack) : (s.toFlight p).mem = s.mem := rfl
@[simp] theorem State.toFlight_teams (s : State) (p : Pack) : (s.toFlight p).teams = s.teams := rfl
@[simp] theorem State.toFlight_flight (s : State) (p : Pack) :
    (s.toFlight p).flight = putBy (fun x => x.id == p.id) (p.collect ((s.team? p.team).getD default)) s.flight := rfl
/-- A collector set to the next word changes nothing else of its pack. -/
theorem Pack.collect_frame (p : Pack) (t : Team) : p.collect t = { p with reads := (p.collect t).reads } := rfl
@[simp] theorem Pack.collect_id (p : Pack) (t : Team) : (p.collect t).id = p.id := rfl
@[simp] theorem Pack.collect_lanes (p : Pack) (t : Team) : (p.collect t).lanes = p.lanes := rfl

/-! ### Operands -/

/-- R168: the range check fails exactly when some window name maps at or above VREGS. -/
theorem rangeBad_iff (vregs wb : Nat) (ns : Names) :
    rangeBad vregs wb ns = true ↔ ∃ c ∈ ns, c.1.toNat < 96 ∧ vregs < wb + c.1.toNat + c.2 := by
  simp [rangeBad]

/-- R257: a source bears a mark exactly when one of its registers is marked. -/
theorem srcPoison_iff (ln : Lane) (ns : Names) :
    ln.srcPoison ns = true ↔
      ∃ c ∈ ns, c.1.toNat < 96 ∧ ∃ r ∈ ln.poison, ln.wb + c.1.toNat ≤ r ∧ r < ln.wb + c.1.toNat + c.2 := by
  simp [Lane.srcPoison]

/-- R168: an operand out of range traps, whatever the guard. -/
theorem onLane_range {e : Env} {g : BitVec 2} {src dst : Names} {f : Lane → Lane} {ln : Lane}
    (h : rangeBad e.t.shape.vregs ln.wb (src ++ dst) = true) : e.onLane g src dst f ln = ln.raise e.p.pc cRANGE := by
  simp [Env.onLane, h]

/-- R41: a false guard leaves the lane alone. -/
theorem onLane_skip {e : Env} {g : BitVec 2} {src dst : Names} {f : Lane → Lane} {ln : Lane}
    (h : rangeBad e.t.shape.vregs ln.wb (src ++ dst) = false) (hg : ln.pred g.toNat = false) : e.onLane g src dst f ln = ln := by
  simp [Env.onLane, h, hg]

/-- A true guard and unmarked sources: the word's effect. -/
theorem onLane_run {e : Env} {g : BitVec 2} {src dst : Names} {f : Lane → Lane} {ln : Lane}
    (h : rangeBad e.t.shape.vregs ln.wb (src ++ dst) = false) (hg : ln.pred g.toNat = true) (hp : ln.srcPoison src = false) :
    e.onLane g src dst f ln = f ln := by
  simp [Env.onLane, h, hg, hp]

/-! ### Registers after a write -/

/-- A register reads what was written to it. -/
theorem rd_wr_same (e : Env) (ln : Lane) {d : Reg} (x : Word) (h : d.toNat < 112) : e.rd (ln.wr d x) d = x := by
  unfold Env.rd Lane.wr
  by_cases h1 : d.toNat < 96
  · simp [h1, alGetD_alPut]
  · simp [h1, h, alGetD_alPut]

/-- Every other register reads as before. -/
theorem rd_wr_other (e : Env) (ln : Lane) {d r : Reg} (x : Word) (h : r ≠ d) : e.rd (ln.wr d x) r = e.rd ln r := by
  have hn : r.toNat ≠ d.toNat := fun k => h (BitVec.eq_of_toNat_eq k)
  unfold Env.rd Lane.wr
  by_cases h1 : d.toNat < 96
  · by_cases h2 : r.toNat < 96
    · simp only [h1, h2, if_true]
      exact alGetD_alPut_other (by omega) _ _ _
    · simp [h1, h2]
  · by_cases h3 : d.toNat < 112
    · by_cases h2 : r.toNat < 96
      · simp [h1, h2, h3]
      · by_cases h4 : r.toNat < 112
        · simp only [h1, h2, h3, h4, if_true, if_false]
          exact alGetD_alPut_other (by omega) _ _ _
        · simp [h1, h2, h3, h4]
    · simp [h1, h3]

/-- A write clears the mark of its v-register and no other mark. -/
theorem wr_poison (ln : Lane) (d : Reg) (x : Word) (r : Nat) :
    r ∈ (ln.wr d x).poison ↔ r ∈ ln.poison ∧ ¬(d.toNat < 96 ∧ r = ln.wb + d.toNat) := by
  unfold Lane.wr
  by_cases h1 : d.toNat < 96
  · simp [h1, List.mem_filter]
  · by_cases h3 : d.toNat < 112 <;> simp [h1, h3]

/-- A write changes registers and marks and nothing else of the lane. -/
theorem wr_frame (ln : Lane) (d : Reg) (x : Word) :
    { ln.wr d x with v := ln.v, written := ln.written, poison := ln.poison, e := ln.e } = ln := by
  unfold Lane.wr
  split
  · rfl
  · split <;> rfl

/-- R39: a write to DISCARD drops the result. -/
theorem wr_discard (ln : Lane) {d : Reg} (x : Word) (h : 112 ≤ d.toNat) : ln.wr d x = ln := by
  unfold Lane.wr
  rw [if_neg (by omega), if_neg (by omega)]

@[simp] theorem wr_wb (ln : Lane) (d : Reg) (x : Word) : (ln.wr d x).wb = ln.wb := by
  unfold Lane.wr; split <;> [rfl; (split <;> rfl)]
@[simp] theorem wr_preds (ln : Lane) (d : Reg) (x : Word) : (ln.wr d x).preds = ln.preds := by
  unfold Lane.wr; split <;> [rfl; (split <;> rfl)]
@[simp] theorem wr_ops (ln : Lane) (d : Reg) (x : Word) : (ln.wr d x).ops = ln.ops := by
  unfold Lane.wr; split <;> [rfl; (split <;> rfl)]
@[simp] theorem wr_flags (ln : Lane) (d : Reg) (x : Word) : (ln.wr d x).flags = ln.flags := by
  unfold Lane.wr; split <;> [rfl; (split <;> rfl)]
@[simp] theorem wr_tid (ln : Lane) (d : Reg) (x : Word) : (ln.wr d x).tid = ln.tid := by
  unfold Lane.wr; split <;> [rfl; (split <;> rfl)]

/-! ### Predicates after a write -/

/-- A predicate reads what was written to it, unless it is p0. -/
theorem setPred_same (ps : BitVec 8) {p : Nat} (b : Bool) (h0 : p ≠ 0) (h : p < 8) :
    (setPred ps p b).getLsbD p = b := by
  cases b <;> simp [setPred, h0, h]

/-- Every other predicate reads as before. -/
theorem setPred_other (ps : BitVec 8) {p q : Nat} (b : Bool) (h : q ≠ p) (hq : q < 8) :
    (setPred ps p b).getLsbD q = ps.getLsbD q := by
  unfold setPred
  split
  · rfl
  · cases b <;> simp [hq, h]

/-- R54: a write to p0 is ignored. -/
theorem setPred_zero (ps : BitVec 8) (b : Bool) : setPred ps 0 b = ps := by simp [setPred]

end Sys2Proof.Machine
end

