-- ==== Sys2Proof/Laws/Memory.lean ====
section
/-! SUPPORT. Every memory operation keeps the canonical form, and what a root write of one byte does to what memory reads as. -/

namespace Sys2Proof.Machine

/-- A fold of steps that each keep the canonical form keeps it. -/
theorem foldl_wf {α : Type} (f : State → α → State) (h : ∀ s x, Memory.wf s.mem = true → Memory.wf (f s x).mem = true) :
    ∀ (l : List α) (s : State), Memory.wf s.mem = true → Memory.wf (l.foldl f s).mem = true
  | [], _, w => w
  | x :: r, s, w => foldl_wf f h r (f s x) (h s x w)

theorem homeWrite_wf (s : State) (pa : Nat) (b : Byte) (bad : Bool) (w : Memory.wf s.mem = true) :
    Memory.wf (s.homeWrite pa b bad).mem = true := by
  unfold State.homeWrite
  by_cases h1 : isHbm pa = true
  · simp only [h1, if_true]; exact memPut_wf _ _ w
  · by_cases h2 : isHost pa = true
    · simp only [h1, h2, if_true]; exact w
    · simp only [h1, h2]; exact w

@[simp] theorem hostFill_mem (s : State) (pa : Nat) : (s.hostFill pa).mem = s.mem := by
  unfold State.hostFill; split <;> rfl

theorem hostWriteBack_wf (s : State) (lo n : Nat) (w : Memory.wf s.mem = true) : Memory.wf (s.hostWriteBack lo n).mem = true := by
  unfold State.hostWriteBack
  simp only
  suffices h : ∀ (l : List HostByte) (m : List Host.Cell), Memory.wf m = true → Memory.wf (l.foldl (fun m h =>
      if h.dirty && (decide (lo ≤ h.addr) && decide (h.addr < lo + n)) then memPut h.addr h.val m else m) m) = true from h _ _ w
  intro l
  induction l with
  | nil => exact fun _ w => w
  | cons x r ih =>
    intro m wm
    rw [List.foldl_cons]
    apply ih
    split
    · exact memPut_wf _ _ wm
    · exact wm

@[simp] theorem hostDrop_mem (s : State) (lo n : Nat) : (s.hostDrop lo n).mem = s.mem := rfl

theorem openBlock_wf (s : State) (pa : Nat) (w : Memory.wf s.mem = true) : Memory.wf (s.openBlock pa).mem = true := by
  unfold State.openBlock
  generalize List.range 256 = l
  simp only
  split
  · exact foldl_wf (fun (a : State) i => a.homeWrite (pa / 256 * 256 + i) ((s.decodedBlock pa).1.getD i (0, true)).1
      ((s.decodedBlock pa).1.getD i (0, true)).2) (fun _ _ wa => homeWrite_wf _ _ _ _ wa) l s w
  · exact w

theorem leafWrite_wf (s : State) (pa : Nat) (comp : Bool) (b : Byte) (bad : Bool) (w : Memory.wf s.mem = true) :
    Memory.wf (s.leafWrite pa comp b bad).mem = true := by
  unfold State.leafWrite
  apply homeWrite_wf
  split
  · exact openBlock_wf _ _ w
  · exact w

@[simp] theorem l2Touch_mem (s : State) (ctx pa : Nat) : (s.l2Touch ctx pa).mem = s.mem := rfl
@[simp] theorem l2Read_mem (s : State) (ctx pa : Nat) : (s.l2Read ctx pa).mem = s.mem := by
  unfold State.l2Read; rw [hostFill_mem]; split <;> rfl
@[simp] theorem peerWrite_mem (s : State) (port pa : Nat) (b : Byte) (bad : Bool) : (s.peerWrite port pa b bad).mem = s.mem := by
  unfold State.peerWrite; simp only; split <;> rfl
@[simp] theorem onMast_mem (s : State) (m : Option Nat) (f : Mast → Mast) : (s.onMast m f).mem = s.mem := by
  cases m <;> rfl
@[simp] theorem logWrite_mem (s : State) (pa : Nat) (m : Option Nat) : (s.logWrite pa m).mem = s.mem := rfl

theorem writeByte_wf (s : State) (x : Writer) (l : Loc) (b : Byte) (bad : Bool) (w : Memory.wf s.mem = true) :
    Memory.wf (s.writeByte x l b bad).mem = true := by
  unfold State.writeByte
  split
  · simpa using w
  · simp only
    split
    · exact w
    · split
      · split
        · exact w
        · simp only [logWrite_mem, l2Touch_mem, onMast_mem]; exact leafWrite_wf _ _ _ _ _ w
      · simpa [State.setCtx] using w

theorem writeBytes_wf (x : Writer) : ∀ (bs : List (Byte × Bool)) (s : State) (l : Loc), Memory.wf s.mem = true →
    Memory.wf (s.writeBytes x l bs).mem = true
  | [], _, _, w => w
  | (b, p) :: r, s, l, w => writeBytes_wf x r _ _ (writeByte_wf s x l b p w)

theorem writeSegs_wf (x : Writer) : ∀ (ls : List (Loc × Nat)) (bs : List (Byte × Bool)) (s : State), Memory.wf s.mem = true →
    Memory.wf (s.writeSegs x ls bs).mem = true
  | [], _, _, w => w
  | (l, _) :: r, _, s, w => writeSegs_wf x r _ _ (writeBytes_wf x _ s l w)

theorem writePhys_wf (s : State) (pa : Nat) (bs : List Byte) (w : Memory.wf s.mem = true) : Memory.wf (s.writePhys pa bs).mem = true :=
  writeBytes_wf _ _ _ _ w

theorem writeRoot_wf (s t : State) (c : Ctx) (va : Nat) (bs : List Byte) (w : Memory.wf s.mem = true)
    (h : s.writeRoot c va bs = some t) : Memory.wf t.mem = true := by
  unfold State.writeRoot at h
  split at h
  · cases h
  · cases h; exact writeSegs_wf _ _ _ _ w

/-! ### Reads bring lines in and change no memory -/

@[simp] theorem l1Fill_mem (s : State) (m : Nat) (c : Ctx) (h : Nat) (l : Loc) : (s.l1Fill m c h l).mem = s.mem := by
  unfold State.l1Fill; simp only; split <;> simp [State.setMast]
@[simp] theorem l1Byte_mem (s : State) (m : Nat) (c : Ctx) (h : Nat) (l : Loc) : (s.l1Byte m c h l).1.mem = s.mem := by
  unfold State.l1Byte
  split
  · rfl
  · simp only; split <;> simp
@[simp] theorem l1Bytes_mem (m : Nat) (c : Ctx) (h : Nat) : ∀ (n : Nat) (s : State) (l : Loc), (s.l1Bytes m c h l n).1.mem = s.mem
  | 0, _, _ => rfl
  | n + 1, s, l => by simp only [State.l1Bytes]; rw [l1Bytes_mem m c h n]; simp
@[simp] theorem l1Segs_mem (m : Nat) (c : Ctx) (h : Nat) : ∀ (ls : List (Loc × Nat)) (s : State), (s.l1Segs m c h ls).1.mem = s.mem
  | [], _ => rfl
  | (l, n) :: r, s => by simp only [State.l1Segs]; rw [l1Segs_mem m c h r]; simp
@[simp] theorem homeViewByte_mem (s : State) (c : Ctx) (h : Nat) (l : Loc) : (s.homeViewByte c h l).1.mem = s.mem := by
  unfold State.homeViewByte; split <;> simp
@[simp] theorem homeBytes_mem (c : Ctx) (h : Nat) : ∀ (n : Nat) (s : State) (l : Loc), (s.homeBytes c h l n).1.mem = s.mem
  | 0, _, _ => rfl
  | n + 1, s, l => by simp only [State.homeBytes]; rw [homeBytes_mem c h n]; simp
@[simp] theorem homeSegs_mem (c : Ctx) (h : Nat) : ∀ (ls : List (Loc × Nat)) (s : State), (s.homeSegs c h ls).1.mem = s.mem
  | [], _ => rfl
  | (l, n) :: r, s => by simp only [State.homeSegs]; rw [homeSegs_mem c h r]; simp
@[simp] theorem readRoot_mem (s : State) (c : Ctx) (va n : Nat) : (s.readRoot c va n).1.mem = s.mem := by
  unfold State.readRoot; split <;> simp

/-! ### Read-modify-writes, stored forms, the host -/

theorem hostDirect_wf (x : Writer) : ∀ (bs : List (Byte × Bool)) (s : State) (pa : Nat), Memory.wf s.mem = true →
    Memory.wf (s.hostDirect x pa bs).mem = true
  | [], _, _, w => w
  | (_, _) :: r, _, _, w => hostDirect_wf x r _ _ (memPut_wf _ _ w)

theorem rmw_wf (s : State) (c : Ctx) (x : Writer) (l : Loc) (n scope : Nat) (exch : Bool) (f : Nat → Option Nat)
    (w : Memory.wf s.mem = true) : Memory.wf (s.rmw c x l n scope exch f).1.mem = true := by
  have w1 : Memory.wf (s.hostPurge l.pa).mem = true := by
    unfold State.hostPurge; rw [hostDrop_mem]; exact hostWriteBack_wf _ _ _ w
  have w2 : Memory.wf (if (scope == 3 && l.port.isNone && isHost l.pa) = true then s.hostPurge l.pa
      else if l.port.isNone = true then s.l2Read x.ctx l.pa else s).mem = true := by
    split
    · exact w1
    · split
      · simpa using w
      · exact w
  unfold State.rmw
  simp only [onMast_mem]
  generalize hg : (if (scope == 3 && l.port.isNone && isHost l.pa) = true then s.hostPurge l.pa
      else if l.port.isNone = true then s.l2Read x.ctx l.pa else s) = s1 at w2 ⊢
  split
  · exact w2
  · split
    · exact hostDirect_wf _ _ _ _ w2
    · exact writeBytes_wf _ _ _ _ w2

theorem putStored_wf (s : State) (blk nsec : Nat) (bs : List Byte) (w : Memory.wf s.mem = true) :
    Memory.wf (s.putStored blk nsec bs).mem = true := by
  unfold State.putStored
  generalize List.range (32 * nsec) = l
  exact foldl_wf (fun (a : State) i => { a with mem := memPut (256 * blk + i) (bs.getD i 0) a.mem })
    (fun _ _ wa => memPut_wf _ _ wa) l s w

theorem encodeAt_wf (s : State) (blk : Nat) (bs : List (Byte × Bool)) (w : Memory.wf s.mem = true) :
    Memory.wf (s.encodeAt blk bs).mem = true := by
  unfold State.encodeAt
  split
  · exact w
  · exact putStored_wf _ _ _ _ w

theorem recodeBlock_wf (s : State) (slot blk : Nat) (w : Memory.wf s.mem = true) :
    Memory.wf (s.recodeBlock slot blk).mem = true := by
  unfold State.recodeBlock
  simp only
  split
  · exact w
  · exact encodeAt_wf _ _ _ w

theorem windowWrite_wf (ok : Nat → Bool) : ∀ (bs : List Byte) (s : State) (pa : Nat), Memory.wf s.mem = true →
    Memory.wf (s.windowWrite ok pa bs).mem = true
  | [], _, _, w => w
  | b :: r, s, pa, w => by
    unfold State.windowWrite
    apply windowWrite_wf ok r
    split
    · exact writeByte_wf _ _ _ _ _ w
    · exact w

theorem hostStore_wf : ∀ (bs : List Byte) (s : State) (pa : Nat), Memory.wf s.mem = true →
    Memory.wf (s.hostStore pa bs).mem = true
  | [], _, _, w => w
  | b :: r, s, pa, w => by
    unfold State.hostStore
    apply hostStore_wf r
    split
    · exact memPut_wf _ _ w
    · exact w

/-! ### What a home write does to what memory reads as -/

/-- A write at the home leaves every other byte alone. -/
theorem homeByte_homeWrite_other (s : State) {pa a : Nat} (h : a ≠ pa) (b : Byte) (bad : Bool) :
    (s.homeWrite pa b bad).homeByte a = s.homeByte a := by
  have hm : ∀ m : List Host.Cell, memGet (memPut pa b m) a = memGet m a := memGet_memPut_other h b
  have hp : (if bad then nsInsert pa s.poison else s.poison.filter (· != pa)).contains a = s.poison.contains a := by
    rw [Bool.eq_iff_iff]
    cases bad <;> simp [mem_nsInsert, h]
  have hc : ∀ l : List HostByte, (putBy (·.addr == pa) ⟨pa, b, true, bad⟩ l).find? (·.addr == a) = l.find? (·.addr == a) := by
    intro l
    induction l with
    | nil => simp [putBy, Ne.symm h]
    | cons y r ih =>
      unfold putBy
      split
      · rename_i hy
        have : (y.addr == a) = false := by simp at hy ⊢; omega
        simp [this, Ne.symm h]
      · simp only [List.find?_cons, ih]
  unfold State.homeWrite
  by_cases h1 : isHbm pa = true
  · simp only [h1, if_true, State.homeByte, hm, hp]
  · by_cases h2 : isHost pa = true
    · simp only [if_neg h1, if_pos h2, State.homeByte, hc]
    · simp only [if_neg h1, if_neg h2]

/-- A write at the home of an address that exists reads back. -/
theorem homeByte_homeWrite_same (s : State) {pa : Nat} (b : Byte) (bad : Bool) (w : Memory.wf s.mem = true)
    (h : isReserved pa = false) : (s.homeWrite pa b bad).homeByte pa = (b, bad) := by
  have hp : (if bad then nsInsert pa s.poison else s.poison.filter (· != pa)).contains pa = bad := by
    rw [Bool.eq_iff_iff]
    cases bad <;> simp [mem_nsInsert]
  simp only [isReserved, Bool.and_eq_false_iff, Bool.not_eq_false'] at h
  unfold State.homeWrite
  by_cases h1 : isHbm pa = true
  · simp only [h1, if_true, State.homeByte, hp, memGet_memPut b w]
  · have h2 : isHost pa = true := by tauto
    simp only [if_neg h1, if_pos h2, State.homeByte]
    rw [find_putBy _ _ (by simp)]
    simp

/-! ### Translation with nothing cached -/

/-- With no cached leaf an address is walked, for a mast or for an engine. -/
theorem xlate_cold (s : State) (c : Ctx) (va : Nat) (a : Acc) (h : s.tlb = []) {m : Option Nat}
    (hm : ∀ k, m = some k → (s.mast k).tlb = [] := by nofun) :
    s.xlate c va a m = if 2 ^ 52 ≤ va then .error xAddress else match s.walk a va 3 c.ptRoot with
      | .error x => .error x
      | .ok (e, lvl, table) => .ok ((s.tlbEntryOf c.num va e lvl table).loc va) := by
  have hc : s.cachedLeaf c va m = none := by
    unfold State.cachedLeaf
    cases m with
    | none => simp [h]
    | some k => simp [h, hm k rfl]
  unfold State.xlate State.xleaf
  simp only [hc, ite_self]
  split
  · rfl
  · cases hw : s.walk a va 3 c.ptRoot <;> simp [Except.map]

/-- A range within one page lies where its first byte does. -/
theorem xrange_page (s : State) (c : Ctx) (a : Acc) {va n : Nat} (h0 : 0 < n) (hn : n ≤ 4096 - va % 4096) {m : Option Nat} :
    s.xrange c va n a m = match s.xlate c va a m with
      | .error x => .error (x, va)
      | .ok l => .ok [(l, n)] := by
  unfold State.xrange
  obtain ⟨k, hk⟩ : ∃ k, n / 4096 + 2 = k + 2 := ⟨n / 4096, rfl⟩
  rw [hk, State.xrangeFrom]
  have e : min n (4096 - va % 4096) = n := by omega
  simp only [e, Nat.sub_self, State.xrangeFrom, if_true]
  exact (if_neg (by omega)).trans (by cases s.xlate c va a m <;> rfl)

end Sys2Proof.Machine
end

