-- ==== Sys2Proof/Laws/Words.lean ====
section
/-! SUPPORT. The fields of a word put together and taken apart: what `wT`, `wI`, `wL` and `wB` are as numbers, and that each field
reads back as what was put there. -/

namespace Sys2Proof

/-- Two fields side by side, as a number. -/
theorem toNat_beside {m n : Nat} (x : BitVec m) (y : BitVec n) : (x ++ y).toNat = x.toNat * 2 ^ n + y.toNat := by
  rw [BitVec.toNat_append, Nat.shiftLeft_eq, Nat.mul_comm, Nat.two_pow_add_eq_or_of_lt y.isLt]

/-- A word of format T or M as a number. -/
theorem wT_toNat (s : Bool) (maj : BitVec 5) (fn : BitVec 3) (g : BitVec 2) (d a b : BitVec 7) :
    (wT s maj fn g d a b).toNat = s.toNat * 2 ^ 31 + maj.toNat * 2 ^ 26 + fn.toNat * 2 ^ 23 + g.toNat * 2 ^ 21 + d.toNat * 2 ^ 14 +
      a.toNat * 2 ^ 7 + b.toNat := by
  simp only [wT, toNat_beside, BitVec.toNat_ofBool]; omega

/-- A word of format I as a number. -/
theorem wI_toNat (s : Bool) (maj : BitVec 5) (g : BitVec 2) (d a : BitVec 7) (imm : BitVec 10) :
    (wI s maj g d a imm).toNat = s.toNat * 2 ^ 31 + maj.toNat * 2 ^ 26 + g.toNat * 2 ^ 24 + d.toNat * 2 ^ 17 + a.toNat * 2 ^ 10 +
      imm.toNat := by
  simp only [wI, toNat_beside, BitVec.toNat_ofBool]; omega

/-- A word of format L as a number. -/
theorem wL_toNat (s : Bool) (maj : BitVec 5) (d : BitVec 7) (imm : BitVec 19) :
    (wL s maj d imm).toNat = s.toNat * 2 ^ 31 + maj.toNat * 2 ^ 26 + d.toNat * 2 ^ 19 + imm.toNat := by
  simp only [wL, toNat_beside, BitVec.toNat_ofBool]; omega

/-- A word of format B as a number. -/
theorem wB_toNat (s : Bool) (maj : BitVec 5) (fn p : BitVec 3) (n : Bool) (off : BitVec 19) :
    (wB s maj fn p n off).toNat = s.toNat * 2 ^ 31 + maj.toNat * 2 ^ 26 + fn.toNat * 2 ^ 23 + p.toNat * 2 ^ 20 + n.toNat * 2 ^ 19 +
      off.toNat := by
  simp only [wB, toNat_beside, BitVec.toNat_ofBool]; omega

/-- A smaller number in a field of seven bits. -/
theorem z7_toNat {n : Nat} (h : n ≤ 7) (x : BitVec n) : (z7 x).toNat = x.toNat := by
  rw [z7, BitVec.toNat_setWidth, Nat.mod_eq_of_lt (Nat.lt_of_lt_of_le x.isLt (Nat.pow_le_pow_right (by omega) h))]

end Sys2Proof
end

