-- ==== Sys2Proof/Laws/PerInstr.lean ====
section
/-! SUPPORT. The family of LAWS.json: the word of every instruction as spec/opcode_table.json gives it, row by row, as the sum of its
fixed bits and of its fields at their places. -/

namespace Sys2Proof.Laws.TableWord

/-- Fixed bits with fields put at their lowest bits. -/
def fields (fixed : Nat) (fs : List (Nat × Nat)) : Nat := fs.foldl (fun a f => a + f.1 * 2 ^ f.2) fixed

theorem fields0 (m : Nat) : fields m [] = m := rfl
theorem fields1 (m a0 i0 : Nat) :
    fields m [(a0, i0)] = m + a0 * 2 ^ i0 := rfl
theorem fields2 (m a0 i0 a1 i1 : Nat) :
    fields m [(a0, i0), (a1, i1)] = m + a0 * 2 ^ i0 + a1 * 2 ^ i1 := rfl
theorem fields3 (m a0 i0 a1 i1 a2 i2 : Nat) :
    fields m [(a0, i0), (a1, i1), (a2, i2)] = m + a0 * 2 ^ i0 + a1 * 2 ^ i1 + a2 * 2 ^ i2 := rfl
theorem fields4 (m a0 i0 a1 i1 a2 i2 a3 i3 : Nat) :
    fields m [(a0, i0), (a1, i1), (a2, i2), (a3, i3)] = m + a0 * 2 ^ i0 + a1 * 2 ^ i1 + a2 * 2 ^ i2 + a3 * 2 ^ i3 := rfl
theorem fields5 (m a0 i0 a1 i1 a2 i2 a3 i3 a4 i4 : Nat) :
    fields m [(a0, i0), (a1, i1), (a2, i2), (a3, i3), (a4, i4)] = m + a0 * 2 ^ i0 + a1 * 2 ^ i1 + a2 * 2 ^ i2 + a3 * 2 ^ i3 + a4 * 2 ^ i4 := rfl
theorem fields6 (m a0 i0 a1 i1 a2 i2 a3 i3 a4 i4 a5 i5 : Nat) :
    fields m [(a0, i0), (a1, i1), (a2, i2), (a3, i3), (a4, i4), (a5, i5)] = m + a0 * 2 ^ i0 + a1 * 2 ^ i1 + a2 * 2 ^ i2 + a3 * 2 ^ i3 + a4 * 2 ^ i4 + a5 * 2 ^ i5 := rfl
theorem fields7 (m a0 i0 a1 i1 a2 i2 a3 i3 a4 i4 a5 i5 a6 i6 : Nat) :
    fields m [(a0, i0), (a1, i1), (a2, i2), (a3, i3), (a4, i4), (a5, i5), (a6, i6)] = m + a0 * 2 ^ i0 + a1 * 2 ^ i1 + a2 * 2 ^ i2 + a3 * 2 ^ i3 + a4 * 2 ^ i4 + a5 * 2 ^ i5 + a6 * 2 ^ i6 := rfl
theorem fields8 (m a0 i0 a1 i1 a2 i2 a3 i3 a4 i4 a5 i5 a6 i6 a7 i7 : Nat) :
    fields m [(a0, i0), (a1, i1), (a2, i2), (a3, i3), (a4, i4), (a5, i5), (a6, i6), (a7, i7)] = m + a0 * 2 ^ i0 + a1 * 2 ^ i1 + a2 * 2 ^ i2 + a3 * 2 ^ i3 + a4 * 2 ^ i4 + a5 * 2 ^ i5 + a6 * 2 ^ i6 + a7 * 2 ^ i7 := rfl

/-- The word that a row of the opcode table gives an instruction: its fixed bits and each field at its lowest bit. -/
def tableWord : Instr → Option Nat
  | .nop h => some (fields 0x00000000 [(h.stop.toNat, 31), (h.guard.toNat, 21)])
  | .trap h n => some (fields 0x00800000 [(h.stop.toNat, 31), (h.guard.toNat, 21), (n.toNat, 0)])
  | .bkpt h n => some (fields 0x01000000 [(h.stop.toNat, 31), (h.guard.toNat, 21), (n.toNat, 0)])
  | .ctxr h d n => some (fields 0x01800000 [(h.stop.toNat, 31), (h.guard.toNat, 21), (d.toNat, 14), (n.toNat, 0)])
  | .ctxw h n a => some (fields 0x02000000 [(h.stop.toNat, 31), (h.guard.toNat, 21), (a.toNat, 7), (n.toNat, 0)])
  | .clkCyc h d => some (fields 0x02800000 [(h.stop.toNat, 31), (h.guard.toNat, 21), (d.toNat, 14)])
  | .clkNs h d => some (fields 0x02800001 [(h.stop.toNat, 31), (h.guard.toNat, 21), (d.toNat, 14)])
  | .signal h a b => some (fields 0x03000000 [(h.stop.toNat, 31), (h.guard.toNat, 21), (a.toNat, 7), (b.toNat, 0)])
  | .modw rm alt fill nf => some (fields 0x03800000 [(nf.toNat, 5), (fill.toNat, 3), (alt.toNat, 2), (rm.toNat, 0)])
  | .bra p off => some (fields 0x84000000 [(p.toNat, 20), (off.toNat, 0)])
  | .braNot p off => some (fields 0x84080000 [(p.toNat, 20), (off.toNat, 0)])
  | .jmp off => some (fields 0x84800000 [(off.toNat, 0)])
  | .call d a => some (fields 0x85000000 [(d.toNat, 14), (a.toNat, 7)])
  | .jmpi a => some (fields 0x85800000 [(a.toNat, 7)])
  | .ret a => some (fields 0x86000000 [(a.toNat, 7)])
  | .exit => some (fields 0x86800000 [])
  | .rally h m t => some (fields 0x08000000 [(h.stop.toNat, 31), (h.guard.toNat, 21), (m.toNat, 14), (t.toNat, 0)])
  | .mjoin h m => some (fields 0x08800000 [(h.stop.toNat, 31), (h.guard.toNat, 21), (m.toNat, 14)])
  | .mclr h m => some (fields 0x09000000 [(h.stop.toNat, 31), (h.guard.toNat, 21), (m.toNat, 14)])
  | .mset h m a => some (fields 0x09800000 [(h.stop.toNat, 31), (h.guard.toNat, 21), (m.toNat, 14), (a.toNat, 7)])
  | .mget h d m => some (fields 0x0A000000 [(h.stop.toNat, 31), (h.guard.toNat, 21), (d.toNat, 14), (m.toNat, 0)])
  | .bar g n a pl => some (fields 0x8A800000 [(g.toNat, 21), (pl.toNat, 14), (a.toNat, 7), (n.toNat, 0)])
  | .bararr h n a => some (fields 0x0B000000 [(h.stop.toNat, 31), (h.guard.toNat, 21), (a.toNat, 7), (n.toNat, 0)])
  | .barwt g n => some (fields 0x8B800000 [(g.toNat, 21), (n.toNat, 0)])
  | .vote h kind d p => some (fields 0x0C000000 [(h.stop.toNat, 31), (h.guard.toNat, 21), (d.toNat, 14), (p.toNat, 7), (kind.toNat, 0)])
  | .red h op ty d a pe => some (fields 0x0C800000 [(h.stop.toNat, 31), (h.guard.toNat, 21), (d.toNat, 14), (a.toNat, 7), (pe.toNat, 5), (ty.toNat, 3), (op.toNat, 0)])
  | .scan h op ty excl d a => some (fields 0x0D000000 [(h.stop.toNat, 31), (h.guard.toNat, 21), (d.toNat, 14), (a.toNat, 7), (excl.toNat, 5), (ty.toNat, 3), (op.toNat, 0)])
  | .xlane h kind d a n => some (fields 0x0D800000 [(h.stop.toNat, 31), (h.guard.toNat, 21), (d.toNat, 14), (a.toNat, 7), (kind.toNat, 5), (n.toNat, 0)])
  | .perm h d a b => some (fields 0x0E000000 [(h.stop.toNat, 31), (h.guard.toNat, 21), (d.toNat, 14), (a.toNat, 7), (b.toNat, 0)])
  | .bcast h d a n => some (fields 0x0E800000 [(h.stop.toNat, 31), (h.guard.toNat, 21), (d.toNat, 14), (a.toNat, 7), (n.toNat, 0)])
  | .patld h d a b => some (fields 0x0F000000 [(h.stop.toNat, 31), (h.guard.toNat, 21), (d.toNat, 14), (a.toNat, 7), (b.toNat, 0)])
  | .tilef h d px => some (fields 0x10000000 [(h.stop.toNat, 31), (h.guard.toNat, 21), (d.toNat, 14), (px.toNat, 0)])
  | .win h n => some (fields 0x10800000 [(h.stop.toNat, 31), (h.guard.toNat, 21), (n.toNat, 0)])
  | .pause g n => some (fields 0x91000000 [(g.toNat, 21), (n.toNat, 0)])
  | .shape h d a => some (fields 0x11800000 [(h.stop.toNat, 31), (h.guard.toNat, 21), (d.toNat, 14), (a.toNat, 7)])
  | .rngLo h d a b => some (fields 0x12000000 [(h.stop.toNat, 31), (h.guard.toNat, 21), (d.toNat, 14), (a.toNat, 7), (b.toNat, 0)])
  | .rngsLo h d => some (fields 0x12800000 [(h.stop.toNat, 31), (h.guard.toNat, 21), (d.toNat, 14)])
  | .rngsHi h d => some (fields 0x12800001 [(h.stop.toNat, 31), (h.guard.toNat, 21), (d.toNat, 14)])
  | .rngHi h d a b => some (fields 0x13000000 [(h.stop.toNat, 31), (h.guard.toNat, 21), (d.toNat, 14), (a.toNat, 7), (b.toNat, 0)])
  | .add h d a b => some (fields 0x14000000 [(h.stop.toNat, 31), (h.guard.toNat, 21), (d.toNat, 14), (a.toNat, 7), (b.toNat, 0)])
  | .sub h d a b => some (fields 0x14800000 [(h.stop.toNat, 31), (h.guard.toNat, 21), (d.toNat, 14), (a.toNat, 7), (b.toNat, 0)])
  | .mulLo h d a b => some (fields 0x15000000 [(h.stop.toNat, 31), (h.guard.toNat, 21), (d.toNat, 14), (a.toNat, 7), (b.toNat, 0)])
  | .mulHi h d a b => some (fields 0x15800000 [(h.stop.toNat, 31), (h.guard.toNat, 21), (d.toNat, 14), (a.toNat, 7), (b.toNat, 0)])
  | .min h d a b => some (fields 0x16000000 [(h.stop.toNat, 31), (h.guard.toNat, 21), (d.toNat, 14), (a.toNat, 7), (b.toNat, 0)])
  | .max h d a b => some (fields 0x16800000 [(h.stop.toNat, 31), (h.guard.toNat, 21), (d.toNat, 14), (a.toNat, 7), (b.toNat, 0)])
  | .absd h d a b => some (fields 0x17000000 [(h.stop.toNat, 31), (h.guard.toNat, 21), (d.toNat, 14), (a.toNat, 7), (b.toNat, 0)])
  | .neg h d a => some (fields 0x17800000 [(h.stop.toNat, 31), (h.guard.toNat, 21), (d.toNat, 14), (a.toNat, 7)])
  | .and h d a b => some (fields 0x18000000 [(h.stop.toNat, 31), (h.guard.toNat, 21), (d.toNat, 14), (a.toNat, 7), (b.toNat, 0)])
  | .or h d a b => some (fields 0x18800000 [(h.stop.toNat, 31), (h.guard.toNat, 21), (d.toNat, 14), (a.toNat, 7), (b.toNat, 0)])
  | .xor h d a b => some (fields 0x19000000 [(h.stop.toNat, 31), (h.guard.toNat, 21), (d.toNat, 14), (a.toNat, 7), (b.toNat, 0)])
  | .andn h d a b => some (fields 0x19800000 [(h.stop.toNat, 31), (h.guard.toNat, 21), (d.toNat, 14), (a.toNat, 7), (b.toNat, 0)])
  | .shl h d a b => some (fields 0x1A000000 [(h.stop.toNat, 31), (h.guard.toNat, 21), (d.toNat, 14), (a.toNat, 7), (b.toNat, 0)])
  | .shr h d a b => some (fields 0x1A800000 [(h.stop.toNat, 31), (h.guard.toNat, 21), (d.toNat, 14), (a.toNat, 7), (b.toNat, 0)])
  | .shra h d a b => some (fields 0x1B000000 [(h.stop.toNat, 31), (h.guard.toNat, 21), (d.toNat, 14), (a.toNat, 7), (b.toNat, 0)])
  | .rot h d a b => some (fields 0x1B800000 [(h.stop.toNat, 31), (h.guard.toNat, 21), (d.toNat, 14), (a.toNat, 7), (b.toNat, 0)])
  | .bfe h d a b => some (fields 0x1C000000 [(h.stop.toNat, 31), (h.guard.toNat, 21), (d.toNat, 14), (a.toNat, 7), (b.toNat, 0)])
  | .bfi h d a b => some (fields 0x1C800000 [(h.stop.toNat, 31), (h.guard.toNat, 21), (d.toNat, 14), (a.toNat, 7), (b.toNat, 0)])
  | .popc h d a => some (fields 0x1D000000 [(h.stop.toNat, 31), (h.guard.toNat, 21), (d.toNat, 14), (a.toNat, 7)])
  | .clz h d a => some (fields 0x1D800000 [(h.stop.toNat, 31), (h.guard.toNat, 21), (d.toNat, 14), (a.toNat, 7)])
  | .brev h d a => some (fields 0x1E000000 [(h.stop.toNat, 31), (h.guard.toNat, 21), (d.toNat, 14), (a.toNat, 7)])
  | .div h d a b => some (fields 0x1E800000 [(h.stop.toNat, 31), (h.guard.toNat, 21), (d.toNat, 14), (a.toNat, 7), (b.toNat, 0)])
  | .rem h d a b => some (fields 0x1F000000 [(h.stop.toNat, 31), (h.guard.toNat, 21), (d.toNat, 14), (a.toNat, 7), (b.toNat, 0)])
  | .mad h d a b => some (fields 0x20000000 [(h.stop.toNat, 31), (h.guard.toNat, 21), (d.toNat, 14), (a.toNat, 7), (b.toNat, 0)])
  | .madh h d a b => some (fields 0x20800000 [(h.stop.toNat, 31), (h.guard.toNat, 21), (d.toNat, 14), (a.toNat, 7), (b.toNat, 0)])
  | .add64 h d a b => some (fields 0x21000000 [(h.stop.toNat, 31), (h.guard.toNat, 21), (d.toNat, 14), (a.toNat, 7), (b.toNat, 0)])
  | .sub64 h d a b => some (fields 0x21800000 [(h.stop.toNat, 31), (h.guard.toNat, 21), (d.toNat, 14), (a.toNat, 7), (b.toNat, 0)])
  | .addc h d a b => some (fields 0x22000000 [(h.stop.toNat, 31), (h.guard.toNat, 21), (d.toNat, 14), (a.toNat, 7), (b.toNat, 0)])
  | .subb h d a b => some (fields 0x22800000 [(h.stop.toNat, 31), (h.guard.toNat, 21), (d.toNat, 14), (a.toNat, 7), (b.toNat, 0)])
  | .icmp h cmp pd pc orr a b => some (fields 0x24000000 [(h.stop.toNat, 31), (cmp.toNat, 23), (h.guard.toNat, 21), (orr.toNat, 20), (pc.toNat, 17), (pd.toNat, 14), (a.toNat, 7), (b.toNat, 0)])
  | .addi h d a imm => some (fields 0x28000000 [(h.stop.toNat, 31), (h.guard.toNat, 24), (d.toNat, 17), (a.toNat, 10), (imm.toNat, 0)])
  | .andi h d a imm => some (fields 0x2C000000 [(h.stop.toNat, 31), (h.guard.toNat, 24), (d.toNat, 17), (a.toNat, 10), (imm.toNat, 0)])
  | .ori h d a imm => some (fields 0x2C000080 [(h.stop.toNat, 31), (h.guard.toNat, 24), (d.toNat, 17), (a.toNat, 10), (imm.toNat, 0)])
  | .xori h d a imm => some (fields 0x2C000100 [(h.stop.toNat, 31), (h.guard.toNat, 24), (d.toNat, 17), (a.toNat, 10), (imm.toNat, 0)])
  | .shli h d a imm => some (fields 0x2C000180 [(h.stop.toNat, 31), (h.guard.toNat, 24), (d.toNat, 17), (a.toNat, 10), (imm.toNat, 0)])
  | .shri h d a imm => some (fields 0x2C000200 [(h.stop.toNat, 31), (h.guard.toNat, 24), (d.toNat, 17), (a.toNat, 10), (imm.toNat, 0)])
  | .shrai h d a imm => some (fields 0x2C000280 [(h.stop.toNat, 31), (h.guard.toNat, 24), (d.toNat, 17), (a.toNat, 10), (imm.toNat, 0)])
  | .roti h d a imm => some (fields 0x2C000300 [(h.stop.toNat, 31), (h.guard.toNat, 24), (d.toNat, 17), (a.toNat, 10), (imm.toNat, 0)])
  | .movlLo stop d imm => some (fields 0x30000000 [(stop.toNat, 31), (d.toNat, 19), (imm.toNat, 0)])
  | .movlHi stop d imm => some (fields 0x30040000 [(stop.toNat, 31), (d.toNat, 19), (imm.toNat, 0)])
  | .pand h pd pa pb => some (fields 0x34000000 [(h.stop.toNat, 31), (h.guard.toNat, 21), (pd.toNat, 14), (pa.toNat, 7), (pb.toNat, 0)])
  | .por h pd pa pb => some (fields 0x34800000 [(h.stop.toNat, 31), (h.guard.toNat, 21), (pd.toNat, 14), (pa.toNat, 7), (pb.toNat, 0)])
  | .pxor h pd pa pb => some (fields 0x35000000 [(h.stop.toNat, 31), (h.guard.toNat, 21), (pd.toNat, 14), (pa.toNat, 7), (pb.toNat, 0)])
  | .pnot h pd pa => some (fields 0x35800000 [(h.stop.toNat, 31), (h.guard.toNat, 21), (pd.toNat, 14), (pa.toNat, 7)])
  | .sel h d a b => some (fields 0x36000000 [(h.stop.toNat, 31), (h.guard.toNat, 21), (d.toNat, 14), (a.toNat, 7), (b.toNat, 0)])
  | .movp h d pa => some (fields 0x36800000 [(h.stop.toNat, 31), (h.guard.toNat, 21), (d.toNat, 14), (pa.toNat, 7)])
  | .pset h pd a => some (fields 0x37000000 [(h.stop.toNat, 31), (h.guard.toNat, 21), (pd.toNat, 14), (a.toNat, 7)])
  | .fadd h d a b => some (fields 0x38000000 [(h.stop.toNat, 31), (h.guard.toNat, 21), (d.toNat, 14), (a.toNat, 7), (b.toNat, 0)])
  | .fsub h d a b => some (fields 0x38800000 [(h.stop.toNat, 31), (h.guard.toNat, 21), (d.toNat, 14), (a.toNat, 7), (b.toNat, 0)])
  | .fmul h d a b => some (fields 0x39000000 [(h.stop.toNat, 31), (h.guard.toNat, 21), (d.toNat, 14), (a.toNat, 7), (b.toNat, 0)])
  | .fmin h d a b => some (fields 0x39800000 [(h.stop.toNat, 31), (h.guard.toNat, 21), (d.toNat, 14), (a.toNat, 7), (b.toNat, 0)])
  | .fmax h d a b => some (fields 0x3A000000 [(h.stop.toNat, 31), (h.guard.toNat, 21), (d.toNat, 14), (a.toNat, 7), (b.toNat, 0)])
  | .fcmp h cmp pd a b => some (fields 0x3A800000 [(h.stop.toNat, 31), (h.guard.toNat, 21), (cmp.toNat, 17), (pd.toNat, 14), (a.toNat, 7), (b.toNat, 0)])
  | .ffma h d a b => some (fields 0x3C000000 [(h.stop.toNat, 31), (h.guard.toNat, 21), (d.toNat, 14), (a.toNat, 7), (b.toNat, 0)])
  | .ffms h d a b => some (fields 0x3C800000 [(h.stop.toNat, 31), (h.guard.toNat, 21), (d.toNat, 14), (a.toNat, 7), (b.toNat, 0)])
  | .fnma h d a b => some (fields 0x3D000000 [(h.stop.toNat, 31), (h.guard.toNat, 21), (d.toNat, 14), (a.toNat, 7), (b.toNat, 0)])
  | .pkfma h d a b => some (fields 0x3D800000 [(h.stop.toNat, 31), (h.guard.toNat, 21), (d.toNat, 14), (a.toNat, 7), (b.toNat, 0)])
  | .frcp h d a => some (fields 0x40000000 [(h.stop.toNat, 31), (h.guard.toNat, 21), (d.toNat, 14), (a.toNat, 7)])
  | .frsq h d a => some (fields 0x40800000 [(h.stop.toNat, 31), (h.guard.toNat, 21), (d.toNat, 14), (a.toNat, 7)])
  | .fsqrt h d a => some (fields 0x41000000 [(h.stop.toNat, 31), (h.guard.toNat, 21), (d.toNat, 14), (a.toNat, 7)])
  | .fexp2 h d a => some (fields 0x41800000 [(h.stop.toNat, 31), (h.guard.toNat, 21), (d.toNat, 14), (a.toNat, 7)])
  | .flog2 h d a => some (fields 0x42000000 [(h.stop.toNat, 31), (h.guard.toNat, 21), (d.toNat, 14), (a.toNat, 7)])
  | .fsin h d a => some (fields 0x42800000 [(h.stop.toNat, 31), (h.guard.toNat, 21), (d.toNat, 14), (a.toNat, 7)])
  | .fcos h d a => some (fields 0x43000000 [(h.stop.toNat, 31), (h.guard.toNat, 21), (d.toNat, 14), (a.toNat, 7)])
  | .frnd h d a mode => some (fields 0x43800000 [(h.stop.toNat, 31), (h.guard.toNat, 21), (d.toNat, 14), (a.toNat, 7), (mode.toNat, 0)])
  | .cvt h src d a dst mode => some (fields 0x44000000 [(h.stop.toNat, 31), (src.toNat, 23), (h.guard.toNat, 21), (d.toNat, 14), (a.toNat, 7), (mode.toNat, 5), (dst.toNat, 0)])
  | .pkadd h d a b => some (fields 0x48000000 [(h.stop.toNat, 31), (h.guard.toNat, 21), (d.toNat, 14), (a.toNat, 7), (b.toNat, 0)])
  | .pkmul h d a b => some (fields 0x48800000 [(h.stop.toNat, 31), (h.guard.toNat, 21), (d.toNat, 14), (a.toNat, 7), (b.toNat, 0)])
  | .spk h d a => some (fields 0x49000000 [(h.stop.toNat, 31), (h.guard.toNat, 21), (d.toNat, 14), (a.toNat, 7)])
  | .cvtbd h d a b => some (fields 0x49800000 [(h.stop.toNat, 31), (h.guard.toNat, 21), (d.toNat, 14), (a.toNat, 7), (b.toNat, 0)])
  | .ld h w d a off => some (fields 0x4C000000 [(h.stop.toNat, 31), (w.toNat, 23), (h.guard.toNat, 21), (d.toNat, 14), (a.toNat, 7), (off.toNat, 0)])
  | .st h w d a off => some (fields 0x50000000 [(h.stop.toNat, 31), (w.toNat, 23), (h.guard.toNat, 21), (d.toNat, 14), (a.toNat, 7), (off.toNat, 0)])
  | .ldd h w d a off => some (fields 0x54000000 [(h.stop.toNat, 31), (w.toNat, 23), (h.guard.toNat, 21), (d.toNat, 14), (a.toNat, 7), (off.toNat, 0)])
  | .std h w d a off => some (fields 0x54000000 [(h.stop.toNat, 31), (((w.toNat + 3) % 8), 23), (h.guard.toNat, 21), (d.toNat, 14), (a.toNat, 7), (off.toNat, 0)])
  | .cpAsync h d a tag keep => some (fields 0x58000000 [(h.stop.toNat, 31), (h.guard.toNat, 21), (d.toNat, 14), (a.toNat, 7), (keep.toNat, 2), (tag.toNat, 0)])
  | .cpPlane h d a tag keep => some (fields 0x58800000 [(h.stop.toNat, 31), (h.guard.toNat, 21), (d.toNat, 14), (a.toNat, 7), (keep.toNat, 2), (tag.toNat, 0)])
  | .cpOut h d a tag => some (fields 0x59000000 [(h.stop.toNat, 31), (h.guard.toNat, 21), (d.toNat, 14), (a.toNat, 7), (tag.toNat, 0)])
  | .tagwait g k n => some (fields 0xD9800000 [(g.toNat, 21), (n.toNat, 2), (k.toNat, 0)])
  | .tagget h d k => some (fields 0x5A000000 [(h.stop.toNat, 31), (h.guard.toNat, 21), (d.toNat, 14), (k.toNat, 0)])
  | .pref h a off => some (fields 0x5A800000 [(h.stop.toNat, 31), (h.guard.toNat, 21), (a.toNat, 7), (off.toNat, 0)])
  | .accrd h d a t fmt => some (fields 0x5B000000 [(h.stop.toNat, 31), (h.guard.toNat, 21), (d.toNat, 14), (a.toNat, 7), (fmt.toNat, 4), (t.toNat, 0)])
  | .accwr h d a t fmt => some (fields 0x5B800000 [(h.stop.toNat, 31), (h.guard.toNat, 21), (d.toNat, 14), (a.toNat, 7), (fmt.toNat, 4), (t.toNat, 0)])
  | .atom h op d a ty sc ret => some (fields 0x5C000000 [(h.stop.toNat, 31), (op.toNat, 23), (h.guard.toNat, 21), (d.toNat, 14), (a.toNat, 7), (ret.toNat, 5), (sc.toNat, 3), (ty.toNat, 1)])
  | .atomb h op d a ty sc => some (fields 0x5C000001 [(h.stop.toNat, 31), (op.toNat, 23), (h.guard.toNat, 21), (d.toNat, 14), (a.toNat, 7), (sc.toNat, 3), (ty.toNat, 1)])
  | .fence h sc kind => some (fields 0x60000000 [(h.stop.toNat, 31), (h.guard.toNat, 21), (kind.toNat, 2), (sc.toNat, 0)])
  | .ldacq h d a sc b64 => some (fields 0x60800000 [(h.stop.toNat, 31), (h.guard.toNat, 21), (d.toNat, 14), (a.toNat, 7), (b64.toNat, 2), (sc.toNat, 0)])
  | .strel h d a sc b64 => some (fields 0x61000000 [(h.stop.toNat, 31), (h.guard.toNat, 21), (d.toNat, 14), (a.toNat, 7), (b64.toNat, 2), (sc.toNat, 0)])
  | .acqr h a => some (fields 0x61800000 [(h.stop.toNat, 31), (h.guard.toNat, 21), (a.toNat, 7)])
  | .aflush h => some (fields 0x62000000 [(h.stop.toNat, 31), (h.guard.toNat, 21)])
  | .sample h d a slot => some (fields 0x64000000 [(h.stop.toNat, 31), (h.guard.toNat, 21), (d.toNat, 14), (a.toNat, 7), (slot.toNat, 0)])
  | .sampleg h d a slot => some (fields 0x64800000 [(h.stop.toNat, 31), (h.guard.toNat, 21), (d.toNat, 14), (a.toNat, 7), (slot.toNat, 0)])
  | .sload h d a slot => some (fields 0x65000000 [(h.stop.toNat, 31), (h.guard.toNat, 21), (d.toNat, 14), (a.toNat, 7), (slot.toNat, 0)])
  | .hinv h slot => some (fields 0x65800000 [(h.stop.toNat, 31), (h.guard.toNat, 21), (slot.toNat, 0)])
  | .wpin h slot => some (fields 0x66000000 [(h.stop.toNat, 31), (h.guard.toNat, 21), (slot.toNat, 0)])
  | .wunpin h slot => some (fields 0x66800000 [(h.stop.toNat, 31), (h.guard.toNat, 21), (slot.toNat, 0)])
  | .smma h d a f => some (fields 0x67000000 [(h.stop.toNat, 31), (h.guard.toNat, 21), (d.toNat, 14), (a.toNat, 7), (f.toNat, 0)])
  | .mxIssue h a => some (fields 0x68000000 [(h.stop.toNat, 31), (h.guard.toNat, 21), (a.toNat, 7)])
  | .mxZero h t k => some (fields 0x68800000 [(h.stop.toNat, 31), (h.guard.toNat, 21), (k.toNat, 4), (t.toNat, 0)])
  | .hopen h d pf => some (fields 0x6C000000 [(h.stop.toNat, 31), (h.guard.toNat, 21), (d.toNat, 14), (pf.toNat, 0)])
  | .hset h a => some (fields 0x6C800000 [(h.stop.toNat, 31), (h.guard.toNat, 21), (a.toNat, 7)])
  | .hget h d => some (fields 0x6D000000 [(h.stop.toNat, 31), (h.guard.toNat, 21), (d.toNat, 14)])
  | .hconfirm h a => some (fields 0x6D800000 [(h.stop.toNat, 31), (h.guard.toNat, 21), (a.toNat, 7)])
  | .hrefute h a => some (fields 0x6E000000 [(h.stop.toNat, 31), (h.guard.toNat, 21), (a.toNat, 7)])
  | .hstate h d a => some (fields 0x6E800000 [(h.stop.toNat, 31), (h.guard.toNat, 21), (d.toNat, 14), (a.toNat, 7)])
  | .horphan h a => some (fields 0x6F000000 [(h.stop.toNat, 31), (h.guard.toNat, 21), (a.toNat, 7)])
  | .taskout h a c => some (fields 0x70000000 [(h.stop.toNat, 31), (h.guard.toNat, 21), (a.toNat, 7), (c.toNat, 0)])
  | .vtxout h a slot => some (fields 0x70800000 [(h.stop.toNat, 31), (h.guard.toNat, 21), (a.toNat, 7), (slot.toNat, 0)])
  | .primout h a => some (fields 0x71000000 [(h.stop.toNat, 31), (h.guard.toNat, 21), (a.toNat, 7)])
  | .pixout h a t => some (fields 0x71800000 [(h.stop.toNat, 31), (h.guard.toNat, 21), (a.toNat, 7), (t.toNat, 0)])
  | .kill h => some (fields 0x72000000 [(h.stop.toNat, 31), (h.guard.toNat, 21)])
  | _ => none

/-- The encoder gives the word of the table. -/
def Statement (i : Instr) : Prop := ∀ w, tableWord i = some w → (encode i).toNat = w

theorem moduleReset : Statement .moduleReset := by intro w hw; cases hw
theorem selfTestDone : Statement .selfTestDone := by intro w hw; cases hw
theorem imageLen (v : Word) : Statement (.imageLen v) := by intro w hw; cases hw
theorem verifyDone : Statement .verifyDone := by intro w hw; cases hw
theorem startGo (v : Word) : Statement (.startGo v) := by intro w hw; cases hw
theorem contextCreate (lo : Word) : Statement (.contextCreate lo) := by intro w hw; cases hw
theorem contextDestroy (lo : Word) : Statement (.contextDestroy lo) := by intro w hw; cases hw
theorem contextDestroyComplete : Statement .contextDestroyComplete := by intro w hw; cases hw
theorem queueCreate (lo : Word) : Statement (.queueCreate lo) := by intro w hw; cases hw
theorem queueDestroy (lo : Word) : Statement (.queueDestroy lo) := by intro w hw; cases hw
theorem queueResume (lo : Word) : Statement (.queueResume lo) := by intro w hw; cases hw
theorem setFloors (lo : Word) : Statement (.setFloors lo) := by intro w hw; cases hw
theorem attest (lo : Word) : Statement (.attest lo) := by intro w hw; cases hw
theorem setSaveArea (lo : Word) : Statement (.setSaveArea lo) := by intro w hw; cases hw
theorem wake (q : Nat) (v : Word) : Statement (.wake q v) := by intro w hw; cases hw
theorem hoGoToHost (q : Nat) (v : Word) : Statement (.hoGoToHost q v) := by intro w hw; cases hw
theorem hoGoToDevice (q : Nat) (v : Word) : Statement (.hoGoToDevice q v) := by intro w hw; cases hw
theorem handoverComplete (id : Nat) : Statement (.handoverComplete id) := by intro w hw; cases hw
theorem tlbiGo (v : Word) : Statement (.tlbiGo v) := by intro w hw; cases hw
theorem tlbiAll (v : Word) : Statement (.tlbiAll v) := by intro w hw; cases hw
theorem tlbiComplete : Statement .tlbiComplete := by intro w hw; cases hw
theorem learn (v : Word) : Statement (.learn v) := by intro w hw; cases hw
theorem learnComplete : Statement .learnComplete := by intro w hw; cases hw
theorem load (v : Word) : Statement (.load v) := by intro w hw; cases hw
theorem loadComplete : Statement .loadComplete := by intro w hw; cases hw
theorem recode (v : Word) : Statement (.recode v) := by intro w hw; cases hw
theorem recodeComplete : Statement .recodeComplete := by intro w hw; cases hw
theorem retry (ctx : Nat) (v : Word) : Statement (.retry ctx v) := by intro w hw; cases hw
theorem abort (ctx : Nat) (v : Word) : Statement (.abort ctx v) := by intro w hw; cases hw
theorem registerWrite (off : Nat) (v : Word) : Statement (.registerWrite off v) := by intro w hw; cases hw
theorem packetCoreScan (q : Nat) : Statement (.packetCoreScan q) := by intro w hw; cases hw
theorem mappingRound (unmap : List Nat) : Statement (.mappingRound unmap) := by intro w hw; cases hw
theorem nopPacket (p : Nat) : Statement (.nopPacket p) := by intro w hw; cases hw
theorem dispatch (p : Nat) : Statement (.dispatch p) := by intro w hw; cases hw
theorem draw (p : Nat) : Statement (.draw p) := by intro w hw; cases hw
theorem copyLinear (p : Nat) : Statement (.copyLinear p) := by intro w hw; cases hw
theorem copyFill (p : Nat) : Statement (.copyFill p) := by intro w hw; cases hw
theorem copyTwoD (p : Nat) : Statement (.copyTwoD p) := by intro w hw; cases hw
theorem copyEngineDone (p : Nat) (done : Nat) : Statement (.copyEngineDone p done) := by intro w hw; cases hw
theorem signalPacketWrite (p : Nat) : Statement (.signalPacketWrite p) := by intro w hw; cases hw
theorem signalPacketAdd (p : Nat) : Statement (.signalPacketAdd p) := by intro w hw; cases hw
theorem wait (p : Nat) : Statement (.wait p) := by intro w hw; cases hw
theorem waitPoll (p : Nat) : Statement (.waitPoll p) := by intro w hw; cases hw
theorem waitTimeout (p : Nat) : Statement (.waitTimeout p) := by intro w hw; cases hw
theorem handoverToHost (p : Nat) : Statement (.handoverToHost p) := by intro w hw; cases hw
theorem handoverToDevice (p : Nat) : Statement (.handoverToDevice p) := by intro w hw; cases hw
theorem encode (p : Nat) : Statement (.encode p) := by intro w hw; cases hw
theorem hypresConfirm (p : Nat) : Statement (.hypresConfirm p) := by intro w hw; cases hw
theorem hypresRefute (p : Nat) : Statement (.hypresRefute p) := by intro w hw; cases hw
theorem packetComplete (p : Nat) : Statement (.packetComplete p) := by intro w hw; cases hw
theorem admissionStep : Statement .admissionStep := by intro w hw; cases hw
theorem rasterPixelTeam (launch : Nat) : Statement (.rasterPixelTeam launch) := by intro w hw; cases hw
theorem rasterQuadTimeout (launch : Nat) : Statement (.rasterQuadTimeout launch) := by intro w hw; cases hw
theorem outputMerge (launch : Nat) : Statement (.outputMerge launch) := by intro w hw; cases hw
theorem encodeFrameEnd (engine : Nat) (stream : Nat) : Statement (.encodeFrameEnd engine stream) := by intro w hw; cases hw
theorem packForm (mast : Nat) (pipe : Nat) : Statement (.packForm mast pipe) := by intro w hw; cases hw
theorem binGatherExpiry (team : Nat) (block : Nat) : Statement (.binGatherExpiry team block) := by intro w hw; cases hw
theorem binAgeExpiry (team : Nat) (block : Nat) : Statement (.binAgeExpiry team block) := by intro w hw; cases hw
theorem rallyTimeout (team : Nat) (block : Nat) (warp : Nat) : Statement (.rallyTimeout team block warp) := by intro w hw; cases hw
theorem icacheFill (team : Nat) (block : Nat) : Statement (.icacheFill team block) := by intro w hw; cases hw
theorem pipeIssue (mast : Nat) (pipe : Nat) : Statement (.pipeIssue mast pipe) := by intro w hw; cases hw
theorem blockResolve (pack : Nat) : Statement (.blockResolve pack) := by intro w hw; cases hw
theorem resultLand (team : Nat) (tid : Nat) (k : Nat) : Statement (.resultLand team tid k) := by intro w hw; cases hw
theorem pauseExpiry (team : Nat) (tid : Nat) : Statement (.pauseExpiry team tid) := by intro w hw; cases hw
theorem copyComplete (id : Nat) : Statement (.copyComplete id) := by intro w hw; cases hw
theorem mxPassStart (mast : Nat) : Statement (.mxPassStart mast) := by intro w hw; cases hw
theorem mxOpComplete (mast : Nat) (id : Nat) : Statement (.mxOpComplete mast id) := by intro w hw; cases hw
theorem smmaArrayGrant (mast : Nat) : Statement (.smmaArrayGrant mast) := by intro w hw; cases hw
theorem samplerFillLand (mast : Nat) (k : Nat) : Statement (.samplerFillLand mast k) := by intro w hw; cases hw
theorem hinvComplete (id : Nat) : Statement (.hinvComplete id) := by intro w hw; cases hw
theorem atombFlushComplete (id : Nat) (order : List Nat) : Statement (.atombFlushComplete id order) := by intro w hw; cases hw
theorem epochClose (team : Nat) : Statement (.epochClose team) := by intro w hw; cases hw
theorem acqrComplete (id : Nat) : Statement (.acqrComplete id) := by intro w hw; cases hw
theorem resolveComplete (id : Nat) : Statement (.resolveComplete id) := by intro w hw; cases hw
theorem scrubberStart (ctx : Nat) (hyp : Nat) : Statement (.scrubberStart ctx hyp) := by intro w hw; cases hw
theorem scrubBlock (ctx : Nat) (k : Nat) : Statement (.scrubBlock ctx k) := by intro w hw; cases hw
theorem l2Replace (pa : Nat) : Statement (.l2Replace pa) := by intro w hw; cases hw
theorem hostWindowAccess (write : Bool) (addr : Nat) (len : Nat) (data : List Byte) : Statement (.hostWindowAccess write addr len data) := by intro w hw; cases hw
theorem peerAccess (op : PeerOp) (port : Nat) (addr : Nat) (len : Nat) (data : List Byte) : Statement (.peerAccess op port addr len data) := by intro w hw; cases hw
theorem peerTimeout (port : Nat) : Statement (.peerTimeout port) := by intro w hw; cases hw
theorem teamRetire (team : Nat) : Statement (.teamRetire team) := by intro w hw; cases hw
theorem launchFinish (launch : Nat) : Statement (.launchFinish launch) := by intro w hw; cases hw
theorem watchdogExpiry (launch : Nat) : Statement (.watchdogExpiry launch) := by intro w hw; cases hw
theorem powerSample (module : Nat) (watts : List (Nat × Nat)) : Statement (.powerSample module watts) := by intro w hw; cases hw
theorem preemptRequest (team : Nat) (resolve : List Nat) : Statement (.preemptRequest team resolve) := by intro w hw; cases hw
theorem teamSave (team : Nat) : Statement (.teamSave team) := by intro w hw; cases hw
theorem teamSwap (team : Nat) : Statement (.teamSwap team) := by intro w hw; cases hw
theorem teamRestore (team : Nat) : Statement (.teamRestore team) := by intro w hw; cases hw
theorem eccCorrected : Statement .eccCorrected := by intro w hw; cases hw
theorem eccUncorrectable (at_ : Storage) : Statement (.eccUncorrectable at_) := by intro w hw; cases hw
theorem nop (h : Hdr) : Statement (.nop h) := by
  intro w hw; cases hw
  rw [show Sys2Proof.encode (.nop h) = wT h.stop 0x00 0 h.guard 0 0 0 from rfl, wT_toNat, fields2]
  simp only [BitVec.reduceToNat]
  omega
theorem trap (h : Hdr) (n : BitVec 7) : Statement (.trap h n) := by
  intro w hw; cases hw
  rw [show Sys2Proof.encode (.trap h n) = wT h.stop 0x00 1 h.guard 0 0 n from rfl, wT_toNat, fields3]
  simp only [BitVec.reduceToNat]
  omega
theorem bkpt (h : Hdr) (n : BitVec 7) : Statement (.bkpt h n) := by
  intro w hw; cases hw
  rw [show Sys2Proof.encode (.bkpt h n) = wT h.stop 0x00 2 h.guard 0 0 n from rfl, wT_toNat, fields3]
  simp only [BitVec.reduceToNat]
  omega
theorem ctxr (h : Hdr) (d : Reg) (n : BitVec 7) : Statement (.ctxr h d n) := by
  intro w hw; cases hw
  rw [show Sys2Proof.encode (.ctxr h d n) = wT h.stop 0x00 3 h.guard d 0 n from rfl, wT_toNat, fields4]
  simp only [BitVec.reduceToNat]
  omega
theorem ctxw (h : Hdr) (n : BitVec 7) (a : Reg) : Statement (.ctxw h n a) := by
  intro w hw; cases hw
  rw [show Sys2Proof.encode (.ctxw h n a) = wT h.stop 0x00 4 h.guard 0 a n from rfl, wT_toNat, fields4]
  simp only [BitVec.reduceToNat]
  omega
theorem clkCyc (h : Hdr) (d : Reg) : Statement (.clkCyc h d) := by
  intro w hw; cases hw
  rw [show Sys2Proof.encode (.clkCyc h d) = wT h.stop 0x00 5 h.guard d 0 0 from rfl, wT_toNat, fields3]
  simp only [BitVec.reduceToNat]
  omega
theorem clkNs (h : Hdr) (d : Reg) : Statement (.clkNs h d) := by
  intro w hw; cases hw
  rw [show Sys2Proof.encode (.clkNs h d) = wT h.stop 0x00 5 h.guard d 0 1 from rfl, wT_toNat, fields3]
  simp only [BitVec.reduceToNat]
  omega
theorem signal (h : Hdr) (a : Reg) (b : Reg) : Statement (.signal h a b) := by
  intro w hw; cases hw
  rw [show Sys2Proof.encode (.signal h a b) = wT h.stop 0x00 6 h.guard 0 a b from rfl, wT_toNat, fields4]
  simp only [BitVec.reduceToNat]
  omega
theorem modw (rm : BitVec 2) (alt : Bool) (fill : BitVec 2) (nf : BitVec 2) : Statement (.modw rm alt fill nf) := by
  intro w hw; cases hw
  rw [show Sys2Proof.encode (.modw rm alt fill nf) = wT false 0x00 7 0 0 0 (nf ++ fill ++ BitVec.ofBool alt ++ rm) from rfl, wT_toNat, fields4]
  simp only [toNat_beside, BitVec.toNat_ofBool, BitVec.reduceToNat, Bool.toNat_false]
  omega
theorem bra (p : BitVec 3) (off : BitVec 19) : Statement (.bra p off) := by
  intro w hw; cases hw
  rw [show Sys2Proof.encode (.bra p off) = wB true 0x01 0 p false off from rfl, wB_toNat, fields2]
  simp only [BitVec.reduceToNat, Bool.toNat_true, Bool.toNat_false]
  omega
theorem braNot (p : BitVec 3) (off : BitVec 19) : Statement (.braNot p off) := by
  intro w hw; cases hw
  rw [show Sys2Proof.encode (.braNot p off) = wB true 0x01 0 p true off from rfl, wB_toNat, fields2]
  simp only [BitVec.reduceToNat, Bool.toNat_true]
  omega
theorem jmp (off : BitVec 19) : Statement (.jmp off) := by
  intro w hw; cases hw
  rw [show Sys2Proof.encode (.jmp off) = wB true 0x01 1 0 false off from rfl, wB_toNat, fields1]
  simp only [BitVec.reduceToNat, Bool.toNat_true, Bool.toNat_false]
  omega
theorem call (d : Reg) (a : Reg) : Statement (.call d a) := by
  intro w hw; cases hw
  rw [show Sys2Proof.encode (.call d a) = wT true 0x01 2 0 d a 0 from rfl, wT_toNat, fields2]
  simp only [BitVec.reduceToNat, Bool.toNat_true]
  omega
theorem jmpi (a : Reg) : Statement (.jmpi a) := by
  intro w hw; cases hw
  rw [show Sys2Proof.encode (.jmpi a) = wT true 0x01 3 0 0 a 0 from rfl, wT_toNat, fields1]
  simp only [BitVec.reduceToNat, Bool.toNat_true]
  omega
theorem ret (a : Reg) : Statement (.ret a) := by
  intro w hw; cases hw
  rw [show Sys2Proof.encode (.ret a) = wT true 0x01 4 0 0 a 0 from rfl, wT_toNat, fields1]
  simp only [BitVec.reduceToNat, Bool.toNat_true]
  omega
theorem exit : Statement .exit := by
  intro w hw; cases hw
  rw [show Sys2Proof.encode .exit = wT true 0x01 5 0 0 0 0 from rfl, wT_toNat, fields0]
  simp only [BitVec.reduceToNat, Bool.toNat_true]
  omega
theorem rally (h : Hdr) (m : BitVec 3) (t : BitVec 7) : Statement (.rally h m t) := by
  intro w hw; cases hw
  rw [show Sys2Proof.encode (.rally h m t) = wT h.stop 0x02 0 h.guard (z7 m) 0 t from rfl, wT_toNat, fields4]
  simp only [z7_toNat (by decide : 3 ≤ 7), BitVec.reduceToNat]
  omega
theorem mjoin (h : Hdr) (m : BitVec 3) : Statement (.mjoin h m) := by
  intro w hw; cases hw
  rw [show Sys2Proof.encode (.mjoin h m) = wT h.stop 0x02 1 h.guard (z7 m) 0 0 from rfl, wT_toNat, fields3]
  simp only [z7_toNat (by decide : 3 ≤ 7), BitVec.reduceToNat]
  omega
theorem mclr (h : Hdr) (m : BitVec 3) : Statement (.mclr h m) := by
  intro w hw; cases hw
  rw [show Sys2Proof.encode (.mclr h m) = wT h.stop 0x02 2 h.guard (z7 m) 0 0 from rfl, wT_toNat, fields3]
  simp only [z7_toNat (by decide : 3 ≤ 7), BitVec.reduceToNat]
  omega
theorem mset (h : Hdr) (m : BitVec 3) (a : Reg) : Statement (.mset h m a) := by
  intro w hw; cases hw
  rw [show Sys2Proof.encode (.mset h m a) = wT h.stop 0x02 3 h.guard (z7 m) a 0 from rfl, wT_toNat, fields4]
  simp only [z7_toNat (by decide : 3 ≤ 7), BitVec.reduceToNat]
  omega
theorem mget (h : Hdr) (d : Reg) (m : BitVec 3) : Statement (.mget h d m) := by
  intro w hw; cases hw
  rw [show Sys2Proof.encode (.mget h d m) = wT h.stop 0x02 4 h.guard d 0 (z7 m) from rfl, wT_toNat, fields4]
  simp only [z7_toNat (by decide : 3 ≤ 7), BitVec.reduceToNat]
  omega
theorem bar (g : BitVec 2) (n : BitVec 4) (a : Reg) (pl : BitVec 3) : Statement (.bar g n a pl) := by
  intro w hw; cases hw
  rw [show Sys2Proof.encode (.bar g n a pl) = wT true 0x02 5 g (z7 pl) a (z7 n) from rfl, wT_toNat, fields4]
  simp only [z7_toNat (by decide : 3 ≤ 7), z7_toNat (by decide : 4 ≤ 7), BitVec.reduceToNat, Bool.toNat_true]
  omega
theorem bararr (h : Hdr) (n : BitVec 4) (a : Reg) : Statement (.bararr h n a) := by
  intro w hw; cases hw
  rw [show Sys2Proof.encode (.bararr h n a) = wT h.stop 0x02 6 h.guard 0 a (z7 n) from rfl, wT_toNat, fields4]
  simp only [z7_toNat (by decide : 4 ≤ 7), BitVec.reduceToNat]
  omega
theorem barwt (g : BitVec 2) (n : BitVec 4) : Statement (.barwt g n) := by
  intro w hw; cases hw
  rw [show Sys2Proof.encode (.barwt g n) = wT true 0x02 7 g 0 0 (z7 n) from rfl, wT_toNat, fields2]
  simp only [z7_toNat (by decide : 4 ≤ 7), BitVec.reduceToNat, Bool.toNat_true]
  omega
theorem vote (h : Hdr) (kind : BitVec 2) (d : Reg) (p : BitVec 3) : Statement (.vote h kind d p) := by
  intro w hw; cases hw
  rw [show Sys2Proof.encode (.vote h kind d p) = wT h.stop 0x03 0 h.guard d (z7 p) (z7 kind) from rfl, wT_toNat, fields5]
  simp only [z7_toNat (by decide : 3 ≤ 7), z7_toNat (by decide : 2 ≤ 7), BitVec.reduceToNat]
  omega
theorem red (h : Hdr) (op : BitVec 3) (ty : BitVec 2) (d : Reg) (a : Reg) (pe : BitVec 2) : Statement (.red h op ty d a pe) := by
  intro w hw; cases hw
  rw [show Sys2Proof.encode (.red h op ty d a pe) = wT h.stop 0x03 1 h.guard d a (pe ++ ty ++ op) from rfl, wT_toNat, fields7]
  simp only [toNat_beside, BitVec.reduceToNat]
  omega
theorem scan (h : Hdr) (op : BitVec 3) (ty : BitVec 2) (excl : Bool) (d : Reg) (a : Reg) : Statement (.scan h op ty excl d a) := by
  intro w hw; cases hw
  rw [show Sys2Proof.encode (.scan h op ty excl d a) = wT h.stop 0x03 2 h.guard d a ((0 : BitVec 1) ++ BitVec.ofBool excl ++ ty ++ op) from rfl, wT_toNat, fields7]
  simp only [toNat_beside, BitVec.toNat_ofBool, BitVec.reduceToNat]
  omega
theorem xlane (h : Hdr) (kind : BitVec 2) (d : Reg) (a : Reg) (n : BitVec 5) : Statement (.xlane h kind d a n) := by
  intro w hw; cases hw
  rw [show Sys2Proof.encode (.xlane h kind d a n) = wT h.stop 0x03 3 h.guard d a (kind ++ n) from rfl, wT_toNat, fields6]
  simp only [toNat_beside, BitVec.reduceToNat]
  omega
theorem perm (h : Hdr) (d : Reg) (a : Reg) (b : Reg) : Statement (.perm h d a b) := by
  intro w hw; cases hw
  rw [show Sys2Proof.encode (.perm h d a b) = wT h.stop 0x03 4 h.guard d a b from rfl, wT_toNat, fields5]
  simp only [BitVec.reduceToNat]
  omega
theorem bcast (h : Hdr) (d : Reg) (a : Reg) (n : BitVec 5) : Statement (.bcast h d a n) := by
  intro w hw; cases hw
  rw [show Sys2Proof.encode (.bcast h d a n) = wT h.stop 0x03 5 h.guard d a (z7 n) from rfl, wT_toNat, fields5]
  simp only [z7_toNat (by decide : 5 ≤ 7), BitVec.reduceToNat]
  omega
theorem patld (h : Hdr) (d : Reg) (a : Reg) (b : Reg) : Statement (.patld h d a b) := by
  intro w hw; cases hw
  rw [show Sys2Proof.encode (.patld h d a b) = wT h.stop 0x03 6 h.guard d a b from rfl, wT_toNat, fields5]
  simp only [BitVec.reduceToNat]
  omega
theorem tilef (h : Hdr) (d : Reg) (px : BitVec 3) : Statement (.tilef h d px) := by
  intro w hw; cases hw
  rw [show Sys2Proof.encode (.tilef h d px) = wT h.stop 0x04 0 h.guard d 0 (z7 px) from rfl, wT_toNat, fields4]
  simp only [z7_toNat (by decide : 3 ≤ 7), BitVec.reduceToNat]
  omega
theorem win (h : Hdr) (n : BitVec 4) : Statement (.win h n) := by
  intro w hw; cases hw
  rw [show Sys2Proof.encode (.win h n) = wT h.stop 0x04 1 h.guard 0 0 (z7 n) from rfl, wT_toNat, fields3]
  simp only [z7_toNat (by decide : 4 ≤ 7), BitVec.reduceToNat]
  omega
theorem pause (g : BitVec 2) (n : BitVec 7) : Statement (.pause g n) := by
  intro w hw; cases hw
  rw [show Sys2Proof.encode (.pause g n) = wT true 0x04 2 g 0 0 n from rfl, wT_toNat, fields2]
  simp only [BitVec.reduceToNat, Bool.toNat_true]
  omega
theorem shape (h : Hdr) (d : Reg) (a : BitVec 7) : Statement (.shape h d a) := by
  intro w hw; cases hw
  rw [show Sys2Proof.encode (.shape h d a) = wT h.stop 0x04 3 h.guard d a 0 from rfl, wT_toNat, fields4]
  simp only [BitVec.reduceToNat]
  omega
theorem rngLo (h : Hdr) (d : Reg) (a : Reg) (b : Reg) : Statement (.rngLo h d a b) := by
  intro w hw; cases hw
  rw [show Sys2Proof.encode (.rngLo h d a b) = wT h.stop 0x04 4 h.guard d a b from rfl, wT_toNat, fields5]
  simp only [BitVec.reduceToNat]
  omega
theorem rngsLo (h : Hdr) (d : Reg) : Statement (.rngsLo h d) := by
  intro w hw; cases hw
  rw [show Sys2Proof.encode (.rngsLo h d) = wT h.stop 0x04 5 h.guard d 0 0 from rfl, wT_toNat, fields3]
  simp only [BitVec.reduceToNat]
  omega
theorem rngsHi (h : Hdr) (d : Reg) : Statement (.rngsHi h d) := by
  intro w hw; cases hw
  rw [show Sys2Proof.encode (.rngsHi h d) = wT h.stop 0x04 5 h.guard d 0 1 from rfl, wT_toNat, fields3]
  simp only [BitVec.reduceToNat]
  omega
theorem rngHi (h : Hdr) (d : Reg) (a : Reg) (b : Reg) : Statement (.rngHi h d a b) := by
  intro w hw; cases hw
  rw [show Sys2Proof.encode (.rngHi h d a b) = wT h.stop 0x04 6 h.guard d a b from rfl, wT_toNat, fields5]
  simp only [BitVec.reduceToNat]
  omega
theorem add (h : Hdr) (d : Reg) (a : Reg) (b : Reg) : Statement (.add h d a b) := by
  intro w hw; cases hw
  rw [show Sys2Proof.encode (.add h d a b) = wT h.stop 0x05 0 h.guard d a b from rfl, wT_toNat, fields5]
  simp only [BitVec.reduceToNat]
  omega
theorem sub (h : Hdr) (d : Reg) (a : Reg) (b : Reg) : Statement (.sub h d a b) := by
  intro w hw; cases hw
  rw [show Sys2Proof.encode (.sub h d a b) = wT h.stop 0x05 1 h.guard d a b from rfl, wT_toNat, fields5]
  simp only [BitVec.reduceToNat]
  omega
theorem mulLo (h : Hdr) (d : Reg) (a : Reg) (b : Reg) : Statement (.mulLo h d a b) := by
  intro w hw; cases hw
  rw [show Sys2Proof.encode (.mulLo h d a b) = wT h.stop 0x05 2 h.guard d a b from rfl, wT_toNat, fields5]
  simp only [BitVec.reduceToNat]
  omega
theorem mulHi (h : Hdr) (d : Reg) (a : Reg) (b : Reg) : Statement (.mulHi h d a b) := by
  intro w hw; cases hw
  rw [show Sys2Proof.encode (.mulHi h d a b) = wT h.stop 0x05 3 h.guard d a b from rfl, wT_toNat, fields5]
  simp only [BitVec.reduceToNat]
  omega
theorem min (h : Hdr) (d : Reg) (a : Reg) (b : Reg) : Statement (.min h d a b) := by
  intro w hw; cases hw
  rw [show Sys2Proof.encode (.min h d a b) = wT h.stop 0x05 4 h.guard d a b from rfl, wT_toNat, fields5]
  simp only [BitVec.reduceToNat]
  omega
theorem max (h : Hdr) (d : Reg) (a : Reg) (b : Reg) : Statement (.max h d a b) := by
  intro w hw; cases hw
  rw [show Sys2Proof.encode (.max h d a b) = wT h.stop 0x05 5 h.guard d a b from rfl, wT_toNat, fields5]
  simp only [BitVec.reduceToNat]
  omega
theorem absd (h : Hdr) (d : Reg) (a : Reg) (b : Reg) : Statement (.absd h d a b) := by
  intro w hw; cases hw
  rw [show Sys2Proof.encode (.absd h d a b) = wT h.stop 0x05 6 h.guard d a b from rfl, wT_toNat, fields5]
  simp only [BitVec.reduceToNat]
  omega
theorem neg (h : Hdr) (d : Reg) (a : Reg) : Statement (.neg h d a) := by
  intro w hw; cases hw
  rw [show Sys2Proof.encode (.neg h d a) = wT h.stop 0x05 7 h.guard d a 0 from rfl, wT_toNat, fields4]
  simp only [BitVec.reduceToNat]
  omega
theorem and (h : Hdr) (d : Reg) (a : Reg) (b : Reg) : Statement (.and h d a b) := by
  intro w hw; cases hw
  rw [show Sys2Proof.encode (.and h d a b) = wT h.stop 0x06 0 h.guard d a b from rfl, wT_toNat, fields5]
  simp only [BitVec.reduceToNat]
  omega
theorem or (h : Hdr) (d : Reg) (a : Reg) (b : Reg) : Statement (.or h d a b) := by
  intro w hw; cases hw
  rw [show Sys2Proof.encode (.or h d a b) = wT h.stop 0x06 1 h.guard d a b from rfl, wT_toNat, fields5]
  simp only [BitVec.reduceToNat]
  omega
theorem xor (h : Hdr) (d : Reg) (a : Reg) (b : Reg) : Statement (.xor h d a b) := by
  intro w hw; cases hw
  rw [show Sys2Proof.encode (.xor h d a b) = wT h.stop 0x06 2 h.guard d a b from rfl, wT_toNat, fields5]
  simp only [BitVec.reduceToNat]
  omega
theorem andn (h : Hdr) (d : Reg) (a : Reg) (b : Reg) : Statement (.andn h d a b) := by
  intro w hw; cases hw
  rw [show Sys2Proof.encode (.andn h d a b) = wT h.stop 0x06 3 h.guard d a b from rfl, wT_toNat, fields5]
  simp only [BitVec.reduceToNat]
  omega
theorem shl (h : Hdr) (d : Reg) (a : Reg) (b : Reg) : Statement (.shl h d a b) := by
  intro w hw; cases hw
  rw [show Sys2Proof.encode (.shl h d a b) = wT h.stop 0x06 4 h.guard d a b from rfl, wT_toNat, fields5]
  simp only [BitVec.reduceToNat]
  omega
theorem shr (h : Hdr) (d : Reg) (a : Reg) (b : Reg) : Statement (.shr h d a b) := by
  intro w hw; cases hw
  rw [show Sys2Proof.encode (.shr h d a b) = wT h.stop 0x06 5 h.guard d a b from rfl, wT_toNat, fields5]
  simp only [BitVec.reduceToNat]
  omega
theorem shra (h : Hdr) (d : Reg) (a : Reg) (b : Reg) : Statement (.shra h d a b) := by
  intro w hw; cases hw
  rw [show Sys2Proof.encode (.shra h d a b) = wT h.stop 0x06 6 h.guard d a b from rfl, wT_toNat, fields5]
  simp only [BitVec.reduceToNat]
  omega
theorem rot (h : Hdr) (d : Reg) (a : Reg) (b : Reg) : Statement (.rot h d a b) := by
  intro w hw; cases hw
  rw [show Sys2Proof.encode (.rot h d a b) = wT h.stop 0x06 7 h.guard d a b from rfl, wT_toNat, fields5]
  simp only [BitVec.reduceToNat]
  omega
theorem bfe (h : Hdr) (d : Reg) (a : Reg) (b : Reg) : Statement (.bfe h d a b) := by
  intro w hw; cases hw
  rw [show Sys2Proof.encode (.bfe h d a b) = wT h.stop 0x07 0 h.guard d a b from rfl, wT_toNat, fields5]
  simp only [BitVec.reduceToNat]
  omega
theorem bfi (h : Hdr) (d : Reg) (a : Reg) (b : Reg) : Statement (.bfi h d a b) := by
  intro w hw; cases hw
  rw [show Sys2Proof.encode (.bfi h d a b) = wT h.stop 0x07 1 h.guard d a b from rfl, wT_toNat, fields5]
  simp only [BitVec.reduceToNat]
  omega
theorem popc (h : Hdr) (d : Reg) (a : Reg) : Statement (.popc h d a) := by
  intro w hw; cases hw
  rw [show Sys2Proof.encode (.popc h d a) = wT h.stop 0x07 2 h.guard d a 0 from rfl, wT_toNat, fields4]
  simp only [BitVec.reduceToNat]
  omega
theorem clz (h : Hdr) (d : Reg) (a : Reg) : Statement (.clz h d a) := by
  intro w hw; cases hw
  rw [show Sys2Proof.encode (.clz h d a) = wT h.stop 0x07 3 h.guard d a 0 from rfl, wT_toNat, fields4]
  simp only [BitVec.reduceToNat]
  omega
theorem brev (h : Hdr) (d : Reg) (a : Reg) : Statement (.brev h d a) := by
  intro w hw; cases hw
  rw [show Sys2Proof.encode (.brev h d a) = wT h.stop 0x07 4 h.guard d a 0 from rfl, wT_toNat, fields4]
  simp only [BitVec.reduceToNat]
  omega
theorem div (h : Hdr) (d : Reg) (a : Reg) (b : Reg) : Statement (.div h d a b) := by
  intro w hw; cases hw
  rw [show Sys2Proof.encode (.div h d a b) = wT h.stop 0x07 5 h.guard d a b from rfl, wT_toNat, fields5]
  simp only [BitVec.reduceToNat]
  omega
theorem rem (h : Hdr) (d : Reg) (a : Reg) (b : Reg) : Statement (.rem h d a b) := by
  intro w hw; cases hw
  rw [show Sys2Proof.encode (.rem h d a b) = wT h.stop 0x07 6 h.guard d a b from rfl, wT_toNat, fields5]
  simp only [BitVec.reduceToNat]
  omega
theorem mad (h : Hdr) (d : Reg) (a : Reg) (b : Reg) : Statement (.mad h d a b) := by
  intro w hw; cases hw
  rw [show Sys2Proof.encode (.mad h d a b) = wT h.stop 0x08 0 h.guard d a b from rfl, wT_toNat, fields5]
  simp only [BitVec.reduceToNat]
  omega
theorem madh (h : Hdr) (d : Reg) (a : Reg) (b : Reg) : Statement (.madh h d a b) := by
  intro w hw; cases hw
  rw [show Sys2Proof.encode (.madh h d a b) = wT h.stop 0x08 1 h.guard d a b from rfl, wT_toNat, fields5]
  simp only [BitVec.reduceToNat]
  omega
theorem add64 (h : Hdr) (d : Reg) (a : Reg) (b : Reg) : Statement (.add64 h d a b) := by
  intro w hw; cases hw
  rw [show Sys2Proof.encode (.add64 h d a b) = wT h.stop 0x08 2 h.guard d a b from rfl, wT_toNat, fields5]
  simp only [BitVec.reduceToNat]
  omega
theorem sub64 (h : Hdr) (d : Reg) (a : Reg) (b : Reg) : Statement (.sub64 h d a b) := by
  intro w hw; cases hw
  rw [show Sys2Proof.encode (.sub64 h d a b) = wT h.stop 0x08 3 h.guard d a b from rfl, wT_toNat, fields5]
  simp only [BitVec.reduceToNat]
  omega
theorem addc (h : Hdr) (d : Reg) (a : Reg) (b : Reg) : Statement (.addc h d a b) := by
  intro w hw; cases hw
  rw [show Sys2Proof.encode (.addc h d a b) = wT h.stop 0x08 4 h.guard d a b from rfl, wT_toNat, fields5]
  simp only [BitVec.reduceToNat]
  omega
theorem subb (h : Hdr) (d : Reg) (a : Reg) (b : Reg) : Statement (.subb h d a b) := by
  intro w hw; cases hw
  rw [show Sys2Proof.encode (.subb h d a b) = wT h.stop 0x08 5 h.guard d a b from rfl, wT_toNat, fields5]
  simp only [BitVec.reduceToNat]
  omega
theorem icmp (h : Hdr) (cmp : BitVec 3) (pd : BitVec 3) (pc : BitVec 3) (orr : Bool) (a : Reg) (b : Reg) : Statement (.icmp h cmp pd pc orr a b) := by
  intro w hw; cases hw
  rw [show Sys2Proof.encode (.icmp h cmp pd pc orr a b) = wT h.stop 0x09 cmp h.guard (BitVec.ofBool orr ++ pc ++ pd) a b from rfl, wT_toNat, fields8]
  simp only [toNat_beside, BitVec.toNat_ofBool, BitVec.reduceToNat]
  omega
theorem addi (h : Hdr) (d : Reg) (a : Reg) (imm : BitVec 10) : Statement (.addi h d a imm) := by
  intro w hw; cases hw
  rw [show Sys2Proof.encode (.addi h d a imm) = wI h.stop 0x0A h.guard d a imm from rfl, wI_toNat, fields5]
  simp only [BitVec.reduceToNat]
  omega
theorem andi (h : Hdr) (d : Reg) (a : Reg) (imm : BitVec 7) : Statement (.andi h d a imm) := by
  intro w hw; cases hw
  rw [show Sys2Proof.encode (.andi h d a imm) = wI h.stop 0x0B h.guard d a ((0 : BitVec 3) ++ imm) from rfl, wI_toNat, fields5]
  simp only [toNat_beside, BitVec.reduceToNat]
  omega
theorem ori (h : Hdr) (d : Reg) (a : Reg) (imm : BitVec 7) : Statement (.ori h d a imm) := by
  intro w hw; cases hw
  rw [show Sys2Proof.encode (.ori h d a imm) = wI h.stop 0x0B h.guard d a ((1 : BitVec 3) ++ imm) from rfl, wI_toNat, fields5]
  simp only [toNat_beside, BitVec.reduceToNat]
  omega
theorem xori (h : Hdr) (d : Reg) (a : Reg) (imm : BitVec 7) : Statement (.xori h d a imm) := by
  intro w hw; cases hw
  rw [show Sys2Proof.encode (.xori h d a imm) = wI h.stop 0x0B h.guard d a ((2 : BitVec 3) ++ imm) from rfl, wI_toNat, fields5]
  simp only [toNat_beside, BitVec.reduceToNat]
  omega
theorem shli (h : Hdr) (d : Reg) (a : Reg) (imm : BitVec 6) : Statement (.shli h d a imm) := by
  intro w hw; cases hw
  rw [show Sys2Proof.encode (.shli h d a imm) = wI h.stop 0x0B h.guard d a (immShift 3 imm) from rfl, wI_toNat, fields5]
  simp only [toNat_beside, immShift, BitVec.reduceToNat]
  omega
theorem shri (h : Hdr) (d : Reg) (a : Reg) (imm : BitVec 6) : Statement (.shri h d a imm) := by
  intro w hw; cases hw
  rw [show Sys2Proof.encode (.shri h d a imm) = wI h.stop 0x0B h.guard d a (immShift 4 imm) from rfl, wI_toNat, fields5]
  simp only [toNat_beside, immShift, BitVec.reduceToNat]
  omega
theorem shrai (h : Hdr) (d : Reg) (a : Reg) (imm : BitVec 6) : Statement (.shrai h d a imm) := by
  intro w hw; cases hw
  rw [show Sys2Proof.encode (.shrai h d a imm) = wI h.stop 0x0B h.guard d a (immShift 5 imm) from rfl, wI_toNat, fields5]
  simp only [toNat_beside, immShift, BitVec.reduceToNat]
  omega
theorem roti (h : Hdr) (d : Reg) (a : Reg) (imm : BitVec 6) : Statement (.roti h d a imm) := by
  intro w hw; cases hw
  rw [show Sys2Proof.encode (.roti h d a imm) = wI h.stop 0x0B h.guard d a (immShift 6 imm) from rfl, wI_toNat, fields5]
  simp only [toNat_beside, immShift, BitVec.reduceToNat]
  omega
theorem movlLo (stop : Bool) (d : Reg) (imm : BitVec 16) : Statement (.movlLo stop d imm) := by
  intro w hw; cases hw
  rw [show Sys2Proof.encode (.movlLo stop d imm) = wL stop 0x0C d ((0 : BitVec 3) ++ imm) from rfl, wL_toNat, fields3]
  simp only [toNat_beside, BitVec.reduceToNat]
  omega
theorem movlHi (stop : Bool) (d : Reg) (imm : BitVec 16) : Statement (.movlHi stop d imm) := by
  intro w hw; cases hw
  rw [show Sys2Proof.encode (.movlHi stop d imm) = wL stop 0x0C d ((4 : BitVec 3) ++ imm) from rfl, wL_toNat, fields3]
  simp only [toNat_beside, BitVec.reduceToNat]
  omega
theorem pand (h : Hdr) (pd : BitVec 3) (pa : BitVec 3) (pb : BitVec 3) : Statement (.pand h pd pa pb) := by
  intro w hw; cases hw
  rw [show Sys2Proof.encode (.pand h pd pa pb) = wT h.stop 0x0D 0 h.guard (z7 pd) (z7 pa) (z7 pb) from rfl, wT_toNat, fields5]
  simp only [z7_toNat (by decide : 3 ≤ 7), BitVec.reduceToNat]
  omega
theorem por (h : Hdr) (pd : BitVec 3) (pa : BitVec 3) (pb : BitVec 3) : Statement (.por h pd pa pb) := by
  intro w hw; cases hw
  rw [show Sys2Proof.encode (.por h pd pa pb) = wT h.stop 0x0D 1 h.guard (z7 pd) (z7 pa) (z7 pb) from rfl, wT_toNat, fields5]
  simp only [z7_toNat (by decide : 3 ≤ 7), BitVec.reduceToNat]
  omega
theorem pxor (h : Hdr) (pd : BitVec 3) (pa : BitVec 3) (pb : BitVec 3) : Statement (.pxor h pd pa pb) := by
  intro w hw; cases hw
  rw [show Sys2Proof.encode (.pxor h pd pa pb) = wT h.stop 0x0D 2 h.guard (z7 pd) (z7 pa) (z7 pb) from rfl, wT_toNat, fields5]
  simp only [z7_toNat (by decide : 3 ≤ 7), BitVec.reduceToNat]
  omega
theorem pnot (h : Hdr) (pd : BitVec 3) (pa : BitVec 3) : Statement (.pnot h pd pa) := by
  intro w hw; cases hw
  rw [show Sys2Proof.encode (.pnot h pd pa) = wT h.stop 0x0D 3 h.guard (z7 pd) (z7 pa) 0 from rfl, wT_toNat, fields4]
  simp only [z7_toNat (by decide : 3 ≤ 7), BitVec.reduceToNat]
  omega
theorem sel (h : Hdr) (d : Reg) (a : Reg) (b : Reg) : Statement (.sel h d a b) := by
  intro w hw; cases hw
  rw [show Sys2Proof.encode (.sel h d a b) = wT h.stop 0x0D 4 h.guard d a b from rfl, wT_toNat, fields5]
  simp only [BitVec.reduceToNat]
  omega
theorem movp (h : Hdr) (d : Reg) (pa : BitVec 3) : Statement (.movp h d pa) := by
  intro w hw; cases hw
  rw [show Sys2Proof.encode (.movp h d pa) = wT h.stop 0x0D 5 h.guard d (z7 pa) 0 from rfl, wT_toNat, fields4]
  simp only [z7_toNat (by decide : 3 ≤ 7), BitVec.reduceToNat]
  omega
theorem pset (h : Hdr) (pd : BitVec 3) (a : Reg) : Statement (.pset h pd a) := by
  intro w hw; cases hw
  rw [show Sys2Proof.encode (.pset h pd a) = wT h.stop 0x0D 6 h.guard (z7 pd) a 0 from rfl, wT_toNat, fields4]
  simp only [z7_toNat (by decide : 3 ≤ 7), BitVec.reduceToNat]
  omega
theorem fadd (h : Hdr) (d : Reg) (a : Reg) (b : Reg) : Statement (.fadd h d a b) := by
  intro w hw; cases hw
  rw [show Sys2Proof.encode (.fadd h d a b) = wT h.stop 0x0E 0 h.guard d a b from rfl, wT_toNat, fields5]
  simp only [BitVec.reduceToNat]
  omega
theorem fsub (h : Hdr) (d : Reg) (a : Reg) (b : Reg) : Statement (.fsub h d a b) := by
  intro w hw; cases hw
  rw [show Sys2Proof.encode (.fsub h d a b) = wT h.stop 0x0E 1 h.guard d a b from rfl, wT_toNat, fields5]
  simp only [BitVec.reduceToNat]
  omega
theorem fmul (h : Hdr) (d : Reg) (a : Reg) (b : Reg) : Statement (.fmul h d a b) := by
  intro w hw; cases hw
  rw [show Sys2Proof.encode (.fmul h d a b) = wT h.stop 0x0E 2 h.guard d a b from rfl, wT_toNat, fields5]
  simp only [BitVec.reduceToNat]
  omega
theorem fmin (h : Hdr) (d : Reg) (a : Reg) (b : Reg) : Statement (.fmin h d a b) := by
  intro w hw; cases hw
  rw [show Sys2Proof.encode (.fmin h d a b) = wT h.stop 0x0E 3 h.guard d a b from rfl, wT_toNat, fields5]
  simp only [BitVec.reduceToNat]
  omega
theorem fmax (h : Hdr) (d : Reg) (a : Reg) (b : Reg) : Statement (.fmax h d a b) := by
  intro w hw; cases hw
  rw [show Sys2Proof.encode (.fmax h d a b) = wT h.stop 0x0E 4 h.guard d a b from rfl, wT_toNat, fields5]
  simp only [BitVec.reduceToNat]
  omega
theorem fcmp (h : Hdr) (cmp : BitVec 3) (pd : BitVec 3) (a : Reg) (b : Reg) : Statement (.fcmp h cmp pd a b) := by
  intro w hw; cases hw
  rw [show Sys2Proof.encode (.fcmp h cmp pd a b) = wT h.stop 0x0E 5 h.guard ((0 : BitVec 1) ++ cmp ++ pd) a b from rfl, wT_toNat, fields6]
  simp only [toNat_beside, BitVec.reduceToNat]
  omega
theorem ffma (h : Hdr) (d : Reg) (a : Reg) (b : Reg) : Statement (.ffma h d a b) := by
  intro w hw; cases hw
  rw [show Sys2Proof.encode (.ffma h d a b) = wT h.stop 0x0F 0 h.guard d a b from rfl, wT_toNat, fields5]
  simp only [BitVec.reduceToNat]
  omega
theorem ffms (h : Hdr) (d : Reg) (a : Reg) (b : Reg) : Statement (.ffms h d a b) := by
  intro w hw; cases hw
  rw [show Sys2Proof.encode (.ffms h d a b) = wT h.stop 0x0F 1 h.guard d a b from rfl, wT_toNat, fields5]
  simp only [BitVec.reduceToNat]
  omega
theorem fnma (h : Hdr) (d : Reg) (a : Reg) (b : Reg) : Statement (.fnma h d a b) := by
  intro w hw; cases hw
  rw [show Sys2Proof.encode (.fnma h d a b) = wT h.stop 0x0F 2 h.guard d a b from rfl, wT_toNat, fields5]
  simp only [BitVec.reduceToNat]
  omega
theorem pkfma (h : Hdr) (d : Reg) (a : Reg) (b : Reg) : Statement (.pkfma h d a b) := by
  intro w hw; cases hw
  rw [show Sys2Proof.encode (.pkfma h d a b) = wT h.stop 0x0F 3 h.guard d a b from rfl, wT_toNat, fields5]
  simp only [BitVec.reduceToNat]
  omega
theorem frcp (h : Hdr) (d : Reg) (a : Reg) : Statement (.frcp h d a) := by
  intro w hw; cases hw
  rw [show Sys2Proof.encode (.frcp h d a) = wT h.stop 0x10 0 h.guard d a 0 from rfl, wT_toNat, fields4]
  simp only [BitVec.reduceToNat]
  omega
theorem frsq (h : Hdr) (d : Reg) (a : Reg) : Statement (.frsq h d a) := by
  intro w hw; cases hw
  rw [show Sys2Proof.encode (.frsq h d a) = wT h.stop 0x10 1 h.guard d a 0 from rfl, wT_toNat, fields4]
  simp only [BitVec.reduceToNat]
  omega
theorem fsqrt (h : Hdr) (d : Reg) (a : Reg) : Statement (.fsqrt h d a) := by
  intro w hw; cases hw
  rw [show Sys2Proof.encode (.fsqrt h d a) = wT h.stop 0x10 2 h.guard d a 0 from rfl, wT_toNat, fields4]
  simp only [BitVec.reduceToNat]
  omega
theorem fexp2 (h : Hdr) (d : Reg) (a : Reg) : Statement (.fexp2 h d a) := by
  intro w hw; cases hw
  rw [show Sys2Proof.encode (.fexp2 h d a) = wT h.stop 0x10 3 h.guard d a 0 from rfl, wT_toNat, fields4]
  simp only [BitVec.reduceToNat]
  omega
theorem flog2 (h : Hdr) (d : Reg) (a : Reg) : Statement (.flog2 h d a) := by
  intro w hw; cases hw
  rw [show Sys2Proof.encode (.flog2 h d a) = wT h.stop 0x10 4 h.guard d a 0 from rfl, wT_toNat, fields4]
  simp only [BitVec.reduceToNat]
  omega
theorem fsin (h : Hdr) (d : Reg) (a : Reg) : Statement (.fsin h d a) := by
  intro w hw; cases hw
  rw [show Sys2Proof.encode (.fsin h d a) = wT h.stop 0x10 5 h.guard d a 0 from rfl, wT_toNat, fields4]
  simp only [BitVec.reduceToNat]
  omega
theorem fcos (h : Hdr) (d : Reg) (a : Reg) : Statement (.fcos h d a) := by
  intro w hw; cases hw
  rw [show Sys2Proof.encode (.fcos h d a) = wT h.stop 0x10 6 h.guard d a 0 from rfl, wT_toNat, fields4]
  simp only [BitVec.reduceToNat]
  omega
theorem frnd (h : Hdr) (d : Reg) (a : Reg) (mode : BitVec 2) : Statement (.frnd h d a mode) := by
  intro w hw; cases hw
  rw [show Sys2Proof.encode (.frnd h d a mode) = wT h.stop 0x10 7 h.guard d a (z7 mode) from rfl, wT_toNat, fields5]
  simp only [z7_toNat (by decide : 2 ≤ 7), BitVec.reduceToNat]
  omega
theorem cvt (h : Hdr) (src : BitVec 3) (d : Reg) (a : Reg) (dst : BitVec 5) (mode : BitVec 2) : Statement (.cvt h src d a dst mode) := by
  intro w hw; cases hw
  rw [show Sys2Proof.encode (.cvt h src d a dst mode) = wT h.stop 0x11 src h.guard d a (mode ++ dst) from rfl, wT_toNat, fields7]
  simp only [toNat_beside, BitVec.reduceToNat]
  omega
theorem pkadd (h : Hdr) (d : Reg) (a : Reg) (b : Reg) : Statement (.pkadd h d a b) := by
  intro w hw; cases hw
  rw [show Sys2Proof.encode (.pkadd h d a b) = wT h.stop 0x12 0 h.guard d a b from rfl, wT_toNat, fields5]
  simp only [BitVec.reduceToNat]
  omega
theorem pkmul (h : Hdr) (d : Reg) (a : Reg) (b : Reg) : Statement (.pkmul h d a b) := by
  intro w hw; cases hw
  rw [show Sys2Proof.encode (.pkmul h d a b) = wT h.stop 0x12 1 h.guard d a b from rfl, wT_toNat, fields5]
  simp only [BitVec.reduceToNat]
  omega
theorem spk (h : Hdr) (d : Reg) (a : Reg) : Statement (.spk h d a) := by
  intro w hw; cases hw
  rw [show Sys2Proof.encode (.spk h d a) = wT h.stop 0x12 2 h.guard d a 0 from rfl, wT_toNat, fields4]
  simp only [BitVec.reduceToNat]
  omega
theorem cvtbd (h : Hdr) (d : Reg) (a : Reg) (b : Reg) : Statement (.cvtbd h d a b) := by
  intro w hw; cases hw
  rw [show Sys2Proof.encode (.cvtbd h d a b) = wT h.stop 0x12 3 h.guard d a b from rfl, wT_toNat, fields5]
  simp only [BitVec.reduceToNat]
  omega
theorem ld (h : Hdr) (w : BitVec 3) (d : Reg) (a : Reg) (off : BitVec 7) : Statement (.ld h w d a off) := by
  intro w hw; cases hw
  rw [show Sys2Proof.encode (.ld h w d a off) = wT h.stop 0x13 w h.guard d a off from rfl, wT_toNat, fields6]
  simp only [BitVec.reduceToNat]
  omega
theorem st (h : Hdr) (w : BitVec 3) (d : Reg) (a : Reg) (off : BitVec 7) : Statement (.st h w d a off) := by
  intro w hw; cases hw
  rw [show Sys2Proof.encode (.st h w d a off) = wT h.stop 0x14 w h.guard d a off from rfl, wT_toNat, fields6]
  simp only [BitVec.reduceToNat]
  omega
theorem ldd (h : Hdr) (w : BitVec 2) (d : Reg) (a : Reg) (off : BitVec 7) : Statement (.ldd h w d a off) := by
  intro w hw; cases hw
  rw [show Sys2Proof.encode (.ldd h w d a off) = wT h.stop 0x15 ((0 : BitVec 1) ++ w) h.guard d a off from rfl, wT_toNat, fields6]
  simp only [toNat_beside, BitVec.reduceToNat]
  omega
theorem std (h : Hdr) (w : BitVec 2) (d : Reg) (a : Reg) (off : BitVec 7) : Statement (.std h w d a off) := by
  intro w hw; cases hw
  rw [show Sys2Proof.encode (.std h w d a off) = wT h.stop 0x15 ((0 : BitVec 1) ++ w + 3) h.guard d a off from rfl, wT_toNat, fields6]
  simp only [toNat_beside, BitVec.toNat_add, BitVec.reduceToNat]
  omega
theorem cpAsync (h : Hdr) (d : Reg) (a : Reg) (tag : BitVec 2) (keep : Bool) : Statement (.cpAsync h d a tag keep) := by
  intro w hw; cases hw
  rw [show Sys2Proof.encode (.cpAsync h d a tag keep) = wT h.stop 0x16 0 h.guard d a ((0 : BitVec 4) ++ BitVec.ofBool keep ++ tag) from rfl, wT_toNat, fields6]
  simp only [toNat_beside, BitVec.toNat_ofBool, BitVec.reduceToNat]
  omega
theorem cpPlane (h : Hdr) (d : Reg) (a : Reg) (tag : BitVec 2) (keep : Bool) : Statement (.cpPlane h d a tag keep) := by
  intro w hw; cases hw
  rw [show Sys2Proof.encode (.cpPlane h d a tag keep) = wT h.stop 0x16 1 h.guard d a ((0 : BitVec 4) ++ BitVec.ofBool keep ++ tag) from rfl, wT_toNat, fields6]
  simp only [toNat_beside, BitVec.toNat_ofBool, BitVec.reduceToNat]
  omega
theorem cpOut (h : Hdr) (d : Reg) (a : Reg) (tag : BitVec 2) : Statement (.cpOut h d a tag) := by
  intro w hw; cases hw
  rw [show Sys2Proof.encode (.cpOut h d a tag) = wT h.stop 0x16 2 h.guard d a (z7 tag) from rfl, wT_toNat, fields5]
  simp only [z7_toNat (by decide : 2 ≤ 7), BitVec.reduceToNat]
  omega
theorem tagwait (g : BitVec 2) (k : BitVec 2) (n : BitVec 5) : Statement (.tagwait g k n) := by
  intro w hw; cases hw
  rw [show Sys2Proof.encode (.tagwait g k n) = wT true 0x16 3 g 0 0 (n ++ k) from rfl, wT_toNat, fields3]
  simp only [toNat_beside, BitVec.reduceToNat, Bool.toNat_true]
  omega
theorem tagget (h : Hdr) (d : Reg) (k : BitVec 2) : Statement (.tagget h d k) := by
  intro w hw; cases hw
  rw [show Sys2Proof.encode (.tagget h d k) = wT h.stop 0x16 4 h.guard d 0 (z7 k) from rfl, wT_toNat, fields4]
  simp only [z7_toNat (by decide : 2 ≤ 7), BitVec.reduceToNat]
  omega
theorem pref (h : Hdr) (a : Reg) (off : BitVec 7) : Statement (.pref h a off) := by
  intro w hw; cases hw
  rw [show Sys2Proof.encode (.pref h a off) = wT h.stop 0x16 5 h.guard 0 a off from rfl, wT_toNat, fields4]
  simp only [BitVec.reduceToNat]
  omega
theorem accrd (h : Hdr) (d : Reg) (a : Reg) (t : BitVec 4) (fmt : BitVec 3) : Statement (.accrd h d a t fmt) := by
  intro w hw; cases hw
  rw [show Sys2Proof.encode (.accrd h d a t fmt) = wT h.stop 0x16 6 h.guard d a (fmt ++ t) from rfl, wT_toNat, fields6]
  simp only [toNat_beside, BitVec.reduceToNat]
  omega
theorem accwr (h : Hdr) (d : Reg) (a : Reg) (t : BitVec 4) (fmt : BitVec 3) : Statement (.accwr h d a t fmt) := by
  intro w hw; cases hw
  rw [show Sys2Proof.encode (.accwr h d a t fmt) = wT h.stop 0x16 7 h.guard d a (fmt ++ t) from rfl, wT_toNat, fields6]
  simp only [toNat_beside, BitVec.reduceToNat]
  omega
theorem atom (h : Hdr) (op : BitVec 3) (d : Reg) (a : Reg) (ty : BitVec 2) (sc : BitVec 2) (ret : Bool) : Statement (.atom h op d a ty sc ret) := by
  intro w hw; cases hw
  rw [show Sys2Proof.encode (.atom h op d a ty sc ret) = wT h.stop 0x17 op h.guard d a ((0 : BitVec 1) ++ BitVec.ofBool ret ++ sc ++ ty ++ (0 : BitVec 1)) from rfl, wT_toNat, fields8]
  simp only [toNat_beside, BitVec.toNat_ofBool, BitVec.reduceToNat]
  omega
theorem atomb (h : Hdr) (op : BitVec 3) (d : Reg) (a : Reg) (ty : BitVec 2) (sc : BitVec 2) : Statement (.atomb h op d a ty sc) := by
  intro w hw; cases hw
  rw [show Sys2Proof.encode (.atomb h op d a ty sc) = wT h.stop 0x17 op h.guard d a ((0 : BitVec 2) ++ sc ++ ty ++ (1 : BitVec 1)) from rfl, wT_toNat, fields7]
  simp only [toNat_beside, BitVec.reduceToNat]
  omega
theorem fence (h : Hdr) (sc : BitVec 2) (kind : BitVec 2) : Statement (.fence h sc kind) := by
  intro w hw; cases hw
  rw [show Sys2Proof.encode (.fence h sc kind) = wT h.stop 0x18 0 h.guard 0 0 ((0 : BitVec 3) ++ kind ++ sc) from rfl, wT_toNat, fields4]
  simp only [toNat_beside, BitVec.reduceToNat]
  omega
theorem ldacq (h : Hdr) (d : Reg) (a : Reg) (sc : BitVec 2) (b64 : Bool) : Statement (.ldacq h d a sc b64) := by
  intro w hw; cases hw
  rw [show Sys2Proof.encode (.ldacq h d a sc b64) = wT h.stop 0x18 1 h.guard d a ((0 : BitVec 4) ++ BitVec.ofBool b64 ++ sc) from rfl, wT_toNat, fields6]
  simp only [toNat_beside, BitVec.toNat_ofBool, BitVec.reduceToNat]
  omega
theorem strel (h : Hdr) (d : Reg) (a : Reg) (sc : BitVec 2) (b64 : Bool) : Statement (.strel h d a sc b64) := by
  intro w hw; cases hw
  rw [show Sys2Proof.encode (.strel h d a sc b64) = wT h.stop 0x18 2 h.guard d a ((0 : BitVec 4) ++ BitVec.ofBool b64 ++ sc) from rfl, wT_toNat, fields6]
  simp only [toNat_beside, BitVec.toNat_ofBool, BitVec.reduceToNat]
  omega
theorem acqr (h : Hdr) (a : Reg) : Statement (.acqr h a) := by
  intro w hw; cases hw
  rw [show Sys2Proof.encode (.acqr h a) = wT h.stop 0x18 3 h.guard 0 a 0 from rfl, wT_toNat, fields3]
  simp only [BitVec.reduceToNat]
  omega
theorem aflush (h : Hdr) : Statement (.aflush h) := by
  intro w hw; cases hw
  rw [show Sys2Proof.encode (.aflush h) = wT h.stop 0x18 4 h.guard 0 0 0 from rfl, wT_toNat, fields2]
  simp only [BitVec.reduceToNat]
  omega
theorem sample (h : Hdr) (d : Reg) (a : Reg) (slot : BitVec 7) : Statement (.sample h d a slot) := by
  intro w hw; cases hw
  rw [show Sys2Proof.encode (.sample h d a slot) = wT h.stop 0x19 0 h.guard d a slot from rfl, wT_toNat, fields5]
  simp only [BitVec.reduceToNat]
  omega
theorem sampleg (h : Hdr) (d : Reg) (a : Reg) (slot : BitVec 7) : Statement (.sampleg h d a slot) := by
  intro w hw; cases hw
  rw [show Sys2Proof.encode (.sampleg h d a slot) = wT h.stop 0x19 1 h.guard d a slot from rfl, wT_toNat, fields5]
  simp only [BitVec.reduceToNat]
  omega
theorem sload (h : Hdr) (d : Reg) (a : Reg) (slot : BitVec 7) : Statement (.sload h d a slot) := by
  intro w hw; cases hw
  rw [show Sys2Proof.encode (.sload h d a slot) = wT h.stop 0x19 2 h.guard d a slot from rfl, wT_toNat, fields5]
  simp only [BitVec.reduceToNat]
  omega
theorem hinv (h : Hdr) (slot : BitVec 7) : Statement (.hinv h slot) := by
  intro w hw; cases hw
  rw [show Sys2Proof.encode (.hinv h slot) = wT h.stop 0x19 3 h.guard 0 0 slot from rfl, wT_toNat, fields3]
  simp only [BitVec.reduceToNat]
  omega
theorem wpin (h : Hdr) (slot : BitVec 7) : Statement (.wpin h slot) := by
  intro w hw; cases hw
  rw [show Sys2Proof.encode (.wpin h slot) = wT h.stop 0x19 4 h.guard 0 0 slot from rfl, wT_toNat, fields3]
  simp only [BitVec.reduceToNat]
  omega
theorem wunpin (h : Hdr) (slot : BitVec 7) : Statement (.wunpin h slot) := by
  intro w hw; cases hw
  rw [show Sys2Proof.encode (.wunpin h slot) = wT h.stop 0x19 5 h.guard 0 0 slot from rfl, wT_toNat, fields3]
  simp only [BitVec.reduceToNat]
  omega
theorem smma (h : Hdr) (d : Reg) (a : Reg) (f : Reg) : Statement (.smma h d a f) := by
  intro w hw; cases hw
  rw [show Sys2Proof.encode (.smma h d a f) = wT h.stop 0x19 6 h.guard d a f from rfl, wT_toNat, fields5]
  simp only [BitVec.reduceToNat]
  omega
theorem mxIssue (h : Hdr) (a : Reg) : Statement (.mxIssue h a) := by
  intro w hw; cases hw
  rw [show Sys2Proof.encode (.mxIssue h a) = wT h.stop 0x1A 0 h.guard 0 a 0 from rfl, wT_toNat, fields3]
  simp only [BitVec.reduceToNat]
  omega
theorem mxZero (h : Hdr) (t : BitVec 4) (k : BitVec 2) : Statement (.mxZero h t k) := by
  intro w hw; cases hw
  rw [show Sys2Proof.encode (.mxZero h t k) = wT h.stop 0x1A 1 h.guard 0 0 ((0 : BitVec 1) ++ k ++ t) from rfl, wT_toNat, fields4]
  simp only [toNat_beside, BitVec.reduceToNat]
  omega
theorem hopen (h : Hdr) (d : Reg) (pf : BitVec 3) : Statement (.hopen h d pf) := by
  intro w hw; cases hw
  rw [show Sys2Proof.encode (.hopen h d pf) = wT h.stop 0x1B 0 h.guard d 0 (z7 pf) from rfl, wT_toNat, fields4]
  simp only [z7_toNat (by decide : 3 ≤ 7), BitVec.reduceToNat]
  omega
theorem hset (h : Hdr) (a : Reg) : Statement (.hset h a) := by
  intro w hw; cases hw
  rw [show Sys2Proof.encode (.hset h a) = wT h.stop 0x1B 1 h.guard 0 a 0 from rfl, wT_toNat, fields3]
  simp only [BitVec.reduceToNat]
  omega
theorem hget (h : Hdr) (d : Reg) : Statement (.hget h d) := by
  intro w hw; cases hw
  rw [show Sys2Proof.encode (.hget h d) = wT h.stop 0x1B 2 h.guard d 0 0 from rfl, wT_toNat, fields3]
  simp only [BitVec.reduceToNat]
  omega
theorem hconfirm (h : Hdr) (a : Reg) : Statement (.hconfirm h a) := by
  intro w hw; cases hw
  rw [show Sys2Proof.encode (.hconfirm h a) = wT h.stop 0x1B 3 h.guard 0 a 0 from rfl, wT_toNat, fields3]
  simp only [BitVec.reduceToNat]
  omega
theorem hrefute (h : Hdr) (a : Reg) : Statement (.hrefute h a) := by
  intro w hw; cases hw
  rw [show Sys2Proof.encode (.hrefute h a) = wT h.stop 0x1B 4 h.guard 0 a 0 from rfl, wT_toNat, fields3]
  simp only [BitVec.reduceToNat]
  omega
theorem hstate (h : Hdr) (d : Reg) (a : Reg) : Statement (.hstate h d a) := by
  intro w hw; cases hw
  rw [show Sys2Proof.encode (.hstate h d a) = wT h.stop 0x1B 5 h.guard d a 0 from rfl, wT_toNat, fields4]
  simp only [BitVec.reduceToNat]
  omega
theorem horphan (h : Hdr) (a : Reg) : Statement (.horphan h a) := by
  intro w hw; cases hw
  rw [show Sys2Proof.encode (.horphan h a) = wT h.stop 0x1B 6 h.guard 0 a 0 from rfl, wT_toNat, fields3]
  simp only [BitVec.reduceToNat]
  omega
theorem taskout (h : Hdr) (a : Reg) (c : Reg) : Statement (.taskout h a c) := by
  intro w hw; cases hw
  rw [show Sys2Proof.encode (.taskout h a c) = wT h.stop 0x1C 0 h.guard 0 a c from rfl, wT_toNat, fields4]
  simp only [BitVec.reduceToNat]
  omega
theorem vtxout (h : Hdr) (a : Reg) (slot : BitVec 6) : Statement (.vtxout h a slot) := by
  intro w hw; cases hw
  rw [show Sys2Proof.encode (.vtxout h a slot) = wT h.stop 0x1C 1 h.guard 0 a (z7 slot) from rfl, wT_toNat, fields4]
  simp only [z7_toNat (by decide : 6 ≤ 7), BitVec.reduceToNat]
  omega
theorem primout (h : Hdr) (a : Reg) : Statement (.primout h a) := by
  intro w hw; cases hw
  rw [show Sys2Proof.encode (.primout h a) = wT h.stop 0x1C 2 h.guard 0 a 0 from rfl, wT_toNat, fields3]
  simp only [BitVec.reduceToNat]
  omega
theorem pixout (h : Hdr) (a : Reg) (t : BitVec 3) : Statement (.pixout h a t) := by
  intro w hw; cases hw
  rw [show Sys2Proof.encode (.pixout h a t) = wT h.stop 0x1C 3 h.guard 0 a (z7 t) from rfl, wT_toNat, fields4]
  simp only [z7_toNat (by decide : 3 ≤ 7), BitVec.reduceToNat]
  omega
theorem kill (h : Hdr) : Statement (.kill h) := by
  intro w hw; cases hw
  rw [show Sys2Proof.encode (.kill h) = wT h.stop 0x1C 4 h.guard 0 0 0 from rfl, wT_toNat, fields2]
  simp only [BitVec.reduceToNat]
  omega
theorem cmdLo (lo : Word) : Statement (.cmdLo lo) := by intro w hw; cases hw
theorem beadGoOpNone (v : Word) : Statement (.beadGoOpNone v) := by intro w hw; cases hw

end Sys2Proof.Laws.TableWord
end

