-- ==== Sys2Proof/Laws/State.lean ====
section
/-! SUPPORT. Every field of State after each named update: one statement per update, its parts true by rfl, so that no later
proof unfolds a record update. -/

namespace Sys2Proof.Machine

/-- The fields of a state after `setCtx`. -/
@[simp] theorem State.setCtx_fields (s : State) (c : Ctx) :
    (s.setCtx c).start = s.start ∧ (s.setCtx c).ns = s.ns ∧ (s.setCtx c).cycle = s.cycle ∧ (s.setCtx c).cycRem = s.cycRem ∧
    (s.setCtx c).clockMHz = s.clockMHz ∧ (s.setCtx c).throttled = s.throttled ∧ (s.setCtx c).cmd = s.cmd ∧
    (s.setCtx c).floors = s.floors ∧ (s.setCtx c).tlbi = s.tlbi ∧ (s.setCtx c).tlb = s.tlb ∧ (s.setCtx c).bead = s.bead ∧
    (s.setCtx c).ceCount = s.ceCount ∧ (s.setCtx c).ueCount = s.ueCount ∧ (s.setCtx c).ueAddr = s.ueAddr ∧
    (s.setCtx c).ctxs = putBy (·.num == c.num) c s.ctxs ∧ (s.setCtx c).cfault = s.cfault ∧ (s.setCtx c).queues = s.queues ∧
    (s.setCtx c).handregs = s.handregs ∧ (s.setCtx c).vectors = s.vectors ∧ (s.setCtx c).packets = s.packets ∧
    (s.setCtx c).handovers = s.handovers ∧ (s.setCtx c).launches = s.launches ∧ (s.setCtx c).teams = s.teams ∧
    (s.setCtx c).flight = s.flight ∧ (s.setCtx c).issue = s.issue ∧ (s.setCtx c).masts = s.masts ∧ (s.setCtx c).mem = s.mem ∧
    (s.setCtx c).poison = s.poison ∧ (s.setCtx c).nsec = s.nsec ∧ (s.setCtx c).dirtyComp = s.dirtyComp ∧
    (s.setCtx c).hostCache = s.hostCache ∧ (s.setCtx c).l2 = s.l2 ∧ (s.setCtx c).wlog = s.wlog ∧
    (s.setCtx c).peers = s.peers ∧ (s.setCtx c).asyncs = s.asyncs ∧ (s.setCtx c).running = s.running ∧
    (s.setCtx c).streams = s.streams ∧ (s.setCtx c).hostData = s.hostData ∧ (s.setCtx c).agenda = s.agenda ∧
    (s.setCtx c).tick = s.tick ∧ (s.setCtx c).free = s.free ∧ (s.setCtx c).nextId = s.nextId ∧
    (s.setCtx c).roundAt = s.roundAt := by
  and_intros <;> rfl

/-- The fields of a state after `setQueue`. -/
@[simp] theorem State.setQueue_fields (s : State) (q : Queue) :
    (s.setQueue q).start = s.start ∧ (s.setQueue q).ns = s.ns ∧ (s.setQueue q).cycle = s.cycle ∧
    (s.setQueue q).cycRem = s.cycRem ∧ (s.setQueue q).clockMHz = s.clockMHz ∧ (s.setQueue q).throttled = s.throttled ∧
    (s.setQueue q).cmd = s.cmd ∧ (s.setQueue q).floors = s.floors ∧ (s.setQueue q).tlbi = s.tlbi ∧
    (s.setQueue q).tlb = s.tlb ∧ (s.setQueue q).bead = s.bead ∧ (s.setQueue q).ceCount = s.ceCount ∧
    (s.setQueue q).ueCount = s.ueCount ∧ (s.setQueue q).ueAddr = s.ueAddr ∧ (s.setQueue q).ctxs = s.ctxs ∧
    (s.setQueue q).cfault = s.cfault ∧ (s.setQueue q).queues = putBy (·.num == q.num) q s.queues ∧
    (s.setQueue q).handregs = s.handregs ∧ (s.setQueue q).vectors = s.vectors ∧ (s.setQueue q).packets = s.packets ∧
    (s.setQueue q).handovers = s.handovers ∧ (s.setQueue q).launches = s.launches ∧ (s.setQueue q).teams = s.teams ∧
    (s.setQueue q).flight = s.flight ∧ (s.setQueue q).issue = s.issue ∧ (s.setQueue q).masts = s.masts ∧
    (s.setQueue q).mem = s.mem ∧ (s.setQueue q).poison = s.poison ∧ (s.setQueue q).nsec = s.nsec ∧
    (s.setQueue q).dirtyComp = s.dirtyComp ∧ (s.setQueue q).hostCache = s.hostCache ∧ (s.setQueue q).l2 = s.l2 ∧
    (s.setQueue q).wlog = s.wlog ∧ (s.setQueue q).peers = s.peers ∧ (s.setQueue q).asyncs = s.asyncs ∧
    (s.setQueue q).running = s.running ∧ (s.setQueue q).streams = s.streams ∧ (s.setQueue q).hostData = s.hostData ∧
    (s.setQueue q).agenda = s.agenda ∧ (s.setQueue q).tick = s.tick ∧ (s.setQueue q).free = s.free ∧
    (s.setQueue q).nextId = s.nextId ∧ (s.setQueue q).roundAt = s.roundAt := by
  and_intros <;> rfl

/-- The fields of a state after `setPacket`. -/
@[simp] theorem State.setPacket_fields (s : State) (p : Packet) :
    (s.setPacket p).start = s.start ∧ (s.setPacket p).ns = s.ns ∧ (s.setPacket p).cycle = s.cycle ∧
    (s.setPacket p).cycRem = s.cycRem ∧ (s.setPacket p).clockMHz = s.clockMHz ∧ (s.setPacket p).throttled = s.throttled ∧
    (s.setPacket p).cmd = s.cmd ∧ (s.setPacket p).floors = s.floors ∧ (s.setPacket p).tlbi = s.tlbi ∧
    (s.setPacket p).tlb = s.tlb ∧ (s.setPacket p).bead = s.bead ∧ (s.setPacket p).ceCount = s.ceCount ∧
    (s.setPacket p).ueCount = s.ueCount ∧ (s.setPacket p).ueAddr = s.ueAddr ∧ (s.setPacket p).ctxs = s.ctxs ∧
    (s.setPacket p).cfault = s.cfault ∧ (s.setPacket p).queues = s.queues ∧ (s.setPacket p).handregs = s.handregs ∧
    (s.setPacket p).vectors = s.vectors ∧ (s.setPacket p).packets = putBy (·.id == p.id) p s.packets ∧
    (s.setPacket p).handovers = s.handovers ∧ (s.setPacket p).launches = s.launches ∧ (s.setPacket p).teams = s.teams ∧
    (s.setPacket p).flight = s.flight ∧ (s.setPacket p).issue = s.issue ∧ (s.setPacket p).masts = s.masts ∧
    (s.setPacket p).mem = s.mem ∧ (s.setPacket p).poison = s.poison ∧ (s.setPacket p).nsec = s.nsec ∧
    (s.setPacket p).dirtyComp = s.dirtyComp ∧ (s.setPacket p).hostCache = s.hostCache ∧ (s.setPacket p).l2 = s.l2 ∧
    (s.setPacket p).wlog = s.wlog ∧ (s.setPacket p).peers = s.peers ∧ (s.setPacket p).asyncs = s.asyncs ∧
    (s.setPacket p).running = s.running ∧ (s.setPacket p).streams = s.streams ∧ (s.setPacket p).hostData = s.hostData ∧
    (s.setPacket p).agenda = s.agenda ∧ (s.setPacket p).tick = s.tick ∧ (s.setPacket p).free = s.free ∧
    (s.setPacket p).nextId = s.nextId ∧ (s.setPacket p).roundAt = s.roundAt := by
  and_intros <;> rfl

/-- The fields of a state after `setLaunch`. -/
@[simp] theorem State.setLaunch_fields (s : State) (l : Launch) :
    (s.setLaunch l).start = s.start ∧ (s.setLaunch l).ns = s.ns ∧ (s.setLaunch l).cycle = s.cycle ∧
    (s.setLaunch l).cycRem = s.cycRem ∧ (s.setLaunch l).clockMHz = s.clockMHz ∧ (s.setLaunch l).throttled = s.throttled ∧
    (s.setLaunch l).cmd = s.cmd ∧ (s.setLaunch l).floors = s.floors ∧ (s.setLaunch l).tlbi = s.tlbi ∧
    (s.setLaunch l).tlb = s.tlb ∧ (s.setLaunch l).bead = s.bead ∧ (s.setLaunch l).ceCount = s.ceCount ∧
    (s.setLaunch l).ueCount = s.ueCount ∧ (s.setLaunch l).ueAddr = s.ueAddr ∧ (s.setLaunch l).ctxs = s.ctxs ∧
    (s.setLaunch l).cfault = s.cfault ∧ (s.setLaunch l).queues = s.queues ∧ (s.setLaunch l).handregs = s.handregs ∧
    (s.setLaunch l).vectors = s.vectors ∧ (s.setLaunch l).packets = s.packets ∧ (s.setLaunch l).handovers = s.handovers ∧
    (s.setLaunch l).launches = putBy (·.id == l.id) l s.launches ∧ (s.setLaunch l).teams = s.teams ∧
    (s.setLaunch l).flight = s.flight ∧ (s.setLaunch l).issue = s.issue ∧ (s.setLaunch l).masts = s.masts ∧
    (s.setLaunch l).mem = s.mem ∧ (s.setLaunch l).poison = s.poison ∧ (s.setLaunch l).nsec = s.nsec ∧
    (s.setLaunch l).dirtyComp = s.dirtyComp ∧ (s.setLaunch l).hostCache = s.hostCache ∧ (s.setLaunch l).l2 = s.l2 ∧
    (s.setLaunch l).wlog = s.wlog ∧ (s.setLaunch l).peers = s.peers ∧ (s.setLaunch l).asyncs = s.asyncs ∧
    (s.setLaunch l).running = s.running ∧ (s.setLaunch l).streams = s.streams ∧ (s.setLaunch l).hostData = s.hostData ∧
    (s.setLaunch l).agenda = s.agenda ∧ (s.setLaunch l).tick = s.tick ∧ (s.setLaunch l).free = s.free ∧
    (s.setLaunch l).nextId = s.nextId ∧ (s.setLaunch l).roundAt = s.roundAt := by
  and_intros <;> rfl

/-- The fields of a state after `setTeam`. -/
@[simp] theorem State.setTeam_fields (s : State) (t : Team) :
    (s.setTeam t).start = s.start ∧ (s.setTeam t).ns = s.ns ∧ (s.setTeam t).cycle = s.cycle ∧
    (s.setTeam t).cycRem = s.cycRem ∧ (s.setTeam t).clockMHz = s.clockMHz ∧ (s.setTeam t).throttled = s.throttled ∧
    (s.setTeam t).cmd = s.cmd ∧ (s.setTeam t).floors = s.floors ∧ (s.setTeam t).tlbi = s.tlbi ∧ (s.setTeam t).tlb = s.tlb ∧
    (s.setTeam t).bead = s.bead ∧ (s.setTeam t).ceCount = s.ceCount ∧ (s.setTeam t).ueCount = s.ueCount ∧
    (s.setTeam t).ueAddr = s.ueAddr ∧ (s.setTeam t).ctxs = s.ctxs ∧ (s.setTeam t).cfault = s.cfault ∧
    (s.setTeam t).queues = s.queues ∧ (s.setTeam t).handregs = s.handregs ∧ (s.setTeam t).vectors = s.vectors ∧
    (s.setTeam t).packets = s.packets ∧ (s.setTeam t).handovers = s.handovers ∧ (s.setTeam t).launches = s.launches ∧
    (s.setTeam t).teams = (s.teams.map fun x => if x.id = t.id then t else x) ∧ (s.setTeam t).flight = s.flight ∧
    (s.setTeam t).issue = s.issue ∧ (s.setTeam t).masts = s.masts ∧ (s.setTeam t).mem = s.mem ∧
    (s.setTeam t).poison = s.poison ∧ (s.setTeam t).nsec = s.nsec ∧ (s.setTeam t).dirtyComp = s.dirtyComp ∧
    (s.setTeam t).hostCache = s.hostCache ∧ (s.setTeam t).l2 = s.l2 ∧ (s.setTeam t).wlog = s.wlog ∧
    (s.setTeam t).peers = s.peers ∧ (s.setTeam t).asyncs = s.asyncs ∧ (s.setTeam t).running = s.running ∧
    (s.setTeam t).streams = s.streams ∧ (s.setTeam t).hostData = s.hostData ∧ (s.setTeam t).agenda = s.agenda ∧
    (s.setTeam t).tick = s.tick ∧ (s.setTeam t).free = s.free ∧ (s.setTeam t).nextId = s.nextId ∧
    (s.setTeam t).roundAt = s.roundAt := by
  and_intros <;> rfl

/-- The fields of a state after `setMast`. -/
@[simp] theorem State.setMast_fields (s : State) (m : Mast) :
    (s.setMast m).start = s.start ∧ (s.setMast m).ns = s.ns ∧ (s.setMast m).cycle = s.cycle ∧
    (s.setMast m).cycRem = s.cycRem ∧ (s.setMast m).clockMHz = s.clockMHz ∧ (s.setMast m).throttled = s.throttled ∧
    (s.setMast m).cmd = s.cmd ∧ (s.setMast m).floors = s.floors ∧ (s.setMast m).tlbi = s.tlbi ∧ (s.setMast m).tlb = s.tlb ∧
    (s.setMast m).bead = s.bead ∧ (s.setMast m).ceCount = s.ceCount ∧ (s.setMast m).ueCount = s.ueCount ∧
    (s.setMast m).ueAddr = s.ueAddr ∧ (s.setMast m).ctxs = s.ctxs ∧ (s.setMast m).cfault = s.cfault ∧
    (s.setMast m).queues = s.queues ∧ (s.setMast m).handregs = s.handregs ∧ (s.setMast m).vectors = s.vectors ∧
    (s.setMast m).packets = s.packets ∧ (s.setMast m).handovers = s.handovers ∧ (s.setMast m).launches = s.launches ∧
    (s.setMast m).teams = s.teams ∧ (s.setMast m).flight = s.flight ∧ (s.setMast m).issue = s.issue ∧
    (s.setMast m).masts = putBy (·.num == m.num) m s.masts ∧ (s.setMast m).mem = s.mem ∧ (s.setMast m).poison = s.poison ∧
    (s.setMast m).nsec = s.nsec ∧ (s.setMast m).dirtyComp = s.dirtyComp ∧ (s.setMast m).hostCache = s.hostCache ∧
    (s.setMast m).l2 = s.l2 ∧ (s.setMast m).wlog = s.wlog ∧ (s.setMast m).peers = s.peers ∧ (s.setMast m).asyncs = s.asyncs ∧
    (s.setMast m).running = s.running ∧ (s.setMast m).streams = s.streams ∧ (s.setMast m).hostData = s.hostData ∧
    (s.setMast m).agenda = s.agenda ∧ (s.setMast m).tick = s.tick ∧ (s.setMast m).free = s.free ∧
    (s.setMast m).nextId = s.nextId ∧ (s.setMast m).roundAt = s.roundAt := by
  and_intros <;> rfl

/-- The fields of a state after `raise`. -/
@[simp] theorem State.raise_fields (s : State) (v : Nat) :
    (s.raise v).start = s.start ∧ (s.raise v).ns = s.ns ∧ (s.raise v).cycle = s.cycle ∧ (s.raise v).cycRem = s.cycRem ∧
    (s.raise v).clockMHz = s.clockMHz ∧ (s.raise v).throttled = s.throttled ∧ (s.raise v).cmd = s.cmd ∧
    (s.raise v).floors = s.floors ∧ (s.raise v).tlbi = s.tlbi ∧ (s.raise v).tlb = s.tlb ∧ (s.raise v).bead = s.bead ∧
    (s.raise v).ceCount = s.ceCount ∧ (s.raise v).ueCount = s.ueCount ∧ (s.raise v).ueAddr = s.ueAddr ∧
    (s.raise v).ctxs = s.ctxs ∧ (s.raise v).cfault = s.cfault ∧ (s.raise v).queues = s.queues ∧
    (s.raise v).handregs = s.handregs ∧ (s.raise v).vectors = s.vectors ++ [v] ∧ (s.raise v).packets = s.packets ∧
    (s.raise v).handovers = s.handovers ∧ (s.raise v).launches = s.launches ∧ (s.raise v).teams = s.teams ∧
    (s.raise v).flight = s.flight ∧ (s.raise v).issue = s.issue ∧ (s.raise v).masts = s.masts ∧ (s.raise v).mem = s.mem ∧
    (s.raise v).poison = s.poison ∧ (s.raise v).nsec = s.nsec ∧ (s.raise v).dirtyComp = s.dirtyComp ∧
    (s.raise v).hostCache = s.hostCache ∧ (s.raise v).l2 = s.l2 ∧ (s.raise v).wlog = s.wlog ∧ (s.raise v).peers = s.peers ∧
    (s.raise v).asyncs = s.asyncs ∧ (s.raise v).running = s.running ∧ (s.raise v).streams = s.streams ∧
    (s.raise v).hostData = s.hostData ∧ (s.raise v).agenda = s.agenda ∧ (s.raise v).tick = s.tick ∧
    (s.raise v).free = s.free ∧ (s.raise v).nextId = s.nextId ∧ (s.raise v).roundAt = s.roundAt := by
  and_intros <;> rfl

/-- What the crossbars change of a mast's cycle: teams (their losses) and packs in flight (their collectors). -/
theorem State.gatherOn_frame (s : State) (m : Nat) :
    s.gatherOn m = { s with teams := (s.gatherOn m).teams, flight := (s.gatherOn m).flight } := rfl
/-- What the crossbars change: teams and packs in flight. -/
theorem State.gather_frame (s : State) (n : Nat) :
    s.gather n = { s with teams := (s.gather n).teams, flight := (s.gather n).flight } := by
  have hf : ∀ (l : List Nat) (a : State),
      l.foldl State.gatherOn a = { a with teams := (l.foldl State.gatherOn a).teams, flight := (l.foldl State.gatherOn a).flight } := by
    intro l
    induction l with
    | nil => intro a; rfl
    | cons x r ih => intro a; rw [List.foldl_cons, ih, State.gatherOn_frame a x]
  induction n generalizing s with
  | zero => rfl
  | succ n ih =>
    unfold State.gather
    simp only
    split
    · rfl
    · rw [ih, hf]

/-- The fields of a state after `pass`. -/
@[simp] theorem State.pass_fields (s : State) (n : Nat) :
    (s.pass n).start = s.start ∧ (s.pass n).ns = s.ns + n ∧ (s.pass n).cycle = s.cycle + (s.cycRem + n * s.clockMHz) / 1000 ∧
    (s.pass n).cycRem = (s.cycRem + n * s.clockMHz) % 1000 ∧ (s.pass n).clockMHz = s.clockMHz ∧
    (s.pass n).throttled = s.throttled ∧ (s.pass n).cmd = s.cmd ∧ (s.pass n).floors = s.floors ∧ (s.pass n).tlbi = s.tlbi ∧
    (s.pass n).tlb = s.tlb ∧ (s.pass n).bead = s.bead ∧ (s.pass n).ceCount = s.ceCount ∧ (s.pass n).ueCount = s.ueCount ∧
    (s.pass n).ueAddr = s.ueAddr ∧ (s.pass n).ctxs = s.ctxs ∧ (s.pass n).cfault = s.cfault ∧ (s.pass n).queues = s.queues ∧
    (s.pass n).handregs = s.handregs ∧ (s.pass n).vectors = s.vectors ∧ (s.pass n).packets = s.packets ∧
    (s.pass n).handovers = s.handovers ∧
    (s.pass n).launches = (s.launches.map fun l => if l.firstRun.isSome && s.isAway l then { l with awayNs := l.awayNs + n } else l) ∧
    (s.pass n).teams = (s.gather ((s.cycRem + n * s.clockMHz) / 1000)).teams ∧
    (s.pass n).flight = (s.gather ((s.cycRem + n * s.clockMHz) / 1000)).flight ∧ (s.pass n).issue = s.issue ∧
    (s.pass n).masts = s.masts ∧ (s.pass n).mem = s.mem ∧ (s.pass n).poison = s.poison ∧ (s.pass n).nsec = s.nsec ∧
    (s.pass n).dirtyComp = s.dirtyComp ∧ (s.pass n).hostCache = s.hostCache ∧ (s.pass n).l2 = s.l2 ∧
    (s.pass n).wlog = s.wlog ∧ (s.pass n).peers = s.peers ∧ (s.pass n).asyncs = s.asyncs ∧ (s.pass n).running = s.running ∧
    (s.pass n).streams = s.streams ∧ (s.pass n).hostData = s.hostData ∧ (s.pass n).agenda = s.agenda ∧
    (s.pass n).tick = s.tick ∧ (s.pass n).free = s.free ∧ (s.pass n).nextId = s.nextId ∧ (s.pass n).roundAt = s.roundAt := by
  have h := State.gather_frame s ((s.cycRem + n * s.clockMHz) / 1000)
  unfold State.pass
  dsimp only
  rw [h]
  and_intros <;> rfl

/-- The fields of a state after `toFlight`. -/
@[simp] theorem State.toFlight_fields (s : State) (p : Pack) :
    (s.toFlight p).start = s.start ∧ (s.toFlight p).ns = s.ns ∧ (s.toFlight p).cycle = s.cycle ∧
    (s.toFlight p).cycRem = s.cycRem ∧ (s.toFlight p).clockMHz = s.clockMHz ∧ (s.toFlight p).throttled = s.throttled ∧
    (s.toFlight p).cmd = s.cmd ∧ (s.toFlight p).floors = s.floors ∧ (s.toFlight p).tlbi = s.tlbi ∧
    (s.toFlight p).tlb = s.tlb ∧ (s.toFlight p).bead = s.bead ∧ (s.toFlight p).ceCount = s.ceCount ∧
    (s.toFlight p).ueCount = s.ueCount ∧ (s.toFlight p).ueAddr = s.ueAddr ∧ (s.toFlight p).ctxs = s.ctxs ∧
    (s.toFlight p).cfault = s.cfault ∧ (s.toFlight p).queues = s.queues ∧ (s.toFlight p).handregs = s.handregs ∧
    (s.toFlight p).vectors = s.vectors ∧ (s.toFlight p).packets = s.packets ∧ (s.toFlight p).handovers = s.handovers ∧
    (s.toFlight p).launches = s.launches ∧ (s.toFlight p).teams = s.teams ∧
    (s.toFlight p).flight = putBy (·.id == p.id) (p.collect ((s.team? p.team).getD default)) s.flight ∧
    (s.toFlight p).issue = none ∧ (s.toFlight p).masts = s.masts ∧ (s.toFlight p).mem = s.mem ∧
    (s.toFlight p).poison = s.poison ∧ (s.toFlight p).nsec = s.nsec ∧ (s.toFlight p).dirtyComp = s.dirtyComp ∧
    (s.toFlight p).hostCache = s.hostCache ∧ (s.toFlight p).l2 = s.l2 ∧ (s.toFlight p).wlog = s.wlog ∧
    (s.toFlight p).peers = s.peers ∧ (s.toFlight p).asyncs = s.asyncs ∧ (s.toFlight p).running = s.running ∧
    (s.toFlight p).streams = s.streams ∧ (s.toFlight p).hostData = s.hostData ∧ (s.toFlight p).agenda = s.agenda ∧
    (s.toFlight p).tick = s.tick ∧ (s.toFlight p).free = s.free ∧ (s.toFlight p).nextId = s.nextId ∧
    (s.toFlight p).roundAt = s.roundAt := by
  and_intros <;> rfl

/-- The fields of a state after `fresh`. -/
@[simp] theorem State.fresh_fields (s : State) :
    (s.fresh.2).start = s.start ∧ (s.fresh.2).ns = s.ns ∧ (s.fresh.2).cycle = s.cycle ∧ (s.fresh.2).cycRem = s.cycRem ∧
    (s.fresh.2).clockMHz = s.clockMHz ∧ (s.fresh.2).throttled = s.throttled ∧ (s.fresh.2).cmd = s.cmd ∧
    (s.fresh.2).floors = s.floors ∧ (s.fresh.2).tlbi = s.tlbi ∧ (s.fresh.2).tlb = s.tlb ∧ (s.fresh.2).bead = s.bead ∧
    (s.fresh.2).ceCount = s.ceCount ∧ (s.fresh.2).ueCount = s.ueCount ∧ (s.fresh.2).ueAddr = s.ueAddr ∧
    (s.fresh.2).ctxs = s.ctxs ∧ (s.fresh.2).cfault = s.cfault ∧ (s.fresh.2).queues = s.queues ∧
    (s.fresh.2).handregs = s.handregs ∧ (s.fresh.2).vectors = s.vectors ∧ (s.fresh.2).packets = s.packets ∧
    (s.fresh.2).handovers = s.handovers ∧ (s.fresh.2).launches = s.launches ∧ (s.fresh.2).teams = s.teams ∧
    (s.fresh.2).flight = s.flight ∧ (s.fresh.2).issue = s.issue ∧ (s.fresh.2).masts = s.masts ∧ (s.fresh.2).mem = s.mem ∧
    (s.fresh.2).poison = s.poison ∧ (s.fresh.2).nsec = s.nsec ∧ (s.fresh.2).dirtyComp = s.dirtyComp ∧
    (s.fresh.2).hostCache = s.hostCache ∧ (s.fresh.2).l2 = s.l2 ∧ (s.fresh.2).wlog = s.wlog ∧ (s.fresh.2).peers = s.peers ∧
    (s.fresh.2).asyncs = s.asyncs ∧ (s.fresh.2).running = s.running ∧ (s.fresh.2).streams = s.streams ∧
    (s.fresh.2).hostData = s.hostData ∧ (s.fresh.2).agenda = s.agenda ∧ (s.fresh.2).tick = s.tick ∧
    (s.fresh.2).free = s.free ∧ (s.fresh.2).nextId = s.nextId + 1 ∧ (s.fresh.2).roundAt = s.roundAt := by
  and_intros <;> rfl

/-- The fields of a state after `choose`. -/
@[simp] theorem State.choose_fields (s : State) :
    (s.choose.2).start = s.start ∧ (s.choose.2).ns = s.ns ∧ (s.choose.2).cycle = s.cycle ∧ (s.choose.2).cycRem = s.cycRem ∧
    (s.choose.2).clockMHz = s.clockMHz ∧ (s.choose.2).throttled = s.throttled ∧ (s.choose.2).cmd = s.cmd ∧
    (s.choose.2).floors = s.floors ∧ (s.choose.2).tlbi = s.tlbi ∧ (s.choose.2).tlb = s.tlb ∧ (s.choose.2).bead = s.bead ∧
    (s.choose.2).ceCount = s.ceCount ∧ (s.choose.2).ueCount = s.ueCount ∧ (s.choose.2).ueAddr = s.ueAddr ∧
    (s.choose.2).ctxs = s.ctxs ∧ (s.choose.2).cfault = s.cfault ∧ (s.choose.2).queues = s.queues ∧
    (s.choose.2).handregs = s.handregs ∧ (s.choose.2).vectors = s.vectors ∧ (s.choose.2).packets = s.packets ∧
    (s.choose.2).handovers = s.handovers ∧ (s.choose.2).launches = s.launches ∧ (s.choose.2).teams = s.teams ∧
    (s.choose.2).flight = s.flight ∧ (s.choose.2).issue = s.issue ∧ (s.choose.2).masts = s.masts ∧ (s.choose.2).mem = s.mem ∧
    (s.choose.2).poison = s.poison ∧ (s.choose.2).nsec = s.nsec ∧ (s.choose.2).dirtyComp = s.dirtyComp ∧
    (s.choose.2).hostCache = s.hostCache ∧ (s.choose.2).l2 = s.l2 ∧ (s.choose.2).wlog = s.wlog ∧
    (s.choose.2).peers = s.peers ∧ (s.choose.2).asyncs = s.asyncs ∧ (s.choose.2).running = s.running ∧
    (s.choose.2).streams = s.streams ∧ (s.choose.2).hostData = s.hostData ∧ (s.choose.2).agenda = s.agenda ∧
    (s.choose.2).tick = s.tick ∧ (s.choose.2).free = s.free + 1 ∧ (s.choose.2).nextId = s.nextId ∧
    (s.choose.2).roundAt = s.roundAt := by
  and_intros <;> rfl

end Sys2Proof.Machine
end

