-- ==== Sys2Proof/Safety.lean ====
section
/-! DEFINITION. What counts as a safe run: one in which no step faults or is refused, from a state onwards. -/

namespace Sys2Proof.Safety

/-- The state after n steps, when every one of them answers a next state. -/
def after (n : Nat) (s : Machine.State) : Option Machine.State :=
  match n with
  | 0 => some s
  | k + 1 => match Machine.step s with
    | .next t => after k t
    | _ => none

/-- A run of n steps from a state is safe: every step answers a next state. -/
def safeFor (n : Nat) (s : Machine.State) : Prop := (after n s).isSome = true

/-- A machine never stops from a state. -/
def Safe (s : Machine.State) : Prop := ∀ n, safeFor n s

end Sys2Proof.Safety
end

