-- ==== Sys2Proof/Tests/Slice0.lean ====
section
/-! SUPPORT. Tests: the words that the manual writes out, ill-formed terms, single steps with results from the manual's tables and worked
examples, and for every statement with hypotheses a concrete state and operands that meet them. -/

namespace Sys2Proof.Tests

open Sys2Proof.Machine Sys2Proof.Claims

set_option Elab.async false

/-! ### Words that the manual writes out (R37, R47 to R53 and its tables of words) -/

theorem test_decode_nop : decodeWord 0x00000000 = .ok (.nop ⟨false, 0⟩) := by decide
theorem test_decode_trap : decodeWord 0x00800005 = .ok (.trap ⟨false, 0⟩ 5) := by decide
theorem test_decode_bkpt : decodeWord 0x01000001 = .ok (.bkpt ⟨false, 0⟩ 1) := by decide
theorem test_decode_ctxr : decodeWord 0x01810010 = .ok (.ctxr ⟨false, 0⟩ 4 0x10) := by decide
theorem test_decode_ctxw : decodeWord 0x02003800 = .ok (.ctxw ⟨false, 0⟩ 0 112) := by decide
theorem test_decode_clk : decodeWord 0x02808001 = .ok (.clkNs ⟨false, 0⟩ 2) := by decide
theorem test_decode_signal : decodeWord 0x03000106 = .ok (.signal ⟨false, 0⟩ 2 6) := by decide
theorem test_decode_modw : decodeWord 0x03800004 = .ok (.modw 0 true 0 0) := by decide
theorem test_decode_modw_nf : decodeWord 0x03800040 = .ok (.modw 0 false 0 2) := by decide
theorem test_decode_bra : decodeWord 0x84300010 = .ok (.bra 3 16) := by decide
theorem test_decode_bra_not : decodeWord 0x842FFFF4 = .ok (.braNot 2 0x7FFF4) := by decide
theorem test_decode_call : decodeWord 0x85028600 = .ok (.call 10 12) := by decide
theorem test_decode_exit : decodeWord 0x86800000 = .ok (.exit) := by decide
theorem test_decode_rally : decodeWord 0x08008008 = .ok (.rally ⟨false, 0⟩ 2 8) := by decide
theorem test_decode_bar : decodeWord 0x8A80B803 = .ok (.bar 0 3 112 2) := by decide
theorem test_decode_red : decodeWord 0x0C8102B0 = .ok (.red ⟨false, 0⟩ 0 2 4 5 1) := by decide
theorem test_decode_xlane : decodeWord 0x0D818241 = .ok (.xlane ⟨false, 0⟩ 2 6 4 1) := by decide
theorem test_decode_tilef : decodeWord 0x10018002 = .ok (.tilef ⟨false, 0⟩ 6 2) := by decide
theorem test_decode_win : decodeWord 0x10800002 = .ok (.win ⟨false, 0⟩ 2) := by decide
theorem test_decode_rngs : decodeWord 0x1280C001 = .ok (.rngsHi ⟨false, 0⟩ 3) := by decide
theorem test_decode_add : decodeWord 0x1400C082 = .ok (.add ⟨false, 0⟩ 3 1 2) := by decide
theorem test_decode_mul_hi : decodeWord 0x15810286 = .ok (.mulHi ⟨false, 0⟩ 4 5 6) := by decide
theorem test_decode_icmp : decodeWord 0x25004103 = .ok (.icmp ⟨false, 0⟩ 2 1 0 false 2 3) := by decide
theorem test_decode_addi : decodeWord 0x28040BFF = .ok (.addi ⟨false, 0⟩ 2 2 0x3FF) := by decide
theorem test_decode_shrai : decodeWord 0x2C0E1E9F = .ok (.shrai ⟨false, 0⟩ 7 7 31) := by decide
theorem test_decode_movl : decodeWord 0x30243F80 = .ok (.movlHi false 4 0x3F80) := by decide
theorem test_decode_sel : decodeWord 0x36404184 = .ok (.sel ⟨false, 2⟩ 1 3 4) := by decide
theorem test_decode_fadd : decodeWord 0x3801C0E2 = .ok (.fadd ⟨false, 0⟩ 7 1 98) := by decide
theorem test_decode_ffma : decodeWord 0x3C02048A = .ok (.ffma ⟨false, 0⟩ 8 9 10) := by decide
theorem test_decode_fsin : decodeWord 0x42808180 = .ok (.fsin ⟨false, 0⟩ 2 3) := by decide
theorem test_decode_cvt : decodeWord 0x46014320 = .ok (.cvt ⟨false, 0⟩ 4 5 6 0 1) := by decide
theorem test_decode_cvtbd : decodeWord 0x49840C08 = .ok (.cvtbd ⟨false, 0⟩ 16 24 8) := by decide
theorem test_decode_ld : decodeWord 0x4D810103 = .ok (.ld ⟨false, 0⟩ 3 4 2 3) := by decide
theorem test_decode_st : decodeWord 0x5202017E = .ok (.st ⟨false, 0⟩ 4 8 2 0x7E) := by decide
theorem test_decode_ldd : decodeWord 0x54830A02 = .ok (.ldd ⟨false, 0⟩ 1 12 20 2) := by decide
theorem test_decode_cp_async : decodeWord 0x58018101 = .ok (.cpAsync ⟨false, 0⟩ 6 2 1 false) := by decide
theorem test_decode_tagwait : decodeWord 0xD9800008 = .ok (.tagwait 0 0 2) := by decide
theorem test_decode_tagget : decodeWord 0x5A024002 = .ok (.tagget ⟨false, 0⟩ 9 2) := by decide
theorem test_decode_pref : decodeWord 0x5A800102 = .ok (.pref ⟨false, 0⟩ 2 2) := by decide
theorem test_decode_accrd : decodeWord 0x5B028583 = .ok (.accrd ⟨false, 0⟩ 10 11 3 0) := by decide
theorem test_decode_atom : decodeWord 0x5C010130 = .ok (.atom ⟨false, 0⟩ 0 4 2 0 2 true) := by decide
theorem test_decode_atom_cas : decodeWord 0x5F82013C = .ok (.atom ⟨false, 0⟩ 7 8 2 2 3 true) := by decide
theorem test_decode_atomb : decodeWord 0x5C010117 = .ok (.atomb ⟨false, 0⟩ 0 4 2 3 2) := by decide
theorem test_decode_fence : decodeWord 0x6000000B = .ok (.fence ⟨false, 0⟩ 3 2) := by decide
theorem test_decode_ldacq : decodeWord 0x60814102 = .ok (.ldacq ⟨false, 0⟩ 5 2 2 false) := by decide
theorem test_decode_strel : decodeWord 0x61018105 = .ok (.strel ⟨false, 0⟩ 6 2 1 true) := by decide
theorem test_decode_acqr : decodeWord 0x61800480 = .ok (.acqr ⟨false, 0⟩ 9) := by decide
theorem test_decode_sample : decodeWord 0x64020203 = .ok (.sample ⟨false, 0⟩ 8 4 3) := by decide
theorem test_decode_sampleg : decodeWord 0x64820805 = .ok (.sampleg ⟨false, 0⟩ 8 16 5) := by decide
theorem test_decode_smma : decodeWord 0x67040404 = .ok (.smma ⟨false, 0⟩ 16 8 4) := by decide
theorem test_decode_mx_issue : decodeWord 0x68200380 = .ok (.mxIssue ⟨false, 1⟩ 7) := by decide
theorem test_decode_mx_zero : decodeWord 0x68800012 = .ok (.mxZero ⟨false, 0⟩ 2 1) := by decide
theorem test_decode_hopen : decodeWord 0x6C010001 = .ok (.hopen ⟨false, 0⟩ 4 1) := by decide
theorem test_decode_hrefute : decodeWord 0x6E400280 = .ok (.hrefute ⟨false, 2⟩ 5) := by decide
theorem test_decode_hstate : decodeWord 0x6E81C280 = .ok (.hstate ⟨false, 0⟩ 7 5) := by decide
theorem test_decode_taskout : decodeWord 0x70000205 = .ok (.taskout ⟨false, 0⟩ 4 5) := by decide
theorem test_decode_vtxout : decodeWord 0x70800400 = .ok (.vtxout ⟨false, 0⟩ 8 0) := by decide
theorem test_decode_primout : decodeWord 0x71000600 = .ok (.primout ⟨false, 0⟩ 12) := by decide
theorem test_decode_pixout : decodeWord 0x71800200 = .ok (.pixout ⟨false, 0⟩ 4 0) := by decide
theorem test_decode_kill : decodeWord 0x72000000 = .ok (.kill ⟨false, 0⟩) := by decide
theorem test_decode_reserved_major : decodeWord 0x7C000000 = .error 0x01 := by decide
theorem test_decode_reserved_fn : decodeWord 0x69000000 = .error 0x02 := by decide
theorem test_decode_table_word : decodeTableWord 32 0x1400C082 = some (.add ⟨false, 0⟩ 3 1 2) := by decide
theorem test_fetch_runs_word : (∃ t, step (State.reset.withFetchWord 32 0x1400C082) = .next t) := ⟨_, rfl⟩

/-! ### Ill-formed terms that each check of WellFormed refuses -/

theorem test_ill_formed_ctxr_number : Instr.wellFormed (.ctxr ⟨false, 0⟩ 4 0x0D) = false := by decide
theorem test_ill_formed_ctxw_read_only : Instr.wellFormed (.ctxw ⟨false, 0⟩ 1 4) = false := by decide
theorem test_ill_formed_modw_fill : Instr.wellFormed (.modw 0 false 3 0) = false := by decide
theorem test_ill_formed_red_op : Instr.wellFormed (.red ⟨false, 0⟩ 6 0 1 2 0) = false := by decide
theorem test_ill_formed_red_float_bits : Instr.wellFormed (.red ⟨false, 0⟩ 3 2 1 2 0) = false := by decide
theorem test_ill_formed_scan_op : Instr.wellFormed (.scan ⟨false, 0⟩ 7 0 false 1 2) = false := by decide
theorem test_ill_formed_win : Instr.wellFormed (.win ⟨false, 0⟩ 11) = false := by decide
theorem test_ill_formed_shape_a : Instr.wellFormed (.shape ⟨false, 0⟩ 1 96) = false := by decide
theorem test_ill_formed_cvt_dst : Instr.wellFormed (.cvt ⟨false, 0⟩ 4 1 2 13 0) = false := by decide
theorem test_ill_formed_cvt_mode : Instr.wellFormed (.cvt ⟨false, 0⟩ 0 1 2 0 1) = false := by decide
theorem test_ill_formed_ld_width : Instr.wellFormed (.ld ⟨false, 0⟩ 6 4 2 0) = false := by decide
theorem test_ill_formed_st_width : Instr.wellFormed (.st ⟨false, 0⟩ 5 4 2 0) = false := by decide
theorem test_ill_formed_ldd_width : Instr.wellFormed (.ldd ⟨false, 0⟩ 3 4 2 0) = false := by decide
theorem test_ill_formed_std_width : Instr.wellFormed (.std ⟨false, 0⟩ 3 4 2 0) = false := by decide
theorem test_ill_formed_icmp_cmp : Instr.wellFormed (.icmp ⟨false, 0⟩ 7 1 0 false 2 3) = false := by decide
theorem test_ill_formed_accrd_fmt : Instr.wellFormed (.accrd ⟨false, 0⟩ 4 1 0 6) = false := by decide
theorem test_ill_formed_accwr_fmt : Instr.wellFormed (.accwr ⟨false, 0⟩ 4 1 0 7) = false := by decide
theorem test_ill_formed_atom_scope : Instr.wellFormed (.atom ⟨false, 0⟩ 0 4 2 0 0 false) = false := by decide
theorem test_ill_formed_atom_float_and : Instr.wellFormed (.atom ⟨false, 0⟩ 3 4 2 3 1 false) = false := by decide
theorem test_ill_formed_atomb_op : Instr.wellFormed (.atomb ⟨false, 0⟩ 6 4 2 0 1) = false := by decide
theorem test_ill_formed_fence_kind : Instr.wellFormed (.fence ⟨false, 0⟩ 1 3) = false := by decide
theorem test_ill_formed_dst_special : Instr.wellFormed (.add ⟨false, 0⟩ 112 1 2) = false := by decide
theorem test_ill_formed_src_above : Instr.wellFormed (.add ⟨false, 0⟩ 1 121 2) = false := by decide
theorem test_ill_formed_both_discard : Instr.wellFormed (.mad ⟨false, 0⟩ 127 1 2) = false := by decide
theorem test_ill_formed_pair_odd : Instr.wellFormed (.add64 ⟨false, 0⟩ 3 4 6) = false := by decide
theorem test_ill_formed_src_group : Instr.wellFormed (.spk ⟨false, 0⟩ 2 6) = false := by decide
theorem test_ill_formed_dst_group : Instr.wellFormed (.sample ⟨false, 0⟩ 6 4 0) = false := by decide
theorem test_ill_formed_src_special_group : Instr.wellFormed (.ld ⟨false, 0⟩ 2 4 112 0) = false := by decide

/-! ### One word on a small state -/

/-- A team of two threads with 96 registers, 4 KiB of DECK and PLANE and one tile. -/
def team0 : Team := { (default : Team) with
  id := 5, launch := 7, count := 1, shape := ⟨32, 96, 1, 4096, 4096⟩, seqcfg := 0x10002020
  threads := [{ (default : Thread) with st := .issued, tagCount := [0, 0, 0, 0], preds := 1 },
    { (default : Thread) with st := .ready, tagCount := [0, 0, 0, 0], preds := 1 }] }
/-- Its launch, with the seed of the manual's example of R84. -/
def launch0 : Launch := { (default : Launch) with
  id := 7, packet := 3, queue := 2, entry := 0x100, trapEntry := some 0x40, seed := 0x12345678, shape := ⟨32, 96, 1, 4096, 4096⟩
  admitted := true, teams := 1, tilesX := 1, tilesY := 1, tilesZ := 1 }
/-- Identity page tables for the first 4 GiB, in local HBM (R124): a level-3 entry and a level-2 leaf, valid, writable, executable. -/
def pageMem : List Host.Cell := [(0x10000, 0x01), (0x10001, 0x20), (0x10002, 0x01), (0x12000, 0x0F)]
/-- A context of two cores on those tables. -/
def ctx0 : Ctx := { (default : Ctx) with num := 0, ptRoot := 0x10000, coreSet := 3, powerCap := 100 }
/-- A running device with that context, launch and team. -/
def dev : State := { State.reset with
  start := { State.reset.start with st := .running }
  ctxs := [ctx0], launches := [launch0], teams := [team0], mem := pageMem }

/-- A lane with some registers and predicates. -/
def lane (vs : List (Nat × Word)) (preds : BitVec 8) : Lane := { (default : Lane) with v := vs, preds := preds, statusW := false }
/-- A pack of the team with some lanes and a MODW in force. -/
def pack (m : Modw) (ls : List (Nat × Lane)) : Pack :=
  { (default : Pack) with id := 9, team := 5, block := 0x100, pc := 0x108, modw := m, lanes := ls }
/-- No MODW. -/
def plain : Modw := ⟨0, false, 0, 0⟩
/-- The device with a pack issued. -/
def issued (m : Modw) (ls : List (Nat × Lane)) : State := { dev with issue := some (pack m ls) }
/-- The first lane after a word. -/
def after (i : Instr) (m : Modw) (ls : List (Nat × Lane)) : Option Lane :=
  match exec i (issued m ls) with
  | .next t => match t.flight with
    | p :: _ => p.lanes.head?.map (·.2)
    | [] => none
  | _ => none
/-- A register and the predicates of the first lane after a word on one lane. -/
def reg (i : Instr) (alt : Bool) (vs : List (Nat × Word)) (d : Nat) : Option Word :=
  (after i ⟨0, alt, 0, 0⟩ [(0, lane vs 1)]).map fun l => alGetD l.v d 0
/-- A register and the flags of that lane. -/
def regFlags (i : Instr) (alt : Bool) (vs : List (Nat × Word)) (d : Nat) : Option (Word × BitVec 5) :=
  (after i ⟨0, alt, 0, 0⟩ [(0, lane vs 1)]).map fun l => (alGetD l.v d 0, l.flags)

theorem test_div_negative : reg (.div ⟨false, 0⟩ 3 1 2) false [(1, 7), (2, 0xFFFFFFFE)] 3 = some 0xFFFFFFFD := by decide
theorem test_rem_positive : reg (.rem ⟨false, 0⟩ 3 1 2) false [(1, 7), (2, 0xFFFFFFFE)] 3 = some 1 := by decide
theorem test_rem_negative : reg (.rem ⟨false, 0⟩ 3 1 2) false [(1, 0xFFFFFFF9), (2, 2)] 3 = some 0xFFFFFFFF := by decide
theorem test_div_zero : reg (.div ⟨false, 0⟩ 3 1 2) true [(1, 5)] 3 = some 0xFFFFFFFF := by decide
theorem test_rem_zero : reg (.rem ⟨false, 0⟩ 3 1 2) true [(1, 5)] 3 = some 5 := by decide
theorem test_div_overflow : reg (.div ⟨false, 0⟩ 3 1 2) false [(1, 0x80000000), (2, 0xFFFFFFFF)] 3 = some 0x80000000 := by decide
theorem test_shl : reg (.shl ⟨false, 0⟩ 3 1 2) false [(1, 0xF1), (2, 0x104)] 3 = some 0xF10 := by decide
theorem test_shra_40 : reg (.shra ⟨false, 0⟩ 3 1 2) false [(1, 0x80000010), (2, 0x28)] 3 = some 0xFFFFFFFF := by decide
theorem test_rot : reg (.rot ⟨false, 0⟩ 3 1 2) false [(1, 0x80000001), (2, 0x21)] 3 = some 3 := by decide
theorem test_bfe_signed : reg (.bfe ⟨false, 0⟩ 3 1 2) false [(1, 0xF0A0), (2, 0x808)] 3 = some 0xFFFFFFF0 := by decide
theorem test_bfe_unsigned : reg (.bfe ⟨false, 0⟩ 3 1 2) true [(1, 0xF0A0), (2, 0x808)] 3 = some 0xF0 := by decide
theorem test_clz : reg (.clz ⟨false, 0⟩ 3 1) false [(1, 0x10000)] 3 = some 15 := by decide
theorem test_neg_least : reg (.neg ⟨false, 0⟩ 3 1) false [(1, 0x80000000)] 3 = some 0x80000000 := by decide
theorem test_addi_minus_one : reg (.addi ⟨false, 0⟩ 2 2 0x3FF) false [(2, 0)] 2 = some 0xFFFFFFFF := by decide
theorem test_movl_hi_keeps_low : reg (.movlHi false 4 0x3F80) false [(4, 0x1234)] 4 = some 0x3F801234 := by decide
theorem test_addc_carries : (after (.addc ⟨false, 0⟩ 3 1 2) plain [(0, lane [(1, 0xFFFFFFFF), (2, 1)] 1)]).map (fun l =>
    (alGetD l.v 3 0, l.preds.getLsbD 7)) = some (0, true) := by decide
theorem test_addc_takes_carry : (after (.addc ⟨false, 0⟩ 3 1 2) plain [(0, lane [(1, 2)] 0x81)]).map (fun l =>
    (alGetD l.v 3 0, l.preds.getLsbD 7)) = some (3, false) := by decide
theorem test_fmul_inexact : regFlags (.fmul ⟨false, 0⟩ 4 2 3) false [(2, 0x3F800800), (3, 0x3F800800)] 4 = some (0x3F801000, 0x10) := by decide
theorem test_ffms_exact : regFlags (.ffms ⟨false, 0⟩ 4 2 3) false [(2, 0x3F800800), (3, 0x3F800800), (4, 0x3F801000)] 4 = some (0x33800000, 0) := by decide
theorem test_frcp_minus_zero : regFlags (.frcp ⟨false, 0⟩ 4 2) false [(2, 0x80000000)] 4 = some (0xFF800000, 2) := by decide
theorem test_fsin_integer : regFlags (.fsin ⟨false, 0⟩ 4 2) false [(2, 0xC0000000)] 4 = some (0x80000000, 0) := by decide
theorem test_cvt_tie : regFlags (.cvt ⟨false, 0⟩ 4 4 2 0 0) false [(2, 0xC0200000)] 4 = some (0xFFFFFFFE, 0x10) := by decide
theorem test_cvt_saturates : regFlags (.cvt ⟨false, 0⟩ 4 4 2 0 1) false [(2, 0x4F32D05E)] 4 = some (0x7FFFFFFF, 1) := by decide
theorem test_cvt_n32 : regFlags (.cvt ⟨false, 0⟩ 4 4 2 1 1) false [(2, 0x4F32D05E)] 4 = some (0xB2D05E00, 0) := by decide
theorem test_cvt_narrow : regFlags (.cvt ⟨false, 0⟩ 0 4 2 4 0) false [(2, 300)] 4 = some (0x2C, 0) := by decide
theorem test_cvt_e5m2_snan : regFlags (.cvt ⟨false, 0⟩ 7 4 2 8 0) true [(2, 0x7D)] 4 = some (0x7FC00000, 1) := by decide
theorem test_cvtbd : (after (.cvtbd ⟨false, 0⟩ 16 24 8) ⟨0, false, 0, 2⟩ [(0, lane [(24, 0x3FA00000), (25, 0xBF000000), (26, 0x3E99999A),
    (27, 0x3E4CCCCD), (28, 0x40400000), (29, 0x40A00000), (30, 0), (31, 0xBD800000), (8, 0), (10, 128)] 1)]).map (fun l =>
    (alGetD l.v 16 0, alGetD l.v 17 0, alGetD l.v 18 0, alGetD l.v 19 0, l.flags)) =
      some (0x00C10A8A, 0x80, 0xB80, 1, 0x10) := by decide
theorem test_rngs_first : (after (.rngsHi ⟨false, 0⟩ 3) plain [(0, lane [] 1)]).map (fun l => (alGetD l.v 3 0, l.rngs)) =
    some (0, 1) := by decide
theorem test_rngs_second : (after (.rngsLo ⟨false, 0⟩ 3) plain [(0, { lane [] 1 with rngs := 1 })]).map (fun l => alGetD l.v 3 0) =
    some 0x7B1DCDAF := by decide
theorem test_mask_own_join : (after (.mget ⟨false, 0⟩ 9 1) plain [(0, { lane [] 1 with masks := [(1, 0xF0)] })]).map (fun l =>
    alGetD l.v 9 0) = some 0xF0 := by decide
theorem test_range_traps : (after (.add ⟨false, 1⟩ 3 1 95) plain [(0, { lane [] 1 with wb := 16 })]).map (·.trap) =
    some (some ⟨0x23, 0, 0x108⟩) := by decide
theorem test_guard_off : reg (.add ⟨false, 1⟩ 3 1 2) false [(1, 1), (2, 2), (3, 77)] 3 = some 77 := by decide
theorem test_discard : reg (.add ⟨false, 0⟩ 127 1 2) false [(1, 1), (2, 2), (3, 77)] 3 = some 77 := by decide
theorem test_bra_taken : (after (.bra 3 16) plain [(0, lane [] 9)]).map (·.next) = some (some 0x148) := by decide
theorem test_st_records : (after (.st ⟨false, 0⟩ 2 8 2 0x7E) plain [(0, lane [(2, 0x2000), (8, 0x11223344)] 1)]).map (·.ops) =
    some [⟨0x108, .store 0x1FF8 [(0x44, false), (0x33, false), (0x22, false), (0x11, false)]⟩] := by decide
theorem test_kill_stage : (after (.kill ⟨false, 0⟩) plain [(0, lane [] 1)]).map (·.trap) = some (some ⟨0x25, 0, 0x108⟩) := by decide

/-! ### States that meet the hypotheses of the statements about words -/

/-- A lane whose predicate p1 is true, and one whose p1 is false. -/
def on : Lane := lane [(1, 0x40), (2, 0x2000), (8, 1)] 3
def off : Lane := { lane [] 1 with tid := 1 }
def two : List (Nat × Lane) := [(0, on), (1, off)]
/-- The pack of these two lanes, issued, and its environment. -/
def pk : Pack := pack plain two
def env : Env := ⟨issued plain two, team0, pk⟩

/-- A pack with a lane that executes a word of these operands and a lane that passes it over. -/
def Meets (h : Hdr) (src dst : Names) : Prop :=
  Issued env.s env.p env.t ∧ ((0, on) ∈ env.p.lanes ∧ Runs env on h.guard src dst) ∧ (1, off) ∈ env.p.lanes ∧
    Skips env off h.guard src dst

theorem issued_env : Issued env.s env.p env.t := ⟨rfl, by decide⟩

/-- Lanes with no poison marks and operands below v95 meet them under the guard p1. -/
theorem meets {h : Hdr} {src dst : Names} (hg : h.guard = 1) (hr : ((src ++ dst).all fun c => c.1.toNat + c.2 ≤ 96 || 96 ≤ c.1.toNat) = true) :
    Meets h src dst := by
  have hr' : ∀ ln : Lane, ln.wb = 0 → InRange env ln (src ++ dst) := by
    intro ln hw c hc hlt
    have := (List.all_eq_true.1 hr) c hc
    simp only [Bool.or_eq_true, decide_eq_true_eq] at this
    have hv : env.t.shape.vregs = 96 := rfl
    omega
  refine ⟨issued_env, ⟨by decide, hr' on rfl, ?_, ?_⟩, by decide, hr' off rfl, ?_⟩
  · rw [hg]; exact Or.inr (by decide)
  · intro c _ _ r hm; exact absurd hm (by simp [on, lane, show (default : Lane).poison = [] from rfl])
  · rw [hg]; rintro (x | x) <;> exact absurd x (by decide)

theorem witness_IntegerResults : ∃ v, ialuVal (.add ⟨false, 1⟩ 3 1 2) = some v ∧ (Instr.add ⟨false, 1⟩ 3 1 2).wellFormed = true ∧
    Meets v.hdr v.src [(v.dst, 1)] := ⟨_, rfl, by decide, meets rfl (by decide)⟩
theorem witness_LogicResults : ∃ v, ilogVal (.shra ⟨true, 1⟩ 127 1 112) = some v ∧ (Instr.shra ⟨true, 1⟩ 127 1 112).wellFormed = true ∧
    Meets v.hdr v.src [(v.dst, 1)] := ⟨_, rfl, by decide, meets rfl (by decide)⟩
theorem witness_ImmediateResults : ∃ v, immVal (.addi ⟨false, 1⟩ 95 1 0x200) = some v ∧
    (Instr.addi ⟨false, 1⟩ 95 1 0x200).wellFormed = true ∧ Meets v.hdr v.src [(v.dst, 1)] :=
  ⟨_, rfl, by decide, meets rfl (by decide)⟩
theorem witness_BitFieldResults : ∃ v, ibitVal (.bfi ⟨false, 1⟩ 3 1 2) = some v ∧ (Instr.bfi ⟨false, 1⟩ 3 1 2).wellFormed = true ∧
    Meets v.hdr v.src [(v.dst, 1)] := ⟨_, rfl, by decide, meets rfl (by decide)⟩
theorem witness_PairAndSpecialResults : (∃ v, wordOp (.add64 ⟨false, 1⟩ 4 2 94) = some v ∧
      (Instr.add64 ⟨false, 1⟩ 4 2 94).wellFormed = true ∧ Meets v.hdr v.src [(v.dst, v.n)]) ∧
    ∃ v, ctxrOp (.ctxr ⟨false, 1⟩ 4 0x40) = some v ∧ (Instr.ctxr ⟨false, 1⟩ 4 0x40).wellFormed = true ∧
      Meets v.hdr v.src [(v.dst, v.n)] :=
  ⟨⟨_, rfl, by decide, meets rfl (by decide)⟩, _, rfl, by decide, meets rfl (by decide)⟩
theorem witness_CarryResults : (Instr.addc ⟨false, 1⟩ 3 1 2).wellFormed = true ∧ (Instr.subb ⟨false, 1⟩ 3 1 2).wellFormed = true ∧
    Meets ⟨false, 1⟩ [(1, 1), (2, 1)] [(3, 1)] := ⟨by decide, by decide, meets rfl (by decide)⟩
theorem witness_PredicateResults : (∃ v, predOp (.icmp ⟨false, 1⟩ 6 0 7 true 1 2) = some v ∧
      (Instr.icmp ⟨false, 1⟩ 6 0 7 true 1 2).wellFormed = true ∧ Meets v.hdr v.src []) ∧
    (Instr.fcmp ⟨false, 1⟩ 7 1 1 2).wellFormed = true ∧ Meets ⟨false, 1⟩ [(1, 1), (2, 1)] [] :=
  ⟨⟨_, rfl, by decide, meets rfl (by decide)⟩, by decide, meets rfl (by decide)⟩
theorem witness_FloatResults : ∃ v, fpOp (.pkfma ⟨false, 1⟩ 3 1 2) = some v ∧ (Instr.pkfma ⟨false, 1⟩ 3 1 2).wellFormed = true ∧
    Meets v.hdr v.src [(v.dst, v.n)] := ⟨_, rfl, by decide, meets rfl (by decide)⟩
theorem witness_SpecialFunctionResults : ∃ v, fsfuOp (.frnd ⟨false, 1⟩ 3 1 3) = some v ∧
    (Instr.frnd ⟨false, 1⟩ 3 1 3).wellFormed = true ∧ Meets v.hdr v.src [(v.dst, v.n)] :=
  ⟨_, rfl, by decide, meets rfl (by decide)⟩
theorem witness_ConversionResults : ∃ v, cvtOp (.cvt ⟨false, 1⟩ 3 4 2 12 3) = some v ∧
    (Instr.cvt ⟨false, 1⟩ 3 4 2 12 3).wellFormed = true ∧ Meets v.hdr v.src [(v.dst, v.n)] :=
  ⟨_, rfl, by decide, meets rfl (by decide)⟩

/-- Each of the three cases: no NF, a list address that is no multiple of 8, and a list. -/
def beadEnv (nf : BitVec 2) (list : Word) : Env :=
  let p := pack ⟨0, false, 0, nf⟩ [(0, lane [(8, list)] 1)]
  ⟨{ dev with issue := some p }, team0, p⟩
def MeetsBead (nf : BitVec 2) (list : Word) : Prop :=
  Issued (beadEnv nf list).s (beadEnv nf list).p (beadEnv nf list).t ∧ (0, lane [(8, list)] 1) ∈ (beadEnv nf list).p.lanes ∧
    Runs (beadEnv nf list) (lane [(8, list)] 1) 0 [(24, 8), (8, 4)] [(16, 4)] ∧
    (beadEnv nf list).p.modw.nf = nf ∧ pairNat (beadEnv nf list) (lane [(8, list)] 1) 8 = list.toNat
theorem runs_bead (nf : BitVec 2) (list : Word) :
    Runs (beadEnv nf list) (lane [(8, list)] 1) 0 [(24, 8), (8, 4)] [(16, 4)] := by
  refine ⟨?_, Or.inl rfl, ?_⟩
  · intro c hc _
    have hv : (beadEnv nf list).t.shape.vregs = 96 := rfl
    have hw : (lane [(8, list)] 1).wb = 0 := rfl
    have hb : ∀ c ∈ ([(24, 8), (8, 4)] ++ [(16, 4)] : Names), c.1.toNat + c.2 ≤ 96 := by decide
    have := hb c hc
    omega
  · intro c _ _ r hm; exact absurd hm (by simp [lane, show (default : Lane).poison = [] from rfl])
theorem witness_BeadConversionResult : (Instr.cvtbd ⟨false, 0⟩ 16 24 8).wellFormed = true ∧ MeetsBead 0 0 ∧
    (MeetsBead 1 4 ∧ 4 % 8 ≠ 0) ∧ MeetsBead 3 8 ∧ MeetsBead 2 0 := by
  refine ⟨by decide, ⟨⟨rfl, by decide⟩, by decide, runs_bead _ _, by decide, by decide⟩,
    ⟨⟨⟨rfl, by decide⟩, by decide, runs_bead _ _, by decide, by decide⟩, by decide⟩,
    ⟨⟨rfl, by decide⟩, by decide, runs_bead _ _, by decide, by decide⟩,
    ⟨rfl, by decide⟩, by decide, runs_bead _ _, by decide, by decide⟩

/-- Sums at both sides of the bound, an overflow, and values at the ends of the ranges of the other arithmetic facts. -/
theorem witness_FloatRoundsToNearest : f32Finite 0x7F7FFFFF ∧ f32Finite 0x00000001 ∧ f32Finite 0x80000000 ∧
    |f32Val 0x00000001 + f32Val 0x00000001| < 2 ^ 128 - 2 ^ 103 ∧ 2 ^ 128 - 2 ^ 103 ≤ |f32Val 0x7F7FFFFF + f32Val 0x7F7FFFFF| := by
  unfold f32Finite f32Val; decide +kernel
theorem witness_FloatFacts : (f32Nan 0x7F800001 ∧ f32Sig 0x7F800001) ∧ (f32Nan 0x7FC00000 ∧ ¬f32Sig 0x7FC00000) ∧ ¬f32Nan 0x7F800000 ∧
    ¬f32Finite 0x7F800000 ∧ f32Finite 0x80000001 := by unfold f32Nan f32Sig f32Nan f32Finite; decide
theorem witness_SpecialFacts : (f32Finite 0x80000001 ∧ f32Val 0x80000001 < 0 ∧ f32Val 0x80000001 ≠ 0 ∧ 2 ^ 128 - 2 ^ 103 ≤ |(f32Val 0x80000001)⁻¹|) ∧
    (f32Finite 0x4B800001 ∧ f32Val 0x4B800001 = ((2 ^ 24 + 2 : Int) : ℚ)) ∧ f32Val 0xBF000000 = ((-1 : Int) : ℚ) + 1 / 2 ∧
    f32Val 0xC3150000 = ((-149 : Int) : ℚ) ∧ f32Val 0x42FE0000 = ((127 : Int) : ℚ) ∧ f32Val 0x00000001 = (2 : ℚ) ^ (-149 : Int) ∧
    |(f32Val 0x00200001)⁻¹| < 2 ^ 128 - 2 ^ 103 ∧ 0 < f32Val 0x7F7FFFFF := by unfold f32Finite f32Val; decide +kernel
theorem witness_ConvertFacts : (RoundsTo 0 (f32Val 0xC0200000) (-2) ∧ RoundsTo 1 (f32Val 0xC0200000) (-2) ∧ RoundsTo 2 (f32Val 0xC0200000) (-3) ∧
    RoundsTo 3 (f32Val 0xC0200000) (-2)) ∧ (RoundsTo 0 (f32Val 0x4F000000) (2 ^ 31) ∧ RoundsTo 0 (f32Val 0xCF000001) (-2 ^ 31 - 256)) ∧
    0x7BFF / 2 ^ 10 % 2 ^ 5 ≠ 31 := by
  have h1 : f32Val 0xC0200000 = -5 / 2 := by unfold f32Val; decide +kernel
  have h2 : f32Val 0x4F000000 = 2 ^ 31 := by unfold f32Val; decide +kernel
  have h3 : f32Val 0xCF000001 = -2 ^ 31 - 256 := by unfold f32Val; decide +kernel
  rw [h1, h2, h3]
  refine ⟨⟨Or.inl ⟨rfl, ?_, fun _ => rfl⟩, Or.inr (Or.inl ⟨rfl, ?_, ?_, ?_⟩), Or.inr (Or.inr (Or.inl ⟨rfl, ?_, ?_⟩)),
    Or.inr (Or.inr (Or.inr ⟨rfl, ?_, ?_⟩))⟩, ⟨Or.inl ⟨rfl, ?_, fun _ => rfl⟩, Or.inl ⟨rfl, ?_, fun _ => rfl⟩⟩, by decide⟩ <;> norm_num [abs_of_neg, abs_of_pos]

theorem witness_BeadFacts : (∃ i, i < 8 ∧ f32Nan ([0x7FC00000, 0, 0, 0, 0, 0, 0, 0].getD i 0)) ∧
    ∀ i, i < 8 → ¬f32Nan ([0x7F800000, 0x7F7FFFFF, 1, 0, 0, 0, 0, 0x80000000].getD i 0) := by
  unfold f32Nan; exact ⟨⟨0, by decide⟩, by decide⟩
/-- SMMA of zeros: every step stays at +0. -/
theorem witness_SmmaFacts : (List.replicate 512 (0 : Byte)).length = 512 ∧ smmaFmtOk 0xFEFE05 = true ∧
    (∀ x ∈ List.replicate 512 (0 : Byte) ++ List.replicate 512 0, x.toNat % 128 ≠ 127) ∧ 0xFEFE05 / 2 ^ 8 % 256 ≠ 255 ∧ 0xFEFE05 / 2 ^ 16 % 256 ≠ 255 ∧
    f32Finite 0 ∧ f32Val 0 = 0 ∧ |(0 : ℚ)| ≤ f32Max ∧ Nearest 0 0 := by
  have h0 : f32Val 0 = 0 := by unfold f32Val; decide +kernel
  refine ⟨List.length_replicate, by decide, ?_, by decide, by decide, by unfold f32Finite; decide, h0, by unfold f32Max; norm_num, by unfold f32Finite; decide, ?_⟩
  · intro x hx
    rcases List.mem_append.1 hx with h | h <;> rw [List.eq_of_mem_replicate h] <;> decide
  · intro y _
    rw [h0, sub_self, abs_zero]
    refine ⟨abs_nonneg _, fun hne he => absurd ?_ hne⟩
    rw [sub_zero] at he
    exact abs_eq_zero.1 he.symm
theorem witness_AreaFacts : (env.p.lanes.map (·.1)).Nodup := by decide

theorem witness_LaneResults : (∃ v, laneOp (.xlane ⟨false, 1⟩ 1 3 1 31) = some v ∧ (Instr.xlane ⟨false, 1⟩ 1 3 1 31).wellFormed = true ∧
      Meets v.hdr v.src [(v.dst, v.n)]) ∧
    ∃ v, scanOp (.scan ⟨false, 1⟩ 0 2 true 3 1) = some v ∧ (Instr.scan ⟨false, 1⟩ 0 2 true 3 1).wellFormed = true ∧
      Meets v.hdr v.src [(v.dst, v.n)] :=
  ⟨⟨_, rfl, by decide, meets rfl (by decide)⟩, _, rfl, by decide, meets rfl (by decide)⟩
theorem witness_ReductionResult : (Instr.red ⟨false, 1⟩ 1 2 3 1 1).wellFormed = true ∧ Meets ⟨false, 1⟩ [(1, 1)] [(3, 1)] :=
  ⟨by decide, meets rfl (by decide)⟩
theorem witness_ReductionSums : (Instr.red ⟨false, 1⟩ 0 1 3 1 0).wellFormed = true ∧ (1 : BitVec 2).toNat ≤ 1 ∧
    (env.p.lanes.map (·.1)).Nodup ∧ (∀ c ∈ env.p.lanes, c.1 < 32) ∧ Meets ⟨false, 1⟩ [(1, 1)] [(3, 1)] ∧ (3 : Reg).toNat < 112 :=
  ⟨by decide, by decide, by decide, by decide, meets rfl (by decide), by decide⟩
theorem witness_SystemResults : (∃ v, sysAct (.signal ⟨false, 1⟩ 2 6) = some v ∧ (Instr.signal ⟨false, 1⟩ 2 6).wellFormed = true ∧
      Meets v.hdr v.src v.dst) ∧
    (∃ v, rallyAct (.bar 1 15 1 7) = some v ∧ (Instr.bar 1 15 1 7).wellFormed = true ∧ Meets v.hdr v.src v.dst) ∧
    ∃ v, workAct (.win ⟨false, 1⟩ 10) = some v ∧ (Instr.win ⟨false, 1⟩ 10).wellFormed = true ∧ Meets v.hdr v.src v.dst :=
  ⟨⟨_, rfl, by decide, meets rfl (by decide)⟩, ⟨_, rfl, by decide, meets rfl (by decide)⟩, _, rfl, by decide, meets rfl (by decide)⟩
theorem witness_ModwInForce : (Instr.modw 3 true 2 3).wellFormed = true ∧ Issued env.s env.p env.t := ⟨by decide, issued_env⟩
theorem witness_ShapeAndRandomResults : (Instr.shape ⟨false, 1⟩ 3 95).wellFormed = true ∧ (Instr.rngsLo ⟨false, 1⟩ 3).wellFormed = true ∧
    (Instr.rngsHi ⟨false, 1⟩ 3).wellFormed = true ∧ Meets ⟨false, 1⟩ [] [(3, 1), (95, 1)] ∧ Meets ⟨false, 1⟩ [] [(3, 1)] :=
  ⟨by decide, by decide, by decide, meets rfl (by decide), meets rfl (by decide)⟩
/-- A branch whose guard reads p0, a jump through an aligned register and one through a misaligned register. -/
theorem witness_ControlResults : (∃ v, ctrlAct (.bra 7 0x40000) = some v ∧ (Instr.bra 7 0x40000).wellFormed = true ∧
      Issued env.s env.p env.t ∧ Runs env on v.hdr.guard v.src v.dst) ∧
    ((Instr.call 3 1).wellFormed = true ∧ InRange env on [(1, 1), (3, 1)] ∧ Clean on [(1, 1)] ∧ (env.rd on 1).toNat % 4 = 0) ∧
    (Instr.call 3 8).wellFormed = true ∧ InRange env on [(8, 1), (3, 1)] ∧ Clean on [(8, 1)] ∧ (env.rd on 8).toNat % 4 ≠ 0 := by
  refine ⟨⟨_, rfl, by decide, issued_env, ?_, Or.inl rfl, ?_⟩, ⟨by decide, ?_, ?_, by decide⟩, by decide, ?_, ?_, by decide⟩ <;>
    simp only [InRange, Clean] <;> decide
theorem witness_MemoryResults : (∃ v, memAct (.ld ⟨false, 1⟩ 4 4 2 0x40) = some v ∧ (Instr.ld ⟨false, 1⟩ 4 4 2 0x40).wellFormed = true ∧
      Meets v.hdr v.src v.dst) ∧
    ∃ v, copyAct (.cpOut ⟨false, 1⟩ 6 2 3) = some v ∧ (Instr.cpOut ⟨false, 1⟩ 6 2 3).wellFormed = true ∧ Meets v.hdr v.src v.dst :=
  ⟨⟨_, rfl, by decide, meets rfl (by decide)⟩, _, rfl, by decide, meets rfl (by decide)⟩
theorem witness_AtomicResults : (∃ v, accAct (.accwr ⟨false, 1⟩ 4 1 15 3) = some v ∧ (Instr.accwr ⟨false, 1⟩ 4 1 15 3).wellFormed = true ∧
      Meets v.hdr v.src v.dst) ∧
    ∃ v, atomAct (.atom ⟨false, 1⟩ 7 8 2 2 3 true) = some v ∧ (Instr.atom ⟨false, 1⟩ 7 8 2 2 3 true).wellFormed = true ∧
      Meets v.hdr v.src v.dst :=
  ⟨⟨_, rfl, by decide, meets rfl (by decide)⟩, _, rfl, by decide, meets rfl (by decide)⟩
theorem witness_UnitResults : (∃ v, sampAct (.sampleg ⟨false, 1⟩ 8 16 127) = some v ∧ (Instr.sampleg ⟨false, 1⟩ 8 16 127).wellFormed = true ∧
      Meets v.hdr v.src v.dst) ∧
    (∃ v, hypAct (.hstate ⟨false, 1⟩ 7 5) = some v ∧ (Instr.hstate ⟨false, 1⟩ 7 5).wellFormed = true ∧ Meets v.hdr v.src v.dst) ∧
    ∃ v, gfxAct (.taskout ⟨false, 1⟩ 4 5) = some v ∧ (Instr.taskout ⟨false, 1⟩ 4 5).wellFormed = true ∧ Meets v.hdr v.src v.dst :=
  ⟨⟨_, rfl, by decide, meets rfl (by decide)⟩, ⟨_, rfl, by decide, meets rfl (by decide)⟩, _, rfl, by decide, meets rfl (by decide)⟩
theorem witness_MatrixResults : (Instr.mxIssue ⟨false, 1⟩ 1).wellFormed = true ∧ (Instr.mxZero ⟨false, 1⟩ 15 3).wellFormed = true ∧
    lowest env.p 1 = some 0 ∧ Meets ⟨false, 1⟩ [(1, 1)] [] :=
  ⟨by decide, by decide, by decide, meets rfl (by decide)⟩

/-- Two lanes with formats for SMMA: equal and named, equal and not named, and different. -/
def smmaEnv (x y : Word) : Env :=
  let p := pack plain [(0, lane [(4, x)] 1), (1, { lane [(4, y)] 1 with tid := 1 })]
  ⟨{ dev with issue := some p }, team0, p⟩
def formats (x y : Word) : List Nat := (actives (smmaEnv x y).p 0).map fun c => ((smmaEnv x y).rd c.2 4).toNat
theorem runs_smma (x y : Word) : Issued (smmaEnv x y).s (smmaEnv x y).p (smmaEnv x y).t ∧
    Runs (smmaEnv x y) (lane [(4, x)] 1) 0 [(8, 8), (16, 8), (4, 1)] [] ∧ (0, lane [(4, x)] 1) ∈ (smmaEnv x y).p.lanes := by
  refine ⟨⟨rfl, rfl⟩, ⟨?_, Or.inl rfl, ?_⟩, List.mem_cons_self⟩
  · intro c hc _
    have hv : (smmaEnv x y).t.shape.vregs = 96 := rfl
    have hw : (lane [(4, x)] 1).wb = 0 := rfl
    have hb : ∀ c ∈ ([(8, 8), (16, 8), (4, 1)] ++ [] : Names), c.1.toNat + c.2 ≤ 96 := by decide
    have := hb c hc
    omega
  · intro c _ _ r hm; exact absurd hm (by simp [lane, show (default : Lane).poison = [] from rfl])
theorem witness_SmmaResults : (Instr.smma ⟨false, 0⟩ 16 8 4).wellFormed = true ∧
    (∀ x y, Issued (smmaEnv x y).s (smmaEnv x y).p (smmaEnv x y).t ∧
      Runs (smmaEnv x y) (lane [(4, x)] 1) 0 [(8, 8), (16, 8), (4, 1)] [] ∧ (0, lane [(4, x)] 1) ∈ (smmaEnv x y).p.lanes) ∧
    (formats 0 0 = [0, 0] ∧ smmaFmtOk 0 = true) ∧ (formats 0x3F 0x3F = [0x3F, 0x3F] ∧ smmaFmtOk 0x3F = false) ∧ formats 0 1 = [0, 1] :=
  ⟨by decide, runs_smma, by decide, by decide, by decide⟩

/-- The device with a pack of one lane issued. -/
def envOf (ln : Lane) : Env := ⟨issued plain [(0, ln)], team0, pack plain [(0, ln)]⟩
theorem issued_envOf (ln : Lane) : Issued (envOf ln).s (envOf ln).p (envOf ln).t ∧ (0, ln) ∈ (envOf ln).p.lanes :=
  ⟨⟨rfl, rfl⟩, List.mem_singleton.2 rfl⟩

/-- An operand above the registers of the team, and a marked source. -/
theorem witness_WindowRangeTraps : ∃ o, operands (.add ⟨false, 1⟩ 3 1 95) = some o ∧ (Instr.add ⟨false, 1⟩ 3 1 95).wellFormed = true ∧
    ∃ e ln, Issued e.s e.p e.t ∧ (0, ln) ∈ e.p.lanes ∧ ¬InRange e ln (o.2.1 ++ o.2.2) := by
  refine ⟨_, rfl, by decide, envOf { on with wb := 1 }, _, (issued_envOf _).1, (issued_envOf _).2, ?_⟩
  simp only [InRange]; decide
theorem witness_PoisonMarksNoted : ∃ o, operands (.ld ⟨false, 1⟩ 3 4 2 0) = some o ∧ (Instr.ld ⟨false, 1⟩ 3 4 2 0).wellFormed = true ∧
    ∃ e ln, Issued e.s e.p e.t ∧ (0, ln) ∈ e.p.lanes ∧ InRange e ln (o.2.1 ++ o.2.2) ∧ GuardOn ln o.1.guard ∧ ¬Clean ln o.2.1 := by
  refine ⟨_, rfl, by decide, envOf { on with poison := [3] }, _, (issued_envOf _).1, (issued_envOf _).2, ?_, ?_, ?_⟩ <;>
    simp only [InRange, GuardOn, Clean] <;> decide

/-! ### States that meet the hypotheses of the statements about device steps -/

theorem witness_StepRunsDecodedWord : ∃ (s : State) (p : Pack) (w : Word) (i : Instr), s.issue = some p ∧ p.fetch = some w ∧ decodeWord w = .ok i :=
  ⟨State.reset.withFetchWord 32 0x1400C082, _, 0x1400C082, .add ⟨false, 0⟩ 3 1 2, rfl, rfl, by decide⟩
/-- A word that does not decode, and a block that goes on past its words. -/
theorem witness_StepRaisesIllegal : (∃ (s : State) (p : Pack) (w : Word) (c : Nat), s.issue = some p ∧ p.fetch = some w ∧ decodeWord w = .error c) ∧
    ∃ (s : State) (p : Pack), s.issue = some p ∧ p.fetch = none :=
  ⟨⟨State.reset.withFetchWord 32 0x7C000000, _, 0x7C000000, 0x01, rfl, rfl, by decide⟩, State.reset.withFetchWord 0 0, _, rfl, rfl⟩
theorem witness_StepKeepsMemoryCanonical : ∃ (s : State) (t : State), Memory.wf s.mem = true ∧ step s = .next t :=
  ⟨{ dev with agenda := [⟨5, .selfTestDone⟩] }, _, by decide, rfl⟩

theorem witness_Encoding : (Instr.add ⟨true, 3⟩ 127 120 0).wellFormed = true ∧ isEvent (.add ⟨true, 3⟩ 127 120 0) = false ∧
    decodeWord 0x842FFFF4 = .ok (.braNot 2 0x7FFF4) := ⟨by decide, by decide, by decide⟩

/-- The device before RUNNING. -/
def starting (st : StartState) (accept : BitVec 256) : State :=
  { State.reset with start := ⟨st, 0, 0, accept, none⟩ }
theorem witness_StartTransitions : State.reset.start.st = .reset ∧ (starting .awaitImage 0).start.st = .awaitImage ∧
    (starting .failed 0).start.st = .failed ∧
    ((starting .verifying 0).start.st = .verifying ∧ (memGet (starting .verifying 0).mem 0).toNat ≠ 0x50) ∧
    ((1 : Word).getLsbD 0 = true ∧ (starting .awaitAccept 1).start.st = .awaitAccept ∧
      (starting .awaitAccept 1).start.featAccept.getLsbD 0 = true ∧ ∀ k, (starting .awaitAccept 1).start.featAccept.getLsbD k = true → k < 13) ∧
    ¬((starting .awaitAccept 0x2001).start.featAccept.getLsbD 0 = true ∧
      ∀ k, (starting .awaitAccept 0x2001).start.featAccept.getLsbD k = true → k < 13) := by
  refine ⟨rfl, rfl, rfl, ⟨rfl, by decide⟩, ⟨by decide, rfl, by decide, ?_⟩, ?_⟩
  · intro k hk
    by_contra h
    have e : (starting .awaitAccept 1).start.featAccept = 1#256 := rfl
    rw [e, BitVec.getLsbD_one] at hk
    simp only [Bool.and_eq_true, decide_eq_true_eq] at hk
    omega
  · rintro ⟨_, h⟩
    have := h 13 (by decide)
    omega

/-! Commands -/

/-- Bytes from an address on, as cells. -/
def cells (a : Nat) (bs : List Byte) : List Host.Cell :=
  ((List.range bs.length).filter fun i => bs.getD i 0 != 0).map fun i => (a + i, bs.getD i 0)
/-- A descriptor of a context of two masts, and of a queue of a class. -/
def ctxDesc : List Byte :=
  natLE 0x10000 8 ++ natLE 3 24 ++ natLE 0 12 ++ [1, 0] ++ natLE 0 2 ++ natLE 100 4 ++ natLE 5 4 ++ natLE 0 8
def queueDesc (cls : Byte) (period budget : Nat) : List Byte :=
  natLE 0x30000 8 ++ [4, cls, 0, 7] ++ natLE 0 4 ++ natLE 0x31000 8 ++ natLE period 4 ++ natLE budget 4
/-- The device with a command block at 0x20000 and a descriptor at 0x20040. -/
def commanded (s : State) (op num addr : Nat) (desc : List Byte) : State :=
  { s with mem := pageMem ++ cells 0x20000 (natLE op 4 ++ natLE num 4 ++ natLE addr 8) ++ cells 0x20040 desc }
theorem ready {s : State} {lo : Word} {op num addr : Nat} (h1 : s.start.st = .running ∧ s.cmd.busy = false)
    (h : (s.cmdBlock (pairOf lo s.cmd.hi).toNat).map (fun b => (b.op, b.num, b.addr)) = some (op, num, addr)) :
    ∃ b, CommandReady s lo op b ∧ b.num = num ∧ b.addr = addr := by
  cases hb : s.cmdBlock (pairOf lo s.cmd.hi).toNat with
  | none => rw [hb] at h; cases h
  | some b =>
    rw [hb] at h
    injection h with h
    injection h with ho h
    injection h with hn ha
    exact ⟨b, ⟨h1.1, h1.2, hb, ho⟩, hn, ha⟩

/-- A queue of the context's, mapped. -/
def queue2 : Queue := { (default : Queue) with
  num := 2, ring := 0x30000, size := 4, cls := 1, ctx := 0, vector := 7, consumedAddr := 0x31000, mapped := some 44 }
def queued : State := { dev with queues := [queue2] }

theorem witness_ContextCommands :
    (∃ (s : State) (b : CmdBlock) (d : List Byte), CommandReady s 0x20000 1 b ∧ b.num = 15 ∧ s.ctx? b.num = none ∧ s.readPhys b.addr 64 = some d ∧ ctxDescOk d = true ∧
      ∀ x ∈ s.ctxs, x.encMask &&& fieldLE d 0x2E 2 = 0) ∧
    (∃ (s : State) (b : CmdBlock), CommandReady s 0x20000 2 b ∧ b.num ≤ 15 ∧ (s.ctx? b.num).isSome = true) ∧
    (∃ (s : State) (n : Nat), s.cmd.destroying = some n) ∧
    ∃ (s : State) (b : CmdBlock) (c : Ctx), CommandReady s 0x20000 8 b ∧ b.num ≤ 15 ∧ s.ctx? b.num = some c ∧ b.addr < 2 ^ 52 ∧ b.addr % 65536 ≠ 0 ∧
      b.addr / 65536 * 65536 + b.addr % 65536 * 65536 ≤ Config.hbmEnd ∧ ∀ t ∈ s.teams, t.place = .resident ∨ t.place = .stopping := by
  refine ⟨?_, ?_, ⟨{ dev with cmd := { dev.cmd with destroying := some 0 } }, 0, rfl⟩, ?_⟩
  · obtain ⟨b, hb, hn, ha⟩ := ready (s := commanded dev 1 15 0x20040 ctxDesc) (lo := 0x20000) (op := 1) (num := 15) (addr := 0x20040)
      ⟨rfl, rfl⟩ (by decide)
    exact ⟨_, b, ctxDesc, hb, hn, by rw [hn]; decide, by rw [ha]; decide, by decide, by decide⟩
  · obtain ⟨b, hb, hn, _⟩ := ready (s := commanded dev 2 0 0 []) (lo := 0x20000) (op := 2) (num := 0) (addr := 0) ⟨rfl, rfl⟩ (by decide)
    exact ⟨_, b, hb, by omega, by rw [hn]; decide⟩
  · obtain ⟨b, hb, hn, ha⟩ := ready (s := commanded dev 8 0 0x40001 []) (lo := 0x20000) (op := 8) (num := 0) (addr := 0x40001)
      ⟨rfl, rfl⟩ (by decide)
    exact ⟨_, b, ctx0, hb, by omega, by rw [hn]; decide, by omega, by omega, by rw [ha]; decide, by decide⟩

/-- A destroy while a team has a staging entry. -/
theorem witness_ContextDestroyFlushes : ∃ (s : State) (b : CmdBlock), CommandReady s 0x20000 2 b ∧ (s.ctx? b.num).isSome = true ∧ b.num ≤ 15 ∧
    s.launches = [launch0] ∧ launch0.ctx = b.num ∧ launch0.det = false ∧ s.teams = [team0] ∧ team0.launch = launch0.id ∧ s.asyncs = [] ∧
    (s.mast team0.mast).staging ≠ [] ∧ ∀ e ∈ (s.mast team0.mast).staging, e.team = team0.id := by
  obtain ⟨b, hb, hn, _⟩ := ready (s := commanded { dev with masts := [{ (default : Mast) with staging := [⟨5, 0, 0x3000, hbmLoc 0x3000, 0, 0, 1, 7⟩] }] } 2 0 0 [])
    (lo := 0x20000) (op := 2) (num := 0) (addr := 0) ⟨rfl, rfl⟩ (by decide)
  exact ⟨_, b, hb, by rw [hn]; decide, by omega, rfl, by rw [hn]; decide, rfl, rfl, rfl, rfl, by decide, by decide⟩

/-- Where a walk of the tables puts an address, if anywhere. -/
def walked (s : State) (c : Ctx) (a : Acc) (va : Nat) : Option Loc := match s.walk a va 3 c.ptRoot with
  | .error _ => none
  | .ok (e, lvl, table) => some ((s.tlbEntryOf c.num va e lvl table).loc va)
/-- A translation where nothing is cached. -/
theorem xlate_at {s : State} {c : Ctx} {a : Acc} {va : Nat} {m : Option Nat} {l : Loc} (h : s.tlb = []) (hv : va < 2 ^ 52)
    (hw : walked s c a va = some l) (hm : ∀ k, m = some k → (s.mast k).tlb = [] := by nofun) : s.xlate c va a m = .ok l := by
  rw [xlate_cold _ _ _ _ h hm, if_neg (by omega)]
  unfold walked at hw
  cases hx : s.walk a va 3 c.ptRoot with
  | error e => rw [hx] at hw; cases hw
  | ok r =>
    obtain ⟨e, lvl, table⟩ := r
    simp only [hx, Option.some.injEq] at hw
    simp only [hw]
theorem xlate_fails {s : State} {c : Ctx} {a : Acc} {va : Nat} {m : Option Nat} (h : s.tlb = []) (hw : walked s c a va = none)
    (hm : ∀ k, m = some k → (s.mast k).tlb = [] := by nofun) : ∃ e, s.xlate c va a m = .error e := by
  rw [xlate_cold _ _ _ _ h hm]
  split
  · exact ⟨_, rfl⟩
  · unfold walked at hw
    cases hx : s.walk a va 3 c.ptRoot with
    | error e => exact ⟨e, rfl⟩
    | ok r => rw [hx] at hw; cases hw
/-- A range in one page where nothing is cached. -/
theorem range_on {s : State} {c : Ctx} {a : Acc} {va n : Nat} {m : Option Nat} {l : Loc} (h : s.tlb = []) (h0 : 0 < n) (hn : n ≤ 4096 - va % 4096)
    (hv : va < 2 ^ 52) (hw : walked s c a va = some l) (hm : ∀ k, m = some k → (s.mast k).tlb = [] := by nofun) :
    s.xrange c va n a m = .ok [(l, n)] := by rw [xrange_page _ _ _ h0 hn, xlate_at h hv hw hm]
/-- The same on identity pages. -/
theorem range_at (s : State) (c : Ctx) (a : Acc) (va n : Nat) (h : s.tlb = []) (h0 : 0 < n) (hn : n ≤ 4096 - va % 4096) (hv : va < 2 ^ 52)
    (hw : walked s c a va = some ⟨va, false, none⟩) : s.xrange c va n a = .ok [(⟨va, false, none⟩, n)] := range_on h h0 hn hv hw
/-- The bytes of a translated read. -/
theorem readRoot_at {s : State} {c : Ctx} {va n : Nat} {segs : List (Loc × Nat)} (h : s.xrange c va n .rd = .ok segs) :
    s.readRoot c va n = ((s.homeSegs c 0 segs).1,
      if (s.homeSegs c 0 segs).2.any (·.2) then none else some ((s.homeSegs c 0 segs).2.map (·.1))) := by
  unfold State.readRoot; rw [h]
/-- A read of the identity pages. -/
theorem read_at (s : State) (c : Ctx) (va n : Nat) (bs : List Byte) (h : s.xrange c va n .rd = .ok [(⟨va, false, none⟩, n)])
    (hb : (if (s.homeSegs c 0 [(⟨va, false, none⟩, n)]).2.any (·.2) then none
      else some ((s.homeSegs c 0 [(⟨va, false, none⟩, n)]).2.map (·.1))) = some bs) :
    s.readRoot c va n = ((s.homeSegs c 0 [(⟨va, false, none⟩, n)]).1, some bs) := by
  rw [readRoot_at h, hb]
theorem read_some {s : State} {c : Ctx} {va n : Nat} (h : s.xrange c va n .rd = .ok [(⟨va, false, none⟩, n)])
    (hb : (s.homeSegs c 0 [(⟨va, false, none⟩, n)]).2.any (·.2) = false) : ∃ s1 bs, s.readRoot c va n = (s1, some bs) := by
  rw [readRoot_at h, hb]; exact ⟨_, _, rfl⟩

/-- A queue whose error names a packet that has been read. -/
def stuck : Queue := { queue2 with error := true, errPacket := some 3 }
def stuckPkt : Packet := { (default : Packet) with id := 3, queue := 2, addr := 0x30FC0 }
theorem witness_QueueResumes : (∃ (s : State) (b : CmdBlock), CommandReady s 0x20000 5 b ∧ s.queue? b.num = some stuck ∧ b.addr % 2 = 1 ∧
      s.packet? 3 = some stuckPkt ∧ stuckPkt.queue = b.num) ∧
    (stuck.error = true ∧ stuck.errPacket = some 3 ∧ stuck.errUnread = false ∧ stuck.destroyed = false) ∧
    ∃ (s : State) (b : CmdBlock), CommandReady s 0x20000 5 b ∧ s.queue? b.num = some stuck ∧ b.addr % 2 = 0 ∧
      s.packet? 3 = some stuckPkt ∧ stuckPkt.queue = b.num ∧ ∃ s1 bs,
        (s.setQueue { stuck with error := false, errPacket := none, errUnread := false }).readRoot (s.ctxD stuck.ctx) stuckPkt.addr 64 = (s1, some bs) := by
  refine ⟨?_, by decide, ?_⟩
  · obtain ⟨b, hb, hn, ha⟩ := ready (s := commanded { queued with queues := [stuck], packets := [stuckPkt] } 5 2 1 []) (lo := 0x20000) (op := 5)
      (num := 2) (addr := 1) ⟨rfl, rfl⟩ (by decide)
    exact ⟨_, b, hb, by rw [hn]; decide, by rw [ha], by decide, by rw [hn]; rfl⟩
  · obtain ⟨b, hb, hn, ha⟩ := ready (s := commanded { queued with queues := [stuck], packets := [stuckPkt] } 5 2 0 []) (lo := 0x20000) (op := 5)
      (num := 2) (addr := 0) ⟨rfl, rfl⟩ (by decide)
    exact ⟨_, b, hb, by rw [hn]; decide, by rw [ha], by decide, by rw [hn]; rfl, read_some (range_at _ _ _ _ _ rfl (by decide) (by decide) (by decide) (by decide +kernel)) (by decide +kernel)⟩

theorem witness_QueueCommands :
    (∃ (s : State) (b : CmdBlock) (d : List Byte), CommandReady s 0x20000 3 b ∧ b.num < 1024 ∧ s.queue? b.num = none ∧ s.readPhys b.addr 32 = some d ∧
      s.queueDescOk d = true ∧ fieldLE d 9 1 = 0 ∧ ∀ m ∈ coreMasts (s.ctxD (fieldLE d 0x0A 1)).coreSet,
        s.frameFits (queueOfDesc b.num d :: s.queues) (s.floors.getD 0 0) m = true) ∧
    (∃ (s : State) (b : CmdBlock), CommandReady s 0x20000 4 b ∧ (s.queue? b.num).isSome = true) ∧
    (∃ (s : State) (b : CmdBlock) (q : Queue), CommandReady s 0x20000 5 b ∧ s.queue? b.num = some q ∧ q.error = true ∧ q.errPacket = none) ∧
    (∃ (s : State) (b : CmdBlock), CommandReady s 0x20000 6 b ∧
      b.addr % 256 + b.addr / 256 % 256 + b.addr / 65536 % 256 + b.addr / 16777216 % 256 = 100 ∧
      ∀ m, m < 192 → s.frameFits s.queues (b.addr % 256) m = true) ∧
    (∃ (s : State) (b : CmdBlock), CommandReady s 0x20000 0 b) ∧ ∃ (s : State) (b : CmdBlock), CommandReady s 0x20000 9 b := by
  refine ⟨?_, ?_, ?_, ?_, ?_, ?_⟩
  · obtain ⟨b, hb, hn, ha⟩ := ready (s := commanded { dev with floors := [50, 0, 0, 0] } 3 1023 0x20040 (queueDesc 0 1000 500))
      (lo := 0x20000) (op := 3) (num := 1023) (addr := 0x20040) ⟨rfl, rfl⟩ (by decide)
    exact ⟨_, b, queueDesc 0 1000 500, hb, by omega, by rw [hn]; decide, by rw [ha]; decide, by decide, by decide, by rw [hn]; decide⟩
  · obtain ⟨b, hb, hn, _⟩ := ready (s := commanded queued 4 2 0 []) (lo := 0x20000) (op := 4) (num := 2) (addr := 0) ⟨rfl, rfl⟩ (by decide)
    exact ⟨_, b, hb, by rw [hn]; decide⟩
  · obtain ⟨b, hb, hn, _⟩ := ready (s := commanded { dev with queues := [{ queue2 with error := true, errUnread := true }] } 5 2 1 [])
      (lo := 0x20000) (op := 5) (num := 2) (addr := 1) ⟨rfl, rfl⟩ (by decide)
    exact ⟨_, b, { queue2 with error := true, errUnread := true }, hb, by rw [hn]; decide, rfl, rfl⟩
  · obtain ⟨b, hb, _, ha⟩ := ready (s := commanded dev 6 0 0x0A0A1E32 []) (lo := 0x20000) (op := 6) (num := 0) (addr := 0x0A0A1E32)
      ⟨rfl, rfl⟩ (by decide)
    exact ⟨_, b, hb, by rw [ha], by intro m _; rfl⟩
  · obtain ⟨b, hb, _⟩ := ready (s := commanded dev 0 0 0 []) (lo := 0x20000) (op := 0) (num := 0) (addr := 0) ⟨rfl, rfl⟩ (by decide)
    exact ⟨_, b, hb⟩
  · obtain ⟨b, hb, _⟩ := ready (s := commanded dev 9 0 0 []) (lo := 0x20000) (op := 9) (num := 0) (addr := 0) ⟨rfl, rfl⟩ (by decide)
    exact ⟨_, b, hb⟩

theorem witness_AttestWritesReport : ∃ (s : State) (b : CmdBlock) (fw : Firmware), Memory.wf s.mem = true ∧ CommandReady s 0x20000 7 b ∧
    s.start.fw = some fw ∧ b.addr % 64 = 0 ∧ ∀ k, k < 0x41C8 → isReserved (b.addr + k) = false := by
  obtain ⟨b, hb, _, ha⟩ := ready (s := commanded { dev with start := { dev.start with fw := some ⟨3, [], [], []⟩ } } 7 0 0x40000 [])
    (lo := 0x20000) (op := 7) (num := 0) (addr := 0x40000) ⟨rfl, rfl⟩ (by decide)
  refine ⟨_, b, _, by decide, hb, rfl, by omega, fun k hk => ?_⟩
  have e : isHbm (b.addr + k) = true := by
    simp only [isHbm, Config.hbmEnd]
    exact decide_eq_true (by omega)
  simp [isReserved, e]

theorem witness_KickAndHandover :
    (∃ (s : State) (x : Queue), s.queue? 2 = some x ∧ (16 : Word) ≠ x.w ∧ (16 - x.w).toNat < 2 ^ 31 ∧ (16 - x.c).toNat = 2 ^ x.size) ∧
    (∃ (s : State) (x : Queue), s.queue? 2 = some x ∧ x.error = false ∧ (17 : Word) ≠ x.w ∧ (17 - x.w).toNat < 2 ^ 31 ∧
      2 ^ x.size < (17 - x.c).toNat) ∧
    (((2 : Word).getLsbD 0 = false ∧ (2 : Word).getLsbD 1 = true) ∧ (3 : Word).getLsbD 0 = true ∧ (3 : Word).getLsbD 1 = true) ∧
    (∃ s : State, (s.queue? 2).isSome = true ∧ (s.hand 2).busy = false ∧
      (s.hand 2).addr.toNat % 4096 = 0 ∧ (s.hand 2).bytes.toNat % 4096 = 0 ∧ (s.hand 2).bytes ≠ 0) ∧
    (∃ s : State, (s.queue? 2).isSome = true ∧ (s.hand 2).busy = false ∧ (s.hand 2).addr.toNat % 4096 ≠ 0) ∧
    (∃ s : State, (s.queue? 2).isSome = true ∧ (s.hand 2).busy = true) ∧ queued.queue? 3 = none := by
  refine ⟨⟨queued, queue2, rfl, by decide, by decide, by decide⟩, ⟨queued, queue2, rfl, rfl, by decide, by decide, by decide⟩, by decide,
    ⟨{ queued with handregs := [(2, ⟨0x1000, 0x1000, false, false, false, 0, false⟩)] }, rfl, rfl, rfl, rfl, by decide⟩,
    ⟨{ queued with handregs := [(2, ⟨0x1001, 0x1000, false, false, false, 0, false⟩)] }, rfl, rfl, by decide⟩,
    ⟨{ queued with handregs := [(2, ⟨0x1000, 0x1000, false, true, false, 0, false⟩)] }, rfl, rfl⟩, rfl⟩

/-- Handovers of one page: not mapped, of HBM, and of host memory, which the second 4 GiB map. -/
def hostMem : List Host.Cell := pageMem ++ [(0x12008, 0x0F), (0x1200E, 0x08)]
def handing (p : Option Nat) (addr : Nat) (toDev : Bool) : State := { queued with
  mem := hostMem, handovers := [⟨9, 2, 0, p, addr, 4096, toDev⟩], packets := [stuckPkt], hostCache := [⟨Config.hostBase, 7, true, false⟩] }
theorem witness_HandoverStep :
    (∀ p toDev, (handing p 0x200000000 toDev).handovers.find? (·.id == 9) = some ⟨9, 2, 0, p, 0x200000000, 4096, toDev⟩) ∧
    (∃ e, (handing none 0x200000000 false).xlate ctx0 0x200000000 .rd = .error e) ∧
    ((handing (some 3) 0x200000000 false).packet? 3 = some stuckPkt ∧ (handing (some 3) 0x200000000 false).queue? stuckPkt.queue = some queue2 ∧
      queue2.error = false ∧ queue2.destroyed = false) ∧
    ((handing none 0x3000 true).xlate ctx0 0x3000 .rd = .ok (hbmLoc 0x3000) ∧ isHost 0x3000 = false) ∧
    (∀ toDev, (handing none 0x100000000 toDev).xlate ctx0 0x100000000 .rd = .ok (hbmLoc Config.hostBase)) ∧
    isHost Config.hostBase = true ∧ Memory.wf hostMem = true ∧ ((handing none 0x100000000 false).hostCache.map (·.addr)).Nodup := by
  refine ⟨fun _ _ => rfl, xlate_fails rfl (by decide +kernel), by decide, ⟨xlate_at rfl (by decide) (by decide +kernel), by decide⟩, fun toDev => ?_,
    by decide, by decide, by decide⟩
  cases toDev <;> exact xlate_at rfl (by decide) (by decide +kernel)

/-- ALL, SIZE at both ends of its range, and an invalidation under way. -/
theorem witness_WindowRegisters : (0x404 ∈ [0x404, 0x500, 0x504, 0x608, 0x60C, 0x610, 0x614, 0xB00, 0xB04]) ∧
    ((0x100 : Word).getLsbD 8 = true ∧ (0x100 : Word).getLsbD 4 = false ∧ dev.tlbi.job = none ∧ (0x100 : Word).toNat / 32 % 8 < 5) ∧
    ((0x18F : Word).getLsbD 8 = true ∧ (0x18F : Word).getLsbD 4 = false ∧ (0x18F : Word).toNat / 32 % 8 = 4) ∧
    ((0x110 : Word).getLsbD 8 = true ∧ (0x110 : Word).getLsbD 4 = true) ∧
    (∃ (s : State), s.tlbi.job = some (0, 0x1000, 0x1000) ∧ s.detHolds 0 0x1000 0x1000 = false) ∧
    ∃ (s : State), s.tlbi.job = some (0, 0x1000, 0x1000) ∧ s.detHolds 0 0x1000 0x1000 = true :=
  ⟨by decide, by decide, by decide, by decide, ⟨{ dev with tlbi := { dev.tlbi with job := some (0, 0x1000, 0x1000) } }, rfl, by decide⟩,
    { dev with
      tlbi := { dev.tlbi with job := some (0, 0x1000, 0x1000) }
      teams := [{ team0 with staging := [⟨0x1FFC, hbmLoc 0x1FFC, 0, 0, 1, 7, 0, 0, 0⟩] }] }, rfl, by decide⟩

/-- A team with a FAULTED thread. -/
def faultedTeam : Team := { team0 with threads := [{ (default : Thread) with st := .faulted, next := 0x100 }] }
def faulted : State := { queued with teams := [faultedTeam], ctxs := [{ ctx0 with fvas := [0x7000] }] }
theorem witness_FaultRegisters :
    (∃ c, faulted.ctx? 0 = some c ∧ (0x10000 : Word).getLsbD 16 = true ∧ (0x10000 : Word).getLsbD 17 = false) ∧
    (0x20000 : Word).getLsbD 17 = true ∧
    (dev.fcount 0 = 0 ∧ faulted.fcount 0 = 1 ∧ (faulted.ctxD 0).fvas = [0x7000]) ∧
    ∃ l ∈ faulted.launches, l.ctx = 0 ∧ ∃ u ∈ faulted.teams, u.launch = l.id ∧ ∃ x ∈ u.threads, x.st = .faulted :=
  ⟨⟨_, rfl, by decide⟩, by decide, by decide, launch0, by decide, rfl, faultedTeam, by decide, rfl, _, List.mem_singleton.2 rfl, rfl⟩

/-- The bead table with a job. -/
def beading (j : BeadJob) : State := { dev with bead := { dev.bead with job := some j } }
theorem witness_BeadCommands :
    (BeadReady dev 0x10024 1 ∧ (0x10024 : Word).toNat / 65536 ≠ 0 ∧ dev.codedCount 0 = 0) ∧
    (beading (.learn 3 0 true)).bead.job = some (.learn 3 0 true) ∧
    (BeadReady dev 0x28 2 ∧ dev.bead.addr.toNat % 256 = 0 ∧ dev.codedCount 0 = 0) ∧
    ((beading (.load 1 0x40000 false)).bead.job = some (.load 1 0x40000 false) ∧
      ∃ bs, (beading (.load 1 0x40000 false)).readPhys 0x40000 256 = some bs) ∧
    (BeadReady dev 0x2F 3 ∧ dev.bead.addr.toNat % 256 = 0 ∧ dev.bead.len.toNat % 256 = 0) ∧
    (beading (.recode 1 0 256)).bead.job = some (.recode 1 0 256) ∧ BeadReady dev 0x20 0 := by
  unfold BeadReady
  refine ⟨by decide, rfl, by decide, ⟨rfl, List.replicate 256 0, by decide +kernel⟩, by decide, rfl, by decide⟩

/-- A block of 256 zeros coded in two sectors by a table in which 0 has the one-bit code, and its RECODE. -/
def lens2 : List Nat := 1 :: 8 :: List.replicate 254 9
def recoding : State := { beading (.recode 0 0x4000 256) with
  bead := { (beading (.recode 0 0x4000 256)).bead with slots := List.replicate 4 ⟨.frozen, lens2⟩ }
  nsec := [(0x40, 2)]
  mem := cells 0x4000 (natLE ((List.range 7).foldl (fun a k => a + 32 * (k + 1) * 2 ^ (8 + 11 * k)) 0) 12) ++ pageMem }
theorem witness_Recode : recoding.bead.job = some (.recode 0 0x4000 256) ∧ (recoding.nsec.map (·.1)).Nodup ∧ Memory.wf recoding.mem = true ∧
    (0x40, 2) ∈ recoding.nsec ∧ 256 * 0x40 + 256 ≤ Config.hbmEnd ∧ 256 * 0x40 < 0x4000 + 256 ∧ (memGet recoding.mem (256 * 0x40)).toNat % 4 = 0 ∧
    (recoding.decodedBlock (256 * 0x40)).2 = 8 ∧ ∀ x ∈ (recoding.decodedBlock (256 * 0x40)).1, x.2 = false := by decide +kernel

/-! Packets -/

/-- The 16 words of a packet. -/
def words16 (l : List (Nat × Word)) : List Word := (List.range 16).map fun i => alGetD l i 0
/-- A packet of the queue, read. -/
def pkt (l : List (Nat × Word)) : Packet :=
  { (default : Packet) with id := 3, queue := 2, words := words16 l, depth := 1, st := .read }
/-- The device with a packet and features accepted. -/
def held (p : Packet) : State := { queued with
  packets := [p], launches := [], teams := []
  start := { queued.start with featAccept := 0x1FFF } }
/-- The context with hypothesis 5 in a state. -/
def hypCtx (st : HypState) : Ctx := { ctx0 with hyps := [(5, ⟨st, 0, 0, 1⟩)] }

theorem witness_PacketsStart :
    (∃ x, Turn (held x) 3 x [] ∧ x.type = 0) ∧ (∃ x, Turn (held x) 3 x [] ∧ x.type = 1) ∧
    (∃ x, Turn (held x) 3 x [] ∧ x.type = 3 ∧ x.w 0x04 % 4 = 0) ∧ (∃ x, Turn (held x) 3 x [] ∧ x.type = 3 ∧ x.w 0x04 % 4 = 1) ∧
    (∃ x, Turn (held x) 3 x [] ∧ x.type = 3 ∧ x.w 0x04 % 4 = 2) ∧ (∃ x, Turn (held x) 3 x [] ∧ x.type = 5) ∧
    (∃ x, Turn (held x) 3 x [] ∧ x.type = 6 ∧ x.w 0x18 % 2 = 0) ∧ (∃ x, Turn (held x) 3 x [] ∧ x.type = 6 ∧ x.w 0x18 % 2 = 1) := by
  unfold Turn
  exact ⟨⟨pkt [(0, 0)], by decide⟩,
    ⟨pkt [(0, 0x01000001), (1, 0x100), (2, 0x40000), (4, 0x80081), (6, 0xFFFFFFFF), (8, 0x10001), (9, 1)], by decide⟩,
    ⟨pkt [(0, 3), (2, 0x2000), (4, 0x3000), (6, 16)], by decide⟩,
    ⟨pkt [(0, 3), (1, 1), (4, 0x3000), (6, 16)], by decide⟩,
    ⟨pkt [(0, 3), (1, 2), (2, 0x2000), (4, 0x3000), (6, 16), (8, 2), (9, 32), (10, 32)], by decide⟩,
    ⟨pkt [(0, 5), (2, 0x3000), (4, 1), (6, 0xFFFFFFFF)], by decide⟩,
    ⟨pkt [(0, 6), (2, 0x4000), (4, 0x1000)], by decide⟩, ⟨pkt [(0, 6), (2, 0x4000), (4, 0x1000), (6, 1)], by decide⟩⟩

/-- A HYPRES of hypothesis 5, confirming or refuting. -/
def resolved (op : Word) (st : HypState) : State := { held (pkt [(0, 8), (2, 5 + op)]) with ctxs := [hypCtx st] }
theorem witness_HypresStarts : (resolved 0 .opened).running = [] ∧
    (∃ x, Turn (resolved 0 .opened) 3 x [] ∧ x.type = 8 ∧ x.w 0x08 / 256 % 2 = 0) ∧
    (∃ x, Turn (resolved 256 .opened) 3 x [] ∧ x.type = 8 ∧ x.w 0x08 / 256 % 2 = 1 ∧
      (hypAt ((resolved 256 .opened).hypsAhead ((resolved 256 .opened).queueD x.queue).ctx) (x.w 0x08 % 256)).st = .opened) ∧
    ∃ x, Turn (resolved 256 .refuted) 3 x [] ∧ x.type = 8 ∧ x.w 0x08 / 256 % 2 = 1 ∧
      (hypAt ((resolved 256 .refuted).hypsAhead ((resolved 256 .refuted).queueD x.queue).ctx) (x.w 0x08 % 256)).st ≠ .opened := by
  unfold Turn
  exact ⟨rfl, ⟨pkt [(0, 8), (2, 5)], by decide⟩, ⟨pkt [(0, 8), (2, 0x105)], by decide⟩, ⟨pkt [(0, 8), (2, 0x105)], by decide⟩⟩

/-- SIGNAL writes and adds at 0x3000. -/
def sigPkt (op : Word) : Packet := pkt [(0, 4), (2, 0x3000), (4, 7), (6, op)]
theorem witness_SignalPacketWrites : ∀ op : Word, op = 0 ∨ op = 1 →
    Memory.wf (held (sigPkt op)).mem = true ∧ Turn (held (sigPkt op)) 3 (sigPkt op) [] ∧ (sigPkt op).type = 4 ∧
    (held (sigPkt op)).xrange ((held (sigPkt op)).ctxD ((held (sigPkt op)).queueD (sigPkt op).queue).ctx) ((sigPkt op).d 0x08) 8 .wr =
      .ok [(⟨0x3000, false, none⟩, 8)] ∧ 0x3000 + 8 ≤ Config.hbmEnd ∧
    (∀ k, k < 8 → 0x3000 + k ∉ (held (sigPkt op)).poison) ∧ ∀ c ∈ (held (sigPkt op)).ctxs, c.versions = [] := by
  unfold Turn
  rintro op (rfl | rfl) <;>
    exact ⟨by decide, by decide, by decide, range_at _ _ _ 0x3000 8 rfl (by decide) (by decide) (by decide) (by decide), by decide,
      by decide, by decide⟩

/-- A draw without a task stage, targets or tests: its state block gives a mesh stage of 32 threads, 32 registers and 1 KiB of DECK. -/
def drawBlock : List Byte := natLE 0 4 ++ natLE 0x80081 4 ++ List.replicate 248 0
def drawPkt : Packet :=
  pkt [(0, 2), (1, 0xFFFFFFFF), (2, 0x40000), (4, 0x200), (5, 0xFFFFFFFF), (6, 0xFFFFFFFF), (8, 5), (12, 0x20000)]
def drawHeld : State := { held drawPkt with mem := pageMem ++ cells 0x20000 drawBlock }
theorem draw_read : (drawHeld.readRoot ctx0 0x20000 256).2 = some drawBlock := by
  rw [read_at drawHeld ctx0 0x20000 256 drawBlock (range_at _ _ _ _ _ rfl (by decide) (by decide) (by decide) (by decide +kernel))
    (by decide +kernel)]
theorem witness_DrawStarts : Turn drawHeld 3 drawPkt [] ∧ drawPkt.type = 2 := by
  refine ⟨⟨rfl, by decide, by decide, ?_⟩, by decide⟩
  have e : drawHeld.ctxD (drawHeld.queueD drawPkt.queue).ctx = ctx0 := by decide
  have hd : drawHeld.drawCauses ctx0 drawPkt = [] := by
    unfold State.drawCauses
    rw [show drawPkt.d 0x30 = 0x20000 by decide, draw_read]
    decide +kernel
  rw [e]
  unfold State.packetChecks
  rw [show drawPkt.type = 2 by decide]
  simp only [hd]
  decide +kernel

/-- An ENCODE of a 64 × 64 frame of U8X4 pixels. -/
def encBlock : List Byte :=
  natLE 0 4 ++ natLE 64 2 ++ natLE 64 2 ++ natLE 256 4 ++ natLE 1 4 ++ natLE 0 4 ++ natLE 0 4 ++ natLE 60 4 ++ List.replicate 36 0
def encPkt : Packet := pkt [(0, 7), (2, 0x40000), (4, 0x50000), (8, 4096), (10, 0x20000)]
def encHeld : State := { held encPkt with mem := pageMem ++ cells 0x20000 encBlock, ctxs := [{ ctx0 with encMask := 1 }] }
theorem enc_read : (encHeld.readRoot { ctx0 with encMask := 1 } 0x20000 64).2 = some encBlock := by
  rw [read_at encHeld _ 0x20000 64 encBlock (range_at _ _ _ _ _ rfl (by decide) (by decide) (by decide) (by decide +kernel))
    (by decide +kernel)]
theorem witness_EncodeStarts : Turn encHeld 3 encPkt [] ∧ encPkt.type = 7 := by
  refine ⟨⟨rfl, by decide, by decide, ?_⟩, by decide⟩
  have e : encHeld.ctxD (encHeld.queueD encPkt.queue).ctx = { ctx0 with encMask := 1 } := by decide
  have hd : encHeld.encodeCauses { ctx0 with encMask := 1 } encPkt = [] := by
    unfold State.encodeCauses
    rw [show encPkt.d 0x28 = 0x20000 by decide, enc_read]
    decide +kernel
  rw [e]
  unfold State.packetChecks
  rw [show encPkt.type = 7 by decide]
  simp only [hd]
  decide +kernel

/-- A packet that has started or finished. -/
def begun (p : Packet) (st : PacketState) : Packet := { p with st := st }
/-- A FILL of two bytes, and a WAIT. -/
def fill2 : Packet := begun (pkt [(0, 3), (1, 1), (2, 0xBBAA), (4, 0x3000), (6, 2)]) .started
def waitFor (r : Word) : Packet := begun (pkt [(0, 5), (2, 0x3000), (4, r), (6, 0xFFFFFFFF), (9, 1)]) .started
theorem fill_moves : CopyMoves (held fill2) ctx0 fill2 (fun _ i => BitVec.ofNat 8 (0xBBAA / 256 ^ (i % 8))) fun _ i => 0x3000 + i := by
  have hn : fill2.d 0x18 = 2 := by decide
  refine ⟨by decide, by decide, ?_, ?_⟩
  · intro r i hr hi
    rw [hn] at hi
    have hr0 : r = 0 := by have : max 1 (fill2.w 0x20) = 1 := by decide
                           omega
    subst hr0
    refine ⟨fun _ => by rw [show fill2.d 0x08 = 0xBBAA by decide], fun h => absurd (by decide) h, ?_, ?_⟩
    · have hi' : i = 0 ∨ i = 1 := by omega
      rcases hi' with rfl | rfl <;> exact xlate_at rfl (by decide) (by decide)
    · simp only [Config.hbmEnd]; omega
  · intro r i k j hr _ hk _ h
    have : max 1 (fill2.w 0x20) = 1 := by decide
    exact ⟨by omega, Nat.add_left_cancel h⟩
theorem wait_value (r : Word) (hr : r = 0 ∨ r = 1) : ((held (waitFor r)).waitValue ((held (waitFor r)).ctxD ((held (waitFor r)).queueD (waitFor r).queue).ctx)
    (waitFor r)) = (held (waitFor r), some 0) := by
  unfold State.waitValue
  rcases hr with rfl | rfl
  · rw [show (waitFor 0).d 0x08 = 0x3000 by decide, range_at (held (waitFor 0)) _ .rd 0x3000 8 rfl (by decide) (by decide) (by decide)
      (by decide)]
    rfl
  · rw [show (waitFor 1).d 0x08 = 0x3000 by decide, range_at (held (waitFor 1)) _ .rd 0x3000 8 rfl (by decide) (by decide) (by decide)
      (by decide)]
    rfl
theorem witness_PacketsEnd :
    ((held fill2).packet? 3 = some fill2 ∧ fill2.type = 3 ∧ fill2.st = .started ∧ (held fill2).onEngine fill2 = true ∧ fill2.tail = [] ∧
      (held fill2).ctxD ((held fill2).queueD fill2.queue).ctx = ctx0) ∧
    ((held (waitFor 0)).packet? 3 = some (waitFor 0) ∧ (waitFor 0).type = 5 ∧ (waitFor 0).st = .started ∧ (waitFor 0).waitHolds 0 = true) ∧
    (∃ s : State, s = { held (waitFor 1) with ns := 1000 } ∧ s.packet? 3 = some (waitFor 1) ∧ (waitFor 1).waitHolds 0 = false ∧
      s.queue? (waitFor 1).queue = some queue2 ∧ queue2.error = false ∧ (waitFor 1).w 0x24 ≠ 0 ∧
      (waitFor 1).since + 1000 * (waitFor 1).w 0x24 ≤ s.ns) ∧
    ∃ x, x = begun (pkt [(0, 0x401)]) .finished ∧ (held x).packet? 3 = some x ∧ x.st = .finished ∧
      (∀ y ∈ (held x).packets, y.parent ≠ some 3) ∧ x.header / 1024 % 2 = 1 :=
  ⟨by decide, by decide, ⟨_, rfl, by decide⟩, _, rfl, by decide⟩

/-- A mapped queue with a NOP packet in its ring. -/
def scanQ : Queue := { queue2 with w := 1 }
def scanning : State := { queued with queues := [scanQ] }
/-- The device after the packet core has read that packet. -/
def scanned : State := (scanning.homeSegs (scanning.ctxD 0) 0 [(⟨0x30000, false, none⟩, 64)]).1
theorem scan_read : scanning.readRoot (scanning.ctxD 0) 0x30000 64 = (scanned, some (List.replicate 64 0)) :=
  read_at scanning (scanning.ctxD 0) 0x30000 64 (List.replicate 64 0)
    (range_at _ _ _ _ _ rfl (by decide) (by decide) (by decide) rfl) (by decide +kernel)
theorem scan_write : scanned.xrange (scanning.ctxD 0) 0x31000 8 .wr = .ok [(⟨0x31000, false, none⟩, 8)] :=
  range_at _ _ _ _ _ (by decide +kernel) (by decide) (by decide) (by decide) (by decide +kernel)
theorem witness_QueueScan : (scanning.queue? 2 = some scanQ ∧ scanQ.mapped.isSome ∧
      scanning.hasWork scanQ = true ∧ scanQ.w ≠ scanQ.c ∧
      scanning.packets.find? (fun p => p.queue == 2 && p.parent.isNone && p.st == .read) = none ∧ scanQ.ring = 0x30000 ∧ scanQ.consumedAddr = 0x31000 ∧
      (∃ s2, scanned.writeRoot (scanning.ctxD 0) 0x31000 (natLE 1 8) = some s2) ∧ Memory.wf scanning.mem = true ∧
      ∀ y ∈ scanning.ctxs, y.versions = []) ∧
    ∃ s : State, s = { scanning with ns := 250000, queues := [scanQ, { scanQ with num := 3, mapped := none, due := some 5 },
        { scanQ with num := 4, mapped := none, due := some 500000, cls := 3 }] } ∧ s.roundAt ≤ s.ns ∧
      (s.queues.map (·.num)).Nodup ∧ (∀ a ∈ s.queues, ∀ k ∈ a.mapped, k < 64) ∧
      (∀ a ∈ s.queues, ∀ b ∈ s.queues, ∀ k ∈ a.mapped, b.mapped = some k → a.num = b.num) ∧
      ∀ a ∈ s.queues, a.mapped = none → s.hasWork a = true := by
  refine ⟨⟨rfl, rfl, by decide, by decide, by decide, rfl, rfl, ?_, by decide, by decide⟩, _, rfl, by decide, by decide, by decide, ?_, by decide⟩
  · unfold State.writeRoot
    rw [show (natLE 1 8).length = 8 from rfl, scan_write]
    exact ⟨_, rfl⟩
  · decide

/-! Teams, packs and units -/

/-- One DISPATCH waiting on an empty device, with as many teams as its context has masts. -/
def waiting : Launch := { launch0 with admitted := false, teams := 2 }
def empty : State := { dev with launches := [waiting], teams := [] }
theorem witness_AdmissionStep : empty.launches = [waiting] ∧ empty.teams = [] ∧ waiting.draw = none ∧ waiting.admitted = false ∧
    Room.le waiting.shape.need mastRoom = true ∧ waiting.teams = (coreMasts (empty.ctxD waiting.ctx).coreSet).length := by decide +kernel

/-- A draw with a quad, a pixel and no work left but those; its state block and its pixel vary. -/
def drawData (b : List Byte) (p : PixelOut) : DrawData := ⟨b, none, 0x200, some 0x300, 1, ⟨0, 0, 0, 0, 0⟩, ⟨32, 32, 0, 1024, 0⟩, ⟨32, 32, 0, 0, 0⟩, 0, 0, 0, [0, 1],
  1, [], [], 0, [⟨0, 0, 0, [(true, 0, []), (true, 0, []), (false, 0, []), (false, 0, [])]⟩], 100, [], 0, [p], []⟩
def drawn (b : List Byte) (p : PixelOut) : State := { dev with
  launches := [{ launch0 with draw := some (drawData b p) }], teams := [], cycle := 356 }
/-- A depth and stencil buffer at 0x3000 with both tests on, and a target of F16 texels there with BLEND 1. -/
def depthBlock : List Byte := List.replicate 0x40 0 ++ natLE 0x6D0 4 ++ natLE 0xFFFF01 4 ++ natLE 0x111 8 ++ natLE 0x3000 8 ++ natLE 256 8 ++ List.replicate 160 0
def targetBlock : List Byte := List.replicate 0x40 0 ++ natLE 1 4 ++ List.replicate 0x3C 0 ++ natLE 0x3000 8 ++ natLE 256 4 ++ natLE 0x3D3 4 ++ List.replicate 0x70 0
/-- A pixel that exports nothing, and one that exports to target 0. -/
def still : PixelOut := ⟨8, 8, 0, 0x3F000000, []⟩
def shown : PixelOut := ⟨8, 8, 0, 0, [(0, [0x3F800000, 0, 0, 0x3F000000])]⟩
theorem witness_DrawSteps (b : List Byte) (p : PixelOut) (hp : b = depthBlock ∧ p = still ∨ b = targetBlock ∧ p = shown) : let l := { launch0 with draw := some (drawData b p) }
    (drawn b p).launch? 7 = some l ∧ (drawn b p).drawExhausted l (drawData b p) = true ∧ (drawData b p).lastQuad + 256 = (drawn b p).cycle ∧
    (drawData b p).quads ≠ [] ∧ l.hyp = 0 ∧ (drawn b p).earlierDraw l = false ∧
    (drawData b p).pixels.find? (fun x => !(drawn b p).pixelHeld l (drawData b p) x) = some p ∧ NoVersions (drawn b p) ∧
    Memory.wf (drawn b p).mem = true ∧ CleanHbm (drawn b p) 0x3840 8 := by
  unfold NoVersions CleanHbm
  rcases hp with ⟨rfl, rfl⟩ | ⟨rfl, rfl⟩ <;>
    exact ⟨rfl, by decide, rfl, by decide, rfl, by decide, by decide, by decide, by decide, by decide, by decide⟩
theorem witness_DepthStencil : ((listVal depthBlock 0x40 4).testBit 4 || (listVal depthBlock 0x40 4).testBit 9) = true ∧ still.outs = [] ∧
    (drawn depthBlock still).xlate ctx0 (listVal depthBlock 0x50 8 + still.y * listVal depthBlock 0x58 4 + still.x * 8) .wr = .ok (hbmLoc 0x3840) ∧
    f32Finite still.depth ∧ f32Finite (BitVec.ofNat 32 (valueAt (drawn depthBlock still) 0x3840 4)) := by
  refine ⟨by decide, rfl, xlate_at rfl (by decide) (by decide +kernel), ?_, ?_⟩ <;> unfold f32Finite <;> decide +kernel
theorem witness_TargetMerged : ((listVal targetBlock 0x40 4).testBit 4 || (listVal targetBlock 0x40 4).testBit 9) = false ∧
    0 < listVal targetBlock 0x40 4 % 16 ∧ listVal targetBlock 0x8C 4 % 16 = 3 ∧
    (drawn targetBlock shown).xlate ctx0 (listVal targetBlock 0x80 8 + shown.y * listVal targetBlock 0x88 4 + shown.x * 8) .wr =
      .ok (hbmLoc 0x3840) :=
  ⟨by decide, by decide, by decide, xlate_at rfl (by decide) (by decide +kernel)⟩

/-- An armed stream whose frame has no tiles left to release. -/
def armed : Stream := { (default : Stream) with engine := 2, stream := 1, packet := some 3 }
def coding : State := { held (begun encPkt .started) with streams := [armed] }
/-- What the engine codes is open (R379), so the bitstream is whatever `bs` is: it is cut at BUF_BYTES, 4096. -/
theorem witness_FrameEndStep : coding.streams.find? (fun y => y.engine == 2 && y.stream == 1) = some armed ∧
    armed.packet.bind coding.packet? = some (begun encPkt .started) ∧ armed.tileCount ≤ armed.tiles.length ∧ (begun encPkt .started).tail = [] ∧
    NoVersions coding ∧ Memory.wf coding.mem = true ∧ (begun encPkt .started).w 0x20 = 4096 ∧ coding.ctxD armed.ctx = ctx0 := by
  unfold NoVersions; decide
theorem witness_FrameBytes (bs : List Byte) (h0 : bs ≠ []) (h : bs.length ≤ 4096) : ∃ s1, coding.writeRoot ctx0 0x50000 bs = some s1 ∧
    coding.xrange ctx0 0x50000 bs.length .wr = .ok (piece 0x50000 bs.length) ∧ 0x50000 + bs.length ≤ Config.hbmEnd := by
  have hl : 0 < bs.length := List.length_pos_iff.2 h0
  have hx : coding.xrange ctx0 0x50000 bs.length .wr = .ok (piece 0x50000 bs.length) := by
    rw [piece, if_neg (by omega)]
    exact range_at _ _ _ _ _ rfl hl (by omega) (by decide) (by decide +kernel)
  refine ⟨_, by unfold State.writeRoot; rw [hx], hx, by simp only [Config.hbmEnd]; omega⟩
theorem witness_FrameStatus : coding.xrange ctx0 ((begun encPkt .started).d 0x28 + 0x20) 8 .wr = .ok (piece 0x20020 8) :=
  range_at _ _ _ _ _ rfl (by decide) (by decide) (by decide) (by decide +kernel)

/-- A line of code at 0x100: ADD v3, v1, v2 with S = 1, and at 0x104 RALLY m2, 512. -/
def codeLine : ILine := ⟨0, 2, natLE 0x9400C082 4 ++ natLE 0x88008008 4 ++ List.replicate 120 0, []⟩
def codeMast : Mast := { (default : Mast) with num := 0, icache := [codeLine] }
/-- A bin of thread 0. -/
def bin0 (block : Nat) : Bin := ⟨block, [0], false, false, false, none, [], [], []⟩
/-- A team with a READY thread in the bin of that block. -/
def readyTeam : Team := { team0 with
  threads := [{ (default : Thread) with st := .ready, next := 0x100, tagCount := [0, 0, 0, 0] }]
  bins := [bin0 0x100] }
/-- Its class has a claim or none. -/
def forming (claims : List (Nat × Int)) : State := { dev with
  teams := [readyTeam], masts := [{ codeMast with seq := { codeMast.seq with claims := claims } }], cycle := 100000
  start := { dev.start with featAccept := 0x1FFF } }
/-- The state in which PACK_FORM chooses. -/
def choosing (claims : List (Nat × Int)) : State :=
  ((forming claims).markMast 0).onSeq 0 fun q => { q with formed := some ((forming claims).cycle, 3) }
theorem witness_PackForm (claims : List (Nat × Int)) (hc : claims = [] ∨ claims = [(0, 100)]) : 3 < 4 ∧
    ((forming claims).flight.filter fun p => p.mast == 0 && p.pipe == 3).length < 8 ∧
    NotServed ((forming claims).mast 0).seq.formed (forming claims).cycle 3 ∧
    ((choosing claims).chooseTeam 0 3).map (fun x => (x.1.id, x.2.1.block, x.2.1.words, x.2.1.tids, x.2.2.1)) =
      some (5, 0x100, [0x9400C082], [0], claims != []) ∧ (choosing claims).checkBlock [0x9400C082] = none := by
  rcases hc with rfl | rfl
  · refine ⟨by decide, by decide, ?_, by decide +kernel, by decide +kernel⟩
    intro c q h; cases h
  · refine ⟨by decide, by decide, ?_, by decide +kernel, by decide +kernel⟩
    intro c q h; cases h
/-- A pipe that has been served in this cycle. -/
theorem witness_PackFormServed : ¬NotServed (some (5, 3)) 5 3 := fun h => by have := h 5 3 rfl; omega

/-- The same team at the RALLY, whose round has been open for its timeout. -/
def rallyTeam : Team := { readyTeam with bins := [{ bin0 0x104 with rally := some (2, 512), rounds := [(0, 5)] }] }
def rallying : State := { forming [] with teams := [rallyTeam] }
/-- Its thread has waited, and a round whose RALLY is read in the cached line. -/
theorem witness_Expiry : rallying.team? 5 = some rallyTeam ∧ rallyTeam.bins[0]? = some { bin0 0x104 with rally := some (2, 512), rounds := [(0, 5)] } ∧
    alGet 0 [(0, 5)] = some 5 ∧ 5 + 512 ≤ rallying.cycle ∧ (rallying.scanBlock { rallyTeam with bins := [{ bin0 0x104 with rounds := [(0, 5)] }] } 0x104).rally = some (2, 512) ∧
    (rallyTeam.thread 0).st = .ready ∧ (rallyTeam.thread 0).readyAt + rallyTeam.seqcfg.toNat / 65536 ≤ rallying.cycle := by decide

/-- A block whose line is not there: the first 128 bytes of the page at 0x5000. -/
def absentTeam : Team := { readyTeam with bins := [bin0 0x5000] }
def fetching : State := { forming [] with teams := [absentTeam] }
theorem fetched_clean : ∀ y ∈ (fetching.homeSegs ctx0 0 [(⟨0x5000, false, none⟩, 128)]).2, y.2 = false := by
  have h : (fetching.homeSegs ctx0 0 [(⟨0x5000, false, none⟩, 128)]).2.all (fun y => !y.2) = true := by decide +kernel
  intro y hy
  simpa using List.all_eq_true.1 h y hy
theorem witness_Fetch : fetching.team? 5 = some absentTeam ∧ fetching.ctx? (fetching.launchD absentTeam.launch).ctx = some ctx0 ∧ absentTeam.running = true ∧
    absentTeam.bins.find? (·.block == 0x5000) = some (bin0 0x5000) ∧
    (fetching.scanBlock absentTeam 0x5000).bad = none ∧ (fetching.scanBlock absentTeam 0x5000).missing = some 0x5000 ∧
    fetching.xrange ctx0 (0x5000 / 128 * 128) 128 .ex (some absentTeam.mast) = .ok [(⟨0x5000, false, none⟩, 128)] ∧
    (∀ y ∈ (fetching.homeSegs ctx0 0 [(⟨0x5000, false, none⟩, 128)]).2, y.2 = false) ∧
    ∀ x ∈ (fetching.mast absentTeam.mast).icache, x.poison = [] :=
  ⟨by decide, by decide, by decide, by decide, by decide, by decide,
    range_on rfl (by decide) (by decide) (by decide) (by decide) (by rintro k ⟨⟩; rfl), fetched_clean, by decide⟩

/-- A pack of one lane in flight, and at the end of its block with some operations. -/
def lane0 (ops : List OpRec) (tr : Option TrapRec) : Lane := { lane [(1, 5)] 1 with ops := ops, trap := tr, next := some 0x104 }
def endPack (ln : Lane) (ended : Bool) : Pack := { pack plain [(0, ln)] with ended := ended }
def flying (ln : Lane) (ended : Bool) : State := { dev with flight := [endPack ln ended] }
theorem witness_Issue : (flying (lane0 [] none) false).issueChoice 0 0 = some (endPack (lane0 [] none) false) ∧
    alGet 0 ((flying (lane0 [] none) false).mast 0).seq.issued ≠ some (flying (lane0 [] none) false).cycle ∧
    (flying (lane0 [] none) false).team? (endPack (lane0 [] none) false).team = some team0 ∧ team0.place = .resident := by decide
/-- A pipe that has issued in this cycle. -/
theorem witness_IssueAgain : ∃ s : State, alGet 0 (s.mast 0).seq.issued = some s.cycle :=
  ⟨{ dev with masts := [{ codeMast with seq := { codeMast.seq with issued := [(0, 0)] } }] }, rfl⟩
/-- Two packs that ask for bank 31. -/
def asking : State := { dev with
  flight := [{ pack plain [] with reads := [31] }, { pack plain [] with id := 10, formed := 1, reads := [31] }] }
theorem witness_Loss : (pack plain []).id ≠ 10 ∧ (pack plain []).mast = 0 ∧
    { pack plain [] with reads := [31] }.older { pack plain [] with id := 10, formed := 1, reads := [31] } = true ∧ asking.team? 5 = some team0 := by decide

/-! Commits -/

/-- A state with a pack of one lane at its end. -/
def flyOn (s : State) (ln : Lane) : State := { s with flight := [endPack ln true] }
/-- What a state holds of such a pack's team, launch and thread. -/
def Settled (s : State) (tm : Team) (l : Launch) (ln : Lane) : Prop :=
  s.team? 5 = some tm ∧ tm.mast = 0 ∧ s.launch? tm.launch = some l ∧ (s.ctx? l.ctx).isSome = true ∧ ln.tid < tm.threads.length ∧
  (tm.thread ln.tid).out = [] ∧ (∀ n ∈ (tm.thread ln.tid).tagCount, n ≤ 255) ∧ isOrphan (s.ctxD l.ctx).hyps ln.hyp = false ∧
  isOrphan (s.ctxD l.ctx).hyps (tm.thread ln.tid).hyp = false ∧ (s.mast 0).ring.length ≤ 4 ∧
  (s.mast 0).staging.length ≤ s.stagingRoom 0 ∧ (s.mast 0).seq.resolved = none ∧ (∀ x ∈ tm.threads, x.waits = []) ∧
  (∀ o ∈ (s.mast 0).mxq, o.id < s.nextId) ∧ (∀ o ∈ tm.accOps, o.id < s.nextId) ∧ ∀ j ∈ (s.mast 0).sjobs, j.team = 5 → j.tid ≠ ln.tid
theorem at_end {s : State} {tm : Team} {l : Launch} {ln : Lane} (h : Settled s tm l ln) : AtEnd (flyOn s ln) 9 (endPack ln true) tm l 0 ln ln.ops := by
  obtain ⟨h1, h2, h3, h4, h5, h6, h7, h8, h9, h10, h11, h12, h13, h14, h15⟩ := h
  refine ⟨rfl, rfl, (fun _ hu => nomatch hu), rfl, h1, h2.symm, h3, h4, h5, rfl, h6, h7, h8, h9, h10, h11, ?_, ?_, h14, h15⟩
  · intro c q hq
    rw [show ((flyOn s ln).mast (endPack ln true).mast).seq.resolved = none from h12] at hq
    cases hq
  · intro x hx n
    rw [h13 x hx]
    exact List.not_mem_nil
/-- A lane with one operation, waiting for some barriers. -/
def doing (op : MemOp) (ws : List Nat) : Lane := { lane0 [⟨0x104, op⟩] none with barWait := ws }
theorem performs {s : State} {tm : Team} {l : Launch} {op : MemOp} {ws : List Nat} (h : Settled s tm l (doing op ws)) (hw : Memory.wf s.mem = true) :
    Performs (flyOn s (doing op ws)) 9 (endPack (doing op ws) true) tm l 0 (doing op ws) ws 0x104 op :=
  ⟨at_end h, rfl, rfl, rfl, rfl, rfl, rfl, hw⟩
/-- Some bytes of the identity pages. -/
theorem lies {s : State} {ln : Lane} {l : Launch} {va n : Nat} {acc : Acc} (ht : s.tlb = []) (hm : (s.mast 0).tlb = []) (hp : s.poison = []) (h0 : 0 < n) (hn : n ≤ 4096 - va % 4096)
    (hv : va < 2 ^ 32) (hw : walked s (s.ctxD l.ctx) acc va = some ⟨va, false, none⟩) : Lies (flyOn s ln) (endPack ln true) l va n acc va := by
  refine ⟨range_on (s := flyOn s ln) ht h0 hn (by omega) hw (by rintro k ⟨⟩; exact hm), ?_, ?_⟩
  · simp only [Config.hbmEnd]; omega
  · intro k _ hk
    rw [show (flyOn s ln).poison = [] from hp] at hk
    cases hk

theorem witness_CommitTakesBlock : AtEnd (flyOn dev (lane0 [] none)) 9 (endPack (lane0 [] none) true) team0 launch0 0 (lane0 [] none) [] ∧
    (lane0 [] none).trap = none ∧ (lane0 [] none).poisonAt = none ∧ (lane0 [] none).tagWait = none ∧ (lane0 [] none).pause = none ∧
    (lane0 [] none).barWait = [] ∧ (lane0 [] none).exits = false := ⟨at_end (by unfold Settled; decide), by decide⟩
theorem witness_CommittedStoreWritesBytes : ∃ op, op = .store 0x3000 [(0xAA, false), (0xBB, true)] ∧
    AtEnd (flyOn dev (doing op [])) 9 (endPack (doing op []) true) team0 launch0 0 (doing op []) [⟨0x104, op⟩] ∧
    Memory.wf dev.mem = true ∧ (doing op []).trap = none ∧ (doing op []).poisonAt = none ∧ resolveHyp (dev.ctxD launch0.ctx).hyps (doing op []).hyp = 0 ∧
    (flyOn dev (doing op [])).xrange (dev.ctxD launch0.ctx) 0x3000 2 .wr (some 0) = .ok [(⟨0x3000, false, none⟩, 2)] :=
  ⟨_, rfl, at_end (by unfold Settled; decide), by decide, rfl, rfl, by decide,
    range_on rfl (by decide) (by decide) (by decide) (by decide) (by rintro k ⟨⟩; rfl)⟩
theorem witness_AccessCommits : (∃ op, op = .load 0x3000 4 3 ∧ Performs (flyOn dev (doing op [])) 9 (endPack (doing op []) true) team0 launch0 0 (doing op []) [] 0x104 op ∧
      Lies (flyOn dev (doing op [])) (endPack (doing op []) true) launch0 0x3000 (accessBytes 4) .rd 0x3000) ∧
    (∃ op, op = .atom 0x3000 7 2 1 [1, 2, 3, 4] (some 4) ∧ Performs (flyOn dev (doing op [])) 9 (endPack (doing op []) true) team0 launch0 0 (doing op []) [] 0x104 op ∧
      Lies (flyOn dev (doing op [])) (endPack (doing op []) true) launch0 0x3000 8 .wr 0x3000) ∧
    (∃ op, op = .atomb 0x3000 0 3 1 7 ∧ Performs (flyOn dev (doing op [])) 9 (endPack (doing op []) true) team0 launch0 0 (doing op []) [] 0x104 op ∧
      Lies (flyOn dev (doing op [])) (endPack (doing op []) true) launch0 0x3000 4 .wr 0x3000) ∧
    launch0.det = false ∧ NoVersions dev ∧ (dev.mast 0).l1 = [] ∧ (dev.mast 0).staging = [] ∧ 0 < dev.stagingRoom 0 := by
  unfold NoVersions
  refine ⟨⟨_, rfl, performs (by unfold Settled; decide) (by decide), lies rfl rfl rfl (by decide) (by decide) (by decide) (by decide)⟩,
    ⟨_, rfl, performs (by unfold Settled; decide) (by decide), lies rfl rfl rfl (by decide) (by decide) (by decide) (by decide)⟩,
    ⟨_, rfl, performs (by unfold Settled; decide) (by decide), lies rfl rfl rfl (by decide) (by decide) (by decide) (by decide)⟩, by decide⟩

/-- A tile with an element 2^40 at exponent 0, the value 1. -/
def tiled : Team := { team0 with tiles := [(0, ⟨[(5, 2 ^ 40)], 0, false, false, [5]⟩)] }
def onTile : State := { dev with teams := [tiled] }
theorem witness_AccumCommits : (∀ op, op = .accWrite 5 0 5 [1, 2] ∨ op = .accWrite 5 0 0 [0x3F800000] ∨ op = .accRead 5 0 5 4 ∨ op = .accRead 5 0 0 4 ∨
      op = .mxZero 0 3 → Performs (flyOn onTile (doing op [])) 9 (endPack (doing op []) true) tiled launch0 0 (doing op []) [] 0x104 op) ∧
    tiled.accOps = [] ∧ (onTile.mast 0).mxq = [] ∧ f32Finite 0x3F800000 ∧ f32Val 0x3F800000 = ((2 ^ 40 : Int) : ℚ) * (2 : ℚ) ^ ((tiled.tile 0).te - 40) ∧
    (tiled.tile 0).elem 5 = 2 ^ 40 ∧ (tiled.tile 0).void = false ∧ 3 < (tiled.thread 0).tagCount.length ∧ (tiled.thread 0).count 3 < 255 := by
  refine ⟨?_, by decide, by decide, by unfold f32Finite; decide, by unfold f32Val; decide +kernel, by decide⟩
  rintro op (rfl | rfl | rfl | rfl | rfl) <;> exact performs (by unfold Settled; decide) (by decide)

/-- A context in which ID 5 is open at a depth. -/
def hypDev (depth : Nat) : State := { dev with ctxs := [{ ctx0 with hyps := [(5, ⟨.opened, 0, 0, depth⟩)] }] }
theorem witness_HypCommits : (∀ op, op = .hopen 4 2 ∨ op = .hset 5 ∨ op = .hconfirm 5 →
      Performs (flyOn (hypDev 1) (doing op [])) 9 (endPack (doing op []) true) team0 launch0 0 (doing op []) [] 0x104 op) ∧
    ((hypDev 1).running = [] ∧ (hypDev 1).asyncs = []) ∧
    (∀ hs, hs = ((hypDev 1).ctxD launch0.ctx).hyps →
      (hypAt hs (resolveHyp hs 0)).depth < 8 ∧ (hypAt hs 1).st = .free ∧ (hypAt hs 5).st = .opened ∧ isOrphan hs (resolveHyp hs 5) = false) ∧
    ∃ ln, ln = { doing (.hopen 4 2) [] with hyp := 5 } ∧
      Performs (flyOn (hypDev 8) ln) 9 (endPack ln true) team0 launch0 0 ln [] 0x104 (.hopen 4 2) ∧
      (hypAt ((hypDev 8).ctxD launch0.ctx).hyps (resolveHyp ((hypDev 8).ctxD launch0.ctx).hyps ln.hyp)).depth = 8 := by
  refine ⟨?_, by decide, by rintro hs rfl; decide, _, rfl, ⟨at_end (by unfold Settled; decide), rfl, rfl, rfl, rfl, rfl, rfl, by decide⟩, by decide⟩
  rintro op (rfl | rfl | rfl) <;> exact performs (by unfold Settled; decide) (by decide)

/-- The first of two arrivals, with a predicate and without, and the last one. -/
theorem witness_BarrierCommits : (∀ op ws, op = .barArrive 3 2 (some 1) ∧ ws = [3] ∨ op = .barArrive 3 2 none ∧ ws = [] ∨ op = .barArrive 3 1 (some 1) ∧ ws = [3] →
      Performs (flyOn dev (doing op ws)) 9 (endPack (doing op ws) true) team0 launch0 0 (doing op ws) ws 0x104 op) ∧
    (team0.thread 0).pending 3 = false ∧ (team0.bar 3).count = 0 ∧ 2 ≤ team0.shape.tsize := by
  refine ⟨?_, by decide⟩
  rintro op ws (⟨rfl, rfl⟩ | ⟨rfl, rfl⟩ | ⟨rfl, rfl⟩) <;> exact performs (by unfold Settled; decide) (by decide)

/-- A list at 0x14000 with room for `n` entries. -/
def listed (n : Byte) : State := { dev with mem := pageMem ++ (if n = 0 then [] else [(0x14004, n)]) }
theorem witness_LateCommits (n : Byte) (hn : n = 0 ∨ n = 2) : (∀ op, op = .signal 0x14000 7 ∨ op = .append 0x14000 1 2 →
      Performs (flyOn (listed n) (doing op [])) 9 (endPack (doing op []) true) team0 launch0 0 (doing op []) [] 0x104 op ∧
      Lies (flyOn (listed n) (doing op [])) (endPack (doing op []) true) launch0 0x14000 8 .wr 0x14000 ∧
      Lies (flyOn (listed n) (doing op [])) (endPack (doing op []) true) launch0 0x14000 4 .wr 0x14000 ∧
      Lies (flyOn (listed n) (doing op [])) (endPack (doing op []) true) launch0 (0x14000 + 4) 4 .rd (0x14000 + 4) ∧
      Lies (flyOn (listed n) (doing op [])) (endPack (doing op []) true) launch0 (0x14000 + 8 + 8 * 0) 8 .wr (0x14000 + 8 + 8 * 0)) ∧
    valueAt (listed n) 0x14000 4 = 0 ∧ valueAt (listed n) 0x14004 4 = n.toNat ∧ NoVersions (listed n) ∧ (listed n).asyncs = [] ∧
    ((listed n).mast 0).staging = [] ∧ (listed n).hostCache = [] := by
  unfold NoVersions
  rcases hn with rfl | rfl <;>
    (refine ⟨?_, by decide⟩
     rintro op (rfl | rfl) <;>
       exact ⟨performs (by unfold Settled; decide) (by decide), lies rfl rfl rfl (by decide) (by decide) (by decide) (by decide),
         lies rfl rfl rfl (by decide) (by decide) (by decide) (by decide), lies rfl rfl rfl (by decide) (by decide) (by decide) (by decide),
         lies rfl rfl rfl (by decide) (by decide) (by decide) (by decide)⟩)

theorem witness_SyncCommits : (∀ op, op = .fence 1 1 ∨ op = .fence 2 0 ∨ op = .acqr 1 →
      Performs (flyOn dev (doing op [])) 9 (endPack (doing op []) true) team0 launch0 0 (doing op []) [] 0x104 op) ∧
    (coreMasts (dev.ctxD launch0.ctx).coreSet)[1]? = some 1 := by
  refine ⟨?_, by decide +kernel⟩
  rintro op (rfl | rfl | rfl) <;> exact performs (by unfold Settled; decide) (by decide)

/-- A store before a trap, before a consumed mark, and to a page that is not there. -/
def storeOp (ea : Dword) : OpRec := ⟨0x104, .store ea [(0xAA, false)]⟩
theorem stores (ea : Dword) : ∀ o ∈ [storeOp ea], IsStore o := by
  intro o ho
  rw [List.mem_singleton.1 ho]
  exact Or.inl ⟨_, _, rfl⟩
theorem witness_TrapEntersHandler : (∀ ln, ln = lane0 [storeOp 0x3000] (some ⟨0x20, 5, 0x108⟩) ∨ ln = { lane0 [storeOp 0x3000] none with poisonAt := some (0x108, some 0x7000) } →
      AtEnd (flyOn dev ln) 9 (endPack ln true) team0 launch0 0 ln [storeOp 0x3000] ∧ Stored ln [storeOp 0x3000]) ∧ launch0.trapEntry = some 0x40 := by
  refine ⟨?_, rfl⟩
  rintro ln (rfl | rfl) <;>
    exact ⟨at_end (by unfold Settled; decide), stores 0x3000, rfl⟩
/-- The first fault of the context, and one after another thread has parked. -/
theorem witness_ParkStep (s : State) (hs : s = queued ∨ s = { queued with teams := [team0, { faultedTeam with id := 6 }] }) : ∃ op, op = .store 0x200000000 [(0xAA, false)] ∧
    AtEnd (flyOn s (doing op [])) 9 (endPack (doing op []) true) team0 launch0 0 (doing op []) [⟨0x104, op⟩] ∧
    s.ctx? launch0.ctx = some ctx0 ∧ (∃ e, (flyOn s (doing op [])).xrange ctx0 0x200000000 1 .wr (some 0) = .error e) ∧
    s.queue? launch0.queue = some queue2 ∧ (s.teams.map (·.id)).Nodup ∧ (team0.thread 0).st ≠ .faulted ∧ (s.fcount launch0.ctx = 0 ↔ s = queued) := by
  have h : s.tlb = [] ∧ (s.mast 0).tlb = [] ∧ walked s ctx0 .wr 0x200000000 = none := by rcases hs with rfl | rfl <;> decide +kernel
  have hx (ln : Lane) : ∃ e, (flyOn s ln).xrange ctx0 0x200000000 1 .wr (some 0) = .error e := by
    rw [xrange_page _ _ _ (by decide) (by decide)]
    obtain ⟨e, he⟩ := xlate_fails (s := flyOn s ln) (c := ctx0) (a := .wr) (va := 0x200000000) (m := some 0) h.1 h.2.2 (by rintro k ⟨⟩; exact h.2.1)
    rw [he]
    exact ⟨_, rfl⟩
  rcases hs with rfl | rfl
  · exact ⟨_, rfl, at_end (by unfold Settled; decide), by decide, hx _, by decide, by decide, by decide, ⟨fun _ => rfl, fun _ => by decide⟩⟩
  · exact ⟨_, rfl, at_end (by unfold Settled; decide), by decide, hx _, by decide, by decide, by decide, ⟨fun h => absurd h (by decide), fun h => absurd h (by decide)⟩⟩

/-- No overflow slot for a version of ID 5, a DET team with 512 entries, and a payload ring without a free slot. -/
def fullTeam : Team := { team0 with staging := List.replicate 512 ⟨0x3000, hbmLoc 0x3000, 1, 0, 1, 7, 0, 0, 0⟩ }
theorem witness_ResourceStep : (∃ ln, ln = { doing (.store 0x3000 [(0xAA, false)]) [] with hyp := 5 } ∧
      AtEnd (flyOn (hypDev 1) ln) 9 (endPack ln true) team0 launch0 0 ln ln.ops ∧ (hypDev 1).asyncs = [] ∧
      resolveHyp ((hypDev 1).ctxD 0).hyps ln.hyp = 5 ∧ ((hypDev 1).ctxD 0).hypOvfSize = 0 ∧ ((hypDev 1).ctxD 0).versions = [] ∧
      (flyOn (hypDev 1) ln).xrange ((hypDev 1).ctxD 0) 0x3000 1 .wr (some 0) = .ok [(⟨0x3000, false, none⟩, 1)]) ∧
    (∃ (s : State) (l : Launch) (op : MemOp), s = { dev with launches := [l], teams := [fullTeam] } ∧ l = { launch0 with det := true } ∧
      op = .atomb 0x3000 1 0 1 7 ∧ AtEnd (flyOn s (doing op [])) 9 (endPack (doing op []) true) fullTeam l 0 (doing op []) [⟨0x104, op⟩] ∧
      512 ≤ fullTeam.detUsed ∧ (flyOn s (doing op [])).xrange (s.ctxD l.ctx) 0x3000 4 .wr (some 0) = .ok [(⟨0x3000, false, none⟩, 4)]) ∧
    ∃ (s : State) (op : MemOp), s = { dev with masts := [{ (default : Mast) with ring := List.replicate 4 ⟨0, 7, [], 1⟩ }] } ∧ op = .taskout 1 0 ∧
      AtEnd (flyOn s (doing op [])) 9 (endPack (doing op []) true) team0 launch0 0 (doing op []) [⟨0x104, op⟩] ∧ (s.mast 0).ring.length = 4 := by
  refine ⟨⟨_, rfl, at_end (by unfold Settled; decide), rfl, by decide, rfl, rfl, range_on rfl (by decide) (by decide) (by decide) (by decide) (by rintro k ⟨⟩; rfl)⟩,
    ⟨_, _, _, rfl, rfl, rfl, at_end (by unfold Settled; decide +kernel), by decide +kernel, range_on rfl (by decide) (by decide) (by decide) (by decide) (by rintro k ⟨⟩; rfl)⟩,
    _, _, rfl, rfl, at_end (by unfold Settled; decide), rfl⟩

/-- A trap in a launch without a handler. -/
theorem witness_LaunchFault : ∃ (s : State) (l : Launch) (ln : Lane), s = { queued with launches := [l] } ∧ l = { launch0 with trapEntry := none } ∧
    ln = lane0 [storeOp 0x3000] (some ⟨0x20, 5, 0x108⟩) ∧ AtEnd (flyOn s ln) 9 (endPack ln true) team0 l 0 ln [storeOp 0x3000] ∧ Stored ln [storeOp 0x3000] ∧
    s.queue? l.queue = some queue2 ∧ queue2.error = false ∧ queue2.destroyed = false :=
  ⟨_, _, _, rfl, rfl, rfl, at_end (by unfold Settled; decide), ⟨stores 0x3000, rfl⟩, by decide⟩

/-! Units, operations and the outside -/

/-- A thread that waits for a result, and one that pauses. -/
def result0 : Result := ⟨[some 4], none, 0x10, .words [(7, true)]⟩
def landing : Team := { team0 with threads := [{ (default : Thread) with st := .waiting, out := [result0], tagCount := [0, 0, 0, 0] },
  { (default : Thread) with st := .waiting, waits := [.pause 64], tagCount := [0, 0, 0, 0] }] }
theorem witness_Land : (∃ s : State, s = { dev with teams := [landing], cycle := 64 } ∧ s.team? 5 = some landing ∧ 64 ≤ s.cycle) ∧
    landing.place = .resident ∧ 0 < landing.threads.length ∧ (landing.thread 0).out[0]? = some result0 ∧
    result0.value = .words [(7, true)] ∧ (landing.thread 0).st ≠ .exited ∧ result0.regs = [some 4] ∧
    1 < landing.threads.length ∧ (landing.thread 1).st = .waiting ∧ (landing.thread 1).waits = [.pause 64] ∧ (landing.thread 1).out = [] :=
  ⟨⟨_, rfl, by decide, by decide⟩, by decide⟩

/-- A mast with an MX operation and its parameter block, an SMMA of two threads that waits, and a fill. -/
def mmaParams : List Byte := [0, 0x24, 0, 0, 1, 0, 1, 0, 1, 0, 0, 0] ++ List.replicate 52 0
def scaleParams : List Byte := [2, 0, 0, 0] ++ List.replicate 6 0 ++ [0xFF, 0xFF] ++ List.replicate 52 0
def mxOp (zero : Bool) (params : List Byte) (passes : Nat) : MxOp := ⟨1, 5, 0, zero, params, 0, 1, 0x100, 0x104, passes⟩
def smmaJobs : List SmmaJob := [⟨4, 5, 0, 9, 0x104, [(9, false)]⟩, ⟨6, 5, 1, 9, 0x104, [(8, false)]⟩]
def unitMast (o : MxOp) : Mast := { (default : Mast) with
  num := 0, mxq := [o], smmaq := smmaJobs, sfills := [⟨0, 3, 0, 0x30, false⟩] }
def tagged : Team := { team0 with threads :=
  [{ (default : Thread) with st := .waiting, tagCount := [0, 1, 0, 0], tagErr := [false, false, false, false], out := [⟨[some 4], none, 0, .job 4⟩] },
   { (default : Thread) with st := .waiting, tagCount := [0, 0, 0, 0], out := [⟨[some 4], none, 0, .job 6⟩] }] }
def busyUnits (o : MxOp) : State := { dev with teams := [tagged], masts := [unitMast o] }
theorem witness_UnitSteps :
    ((unitMast (mxOp false mmaParams 1)).mxq.find? (fun x => x.passes != 0 && !((unitMast (mxOp false mmaParams 1)).mxq.any fun y => y.team == x.team &&
      y.tile == x.tile && decide (y.id < x.id))) = some (mxOp false mmaParams 1) ∧ ((busyUnits (mxOp false mmaParams 1)).mast 0).arrays = []) ∧
    (∃ s : State, s = { busyUnits (mxOp false mmaParams 1) with masts := [{ unitMast (mxOp false mmaParams 1) with arrays := (List.range 8).map fun k => (k, 1, 64) }] } ∧
      ∀ k, k < 8 → ∃ a ∈ (s.mast 0).arrays, s.cycle < a.2.2 ∧ a.1 = k) ∧
    (((busyUnits (mxOp false mmaParams 0)).mast 0).smmaq = smmaJobs ∧ (smmaJobs.map (·.id)).Nodup ∧
      (tagged.thread 0).out[0]? = some ⟨[some 4], none, 0, .job 4⟩) ∧
    ((busyUnits (mxOp false mmaParams 0)).mast 0).sfills[0]? = some ⟨0, 3, 0, 0x30, false⟩ ∧ ((busyUnits (mxOp false mmaParams 0)).mast 0).sjobs = [] ∧
    (∀ x ∈ ((busyUnits (mxOp false mmaParams 0)).mast 0).pins, x.ctx ≠ 0 ∨ x.slot ≠ 3) ∧ (busyUnits (mxOp false mmaParams 0)).slotGen 0 0 3 = 0 ∧
    (busyUnits (mxOp false mmaParams 0)).xrange ctx0 (256 * 0x30) 256 .rd (some 0) = .ok (piece 0x3000 256) ∧
    CleanHbm (busyUnits (mxOp false mmaParams 0)) 0x3000 256 := by
  unfold CleanHbm
  refine ⟨by decide, ⟨_, rfl, by decide⟩, by decide, rfl, rfl, by decide, by decide,
    range_on rfl (by decide) (by decide) (by decide) (by decide) (by rintro k ⟨⟩; rfl), by decide, ?_⟩
  intro k _ h; cases h
/-- A fill of another generation, and one whose page is not there. -/
theorem witness_FillLands : (busyUnits (mxOp true [] 0)).slotGen 0 0 3 ≠ 1 ∧
    ∃ e, (busyUnits (mxOp true [] 0)).xrange ctx0 (256 * 0x2000000) 256 .rd (some 0) = .error e := by
  refine ⟨by decide, ?_⟩
  rw [xrange_page _ _ _ (by decide) (by decide)]
  obtain ⟨e, he⟩ := xlate_fails (s := busyUnits (mxOp true [] 0)) (c := ctx0) (a := .rd) (va := 256 * 0x2000000) (m := some 0) rfl (by decide +kernel) (by rintro k ⟨⟩; rfl)
  rw [he]
  exact ⟨_, rfl⟩

/-- Copies of each kind whose bytes lie at 0x3000 and whose scale words lie at 0x4000. -/
def copyOf (k : CopyKind) (segs scales : List (Loc × Nat)) : AsyncCopy := ⟨2, 5, 0, 1, 0, 0x100, 0x104, k, segs, scales, [], false, none⟩
def copying (a : AsyncCopy) : State := { dev with teams := [tagged], asyncs := [a] }
theorem witness_CopyWrites : (∀ a ∈ [copyOf (.async 0x3000 0 8 false) (piece 0x3000 8) [], copyOf (.plane 0x3000 0 0 0x4000 false) (piece 0x3000 24) (piece 0x4000 16),
      copyOf (.plane 0x3000 0 7 0 false) (piece 0x3000 256) [], copyOf (.out 0x3000 0 4) (piece 0x3000 4) []],
      (copying a).asyncs.find? (·.id == 2) = some a ∧ (copying a).team? a.team = some tagged ∧ NoVersions (copying a) ∧ ((copying a).mast tagged.mast).l1 = [] ∧
      a.tid < tagged.threads.length ∧ CleanHbm (copying a) 0x3000 256 ∧ CleanHbm (copying a) 0x4000 16 ∧ ((copying a).ctx? ((copying a).launchD tagged.launch).ctx).isSome = true ∧
      resolveHyp ((copying a).ctxD ((copying a).launchD tagged.launch).ctx).hyps a.hyp = 0) ∧
    ∀ j, j < 8 → (memGet pageMem (0x4000 + 2 * j + 1)).toNat < 16 := by
  unfold NoVersions CleanHbm
  decide +kernel

theorem ok_of {ε α : Type} {e : Except ε α} {P : α → Bool} (h : (match e with | .ok x => P x | .error _ => false) = true) : ∃ x, e = .ok x ∧ P x = true := by
  cases e with
  | error _ => cases h
  | ok x => exact ⟨x, rfl, h⟩
theorem witness_MxCompletes : (∀ o ∈ [mxOp true [] 0, mxOp false scaleParams 0, mxOp false mmaParams 0],
      ((busyUnits o).mast 0).mxq.find? (·.id == 1) = some o ∧ o.passes = 0 ∧ ((busyUnits o).mast 0).arrays = [] ∧ ((busyUnits o).mast 0).mxq = [o] ∧
      (∀ u ∈ (busyUnits o).teams, u.mxSaved = []) ∧ (busyUnits o).team? o.team = some tagged ∧ tagged.accOps = [] ∧ o.tid < tagged.threads.length) ∧
    mxValid tagged.shape scaleParams = true ∧ (scaleParams.getD 0 0).toNat % 4 = 2 ∧ mxValid tagged.shape mmaParams = true ∧
    (mmaParams.getD 0 0).toNat % 4 = 0 ∧ (tagged.tile 0).poison = [] ∧ (tagged.tile 0).elems = [] ∧
    ∃ r, (busyUnits (mxOp false mmaParams 0)).mxOperands tagged mmaParams = .ok r ∧ ((r.1 ++ r.2).all fun l => !l.contains none) = true :=
  ⟨by decide, by decide, by decide, by decide, by decide, by decide, by decide, ok_of (by decide +kernel)⟩

/-- An operation under way, resolves in turn, a contribution that merges, and DET teams whose epoch may close. -/
def running (r : List Running) : State := { dev with ctxs := [{ ctx0 with hyps := [(5, ⟨.opened, 0, 0, 1⟩)] }], running := r }
def detTeam (es : List DetEntry) : Team := { team0 with threads := [{ (default : Thread) with st := .waiting, aflush := 1 }], staging := es }
theorem witness_OperationSteps : (∀ r ∈ [Running.hinv 8 0 3 0, .flush 8 5, .acqr 8 0 0 1 5, .resolve 8 0 (some 3) none none],
      (running [r]).running.find? (fun x => x.id == 8) = some r) ∧ (running [.flush 8 5]).team? 5 = some team0 ∧
    (∃ s : State, s = { running [.flush 8 5] with masts := [{ (default : Mast) with staging := [⟨5, 0, 0x3000, hbmLoc 0x3000, 0, 3, 1, 0x3F800000⟩] }] } ∧
      Merges s 0x3000 (hbmLoc 0x3000) 0 3) ∧
    (∀ confirm, ((running [.resolve 8 0 none (some 5) none, .resolve 9 0 none (some 5) (some ⟨confirm, 5, some 0⟩)]).running.filter fun x =>
        x.id != 8 && x.resolves 0).head? = some (.resolve 9 0 none (some 5) (some ⟨confirm, 5, some 0⟩))) ∧
    (hypAt ((running []).ctxD 0).hyps 5).st = .opened ∧
    (∀ es ∈ [[], [⟨0x3000, hbmLoc 0x3000, 1, 0, 1, 7, 0, 1, 0⟩], [⟨0x3000, hbmLoc 0x3000, 0, 3, 1, 0x3F800000, 1, 1, 0⟩, ⟨0x3000, hbmLoc 0x3000, 0, 3, 1, 0x40000000, 0, 1, 0⟩]],
      (detTeam es).place = .resident ∧ (detTeam es).epochDue = true ∧ (detTeam es).epochsClosed = 0 ∧ (detTeam es).partials = []) ∧
    Merges dev 0x3000 (hbmLoc 0x3000) 1 0 := by
  unfold Merges CleanHbm NoVersions
  exact ⟨by decide, by decide, ⟨_, rfl, by decide⟩, by decide, by decide, by decide, by decide⟩

/-- A refuted hypothesis with a version, dirty bytes of host memory in L2, a block written through COMP leaves, and a line that L2 must
replace, since its context's share is spent. -/
def tidyCtx : Ctx := { hypCtx .refuted with versions := [⟨5, 0xC0, false, [(1, 7)], []⟩], l2Share := 0 }
def tidying (line : Nat) : State := { dev with
  ctxs := [tidyCtx], hostCache := [⟨Config.hostBase, 1, true, false⟩, ⟨Config.hostBase + 128, 2, false, false⟩], dirtyComp := [3], l2 := [⟨0, line⟩] }
theorem victim (line : Nat) : (tidying line).l2Victim = some line := by
  have h : (tidying line).l2Cap 0 = 0 := rfl
  simp [State.l2Victim, State.l2Room, tidying] at *
  simp [h]
theorem witness_MemorySteps : (tidying 6).ctx? 0 = some tidyCtx ∧ (hypAt tidyCtx.hyps 5).st = .refuted ∧
    tidyCtx.versions[0]? = some ⟨5, 0xC0, false, [(1, 7)], []⟩ ∧ (tidying 6).l2Victim = some (0x300 / 128) ∧ isHost 0x300 = false ∧
    0x300 / 256 ∈ (tidying 6).dirtyComp ∧ (tidying (Config.hostBase / 128)).l2Victim = some (Config.hostBase / 128) ∧
    Memory.wf (tidying (Config.hostBase / 128)).mem = true ∧ isHost Config.hostBase = true ∧
    ((tidying (Config.hostBase / 128)).hostCache.map (·.addr)).Nodup ∧ (tidying 6).l2Victim ≠ some (0x400 / 128) :=
  ⟨by decide, by decide, by decide, victim _, by decide, by decide, victim _, by decide, by decide, by decide, by rw [victim]; decide⟩
/-- A refuted ID that nothing holds. -/
theorem witness_ScrubberFrees : ∃ (s : State) (c : Ctx), s = { dev with launches := [], teams := [], ctxs := [c] } ∧ c = hypCtx .refuted ∧ s.ctx? 0 = some c ∧
    (hypAt c.hyps 5).st = .refuted ∧ c.versions = [] ∧ s.holds c 5 = false := ⟨_, _, rfl, rfl, by decide⟩

/-- A due L2 line, a device step before the next mapping round and one after it, and an empty agenda. -/
theorem witness_StepTakesDueDeviceStep : ((tidying 6).issue = none ∧ (tidying 6).l2Victim = some 6) ∧
    (dev.l2Victim = none ∧ dev.issue = none ∧ dev.agenda = []) ∧
    (∃ s : State, s = { dev with agenda := [⟨5, .selfTestDone⟩], roundAt := 6 } ∧ s.ns + 5 < s.roundAt ∧ isEvent .selfTestDone = true ∧ s.l2Victim = none) ∧
    ∃ s : State, s = { dev with agenda := [⟨5, .selfTestDone⟩], roundAt := 5 } ∧ s.roundAt ≤ s.ns + 5 :=
  ⟨⟨rfl, victim _⟩, ⟨rfl, rfl, rfl⟩, ⟨_, rfl, by decide, rfl, rfl⟩, _, rfl, by decide⟩

/-- Four bytes at the top of local HBM, and a port that is not there. -/
theorem witness_OutsideAccess : Config.hbmEnd - 4 + [(1 : Byte), 2, 3, 4].length ≤ Config.hbmEnd ∧ dev.start.st ≠ .reset ∧
    Memory.wf dev.mem = true ∧ (∀ k, k < 4 → Config.hbmEnd - 4 + k ∉ dev.poison) ∧ (∀ c ∈ dev.ctxs, c.versions = []) ∧
    Merges dev (Config.hbmEnd - 8) (hbmLoc (Config.hbmEnd - 8)) 7 2 ∧ 12 ≤ 12 ∧ 11 < 12 := by
  unfold Merges CleanHbm NoVersions
  decide

/-- A team none of whose threads is live, a launch whose teams have retired, and one that has run too long. -/
def doneTeam : Team := { team0 with threads := [{ (default : Thread) with st := .exited }] }
def endPkt : Packet := begun (pkt [(0, 0x01000001)]) .started
def ending : State := { held endPkt with launches := [launch0], ctxs := [{ ctx0 with watchdog := 1 }] }
def late : Launch := { launch0 with firstRun := some 0 }
/-- Contributions of team 5 and of a DET team. -/
def entry5 : Stage0 := ⟨5, 0, 0x3000, hbmLoc 0x3000, 0, 3, 1, 0x3F800000⟩
def partial5 : Partial := ⟨0x3000, hbmLoc 0x3000, 1, 0x3F800000⟩
def oneMast (es : List Stage0) (ring : List RingSlot) : Mast := { (default : Mast) with num := 0, staging := es, ring := ring }
/-- A done team with a copy, with a contribution, of a DET launch with a partial, and of a mesh with a ring slot that two teams use or one. -/
def retiring (t : Team) (l : Launch) (es : List Stage0) (as : List AsyncCopy) (ring : List RingSlot) : State := { dev with
  teams := [t], launches := [l], masts := [oneMast es ring], asyncs := as }
def detDone : Team := { doneTeam with partials := [partial5] }
def meshDone : Team := { doneTeam with mesh := some ⟨0, some 2, 4, 0, 0, 1⟩ }
def outCopy (n : Nat) : AsyncCopy := { copyOf (.out 0x3000 0 n) (piece 0x3000 n) [] with tid := 0 }
theorem witness_RetireStep : (∃ s : State, s = { dev with teams := [doneTeam], running := [.resolve 8 0 none (some 5) none] } ∧ s.team? 5 = some doneTeam ∧
      (∀ x ∈ doneTeam.threads, x.live = false) ∧ (∀ p ∈ s.flight, p.team ≠ 5) ∧ ∀ r ∈ s.running, r.byTeam 5 = true → r.resolves (s.launchD doneTeam.launch).ctx = true) ∧
    (∀ x ∈ [(doneTeam, launch0, [entry5], [], []), (doneTeam, launch0, [], [outCopy 4], []), (detDone, { launch0 with det := true }, [], [], []),
        (meshDone, launch0, [], [], [⟨2, 7, [], 2⟩]), (meshDone, launch0, [], [], [⟨2, 7, [], 1⟩])],
      let s := retiring x.1 x.2.1 x.2.2.1 x.2.2.2.1 x.2.2.2.2
      s.team? 5 = some x.1 ∧ (∀ y ∈ x.1.threads, y.live = false) ∧ s.flight = [] ∧ s.launch? x.1.launch = some x.2.1 ∧ x.1.place = .resident ∧ x.2.1.draw = none ∧
        x.1.mxSaved = [] ∧ s.running = [] ∧ (s.mast x.1.mast).mxq = [] ∧ x.1.staging = [] ∧ Memory.wf s.mem = true ∧ (s.ctx? x.2.1.ctx).isSome = true) ∧
    Merges (retiring doneTeam launch0 [entry5] [] []) 0x3000 entry5.loc entry5.op entry5.ty ∧
    ((outCopy 4).team = 5 ∧ (outCopy 4).kind = .out 0x3000 0 4 ∧ (outCopy 4).segs = piece 0x3000 4 ∧ (outCopy 4).wrote = [] ∧
      resolveHyp (dev.ctxD 0).hyps (outCopy 4).hyp = 0) := by
  unfold Merges CleanHbm NoVersions
  exact ⟨⟨_, rfl, by decide⟩, by decide, by decide, by decide⟩

/-- A launch that is done, without a signal, with one that writes or adds at 0x3000, and with one whose page is not there. -/
def signed (t : List Word) : Packet := { endPkt with tail := t }
def finishing (t : List Word) (l : Launch) : State := { held (signed t) with launches := [l] }
def sigTail (lo hi op : Word) : List Word := words16 [(0, lo), (1, hi), (2, 7), (4, op)]
theorem witness_FinishStep : (∀ t ∈ [[], sigTail 0 0 0, sigTail 0x3000 0 0, sigTail 0x3000 0 1, sigTail 0 2 0, words16 [(0, 0x3000), (5, 2)]],
      (finishing t launch0).launch? 7 = some launch0 ∧ (finishing t launch0).packet? launch0.packet = some (signed t) ∧
      (finishing t launch0).launchDone launch0 = true ∧ launch0.draw = none ∧ launch0.partials = [] ∧ Memory.wf (finishing t launch0).mem = true ∧
      NoVersions (finishing t launch0) ∧ CleanHbm (finishing t launch0) 0x3000 8 ∧ (finishing t launch0).queue? (signed t).queue = some queue2) ∧
    ((signed (sigTail 0 0 0)).tailD 0 = 0 ∧ (signed (sigTail 0x3000 0 1)).tailD 0 = 0x3000 ∧ (signed (sigTail 0x3000 0 1)).tailD 8 = 7 ∧
      (signed (sigTail 0 2 0)).tailD 0 = 0x200000000) ∧ queue2.error = false ∧ queue2.destroyed = false ∧
    (finishing (sigTail 0x3000 0 1) launch0).xrange ((finishing (sigTail 0x3000 0 1) launch0).ctxD launch0.ctx) 0x3000 8 .wr = .ok (piece 0x3000 8) ∧
    ∃ e, (finishing (sigTail 0 2 0) launch0).xrange ((finishing (sigTail 0 2 0) launch0).ctxD launch0.ctx) 0x200000000 8 .wr = .error e := by
  unfold NoVersions CleanHbm
  refine ⟨by decide, by decide, rfl, rfl, range_at _ _ _ _ _ rfl (by decide) (by decide) (by decide) (by decide +kernel), ?_⟩
  rw [xrange_page _ _ _ (by decide) (by decide)]
  obtain ⟨e, he⟩ := xlate_fails (s := finishing (sigTail 0 2 0) launch0) (c := (finishing (sigTail 0 2 0) launch0).ctxD launch0.ctx) (a := .wr)
    (va := 0x200000000) (m := none) rfl (by decide +kernel)
  rw [he]
  exact ⟨_, rfl⟩
/-- The partials of two teams, of three that the launch had. -/
def treed : Launch := { launch0 with teams := 3, partials := [(0, partial5), (2, { partial5 with value := 0x40000000 })] }
theorem witness_FinishPartials : (finishing [] treed).launch? 7 = some treed ∧ (finishing [] treed).packet? treed.packet = some (signed []) ∧
    (finishing [] treed).launchDone treed = true ∧ treed.draw = none ∧ treed.partials ≠ [] ∧
    (∀ x ∈ treed.partials, x.1 < treed.teams ∧ x.2.va = 0x3000 ∧ x.2.loc = hbmLoc 0x3000) ∧ Merges (finishing [] treed) 0x3000 (hbmLoc 0x3000) 0 3 ∧
    treed.teams ≤ 2 ^ 2 ∧ ∀ j, treed.teams ≤ 2 ^ j → 2 ≤ j := by
  unfold Merges CleanHbm NoVersions
  refine ⟨by decide, by decide, by decide, by decide, by decide, by decide, by decide, by decide, fun j hj => ?_⟩
  by_contra h
  have : j = 0 ∨ j = 1 := by omega
  rcases this with rfl | rfl <;> exact absurd hj (by decide)

/-- A launch that has run too long, with a team that has a contribution or none. -/
def watched (es : List Stage0) (l : Launch) : State := { ending with launches := [l], teams := [team0], masts := [oneMast es []], ns := 1000000 }
theorem witness_WatchdogStep : (∀ x ∈ [([], late), ([entry5], late), ([entry5], { late with det := true })], let s := watched x.1 x.2
      s.launch? 7 = some x.2 ∧ (s.ctxD x.2.ctx).watchdog ≠ 0 ∧ 1000000 * (s.ctxD x.2.ctx).watchdog ≤ s.watchTime x.2 ∧
      s.packet? x.2.packet = some endPkt ∧ s.queue? x.2.queue = some queue2 ∧ s.teams = [team0] ∧ team0.launch = 7 ∧ team0.place = .resident ∧ s.asyncs = []) ∧
    queue2.error = false ∧ queue2.destroyed = false ∧ ((watched [entry5] late).mast team0.mast).staging = [entry5] ∧ entry5.team = team0.id ∧
    Merges (watched [entry5] late) 0x3000 entry5.loc entry5.op entry5.ty := by
  unfold Merges CleanHbm NoVersions
  decide
theorem witness_EndAndSupply : (∃ c ∈ dev.ctxs, alGet c.num [(0, 101)] = some 101 ∧ c.powerCap < 101) ∧
    (∃ c ∈ dev.ctxs, alGet c.num [(0, 99)] = some 99 ∧ 99 < c.powerCap) ∧ (dev.ctxs.map (·.num)).Nodup ∧ dev.throttled = [] ∧
    Config.hbmEnd - 1 < Config.hbmEnd := by decide

/-- A context with a save area; a team that runs, one that is being stopped, one that is parked while a launch waits, one saved. -/
def saveCtx : Ctx := { ctx0 with coreSet := 1, saveArea := some (0x100000, 0x400000) }
def saving (t : Team) (ls : List Launch) : State := { dev with ctxs := [saveCtx], teams := [t], launches := launch0 :: ls }
/-- A whole team: its threads, and those that are not there. -/
def whole (t : Team) : Team := { t with threads := t.threads ++ List.replicate 31 { (default : Thread) with st := .absent } }
def stoppingTeam : Team := whole { readyTeam with place := .stopping }
def parkedTeam : Team := whole { faultedTeam with place := .resident }
def savedTeam : Team := { readyTeam with place := .saved 0x10000 0, bins := [] }
theorem in_order (t : Team) : (saving t []).inOrder = [launch0] := List.mergeSort_singleton ..
theorem nothing_before : (saving savedTeam []).admitBefore ((saving savedTeam []).launchD savedTeam.launch) = saving savedTeam [] := by
  unfold State.admitBefore
  rw [in_order, show (saving savedTeam []).admitMeshes [launch0] = saving savedTeam [] by decide +kernel]
  dsimp only
  rw [in_order]
  decide +kernel
theorem least_loaded : (saving savedTeam []).leastLoaded 1 ((saving savedTeam []).restoreMasts savedTeam (saving savedTeam []).bars) = [0] := by
  rw [show (saving savedTeam []).restoreMasts savedTeam (saving savedTeam []).bars = [0] by decide +kernel]
  simp [State.leastLoaded]
/-- A pack in flight of the running team, one that may resolve, and a saved team whose record in memory is all zeros. -/
theorem witness_InterruptionSteps : (∃ s : State, s = { saving readyTeam [] with flight := [pack plain [(0, on)]] } ∧ s.team? 5 = some readyTeam ∧
      readyTeam.running = true ∧ readyTeam.place = .resident ∧ (0, on) ∈ (pack plain [(0, on)]).lanes ∧ on.tid = 0) ∧
    (team0.place = .resident ∧ (flyOn dev (lane0 [] none)).flight = [endPack (lane0 [] none) true] ∧ (endPack (lane0 [] none) true).team = 5 ∧
      AtEnd (flyOn dev (lane0 [] none)) 9 (endPack (lane0 [] none) true) team0 launch0 0 (lane0 [] none) [] ∧ (lane0 [] none).trap = none ∧
      (lane0 [] none).poisonAt = none ∧ (lane0 [] none).tagWait = none ∧ (lane0 [] none).pause = none ∧ (lane0 [] none).barWait = []) ∧
    ((saving stoppingTeam []).team? 5 = some stoppingTeam ∧ stoppingTeam.place = .stopping ∧
      ∀ p ∈ (saving stoppingTeam []).flight, p.team ≠ 5) ∧
    (parkedTeam.running = true ∧ parkedTeam.parked = true ∧ (saving parkedTeam [{ waiting with id := 8 }]).waitsFor parkedTeam.mast = true ∧
      ∀ p ∈ (saving parkedTeam [{ waiting with id := 8 }]).flight, p.team ≠ 5) := by
  refine ⟨⟨_, rfl, by decide⟩, ⟨rfl, rfl, rfl, at_end (by unfold Settled; decide), by decide⟩, by decide, by decide +kernel⟩
theorem witness_RestoreStep : (saving savedTeam []).team? 5 = some savedTeam ∧ savedTeam.place = .saved 0x10000 0 ∧ savedTeam.wantsRoom = true ∧
    NoVersions (saving savedTeam []) ∧ ((saving savedTeam []).ctxD ((saving savedTeam []).launchD savedTeam.launch).ctx).saveArea = some (0x100000, 0x400000) ∧
    0x110000 + 0x1A4 ≤ Config.hbmEnd ∧ (∀ k, k < 9 → sectionOf (saving savedTeam []) 0x110000 k = 0x110000) ∧
    0x110000 + 4096 ≤ Config.hbmEnd ∧ savedTeam.shape.deck = 4096 ∧ savedTeam.shape.plane = 4096 ∧ staticWarps savedTeam = 1 ∧
    (saving savedTeam []).poison = [] ∧ 0x110000 + 136 * (1 * savedTeam.shape.vregs) ≤ Config.hbmEnd ∧ 0 < savedTeam.threads.length ∧ (savedTeam.thread 0).live = true := by
  unfold NoVersions
  decide +kernel
/-- A drained state has room for the record of a team, which stands as the save asks. -/
def Saveable (d : State) (u : Team) : Prop :=
  d.team? 5 = some u ∧ (d.ctxD (d.launchD u.launch).ctx).saveArea = some (0x100000, 0x400000) ∧
  d.recordRoom (d.launchD u.launch).ctx 0x400000 u.shape.recordBound = some (0x10000, 0) ∧ Memory.wf d.mem = true ∧
  0x100000 + 0x10000 + u.shape.recordBound ≤ Config.hbmEnd ∧ u.shape.recordBound < 2 ^ 32 ∧ u.threads.length = u.shape.tsize ∧
  (d.mast u.mast).mxq.filter (·.team == 5) ++ u.mxSaved = [] ∧ u.staging.length + u.partials.length ≤ 512
/-- What the saves of the stopped team and of the parked one drain to. -/
theorem witness_Saves : Saveable ((saving stoppingTeam []).drainForSave stoppingTeam) stoppingTeam ∧
    Saveable ((((saving parkedTeam [{ waiting with id := 8 }]).freeRecord parkedTeam).onTeam 5 fun u => { u with place := .stopping }).drainForSave
      { parkedTeam with place := .stopping }) { parkedTeam with place := .stopping } := by
  unfold Saveable
  decide +kernel

/-- A pack on a device whose pages map the memory behind port 0. -/
def patS : State := { issued plain [(0, on)] with
  start := { State.reset.start with st := .running, featAccept := 0x400 }
  mem := [(0x10000, 0x01), (0x10001, 0x20), (0x10002, 0x01), (0x12000, 0x2F)] }
/-- A pattern at an aligned address of a mapped page. -/
theorem witness_PatternResult : (Instr.patld ⟨false, 0⟩ 3 1 2).wellFormed = true ∧
    ∃ e low x rest, Issued e.s e.p e.t ∧ actives e.p 0 = (low, x) :: rest ∧ pairNat e x 2 % 32 = 0 ∧
      (e.s.pattern e.p.mast e.ctx x.hyp (pairNat e x 2)).2.bad = false ∧ Runs e x 0 [(1, 1), (2, 2)] [(3, 1)] := by
  refine ⟨by decide, ⟨patS, team0, pack plain [(0, on)]⟩, 0, on, [], ⟨rfl, rfl⟩, by decide, by decide, ?_, ?_, Or.inl rfl, ?_⟩
  · have hr : patS.xrange ctx0 0x2000 32 .rd (some 0) = .ok [(⟨0x2000, false, some 0⟩, 32)] :=
      range_on rfl (by decide) (by decide) (by decide) (by decide +kernel) (by rintro k ⟨⟩; rfl)
    have hk (c : Ctx) (va : Nat) : (patS.tlbKeepLeaf c va .rd 0).peers = [] := by unfold State.tlbKeepLeaf; split <;> rfl
    show (patS.pattern 0 ctx0 0 0x2000).2.bad = false
    unfold State.pattern
    rw [hr]
    have hl (s : State) (h : s.peers = []) : (s.l1Segs 0 ctx0 0 [(⟨0x2000, false, some 0⟩, 32)]).2.any (·.2) = false := by
      simp only [State.l1Segs, State.l1Bytes, State.l1Byte, State.peerByte, h, List.find?_nil]
      decide
    exact hl _ (hk _ _)
  · simp only [InRange]; decide
  · simp only [Clean]; decide

/-! Hypotheses of the value facts -/

theorem witness_CompareFacts : (¬f32Nan 0x80000000 ∧ ¬f32Nan 0) ∧ (f32Nan 0x7FC00000 ∧ ¬f32Sig 0x7FC00000) ∧ f32Sig 0x7F800001 := by
  unfold f32Sig f32Nan; decide
/-- A sum in range and one past the largest finite value, a tiny value and one that is not. -/
theorem witness_RoundingFacts : (binFinite 5 10 0x7BFF ∧ binFinite 5 10 0xFBFF ∧ binFinite 8 7 0x0080 ∧ binFinite 8 23 0x7F7FFFFF) ∧
    |binVal 5 10 0x7BFF + binVal 5 10 0xFBFF| ≤ binMax 5 10 ∧ binMax 5 10 < |binVal 5 10 0x7BFF + binVal 5 10 0x7BFF| ∧
    TinyIn 5 10 0 (1 / 2 ^ 20) ∧ ¬TinyIn 5 10 0 1 := by
  refine ⟨by unfold binFinite; decide, by unfold binVal binMax; decide +kernel, by unfold binVal binMax; decide +kernel, ?_, ?_⟩ <;>
    simp only [TinyIn, binTiny] <;> norm_num [abs_of_pos]

/-- A CLASSIC header of a 4 × 4 F32X1 texture that filters, and one whose level is invalid. -/
def headerOf (w weights seed widths : Nat) : List Byte :=
  natLE w 4 ++ natLE 3 2 ++ natLE 3 2 ++ natLE 0x8000 8 ++ natLE weights 8 ++ natLE seed 8 ++ natLE widths 4 ++ List.replicate 28 0
def classic (stoch : Nat) : List Byte := headerOf (0x1408 + 4 * stoch) 0 0 0
/-- A LATENT header of two E4M3 features and one layer of one output, without activation. -/
def latentHeader (stoch : Nat) : List Byte := headerOf (0x41001 + 4 * stoch) 0x9000 0 1
theorem good_classic (k : Nat) (hk : k = 0 ∨ k = 1) : (classic k).length = 64 ∧ GoodClassic (classic k) := by
  rcases hk with rfl | rfl <;> unfold GoodClassic <;> decide +kernel
theorem good_latent (k : Nat) (hk : k = 0 ∨ k = 1) : (latentHeader k).length = 64 ∧ GoodLatent (latentHeader k) := by
  rcases hk with rfl | rfl <;> unfold GoodLatent <;> decide +kernel
/-- No header of kind 2. -/
theorem bad_header : ¬GoodClassic (headerOf 2 0 0 0) ∧ ¬GoodLatent (headerOf 2 0 0 0) := by
  unfold GoodClassic GoodLatent; decide +kernel

theorem val_zero : f32Val 0 = 0 := by unfold f32Val; decide +kernel
theorem near_zero : Nearest 0 0 := by
  refine ⟨by unfold f32Finite; decide, fun y _ => ?_⟩
  rw [val_zero, sub_self, abs_zero]
  refine ⟨abs_nonneg _, fun hne he => absurd ?_ hne⟩
  rw [sub_zero] at he
  exact abs_eq_zero.1 he.symm
theorem max_pos : (0 : ℚ) ≤ f32Max := by unfold f32Max; norm_num
/-- Steps that add nothing. -/
theorem steps_zero (K : Nat) (f : Nat → ℚ) (h : ∀ k, f k = 0) : Steps f K fun _ => 0 := by
  refine ⟨rfl, fun k _ => ?_⟩
  rw [h, val_zero, add_zero, abs_zero]
  exact ⟨max_pos, near_zero⟩
theorem e4m3_zero : E4m3Near 0 0 := by
  refine ⟨by decide, by decide, fun y _ _ => ?_⟩
  have h : e4m3Val 0 = 0 := by decide +kernel
  rw [h, sub_self, abs_zero, sub_zero]
  exact ⟨abs_nonneg _, fun hne he => absurd (abs_eq_zero.1 he.symm) hne⟩

theorem witness_SampleFacts : (f32Finite 0x3ED00000 ∧ f32Finite 0xBF000000 ∧ ¬f32Finite 0x7F800000) ∧
    (∀ i, i < 4 → f32Finite (([0, 0, 0, 0] : List Word).getD i 0) ∧ |f32Val (([0, 0, 0, 0] : List Word).getD i 0)| * 4 ≤ f32Max ∧
      Nearest 0 (|f32Val (([0, 0, 0, 0] : List Word).getD i 0)| * 4)) ∧
    f32Val 0 < 1 ∧ 1 ≤ f32Val 0x40000000 ∧
    ([0x00, 0x3C] : List Byte).length = 1 * 2 ∧ listVal [0x00, 0x3C] 0 2 / 2 ^ 10 % 2 ^ 5 ≠ 31 ∧
    FvFinite (.fin false 0 0) ∧ Steps (fun k => (([65536] : List Nat).getD k 0 : ℚ) / 65536 * fvVal (([.fin false 0 0] : List Fv).getD k (.nan false))) 1 (fun _ => 0) ∧
    featureCount (latentHeader 0) = 2 ∧ (∀ f, f < 2 → blend [65536] ([[.fin false 0 0, .fin false 0 0]].map fun l => l.getD f (.nan false)) = (0 : Word).toNat) := by
  have hz : ∀ i, i < 4 → ([0, 0, 0, 0] : List Word).getD i 0 = 0 := by decide
  refine ⟨by unfold f32Finite; decide, ?_, by rw [val_zero]; norm_num, by unfold f32Val; decide +kernel, rfl, by decide, trivial, ?_, by decide +kernel, by decide +kernel⟩
  · intro i hi
    rw [hz i hi, val_zero, abs_zero, zero_mul]
    exact ⟨by unfold f32Finite; decide, max_pos, near_zero⟩
  · refine steps_zero _ _ fun k => ?_
    rcases k with _ | k <;> simp [fvVal]

/-- The one layer of the latent header with weights and a bias of zero. -/
def zeroLine : SLine := ⟨0, 3, 0, 0x90, false, List.replicate 256 0, []⟩
theorem witness_NetworkFacts : layerAt (latentHeader 0) 1 = 32 ∧ (∀ o, o < 32 → lineByte [zeroLine] (0x9000 + o) = some 0) ∧
    (0 : Byte).toNat % 128 ≠ 127 ∧ widthAt (latentHeader 0) 0 = 2 ∧ widthAt (latentHeader 0) 1 = 1 ∧
    Steps (fun _ => e4m3Val 0 * e4m3Val 0) 2 (fun _ => 0) ∧ f32Finite 0 ∧ |f32Val 0 + f32Val 0| ≤ f32Max ∧ Nearest 0 (f32Val 0 + f32Val 0) ∧
    Activated 0 0 0 ∧ E4m3Near (f32Val 0) 0 := by
  have h : e4m3Val 0 = 0 := by decide +kernel
  refine ⟨by decide +kernel, by decide +kernel, by decide, by decide +kernel, by decide +kernel, steps_zero _ _ fun _ => by rw [h, zero_mul], by unfold f32Finite; decide, ?_, ?_, ?_, ?_⟩
  · rw [val_zero, add_zero, abs_zero]; exact max_pos
  · rw [val_zero, add_zero]; exact near_zero
  · exact ⟨fun _ => rfl, fun h => absurd rfl h, by decide, by decide⟩
  · rw [val_zero]; exact e4m3_zero
theorem witness_PickFacts : ([(some (1, 2), 28672), (some (2, 2), 4096)] : List (Option (Nat × Nat) × Nat))[1]? = some (some (2, 2), 4096) ∧
    ((([(some (1, 2), 28672), (some (2, 2), 4096)] : List (Option (Nat × Nat) × Nat)).take 1).map (·.2)).sum ≤ 28672 ∧
    28672 < ((([(some (1, 2), 28672), (some (2, 2), 4096)] : List (Option (Nat × Nat) × Nat)).take 1).map (·.2)).sum + 4096 := by decide
/-- The shortest image: its header and zeros. -/
def imageMem : List Host.Cell := cells 0 (natLE 0x4D494650 4 ++ natLE 9 4 ++ natLE 65536 4 ++ natLE 0x5000 4 ++ natLE 4 4)
def imaged (poison : List Nat) : State := { starting .verifying 0 with mem := imageMem, poison := poison, start := ⟨.verifying, 0, 65536, 0, none⟩ }
/-- An address that no cell of a memory has reads as an unlisted one. -/
theorem memGet_absent {a : Nat} : ∀ {m : List Host.Cell}, (∀ c ∈ m, c.1 ≠ a) → memGet m a = unlisted
  | [], _ => rfl
  | _ :: _, h => (if_neg (h _ List.mem_cons_self)).trans (memGet_absent fun c hc => h c (List.mem_cons_of_mem _ hc))
theorem image_zero (a : Nat) (h : 20 ≤ a) : memGet imageMem a = 0 :=
  memGet_absent fun c hc e => absurd ((by decide : ∀ c ∈ imageMem, c.1 < 20) c hc) (by omega)
theorem good_fresh : GoodImage (imaged []) 65536 := by
  have z : ∀ lo hi, 20 ≤ lo → ∀ a, lo ≤ a → a < hi → memGet (imaged []).mem a = 0 := fun _ _ hl a ha _ => image_zero a (hl.trans ha)
  unfold GoodImage
  and_intros
  all_goals first | exact z _ _ (by decide) | decide
theorem good_image (p : List Nat) : GoodImage (imaged p) 65536 := good_fresh
/-- A good image meets one of the four hypotheses on its signatures and its version, whatever the checks and the fuse are. -/
theorem witness_Images : (imaged []).start.st = .verifying ∧ CleanHbm (imaged []) 0 65536 ∧ ¬CleanHbm (imaged [7]) 0 65536 ∧
    ¬GoodImage (starting .verifying 0) 0 ∧ ∀ rsa slh : Bool, rsa = false ∨ (rsa = true ∧ slh = false) ∨
      (rsa = true ∧ slh = true ∧ valueAt (imaged []) 4 4 < Config.fuseMinVersion) ∨
      (rsa = true ∧ slh = true ∧ Config.fuseMinVersion ≤ valueAt (imaged []) 4 4) := by
  refine ⟨rfl, ⟨by decide, fun k _ h => by cases h⟩, fun h => h.2 7 (by decide) (by decide), fun h => absurd h.1 (by decide), ?_⟩
  rintro (_ | _) (_ | _) <;> simp [Nat.lt_or_ge]

/-- Contexts, launches and teams with their own numbers. -/
theorem witness_OthersKept : (∃ (s : State) (b : CmdBlock), CommandReady s 0x20000 2 b ∧ b.num ≤ 15 ∧ (s.ctx? b.num).isSome = true ∧
      (s.launches.map (·.id)).Nodup ∧ (s.teams.map (·.id)).Nodup ∧ (s.ctx? 1).isSome = true) ∧
    ∃ s : State, s.cmd.destroying = some 0 ∧ (s.ctx? 0).isSome = true ∧ (s.ctx? 1).isSome = true := by
  refine ⟨?_, ⟨{ dev with ctxs := [ctx0, { ctx0 with num := 1 }], cmd := { dev.cmd with destroying := some 0 } }, rfl, by decide, by decide⟩⟩
  obtain ⟨b, hb, hn, _⟩ := ready (s := commanded { dev with ctxs := [ctx0, { ctx0 with num := 1 }] } 2 0 0 []) (lo := 0x20000) (op := 2) (num := 0) (addr := 0)
    ⟨rfl, rfl⟩ (by decide)
  exact ⟨_, b, hb, by omega, by rw [hn]; decide, by decide, by decide, by decide⟩

/-- A table with a coded block in slot 0. -/
def coded : State := { dev with nsec := [(0x40, 2)], bead := { dev.bead with addr := 8 } }
theorem witness_BeadRefused : (BeadReady dev 0x24 1 ∧ (0x24 : Word).toNat / 65536 = 0) ∧
    (BeadReady coded 0x10024 1 ∧ (0x10024 : Word).toNat / 65536 ≠ 0 ∧ coded.codedCount ((0x10024 : Word).toNat % 4) ≠ 0) ∧
    (BeadReady coded 0x28 2 ∧ coded.bead.addr.toNat % 256 ≠ 0) ∧
    (∃ s : State, s = { coded with bead := dev.bead } ∧ BeadReady s 0x28 2 ∧ s.bead.addr.toNat % 256 = 0 ∧ s.codedCount ((0x28 : Word).toNat % 4) ≠ 0) ∧
    BeadReady coded 0x2F 3 := by
  unfold BeadReady
  exact ⟨by decide, by decide, by decide, ⟨_, rfl, by decide⟩, by decide⟩
/-- A RECODE to a slot with a table, and to one without. -/
theorem witness_RecodeTargets : (recoding.slotLens recoding.bead.cur.toNat = some lens2 ∧ lensValid lens2 = true) ∧
    ∃ s : State, s = { recoding with bead := { recoding.bead with slots := [⟨.frozen, lens2⟩, ⟨.empty, []⟩, ⟨.empty, []⟩, ⟨.empty, []⟩], cur := 1 } } ∧
      s.slotLens s.bead.cur.toNat = none := ⟨by decide +kernel, _, rfl, by decide +kernel⟩
/-- A finished packet with one successor to read, whose address has a page or none. -/
def leading (hi : Word) : Packet := { begun (pkt [(0, 0)]) .finished with left := [0], tail := words16 [(6, 0x4000), (7, hi)] }
theorem witness_Successors : (∀ hi, hi = 0 ∨ hi = 2 → (held (leading hi)).packet? 3 = some (leading hi) ∧ (leading hi).st = .finished ∧
      (leading hi).left = 0 :: [] ∧ (held (leading hi)).queue? (leading hi).queue = some queue2 ∧ queue2.error = false) ∧
    (∃ s1 bs, (held (leading 0)).readRoot ctx0 ((leading 0).succ 0) 64 = (s1, some bs)) ∧
    (∃ s1, (held (leading 2)).readRoot ctx0 ((leading 2).succ 0) 64 = (s1, none)) ∧
    ∃ x, x = begun (pkt [(0, 0x401)]) .finished ∧ x.left = [] := by
  refine ⟨?_, ?_, ?_, _, rfl, rfl⟩
  · rintro hi (rfl | rfl) <;> decide
  · exact read_some (range_at _ _ _ _ _ rfl (by decide) (by decide) (by decide) (by decide +kernel)) (by decide +kernel)
  · obtain ⟨e, he⟩ := xlate_fails (s := held (leading 2)) (c := ctx0) (a := .rd) (va := (leading 2).succ 0) (m := none) rfl (by decide +kernel)
    refine ⟨held (leading 2), ?_⟩
    unfold State.readRoot
    rw [xrange_page _ _ _ (by decide) (by decide), he]

/-- A trap of a lower lane or pipe, or of a higher one, in the cycle of another, and a launch that ends as its cycle passes. -/
def dying (lane : Nat) : Launch := { launch0 with trapEntry := none, dying := some ⟨0, 0, lane, 0, 0x21, [1, 2, 3, 4]⟩ }
theorem witness_Dying : (∀ k, k = 0 ∨ k = 5 → ∃ (s : State) (ln : Lane), s = { queued with launches := [dying k] } ∧
      ln = lane0 [storeOp 0x3000] (some ⟨0x20, 5, 0x108⟩) ∧ AtEnd (flyOn s ln) 9 (endPack ln true) team0 (dying k) 0 ln [storeOp 0x3000] ∧
      Stored ln [storeOp 0x3000] ∧ (dying k).trapEntry = none ∧ (∃ d : Dying, (dying k).dying = some d ∧ d.cycle = s.cycle ∧ d.mast = (endPack ln true).mast)) ∧
    ∃ s : State, s = { queued with launches := [dying 5] } ∧ (s.launches.filter fun m => m.dying.isSome) = [dying 5] ∧
      s.queue? (dying 5).queue = some queue2 ∧ queue2.error = false ∧ queue2.destroyed = false ∧ s.cycle ≠ 1 := by
  refine ⟨?_, _, rfl, by decide⟩
  rintro k (rfl | rfl) <;> exact ⟨_, _, rfl, rfl, at_end (by unfold Settled; decide), ⟨stores 0x3000, rfl⟩, rfl, _, rfl, by decide⟩

/-- A copy to DECK and one to PLANE that have read their source. -/
def imageOf : CopyImage := ⟨[some (7, false), none], some 0, false, none⟩
theorem witness_CopyImages : ∀ a ∈ [{ copyOf (.async 0x3000 0 8 false) (piece 0x3000 8) [] with image := some imageOf },
      { copyOf (.plane 0x3000 0 7 0 false) (piece 0x3000 256) [] with image := some imageOf }],
    (copying a).asyncs.find? (·.id == 2) = some a ∧ (copying a).team? a.team = some tagged ∧ NoVersions (copying a) ∧ a.image = some imageOf := by
  unfold NoVersions
  decide

/-- DECK accesses, an LDACQ and a STREL, without other work and with a CP.OUT and contributions of the thread's team under way. -/
def releasing : State := { dev with
  asyncs := [{ copyOf (.out 0x4000 0 4) (piece 0x4000 4) [] with tid := 0 }]
  masts := [{ (default : Mast) with staging := [⟨5, 0, 0x5000, hbmLoc 0x5000, 0, 0, 1, 7⟩] }] }
theorem witness_OrderCommits : (∀ op, op = .deckLoad 8 16 4 ∨ op = .deckStore 255 [(1, false), (2, true)] ∨ op = .ldacq 0x3000 8 2 4 ∨
      op = .ldacq 0x3000 4 1 4 ∨ op = .strel 0x3000 [(1, false), (2, true)] 3 →
      Performs (flyOn dev (doing op [])) 9 (endPack (doing op []) true) team0 launch0 0 (doing op []) [] 0x104 op) ∧
    (∀ n, n = 4 ∨ n = 8 → Lies (flyOn dev (doing .kill [])) (endPack (doing .kill []) true) launch0 0x3000 n .rd 0x3000) ∧
    NoVersions dev ∧ (dev.mast 0).l1 = [] ∧ dev.asyncs = [] ∧ (dev.mast 0).staging = [] ∧ dev.hostCache = [] ∧
    (∃ op, op = .strel 0x3000 [(1, false), (2, true)] 2 ∧
      Performs (flyOn releasing (doing op [])) 9 (endPack (doing op []) true) team0 launch0 0 (doing op []) [] 0x104 op ∧
      resolveHyp (releasing.ctxD launch0.ctx).hyps (doing op []).hyp = 0 ∧ launch0.det = false ∧
      (flyOn releasing (doing op [])).xrange (releasing.ctxD launch0.ctx) 0x3000 2 .wr (some 0) = .ok [(⟨0x3000, false, none⟩, 2)]) := by
  unfold NoVersions
  refine ⟨?_, ?_, by decide, rfl, rfl, rfl, rfl, _, rfl, performs (by unfold Settled; decide) (by decide), by decide, rfl,
    range_on rfl (by decide) (by decide) (by decide) (by decide) (by rintro k ⟨⟩; rfl)⟩
  · rintro op (rfl | rfl | rfl | rfl | rfl) <;> exact performs (by unfold Settled; decide) (by decide)
  · rintro n (rfl | rfl) <;> exact lies rfl rfl rfl (by decide) (by decide) (by decide) (by decide)

/-- A context in which ID 5 stands in a state and ID 6 below it is open. -/
def hypTree (st : HypState) : State := { dev with ctxs := [{ ctx0 with hyps := [(5, ⟨st, 0, 0, 1⟩), (6, ⟨.opened, 5, 0, 2⟩)] }] }
theorem witness_HypReads : (∀ st op, (st = .opened ∨ st = .refuted ∨ st = .scrubbing) → (op = .hget 4 ∨ op = .hstate 5 4 ∨ op = .hrefute 5 ∨ op = .horphan 0x200) →
      Performs (flyOn (hypTree st) (doing op [])) 9 (endPack (doing op []) true) team0 launch0 0 (doing op []) [] 0x104 op ∧
      (hypTree st).running = [] ∧ (hypAt ((hypTree st).ctxD launch0.ctx).hyps 5).st = st) ∧
    (hypAt ((hypTree .opened).ctxD launch0.ctx).hyps 6).st = .opened ∧ resolveHyp ((hypTree .opened).ctxD launch0.ctx).hyps 5 = 5 ∧
    isOrphan ((hypTree .opened).ctxD launch0.ctx).hyps (team0.thread 0).hyp = false := by
  refine ⟨?_, by decide⟩
  rintro st op (rfl | rfl | rfl) (rfl | rfl | rfl | rfl) <;> exact ⟨performs (by unfold Settled; decide) (by decide), rfl, by decide⟩

/-- A launch with tiles, in a DET team or another; and a team that holds answers. -/
def tiling (det : Bool) (stage : Stage) : State := { dev with
  launches := [{ launch0 with det := det, tilesX := 3 }], teams := [{ team0 with stage := stage }] }
def heldTeam (k : Option Nat) : Team := { team0 with held := [(0, k)], tilefNext := 1 }
theorem witness_TeamCommits : (∀ op, op = .maskSet 2 7 ∨ op = .maskJoin 2 ∨ op = .maskClear 2 ∨ op = .teamWrite 0x08 0 ∨ op = .teamWrite 0x40 7 ∨ op = .tagGet 1 4 →
      Performs (flyOn dev (doing op [])) 9 (endPack (doing op []) true) team0 launch0 0 (doing op []) [] 0x104 op) ∧
    (∀ det stage, Performs (flyOn (tiling det stage) (doing (.tilef 3 2 0) [])) 9 (endPack (doing (.tilef 3 2 0) []) true) { team0 with stage := stage }
      { launch0 with det := det, tilesX := 3 } 0 (doing (.tilef 3 2 0) []) [] 0x104 (.tilef 3 2 0)) ∧
    (∀ k i, (k = none ∧ i = 1 ∨ k = some 4 ∧ i = 0) → Performs (flyOn { dev with teams := [heldTeam k] } (doing (.tilef 3 2 i) [])) 9 (endPack (doing (.tilef 3 2 i) []) true) (heldTeam k) launch0 0
      (doing (.tilef 3 2 i) []) [] 0x104 (.tilef 3 2 i)) ∧
    launch0.cursorAt = none ∧ team0.held = [] ∧ team0.tilefNext = 0 ∧ (∀ x ∈ team0.threads, x.live = true → 0 < x.tilef + 16) ∧
    ((heldTeam none).held.any fun x => decide (x.1 ≤ 1) && x.2.isNone) = true ∧
    ((heldTeam (some 4)).held.any fun x => decide (x.1 ≤ 0) && x.2.isNone) = false ∧ alGet 0 (heldTeam (some 4)).held = some (some 4) := by
  refine ⟨?_, ?_, ?_, by decide⟩
  · rintro op (rfl | rfl | rfl | rfl | rfl | rfl) <;> exact performs (by unfold Settled; decide) (by decide)
  · rintro (_ | _) (_ | _ | _ | _) <;> exact performs (by unfold Settled; decide) (by decide)
  · rintro k i (⟨rfl, rfl⟩ | ⟨rfl, rfl⟩) <;> exact performs (by unfold Settled; decide) (by decide)

/-- A team of a draw with a free slot of the payload ring. -/
def drawing : State := { dev with launches := [{ launch0 with draw := some { drawData [] still with payload := 6 } }] }
theorem witness_MeshCommits : (∀ op, op = .taskout 2 1 ∨ op = .vtxout 3 [1, 2, 3, 4] ∨ op = .primout 0x30201 ∨ op = .pixout 1 [1, 2, 3, 4] ∨ op = .kill →
      Performs (flyOn drawing (doing op [])) 9 (endPack (doing op []) true) team0 { launch0 with draw := some { drawData [] still with payload := 6 } } 0 (doing op []) []
        0x104 op) ∧ (drawing.mast 0).ring = [] := by
  refine ⟨?_, by decide⟩
  rintro op (rfl | rfl | rfl | rfl | rfl) <;> exact performs (by unfold Settled; decide) (by decide)

/-- What the pick of the forming team rests on. -/
theorem witness_Picked : readyTeam.bins.map (·.block) = [0x100] ∧ (∀ b ∈ readyTeam.bins, b.threads = [0]) ∧ readyTeam.threads.length = 1 := by decide
/-- A mast with a header in its cache, at slot 3 below a CODE_BASE of 0x6000, whose TLB holds the identity pages. -/
def leaf0 : TlbEntry := ⟨0, 0, 2 ^ 32, 0x0F⟩
def launch6 : Launch := { launch0 with codeBase := 0x6000 }
def sampled (h : List Byte) (more : List SLine) : State := { dev with
  launches := [launch6], tlb := [leaf0]
  masts := [{ (default : Mast) with num := 0, tlb := [leaf0], slines := ⟨0, 3, 0, 0x40, true, List.replicate 0xC0 0 ++ h, []⟩ :: more }] }
theorem leaf_of {s : State} {c : Ctx} {va : Nat} {t : TlbEntry} (hv : va < 2 ^ 52) (hc : s.cachedLeaf c va (some 0) = some t)
    (hl : leafCause s 0 t.leaf.toNat .rd = none)
    (hw : (match s.walk .rd va 3 c.ptRoot with | .error _ => none | .ok (e, lvl, table) => some (s.tlbEntryOf c.num va e lvl table)) = some t) :
    s.xleaf c va .rd (some 0) = .ok t := by
  unfold State.xleaf
  rw [if_neg (by omega)]
  simp only [hc]
  cases hk : Config.tlbKeep s.free (va / 4096)
  · simp only [Bool.false_eq_true, if_false]
    cases hx : s.walk .rd va 3 c.ptRoot with
    | error e => rw [hx] at hw; cases hw
    | ok r =>
      rw [hx] at hw
      obtain ⟨e, lvl, table⟩ := r
      simp only [Option.some.injEq] at hw
      simp only [hw]
  · simp only [if_true, hl]
/-- What a translation of the identity pages rests on, for every state with those pages and that leaf. -/
theorem identity (va : Nat) (hv : va < 2 ^ 32) : ((sampled [] []).cachedLeaf ctx0 va (some 0) = some leaf0) ∧
    (match (sampled [] []).walk .rd va 3 ctx0.ptRoot with
      | .error _ => none
      | .ok (e, lvl, table) => some ((sampled [] []).tlbEntryOf ctx0.num va e lvl table)) = some leaf0 := by
  have h3 : bits va (12 + 10 * 3) 10 = 0 := by simp only [bits]; omega
  have h2 : bits va (12 + 10 * 2) 10 = 0 := by simp only [bits]; omega
  have hw : (sampled [] []).walk .rd va 3 ctx0.ptRoot = .ok (0xF, 2, 0x12000) := by
    unfold State.walk
    rw [h3]
    have e3 : (sampled [] []).tableEntry (ctx0.ptRoot + 8 * 0) = some 0x12001 := by decide +kernel
    rw [e3]
    simp only [show bit 0x12001 0 = true by decide, show bit 0x12001 1 = false by decide, show tableOk 3 0x12001 = true by decide, Bool.not_true, Bool.false_eq_true,
      if_false, if_true]
    unfold State.walk
    rw [h2]
    have e2 : (sampled [] []).tableEntry (bits 0x12001 12 40 * 4096 + 8 * 0) = some 0xF := by decide +kernel
    rw [e2]
    have hl : leafCause (sampled [] []) 2 0xF .rd = none := by decide
    simp only [show bit 0xF 0 = true by decide, show bit 0xF 1 = true by decide, Bool.not_true, Bool.false_eq_true, if_false, if_true, hl]
    rfl
  refine ⟨?_, ?_⟩
  · have hd : va < 4294967296 := hv
    show (([leaf0].find? fun t => t.ctx == 0 && decide (t.va ≤ va) && decide (va < t.va + t.bytes)).or _) = some leaf0
    have : (leaf0.ctx == 0 && decide (leaf0.va ≤ va) && decide (va < leaf0.va + leaf0.bytes)) = true := by
      simp [leaf0, hd]
    simp only [List.find?_cons, this]
    rfl
  · rw [hw]
    have hq : va / levelBytes 2 * levelBytes 2 = 0 := by simp only [levelBytes]; omega
    simp only [State.tlbEntryOf, show bit 0xF 6 = false by decide, Bool.false_and, Bool.false_eq_true, if_false, hq]
    rfl
theorem warm {h : List Byte} {more : List SLine} {op : MemOp} {va : Nat} (hv : va < 2 ^ 32) :
    Warm (flyOn (sampled h more) (doing op [])) (endPack (doing op []) true) launch6 va va := by
  obtain ⟨hc, hw⟩ := identity va hv
  refine ⟨by simp only [Config.hbmEnd]; omega, List.not_mem_nil, leaf0, leaf_of (by omega) hc (show leafCause (sampled [] []) 0 leaf0.leaf.toNat .rd = none by decide) hw, List.mem_singleton.2 rfl, List.mem_singleton.2 rfl, ?_⟩
  simp only [TlbEntry.loc, hbmLoc, leaf0]
  simp [bits, bit]

theorem pad (h : List Byte) (hl : h.length = 64) : (List.replicate 0xC0 0 ++ h).length = 256 :=
  (List.length_append ..).trans (congrArg₂ (· + ·) (List.length_replicate ..) hl)
theorem after_pad {a h : List Byte} {n k : Nat} (m : Nat) (ha : a.length = m) (hl : h.length = k) (hn : n = m) : ((a ++ h).drop n).take k = h := by
  subst hn ha hl
  rw [List.drop_left, List.take_length]
/-- Samples of each header, and the weight line of the latent one. -/
def samp (kind : Nat) (u : Word) : MemOp := .sample kind 3 [u, 0x3F400000, 0, 1] [0, 0, 0, 0] 4
theorem witness_SampleCommits : (∀ h more kind u, Performs (flyOn (sampled h more) (doing (samp kind u) [])) 9 (endPack (doing (samp kind u) []) true) team0 launch6 0
      (doing (samp kind u) []) [] 0x104 (samp kind u)) ∧
    (∀ h more op, h.length = 64 → cachedLine (flyOn (sampled h more) (doing op [])) (endPack (doing op []) true) launch6 3 (headerVa launch6.codeBase 3 / 256) true =
        some ⟨0, 3, 0, 0x40, true, List.replicate 0xC0 0 ++ h, []⟩ ∧ (List.replicate 0xC0 0 ++ h).length = 256 ∧
      ((List.replicate 0xC0 0 ++ h).drop (headerVa launch6.codeBase 3 % 256)).take 64 = h ∧
      Warm (flyOn (sampled h more) (doing op [])) (endPack (doing op []) true) launch6 (headerVa launch6.codeBase 3) (headerVa launch6.codeBase 3) ∧
      (∀ va, va < 2 ^ 32 → Warm (flyOn (sampled h more) (doing op [])) (endPack (doing op []) true) launch6 va va) ∧
      NoVersions (sampled h more) ∧ ((sampled h more).mast 0).l1 = []) ∧
    (∀ h more, more = [] ∨ more = [zeroLine] → ∀ b, (((sampled h more).mast 0).slines.filter (·.header == b)).length ≤ if b then 128 else 256) ∧
    (∀ k, k = 0 ∨ k = 1 → levelBase (classic k) 1 < 2 ^ 32 ∧ levelBase (latentHeader k) 1 < 2 ^ 32 ∧ layerAt (latentHeader k) 1 ≤ 256 ∧
      (classic k).length = 64 ∧ GoodClassic (classic k) ∧ (latentHeader k).length = 64 ∧ GoodLatent (latentHeader k)) ∧
    (∀ h op, cachedLine (flyOn (sampled h [zeroLine]) (doing op [])) (endPack (doing op []) true) launch6 3 0x90 false = some zeroLine) ∧ zeroLine.bad = [] ∧
    (¬GoodClassic (headerOf 2 0 0 0) ∧ ¬GoodLatent (headerOf 2 0 0 0)) ∧ (f32Finite 0x3ED00000 ∧ ¬f32Finite 0x7F800000) ∧
    DrawPlace team0 launch6 0 0x12345678 0 0 := by
  refine ⟨?_, ?_, ?_, ?_, ?_, rfl, bad_header, by unfold f32Finite; decide, ⟨rfl, rfl, rfl⟩⟩
  · intro h more kind u
    have hs : Settled (sampled [] []) team0 launch6 (doing (samp 0 0) []) := by unfold Settled; decide
    obtain ⟨h1, h2, h3, h4, h5, h6, h7, h8, h9, -, -, -, hp, -, ha, -⟩ := hs
    exact ⟨at_end (s := sampled h more) ⟨h1, h2, h3, h4, h5, h6, h7, h8, h9, by show 0 ≤ 4; omega, Nat.zero_le _, rfl, hp,
        (fun _ ho => nomatch ho), ha, (fun _ hj => nomatch hj)⟩,
      rfl, rfl, rfl, rfl, rfl, rfl, by show Memory.wf pageMem = true; decide⟩
  · intro h more op hl
    refine ⟨rfl, pad h hl, ?_, warm (by decide), fun va hv => warm hv, by unfold NoVersions; exact List.forall_mem_singleton.2 rfl, rfl⟩
    exact after_pad _ (List.length_replicate ..) hl (by decide)
  · intro h more hm b
    have h2 : ((sampled h more).mast 0).slines.length ≤ 2 := by rcases hm with rfl | rfl <;> exact Nat.le_of_ble_eq_true rfl
    exact ((List.length_filter_le _ _).trans h2).trans (by cases b <;> decide)
  · rintro k (rfl | rfl) <;> exact ⟨by decide +kernel, by decide +kernel, by decide +kernel, (good_classic _ (by omega)).1, (good_classic _ (by omega)).2,
      (good_latent _ (by omega)).1, (good_latent _ (by omega)).2⟩
  · exact fun _ _ => rfl

/-- LOGI of operation 7, and a rotation with IMM[6] = 1. -/
theorem witness_ImmediateRefused : ((0x2C000380 : Word).extractLsb' 26 5 = 0x0B ∧ (0x2C000380 : Word).extractLsb' 7 3 = 7) ∧
    (0x2C000340 : Word).extractLsb' 26 5 = 0x0B ∧ 3 ≤ ((0x2C000340 : Word).extractLsb' 7 3).toNat ∧ (0x2C000340 : Word).getLsbD 6 = true := by decide
/-- RED of a register above the team's, and of a marked one. -/
theorem witness_RedMarks : (Instr.red ⟨false, 1⟩ 1 2 3 95 1).wellFormed = true ∧ (Instr.red ⟨false, 1⟩ 1 2 4 3 1).wellFormed = true ∧
    (Issued (envOf { on with wb := 1 }).s (envOf { on with wb := 1 }).p (envOf { on with wb := 1 }).t ∧
      ¬InRange (envOf { on with wb := 1 }) { on with wb := 1 } [(95, 1), (3, 1)]) ∧
    Issued (envOf { on with poison := [3] }).s (envOf { on with poison := [3] }).p (envOf { on with poison := [3] }).t ∧
      InRange (envOf { on with poison := [3] }) { on with poison := [3] } [(3, 1), (4, 1)] ∧ GuardOn { on with poison := [3] } 1 ∧
      ¬Clean { on with poison := [3] } [(3, 1)] := by
  refine ⟨by decide, by decide, ⟨(issued_envOf _).1, ?_⟩, (issued_envOf _).1, ?_, ?_, ?_⟩ <;> simp only [InRange, GuardOn, Clean] <;> decide
/-- MX.ISSUE of a register above the team's, and of a marked one in the lowest lane. -/
theorem witness_MatrixMarks : (Instr.mxIssue ⟨false, 1⟩ 95).wellFormed = true ∧
    (Issued (envOf { on with wb := 1 }).s (envOf { on with wb := 1 }).p (envOf { on with wb := 1 }).t ∧
      ¬InRange (envOf { on with wb := 1 }) { on with wb := 1 } [(95, 1)]) ∧
    Issued (envOf { on with poison := [3] }).s (envOf { on with poison := [3] }).p (envOf { on with poison := [3] }).t ∧
      lowest (envOf { on with poison := [3] }).p 1 = some 0 ∧ InRange (envOf { on with poison := [3] }) { on with poison := [3] } [(3, 1)] ∧
      ¬Clean { on with poison := [3] } [(3, 1)] := by
  refine ⟨by decide, ⟨(issued_envOf _).1, ?_⟩, (issued_envOf _).1, by decide, ?_, ?_⟩ <;> simp only [InRange, Clean] <;> decide
/-- PATLD without an active lane, at a misaligned address, with a name above the team's registers, and of a marked register. -/
theorem witness_PatternCases : (Instr.patld ⟨false, 3⟩ 3 1 2).wellFormed = true ∧ actives env.p 3 = [] ∧
    (∃ e low x rest, Issued e.s e.p e.t ∧ actives e.p 0 = (low, x) :: rest ∧ pairNat e x 4 % 32 ≠ 0 ∧ Runs e x 0 [(1, 1), (4, 2)] [(3, 1)]) ∧
    patS.asyncs = [] ∧ ¬InRange (envOf { on with wb := 1 }) { on with wb := 1 } [(95, 1), (2, 2), (3, 1)] ∧
    ∃ e low x rest, Issued e.s e.p e.t ∧ actives e.p 0 = (low, x) :: rest ∧ pairNat e x 2 % 32 = 0 ∧ (∀ y ∈ e.s.asyncs, y.team = e.p.team → y.isOut = false) ∧
      InRange e x [(1, 1), (2, 2), (3, 1)] ∧ GuardOn x 0 ∧ ¬Clean x (if low = low then [(1, 1), (2, 2)] else [(1, 1)]) := by
  refine ⟨by decide, by decide, ⟨envOf { on with v := [(4, 1)] }, 0, { on with v := [(4, 1)] }, [], (issued_envOf _).1, by decide, by decide, ?_⟩, rfl, ?_,
    envOf { on with poison := [1] }, 0, { on with poison := [1] }, [], (issued_envOf _).1, by decide, by decide, by decide, ?_, ?_, ?_⟩ <;>
    simp only [Runs, InRange, GuardOn, Clean] <;> decide
/-- Field writes: FEAT_ACCEPT before and after START, a value with no command bit, the last queue and the last context. -/
theorem witness_FieldWrites : (starting .awaitAccept 0).start.st = .awaitAccept ∧ dev.start.st ≠ .awaitAccept ∧ 7 < 8 ∧
    ((0xFFFCFEDD : Word).getLsbD 8 = false ∧ (0xFFFCFEDD : Word).getLsbD 5 = false ∧ (0xFFFCFEDD : Word).getLsbD 1 = false ∧
      (0xFFFCFEDD : Word).getLsbD 16 = false ∧ (0xFFFCFEDD : Word).getLsbD 17 = false) ∧ 1023 < 1024 ∧ 15 < 16 := by decide
/-- A round whose moment is the last within a queue's bound. -/
theorem witness_MappingBounds : ∃ (s : State) (a b : Queue), s = { scanning with ns := 250000, roundAt := 250000, queues := [scanQ, a, b] } ∧
    a = { scanQ with num := 3, mapped := none, due := some 250005 } ∧ b = { scanQ with num := 4, mapped := none, due := some 500005, cls := 3 } ∧
    s.hasWork a = true ∧ s.hasWork b = true ∧ a.mapped = none ∧ b.mapped = none ∧ roundsOf s a = 1 ∧ BoundsFit s a.cls ∧ BoundsFit s 3 ∧ a.cls ≤ 3 ∧ b.cls ≤ 3 := by
  refine ⟨_, _, _, rfl, rfl, rfl, by decide, by decide, rfl, rfl, by decide, ?_, ?_, by decide, by decide⟩ <;> unfold BoundsFit <;> decide
/-- No CP.OUT under way, and one of the thread's own to the bytes of its store. -/
theorem no_outs {s : State} (h : s.asyncs = []) (p : Pack) (ln : Lane) : NoOuts s p ln := by
  intro a ha
  rw [h] at ha
  cases ha
theorem witness_NoOuts : (∀ ln, NoOuts (flyOn dev ln) (endPack ln true) ln) ∧ ∀ h more ln, NoOuts (flyOn (sampled h more) ln) (endPack ln true) ln :=
  ⟨fun _ => no_outs rfl _ _, fun _ _ _ => no_outs rfl _ _⟩
theorem witness_StoreAfterCopy : ∃ (s : State) (op : MemOp), s = { dev with asyncs := [outCopy 2] } ∧ op = .store 0x3000 [(0xAA, false), (0xBB, true)] ∧
    AtEnd (flyOn s (doing op [])) 9 (endPack (doing op []) true) team0 launch0 0 (doing op []) [⟨0x104, op⟩] ∧ Memory.wf s.mem = true ∧
    (flyOn s (doing op [])).xrange (s.ctxD launch0.ctx) 0x3000 2 .wr (some 0) = .ok [(⟨0x3000, false, none⟩, 2)] ∧
    (flyOn s (doing op [])).asyncs = [outCopy 2] ∧ (outCopy 2).team = 5 ∧ (outCopy 2).tid = (doing op []).tid ∧ (outCopy 2).kind = .out 0x3000 0 2 ∧
    (outCopy 2).segs = piece 0x3000 2 ∧ (outCopy 2).wrote = [] ∧ resolveHyp (s.ctxD launch0.ctx).hyps (outCopy 2).hyp = 0 :=
  ⟨_, _, rfl, rfl, at_end (by unfold Settled; decide), by decide, range_on rfl (by decide) (by decide) (by decide) (by decide) (by rintro k ⟨⟩; rfl),
    rfl, rfl, rfl, rfl, rfl, rfl, by decide⟩

end Sys2Proof.Tests
end

section
/-! What a step does with no pack issued (log entries 2, 80, 86): which device step is next due, and that the step is it. -/

namespace Sys2Proof.Machine

/-- The next device step of the agenda, or of the free schedule when the agenda is empty, and what then stands on the agenda. -/
theorem takeDue_eq {s u : State} {d : Due} {r : List Due}
    (h : (s.agenda = d :: r ∧ u = { s with agenda := r }) ∨
      (s.agenda = [] ∧ d = ⟨(Config.schedule s.tick).1, (Config.schedule s.tick).2⟩ ∧ r = [] ∧ u = { s with tick := s.tick + 1 })) :
    s.takeDue = (d, u) ∧ u.agenda = r := by
  obtain ⟨ha, rfl⟩ | ⟨ha, rfl, rfl, rfl⟩ := h
  · exact ⟨by simp [State.takeDue, ha], rfl⟩
  · exact ⟨by simp [State.takeDue, ha], ha⟩

/-- An L2 line that must leave goes before everything else (R235, R236). -/
theorem nextDue_of_victim {s : State} {line : Nat} (h : s.l2Victim = some line) :
    s.nextDue = (0, .l2Replace (128 * line), s) := by
  simp [State.nextDue, h]

/-- A device step that falls due before the next mapping round is taken as it stands. -/
theorem nextDue_before_round {s u : State} {d : Due} (hv : s.l2Victim = none) (hd : s.takeDue = (d, u))
    (h : s.ns + d.ns < s.roundAt) : s.nextDue = (d.ns, d.step, u) := by
  simp [State.nextDue, hv, hd, Nat.not_le.mpr h]

/-- A mapping round that falls due no later than the device step at hand goes before it (R113). -/
theorem nextDue_of_round {s u : State} {d : Due} (hv : s.l2Victim = none) (hd : s.takeDue = (d, u))
    (h : s.roundAt ≤ s.ns + d.ns) :
    s.nextDue = (s.roundAt - s.ns, .mappingRound (Config.unmaps s.free),
      { u with agenda := ⟨d.ns - (s.roundAt - s.ns), d.step⟩ :: u.agenda, free := s.free + 1 }) := by
  simp [State.nextDue, hv, hd, h]

/-- With no pack issued the step is the next due device step, after its time has passed. -/
theorem step_of_nextDue {s u : State} {n : Nat} {i : Instr} (h : s.issue = none) (hd : s.nextDue = (n, i, u))
    (hi : isEvent i = true) : step s = exec i (u.elapse n) := by
  simp [step, h, hd, hi]

/-- Settles O7: by which of the L2 line, the mapping round and the device step at hand is next due. -/
theorem stepTakesDueDeviceStep : Obligations.StepTakesDueDeviceStep := by
  intro s hs
  refine ⟨fun line hv => step_of_nextDue hs (nextDue_of_victim hv) rfl, fun hv d r u hu => ?_⟩
  obtain ⟨hd, rfl⟩ := takeDue_eq hu
  exact ⟨fun hb hi => step_of_nextDue hs (nextDue_before_round hv hd hb) hi,
    fun hr => step_of_nextDue hs (nextDue_of_round hv hd hr) rfl⟩

end Sys2Proof.Machine
end

section
/-! Words of the register window as numbers: a word of a wider value, and the fields of the words that are put together as a sum. -/

namespace Sys2Proof.Machine

theorem getLsbD_getWord {n : Nat} (x : BitVec n) (k i : Nat) (h : i < 32) : (getWord x k).getLsbD i = x.getLsbD (32 * k + i) := by
  simp [getWord, h]

/-- A bit of a wide value after its k-th word has been replaced. -/
theorem getLsbD_putWord {n : Nat} (x : BitVec n) (k : Nat) (v : Word) (i : Nat) (hi : i < n) :
    (putWord x k v).getLsbD i = if 32 * k ≤ i ∧ i < 32 * k + 32 then v.getLsbD (i - 32 * k) else x.getLsbD i := by
  have ones (j : Nat) (hj : j < n) : (0xFFFFFFFF : BitVec n).getLsbD j = decide (j < 32) := by
    simpa only [BitVec.ofNat_eq_ofNat, BitVec.getLsbD_ofNat, hj, decide_true, Bool.true_and] using Nat.testBit_two_pow_sub_one 32 j
  simp only [putWord, BitVec.getLsbD_or, BitVec.getLsbD_and, BitVec.getLsbD_not, BitVec.getLsbD_shiftLeft, BitVec.getLsbD_setWidth, hi]
  by_cases hk : 32 * k ≤ i
  · rw [ones _ (by omega)]
    have hlt : i - 32 * k < n := by omega
    by_cases hw : i < 32 * k + 32
    · have h32 : i - 32 * k < 32 := by omega
      simp [hk, hw, h32, hlt, Nat.not_lt.mpr hk]
    · have h32 : 32 ≤ i - 32 * k := by omega
      simp [hw, Nat.not_lt.mpr h32, BitVec.getLsbD_of_ge v _ h32]
  · simp [hk, Nat.not_le.mp hk]

theorem getWord_putWord {n : Nat} (x : BitVec n) (k : Nat) (v : Word) (h : 32 * k + 32 ≤ n) : getWord (putWord x k v) k = v := by
  apply BitVec.eq_of_getLsbD_eq
  intro i hi
  rw [getLsbD_getWord _ _ _ hi, getLsbD_putWord _ _ _ _ (by omega), if_pos (by omega), Nat.add_sub_cancel_left]

theorem getWord_putWord_other {n : Nat} (x : BitVec n) {k j : Nat} (v : Word) (h : 32 * j + 32 ≤ n) (hj : j ≠ k) :
    getWord (putWord x k v) j = getWord x j := by
  apply BitVec.eq_of_getLsbD_eq
  intro i hi
  rw [getLsbD_getWord _ _ _ hi, getLsbD_putWord _ _ _ _ (by omega), if_neg (by omega), getLsbD_getWord _ _ _ hi]

theorem loW_eq_getWord (x : Dword) : loW x = getWord x 0 := by
  simp [loW, getWord, BitVec.setWidth_eq_extractLsb']
theorem hiW_eq_getWord (x : Dword) : hiW x = getWord x 1 := by
  apply BitVec.eq_of_getLsbD_eq
  intro i hi
  simp [hiW, getWord, hi]

@[simp] theorem loW_putWord_low (x : Dword) (v : Word) : loW (putWord x 0 v) = v := by
  rw [loW_eq_getWord, getWord_putWord _ _ _ (by decide)]
@[simp] theorem hiW_putWord_low (x : Dword) (v : Word) : hiW (putWord x 0 v) = hiW x := by
  rw [hiW_eq_getWord, hiW_eq_getWord, getWord_putWord_other _ _ (by decide) (by decide)]
@[simp] theorem loW_putWord_high (x : Dword) (v : Word) : loW (putWord x 1 v) = loW x := by
  rw [loW_eq_getWord, loW_eq_getWord, getWord_putWord_other _ _ (by decide) (by decide)]
@[simp] theorem hiW_putWord_high (x : Dword) (v : Word) : hiW (putWord x 1 v) = v := by
  rw [hiW_eq_getWord, getWord_putWord _ _ _ (by decide)]

/-- A bit of a word that is given as a number. -/
theorem getLsbD_ofNat_word {i : Nat} (h : i < 32) (n : Nat) : (BitVec.ofNat 32 n).getLsbD i = decide (n / 2 ^ i % 2 = 1) := by
  rw [BitVec.getLsbD_ofNat, Nat.testBit_eq_decide_div_mod_eq]; simp [h]

/-- A field of a word that is given as a number, as a number. -/
theorem toNat_extract_ofNat_word {lo len : Nat} (h : lo + len ≤ 32) (n : Nat) :
    ((BitVec.ofNat 32 n).extractLsb' lo len).toNat = n / 2 ^ lo % 2 ^ len := by
  rw [BitVec.extractLsb'_toNat, BitVec.toNat_ofNat, Nat.shiftRight_eq_div_pow, show 32 = lo + (32 - lo) by omega, Nat.pow_add,
    Nat.mod_mul_right_div_self, Nat.mod_mod_of_dvd _ (Nat.pow_dvd_pow 2 (by omega))]

/-- A bit of a word as a summand of its value. -/
theorem ite_getLsbD (v : Word) (i c : Nat) : (if v.getLsbD i then c else 0) = c * (v.toNat / 2 ^ i % 2) := by
  rw [BitVec.getLsbD, Nat.testBit_eq_decide_div_mod_eq]
  rcases Nat.mod_two_eq_zero_or_one (v.toNat / 2 ^ i) with h | h <;> simp [h]

/-- A condition as a summand of a word's value. -/
theorem ite_eq_toNat_mul (b : Bool) (c : Nat) : (if b then c else 0) = b.toNat * c := by
  cases b <;> simp

/-- A flag of a word that is given as a number. -/
theorem getLsbD_ofNat_word_eq {i n : Nat} {b : Bool} (hi : i < 32) (h : n / 2 ^ i % 2 = b.toNat) : (BitVec.ofNat 32 n).getLsbD i = b := by
  rw [getLsbD_ofNat_word hi, h]; cases b <;> rfl

/-- The fields of the handover control word of a kick page (R248). -/
theorem handover_word_fields (dir busy err : Bool) (cause : BitVec 8) {w : Word}
    (hw : w = BitVec.ofNat 32 ((if dir then 1 else 0) + (if busy then 4 else 0) + (if err then 8 else 0) + 256 * cause.toNat)) :
    w.getLsbD 0 = dir ∧ w.getLsbD 2 = busy ∧ w.getLsbD 3 = err ∧ w.extractLsb' 8 8 = cause := by
  have := cause.isLt
  have := dir.toNat_le
  have := busy.toNat_le
  have := err.toNat_le
  subst hw
  simp only [ite_eq_toNat_mul]
  refine ⟨?_, ?_, ?_, BitVec.eq_of_toNat_eq ?_⟩
  · exact getLsbD_ofNat_word_eq (by decide) (by omega)
  · exact getLsbD_ofNat_word_eq (by decide) (by omega)
  · exact getLsbD_ofNat_word_eq (by decide) (by omega)
  · rw [toNat_extract_ofNat_word (by decide)]; omega

/-- The fields of the fault word of a context (R353). -/
theorem fault_word_fields (pending lfault : Bool) (lcode : BitVec 8) {w : Word}
    (hw : w = BitVec.ofNat 32 ((if pending then 1 else 0) + (if lfault then 2 else 0) + 256 * lcode.toNat)) :
    w.getLsbD 0 = pending ∧ w.getLsbD 1 = lfault ∧ w.extractLsb' 8 8 = lcode := by
  have := lcode.isLt
  have := pending.toNat_le
  have := lfault.toNat_le
  subst hw
  simp only [ite_eq_toNat_mul]
  refine ⟨?_, ?_, BitVec.eq_of_toNat_eq ?_⟩
  · exact getLsbD_ofNat_word_eq (by decide) (by omega)
  · exact getLsbD_ofNat_word_eq (by decide) (by omega)
  · rw [toNat_extract_ofNat_word (by decide)]; omega

/-- The fields of the status word of a kick page (R99): DEADLINE_MISS above the state and the cause. -/
theorem status_word_fields {low : Nat} (h : low < 65536) (miss : Bool) {w : Word}
    (hw : w = BitVec.ofNat 32 (low + if miss then 65536 else 0)) :
    w.getLsbD 16 = miss ∧ w.extractLsb' 0 16 = BitVec.ofNat 16 low := by
  have := miss.toNat_le
  subst hw
  simp only [ite_eq_toNat_mul]
  refine ⟨?_, BitVec.eq_of_toNat_eq ?_⟩
  · exact getLsbD_ofNat_word_eq (by decide) (by omega)
  · rw [toNat_extract_ofNat_word (by decide), BitVec.toNat_ofNat]; omega

end Sys2Proof.Machine
end

section
/-! The device register window (R5): what a write of a word does in each of its regions, and that every other word reads as before. -/

namespace Sys2Proof.Machine

/-! ### The state of a kick page and of a context's fault registers -/

@[simp] theorem hand_setHand (s : State) (q : Nat) (h : Handover) : (s.setHand q h).hand q = h := alGetD_alPut ..
theorem hand_setHand_other (s : State) {q p : Nat} (hp : p ≠ q) (h : Handover) : (s.setHand q h).hand p = s.hand p :=
  alGetD_alPut_other hp ..
@[simp] theorem qstate_setHand (s : State) (q p : Nat) (h : Handover) : (s.setHand q h).qstate p = s.qstate p := rfl
@[simp] theorem queueD_setHand (s : State) (q p : Nat) (h : Handover) : (s.setHand q h).queueD p = s.queueD p := rfl

theorem qstate_le_four (s : State) (q : Nat) : s.qstate q ≤ 4 := by
  unfold State.qstate
  split
  · decide
  · dsimp only; split_ifs <;> decide

/-- A write to the fault word of a context touches the fault registers alone. -/
theorem clearLfault_frame (s : State) (c : Nat) (v : Word) : s.clearLfault c v = { s with cfault := (s.clearLfault c v).cfault } := by
  unfold State.clearLfault; split <;> rfl

@[simp] theorem fcount_clearLfault (s : State) (c d : Nat) (v : Word) : (s.clearLfault c v).fcount d = s.fcount d := by
  rw [clearLfault_frame]; rfl
@[simp] theorem ctxD_clearLfault (s : State) (c d : Nat) (v : Word) : (s.clearLfault c v).ctxD d = s.ctxD d := by
  rw [clearLfault_frame]; rfl

/-- LFAULT clears where a 1 is written, and the rest of the fault registers stands (R353). -/
theorem faultOf_clearLfault (s : State) (c : Nat) (v : Word) :
    (s.clearLfault c v).faultOf c = { s.faultOf c with lfault := (s.faultOf c).lfault && !v.getLsbD 1 } := by
  unfold State.clearLfault
  cases hv : v.getLsbD 1
  · simp
  · rw [if_pos rfl, Bool.not_true, Bool.and_false]; exact alGetD_alPut ..
theorem faultOf_clearLfault_other (s : State) {c d : Nat} (hd : d ≠ c) (v : Word) :
    (s.clearLfault c v).faultOf d = s.faultOf d := by
  unfold State.clearLfault
  split
  · exact alGetD_alPut_other hd ..
  · rfl

theorem writeKick_frame (s : State) (q o : Nat) (v : Word) : s.writeKick q o v = { s with handregs := (s.writeKick q o v).handregs } := by
  unfold State.writeKick
  dsimp only
  split_ifs <;> rfl

/-! ### The regions of the window -/

theorem readReg_featAccept (s : State) {k : Nat} (hk : k < 8) : s.readReg (0x120 + 4 * k) = getWord s.start.featAccept k := by
  unfold State.readReg
  rw [if_neg (by omega), if_neg (by omega), if_pos (by omega), show (0x120 + 4 * k - 0x120) / 4 = k by omega]

theorem readReg_ctx (s : State) {c o : Nat} (hc : c < 16) (ho : o < 32) : s.readReg (0xC00 + 32 * c + o) = s.readCtx c o := by
  unfold State.readReg
  iterate 13 rw [if_neg (by omega)]
  rw [if_pos (by omega), show (0xC00 + 32 * c + o - 0xC00) / 0x20 = c by omega, show (0xC00 + 32 * c + o - 0xC00) % 0x20 = o by omega]

theorem readReg_kick (s : State) {q o : Nat} (hq : q < 1024) (ho : o < 0x1000) :
    s.readReg (0x100000 + 0x1000 * q + o) = s.readKick q o := by
  unfold State.readReg
  have hb : kickBase = 0x100000 := rfl
  have hl : queueLimit = 1024 := rfl
  iterate 14 rw [if_neg (by omega)]
  rw [if_pos (by omega), show (0x100000 + 0x1000 * q + o - kickBase) / 0x1000 = q by omega,
    show (0x100000 + 0x1000 * q + o - kickBase) % 0x1000 = o by omega]

/-- The status word of a kick page (R98, R99). -/
theorem readKick_status (s : State) (q : Nat) : s.readKick q 0x008 =
    BitVec.ofNat 32 (s.qstate q + 256 * (s.queueD q).cause.toNat + if (s.hand q).miss then 65536 else 0) := rfl

/-- The control word of a handover (R248). -/
theorem readKick_control (s : State) (q : Nat) : s.readKick q 0x110 =
    BitVec.ofNat 32 ((if (s.hand q).dir then 1 else 0) + (if (s.hand q).busy then 4 else 0) + (if (s.hand q).err then 8 else 0) +
      256 * (s.hand q).cause.toNat) := rfl

/-- The fault word of a context (R353). -/
theorem readCtx_fault (s : State) (c : Nat) : s.readCtx c 0 =
    BitVec.ofNat 32 ((if decide (s.fcount c ≠ 0) then 1 else 0) + (if (s.faultOf c).lfault then 2 else 0) + 256 * (s.faultOf c).lcode.toNat) := by
  by_cases h : s.fcount c = 0 <;> simp [State.readCtx, h]

/-- A plain write of an aligned word (R5). -/
theorem exec_registerWrite {off : Nat} (h : off % 4 = 0) (v : Word) (s : State) :
    exec (.registerWrite off v) s = .next (s.writeReg off v) := by
  change execRegisterWrite off v s = _
  rw [execRegisterWrite, if_pos h]

/-- Memory, teams, queues and contexts stand as they were. -/
def SameWork (s t : State) : Prop :=
  (t.mem = s.mem ∧ t.poison = s.poison ∧ t.hostCache = s.hostCache) ∧ t.teams = s.teams ∧ t.queues = s.queues ∧ t.ctxs = s.ctxs

theorem sameWork_clearLfault (s : State) (c : Nat) (v : Word) : SameWork s (s.clearLfault c v) := by
  rw [clearLfault_frame]; exact ⟨⟨rfl, rfl, rfl⟩, rfl, rfl, rfl⟩
theorem sameWork_writeKick (s : State) (q o : Nat) (v : Word) : SameWork s (s.writeKick q o v) := by
  rw [writeKick_frame]; exact ⟨⟨rfl, rfl, rfl⟩, rfl, rfl, rfl⟩
theorem sameWork_ite {s a b : State} {p : Prop} [Decidable p] (ha : SameWork s a) (hb : SameWork s b) : SameWork s (if p then a else b) := by
  split <;> assumption

/-- A plain write starts nothing (R5). -/
theorem sameWork_writeReg (s : State) (off : Nat) (v : Word) : SameWork s (s.writeReg off v) := by
  unfold State.writeReg
  iterate 13 refine sameWork_ite ⟨⟨rfl, rfl, rfl⟩, rfl, rfl, rfl⟩ ?_
  exact sameWork_ite (sameWork_clearLfault ..) (sameWork_ite (sameWork_writeKick ..) ⟨⟨rfl, rfl, rfl⟩, rfl, rfl, rfl⟩)

theorem writeReg_tlbiControl (s : State) {v : Word} (h : v.getLsbD 8 = false) : s.writeReg 0x508 v = s.putTlbi v := by
  unfold State.writeReg
  iterate 5 rw [if_neg (by omega)]
  rw [if_pos ⟨rfl, h⟩]

theorem writeReg_beadControl (s : State) {v : Word} (h : v.getLsbD 5 = false) : s.writeReg 0x600 v = s.putBeadCtl v := by
  unfold State.writeReg
  iterate 6 rw [if_neg (by omega)]
  rw [if_pos ⟨rfl, h⟩]

/-- FEAT_ACCEPT takes a word while START waits for it (R89). -/
theorem writeReg_featAccept {s : State} {k : Nat} (hk : k < 8) (hs : s.start.st = .awaitAccept) (v : Word) :
    s.writeReg (0x120 + 4 * k) v = { s with start := { s.start with featAccept := putWord s.start.featAccept k v } } := by
  unfold State.writeReg
  rw [if_pos ⟨by omega, by omega, hs⟩, show (0x120 + 4 * k - 0x120) / 4 = k by omega]

theorem writeReg_featAccept_ignored {s : State} {k : Nat} (hk : k < 8) (hs : s.start.st ≠ .awaitAccept) (v : Word) :
    s.writeReg (0x120 + 4 * k) v = s := by
  unfold State.writeReg
  have hb : kickBase = 0x100000 := rfl
  have hl : queueLimit = 1024 := rfl
  rw [if_neg fun h => hs h.2.2]
  iterate 14 rw [if_neg (by omega)]

theorem writeReg_ctx (s : State) {c : Nat} (hc : c < 16) {v : Word} (h16 : v.getLsbD 16 = false) (h17 : v.getLsbD 17 = false) :
    s.writeReg (0xC00 + 32 * c) v = s.clearLfault c v := by
  unfold State.writeReg
  iterate 13 rw [if_neg (by omega)]
  rw [if_pos ⟨by omega, by omega, by omega, h16, h17⟩, show (0xC00 + 32 * c - 0xC00) / 0x20 = c by omega]

theorem writeReg_kick (s : State) {q o : Nat} (hq : q < 1024) (ho : o < 0x1000) (v : Word) :
    s.writeReg (0x100000 + 0x1000 * q + o) v = s.writeKick q o v := by
  unfold State.writeReg
  have hb : kickBase = 0x100000 := rfl
  have hl : queueLimit = 1024 := rfl
  iterate 14 rw [if_neg (by omega)]
  rw [if_pos (by omega), show (0x100000 + 0x1000 * q + o - kickBase) / 0x1000 = q by omega,
    show (0x100000 + 0x1000 * q + o - kickBase) % 0x1000 = o by omega]

/-! ### What a write leaves of the other words -/

/-- Of FEAT_ACCEPT a write replaces one word. -/
theorem readReg_featAccept_other (s : State) {k o : Nat} (ho : o % 4 = 0) (hne : o ≠ 0x120 + 4 * k) (v : Word) :
    State.readReg { s with start := { s.start with featAccept := putWord s.start.featAccept k v } } o = s.readReg o := by
  by_cases h : 0x120 ≤ o ∧ o < 0x140
  · obtain ⟨j, rfl⟩ : ∃ j, o = 0x120 + 4 * j := ⟨(o - 0x120) / 4, by omega⟩
    rw [readReg_featAccept _ (by omega), readReg_featAccept _ (by omega)]
    exact getWord_putWord_other _ _ (by omega) (by omega)
  · simp only [State.readReg, if_neg h]; rfl

theorem readReg_putTlbi_other (s : State) {o : Nat} (hne : o ≠ 0x508) (v : Word) : (s.putTlbi v).readReg o = s.readReg o := by
  simp only [State.readReg, if_neg hne]; rfl

theorem readReg_putBeadCtl_other (s : State) {o : Nat} (hne : o ≠ 0x600) (v : Word) : (s.putBeadCtl v).readReg o = s.readReg o := by
  have hb : (s.putBeadCtl v).readBead o = s.readBead o := by simp only [State.readBead, if_neg hne]; rfl
  simp only [State.readReg, hb]; rfl

/-- A write to the fault word of a context can be seen in that word alone. -/
theorem readCtx_clearLfault_other (s : State) {c d o : Nat} (h : d = c → o ≠ 0) (v : Word) :
    (s.clearLfault c v).readCtx d o = s.readCtx d o := by
  by_cases hd : d = c
  · subst hd
    simp only [State.readCtx, fcount_clearLfault, ctxD_clearLfault, faultOf_clearLfault, if_neg (h rfl)]
  · simp only [State.readCtx, fcount_clearLfault, ctxD_clearLfault, faultOf_clearLfault_other s hd]

theorem readReg_clearLfault_other (s : State) {c o : Nat} (hne : o ≠ 0xC00 + 32 * c) (v : Word) :
    (s.clearLfault c v).readReg o = s.readReg o := by
  by_cases h : 0xC00 ≤ o ∧ o < 0xE00
  · have hc : (s.clearLfault c v).readCtx ((o - 0xC00) / 0x20) ((o - 0xC00) % 0x20) = s.readCtx ((o - 0xC00) / 0x20) ((o - 0xC00) % 0x20) :=
      readCtx_clearLfault_other s (by omega) v
    simp only [State.readReg, hc]
    rw [clearLfault_frame]; rfl
  · simp only [State.readReg, if_neg h]
    rw [clearLfault_frame]; rfl

/-- Outside its kick page the registers of a queue cannot be seen. -/
theorem readReg_setHand (s : State) (q : Nat) (h : Handover) {o : Nat}
    (hp : ∀ r, o = 0x100000 + 0x1000 * q + r → (s.setHand q h).readKick q r = s.readKick q r) :
    (s.setHand q h).readReg o = s.readReg o := by
  have hb : kickBase = 0x100000 := rfl
  have hk : kickBase ≤ o → (s.setHand q h).readKick ((o - kickBase) / 0x1000) ((o - kickBase) % 0x1000) =
      s.readKick ((o - kickBase) / 0x1000) ((o - kickBase) % 0x1000) := fun hle => by
    by_cases hq : (o - kickBase) / 0x1000 = q
    · rw [hq]; exact hp _ (by omega)
    · simp only [State.readKick, hand_setHand_other s hq, qstate_setHand, queueD_setHand]
  by_cases hle : kickBase ≤ o
  · simp only [State.readReg, hk hle]; rfl
  · have hn : ¬(kickBase ≤ o ∧ o < kickBase + queueLimit * 0x1000) := fun h => hle h.1
    simp only [State.readReg, if_neg hn]; rfl

end Sys2Proof.Machine
end

section
/-! TLB invalidations and the registers of the window (R5, R89, R98, R99, R126, R243, R248, R353). -/

namespace Sys2Proof.Claims

open Sys2Proof Sys2Proof.Machine

/-! ### Invalidations (R126) -/

theorem tlbiBytes_eq_pageBytes {size : Nat} (h : size < 5) : tlbiBytes size = some (pageBytes size) := by
  interval_cases size <;> rfl

/-- SIZE of a write to the invalidation control register. -/
theorem putTlbi_size_toNat (s : State) (v : Word) : (s.putTlbi v).tlbi.size.toNat = v.toNat / 32 % 8 := by
  simp [State.putTlbi, BitVec.extractLsb'_toNat, Nat.shiftRight_eq_div_pow]
theorem putTlbi_ctx_toNat (s : State) (v : Word) : (s.putTlbi v).tlbi.ctx.toNat = v.toNat % 16 := by
  simp [State.putTlbi, BitVec.extractLsb'_toNat]

/-- What is left in the shared TLB after a removal does not pass its test. -/
theorem not_of_mem_tlb_tlbDrop {s : State} {p : TlbEntry → Bool} {x : TlbEntry} (h : x ∈ (s.tlbDrop p).tlb) : p x = false := by
  simpa using (List.mem_filter.mp h).2
/-- Nor does what is left in the TLB of a mast. -/
theorem not_of_mem_mast_tlbDrop {s : State} {p : TlbEntry → Bool} {m : Mast} (hm : m ∈ (s.tlbDrop p).masts) {x : TlbEntry}
    (h : x ∈ m.tlb) : p x = false := by
  obtain ⟨m', -, rfl⟩ := List.mem_map.mp hm
  simpa using (List.mem_filter.mp h).2

/-- A translation that the test of an invalidation passes over is of another context or lies outside the extent. -/
theorem outside_of_not_dropped {c base n : Nat} {x : TlbEntry}
    (h : (x.ctx == c && decide (base < x.va + x.bytes) && decide (x.va < base + n)) = false) (hc : x.ctx = c) :
    x.va + x.bytes ≤ base ∨ base + n ≤ x.va := by
  simp only [hc, beq_self_eq_true, Bool.true_and, Bool.and_eq_false_iff, decide_eq_false_iff_not] at h
  omega

/-- TLBI_GO with a SIZE that is not reserved starts the invalidation of the aligned page. -/
theorem exec_tlbiGo {s : State} {v : Word} (h8 : v.getLsbD 8 = true) (h4 : v.getLsbD 4 = false) (hj : s.tlbi.job = none) {n : Nat}
    (hn : tlbiBytes (v.toNat / 32 % 8) = some n) :
    exec (.tlbiGo v) s = .next { s.putTlbi v with
      tlbi := { (s.putTlbi v).tlbi with job := some (v.toNat % 16, s.tlbi.addr.toNat / n * n, n) } } := by
  have hj' : (s.putTlbi v).tlbi.job = none := hj
  change execTlbiGo v s = _
  simp only [execTlbiGo, h8, h4, Bool.not_false, Bool.and_self, if_true, putTlbi_size_toNat, putTlbi_ctx_toNat, hj', hn]
  rfl

/-- TLBI_ALL starts the invalidation of every translation of the context. -/
theorem exec_tlbiAll {s : State} {v : Word} (h8 : v.getLsbD 8 = true) (h4 : v.getLsbD 4 = true) (hj : s.tlbi.job = none) :
    exec (.tlbiAll v) s = .next { s.putTlbi v with tlbi := { (s.putTlbi v).tlbi with job := some (v.toNat % 16, 0, 2 ^ 64) } } := by
  have hj' : (s.putTlbi v).tlbi.job = none := hj
  change execTlbiAll v s = _
  simp only [execTlbiAll, h8, h4, Bool.and_self, if_true, putTlbi_ctx_toNat, hj']

/-- TLBI_COMPLETE waits for the contributions of a DET launch in its extent (log entry 82). -/
theorem exec_tlbiComplete_waits {s : State} {c base n : Nat} (hj : s.tlbi.job = some (c, base, n)) (hd : s.detHolds c base n = true) :
    exec .tlbiComplete s = .next s := by
  change execTlbiComplete s = _
  simp only [execTlbiComplete, hj, hd, if_true]

/-- The state in which the copies of a context are complete and its staging entries merged, so that nothing uses its translations. -/
def settledCtx (s : State) (c : Nat) : State :=
  (s.completeCopies (s.asyncs.filter fun a => (s.team? a.team).any (s.ofCtx c))).flushCtx c

/-- Otherwise TLBI_COMPLETE removes the translations of the extent once nothing of the context uses them. -/
theorem exec_tlbiComplete_drops {s : State} {c base n : Nat} (hj : s.tlbi.job = some (c, base, n)) (hd : s.detHolds c base n = false) :
    exec .tlbiComplete s =
      let u := (settledCtx s c).tlbDrop fun x => x.ctx == c && decide (base < x.va + x.bytes) && decide (x.va < base + n)
      .next { u with tlbi := { u.tlbi with job := none } } := by
  change execTlbiComplete s = _
  simp only [execTlbiComplete, hj, hd]
  rfl

theorem invalidationSteps (s : State) (v : Word) : InvalidationSteps s v := by
  refine ⟨fun h8 h4 hj hz => ?_, fun h8 h4 hj => ?_, fun c base n hj hd => ?_, fun c base n hj hd => ?_⟩
  · exact ⟨_, exec_tlbiGo h8 h4 hj (tlbiBytes_eq_pageBytes hz), rfl, rfl, rfl⟩
  · exact ⟨_, exec_tlbiAll h8 h4 hj, rfl, rfl⟩
  · exact ⟨_, exec_tlbiComplete_drops hj hd, rfl, fun x hx => outside_of_not_dropped (not_of_mem_tlb_tlbDrop hx),
      fun m hm x hx => outside_of_not_dropped (not_of_mem_mast_tlbDrop hm hx)⟩
  · exact ⟨_, exec_tlbiComplete_waits hj hd, rfl⟩

/-! ### Registers that read back (R5) -/

/-- A register that is a word of its own, or half of a pair, reads back what was written. -/
theorem registerSteps (s : State) (v : Word) : RegisterSteps s v := by
  refine ⟨fun off hoff => ?_, _, exec_registerWrite (by decide) v s, rfl⟩
  suffices h : off % 4 = 0 ∧ (s.writeReg off v).readReg off = v from ⟨_, exec_registerWrite h.1 v s, h.2, sameWork_writeReg s off v⟩
  simp only [List.mem_cons, List.not_mem_nil, or_false] at hoff
  obtain cmdHi | tlbiLo | tlbiHi | beadLo | beadHi | lenLo | lenHi | ce | ue := hoff
  · subst cmdHi; exact ⟨rfl, rfl⟩
  · subst tlbiLo; exact ⟨rfl, loW_putWord_low ..⟩
  · subst tlbiHi; exact ⟨rfl, hiW_putWord_high ..⟩
  · subst beadLo; exact ⟨rfl, loW_putWord_low ..⟩
  · subst beadHi; exact ⟨rfl, hiW_putWord_high ..⟩
  · subst lenLo; exact ⟨rfl, loW_putWord_low ..⟩
  · subst lenHi; exact ⟨rfl, hiW_putWord_high ..⟩
  · subst ce; exact ⟨rfl, rfl⟩
  · subst ue; exact ⟨rfl, rfl⟩

/-! ### Registers with fields -/

/-- A plain write is told by the state that it leaves: what the word reads then, and that the other words read as before. -/
theorem writesOnly_of {s t : State} {off : Nat} {v : Word} {Q : State → Prop} (h4 : off % 4 = 0) (hw : s.writeReg off v = t) (hq : Q t)
    (ho : ∀ o, o % 4 = 0 → o ≠ off → t.readReg o = s.readReg o) : WritesOnly s off v Q := by
  subst hw
  obtain ⟨hmem, hteams, hqueues, hctxs⟩ := sameWork_writeReg s off v
  exact ⟨_, exec_registerWrite h4 v s, hq, hmem, hteams, hqueues, hctxs, ho⟩

/-- FEAT_ACCEPT (R89). -/
theorem featAccept_writes {s : State} {k : Nat} (hk : k < 8) (v : Word) (hs : s.start.st = .awaitAccept) :
    WritesOnly s (0x120 + 4 * k) v fun t => t.readReg (0x120 + 4 * k) = v :=
  writesOnly_of (by omega) (writeReg_featAccept hk hs v) ((readReg_featAccept _ hk).trans (getWord_putWord _ _ _ (by omega)))
    fun _ ho hne => readReg_featAccept_other s ho hne v

/-- The control register of invalidation without GO (R126). -/
theorem tlbiControl_writes {s : State} {v : Word} (h8 : v.getLsbD 8 = false) : WritesOnly s 0x508 v fun t => t.tlbi.job = s.tlbi.job ∧
    (t.readReg 0x508).toNat = v.toNat % 256 + if s.tlbi.job.isSome then 512 else 0 := by
  refine writesOnly_of (by decide) (writeReg_tlbiControl s h8) ⟨rfl, ?_⟩ fun o _ hne => readReg_putTlbi_other s hne v
  have hr : (s.putTlbi v).readReg 0x508 = BitVec.ofNat 32 ((s.putTlbi v).tlbi.ctx.toNat + (if v.getLsbD 4 then 16 else 0) +
    32 * (s.putTlbi v).tlbi.size.toNat + (if s.tlbi.job.isSome then 512 else 0)) := rfl
  have := Bool.toNat_le s.tlbi.job.isSome
  rw [hr, putTlbi_ctx_toNat, putTlbi_size_toNat, ite_getLsbD, ite_eq_toNat_mul, BitVec.toNat_ofNat]
  omega

/-- The control register of the bead table without GO (R243). -/
theorem beadControl_writes {s : State} {v : Word} (h5 : v.getLsbD 5 = false) : WritesOnly s 0x600 v fun t => t.bead.job = s.bead.job ∧
    (t.readReg 0x600).toNat = v.toNat % 32 + (if s.bead.job.isSome then 64 else 0) + v.toNat / 256 % 4 * 256 + v.toNat / 65536 * 65536 := by
  refine writesOnly_of (by decide) (writeReg_beadControl s h5) ⟨rfl, ?_⟩ fun o _ hne => readReg_putBeadCtl_other s hne v
  have hr : (s.putBeadCtl v).readReg 0x600 = BitVec.ofNat 32 ((v.extractLsb' 0 2).toNat + 4 * (v.extractLsb' 2 2).toNat +
    (if v.getLsbD 4 then 16 else 0) + (if s.bead.job.isSome then 64 else 0) + 256 * (v.extractLsb' 8 2).toNat +
    65536 * (v.extractLsb' 16 16).toNat) := rfl
  have := Bool.toNat_le s.bead.job.isSome
  have := v.isLt
  rw [hr, ite_getLsbD, ite_eq_toNat_mul, BitVec.toNat_ofNat]
  simp only [BitVec.extractLsb'_toNat, Nat.shiftRight_eq_div_pow]
  omega

/-- A write to a kick page that changes only what its own word of the page reads. -/
theorem kick_writes {s : State} {q r : Nat} {v : Word} {h : Handover} {Q : State → Prop} (hq : q < 1024) (hr : r < 0x1000) (h4 : r % 4 = 0)
    (hw : s.writeKick q r v = s.setHand q h) (ho : ∀ o, o ≠ r → (s.setHand q h).readKick q o = s.readKick q o) (hQ : Q (s.setHand q h)) :
    WritesOnly s (0x100000 + 0x1000 * q + r) v Q :=
  writesOnly_of (by omega) ((writeReg_kick s hq hr v).trans hw) hQ fun o _ hne => readReg_setHand s q h fun o' he =>
    ho o' fun hr' => hne (by rw [he, hr'])

/-- A word of a kick page that reads back what was written. -/
theorem kick_readsBack {s : State} {q r : Nat} {v : Word} {h : Handover} (hq : q < 1024) (hr : r < 0x1000) (h4 : r % 4 = 0)
    (hw : s.writeKick q r v = s.setHand q h) (hv : (s.setHand q h).readKick q r = v)
    (ho : ∀ o, o ≠ r → (s.setHand q h).readKick q o = s.readKick q o) :
    WritesOnly s (0x100000 + 0x1000 * q + r) v fun t => t.readReg (0x100000 + 0x1000 * q + r) = v :=
  kick_writes hq hr h4 hw ho ((readReg_kick _ hq hr).trans hv)

/-- The address and length registers of a handover (R248): each is half of a pair, of which the other half stands. -/
theorem handoverRange_writes (s : State) {q : Nat} (hq : q < 1024) (v : Word) {r : Nat} (hr : r ∈ [0x100, 0x104, 0x108, 0x10C]) :
    WritesOnly s (0x100000 + 0x1000 * q + r) v fun t => t.readReg (0x100000 + 0x1000 * q + r) = v := by
  simp only [List.mem_cons, List.not_mem_nil, or_false] at hr
  obtain rfl | rfl | rfl | rfl := hr <;>
    exact kick_readsBack hq (by decide) rfl rfl (by simp [State.readKick]) fun o hne => by simp [State.readKick, hne]

/-- The fields of the control word of a handover. -/
theorem readReg_handoverControl (s : State) {q : Nat} (hq : q < 1024) :
    let w := s.readReg (0x100000 + 0x1000 * q + 0x110)
    w.getLsbD 0 = (s.hand q).dir ∧ w.getLsbD 2 = (s.hand q).busy ∧ w.getLsbD 3 = (s.hand q).err ∧ w.extractLsb' 8 8 = (s.hand q).cause :=
  handover_word_fields _ _ _ _ ((readReg_kick s hq (by decide)).trans (readKick_control s q))

/-- The control word of a handover without GO (R248): DIR is taken, ERR clears where a 1 is written. -/
theorem handoverControl_writes (s : State) {q : Nat} (hq : q < 1024) {v : Word} (h1 : v.getLsbD 1 = false) :
    WritesOnly s (0x100000 + 0x1000 * q + 0x110) v fun t =>
      let old := s.readReg (0x100000 + 0x1000 * q + 0x110)
      let new := t.readReg (0x100000 + 0x1000 * q + 0x110)
      new.getLsbD 0 = v.getLsbD 0 ∧ new.getLsbD 2 = old.getLsbD 2 ∧ new.getLsbD 3 = (old.getLsbD 3 && !v.getLsbD 3) ∧
        new.extractLsb' 8 8 = old.extractLsb' 8 8 := by
  have hw : s.writeKick q 0x110 v = s.putHandCtl q v := by simp only [State.writeKick, h1]; rfl
  refine kick_writes hq (by decide) rfl hw (fun o hne => by simp [State.readKick, hne]) ?_
  obtain ⟨-, obusy, oerr, ocause⟩ := readReg_handoverControl s hq
  obtain ⟨ndir, nbusy, nerr, ncause⟩ := readReg_handoverControl (s.putHandCtl q v) hq
  rw [State.putHandCtl, hand_setHand] at ndir nbusy nerr ncause
  exact ⟨ndir, nbusy.trans obusy.symm, nerr.trans (by rw [oerr]), ncause.trans ocause.symm⟩

/-- The fields of the status word of a kick page. -/
theorem readReg_status (s : State) {q : Nat} (hq : q < 1024) :
    let w := s.readReg (0x100000 + 0x1000 * q + 0x008)
    w.getLsbD 16 = (s.hand q).miss ∧ w.extractLsb' 0 16 = BitVec.ofNat 16 (s.qstate q + 256 * (s.queueD q).cause.toNat) := by
  have := qstate_le_four s q
  have := (s.queueD q).cause.isLt
  exact status_word_fields (by omega) _ ((readReg_kick s hq (by decide)).trans (readKick_status s q))

/-- The status word of a kick page (R98, R99): DEADLINE_MISS clears where a 1 is written. -/
theorem kickStatus_writes (s : State) {q : Nat} (hq : q < 1024) (v : Word) :
    WritesOnly s (0x100000 + 0x1000 * q + 0x008) v fun t =>
      (t.readReg (0x100000 + 0x1000 * q + 0x008)).getLsbD 16 = ((s.readReg (0x100000 + 0x1000 * q + 0x008)).getLsbD 16 && !v.getLsbD 16) ∧
      (t.readReg (0x100000 + 0x1000 * q + 0x008)).extractLsb' 0 16 = (s.readReg (0x100000 + 0x1000 * q + 0x008)).extractLsb' 0 16 := by
  refine kick_writes hq (by decide) rfl rfl (fun o hne => by simp [State.readKick, hne]) ?_
  obtain ⟨omiss, olow⟩ := readReg_status s hq
  obtain ⟨nmiss, nlow⟩ := readReg_status (s.setHand q { s.hand q with miss := (s.hand q).miss && !v.getLsbD 16 }) hq
  rw [hand_setHand] at nmiss
  exact ⟨nmiss.trans (by rw [omiss]), nlow.trans olow.symm⟩

/-- The fields of the fault word of a context. -/
theorem readReg_faultWord (s : State) {c : Nat} (hc : c < 16) :
    let w := s.readReg (0xC00 + 32 * c)
    w.getLsbD 0 = decide (s.fcount c ≠ 0) ∧ w.getLsbD 1 = (s.faultOf c).lfault ∧ w.extractLsb' 8 8 = (s.faultOf c).lcode :=
  fault_word_fields _ _ _ ((readReg_ctx s hc (by decide : 0 < 32)).trans (readCtx_fault s c))

/-- The fault word of a context without RETRY and ABORT (R353): LFAULT clears where a 1 is written. -/
theorem faultWord_writes (s : State) {c : Nat} (hc : c < 16) {v : Word} (h16 : v.getLsbD 16 = false) (h17 : v.getLsbD 17 = false) :
    WritesOnly s (0xC00 + 32 * c) v fun t =>
      let old := s.readReg (0xC00 + 32 * c)
      let new := t.readReg (0xC00 + 32 * c)
      new.getLsbD 0 = old.getLsbD 0 ∧ new.getLsbD 1 = (old.getLsbD 1 && !v.getLsbD 1) ∧ new.extractLsb' 8 8 = old.extractLsb' 8 8 := by
  refine writesOnly_of (by omega) (writeReg_ctx s hc h16 h17) ?_ fun o _ hne => readReg_clearLfault_other s hne v
  obtain ⟨opending, ofault, ocode⟩ := readReg_faultWord s hc
  obtain ⟨npending, nfault, ncode⟩ := readReg_faultWord (s.clearLfault c v) hc
  rw [fcount_clearLfault] at npending
  rw [faultOf_clearLfault] at nfault ncode
  exact ⟨npending.trans opending.symm, nfault.trans (by rw [ofault]), ncode.trans ocode.symm⟩

theorem fieldWrites (s : State) (v : Word) : FieldWrites s v := by
  refine ⟨fun k hk => ⟨featAccept_writes hk v, fun hs => ?_⟩, tlbiControl_writes, beadControl_writes,
    fun q hq => ⟨fun o ho => handoverRange_writes s hq v ho, handoverControl_writes s hq, kickStatus_writes s hq v⟩,
    fun c hc h16 h17 => faultWord_writes s hc h16 h17⟩
  exact ⟨_, (exec_registerWrite (by omega) v s).trans (congrArg _ (writeReg_featAccept_ignored hk hs v)), rfl⟩

/-- Settles O45: invalidations, the registers that read back, and the words with fields of their own. -/
theorem windowRegisters : Obligations.WindowRegisters :=
  ⟨invalidationSteps, registerSteps, fieldWrites⟩

end Sys2Proof.Claims
end

section
/-! Bytes of memory as numbers: little-endian values of lists and of ranges of memory, and slices of a range. -/

namespace Sys2Proof.Claims

open Sys2Proof Sys2Proof.Machine

/-- The value of a list of bytes as a sum over its positions. -/
theorem leNat_map_range (f : Nat → Byte) : ∀ n, leNat ((List.range n).map f) = ((List.range n).map fun k => (f k).toNat * 256 ^ k).sum
  | 0 => rfl
  | n + 1 => by
    have ih := leNat_map_range (fun k => f (k + 1)) n
    rw [List.range_succ_eq_map, List.map_cons, List.map_map, leNat, List.map_cons, List.map_map, List.sum_cons]
    have hs : ((List.range n).map ((fun k => (f k).toNat * 256 ^ k) ∘ Nat.succ)).sum =
        256 * ((List.range n).map fun k => (f (k + 1)).toNat * 256 ^ k).sum := by
      rw [← List.sum_map_mul_left]
      congr 1
      exact List.map_congr_left fun k _ => by simp only [Function.comp, Nat.succ_eq_add_one]; ring
    rw [hs, ← ih, show f ∘ Nat.succ = fun k => f (k + 1) from rfl]
    simp

/-- `valueAt` is the value of the bytes. -/
theorem leNat_mem_range (s : State) (pa n : Nat) : leNat ((List.range n).map fun k => memGet s.mem (pa + k)) = valueAt s pa n :=
  leNat_map_range _ n

/-- A value of n bytes lies below 256 to the n. -/
theorem leNat_lt : ∀ bs : List Byte, leNat bs < 256 ^ bs.length
  | [] => Nat.one_pos
  | b :: r => by
    have := leNat_lt r
    have := b.isLt
    simp only [leNat, List.length_cons, Nat.pow_succ]
    omega

@[simp] theorem natLE_length (x : Nat) : ∀ n, (natLE x n).length = n
  | 0 => rfl
  | n + 1 => by simp [natLE, natLE_length (x / 256) n]

/-- Byte k of a number. -/
theorem natLE_getElem? (x n k : Nat) (h : k < n) : (natLE x n)[k]? = some (BitVec.ofNat 8 (x / 256 ^ k)) := by
  induction n generalizing x k with
  | zero => omega
  | succ n ih =>
    cases k with
    | zero => simp [natLE]
    | succ k => simp [natLE, ih (x / 256) k (by omega), Nat.div_div_eq_div_mul, Nat.pow_succ, Nat.mul_comm]

/-- The bytes of a number by their positions. -/
theorem natLE_eq_map (x n : Nat) : natLE x n = (List.range n).map fun k => BitVec.ofNat 8 (x / 256 ^ k) := by
  apply List.ext_getElem?
  intro k
  by_cases h : k < n
  · rw [natLE_getElem? x n k h]; simp [h]
  · simp [Nat.not_lt.mp h]

/-! ### Ranges of memory -/

@[simp] theorem rawBytes_length (s : State) (lo hi : Nat) : (rawBytes s lo hi).length = hi - lo := by simp [rawBytes]

/-- A range begins and ends where its bounds say. -/
theorem rawBytes_getElem? (s : State) {lo hi k : Nat} (h : k < hi - lo) : (rawBytes s lo hi)[k]? = some (memGet s.mem (lo + k)) := by
  simp [rawBytes, h]

theorem drop_rawBytes (s : State) (lo hi a : Nat) : (rawBytes s lo hi).drop a = rawBytes s (lo + a) hi := by
  apply List.ext_getElem?
  intro k
  rw [List.getElem?_drop]
  by_cases h : a + k < hi - lo
  · rw [rawBytes_getElem? s h, rawBytes_getElem? s (by omega), Nat.add_assoc]
  · rw [List.getElem?_eq_none (by simp; omega), List.getElem?_eq_none (by simp; omega)]

theorem take_rawBytes (s : State) {lo hi n : Nat} (h : lo + n ≤ hi) : (rawBytes s lo hi).take n = rawBytes s lo (lo + n) := by
  rw [rawBytes, rawBytes, ← List.map_take, List.take_range, Nat.min_eq_left (by omega), Nat.add_sub_cancel_left]

theorem leNat_rawBytes (s : State) (lo n : Nat) : leNat (rawBytes s lo (lo + n)) = valueAt s lo n := by
  simp [rawBytes, leNat_mem_range]

/-- All bytes of a range are zero. -/
theorem all_zero_rawBytes (s : State) (lo hi : Nat) :
    (rawBytes s lo hi).all (· == 0) = true ↔ ∀ a, lo ≤ a → a < hi → memGet s.mem a = 0 := by
  simp only [rawBytes, List.all_map, List.all_eq_true, List.mem_range, Function.comp, beq_iff_eq]
  constructor
  · intro h a h1 h2
    have := h (a - lo) (by omega)
    rwa [Nat.add_sub_cancel' h1] at this
  · exact fun h k hk => h _ (by omega) (by omega)

end Sys2Proof.Claims
end

section
/-! Start (R86 to R90): the image of R88 as the checks read it, and each step of start. -/

namespace Sys2Proof.Claims

open Sys2Proof Sys2Proof.Machine

/-- Settles O9: every part of the claim is a field of the reset state, and an empty memory reads as unlisted. -/
theorem resetLeavesStartState : Obligations.ResetLeavesStartState :=
  ⟨rfl, rfl, rfl, rfl, rfl, rfl, rfl, rfl, rfl, rfl, fun _ => rfl⟩

/-! ### The image -/

/-- Bytes of local HBM come from memory with their poison. -/
theorem homeByte_hbm (s : State) {pa : Nat} (h : pa < Config.hbmEnd) : s.homeByte pa = (memGet s.mem pa, s.poison.contains pa) := by
  simp [State.homeByte, isHbm, h]

/-- Bytes without poison are read as they stand. -/
theorem hbmBytes_clean {s : State} {n : Nat} (h : CleanHbm s 0 n) : s.hbmBytes 0 n = some (rawBytes s 0 n) := by
  obtain ⟨hn, hp⟩ := h
  have hb : (List.range n).map (fun i => s.homeByte (0 + i)) = (rawBytes s 0 n).map fun b => (b, false) := by
    rw [rawBytes, List.map_map]
    refine List.map_congr_left fun k hk => ?_
    rw [homeByte_hbm s (by have := List.mem_range.mp hk; omega)]
    simpa using hp k (List.mem_range.mp hk)
  rw [State.hbmBytes, hb]
  simp [Function.comp_def]

/-- A poisoned byte fails the read. -/
theorem hbmBytes_poisoned {s : State} {n : Nat} (hn : n ≤ Config.hbmEnd) (h : ¬CleanHbm s 0 n) : s.hbmBytes 0 n = none := by
  simp only [CleanHbm, Nat.zero_add, hn, true_and, not_forall, not_not] at h
  obtain ⟨k, hk, hp⟩ := h
  have hb : (((List.range n).map fun i => s.homeByte (0 + i)).any fun b => b.2) = true := by
    simp only [List.any_map, List.any_eq_true, List.mem_range, Function.comp]
    exact ⟨k, hk, by rw [homeByte_hbm s (by omega)]; simpa using hp⟩
  rw [State.hbmBytes, if_pos hb]

theorem cleanHbm_le {s : State} {m n : Nat} (h : m ≤ n) (hc : CleanHbm s 0 n) : CleanHbm s 0 m :=
  ⟨by have := hc.1; omega, fun k hk => hc.2 k (by omega)⟩

/-- A word of the image is the value in memory. -/
theorem imgWord_rawBytes (s : State) {n o : Nat} (h : o + 4 ≤ n) : imgWord (rawBytes s 0 n) o = valueAt s o 4 := by
  rw [imgWord, drop_rawBytes, Nat.zero_add, take_rawBytes s h, leNat_rawBytes]

theorem zeroRange_rawBytes (s : State) {n lo hi : Nat} (h : hi ≤ n) :
    zeroRange (rawBytes s 0 n) lo hi = true ↔ ∀ a, lo ≤ a → a < hi → memGet s.mem a = 0 := by
  rw [zeroRange, drop_rawBytes, Nat.zero_add]
  by_cases hl : lo ≤ hi
  · rw [take_rawBytes s (by omega), Nat.add_sub_cancel' hl, all_zero_rawBytes]
  · rw [Nat.sub_eq_zero_of_le (by omega)]
    exact ⟨fun _ a h1 h2 => absurd h2 (by omega), fun _ => rfl⟩

/-- The limits of the header fields of R88. -/
def HeaderGood (s : State) (len : Nat) : Prop :=
  valueAt s 0 4 = 0x4D494650 ∧ valueAt s 8 4 = len ∧ len % 4096 = 0 ∧ 65536 ≤ len ∧ len ≤ 2 ^ 26 ∧
  valueAt s 12 4 % 4096 = 0 ∧ 0x5000 ≤ valueAt s 12 4 ∧ 4 ≤ valueAt s 16 4 ∧ valueAt s 12 4 + valueAt s 16 4 ≤ len ∧
  valueAt s 20 4 % 4 = 0 ∧ valueAt s 20 4 < valueAt s 16 4

/-- The bytes that R88 requires to be zero. -/
def GapsZero (s : State) (len : Nat) : Prop :=
  let zero := fun lo hi => ∀ a, lo ≤ a → a < hi → memGet s.mem a = 0
  zero 0x18 0x40 ∧ zero 0x1C0 0x200 ∧ zero 0x4160 (valueAt s 12 4) ∧ zero (valueAt s 12 4 + valueAt s 16 4) len

theorem goodImage_iff (s : State) (len : Nat) : GoodImage s len ↔ HeaderGood s len ∧ GapsZero s len := by
  simp only [GoodImage, HeaderGood, GapsZero]; tauto

theorem headerLimits_iff (s : State) (len : Nat) : headerLimits (rawBytes s 0 64) len = true ↔ HeaderGood s len := by
  simp only [headerLimits, HeaderGood, imgWord_rawBytes s (show 0 + 4 ≤ 64 by omega), imgWord_rawBytes s (show 8 + 4 ≤ 64 by omega),
    imgWord_rawBytes s (show 12 + 4 ≤ 64 by omega), imgWord_rawBytes s (show 16 + 4 ≤ 64 by omega),
    imgWord_rawBytes s (show 20 + 4 ≤ 64 by omega), Bool.and_eq_true, beq_iff_eq, decide_eq_true_eq]
  constructor
  · rintro ⟨⟨⟨⟨⟨⟨⟨⟨⟨⟨magic, rfl⟩, page⟩, low⟩, high⟩, offPage⟩, offLow⟩, size⟩, ends⟩, aligned⟩, entry⟩
    exact ⟨magic, rfl, page, low, high, offPage, offLow, size, ends, aligned, entry⟩
  · rintro ⟨magic, rfl, page, low, high, offPage, offLow, size, ends, aligned, entry⟩
    exact ⟨⟨⟨⟨⟨⟨⟨⟨⟨⟨magic, rfl⟩, page⟩, low⟩, high⟩, offPage⟩, offLow⟩, size⟩, ends⟩, aligned⟩, entry⟩

theorem zerosOk_iff {s : State} {len : Nat} (h : HeaderGood s len) : zerosOk (rawBytes s 0 len) = true ↔ GapsZero s len := by
  obtain ⟨-, -, -, low, -, -, -, -, ends, -, -⟩ := h
  simp only [zerosOk, GapsZero, imgWord_rawBytes s (show 12 + 4 ≤ len by omega), imgWord_rawBytes s (show 16 + 4 ≤ len by omega),
    Bool.and_eq_true, rawBytes_length, Nat.sub_zero, zeroRange_rawBytes s (show 0x40 ≤ len by omega),
    zeroRange_rawBytes s (show 0x200 ≤ len by omega), zeroRange_rawBytes s (show valueAt s 12 4 ≤ len by omega),
    zeroRange_rawBytes s (Nat.le_refl len), and_assoc]

/-- What is signed: all of the image but its two signatures. -/
theorem signedPart_rawBytes (s : State) {len : Nat} (h : 65536 ≤ len) :
    signedPart (rawBytes s 0 len) = rawBytes s 0 0x40 ++ rawBytes s 0x1C0 0x200 ++ rawBytes s 0x4160 len := by
  simp only [signedPart, rsaOff, rsaLen, slhOff, slhLen, drop_rawBytes, Nat.zero_add]
  rw [take_rawBytes s (by omega), take_rawBytes s (by omega)]

theorem rsa_rawBytes (s : State) {len : Nat} (h : 65536 ≤ len) : ((rawBytes s 0 len).drop rsaOff).take rsaLen = rawBytes s 0x40 0x1C0 := by
  rw [drop_rawBytes, take_rawBytes s (by simp only [rsaOff, rsaLen]; omega)]; rfl
theorem slh_rawBytes (s : State) {len : Nat} (h : 65536 ≤ len) : ((rawBytes s 0 len).drop slhOff).take slhLen = rawBytes s 0x200 0x4160 := by
  rw [drop_rawBytes, take_rawBytes s (by simp only [slhOff, slhLen]; omega)]; rfl

/-! ### The checks in their order -/

/-- An image that is not of R88's format, or that holds poison, fails FORMAT. -/
theorem verify_format {s : State} (h : ¬(GoodImage s s.start.imageLen.toNat ∧ CleanHbm s 0 s.start.imageLen.toNat)) :
    s.verify = .error failFORMAT := by
  rw [goodImage_iff] at h
  unfold State.verify
  by_cases h64 : CleanHbm s 0 64
  · simp only [hbmBytes_clean h64]
    by_cases hh : HeaderGood s s.start.imageLen.toNat
    · rw [if_pos ((headerLimits_iff _ _).mpr hh)]
      have hlen : s.start.imageLen.toNat ≤ Config.hbmEnd := by
        obtain ⟨-, -, -, -, high, -⟩ := hh; exact high.trans (by decide)
      by_cases hc : CleanHbm s 0 s.start.imageLen.toNat
      · simp only [hbmBytes_clean hc]
        have hz : zerosOk (rawBytes s 0 s.start.imageLen.toNat) = false := by
          rw [Bool.eq_false_iff, ne_eq, zerosOk_iff hh]; tauto
        rw [hz]; rfl
      · rw [hbmBytes_poisoned hlen hc]
    · rw [if_neg (mt (headerLimits_iff _ _).mp hh)]
  · rw [hbmBytes_poisoned (by decide) h64]

/-- An image of R88's format is judged by its signatures and its version, in this order. -/
theorem verify_good {s : State} (hg : GoodImage s s.start.imageLen.toNat) (hc : CleanHbm s 0 s.start.imageLen.toNat) :
    let len := s.start.imageLen.toNat
    let rsa := rawBytes s 0x40 0x1C0
    let slh := rawBytes s 0x200 0x4160
    let digest := Config.sha384 (rawBytes s 0 0x40 ++ rawBytes s 0x1C0 0x200 ++ rawBytes s 0x4160 len)
    s.verify = if !Config.rsaVerifies digest rsa then .error failRSA else if !Config.slhVerifies digest slh then .error failSLH
      else if valueAt s 4 4 < Config.fuseMinVersion then .error failROLLBACK else .ok ⟨valueAt s 4 4, rsa, slh, digest⟩ := by
  obtain ⟨hh, hz⟩ := (goodImage_iff _ _).mp hg
  have low : 65536 ≤ s.start.imageLen.toNat := by obtain ⟨-, -, -, low, -⟩ := hh; exact low
  simp only [State.verify, hbmBytes_clean (cleanHbm_le (show 64 ≤ _ by omega) hc), hbmBytes_clean hc, if_pos ((headerLimits_iff _ _).mpr hh),
    (zerosOk_iff hh).mpr hz, signedPart_rawBytes s low, rsa_rawBytes s low, slh_rawBytes s low,
    imgWord_rawBytes s (show 4 + 4 ≤ s.start.imageLen.toNat by omega), Bool.not_true, Bool.false_eq_true, if_false]

/-! ### The steps -/

/-- R90: the features that the firmware offers are bits 0 to 12. -/
theorem featuresPass_iff (x : BitVec 256) : featuresPass x = true ↔ x.getLsbD 0 = true ∧ ∀ k, x.getLsbD k = true → k < 13 := by
  have offered (k : Nat) (hk : k < 256) : (BitVec.ofNat 256 Config.featOffer).getLsbD k = decide (k < 13) := by
    rw [BitVec.getLsbD_ofNat, show Config.featOffer = 2 ^ 13 - 1 from rfl, Nat.testBit_two_pow_sub_one]
    simp [hk]
  rw [featuresPass, Bool.and_eq_true, beq_iff_eq]
  refine and_congr_right fun _ => ⟨fun h k hk => ?_, fun h => BitVec.eq_of_getLsbD_eq fun k hk => ?_⟩
  · have hlt : k < 256 := BitVec.lt_of_getLsbD hk
    have := congrArg (fun y : BitVec 256 => y.getLsbD k) h
    simp only [BitVec.getLsbD_and, BitVec.getLsbD_not, hlt, decide_true, hk, Bool.true_and, offered k hlt] at this
    simpa only [Bool.not_eq_false', decide_eq_true_eq] using this.trans BitVec.getLsbD_zero
  · have := h k
    simp only [BitVec.getLsbD_and, BitVec.getLsbD_not, hk, decide_true, Bool.true_and, offered k hk]
    cases hx : x.getLsbD k <;> simp_all

theorem exec_verifyDone {s : State} (h : s.start.st = .verifying) : exec .verifyDone s = .next (match s.verify with
    | .error f => s.startTo .failed f
    | .ok fw => { s with start := { s.start with st := .awaitAccept, fail := 0, fw := some fw } }) := by
  change execVerifyDone s = _
  unfold execVerifyDone
  rw [if_pos h]
  cases s.verify <;> rfl

theorem exec_verifyDone_error {s : State} {f : Nat} (h : s.start.st = .verifying) (hv : s.verify = .error f) :
    Comes .verifyDone s fun t => t = { s with start := { s.start with st := .failed, fail := f, fw := s.start.fw } } :=
  ⟨_, exec_verifyDone h, by rw [hv]; rfl⟩

theorem exec_startGo {s : State} {v : Word} (hv : v.getLsbD 0 = true) (hs : s.start.st = .awaitAccept) :
    exec (.startGo v) s = .next (if featuresPass s.start.featAccept then s.startTo .running 0 else s.startTo .awaitAccept failFEATURE) := by
  change execStartGo v s = _
  simp [execStartGo, hv, hs]

/-- Settles O40: the checks of the image run in the order of R89, and each step of start is one equation. -/
theorem startTransitions : Obligations.StartTransitions := by
  intro s
  refine ⟨⟨_, rfl, by and_intros <;> rfl⟩, fun hs => ⟨_, rfl, if_pos hs⟩, fun v hs => ⟨_, if_pos hs, rfl⟩, fun hs => ?_, fun v hv hs => ?_⟩
  · refine ⟨fun hg => exec_verifyDone_error hs (verify_format fun h => hg h.1), fun hg hc => ⟨fun hr => ?_, fun hr hl => ?_,
      fun hr hl hv => ?_, fun hr hl hv => ?_⟩, fun _ hc => exec_verifyDone_error hs (verify_format fun h => hc h.2)⟩
    · exact exec_verifyDone_error hs (by rw [verify_good hg hc, hr]; rfl)
    · exact exec_verifyDone_error hs (by rw [verify_good hg hc, hr, hl]; rfl)
    · exact exec_verifyDone_error hs (by rw [verify_good hg hc, hr, hl, if_pos hv]; rfl)
    · exact ⟨_, exec_verifyDone hs, by rw [verify_good hg hc, hr, hl, if_neg (Nat.not_lt.mpr hv)]; rfl⟩
  · refine ⟨_, exec_startGo hv hs, fun hf => ?_, fun hf => ?_⟩
    · rw [if_pos ((featuresPass_iff _).mpr hf)]; rfl
    · rw [if_neg (mt (featuresPass_iff _).mp hf)]; rfl

end Sys2Proof.Claims
end

section
/-! Contexts, queues, packets and the rest by their numbers: what is found after an update, and the frames of the operations that end
a packet (R99, R106, R108). -/

namespace Sys2Proof.Machine

/-! ### Lists of numbered things -/

/-- A search that neither the new element nor any replaced one satisfies finds what it found. -/
theorem find_putBy_other {α : Type} {same p : α → Bool} {x : α} (hx : p x = false) (h : ∀ y, same y = true → p y = false) :
    ∀ l : List α, (putBy same x l).find? p = l.find? p
  | [] => by simp [putBy, hx]
  | y :: r => by
    unfold putBy
    split
    · next hy => simp [hx, h y hy]
    · simp [List.find?_cons, find_putBy_other hx h r]

/-- After a put under a number the element is found under it, and every other number finds what it found. -/
theorem find_putBy_num {α : Type} (num : α → Nat) (x : α) (l : List α) (n : Nat) :
    (putBy (fun y => num y == num x) x l).find? (fun y => num y == n) = if n = num x then some x else l.find? (fun y => num y == n) := by
  split
  · next h => subst h; exact find_putBy _ x (by simp) l
  · next h => exact find_putBy_other (by simpa using Ne.symm h) (fun y hy => by simp at hy ⊢; omega) l

theorem mem_putBy {α : Type} {same : α → Bool} {x y : α} : ∀ {l : List α}, y ∈ putBy same x l → y = x ∨ y ∈ l
  | [], h => by simpa [putBy] using h
  | z :: r, h => by
    unfold putBy at h
    split at h
    · simp only [List.mem_cons] at h ⊢; tauto
    · simp only [List.mem_cons] at h ⊢
      obtain rfl | h := h
      · exact .inr (.inl rfl)
      · exact (mem_putBy h).imp_right .inr

theorem mem_putBy_self {α : Type} (same : α → Bool) (x : α) : ∀ l : List α, x ∈ putBy same x l
  | [] => by simp [putBy]
  | y :: r => by
    unfold putBy
    split
    · exact List.mem_cons_self
    · exact List.mem_cons_of_mem _ (mem_putBy_self same x r)

/-- Elements that a put does not replace stand. -/
theorem mem_putBy_of_mem {α : Type} {same : α → Bool} {x y : α} (hy : same y = false) : ∀ {l : List α}, y ∈ l → y ∈ putBy same x l
  | z :: r, h => by
    unfold putBy
    split
    · next hz =>
      obtain rfl | h := List.mem_cons.mp h
      · simp [hy] at hz
      · exact List.mem_cons_of_mem _ h
    · obtain rfl | h := List.mem_cons.mp h
      · exact List.mem_cons_self
      · exact List.mem_cons_of_mem _ (mem_putBy_of_mem hy h)

/-- An element found by its number has the number and stands in the list. -/
theorem num_of_find {α : Type} {num : α → Nat} {l : List α} {n : Nat} {x : α} (h : l.find? (fun y => num y == n) = some x) :
    num x = n := by simpa using List.find?_some h

theorem num_of_ctx? {s : State} {n : Nat} {c : Ctx} (h : s.ctx? n = some c) : c.num = n := num_of_find h
theorem num_of_queue? {s : State} {n : Nat} {q : Queue} (h : s.queue? n = some q) : q.num = n := num_of_find h
theorem id_of_packet? {s : State} {n : Nat} {p : Packet} (h : s.packet? n = some p) : p.id = n := num_of_find h
theorem id_of_team? {s : State} {n : Nat} {t : Team} (h : s.team? n = some t) : t.id = n := num_of_find h
theorem id_of_launch? {s : State} {n : Nat} {l : Launch} (h : s.launch? n = some l) : l.id = n := num_of_find h

theorem ctxD_of_ctx? {s : State} {n : Nat} {c : Ctx} (h : s.ctx? n = some c) : s.ctxD n = c := by simp [State.ctxD, h]
theorem queueD_of_queue? {s : State} {n : Nat} {q : Queue} (h : s.queue? n = some q) : s.queueD n = q := by simp [State.queueD, h]
theorem launchD_of_launch? {s : State} {n : Nat} {l : Launch} (h : s.launch? n = some l) : s.launchD n = l := by simp [State.launchD, h]

theorem ctx?_setCtx (s : State) (c : Ctx) (n : Nat) : (s.setCtx c).ctx? n = if n = c.num then some c else s.ctx? n :=
  find_putBy_num Ctx.num c s.ctxs n
theorem queue?_setQueue (s : State) (q : Queue) (n : Nat) : (s.setQueue q).queue? n = if n = q.num then some q else s.queue? n :=
  find_putBy_num Queue.num q s.queues n
theorem packet?_setPacket (s : State) (p : Packet) (n : Nat) : (s.setPacket p).packet? n = if n = p.id then some p else s.packet? n :=
  find_putBy_num Packet.id p s.packets n
theorem launch?_setLaunch (s : State) (l : Launch) (n : Nat) : (s.setLaunch l).launch? n = if n = l.id then some l else s.launch? n :=
  find_putBy_num Launch.id l s.launches n

theorem ctx?_setCtx_self (s : State) {c : Ctx} {n : Nat} (h : c.num = n) : (s.setCtx c).ctx? n = some c :=
  (ctx?_setCtx ..).trans (if_pos h.symm)
theorem ctx?_setCtx_other (s : State) {c : Ctx} {n : Nat} (h : n ≠ c.num) : (s.setCtx c).ctx? n = s.ctx? n :=
  (ctx?_setCtx ..).trans (if_neg h)
theorem queue?_setQueue_self (s : State) {q : Queue} {n : Nat} (h : q.num = n) : (s.setQueue q).queue? n = some q :=
  (queue?_setQueue ..).trans (if_pos h.symm)
theorem queue?_setQueue_other (s : State) {q : Queue} {n : Nat} (h : n ≠ q.num) : (s.setQueue q).queue? n = s.queue? n :=
  (queue?_setQueue ..).trans (if_neg h)
theorem packet?_setPacket_self (s : State) {p : Packet} {n : Nat} (h : p.id = n) : (s.setPacket p).packet? n = some p :=
  (packet?_setPacket ..).trans (if_pos h.symm)
theorem packet?_setPacket_other (s : State) {p : Packet} {n : Nat} (h : n ≠ p.id) : (s.setPacket p).packet? n = s.packet? n :=
  (packet?_setPacket ..).trans (if_neg h)
theorem launch?_setLaunch_self (s : State) {l : Launch} {n : Nat} (h : l.id = n) : (s.setLaunch l).launch? n = some l :=
  (launch?_setLaunch ..).trans (if_pos h.symm)
theorem launch?_setLaunch_other (s : State) {l : Launch} {n : Nat} (h : n ≠ l.id) : (s.setLaunch l).launch? n = s.launch? n :=
  (launch?_setLaunch ..).trans (if_neg h)

/-- A mast is found under its number, with or without an entry of its own. -/
@[simp] theorem mast_num (s : State) (n : Nat) : (s.mast n).num = n := by
  unfold State.mast
  cases h : s.masts.find? (·.num == n) with
  | none => rfl
  | some m => exact num_of_find (num := Mast.num) h

theorem mast_setMast (s : State) (m : Mast) (n : Nat) : (s.setMast m).mast n = if n = m.num then m else s.mast n := by
  unfold State.mast State.setMast
  rw [find_putBy_num Mast.num]
  split <;> rfl

/-! ### Queues in error, packets that leave -/

theorem queueError_frame (s : State) (q cause : Nat) (index : Word) (pkt : Option Nat) (unread : Bool) :
    s.queueError q cause index pkt unread = { s with
      queues := (s.queueError q cause index pkt unread).queues, vectors := (s.queueError q cause index pkt unread).vectors } := by
  unfold State.queueError
  split
  · rfl
  · split <;> rfl

/-- A queue without an error takes one, and its vector is raised (R106). -/
theorem queueError_of_ok {s : State} {q : Nat} {x : Queue} (h : s.queue? q = some x) (hx : x.error = false) (cause : Nat) (index : Word)
    (pkt : Option Nat) (unread : Bool) : s.queueError q cause index pkt unread =
      (s.setQueue { x with error := true, cause := BitVec.ofNat 8 cause, errIndex := index, errPacket := pkt, errUnread := unread }).raise
        x.vector := by
  simp [State.queueError, h, hx]

theorem reapQueue_frame (s : State) (q : Nat) : s.reapQueue q = { s with queues := (s.reapQueue q).queues } := by
  unfold State.reapQueue
  split
  · rfl
  · split <;> rfl

/-- A queue that is not being destroyed stays. -/
theorem reapQueue_of_kept {s : State} {n : Nat} (h : ∀ q, s.queue? n = some q → q.destroyed = false) : s.reapQueue n = s := by
  unfold State.reapQueue
  split
  · rfl
  · next q hq => simp [h q hq]

theorem dropPacket_frame (s : State) (p : Packet) :
    s.dropPacket p = { s with packets := s.packets.filter (·.id != p.id), queues := (s.dropPacket p).queues } := by
  unfold State.dropPacket
  rw [reapQueue_frame]

theorem dropPacket_of_kept {s : State} {p : Packet} (h : ∀ q, s.queue? p.queue = some q → q.destroyed = false) :
    s.dropPacket p = { s with packets := s.packets.filter (·.id != p.id) } :=
  reapQueue_of_kept h

/-- A complete packet with INTR raises the vector of its queue (R108). -/
theorem completePacket_frame (s : State) (p : Packet) :
    s.completePacket p = { s with
      packets := s.packets.filter (·.id != p.id), queues := (s.completePacket p).queues, vectors := (s.completePacket p).vectors } := by
  unfold State.completePacket
  dsimp only
  split
  · split
    · rw [dropPacket_frame]; rfl
    · rw [dropPacket_frame]
  · rw [dropPacket_frame]

theorem failStarted_frame (s : State) (p : Packet) (cause : Nat) :
    s.failStarted p cause = { s with
      packets := s.packets.filter (·.id != p.id), queues := (s.failStarted p cause).queues, vectors := (s.failStarted p cause).vectors } := by
  unfold State.failStarted
  rw [dropPacket_frame, queueError_frame]

/-- Packet p has left its queue. -/
theorem not_mem_filter_id {l : List Packet} {p k : Nat} (h : k = p) : ∀ y ∈ l.filter (·.id != k), y.id ≠ p := by
  subst h
  intro y hy
  simpa using (List.mem_filter.mp hy).2

/-- A packet that fails as it runs puts its queue, not in error yet, in error. -/
theorem failStarted_of_ok {s : State} {p : Packet} {q : Queue} (h : s.queue? p.queue = some q) (he : q.error = false)
    (hd : q.destroyed = false) (cause : Nat) : s.failStarted p cause =
      let x : Queue := { q with error := true, cause := BitVec.ofNat 8 cause, errIndex := p.index, errPacket := none, errUnread := false }
      { (s.setQueue x).raise q.vector with packets := s.packets.filter (·.id != p.id) } := by
  unfold State.failStarted
  rw [queueError_of_ok h he]
  refine dropPacket_of_kept fun y hy => ?_
  have hy' := (queue?_setQueue s _ p.queue).symm.trans hy
  rw [if_pos (num_of_queue? h).symm] at hy'
  rw [← Option.some.inj hy']
  exact hd

/-! ### Handovers (R247, R248) -/

@[simp] theorem hand_hostWriteBack (s : State) (lo n q : Nat) : (s.hostWriteBack lo n).hand q = s.hand q := rfl

/-- Signature bits set one after the other. -/
theorem foldl_sigAll (b : Nat) : ∀ (l : List Nat) (s : State),
    l.foldl (fun (a : State) k => a.sigAll (b + k)) s = { s with wlog := (l.reverse.map fun k => (b + k, none)) ++ s.wlog }
  | [], _ => rfl
  | k :: r, s => by
    rw [List.foldl_cons, foldl_sigAll b r]
    simp [State.sigAll]

/-- What the pages of a handover change. -/
theorem handPage_frame (s : State) (l : Loc) (n : Nat) (d : Bool) : s.handPage l n d = { s with
    mem := (s.handPage l n d).mem, poison := (s.handPage l n d).poison, hostCache := (s.handPage l n d).hostCache
    l2 := (s.handPage l n d).l2, wlog := (s.handPage l n d).wlog } := by
  unfold State.handPage
  split
  · rfl
  · split
    · rw [foldl_sigAll]; rfl
    · rfl

theorem handPages_frame (c : Ctx) (d : Bool) : ∀ (n va : Nat) (s : State), (s.handPages c d n va).1 = { s with
    mem := (s.handPages c d n va).1.mem, poison := (s.handPages c d n va).1.poison, hostCache := (s.handPages c d n va).1.hostCache
    l2 := (s.handPages c d n va).1.l2, wlog := (s.handPages c d n va).1.wlog }
  | 0, _, _ => rfl
  | n + 1, va, s => by
    unfold State.handPages
    split
    · rfl
    · rw [handPages_frame c d n, handPage_frame]

/-! ### Host bytes written back (R247, R235) -/

/-- The cell of an address in a list of host bytes with distinct addresses after the marked ones are written. -/
theorem memGet_foldl_writeBack (p : HostByte → Bool) : ∀ (l : List HostByte) (m : List Host.Cell), Memory.wf m = true → (l.map (·.addr)).Nodup →
    (∀ x ∈ l, p x = true → memGet (l.foldl (fun m h => if p h then memPut h.addr h.val m else m) m) x.addr = x.val) ∧
    (∀ a, (∀ x ∈ l, x.addr = a → p x = false) → memGet (l.foldl (fun m h => if p h then memPut h.addr h.val m else m) m) a = memGet m a)
  | [], _, _, _ => ⟨by simp, fun _ _ => rfl⟩
  | h :: r, m, w, nd => by
    obtain ⟨hnot, nd⟩ := List.nodup_cons.mp nd
    have w' : Memory.wf (if p h then memPut h.addr h.val m else m) = true := by split <;> [exact memPut_wf _ _ w; exact w]
    obtain ⟨ih, ihOther⟩ := memGet_foldl_writeBack p r _ w' nd
    have hr : ∀ x ∈ r, x.addr = h.addr → p x = false := fun x hx he => absurd (List.mem_map.mpr ⟨x, hx, he⟩) hnot
    simp only [List.foldl_cons]
    refine ⟨fun x hx hp => ?_, fun a ha => ?_⟩
    · obtain rfl | hx := List.mem_cons.mp hx
      · rw [ihOther _ hr, if_pos hp, memGet_memPut _ w]
      · exact ih x hx hp
    · rw [ihOther a fun x hx => ha x (List.mem_cons_of_mem _ hx)]
      split
      · next hp => exact memGet_memPut_other (fun e => by simp [ha h List.mem_cons_self e.symm] at hp) _ m
      · rfl

end Sys2Proof.Machine
end

section
/-! WAKE and handovers (R98, R100, R247, R248). -/

namespace Sys2Proof.Claims

open Sys2Proof Sys2Proof.Machine

/-! ### WAKE -/

/-- A wake value in reach of W, within the ring or past it (R100). -/
theorem exec_wake {s : State} {q : Nat} {v : Word} {x : Queue} (hx : s.queue? q = some x) (hv : v ≠ x.w)
    (hd : (v - x.w).toNat < 2 ^ 31) : exec (.wake q v) s =
      .next (if (v - x.c).toNat ≤ 2 ^ x.size then s.setQueue { x with w := v } else s.queueError q eWAKE v none false) := by
  have h0 : (v - x.w).toNat ≠ 0 := fun h => hv (by bv_omega)
  change execWake q v s = _
  simp only [execWake, hx]
  rw [if_neg (by omega)]
  split <;> rfl

theorem wake_moves {s : State} {q : Nat} {v : Word} {x : Queue} (hx : s.queue? q = some x) (hv : v ≠ x.w)
    (hd : (v - x.w).toNat < 2 ^ 31) (hr : (v - x.c).toNat ≤ 2 ^ x.size) : Comes (.wake q v) s fun t =>
      t = { s with queues := t.queues } ∧ t.queue? q = some { x with w := v } ∧ ∀ n, n ≠ q → t.queue? n = s.queue? n := by
  have hq : x.num = q := num_of_queue? hx
  refine ⟨_, exec_wake hx hv hd, ?_⟩
  rw [if_pos hr]
  refine ⟨rfl, ?_, fun n hn => ?_⟩
  · exact queue?_setQueue_self s hq
  · exact queue?_setQueue_other s (by simpa [hq] using hn)

theorem wake_overruns {s : State} {q : Nat} {v : Word} {x : Queue} (hx : s.queue? q = some x) (he : x.error = false) (hv : v ≠ x.w)
    (hd : (v - x.w).toNat < 2 ^ 31) (hr : 2 ^ x.size < (v - x.c).toNat) : Comes (.wake q v) s fun t =>
      t = { s with queues := t.queues, vectors := s.vectors ++ [x.vector] } ∧
      t.queue? q = some { x with error := true, cause := 0x0A, errIndex := v, errPacket := none, errUnread := false } := by
  refine ⟨_, exec_wake hx hv hd, ?_⟩
  rw [if_neg (Nat.not_le.mpr hr), queueError_of_ok hx he]
  exact ⟨rfl, queue?_setQueue_self s (num_of_queue? hx :)⟩

/-! ### HO_GO -/

/-- A GO is one of the two device steps by its direction. -/
theorem exec_hoGo {s : State} {q : Nat} {v : Word} {i : Instr} (hi : (i = .hoGoToHost q v ∧ v.getLsbD 0 = false) ∨
    (i = .hoGoToDevice q v ∧ v.getLsbD 0 = true)) (hv : v.getLsbD 1 = true) : exec i s = .next (s.handGo q v) := by
  obtain ⟨rfl, h0⟩ | ⟨rfl, h0⟩ := hi
  · change execHoGoToHost q v s = _
    simp only [execHoGoToHost, hv, h0]; rfl
  · change execHoGoToDevice q v s = _
    simp only [execHoGoToDevice, hv, h0]; rfl

theorem hand_putHandCtl (s : State) (q : Nat) (v : Word) :
    (s.putHandCtl q v).hand q = { s.hand q with dir := v.getLsbD 0, err := (s.hand q).err && !v.getLsbD 3 } := hand_setHand ..

/-- A GO without a queue sets the direction alone. -/
theorem handGo_none {s : State} {q : Nat} (hq : s.queue? q = none) (v : Word) :
    s.handGo q v = s.setHand q { s.hand q with dir := v.getLsbD 0 } := by
  simp [State.handGo, hq]

/-- While BUSY a GO is no more than a write of the control word. -/
theorem handGo_busy {s : State} {q : Nat} (hq : (s.queue? q).isSome = true) (hb : (s.hand q).busy = true) (v : Word) :
    s.handGo q v = s.putHandCtl q v := by
  have hn : (s.queue? q).isNone = false := by simpa using hq
  unfold State.handGo
  simp only [hn, hand_putHandCtl, hb]
  rfl

/-- A range that is misaligned or empty ends at once with LIMIT. -/
theorem handGo_limit {s : State} {q : Nat} (hq : (s.queue? q).isSome = true) (hb : (s.hand q).busy = false)
    (h : (s.hand q).addr.toNat % 4096 ≠ 0 ∨ (s.hand q).bytes.toNat % 4096 ≠ 0 ∨ (s.hand q).bytes = 0) (v : Word) :
    s.handGo q v = (s.putHandCtl q v).setHand q { s.hand q with dir := v.getLsbD 0, err := true, cause := 0x04 } := by
  have hn : (s.queue? q).isNone = false := by simpa using hq
  unfold State.handGo
  simp only [hn, hand_putHandCtl, hb, if_pos h]
  rfl

/-- Otherwise the handover of the range begins. -/
theorem handGo_starts {s : State} {q : Nat} (hq : (s.queue? q).isSome = true) (hb : (s.hand q).busy = false)
    (ha : (s.hand q).addr.toNat % 4096 = 0) (hn : (s.hand q).bytes.toNat % 4096 = 0) (h0 : (s.hand q).bytes ≠ 0) (v : Word) :
    s.handGo q v = { (s.putHandCtl q v).setHand q { s.hand q with
        dir := v.getLsbD 0, err := (s.hand q).err && !v.getLsbD 3, busy := true } with
      nextId := s.nextId + 1
      handovers := s.handovers ++
        [⟨s.nextId, q, (s.queueD q).ctx, none, (s.hand q).addr.toNat, (s.hand q).bytes.toNat, v.getLsbD 0⟩] } := by
  have hs : (s.queue? q).isNone = false := by simpa using hq
  have hl : ¬((s.hand q).addr.toNat % 4096 ≠ 0 ∨ (s.hand q).bytes.toNat % 4096 ≠ 0 ∨ (s.hand q).bytes = 0) := by tauto
  unfold State.handGo
  simp only [hs, hand_putHandCtl, hb, if_neg hl]
  rfl

theorem kickSteps (s : State) (q : Nat) (v : Word) : KickSteps s q v := by
  refine ⟨fun x hx hv hd hr => wake_moves hx hv hd hr, fun x hx he hv hd hr => wake_overruns hx he hv hd hr,
    fun i hi hv hq hb ha hn h0 => ?_, fun i hi hv => ⟨fun hq hb h => ?_, fun hq hb => ?_, fun hq => ?_⟩⟩
  · refine ⟨_, (exec_hoGo hi hv).trans (congrArg _ (handGo_starts hq hb ha hn h0 v)), ?_, ?_, rfl, ⟨rfl, rfl, rfl⟩, rfl⟩
    · exact congrArg Handover.busy (hand_setHand ..)
    · exact congrArg Handover.dir (hand_setHand ..)
  · exact ⟨_, (exec_hoGo hi hv).trans (congrArg _ (handGo_limit hq hb h v)), rfl, hand_setHand ..⟩
  · exact ⟨_, (exec_hoGo hi hv).trans (congrArg _ (handGo_busy hq hb v)), rfl, hand_setHand ..⟩
  · exact ⟨_, (exec_hoGo hi hv).trans (congrArg _ (handGo_none hq v)), rfl, hand_setHand ..⟩

/-! ### HANDOVER_COMPLETE -/

/-- The state after the pages of a handover, which is no longer under way. -/
def handedOver (s : State) (h : HandoverRun) : State :=
  let t := (s.handPages (s.ctxD h.ctx) h.toDev (h.bytes / 4096) h.addr).1
  { t with handovers := t.handovers.filter (·.id != h.id) }

/-- All pages of a handover had a translation. -/
def handedAll (s : State) (h : HandoverRun) : Bool := (s.handPages (s.ctxD h.ctx) h.toDev (h.bytes / 4096) h.addr).2

/-- How a handover ends: with its packet, or in the registers of its queue. -/
def handoverEnds (s : State) (h : HandoverRun) : State :=
  let u := handedOver s h
  match h.packet with
  | some k => match u.packet? k with
    | some p => if handedAll s h then u.completePacket p else u.failStarted p eFAULT
    | none => u
  | none => u.setHand h.queue { u.hand h.queue with
      busy := false, err := !handedAll s h, cause := if handedAll s h then 0 else BitVec.ofNat 8 eFAULT }

theorem exec_handoverComplete {s : State} {id : Nat} {h : HandoverRun} (hh : s.handovers.find? (·.id == id) = some h) :
    exec (.handoverComplete id) s = .next (handoverEnds s h) := by
  have hid : h.id = id := num_of_find (num := HandoverRun.id) hh
  change execHandoverComplete id s = _
  subst hid
  unfold execHandoverComplete handoverEnds handedOver handedAll
  rw [hh]
  dsimp only
  generalize s.handPages (s.ctxD h.ctx) h.toDev (h.bytes / 4096) h.addr = r
  obtain ⟨t, ok⟩ := r
  cases h.packet with
  | none => rfl
  | some k =>
    dsimp only
    generalize State.packet? _ k = o
    cases o <;> cases ok <;> rfl

/-- What the end of a handover leaves of the state after its pages. -/
theorem handoverEnds_frame (s : State) (h : HandoverRun) : handoverEnds s h = { handedOver s h with
    packets := (handoverEnds s h).packets, queues := (handoverEnds s h).queues, vectors := (handoverEnds s h).vectors
    handregs := (handoverEnds s h).handregs } := by
  unfold handoverEnds
  dsimp only
  split
  · split
    · split
      · rw [completePacket_frame]
      · rw [failStarted_frame]
    · rfl
  · rfl

theorem handoverEnds_handovers (s : State) (h : HandoverRun) : ∀ x ∈ (handoverEnds s h).handovers, x.id ≠ h.id := by
  rw [handoverEnds_frame]
  intro x hx
  simpa using (List.mem_filter.mp hx).2

/-- A register handover ends in the registers of its queue. -/
theorem hand_handoverEnds {s : State} {h : HandoverRun} (hp : h.packet = none) : (handoverEnds s h).hand h.queue =
    { (handedOver s h).hand h.queue with
      busy := false, err := !handedAll s h, cause := if handedAll s h then 0 else BitVec.ofNat 8 eFAULT } := by
  simp only [handoverEnds, hp, hand_setHand]

/-- A range whose first page has no translation is left as it is. -/
theorem handPages_untranslated {s : State} {h : HandoverRun} {e : Nat} (hx : s.xlate (s.ctxD h.ctx) h.addr .rd = .error e)
    (hb : 4096 ≤ h.bytes) : s.handPages (s.ctxD h.ctx) h.toDev (h.bytes / 4096) h.addr = (s, false) := by
  obtain ⟨n, hn⟩ : ∃ n, h.bytes / 4096 = n + 1 := ⟨h.bytes / 4096 - 1, by omega⟩
  rw [hn, State.handPages, hx]

/-- A handover of one page. -/
theorem handPages_one {s : State} {h : HandoverRun} {loc : Loc} (hx : s.xlate (s.ctxD h.ctx) h.addr .rd = .ok loc)
    (hb : h.bytes = 4096) : s.handPages (s.ctxD h.ctx) h.toDev (h.bytes / 4096) h.addr = (s.handPage loc 4096 h.toDev, true) := by
  rw [hb, show 4096 / 4096 = 0 + 1 from rfl, State.handPages, hx]
  rfl

/-- What a handover that has done nothing leaves: its queue in error, or ERR and CAUSE in the registers (R247, R248). -/
theorem handover_untranslated {s : State} {h : HandoverRun} {e : Nat} (hx : s.xlate (s.ctxD h.ctx) h.addr .rd = .error e)
    (hb : 4096 ≤ h.bytes) :
    handedOver s h = { s with handovers := s.handovers.filter (·.id != h.id) } ∧ handedAll s h = false := by
  simp only [handedOver, handedAll, handPages_untranslated hx hb, true_and]

theorem handover_page {s : State} {h : HandoverRun} {loc : Loc} (hx : s.xlate (s.ctxD h.ctx) h.addr .rd = .ok loc) (hb : h.bytes = 4096) :
    handedOver s h = { s.handPage loc 4096 h.toDev with handovers := (s.handPage loc 4096 h.toDev).handovers.filter (·.id != h.id) } ∧
      handedAll s h = true := by
  simp only [handedOver, handedAll, handPages_one hx hb, true_and]

/-- The dirty bytes of a page of host memory are written back (TO_HOST). -/
theorem writeBack_page (s : State) (lo n : Nat) (w : Memory.wf s.mem = true) (nd : (s.hostCache.map (·.addr)).Nodup) :
    let inPage := fun a => lo ≤ a ∧ a < lo + n
    (∀ x ∈ s.hostCache, x.dirty = true → inPage x.addr → memGet (s.hostWriteBack lo n).mem x.addr = x.val) ∧
    (∀ a, (∀ x ∈ s.hostCache, x.addr = a → x.dirty = false ∨ ¬inPage a) → memGet (s.hostWriteBack lo n).mem a = memGet s.mem a) ∧
    (s.hostWriteBack lo n).hostCache.map (fun x => (x.addr, x.val)) = s.hostCache.map (fun x => (x.addr, x.val)) ∧
    ∀ x ∈ (s.hostWriteBack lo n).hostCache, inPage x.addr → x.dirty = false := by
  intro inPage
  obtain ⟨written, others⟩ := memGet_foldl_writeBack (fun h => h.dirty && (decide (lo ≤ h.addr) && decide (h.addr < lo + n)))
    s.hostCache s.mem w nd
  refine ⟨fun x hx hd hp => written x hx (by simp [hd, hp.1, hp.2]), fun a ha => others a fun x hx e => ?_, ?_, fun x hx hp => ?_⟩
  · subst e
    rw [← Bool.decide_and]
    rcases ha x hx rfl with hd | hp
    · simp [hd]
    · rw [decide_eq_false hp, Bool.and_false]
  · rw [State.hostWriteBack, List.map_map]
    refine List.map_congr_left fun x _ => ?_
    simp only [Function.comp]
    split <;> rfl
  · obtain ⟨y, -, rfl⟩ := List.mem_map.mp hx
    split at hp
    · next h => rw [if_pos h]
    · next h => simp [hp.1, hp.2] at h

/-- A page of host memory handed to the device: its lines are dropped and the signature bits of its blocks set. -/
theorem handPage_toDevice (s : State) (l : Loc) (hl : l.port = none) (hh : isHost l.pa = true) :
    s.handPage l 4096 true = { s.hostDrop l.pa 4096 with
      wlog := ((List.range 64).reverse.map fun k => (l.pa / 64 + k, none)) ++ s.wlog } := by
  simp only [State.handPage, hl, hh, Option.isSome_none, Bool.not_true, Bool.or_false, Bool.false_eq_true, if_false, if_true, foldl_sigAll]
  rfl

theorem handPage_toHost (s : State) (l : Loc) (hl : l.port = none) (hh : isHost l.pa = true) :
    s.handPage l 4096 false = s.hostWriteBack l.pa 4096 := by
  simp [State.handPage, hl, hh]

theorem handPage_elsewhere (s : State) (l : Loc) (d : Bool) (h : l.port.isSome = true ∨ isHost l.pa = false) : s.handPage l 4096 d = s := by
  have h' : (l.port.isSome || !isHost l.pa) = true := by simpa using h
  simp only [State.handPage, h', if_true]

theorem handoverStep (s : State) (id : Nat) : HandoverStep s id := by
  intro h hh
  have hid : h.id = id := num_of_find (num := HandoverRun.id) hh
  have ends {Q : State → Prop} (hq : Q (handoverEnds s h)) : Comes (.handoverComplete id) s Q := ⟨_, exec_handoverComplete hh, hq⟩
  refine ⟨ends ⟨hid ▸ handoverEnds_handovers s h, fun hp => ?_⟩, fun e hx hb => ⟨fun hp => ends ?_, fun k p q hp hk hq he hd => ends ?_⟩,
    fun loc hx hb => ⟨fun hp => ends ?_, fun hl => ends ?_, fun hl hh' ht w nd => ends ?_, fun hl hh' ht => ends ?_⟩⟩
  · rw [hand_handoverEnds hp]
  · obtain ⟨hover, hall⟩ := handover_untranslated hx hb
    rw [hand_handoverEnds hp, hall, handoverEnds_frame, hover]
    exact ⟨⟨rfl, rfl, rfl⟩, rfl, rfl⟩
  · obtain ⟨hover, hall⟩ := handover_untranslated hx hb
    have hf : handoverEnds s h = (handedOver s h).failStarted p eFAULT := by
      simp only [handoverEnds, hp, hover, show State.packet? { s with handovers := s.handovers.filter (·.id != h.id) } k = some p from hk, hall]
      rfl
    have hq' : (handedOver s h).queue? p.queue = some q := by rw [hover]; exact hq
    rw [hf, failStarted_of_ok hq' he hd, hover]
    exact ⟨⟨rfl, rfl, rfl⟩, not_mem_filter_id (id_of_packet? hk), rfl, queue?_setQueue_self _ (num_of_queue? hq :)⟩
  · rw [hand_handoverEnds hp, (handover_page hx hb).2]
    exact ⟨rfl, rfl⟩
  · rw [handoverEnds_frame, (handover_page hx hb).1, handPage_elsewhere s loc _ hl]
    exact ⟨⟨rfl, rfl, rfl⟩, rfl⟩
  · rw [handoverEnds_frame, (handover_page hx hb).1, ht, handPage_toHost s loc hl hh']
    exact writeBack_page s loc.pa 4096 w nd
  · rw [handoverEnds_frame, (handover_page hx hb).1, ht, handPage_toDevice s loc hl hh']
    refine ⟨rfl, fun x hx' hp => ?_, fun x hx' hp => ?_, fun k hk => ?_⟩
    · simpa [hp.1, hp.2] using (List.mem_filter.mp hx').2
    · exact List.mem_filter.mpr ⟨hx', by rw [← Bool.decide_and, decide_eq_false hp]; rfl⟩
    · exact List.mem_append_left _ (List.mem_map.mpr ⟨k, by simpa using hk, rfl⟩)

/-- Settles O44: a kick is one of the cases of R100 or R248, and a handover ends after its pages. -/
theorem kickAndHandover : Obligations.KickAndHandover :=
  ⟨kickSteps, handoverStep⟩

end Sys2Proof.Claims
end

section
/-! What an operation on memory changes: the memory side of the state (contexts' versions, masts' L1, cells, poison, stored forms, L2 and
its host bytes, the write log, peers) and nothing else. -/

namespace Sys2Proof.Machine

/-- Only the memory side of the state differs. -/
def MemoryOnly (s t : State) : Prop := t = { s with
  ctxs := t.ctxs, masts := t.masts, mem := t.mem, poison := t.poison, nsec := t.nsec, dirtyComp := t.dirtyComp
  hostCache := t.hostCache, l2 := t.l2, wlog := t.wlog, peers := t.peers }

namespace MemoryOnly

theorem refl (s : State) : MemoryOnly s s := rfl
theorem trans {s t u : State} (h : MemoryOnly s t) (k : MemoryOnly t u) : MemoryOnly s u := by
  unfold MemoryOnly at *
  rw [k, h]

theorem ite {s a b : State} {p : Prop} [Decidable p] (ha : MemoryOnly s a) (hb : MemoryOnly s b) : MemoryOnly s (if p then a else b) := by
  split <;> assumption

theorem foldl {α : Type} {f : State → α → State} (h : ∀ s x, MemoryOnly s (f s x)) : ∀ (l : List α) (s : State), MemoryOnly s (l.foldl f s)
  | [], s => refl s
  | x :: r, s => (h s x).trans (foldl h r (f s x))

variable {s t : State} (h : MemoryOnly s t)
include h

/-- Any function of the new state, by the frame. -/
theorem get {α : Type} (f : State → α) : f t = f { s with
    ctxs := t.ctxs, masts := t.masts, mem := t.mem, poison := t.poison, nsec := t.nsec, dirtyComp := t.dirtyComp
    hostCache := t.hostCache, l2 := t.l2, wlog := t.wlog, peers := t.peers } := congrArg f h

theorem start : t.start = s.start := h.get State.start
theorem ns : t.ns = s.ns := h.get State.ns
theorem cmd : t.cmd = s.cmd := h.get State.cmd
theorem queues : t.queues = s.queues := h.get State.queues
theorem packets : t.packets = s.packets := h.get State.packets
theorem handovers : t.handovers = s.handovers := h.get State.handovers
theorem vectors : t.vectors = s.vectors := h.get State.vectors
theorem launches : t.launches = s.launches := h.get State.launches
theorem teams : t.teams = s.teams := h.get State.teams
theorem asyncs : t.asyncs = s.asyncs := h.get State.asyncs
theorem running : t.running = s.running := h.get State.running
theorem streams : t.streams = s.streams := h.get State.streams
theorem nextId : t.nextId = s.nextId := h.get State.nextId
theorem queue? (n : Nat) : t.queue? n = s.queue? n := by simp only [State.queue?, h.queues]
theorem packet? (n : Nat) : t.packet? n = s.packet? n := by simp only [State.packet?, h.packets]
theorem launch? (n : Nat) : t.launch? n = s.launch? n := by simp only [State.launch?, h.launches]
theorem team? (n : Nat) : t.team? n = s.team? n := by simp only [State.team?, h.teams]

end MemoryOnly

theorem memoryOnly_setCtx (s : State) (c : Ctx) : MemoryOnly s (s.setCtx c) := rfl
theorem memoryOnly_setMast (s : State) (m : Mast) : MemoryOnly s (s.setMast m) := rfl
theorem memoryOnly_onMast (s : State) (m : Option Nat) (f : Mast → Mast) : MemoryOnly s (s.onMast m f) := by cases m <;> rfl
theorem memoryOnly_homeWrite (s : State) (pa : Nat) (b : Byte) (bad : Bool) : MemoryOnly s (s.homeWrite pa b bad) := by
  unfold State.homeWrite
  dsimp only
  split
  · rfl
  · split <;> rfl
theorem memoryOnly_hostFill (s : State) (pa : Nat) : MemoryOnly s (s.hostFill pa) := by
  unfold State.hostFill
  generalize List.range 32 = l
  split <;> rfl
theorem memoryOnly_hostWriteBack (s : State) (lo n : Nat) : MemoryOnly s (s.hostWriteBack lo n) := rfl
theorem memoryOnly_hostDrop (s : State) (lo n : Nat) : MemoryOnly s (s.hostDrop lo n) := rfl
theorem memoryOnly_hostPurge (s : State) (pa : Nat) : MemoryOnly s (s.hostPurge pa) := rfl
theorem memoryOnly_systemRelease (s : State) : MemoryOnly s s.systemRelease := rfl
theorem memoryOnly_l2Touch (s : State) (ctx pa : Nat) : MemoryOnly s (s.l2Touch ctx pa) := rfl
theorem memoryOnly_l2Read (s : State) (ctx pa : Nat) : MemoryOnly s (s.l2Read ctx pa) :=
  .trans (.ite (.refl _) (memoryOnly_l2Touch ..)) (memoryOnly_hostFill ..)
theorem memoryOnly_logWrite (s : State) (pa : Nat) (m : Option Nat) : MemoryOnly s (s.logWrite pa m) := rfl
theorem memoryOnly_sigAll (s : State) (b : Nat) : MemoryOnly s (s.sigAll b) := rfl
theorem memoryOnly_peerWrite (s : State) (port pa : Nat) (b : Byte) (bad : Bool) : MemoryOnly s (s.peerWrite port pa b bad) := by
  unfold State.peerWrite
  dsimp only
  split <;> rfl

theorem memoryOnly_openBlock (s : State) (pa : Nat) : MemoryOnly s (s.openBlock pa) := by
  unfold State.openBlock
  generalize List.range 256 = l
  dsimp only
  split
  · exact (MemoryOnly.foldl (f := fun (a : State) i => a.homeWrite (pa / 256 * 256 + i) ((s.decodedBlock pa).1.getD i (0, true)).1
      ((s.decodedBlock pa).1.getD i (0, true)).2) (fun _ _ => memoryOnly_homeWrite ..) l s).trans rfl
  · rfl

theorem memoryOnly_leafWrite (s : State) (pa : Nat) (comp : Bool) (b : Byte) (bad : Bool) : MemoryOnly s (s.leafWrite pa comp b bad) :=
  .trans (.ite (memoryOnly_openBlock ..) (.refl _)) (memoryOnly_homeWrite ..)

theorem memoryOnly_writeByte (s : State) (w : Writer) (l : Loc) (b : Byte) (bad : Bool) : MemoryOnly s (s.writeByte w l b bad) := by
  unfold State.writeByte
  split
  · exact memoryOnly_peerWrite ..
  · refine .ite (.refl _) (.ite (.ite (.refl _) ?_) ?_)
    · have hm : MemoryOnly s { s with ctxs := s.ctxs.map fun x => x.maskVersions 0 l.pa } := rfl
      exact (((hm.trans (memoryOnly_leafWrite ..)).trans (memoryOnly_onMast ..)).trans (memoryOnly_l2Touch ..)).trans
        (memoryOnly_logWrite ..)
    · exact ((memoryOnly_setCtx ..).trans (memoryOnly_onMast ..)).trans (memoryOnly_logWrite ..)

theorem memoryOnly_writeBytes (w : Writer) : ∀ (bs : List (Byte × Bool)) (s : State) (l : Loc), MemoryOnly s (s.writeBytes w l bs)
  | [], _, _ => rfl
  | (b, p) :: r, s, l => (memoryOnly_writeByte s w l b p).trans (memoryOnly_writeBytes w r _ _)

theorem memoryOnly_writeSegs (w : Writer) : ∀ (ls : List (Loc × Nat)) (bs : List (Byte × Bool)) (s : State),
    MemoryOnly s (s.writeSegs w ls bs)
  | [], _, _ => rfl
  | (l, n) :: r, bs, s => (memoryOnly_writeBytes w (bs.take n) s l).trans (memoryOnly_writeSegs w r (bs.drop n) _)

theorem memoryOnly_writePhys (s : State) (pa : Nat) (bs : List Byte) : MemoryOnly s (s.writePhys pa bs) := memoryOnly_writeBytes ..

theorem memoryOnly_writeRoot {s t : State} {c : Ctx} {va : Nat} {bs : List Byte} (h : s.writeRoot c va bs = some t) : MemoryOnly s t := by
  unfold State.writeRoot at h
  split at h
  · cases h
  · cases h; exact memoryOnly_writeSegs ..

theorem memoryOnly_homeViewByte (s : State) (c : Ctx) (h : Nat) (l : Loc) : MemoryOnly s (s.homeViewByte c h l).1 := by
  unfold State.homeViewByte
  split
  · rfl
  · exact memoryOnly_l2Read ..

theorem memoryOnly_homeBytes (c : Ctx) (h : Nat) : ∀ (n : Nat) (s : State) (l : Loc), MemoryOnly s (s.homeBytes c h l n).1
  | 0, _, _ => rfl
  | n + 1, s, l => (memoryOnly_homeViewByte s c h l).trans (memoryOnly_homeBytes c h n _ _)

theorem memoryOnly_homeSegs (c : Ctx) (h : Nat) : ∀ (ls : List (Loc × Nat)) (s : State), MemoryOnly s (s.homeSegs c h ls).1
  | [], _ => rfl
  | (l, n) :: r, s => (memoryOnly_homeBytes c h n s l).trans (memoryOnly_homeSegs c h r _)

theorem memoryOnly_readRoot (s : State) (c : Ctx) (va n : Nat) : MemoryOnly s (s.readRoot c va n).1 := by
  unfold State.readRoot
  split
  · rfl
  · exact memoryOnly_homeSegs ..

theorem memoryOnly_hostDirect (w : Writer) : ∀ (bs : List (Byte × Bool)) (s : State) (pa : Nat), MemoryOnly s (s.hostDirect w pa bs)
  | [], _, _ => rfl
  | (b, bad) :: r, s, pa => by
    have hb : MemoryOnly s (State.logWrite { s with
      mem := memPut pa b s.mem, poison := if bad then nsInsert pa s.poison else s.poison.filter (· != pa) } pa w.mast) := rfl
    exact hb.trans (memoryOnly_hostDirect w r _ _)

theorem memoryOnly_rmw (s : State) (c : Ctx) (w : Writer) (l : Loc) (n scope : Nat) (exch : Bool) (f : Nat → Option Nat) :
    MemoryOnly s (s.rmw c w l n scope exch f).1 := by
  unfold State.rmw
  dsimp only
  refine MemoryOnly.trans ?_ (memoryOnly_onMast ..)
  refine MemoryOnly.trans (t := if (scope == 3 && l.port.isNone && isHost l.pa) = true then s.hostPurge l.pa
    else if l.port.isNone = true then s.l2Read w.ctx l.pa else s)
    (.ite (memoryOnly_hostPurge ..) (.ite (memoryOnly_l2Read ..) (.refl _))) ?_
  generalize f _ = o
  cases o with
  | none => exact .refl _
  | some x => exact .ite (memoryOnly_hostDirect ..) (memoryOnly_writeBytes ..)

theorem memoryOnly_mergeAt (s : State) (ctx : Nat) (mast : Option Nat) (l : Loc) (op ty scope v : Nat) :
    MemoryOnly s (s.mergeAt ctx mast l op ty scope v) := memoryOnly_rmw ..

theorem memoryOnly_mergeEntries (mast : Nat) : ∀ (es : List Stage0) (s : State), MemoryOnly s (s.mergeEntries mast es)
  | [], _ => rfl
  | _ :: r, _ => (memoryOnly_mergeAt ..).trans (memoryOnly_mergeEntries mast r _)

theorem memoryOnly_flushWhere (s : State) (mast : Nat) (p : Stage0 → Bool) (order : List Nat) : MemoryOnly s (s.flushWhere mast p order) := by
  unfold State.flushWhere
  dsimp only
  split
  · exact .refl _
  · exact (memoryOnly_setMast ..).trans (memoryOnly_mergeEntries ..)

/-! ### A write in the root view (R336) -/

/-- The root hypothesis is its own resolution and no orphan. -/
theorem resolveHyp_zero (hs : List (Nat × HypEntry)) : resolveHyp hs 0 = 0 := rfl
theorem isOrphan_zero (hs : List (Nat × HypEntry)) : isOrphan hs 0 = false := by
  unfold isOrphan
  rw [resolveHyp_zero]
  rfl

/-- A byte written by an agent to a page without COMP of an address that exists goes to its home. -/
theorem writeByte_root (s : State) {w : Writer} (hw : w.hyp = 0) (hm : w.mast = none) {pa : Nat} (hr : isReserved pa = false)
    (b : Byte) (bad : Bool) : s.writeByte w ⟨pa, false, none⟩ b bad =
      ((State.homeWrite { s with ctxs := s.ctxs.map fun x => x.maskVersions 0 pa } pa b bad).l2Touch w.ctx pa).logWrite pa none := by
  unfold State.writeByte
  simp only [hw, isOrphan_zero, resolveHyp_zero, hr, hm]
  rfl

@[simp] theorem homeByte_l2Touch (s : State) (ctx pa a : Nat) : (s.l2Touch ctx pa).homeByte a = s.homeByte a := rfl
@[simp] theorem homeByte_logWrite (s : State) (pa : Nat) (m : Option Nat) (a : Nat) : (s.logWrite pa m).homeByte a = s.homeByte a := rfl
theorem homeByte_ctxs (s : State) (cs : List Ctx) (a : Nat) : State.homeByte { s with ctxs := cs } a = s.homeByte a := rfl

theorem homeByte_writeByte_same (s : State) {w : Writer} (hw : w.hyp = 0) (hm : w.mast = none) {pa : Nat} (hr : isReserved pa = false)
    (b : Byte) (bad : Bool) (wf : Memory.wf s.mem = true) : (s.writeByte w ⟨pa, false, none⟩ b bad).homeByte pa = (b, bad) := by
  rw [writeByte_root s hw hm hr, homeByte_logWrite, homeByte_l2Touch]
  exact homeByte_homeWrite_same _ b bad wf hr

theorem homeByte_writeByte_other (s : State) {w : Writer} (hw : w.hyp = 0) (hm : w.mast = none) {pa a : Nat} (hr : isReserved pa = false)
    (b : Byte) (bad : Bool) (ha : a ≠ pa) : (s.writeByte w ⟨pa, false, none⟩ b bad).homeByte a = s.homeByte a := by
  rw [writeByte_root s hw hm hr, homeByte_logWrite, homeByte_l2Touch, homeByte_homeWrite_other _ ha]
  rfl

/-- Bytes written by an agent to pages without COMP in the root view stand at their homes, and no other byte changes. -/
theorem homeByte_writeBytes {w : Writer} (hw : w.hyp = 0) (hm : w.mast = none) : ∀ (bs : List (Byte × Bool)) (s : State) (pa : Nat),
    Memory.wf s.mem = true → (∀ k, k < bs.length → isReserved (pa + k) = false) →
    (∀ k x, bs[k]? = some x → (s.writeBytes w ⟨pa, false, none⟩ bs).homeByte (pa + k) = x) ∧
    ∀ a, a < pa ∨ pa + bs.length ≤ a → (s.writeBytes w ⟨pa, false, none⟩ bs).homeByte a = s.homeByte a
  | [], _, _, _, _ => ⟨by simp, fun _ _ => rfl⟩
  | (b, p) :: r, s, pa, wf, hr => by
    have h0 : isReserved pa = false := hr 0 (by simp)
    obtain ⟨ih, ihOther⟩ := homeByte_writeBytes hw hm r (s.writeByte w ⟨pa, false, none⟩ b p) (pa + 1) (writeByte_wf _ _ _ _ _ wf)
      fun k hk => by rw [Nat.add_assoc, Nat.add_comm 1]; exact hr (k + 1) (by simpa using hk)
    simp only [State.writeBytes, List.length_cons]
    refine ⟨fun k x hx => ?_, fun a ha => ?_⟩
    · cases k with
      | zero =>
        simp only [Nat.add_zero]
        rw [ihOther pa (by omega), homeByte_writeByte_same s hw hm h0 b p wf]
        simpa using hx
      | succ k =>
        rw [← ih k x (by simpa using hx), Nat.add_assoc, Nat.add_comm 1]
    · rw [ihOther a (by omega), homeByte_writeByte_other s hw hm h0 b p (by omega)]

/-- Bytes that the device itself writes at a physical address (R91, R363). -/
theorem homeByte_writePhys {s : State} {pa : Nat} {bs : List Byte} (wf : Memory.wf s.mem = true)
    (hr : ∀ k, k < bs.length → isReserved (pa + k) = false) :
    (∀ k x, bs[k]? = some x → (s.writePhys pa bs).homeByte (pa + k) = (x, false)) ∧
    ∀ a, a < pa ∨ pa + bs.length ≤ a → (s.writePhys pa bs).homeByte a = s.homeByte a := by
  obtain ⟨written, others⟩ := homeByte_writeBytes (w := agentOf 16) rfl rfl (bs.map fun x => (x, false)) s pa wf (by simpa using hr)
  exact ⟨fun k x hx => written k (x, false) (by simp [hx]), fun a ha => others a (by simpa using ha)⟩

end Sys2Proof.Machine
end

section
/-! ATTEST (R91): the report field by field, and what its write leaves. -/

namespace Sys2Proof.Claims

open Sys2Proof Sys2Proof.Machine

/-- A command that the device can take runs on its block (R94). -/
theorem command_ready {s : State} {lo : Word} {op : Nat} {b : CmdBlock} (h : CommandReady s lo op b) {mine : Nat → Bool} (hm : mine op = true)
    (f : CmdBlock → State) : s.command lo mine f = f b := by
  obtain ⟨hs, hb, hblk, rfl⟩ := h
  simp [State.command, hs, hb, hblk, hm]

/-- A state whose command has ended with a result. -/
theorem ended_result (s : State) (r : Nat) : Ended (s.result r) r := ⟨rfl, rfl⟩

/-- A list made n bytes long. -/
def fitted (n : Nat) (l : List Byte) : List Byte := (l ++ List.replicate n 0).take n

@[simp] theorem fitted_length (n : Nat) (l : List Byte) : (fitted n l).length = n := by simp [fitted]
theorem fitted_getElem? {n k : Nat} (l : List Byte) (h : k < n) : (fitted n l)[k]? = some (l.getD k 0) := by
  rw [fitted, List.getElem?_take_of_lt h]
  by_cases hk : k < l.length
  · simp [List.getElem?_append_left hk, hk]
  · rw [List.getElem?_append_right (by omega)]
    rw [List.getElem?_replicate, if_pos (by omega), List.getD_eq_default _ _ (Nat.not_lt.mp hk)]

/-- The bytes of a report before its signature. -/
def reportBody (s : State) (nonce : List Byte) : List Byte :=
  let fw := s.start.fw.getD ⟨0, [], [], []⟩
  natLE 0x54525441 4 ++ (natLE fw.version 4 ++ (fitted 16 Config.fuseDeviceId ++ (fitted 48 fw.digest ++ (fitted 32 nonce ++
    (natLE s.start.featAccept.toNat 32 ++ (fitted 384 fw.rsaSig ++ fitted 16224 fw.slhSig))))))

theorem report_eq (s : State) (nonce : List Byte) :
    s.report nonce = reportBody s nonce ++ fitted 96 (Config.deviceSign (reportBody s nonce)) := by
  simp only [State.report, reportBody, fitted, List.append_assoc]

@[simp] theorem reportBody_length (s : State) (nonce : List Byte) : (reportBody s nonce).length = 0x4168 := by simp [reportBody]
@[simp] theorem report_length (s : State) (nonce : List Byte) : (s.report nonce).length = 0x41C8 := by simp [report_eq]

/-- A byte of the second part of a list. -/
theorem getElem?_append_at {l r : List Byte} {n k : Nat} (h : l.length = n) : (l ++ r)[n + k]? = r[k]? := by
  rw [List.getElem?_append_right (by omega), ← h, Nat.add_sub_cancel_left]

/-- Every field of R91 stands in the body at its offset. -/
theorem reportBody_fields {s : State} {fw : Firmware} (hf : s.start.fw = some fw) (nonce : List Byte) :
    ∀ f ∈ reportFields s fw nonce, ∀ k, k < f.2.1 → (reportBody s nonce)[f.1 + k]? = some (f.2.2 k) := by
  simp only [reportFields, List.forall_mem_cons, reportBody, hf, Option.getD_some]
  refine ⟨?magic, ?version, ?device, ?digest, ?nonce, ?features, ?rsa, ?slh, by simp⟩ <;> intro k hk
  case magic => rw [List.getElem?_append_left (by simpa using hk), Nat.zero_add, natLE_getElem? _ _ _ hk]
  case version =>
    rw [getElem?_append_at (natLE_length ..), List.getElem?_append_left (by simpa using hk), natLE_getElem? _ _ _ hk]
  case device =>
    rw [show 0x8 + k = 4 + (4 + k) by omega, getElem?_append_at (natLE_length ..), getElem?_append_at (natLE_length ..),
      List.getElem?_append_left (by simpa using hk), fitted_getElem? _ hk]
  case digest =>
    rw [show 0x18 + k = 4 + (4 + (16 + k)) by omega, getElem?_append_at (natLE_length ..), getElem?_append_at (natLE_length ..),
      getElem?_append_at (fitted_length ..), List.getElem?_append_left (by simpa using hk), fitted_getElem? _ hk]
  case nonce =>
    rw [show 0x48 + k = 4 + (4 + (16 + (48 + k))) by omega, getElem?_append_at (natLE_length ..), getElem?_append_at (natLE_length ..),
      getElem?_append_at (fitted_length ..), getElem?_append_at (fitted_length ..), List.getElem?_append_left (by simpa using hk),
      fitted_getElem? _ hk]
  case features =>
    rw [show 0x68 + k = 4 + (4 + (16 + (48 + (32 + k)))) by omega, getElem?_append_at (natLE_length ..), getElem?_append_at (natLE_length ..),
      getElem?_append_at (fitted_length ..), getElem?_append_at (fitted_length ..), getElem?_append_at (fitted_length ..),
      List.getElem?_append_left (by simpa using hk), natLE_getElem? _ _ _ hk]
  case rsa =>
    rw [show 0x88 + k = 4 + (4 + (16 + (48 + (32 + (32 + k))))) by omega, getElem?_append_at (natLE_length ..),
      getElem?_append_at (natLE_length ..), getElem?_append_at (fitted_length ..), getElem?_append_at (fitted_length ..),
      getElem?_append_at (fitted_length ..), getElem?_append_at (natLE_length ..), List.getElem?_append_left (by simpa using hk),
      fitted_getElem? _ hk]
  case slh =>
    rw [show 0x208 + k = 4 + (4 + (16 + (48 + (32 + (32 + (384 + k)))))) by omega, getElem?_append_at (natLE_length ..),
      getElem?_append_at (natLE_length ..), getElem?_append_at (fitted_length ..), getElem?_append_at (fitted_length ..),
      getElem?_append_at (fitted_length ..), getElem?_append_at (natLE_length ..), getElem?_append_at (fitted_length ..),
      fitted_getElem? _ hk]

/-- ATTEST writes the report where the block says. -/
theorem exec_attest {s : State} {lo : Word} {b : CmdBlock} (h : CommandReady s lo 7 b) (ha : b.addr % 64 = 0)
    (hr : ∀ k, k < 0x41C8 → isReserved (b.addr + k) = false) :
    exec (.attest lo) s = .next ((s.writePhys b.addr (s.report b.nonce)).result rOK) := by
  have hn : ¬(b.addr % 64 ≠ 0 ∨ ((List.range (s.report b.nonce).length).any fun i => isReserved (b.addr + i)) = true) := by
    rw [report_length]
    rintro (h | h)
    · exact h ha
    · obtain ⟨k, hk, hb⟩ := List.any_eq_true.mp h
      rw [hr k (List.mem_range.mp hk)] at hb
      exact Bool.noConfusion hb
  change execAttest lo s = _
  rw [execAttest, command_ready h rfl]
  dsimp only
  rw [if_neg hn]

theorem homeByte_result (s : State) (r a : Nat) : (s.result r).homeByte a = s.homeByte a := rfl

/-- Settles O43: the report is written byte by byte at its home, and no other byte is. -/
theorem attestWritesReport : Obligations.AttestWritesReport := by
  intro s lo b fw wf h hf ha hr
  have body {k : Nat} (hk : k < 0x4168) : (s.report b.nonce)[k]? = (reportBody s b.nonce)[k]? := by
    rw [report_eq, List.getElem?_append_left (by simpa using hk)]
  have hsig {k : Nat} (hk : k < 96) :
      (s.report b.nonce)[0x4168 + k]? = some ((Config.deviceSign (reportBody s b.nonce)).getD k 0) := by
    rw [report_eq, getElem?_append_at (reportBody_length ..), fitted_getElem? _ hk]
  have hlen := report_length s b.nonce
  refine ⟨_, exec_attest h ha hr, ended_result .., ?_⟩
  generalize s.report b.nonce = r at *
  obtain ⟨written, others⟩ := homeByte_writePhys wf (pa := b.addr) (bs := r) (by rwa [hlen])
  have hsigned : ((List.range 0x4168).map fun j => ((s.writePhys b.addr r).homeByte (b.addr + j)).1) = reportBody s b.nonce := by
    refine List.ext_getElem (by rw [List.length_map, List.length_range, reportBody_length]) fun k hk hk' => ?_
    rw [List.getElem_map, List.getElem_range,
      written k _ ((body (by rwa [reportBody_length] at hk')).trans (List.getElem?_eq_getElem hk'))]
  simp only [homeByte_result, hsigned]
  refine ⟨fun f hfm k hk => ?_, fun k hk => ?_, fun x hx => others x (by rwa [hlen])⟩
  · have hfield := reportBody_fields hf b.nonce f hfm k hk
    have hlt := (List.getElem?_eq_some_iff.mp hfield).1
    rw [Nat.add_assoc, written _ _ ((body (by rwa [reportBody_length] at hlt)).trans hfield)]
  · rw [Nat.add_assoc, written _ _ (hsig hk)]

end Sys2Proof.Claims
end

section
/-! Queue commands (R94, R97, R99, R111, R112). -/

namespace Sys2Proof.Claims

open Sys2Proof Sys2Proof.Machine

theorem queue?_result (s : State) (r n : Nat) : (s.result r).queue? n = s.queue? n := rfl

/-- QUEUE_CREATE of a queue that keeps its limits and the floors (R97, R112). -/
theorem exec_queueCreate {s : State} {lo : Word} {b : CmdBlock} {d : List Byte} (h : CommandReady s lo 3 b) (hn : b.num < 1024)
    (hq : s.queue? b.num = none) (hd : s.readPhys b.addr 32 = some d) (hok : s.queueDescOk d = true)
    (hfit : fieldLE d 9 1 = 0 → ∀ m ∈ coreMasts (s.ctxD (fieldLE d 0x0A 1)).coreSet,
      s.frameFits (queueOfDesc b.num d :: s.queues) (s.floors.getD 0 0) m = true) :
    exec (.queueCreate lo) s = .next ((s.setQueue (queueOfDesc b.num d)).result rOK) := by
  have hlim : ¬queueLimit ≤ b.num := Nat.not_le.mpr hn
  have hroom : ((queueOfDesc b.num d).cls == 0 && !((coreMasts (s.ctxD (queueOfDesc b.num d).ctx).coreSet).all fun m =>
      s.frameFits (queueOfDesc b.num d :: s.queues) (s.floors.getD 0 0) m)) = false := by
    by_cases hc : fieldLE d 9 1 = 0
    · rw [Bool.and_eq_false_iff, Bool.not_eq_false']
      exact .inr (List.all_eq_true.mpr (hfit hc))
    · rw [show (queueOfDesc b.num d).cls = fieldLE d 9 1 from rfl, beq_false_of_ne hc, Bool.false_and]
  change execQueueCreate lo s = _
  rw [execQueueCreate, command_ready h rfl]
  simp only [if_neg hlim, hq, hd, hok, hroom, Option.isSome_none, Bool.not_true, Bool.false_eq_true, if_false]

theorem queueCreate_creates {s : State} {lo : Word} {b : CmdBlock} {d : List Byte} (h : CommandReady s lo 3 b) (hn : b.num < 1024)
    (hq : s.queue? b.num = none) (hd : s.readPhys b.addr 32 = some d) (hok : s.queueDescOk d = true)
    (hfit : fieldLE d 9 1 = 0 → ∀ m ∈ coreMasts (s.ctxD (fieldLE d 0x0A 1)).coreSet,
      s.frameFits (queueOfDesc b.num d :: s.queues) (s.floors.getD 0 0) m = true) : Comes (.queueCreate lo) s fun t =>
      Ended t 0 ∧ (∃ q, t.queue? b.num = some q ∧ q.ring = fieldLE d 0 8 ∧ q.size = fieldLE d 8 1 ∧ q.cls = fieldLE d 9 1 ∧
        q.ctx = fieldLE d 0x0A 1 ∧ q.vector = fieldLE d 0x0B 1 ∧ q.consumedAddr = fieldLE d 0x10 8 ∧ q.w = 0 ∧ q.c = 0 ∧
        q.error = false) ∧ (∀ n, n ≠ b.num → t.queue? n = s.queue? n) ∧ SameMemory s t := by
  refine ⟨_, exec_queueCreate h hn hq hd hok hfit, ended_result .., ⟨queueOfDesc b.num d, ?_, by and_intros <;> rfl⟩, fun n hne => ?_,
    rfl, rfl, rfl⟩
  · exact queue?_setQueue_self _ rfl
  · exact queue?_setQueue_other _ hne

/-- QUEUE_DESTROY marks the queue, drops what has been read of it, and takes the queue away when nothing of it is left (R97). -/
theorem exec_queueDestroy {s : State} {lo : Word} {b : CmdBlock} {q : Queue} (h : CommandReady s lo 4 b) (hq : s.queue? b.num = some q) :
    exec (.queueDestroy lo) s = .next ((State.reapQueue { s.setQueue { q with destroyed := true } with
      packets := s.packets.filter fun p => !(p.queue == b.num && p.parent.isNone && p.st == .read) } b.num).result rOK) := by
  change execQueueDestroy lo s = _
  rw [execQueueDestroy, command_ready h rfl, hq]
  rfl

/-- A queue that reaping leaves is the queue that was there. -/
theorem queue?_reapQueue {s : State} {n : Nat} {q : Queue} (h : (s.reapQueue n).queue? n = some q) : s.queue? n = some q := by
  unfold State.reapQueue at h
  split at h
  · exact h
  · split at h
    · have hm := List.mem_of_find?_eq_some h
      have hn : q.num = n := num_of_queue? h
      simp [hn] at hm
    · exact h

theorem queueDestroy_drops {s : State} {lo : Word} {b : CmdBlock} (h : CommandReady s lo 4 b) (hq : (s.queue? b.num).isSome = true) :
    Comes (.queueDestroy lo) s fun t => Ended t 0 ∧ (∀ q, t.queue? b.num = some q → q.destroyed = true) ∧ SameMemory s t ∧
      ∀ p ∈ t.packets, p.queue = b.num → p.parent = none → p.st ≠ .read := by
  obtain ⟨q, hq⟩ := Option.isSome_iff_exists.mp hq
  refine ⟨_, exec_queueDestroy h hq, ended_result .., fun x hx => ?_, ?_, ?_⟩
  · have hx' := queue?_reapQueue ((queue?_result ..).symm.trans hx)
    have hs := (queue?_setQueue_self s (q := { q with destroyed := true }) (num_of_queue? hq :)).symm.trans hx'
    rw [← Option.some.inj hs]
  · rw [reapQueue_frame]
    exact ⟨rfl, rfl, rfl⟩
  · rw [reapQueue_frame]
    intro p hp hpq hpp hst
    simpa [hpq, hpp, hst] using (List.mem_filter.mp hp).2

/-- A queue in error as QUEUE_RESUME leaves it (R99). -/
def resumed (q : Queue) (b : CmdBlock) : Queue :=
  { q with error := false, errPacket := none, errUnread := false, c := if q.errUnread && b.addr % 2 == 1 then q.c + 1 else q.c }

/-- The packet named by a queue's error after a resume: skipped, or read again. -/
def resumePacket (s : State) (q : Queue) (skip : Bool) : State :=
  match q.errPacket.bind s.packet? with
  | none => s
  | some p => if skip then s.dropPacket p else s.rereadPacket q p

theorem exec_queueResume {s : State} {lo : Word} {b : CmdBlock} {q : Queue} (h : CommandReady s lo 5 b) (hq : s.queue? b.num = some q)
    (he : q.error = true) : exec (.queueResume lo) s = .next ((match q.errPacket.bind (s.setQueue (resumed q b)).packet? with
      | none => s.setQueue (resumed q b)
      | some p => if b.addr % 2 == 1 then (s.setQueue (resumed q b)).dropPacket p
        else (s.setQueue (resumed q b)).rereadPacket (resumed q b) p).result rOK) := by
  change execQueueResume lo s = _
  rw [execQueueResume, command_ready h rfl, hq]
  simp only [he, Bool.not_true, Bool.false_eq_true, if_false]
  rfl

theorem queue?_setQueue_resumed {s : State} {b : CmdBlock} {q : Queue} (hq : s.queue? b.num = some q) :
    (s.setQueue (resumed q b)).queue? b.num = some (resumed q b) :=
  queue?_setQueue_self s (q := resumed q b) (num_of_queue? hq :)

theorem queueResume_plain {s : State} {lo : Word} {b : CmdBlock} {q : Queue} (h : CommandReady s lo 5 b) (hq : s.queue? b.num = some q)
    (he : q.error = true) (hp : q.errPacket = none) : Comes (.queueResume lo) s fun t => Ended t 0 ∧ t.queue? b.num = some { q with
      error := false
      errUnread := false
      c := if q.errUnread = true ∧ b.addr % 2 = 1 then q.c + 1 else q.c } ∧ SameMemory s t := by
  refine ⟨_, exec_queueResume h hq he, ended_result .., ?_, ?_⟩
  · simp only [hp, Option.bind_none]
    rw [queue?_result, queue?_setQueue_resumed hq]
    simp only [resumed, Bool.and_eq_true, beq_iff_eq]
  · simp only [hp, Option.bind_none]
    exact ⟨rfl, rfl, rfl⟩

section
variable {s : State} {lo : Word} {b : CmdBlock} {q : Queue} {k : Nat} {p : Packet} (h : CommandReady s lo 5 b)
  (hq : s.queue? b.num = some q) (he : q.error = true) (hk : q.errPacket = some k) (hu : q.errUnread = false) (hp : s.packet? k = some p)
include h hq he hk hp

/-- A resume that skips the packet of the error. -/
theorem exec_queueResume_skip (hb : b.addr % 2 = 1) :
    exec (.queueResume lo) s = .next (((s.setQueue (resumed q b)).dropPacket p).result rOK) := by
  rw [exec_queueResume h hq he, hk]
  simp only [Option.bind_some, show (s.setQueue (resumed q b)).packet? k = some p from hp, hb]
  rfl

/-- A resume that reads the packet of the error again. -/
theorem exec_queueResume_reread (hb : b.addr % 2 = 0) :
    exec (.queueResume lo) s = .next (((s.setQueue (resumed q b)).rereadPacket (resumed q b) p).result rOK) := by
  rw [exec_queueResume h hq he, hk]
  simp only [Option.bind_some, show (s.setQueue (resumed q b)).packet? k = some p from hp, hb]
  rfl

include hu

theorem queueResume_skips (hd : q.destroyed = false) (hpq : p.queue = b.num) (hb : b.addr % 2 = 1) : Comes (.queueResume lo) s fun t =>
    Ended t 0 ∧ t.queue? b.num = some { q with error := false, errPacket := none, errUnread := false } ∧ Gone t k ∧ SameMemory s t := by
  have hr : resumed q b = { q with error := false, errPacket := none, errUnread := false } := by simp [resumed, hu]
  refine ⟨_, exec_queueResume_skip h hq he hk hp hb, ended_result .., ?_⟩
  rw [dropPacket_of_kept]
  · exact ⟨(queue?_setQueue_resumed hq).trans (congrArg some hr), not_mem_filter_id (id_of_packet? hp), rfl, rfl, rfl⟩
  · intro x hx
    rw [hpq, queue?_setQueue_resumed hq] at hx
    rw [← Option.some.inj hx]
    exact hd

theorem queueResume_rereads {s1 : State} {bs : List Byte} (hb : b.addr % 2 = 0)
    (hr : (s.setQueue { q with error := false, errPacket := none, errUnread := false }).readRoot (s.ctxD q.ctx) p.addr 64 = (s1, some bs)) :
    Comes (.queueResume lo) s fun t => Ended t 0 ∧
      t.queue? b.num = some { q with error := false, errPacket := none, errUnread := false } ∧
      t.packet? k = some { p with words := leWords bs, tail := [], st := .read } := by
  have hres : resumed q b = { q with error := false, errPacket := none, errUnread := false } := by simp [resumed, hu]
  have hread := memoryOnly_readRoot (s.setQueue { q with error := false, errPacket := none, errUnread := false }) (s.ctxD q.ctx) p.addr 64
  rw [hr] at hread
  refine ⟨_, exec_queueResume_reread h hq he hk hp hb, ended_result .., ?_⟩
  rw [hres, show State.rereadPacket _ _ p = s1.setPacket { p with words := leWords bs, tail := [], st := .read } by
    simp only [State.rereadPacket]
    rw [show State.ctxD (s.setQueue _) q.ctx = s.ctxD q.ctx from rfl, hr]]
  exact ⟨(hread.queue? b.num).trans (hres ▸ queue?_setQueue_resumed hq),
    packet?_setPacket_self s1 (id_of_packet? hp :)⟩

end

/-- SET_FLOORS with floors that keep their limit (R111). -/
theorem exec_setFloors {s : State} {lo : Word} {b : CmdBlock} (h : CommandReady s lo 6 b)
    (hsum : b.addr % 256 + b.addr / 256 % 256 + b.addr / 65536 % 256 + b.addr / 16777216 % 256 ≤ 100)
    (hfit : ∀ m, m < 192 → s.frameFits s.queues (b.addr % 256) m = true) : exec (.setFloors lo) s =
      .next (State.result { s with
        floors := [b.addr % 256, b.addr / 256 % 256, b.addr / 65536 % 256, b.addr / 16777216 % 256] } rOK) := by
  have hf : ((List.range 4).map fun i => bits b.addr (8 * i) 8) =
      [b.addr % 256, b.addr / 256 % 256, b.addr / 65536 % 256, b.addr / 16777216 % 256] := by
    simp [List.range_succ, bits]
  have hlim : ¬100 < [b.addr % 256, b.addr / 256 % 256, b.addr / 65536 % 256, b.addr / 16777216 % 256].sum := by
    simp only [List.sum_cons, List.sum_nil]; omega
  have hall : ((List.range Config.masts).all fun m => s.frameFits s.queues (b.addr % 256) m) = true :=
    List.all_eq_true.mpr fun m hm => hfit m (List.mem_range.mp hm)
  change execSetFloors lo s = _
  rw [execSetFloors, command_ready h rfl]
  simp only [hf, if_neg hlim, List.getD_cons_zero, hall, if_true]

theorem exec_cmdLo {s : State} {lo : Word} {b : CmdBlock} {op : Nat} (h : CommandReady s lo op b) (hop : op = 0 ∨ 8 < op) :
    exec (.cmdLo lo) s = .next (s.result rBADARG) := by
  change execCmdLo lo s = _
  rw [execCmdLo, command_ready h (by simpa using hop)]

/-- Settles O42: each command is one equation, and the queue is found under its number after it. -/
theorem queueCommands : Obligations.QueueCommands := by
  intro s lo
  exact ⟨fun b d h hn hq hd hok hfit => queueCreate_creates h hn hq hd hok hfit, fun b h hq => queueDestroy_drops h hq,
    fun b q h hq he hp => queueResume_plain h hq he hp,
    fun b q k p h hq he hk hu hd hp hpq => ⟨queueResume_skips h hq he hk hu hp hd hpq,
      fun s1 bs hb hr => queueResume_rereads h hq he hk hu hp hb hr⟩,
    fun b h hsum hfit => ⟨_, exec_setFloors h hsum hfit, ended_result .., rfl, rfl, rfl, rfl⟩,
    fun b op h hop => ⟨_, exec_cmdLo h hop, rfl⟩⟩

end Sys2Proof.Claims
end

section
/-! Local HBM in the root view: what writes, read-modify-writes and signals at pages without COMP leave in memory (R105, R324, R336). -/

namespace Sys2Proof.Claims

open Sys2Proof Sys2Proof.Machine

/-- Byte k of the value of a list of bytes is its element k. -/
theorem leNat_byte : ∀ (bs : List Byte) {k : Nat} {b : Byte}, bs[k]? = some b → BitVec.ofNat 8 (leNat bs / 256 ^ k) = b
  | x :: r, 0, b, h => by
    have hx : x = b := by simpa using h
    subst hx
    apply BitVec.eq_of_toNat_eq
    have := x.isLt
    simp only [leNat, BitVec.toNat_ofNat, Nat.pow_zero, Nat.div_one]
    omega
  | x :: r, k + 1, b, h => by
    have hx : (x.toNat + 256 * leNat r) / 256 = leNat r := by have := x.isLt; omega
    rw [leNat, Nat.pow_succ', ← Nat.div_div_eq_div_mul, hx]
    exact leNat_byte r (by simpa using h)

/-- A byte of the value of a range of memory. -/
theorem valueAt_byte (s : State) (pa n : Nat) {k : Nat} (h : k < n) : BitVec.ofNat 8 (valueAt s pa n / 256 ^ k) = memGet s.mem (pa + k) := by
  rw [← leNat_mem_range]
  exact leNat_byte _ (by simp [h])

/-! ### Contexts after a root write -/

/-- Contexts changed one by one under their numbers. -/
theorem ctx?_map (s : State) {f : Ctx → Ctx} (hf : ∀ c, (f c).num = c.num) (n : Nat) :
    State.ctx? { s with ctxs := s.ctxs.map f } n = (s.ctx? n).map f := by
  simp only [State.ctx?, List.find?_map]
  congr 2
  exact funext fun c => by simp [hf]

/-- What a change under the numbers keeps of every context it keeps of each. -/
theorem get_ctxD_map (s : State) {f : Ctx → Ctx} (hf : ∀ c, (f c).num = c.num) {α : Type} {g : Ctx → α} (hg : ∀ c, g (f c) = g c) (n : Nat) :
    g (State.ctxD { s with ctxs := s.ctxs.map f } n) = g (s.ctxD n) := by
  simp only [State.ctxD, ctx?_map s hf]
  cases s.ctx? n with
  | none => rfl
  | some c => exact hg c

/-- A writer whose view is the root's. -/
def RootWriter (s : State) (w : Writer) : Prop := resolveHyp (s.ctxD w.ctx).hyps w.hyp = 0

theorem rootWriter_zero (s : State) {w : Writer} (h : w.hyp = 0) : RootWriter s w := by
  rw [RootWriter, h, resolveHyp_zero]

theorem isOrphan_of_resolves_to_root {hs : List (Nat × HypEntry)} {h : Nat} (hr : resolveHyp hs h = 0) : isOrphan hs h = false := by
  unfold isOrphan
  rw [hr]
  rfl

/-- A root write at local HBM without COMP: the versions merged into the root lose their copy, and the home takes the byte. -/
theorem writeByte_hbm {s : State} {w : Writer} (hw : RootWriter s w) {pa : Nat} (h : pa < Config.hbmEnd) (b : Byte) (bad : Bool) :
    s.writeByte w (hbmLoc pa) b bad =
      (((State.homeWrite { s with ctxs := s.ctxs.map fun x => x.maskVersions 0 pa } pa b bad).onMast w.mast
        fun m => m.l1Write pa false b bad).l2Touch w.ctx pa).logWrite pa w.mast := by
  have hr : isReserved pa = false := by simp [isReserved, isHbm, h]
  unfold State.writeByte hbmLoc
  simp only [isOrphan_of_resolves_to_root hw, show resolveHyp _ _ = 0 from hw, hr]
  rfl

theorem mem_onMast (s : State) (m : Option Nat) (f : Mast → Mast) : (s.onMast m f).mem = s.mem := by cases m <;> rfl
theorem ctxs_onMast (s : State) (m : Option Nat) (f : Mast → Mast) : (s.onMast m f).ctxs = s.ctxs := by cases m <;> rfl
theorem poison_onMast (s : State) (m : Option Nat) (f : Mast → Mast) : (s.onMast m f).poison = s.poison := by cases m <;> rfl

section
variable {s : State} {w : Writer} (hw : RootWriter s w) {pa : Nat} (h : pa < Config.hbmEnd) (b : Byte) (bad : Bool)
include hw h

theorem mem_writeByte_hbm : (s.writeByte w (hbmLoc pa) b bad).mem = memPut pa b s.mem := by
  rw [writeByte_hbm hw h, logWrite_mem, l2Touch_mem, mem_onMast]
  simp [State.homeWrite, isHbm, h]

theorem ctxs_writeByte_hbm : (s.writeByte w (hbmLoc pa) b bad).ctxs = s.ctxs.map fun x => x.maskVersions 0 pa := by
  rw [writeByte_hbm hw h]
  change State.ctxs (State.onMast ..) = _
  rw [ctxs_onMast]
  simp [State.homeWrite, isHbm, h]

theorem rootWriter_writeByte (v : Writer) (hv : RootWriter s v) : RootWriter (s.writeByte w (hbmLoc pa) b bad) v := by
  unfold RootWriter
  rw [show State.ctxD (s.writeByte w (hbmLoc pa) b bad) v.ctx =
    State.ctxD { s with ctxs := s.ctxs.map fun x => x.maskVersions 0 pa } v.ctx by
      simp only [State.ctxD, State.ctx?, ctxs_writeByte_hbm hw h], get_ctxD_map s (f := fun x => x.maskVersions 0 pa) (fun _ => rfl) (g := Ctx.hyps) fun _ => rfl]
  exact hv

end

/-- Bytes written in the root view to local HBM stand there, and no other cell changes. -/
theorem memGet_writeBytes_hbm {w : Writer} : ∀ (bs : List (Byte × Bool)) (s : State) (pa : Nat), RootWriter s w →
    Memory.wf s.mem = true → pa + bs.length ≤ Config.hbmEnd →
    (∀ k x, bs[k]? = some x → memGet (s.writeBytes w (hbmLoc pa) bs).mem (pa + k) = x.1) ∧
    ∀ a, a < pa ∨ pa + bs.length ≤ a → memGet (s.writeBytes w (hbmLoc pa) bs).mem a = memGet s.mem a
  | [], _, _, _, _, _ => ⟨by simp, fun _ _ => rfl⟩
  | (b, p) :: r, s, pa, hw, wf, hr => by
    rw [List.length_cons] at hr
    have h0 : pa < Config.hbmEnd := by omega
    obtain ⟨ih, ihOther⟩ := memGet_writeBytes_hbm r (s.writeByte w (hbmLoc pa) b p) (pa + 1) (rootWriter_writeByte hw h0 b p w hw)
      (writeByte_wf _ _ _ _ _ wf) (by omega)
    rw [mem_writeByte_hbm hw h0] at ihOther
    rw [show s.writeBytes w (hbmLoc pa) ((b, p) :: r) = (s.writeByte w (hbmLoc pa) b p).writeBytes w (hbmLoc (pa + 1)) r from rfl]
    refine ⟨fun k x hx => ?_, fun a ha => ?_⟩
    · cases k with
      | zero =>
        simp only [List.getElem?_cons_zero, Option.some.injEq] at hx
        change memGet _ pa = _
        rw [ihOther pa (by omega), memGet_memPut b wf, ← hx]
      | succ k => rw [← ih k x (by simpa using hx), Nat.add_assoc, Nat.add_comm 1]
    · rw [List.length_cons] at ha
      rw [ihOther a (by omega), memGet_memPut_other (by omega)]

/-- What a range holds is told by memory alone. -/
theorem Holds.of_mem {s t u : State} {pa n v : Nat} (h : Holds s t pa n v) (hm : u.mem = t.mem) : Holds s u pa n v := by
  rwa [Holds, hm]

/-- The bytes of a number written there. -/
theorem holds_writeBytes {s : State} {w : Writer} (hw : RootWriter s w) (wf : Memory.wf s.mem = true) {pa n : Nat}
    (h : pa + n ≤ Config.hbmEnd) (v : Nat) : Holds s (s.writeBytes w (hbmLoc pa) ((natLE v n).map fun b => (b, false))) pa n v := by
  obtain ⟨written, others⟩ := memGet_writeBytes_hbm ((natLE v n).map fun b => (b, false)) s pa hw wf (by simpa using h)
  exact ⟨fun k hk => written k (BitVec.ofNat 8 (v / 256 ^ k), false) (by simp [natLE_getElem? v n k hk]),
    fun a ha => others a (by simpa using ha)⟩

/-! ### Reads -/

/-- Without versions the root view of local HBM is what memory holds. -/
theorem viewByte_hbm {s : State} (nv : NoVersions s) (c : Ctx) {pa : Nat} (h : pa < Config.hbmEnd) :
    s.viewByte c 0 (hbmLoc pa) = (memGet s.mem pa, s.poison.contains pa) := by
  have hroot : (s.ctxs.findSome? fun c => c.versionByte 0 pa) = none :=
    List.findSome?_eq_none_iff.mpr fun c hc => by simp [Ctx.versionByte, nv c hc]
  have hview : ((chainHyp c.hyps 0).findSome? fun t => if t = 0 then none else c.versionByte t pa) = none := by
    simp [chainHyp, resolveHyp_zero, ancestorsFrom, List.findSome?_eq_none_iff]
  unfold State.viewByte State.rootByte hbmLoc
  simp only [hview, hroot, State.leafByte, Bool.false_and, Bool.false_eq_true, if_false]
  exact homeByte_hbm s h

/-- Clean bytes as a read-modify-write takes them. -/
theorem peekBytes_hbm {s : State} (nv : NoVersions s) (c : Ctx) {pa n : Nat} (h : CleanHbm s pa n) :
    s.peekBytes c 0 (hbmLoc pa) n = (List.range n).map fun k => (memGet s.mem (pa + k), false) := by
  obtain ⟨hn, hp⟩ := h
  refine List.map_congr_left fun k hk => ?_
  have hk := List.mem_range.mp hk
  have hv := viewByte_hbm nv c (pa := pa + k) (by omega)
  rw [show s.poison.contains (pa + k) = false by simpa using hp k hk] at hv
  exact hv

/-! ### Read-modify-writes -/

@[simp] theorem poison_l2Read (s : State) (ctx pa : Nat) : (s.l2Read ctx pa).poison = s.poison := by
  unfold State.l2Read State.hostFill
  generalize List.range 32 = l
  split <;> split <;> rfl
@[simp] theorem ctxs_l2Read (s : State) (ctx pa : Nat) : (s.l2Read ctx pa).ctxs = s.ctxs := by
  unfold State.l2Read State.hostFill
  generalize List.range 32 = l
  split <;> split <;> rfl

/-- An atomic in the root view on clean bytes of local HBM gives their old value and leaves the new one. -/
theorem rmw_hbm {s : State} {w : Writer} (hw : w.hyp = 0) (nv : NoVersions s) (wf : Memory.wf s.mem = true) {pa n : Nat} (hn : 0 < n)
    (h : CleanHbm s pa n) (c : Ctx) (scope : Nat) (exch : Bool) (f : Nat → Option Nat) :
    (s.rmw c w (hbmLoc pa) n scope exch f).2 = (valueAt s pa n, false) ∧
    Holds s (s.rmw c w (hbmLoc pa) n scope exch f).1 pa n ((f (valueAt s pa n)).getD (valueAt s pa n)) := by
  have hnothost : isHost pa = false := by
    have := h.1
    have hb : Config.hbmEnd ≤ Config.hostBase := by decide
    simp only [isHost, Bool.and_eq_false_iff, decide_eq_false_iff_not]
    omega
  have hpeek : (s.l2Read w.ctx pa).peekBytes c 0 (hbmLoc pa) n = (List.range n).map fun k => (memGet s.mem (pa + k), false) := by
    rw [peekBytes_hbm (by simpa [NoVersions] using nv) c ⟨h.1, by simpa using h.2⟩]
    simp only [l2Read_mem]
  have hold : leNat (((List.range n).map fun k => (memGet s.mem (pa + k), false)).map (·.1)) = valueAt s pa n := by
    rw [List.map_map]
    exact leNat_mem_range s pa n
  have hclean : (((List.range n).map fun k => (memGet s.mem (pa + k), false)).any (·.2)) = false := by simp
  have hport : (hbmLoc pa).port.isNone = true := rfl
  have hread : Holds s (s.l2Read w.ctx pa) pa n (valueAt s pa n) :=
    ⟨fun k hk => by rw [l2Read_mem, valueAt_byte s pa n hk], fun a _ => by rw [l2Read_mem]⟩
  have hwrite (x : Nat) : Holds s ((s.l2Read w.ctx pa).writeBytes w (hbmLoc pa) ((natLE x n).map fun b => (b, false))) pa n x := by
    have hx := holds_writeBytes (s := s.l2Read w.ctx pa) (rootWriter_zero _ hw) (by rwa [l2Read_mem]) h.1 x
    rwa [Holds, l2Read_mem] at hx
  unfold State.rmw
  simp only [hport, hnothost, Bool.and_false, Bool.false_eq_true, if_false, if_true, hw, show (hbmLoc pa).pa = pa from rfl, hpeek, hold,
    hclean, Bool.false_and, true_and]
  cases f (valueAt s pa n) with
  | none => exact hread.of_mem (mem_onMast ..)
  | some x => exact (hwrite x).of_mem (mem_onMast ..)

end Sys2Proof.Claims
end

section
/-! Signals of packets (R105, R373): on local HBM without COMP they write or add their value, and host bytes leave L2 first. -/

namespace Sys2Proof.Claims

open Sys2Proof Sys2Proof.Machine

/-- Cells below the host's are not touched when host bytes are written back. -/
theorem memGet_hostWriteBack_below (s : State) {lo n a : Nat} (h : a < lo) : memGet (s.hostWriteBack lo n).mem a = memGet s.mem a := by
  change memGet (s.hostCache.foldl _ s.mem) a = _
  generalize s.mem = m
  induction s.hostCache generalizing m with
  | nil => rfl
  | cons x r ih =>
    rw [List.foldl_cons, ih]
    split
    · next hx =>
      simp only [Bool.and_eq_true, decide_eq_true_eq] at hx
      exact memGet_memPut_other (by omega) _ _
    · rfl

theorem poison_hostWriteBack_below (s : State) {lo n a : Nat} (h : a < lo) : a ∈ (s.hostWriteBack lo n).poison ↔ a ∈ s.poison := by
  change a ∈ s.hostCache.foldl _ s.poison ↔ _
  generalize s.poison = l
  induction s.hostCache generalizing l with
  | nil => rfl
  | cons x r ih =>
    rw [List.foldl_cons, ih]
    split
    · next hx =>
      simp only [Bool.and_eq_true, decide_eq_true_eq] at hx
      have hne : a ≠ x.addr := by omega
      split
      · simp [mem_nsInsert, hne]
      · simp [hne]
    · rfl

theorem below_host {pa n k : Nat} (h : pa + n ≤ Config.hbmEnd) (hk : k < n) : pa + k < Config.hostBase := by
  have hb : Config.hbmEnd ≤ Config.hostBase := by decide
  omega

/-- A release to the host leaves local HBM as it is. -/
theorem memGet_systemRelease (s : State) {a : Nat} (h : a < Config.hbmEnd) : memGet s.systemRelease.mem a = memGet s.mem a :=
  memGet_hostWriteBack_below s (h.trans_le (by decide))

theorem valueAt_systemRelease (s : State) {pa n : Nat} (h : pa + n ≤ Config.hbmEnd) : valueAt s.systemRelease pa n = valueAt s pa n := by
  unfold valueAt
  congr 1
  refine List.map_congr_left fun k hk => ?_
  rw [memGet_systemRelease s (by have := List.mem_range.mp hk; omega)]

theorem cleanHbm_systemRelease {s : State} {pa n : Nat} (h : CleanHbm s pa n) : CleanHbm s.systemRelease pa n :=
  ⟨h.1, fun k hk => mt (poison_hostWriteBack_below s (below_host h.1 hk)).mp (h.2 k hk)⟩

/-- What a signal at clean local HBM leaves. -/
structure Signalled (s t : State) (pa value : Nat) (add : Bool) : Prop where
  only : MemoryOnly s t
  bytes : ∀ k, k < 8 → memGet t.mem (pa + k) = BitVec.ofNat 8 ((value + if add then valueAt s pa 8 else 0) / 256 ^ k)
  others : ∀ a, a < Config.hbmEnd → a < pa ∨ pa + 8 ≤ a → memGet t.mem a = memGet s.mem a

/-- A byte of a number of eight bytes is a byte of it modulo 2^64. -/
theorem ofNat_byte_mod (x : Nat) {k : Nat} (h : k < 8) : BitVec.ofNat 8 (x % 2 ^ 64 / 256 ^ k) = BitVec.ofNat 8 (x / 256 ^ k) := by
  have hdvd : 2 ^ 8 ∣ 256 ^ (8 - k) := by
    rw [show 2 ^ 8 = 256 ^ 1 from rfl]
    exact Nat.pow_dvd_pow 256 (by omega)
  apply BitVec.eq_of_toNat_eq
  rw [BitVec.toNat_ofNat, BitVec.toNat_ofNat, show 2 ^ 64 = 256 ^ k * 256 ^ (8 - k) by rw [← Nat.pow_add, Nat.add_sub_cancel' h.le]; rfl,
    Nat.mod_mul_right_div_self, Nat.mod_mod_of_dvd _ hdvd]

/-- The eight bytes that a signal leaves where old ones stood. -/
def signalValue (add : Bool) (value old : Nat) : Nat := if add then (old + value) % 2 ^ 64 else value % 2 ^ 64

theorem signalValue_byte (add : Bool) (value old : Nat) {k : Nat} (h : k < 8) :
    BitVec.ofNat 8 (signalValue add value old / 256 ^ k) = BitVec.ofNat 8 ((value + if add then old else 0) / 256 ^ k) := by
  cases add
  · exact ofNat_byte_mod value h
  · rw [signalValue, if_pos rfl, if_pos rfl, ofNat_byte_mod _ h, Nat.add_comm]

theorem signalAt_of_translated {s : State} {ctx addr : Nat} {l : Loc} {g : List (Loc × Nat)} (hx : s.xrange (s.ctxD ctx) addr 8 .wr = .ok ((l, 8) :: g))
    (value : Nat) (add tail : Bool) : s.signalAt ctx addr value add tail =
      let r := s.systemRelease.rmw (s.ctxD ctx) (agentOf ctx) l 8 3 (!add) fun old => some (signalValue add value old)
      if (add || tail) && r.2.2 then none else some r.1 := by
  unfold State.signalAt
  dsimp only
  rw [hx]
  rfl

theorem signalAt_hbm {s : State} {ctx addr pa : Nat} (wf : Memory.wf s.mem = true) (nv : NoVersions s) (hc : CleanHbm s pa 8)
    (hx : s.xrange (s.ctxD ctx) addr 8 .wr = .ok [(hbmLoc pa, 8)]) (value : Nat) (add tail : Bool) :
    ∃ t, s.signalAt ctx addr value add tail = some t ∧ Signalled s t pa value add := by
  have hrmw := rmw_hbm (s := s.systemRelease) (w := agentOf ctx) rfl nv (hostWriteBack_wf _ _ _ wf) (by decide)
    (cleanHbm_systemRelease hc) (s.ctxD ctx) 3 (!add) fun old => some (signalValue add value old)
  have honly := memoryOnly_rmw s.systemRelease (s.ctxD ctx) (agentOf ctx) (hbmLoc pa) 8 3 (!add) fun old => some (signalValue add value old)
  rw [signalAt_of_translated hx]
  generalize s.systemRelease.rmw (s.ctxD ctx) (agentOf ctx) (hbmLoc pa) 8 3 (!add) (fun old => some (signalValue add value old)) = r at *
  obtain ⟨hr, written, others⟩ := hrmw
  rw [valueAt_systemRelease s hc.1] at hr written
  refine ⟨r.1, ?_, (memoryOnly_systemRelease s).trans honly, fun k hk => ?_, fun a hlt ha => ?_⟩
  · simp only [hr, Bool.and_false, Bool.false_eq_true, if_false]
  · rw [written k hk, Option.getD_some, signalValue_byte add value _ hk]
  · rw [others a ha, memGet_systemRelease s hlt]

end Sys2Proof.Claims
end

section
/-! Packets whose turn it is start (R102 to R105, R247, R343, R378). -/

namespace Sys2Proof.Machine

/-! ### The reckoning table after a resolve (R342) and after freed entries (R333) -/

theorem alGet_map {α β : Type} (f : Nat → α → β) (k : Nat) : ∀ l : List (Nat × α), alGet k (l.map fun x => (x.1, f x.1 x.2)) = (alGet k l).map (f k)
  | [] => rfl
  | (j, x) :: r => by
    by_cases h : j = k
    · simp [alGet, h]
    · simp [alGet, h, alGet_map f k r]

theorem alGet_alDel_self {α : Type} (k : Nat) : ∀ l : List (Nat × α), alGet k (alDel k l) = none
  | [] => rfl
  | (j, x) :: r => by
    have ih := alGet_alDel_self k r
    by_cases h : j = k
    · simpa [alDel, h] using ih
    · simpa [alDel, h, alGet] using ih

theorem alGet_alDel_other {α : Type} {k n : Nat} (h : k ≠ n) : ∀ l : List (Nat × α), alGet k (alDel n l) = alGet k l
  | [] => rfl
  | (j, x) :: r => by
    have ih := alGet_alDel_other h r
    by_cases hj : j = n
    · have hk : n ≠ k := fun e => h e.symm
      simpa [alDel, hj, alGet, hk] using ih
    · by_cases hk : j = k
      · subst hk
        simp [alDel, h, alGet]
      · simpa [alDel, hj, alGet, hk] using ih

/-- An entry of the table other than the root is the listed one, or free. -/
theorem hypAt_eq {hs : List (Nat × HypEntry)} {i : Nat} (h : i ≠ 0) : hypAt hs i = (alGet i hs).getD freeEntry := by
  simp [hypAt, h, alGetD]

theorem hypAt_nil {i : Nat} (h : i ≠ 0) : hypAt [] i = freeEntry := by rw [hypAt_eq h]; rfl

/-- What becomes of an entry when others under a confirmed hypothesis move up, or it is confirmed itself. -/
def confirmedEntry (hs : List (Nat × HypEntry)) (h i : Nat) (e : HypEntry) : HypEntry :=
  let p := (hypAt hs h).parent
  if i = h then { e with st := .merged, link := p }
  else
    let e' := if e.st != .free && isUnder hs h i && e.st != .merged then { e with depth := e.depth - 1 } else e
    if e.st != .free && e.parent == h then { e' with parent := p } else e'

theorem confirmHyp_eq (hs : List (Nat × HypEntry)) (h : Nat) : confirmHyp hs h = hs.map fun x => (x.1, confirmedEntry hs h x.1 x.2) := by
  refine List.map_congr_left fun x _ => ?_
  simp only [confirmedEntry]
  split <;> [rfl; (split <;> rfl)]

/-- A confirmed hypothesis is MERGED, unless it was not in the table. -/
theorem hypAt_confirmHyp_self {h : Nat} (h0 : h ≠ 0) (hs : List (Nat × HypEntry)) :
    (hypAt (confirmHyp hs h) h).st = .merged ∨ hypAt (confirmHyp hs h) h = freeEntry := by
  rw [hypAt_eq h0, confirmHyp_eq, alGet_map]
  cases alGet h hs with
  | none => exact .inr rfl
  | some e => exact .inl (by simp [confirmedEntry])

/-- What becomes of an entry when a hypothesis is refuted. -/
def refutedEntry (hs : List (Nat × HypEntry)) (h i : Nat) (e : HypEntry) : HypEntry :=
  if e.st = .opened && isUnder hs h i then { e with st := .refuted } else e

theorem refuteHyp_eq (hs : List (Nat × HypEntry)) (h : Nat) : refuteHyp hs h = hs.map fun x => (x.1, refutedEntry hs h x.1 x.2) := by
  refine List.map_congr_left fun x _ => ?_
  simp only [refutedEntry]
  split <;> rfl

/-- A hypothesis lies under itself. -/
theorem isUnder_self (hs : List (Nat × HypEntry)) {h : Nat} (h0 : h ≠ 0) : isUnder hs h h = true := by
  rw [isUnder, show ancestorsFrom hs 256 h = if h = 0 then [0] else h :: ancestorsFrom hs 255 (resolveHyp hs (hypAt hs h).parent) from rfl,
    if_neg h0]
  simp

/-- An OPEN hypothesis that is refuted is REFUTED. -/
theorem hypAt_refuteHyp_self {hs : List (Nat × HypEntry)} {h : Nat} (h0 : h ≠ 0) (ho : (hypAt hs h).st = .opened) :
    (hypAt (refuteHyp hs h) h).st = .refuted := by
  rw [hypAt_eq h0] at ho ⊢
  rw [refuteHyp_eq, alGet_map]
  cases he : alGet h hs with
  | none => rw [he] at ho; exact HypState.noConfusion ho
  | some e =>
    rw [he] at ho
    have ho : e.st = .opened := ho
    simp [refutedEntry, ho, isUnder_self hs h0]

/-- Freeing entries takes away merged and scrubbed ones, and nothing else of the context. -/
structure FreesOnly (c c' : Ctx) : Prop where
  frame : c' = { c with hyps := c'.hyps }
  entry : ∀ i, i ≠ 0 → hypAt c'.hyps i = hypAt c.hyps i ∨
    (((hypAt c.hyps i).st = .merged ∨ (hypAt c.hyps i).st = .scrubbing) ∧ hypAt c'.hyps i = freeEntry)

theorem FreesOnly.refl (c : Ctx) : FreesOnly c c := ⟨rfl, fun _ _ => .inl rfl⟩

theorem FreesOnly.trans {a b c : Ctx} (h : FreesOnly a b) (k : FreesOnly b c) : FreesOnly a c := by
  refine ⟨by rw [k.frame, h.frame], fun i hi => ?_⟩
  rcases h.entry i hi with e | ⟨e, f⟩
  · rw [← e]; exact k.entry i hi
  · rcases k.entry i hi with e' | ⟨e', f'⟩
    · exact .inr ⟨e, by rw [e', f]⟩
    · exact .inr ⟨e, f'⟩

theorem freesOnly_from (s : State) (c : Ctx) : ∀ n, FreesOnly c (freeHypsFrom s c n)
  | 0 => .refl c
  | n + 1 => by
    refine (freesOnly_from s c n).trans ?_
    rw [freeHypsFrom]
    split
    · next h =>
      refine ⟨rfl, fun i hi => ?_⟩
      by_cases hin : i = n + 1
      · subst hin
        exact .inr ⟨h.1, by rw [hypAt_eq hi, alGet_alDel_self]; rfl⟩
      · exact .inl (by rw [hypAt_eq hi, hypAt_eq hi, alGet_alDel_other hin])
    · exact .refl _

theorem freesOnly_loop (s : State) : ∀ n c, FreesOnly c (freeHypsLoop s n c)
  | 0, c => .refl c
  | n + 1, c => by
    rw [freeHypsLoop]
    split
    · exact .refl c
    · exact (freesOnly_from s c 255).trans (freesOnly_loop s n _)

theorem freesOnly_freeHyps (s : State) (c : Ctx) : FreesOnly c (s.freeHyps c) := freesOnly_loop s 256 c

theorem num_freeHyps (s : State) (c : Ctx) : (s.freeHyps c).num = c.num := by rw [(freesOnly_freeHyps s c).frame]

theorem tidyHyps_frame (s : State) (c : Nat) : s.tidyHyps c = { s with ctxs := (s.tidyHyps c).ctxs } := by
  unfold State.tidyHyps
  split <;> rfl

/-- The context after its table has been tidied. -/
theorem ctx?_tidyHyps (s : State) (c : Nat) : (s.tidyHyps c).ctx? c = (s.ctx? c).map s.freeHyps := by
  unfold State.tidyHyps
  cases h : s.ctx? c with
  | none => exact h
  | some x => exact ctx?_setCtx_self s ((num_freeHyps s x).trans (num_of_ctx? h))

theorem ctx?_tidyHyps_other (s : State) {c n : Nat} (hn : n ≠ c) : (s.tidyHyps c).ctx? n = s.ctx? n := by
  unfold State.tidyHyps
  split
  · rfl
  · next x hx => exact ctx?_setCtx_other s (by rw [num_freeHyps, num_of_ctx? hx]; exact hn)

theorem tidyFaults_frame (s : State) (c : Nat) : s.tidyFaults c = { s with ctxs := (s.tidyFaults c).ctxs } := by
  unfold State.tidyFaults
  split
  · rfl
  · split <;> rfl

/-- Of the context, tidying its faults touches their addresses alone. -/
theorem ctx?_tidyFaults (s : State) (c : Nat) :
    (s.tidyFaults c).ctx? c = s.ctx? c ∨ (s.tidyFaults c).ctx? c = (s.ctx? c).map fun x => { x with fvas := [] } := by
  unfold State.tidyFaults
  cases h : s.ctx? c with
  | none => exact .inl h
  | some x =>
    dsimp only
    split
    · exact .inr (ctx?_setCtx_self s (num_of_ctx? h :))
    · exact .inl h

theorem ctx?_tidyFaults_other (s : State) {c n : Nat} (hn : n ≠ c) : (s.tidyFaults c).ctx? n = s.ctx? n := by
  unfold State.tidyFaults
  split
  · rfl
  · next x hx =>
    split
    · exact ctx?_setCtx_other s (by rw [num_of_ctx? hx]; exact hn)
    · rfl

end Sys2Proof.Machine
end

section
/-! What a resolve changes: the versions and tables of contexts, the masts' views, tiles on offer, and threads of orphans (R338, R342, R346). -/

namespace Sys2Proof.Machine

/-- Only the memory side, the streams and the teams differ. -/
def ResolveOnly (s t : State) : Prop := t = { s with
  ctxs := t.ctxs, masts := t.masts, mem := t.mem, poison := t.poison, nsec := t.nsec, dirtyComp := t.dirtyComp
  hostCache := t.hostCache, l2 := t.l2, wlog := t.wlog, peers := t.peers, streams := t.streams, teams := t.teams }

namespace ResolveOnly

theorem refl (s : State) : ResolveOnly s s := rfl
theorem trans {s t u : State} (h : ResolveOnly s t) (k : ResolveOnly t u) : ResolveOnly s u := by
  unfold ResolveOnly at *
  rw [k, h]

theorem foldl {α : Type} {f : State → α → State} (h : ∀ s x, ResolveOnly s (f s x)) : ∀ (l : List α) (s : State), ResolveOnly s (l.foldl f s)
  | [], s => refl s
  | x :: r, s => (h s x).trans (foldl h r (f s x))

variable {s t : State}

theorem of_memoryOnly (h : MemoryOnly s t) : ResolveOnly s t := by
  unfold MemoryOnly at h
  unfold ResolveOnly
  rw [h]

theorem get {α : Type} (h : ResolveOnly s t) (f : State → α) : f t = f { s with
    ctxs := t.ctxs, masts := t.masts, mem := t.mem, poison := t.poison, nsec := t.nsec, dirtyComp := t.dirtyComp
    hostCache := t.hostCache, l2 := t.l2, wlog := t.wlog, peers := t.peers, streams := t.streams, teams := t.teams } := congrArg f h

theorem running (h : ResolveOnly s t) : t.running = s.running := h.get State.running
theorem packets (h : ResolveOnly s t) : t.packets = s.packets := h.get State.packets
theorem start (h : ResolveOnly s t) : t.start = s.start := h.get State.start
theorem launches (h : ResolveOnly s t) : t.launches = s.launches := h.get State.launches

end ResolveOnly

theorem resolveOnly_tidyHyps (s : State) (c : Nat) : ResolveOnly s (s.tidyHyps c) := by rw [tidyHyps_frame]; rfl
theorem resolveOnly_tidyFaults (s : State) (c : Nat) : ResolveOnly s (s.tidyFaults c) := by rw [tidyFaults_frame]; rfl

theorem resolveOnly_onMast (s : State) (m : Option Nat) (f : Mast → Mast) : ResolveOnly s (s.onMast m f) := by cases m <;> rfl

theorem memoryOnly_enterViews (s : State) (ctx : Nat) (old new : Team) : MemoryOnly s (s.enterViews ctx old new) := by
  unfold State.enterViews
  split
  · exact MemoryOnly.foldl (fun a i => .ite (.refl a) (memoryOnly_onMast ..)) _ _
  · exact .refl s

/-- A sweep of orphans enters other views, moves threads and tidies the faults of the context. -/
theorem resolveOnly_sweepOrphans (s : State) (ctx : Nat) : ResolveOnly s (s.sweepOrphans ctx) := by
  unfold State.sweepOrphans
  dsimp only
  refine ResolveOnly.trans ?_ (resolveOnly_tidyFaults ..)
  refine ResolveOnly.trans (.of_memoryOnly (MemoryOnly.foldl (fun a t => memoryOnly_enterViews a ctx t _) s.teams s)) rfl

/-- The context's table after an update of the context. -/
theorem hyps_ctxD_setCtx (s : State) {c : Ctx} {n : Nat} (hc : c.num = (s.ctxD n).num) (h0 : (s.ctxD n).hyps = [] → c.hyps = []) :
    ((s.setCtx c).ctxD n).hyps = c.hyps := by
  cases hn : s.ctx? n with
  | some x =>
    have hx : c.num = n := by rw [hc, ctxD_of_ctx? hn, num_of_ctx? hn]
    rw [ctxD_of_ctx? (ctx?_setCtx_self s hx)]
  | none =>
    by_cases hx : c.num = n
    · rw [ctxD_of_ctx? (ctx?_setCtx_self s hx)]
    · have hd : s.ctxD n = default := by simp [State.ctxD, hn]
      have hnone := (ctx?_setCtx_other s (Ne.symm hx)).trans hn
      rw [show (s.setCtx c).ctxD n = default by simp [State.ctxD, hnone], h0 (by rw [hd]; rfl)]
      rfl

theorem foldl_maskVersions_frame (p : Nat) : ∀ (l : List Nat) (c : Ctx), l.foldl (fun (a : Ctx) pa => a.maskVersions p pa) c =
    { c with versions := (l.foldl (fun (a : Ctx) pa => a.maskVersions p pa) c).versions }
  | [], _ => rfl
  | x :: r, c => by rw [List.foldl_cons, foldl_maskVersions_frame p r]; rfl

/-- The state in which the versions of a confirmed hypothesis hide what lies under them (R338). -/
def State.confirmMasks (s : State) (ctx h : Nat) : State :=
  let c := s.ctxD ctx
  if (hypAt c.hyps h).parent = 0 then
    { s with ctxs := s.ctxs.map fun x => if x.num = ctx then x else (c.bytesUnder h).foldl (fun (a : Ctx) pa => a.maskVersions 0 pa) x }
  else s

/-- The context with a confirmed hypothesis. -/
def Ctx.confirmed (c : Ctx) (h : Nat) : Ctx :=
  { (c.bytesUnder h).foldl (fun (a : Ctx) pa => a.maskVersions (hypAt c.hyps h).parent pa) c with hyps := confirmHyp c.hyps h }

theorem confirmed_frame (c : Ctx) (h : Nat) : c.confirmed h = { c with versions := (c.confirmed h).versions, hyps := confirmHyp c.hyps h } := by
  unfold Ctx.confirmed
  rw [foldl_maskVersions_frame]

/-- A confirm is an update of its context and then touches streams, the write log and masts. -/
theorem confirm_frame (s : State) (ctx : Nat) (mast : Option Nat) (h : Nat) : s.confirm ctx mast h =
    { (s.confirmMasks ctx h).setCtx ((s.ctxD ctx).confirmed h) with
      streams := (s.confirm ctx mast h).streams, wlog := (s.confirm ctx mast h).wlog, masts := (s.confirm ctx mast h).masts } := by
  have hlog : ∀ (l : List Nat) (a : State), l.foldl (fun (a : State) b => a.sigAll b) a =
      { a with wlog := (l.foldl (fun (a : State) b => a.sigAll b) a).wlog } := by
    intro l
    induction l with
    | nil => exact fun _ => rfl
    | cons x r ih => intro a; rw [List.foldl_cons, ih]; rfl
  have hmasts (f : Mast → Mast) : ∀ (l : List Nat) (a : State), l.foldl (fun (a : State) k => a.onMast (some k) f) a =
      { a with masts := (l.foldl (fun (a : State) k => a.onMast (some k) f) a).masts } := by
    intro l
    induction l with
    | nil => exact fun _ => rfl
    | cons x r ih => intro a; rw [List.foldl_cons, ih]; rfl
  have hmast (a : State) (m : Option Nat) (f : Mast → Mast) : a.onMast m f = { a with masts := (a.onMast m f).masts } := by
    cases m <;> rfl
  unfold State.confirm
  dsimp only
  rw [hmast, State.dropMerged, hmasts, hlog]
  rfl

theorem resolveOnly_confirm (s : State) (ctx : Nat) (mast : Option Nat) (h : Nat) : ResolveOnly s (s.confirm ctx mast h) := by
  have hm : ResolveOnly s (s.confirmMasks ctx h) := by unfold State.confirmMasks; dsimp only; split <;> rfl
  rw [confirm_frame]
  exact hm.trans rfl

theorem num_confirmMasks (s : State) (ctx h n : Nat) :
    ((s.confirmMasks ctx h).ctxD n).num = (s.ctxD n).num ∧ ((s.confirmMasks ctx h).ctxD n).hyps = (s.ctxD n).hyps := by
  unfold State.confirmMasks
  dsimp only
  split
  · have hf : ∀ c : Ctx, (if c.num = ctx then c else ((s.ctxD ctx).bytesUnder h).foldl (fun (a : Ctx) pa => a.maskVersions 0 pa) c).num = c.num ∧
        (if c.num = ctx then c else ((s.ctxD ctx).bytesUnder h).foldl (fun (a : Ctx) pa => a.maskVersions 0 pa) c).hyps = c.hyps := by
      intro c
      split
      · exact ⟨rfl, rfl⟩
      · rw [foldl_maskVersions_frame]; exact ⟨rfl, rfl⟩
    exact ⟨Claims.get_ctxD_map s (fun c => (hf c).1) (g := Ctx.num) (fun c => (hf c).1) n,
      Claims.get_ctxD_map s (fun c => (hf c).1) (g := Ctx.hyps) (fun c => (hf c).2) n⟩
  · exact ⟨rfl, rfl⟩

theorem hyps_confirm (s : State) (ctx : Nat) (mast : Option Nat) (h : Nat) :
    ((s.confirm ctx mast h).ctxD ctx).hyps = confirmHyp (s.ctxD ctx).hyps h := by
  obtain ⟨hn, hh⟩ := num_confirmMasks s ctx h ctx
  rw [confirm_frame]
  change (((s.confirmMasks ctx h).setCtx ((s.ctxD ctx).confirmed h)).ctxD ctx).hyps = _
  rw [hyps_ctxD_setCtx _ (by rw [hn, confirmed_frame]) (by rw [hh, confirmed_frame]; intro e; rw [e]; rfl), confirmed_frame]

/-- A refutation updates its context, and sweeps the threads of orphans. -/
theorem refute_eq (s : State) (ctx h : Nat) : ∃ (ms : List Mast) (ss : List Stream), s.refute ctx h =
    State.sweepOrphans { s.setCtx { s.ctxD ctx with hyps := refuteHyp (s.ctxD ctx).hyps h } with masts := ms, streams := ss } ctx :=
  ⟨_, _, rfl⟩

theorem resolveOnly_refute (s : State) (ctx h : Nat) : ResolveOnly s (s.refute ctx h) := by
  obtain ⟨ms, ss, e⟩ := refute_eq s ctx h
  have hs : ResolveOnly s { s.setCtx { s.ctxD ctx with hyps := refuteHyp (s.ctxD ctx).hyps h } with masts := ms, streams := ss } := rfl
  rw [e]
  exact hs.trans (resolveOnly_sweepOrphans ..)

/-- Tidying faults leaves the tables alone. -/
theorem hyps_tidyFaults (s : State) (ctx n : Nat) : ((s.tidyFaults ctx).ctxD n).hyps = (s.ctxD n).hyps := by
  by_cases hn : n = ctx
  · subst hn
    rcases ctx?_tidyFaults s n with h | h
    · simp only [State.ctxD, h]
    · simp only [State.ctxD, h]
      cases s.ctx? n <;> rfl
  · simp only [State.ctxD, ctx?_tidyFaults_other s hn]

theorem ctxs_enterViews (s : State) (ctx : Nat) (old new : Team) : (s.enterViews ctx old new).ctxs = s.ctxs := by
  unfold State.enterViews
  split
  · generalize List.range new.threads.length = l
    induction l generalizing s with
    | nil => rfl
    | cons x r ih =>
      rw [List.foldl_cons, ih]
      dsimp only
      split
      · rfl
      · exact Claims.ctxs_onMast ..
  · rfl

theorem ctxs_foldl_enterViews (ctx : Nat) (f : Team → Team) : ∀ (l : List Team) (s : State),
    (l.foldl (fun (a : State) t => a.enterViews ctx t (f t)) s).ctxs = s.ctxs
  | [], _ => rfl
  | t :: r, s => by rw [List.foldl_cons, ctxs_foldl_enterViews ctx f r, ctxs_enterViews]

theorem hyps_sweepOrphans (s : State) (ctx n : Nat) : ((s.sweepOrphans ctx).ctxD n).hyps = (s.ctxD n).hyps := by
  unfold State.sweepOrphans
  dsimp only
  rw [hyps_tidyFaults]
  simp only [State.ctxD, State.ctx?, ctxs_foldl_enterViews]

theorem hyps_refute (s : State) (ctx h : Nat) : ((s.refute ctx h).ctxD ctx).hyps = refuteHyp (s.ctxD ctx).hyps h := by
  obtain ⟨ms, ss, e⟩ := refute_eq s ctx h
  rw [e, hyps_sweepOrphans]
  exact hyps_ctxD_setCtx s rfl fun e => by
    change refuteHyp (s.ctxD ctx).hyps h = []
    rw [e]; rfl

theorem resolveOnly_applyResolve (s : State) (ctx : Nat) (r : ResolveOp) : ResolveOnly s (s.applyResolve ctx r) := by
  unfold State.applyResolve
  split
  · exact resolveOnly_confirm ..
  · split
    · exact resolveOnly_refute ..
    · exact .refl s

/-- An entry of the table after it has been tidied stands or has been freed. -/
theorem hypAt_tidyHyps (s : State) (ctx : Nat) {i : Nat} (hi : i ≠ 0) :
    hypAt ((s.tidyHyps ctx).ctxD ctx).hyps i = hypAt (s.ctxD ctx).hyps i ∨
    (((hypAt (s.ctxD ctx).hyps i).st = .merged ∨ (hypAt (s.ctxD ctx).hyps i).st = .scrubbing) ∧
      hypAt ((s.tidyHyps ctx).ctxD ctx).hyps i = freeEntry) := by
  simp only [State.ctxD, ctx?_tidyHyps]
  cases s.ctx? ctx with
  | none => rw [Option.map_none]; exact .inl rfl
  | some c =>
    simp only [Option.map_some, Option.getD_some]
    exact (freesOnly_freeHyps s c).entry i hi

/-! ### Starting a resolve -/

/-- A resolve that starts is under way; another one of its context goes first. -/
theorem startResolve_eq (s : State) (ctx : Nat) (packet team : Option Nat) (r : ResolveOp) :
    let busy := s.running.any (Running.resolves ctx)
    let u : State := { s with
      nextId := s.nextId + 1, running := s.running ++ [.resolve s.nextId ctx packet team (if busy then some r else none)] }
    (s.startResolve ctx packet team r).2 = if busy then u else u.applyResolve ctx r := rfl

theorem mem_running_startResolve (s : State) (ctx : Nat) (packet team : Option Nat) (r : ResolveOp) :
    ∃ todo, .resolve s.nextId ctx packet team todo ∈ (s.startResolve ctx packet team r).2.running ∧
      ((∀ x ∈ s.running, x.resolves ctx = false) → todo = none) := by
  rw [startResolve_eq]
  refine ⟨if s.running.any (Running.resolves ctx) then some r else none, ?_, fun h => if_neg (by simpa using h)⟩
  split
  · exact List.mem_append_right _ (List.mem_singleton_self _)
  · rw [(resolveOnly_applyResolve ..).running]
    exact List.mem_append_right _ (List.mem_singleton_self _)

/-- With no other resolve of the context under way it is applied at once. -/
theorem startResolve_alone {s : State} {ctx : Nat} (h : ∀ x ∈ s.running, x.resolves ctx = false) (packet team : Option Nat) (r : ResolveOp) :
    (s.startResolve ctx packet team r).2 =
      State.applyResolve { s with nextId := s.nextId + 1, running := s.running ++ [.resolve s.nextId ctx packet team none] } ctx r := by
  have hb : s.running.any (Running.resolves ctx) = false := by simpa using h
  rw [startResolve_eq, hb]
  rfl

/-- With no resolve waiting the table ahead is the table. -/
theorem hypsAhead_alone {s : State} {ctx : Nat} (h : ∀ x ∈ s.running, x.resolves ctx = false) : s.hypsAhead ctx = (s.ctxD ctx).hyps := by
  have hnone : s.running.filterMap (Running.todoOf ctx) = [] := by
    rw [List.filterMap_eq_nil_iff]
    intro x hx
    have hr := h x hx
    unfold Running.todoOf
    split
    · next c _ _ _ => rw [if_neg fun e => by simp [Running.resolves, e] at hr]
    · rfl
  unfold State.hypsAhead
  rw [hnone]
  rfl

end Sys2Proof.Machine
end

section
/-! PACKETS_START: a packet whose turn it is, with checks that found nothing, is carried out (R102 to R108, R247, R378). -/

namespace Sys2Proof.Claims

open Sys2Proof Sys2Proof.Machine

theorem bit_zero_of_mod {w d : Nat} (h : w % 2 = d) : bit w 0 = (d == 1) := by simp [bit, h]
theorem bits_zero_sixteen (w : Nat) : bits w 0 16 = w % 65536 := congrArg (· % 65536) (Nat.div_one w)
theorem bit_eight (w : Nat) : bit w 8 = (w / 256 % 2 == 1) := rfl

theorem eq_false_of_failIf {b : Bool} {cause : Nat} (h : failIf b cause = []) : b = false := by
  cases b
  · rfl
  · cases h

/-- A packet whose turn it is and whose checks found nothing is carried out. -/
theorem packetStep_turn {s : State} {p : Nat} {x : Packet} {tail : List Word} (h : Turn s p x tail) {mine : Packet → Bool}
    (hm : mine x = true) : s.packetStep p mine =
      s.carryOut (s.ctxD (s.queueD x.queue).ctx) (s.queueD x.queue) { x with tail := tail } := by
  obtain ⟨hp, hr, hf, hc⟩ := h
  simp [State.packetStep, hp, hm, State.tryPacket, hr, hf, hc]

section
variable {s : State} {p : Nat} {x : Packet} {tail : List Word} (h : Turn s p x tail)
include h

theorem Turn.id : x.id = p := id_of_packet? h.1

/-- What begins is started with its tail. -/
theorem Turn.started : Started s (s.begun { x with tail := tail }) p x tail := packet?_setPacket_self s (h.id :)

/-- A step whose packet is carried out answers the state that carrying it out leaves. -/
theorem Turn.comes {i : Instr} {mine : Packet → Bool} (he : exec i s = .next (s.packetStep p mine)) (hm : mine x = true) {u : State}
    (hu : s.carryOut (s.ctxD (s.queueD x.queue).ctx) (s.queueD x.queue) { x with tail := tail } = u) {Q : State → Prop} (hq : Q u) :
    Comes i s Q := ⟨u, he.trans (congrArg Host.Outcome.next ((packetStep_turn h hm).trans hu)), hq⟩

theorem nop_completes (ht : x.type = 0) : Comes (.nopPacket p) s fun t => Gone t p ∧ SameMemory s t := by
  have hc : s.carryOut (s.ctxD (s.queueD x.queue).ctx) (s.queueD x.queue) { x with tail := tail } = s.completePacket { x with tail := tail } := by
    rw [State.carryOut, show Packet.type { x with tail := tail } = 0 from ht]
    rfl
  refine h.comes rfl (by simp [ht]) hc ?_
  rw [completePacket_frame]
  exact ⟨not_mem_filter_id h.id, rfl, rfl, rfl⟩

theorem dispatch_starts (ht : x.type = 1) : Comes (.dispatch p) s fun t => Started s t p x tail ∧ SameMemory s t ∧
    ∃ l ∈ t.launches, l.packet = p ∧ l.draw = none ∧ l.admitted = false ∧ l.entry = x.w 0x04 ∧ l.codeBase = x.d 0x08 ∧
      l.arg = BitVec.ofNat 64 (x.d 0x28) ∧ l.seed = BitVec.ofNat 64 (x.d 0x30) ∧ l.hyp = x.hyp ∧ l.det = x.det ∧
      l.tilesX = x.w 0x20 % 65536 ∧ l.tilesY = x.w 0x20 / 65536 % 65536 ∧ l.tilesZ = x.w 0x24 % 65536 := by
  have hc : s.carryOut (s.ctxD (s.queueD x.queue).ctx) (s.queueD x.queue) { x with tail := tail } =
      s.startDispatch (s.ctxD (s.queueD x.queue).ctx) (s.queueD x.queue) { x with tail := tail } := by
    rw [State.carryOut, show Packet.type { x with tail := tail } = 1 from ht]
    rfl
  refine h.comes rfl (by simp [ht]) hc ⟨h.started, ⟨rfl, rfl, rfl⟩,
    dispatchLaunch (s.ctxD (s.queueD x.queue).ctx) (s.queueD x.queue) { x with tail := tail } s.nextId s.ns, mem_putBy_self .., h.id,
    rfl, rfl, rfl, rfl, rfl, rfl, rfl, rfl, ?_, rfl, ?_⟩
  · exact bits_zero_sixteen (x.w 0x20)
  · exact bits_zero_sixteen (x.w 0x24)

theorem draw_starts (ht : x.type = 2) : Comes (.draw p) s fun t => Started s t p x tail ∧ SameMemory s t ∧
    ∃ l ∈ t.launches, l.packet = p ∧ l.admitted = false ∧ l.codeBase = x.d 0x08 ∧ l.hyp = x.hyp ∧
      ∃ d, l.draw = some d ∧ d.groups = x.w 0x20 ∧ d.meshEntry = x.w 0x10 ∧ d.nextTeam = 0 := by
  have hc : s.carryOut (s.ctxD (s.queueD x.queue).ctx) (s.queueD x.queue) { x with tail := tail } =
      s.startDraw (s.ctxD (s.queueD x.queue).ctx) (s.queueD x.queue) { x with tail := tail } := by
    rw [State.carryOut, show Packet.type { x with tail := tail } = 2 from ht]
    rfl
  exact h.comes rfl (by simp [ht]) hc ⟨h.started, ⟨rfl, rfl, rfl⟩,
    _, mem_putBy_self .., h.id, rfl, rfl, rfl, _, rfl, rfl, rfl, rfl⟩

/-- A COPY or a WAIT begins and changes nothing else. -/
theorem begun_starts {mine : Packet → Bool} (hm : mine x = true) (ht : x.type = 3 ∨ x.type = 5) :
    Started s (s.packetStep p mine) p x tail ∧ s.packetStep p mine = { s with packets := (s.packetStep p mine).packets } := by
  have hc : s.carryOut (s.ctxD (s.queueD x.queue).ctx) (s.queueD x.queue) { x with tail := tail } = s.begun { x with tail := tail } := by
    obtain ht | ht := ht
    · rw [State.carryOut, show Packet.type { x with tail := tail } = 3 from ht]
      rfl
    · rw [State.carryOut, show Packet.type { x with tail := tail } = 5 from ht]
      rfl
  rw [packetStep_turn h hm, hc]
  exact ⟨h.started, rfl⟩

theorem copy_starts {i : Instr} {k : Nat} (hi : (i, k) ∈ [(Instr.copyLinear p, 0), (.copyFill p, 1), (.copyTwoD p, 2)]) (ht : x.type = 3)
    (hk : x.w 0x04 % 4 = k) : Comes i s fun t => Started s t p x tail ∧ t = { s with packets := t.packets } := by
  simp only [List.mem_cons, Prod.mk.injEq, List.not_mem_nil, or_false] at hi
  obtain ⟨rfl, rfl⟩ | ⟨rfl, rfl⟩ | ⟨rfl, rfl⟩ := hi
  · exact ⟨_, rfl, begun_starts h (mine := fun x => x.type == 3 && x.w 0x04 % 4 == 0) (by simp [ht, hk]) (.inl ht)⟩
  · exact ⟨_, rfl, begun_starts h (mine := fun x => x.type == 3 && x.w 0x04 % 4 == 1) (by simp [ht, hk]) (.inl ht)⟩
  · exact ⟨_, rfl, begun_starts h (mine := fun x => x.type == 3 && x.w 0x04 % 4 == 2) (by simp [ht, hk]) (.inl ht)⟩

theorem startHandover_step {mine : Packet → Bool} (hm : mine x = true) (ht : x.type = 6) {d : Nat} (hd : x.w 0x18 % 2 = d) :
    let t := s.packetStep p mine
    Started s t p x tail ∧ SameMemory s t ∧
      t.handovers = s.handovers ++ [⟨s.nextId, x.queue, (s.queueD x.queue).ctx, some p, x.d 0x08, x.d 0x10, d == 1⟩] := by
  have hc : s.carryOut (s.ctxD (s.queueD x.queue).ctx) (s.queueD x.queue) { x with tail := tail } = s.startHandover { x with tail := tail } := by
    rw [State.carryOut, show Packet.type { x with tail := tail } = 6 from ht]
    rfl
  rw [packetStep_turn h hm, hc]
  refine ⟨h.started, ⟨rfl, rfl, rfl⟩, ?_⟩
  rw [← bit_zero_of_mod hd, ← h.id]
  rfl

theorem handover_starts {i : Instr} {d : Nat} (hi : (i, d) ∈ [(Instr.handoverToHost p, 0), (.handoverToDevice p, 1)]) (ht : x.type = 6)
    (hd : x.w 0x18 % 2 = d) : Comes i s fun t => Started s t p x tail ∧ SameMemory s t ∧
      t.handovers = s.handovers ++ [⟨s.nextId, x.queue, (s.queueD x.queue).ctx, some p, x.d 0x08, x.d 0x10, d == 1⟩] := by
  simp only [List.mem_cons, Prod.mk.injEq, List.not_mem_nil, or_false] at hi
  obtain ⟨rfl, rfl⟩ | ⟨rfl, rfl⟩ := hi
  · exact ⟨_, rfl, startHandover_step h (mine := fun x => x.type == 6 && !bit (x.w 0x18) 0) (by simp [ht, bit_zero_of_mod hd]) ht hd⟩
  · exact ⟨_, rfl, startHandover_step h (mine := fun x => x.type == 6 && bit (x.w 0x18) 0) (by simp [ht, bit_zero_of_mod hd]) ht hd⟩

theorem encode_starts (ht : x.type = 7) : Comes (.encode p) s fun t => Started s t p x tail ∧ SameMemory s t ∧
    ∃ y ∈ t.streams, y.packet = some p ∧ y.engine = x.w 0x18 % 16 ∧ y.stream = x.w 0x18 / 16 % 8 ∧ y.target = x.d 0x08 ∧ y.tiles = [] := by
  have hc : s.carryOut (s.ctxD (s.queueD x.queue).ctx) (s.queueD x.queue) { x with tail := tail } =
      s.startEncode (s.ctxD (s.queueD x.queue).ctx) { x with tail := tail } := by
    rw [State.carryOut, show Packet.type { x with tail := tail } = 7 from ht]
    rfl
  refine h.comes rfl (by simp [ht]) hc ⟨h.started, ⟨rfl, rfl, rfl⟩,
    _, mem_putBy_self .., congrArg some h.id, ?_, rfl, rfl, rfl⟩
  exact congrArg (· % 16) (Nat.div_one (x.w 0x18))

/-! ### HYPRES -/

/-- The hypothesis of a HYPRES that passed its checks is not the root. -/
theorem hypres_ne_root (ht : x.type = 8) : x.w 0x08 % 256 ≠ 0 := by
  have hc := congrArg Prod.fst h.2.2.2
  have hown : s.plainCauses (s.ctxD (s.queueD x.queue).ctx) x = [] := by
    unfold State.packetChecks at hc
    rw [if_neg (by omega)] at hc
    simp only [ht, List.append_eq_nil_iff] at hc
    exact hc.2
  unfold State.plainCauses at hown
  simp only [ht, List.append_eq_nil_iff] at hown
  have hbad := eq_false_of_failIf hown.2
  intro h0
  rw [h0] at hbad
  split at hbad <;> simp [refuteBad, confirmBad] at hbad

/-- A HYPRES that is not complete at once starts its resolve. -/
theorem startHypres_eq (hopen : bit (x.w 0x08) 8 = true → (hypAt (s.hypsAhead (s.queueD x.queue).ctx) (x.w 0x08 % 256)).st = .opened) :
    s.startHypres (s.queueD x.queue) { x with tail := tail } =
      (((s.begun { x with tail := tail }).startResolve (s.queueD x.queue).ctx (some p) none
        ⟨!bit (x.w 0x08) 8, x.w 0x08 % 256, none⟩).2).tidyHyps (s.queueD x.queue).ctx := by
  have hb : (bit (x.w 0x08) 8 && !((hypAt (s.hypsAhead (s.queueD x.queue).ctx) (x.w 0x08 % 256)).st == .opened)) = false := by
    cases hbit : bit (x.w 0x08) 8
    · rfl
    · rw [hopen hbit]; rfl
  unfold State.startHypres
  dsimp only
  refine (if_neg (ne_true_of_eq_false hb)).trans ?_
  rw [← h.id]
  rfl

omit h in
theorem carryOut_hypres (ht : x.type = 8) : s.carryOut (s.ctxD (s.queueD x.queue).ctx) (s.queueD x.queue) { x with tail := tail } =
    s.startHypres (s.queueD x.queue) { x with tail := tail } := by
  rw [State.carryOut, show Packet.type { x with tail := tail } = 8 from ht]
  rfl

/-- The resolve of a HYPRES, and the table after it when no other resolve of the context is under way. -/
theorem hypres_resolves
    (hopen : bit (x.w 0x08) 8 = true → (hypAt (s.hypsAhead (s.queueD x.queue).ctx) (x.w 0x08 % 256)).st = .opened) :
    let c := (s.queueD x.queue).ctx
    let r : ResolveOp := ⟨!bit (x.w 0x08) 8, x.w 0x08 % 256, none⟩
    let t := s.startHypres (s.queueD x.queue) { x with tail := tail }
    ∃ id todo, .resolve id c (some p) none todo ∈ t.running ∧ ((∀ r ∈ s.running, r.resolves c = false) → todo = none ∧ ∃ u : State,
      u.ctxs = s.ctxs ∧ t = (u.applyResolve c r).tidyHyps c) := by
  intro c r t
  have he : t = (((s.begun { x with tail := tail }).startResolve c (some p) none r).2).tidyHyps c := startHypres_eq h hopen
  obtain ⟨todo, hmem, hnone⟩ := mem_running_startResolve (s.begun { x with tail := tail }) c (some p) none r
  refine ⟨_, todo, by rw [he, (resolveOnly_tidyHyps ..).running]; exact hmem, fun halone => ⟨hnone halone,
    { s.begun { x with tail := tail } with nextId := s.nextId + 1, running := s.running ++ [.resolve s.nextId c (some p) none none] }, rfl, ?_⟩⟩
  rw [he]
  exact congrArg (State.tidyHyps · c) (startResolve_alone (s := s.begun { x with tail := tail }) halone ..)

theorem hypresConfirm_starts (ht : x.type = 8) (hk : x.w 0x08 / 256 % 2 = 0) : Comes (.hypresConfirm p) s fun t =>
    let c := (s.queueD x.queue).ctx
    ∃ id todo, .resolve id c (some p) none todo ∈ t.running ∧ ((∀ r ∈ s.running, r.resolves c = false) →
      todo = none ∧ (hypAt (t.ctxD c).hyps (x.w 0x08 % 256)).st ∈ [.merged, .free]) := by
  have hbit : bit (x.w 0x08) 8 = false := by rw [bit_eight, hk]; rfl
  have h0 := hypres_ne_root h ht
  obtain ⟨id, todo, hmem, halone⟩ := hypres_resolves h fun e => absurd e (by simp [hbit])
  refine h.comes rfl (by simp [ht, hbit]) (carryOut_hypres ht) ⟨id, todo, hmem, fun ha => ⟨(halone ha).1, ?_⟩⟩
  obtain ⟨-, u, hu, ht⟩ := halone ha
  have happly : u.applyResolve (s.queueD x.queue).ctx ⟨!bit (x.w 0x08) 8, x.w 0x08 % 256, none⟩ =
      u.confirm (s.queueD x.queue).ctx none (x.w 0x08 % 256) := by rw [hbit]; rfl
  rw [ht, happly]
  rcases hypAt_tidyHyps (u.confirm (s.queueD x.queue).ctx none (x.w 0x08 % 256)) (s.queueD x.queue).ctx h0 with e | ⟨-, e⟩
  · rw [e, hyps_confirm]
    rcases hypAt_confirmHyp_self h0 (u.ctxD (s.queueD x.queue).ctx).hyps with e | e <;> rw [e] <;> decide
  · rw [e]; decide

theorem hypresRefute_starts (ht : x.type = 8) (hk : x.w 0x08 / 256 % 2 = 1)
    (ho : (hypAt (s.hypsAhead (s.queueD x.queue).ctx) (x.w 0x08 % 256)).st = .opened) : Comes (.hypresRefute p) s fun t =>
    let c := (s.queueD x.queue).ctx
    ∃ id todo, .resolve id c (some p) none todo ∈ t.running ∧ ((∀ r ∈ s.running, r.resolves c = false) →
      todo = none ∧ (hypAt (t.ctxD c).hyps (x.w 0x08 % 256)).st = .refuted) := by
  have hbit : bit (x.w 0x08) 8 = true := by rw [bit_eight, hk]; rfl
  have h0 := hypres_ne_root h ht
  obtain ⟨id, todo, hmem, halone⟩ := hypres_resolves h fun _ => ho
  refine h.comes rfl (by simp [ht, hbit]) (carryOut_hypres ht) ⟨id, todo, hmem, fun ha => ⟨(halone ha).1, ?_⟩⟩
  obtain ⟨-, u, hu, ht⟩ := halone ha
  have hopen : (hypAt (u.ctxD (s.queueD x.queue).ctx).hyps (x.w 0x08 % 256)).st = .opened := by
    rw [hypsAhead_alone ha] at ho
    rwa [show u.ctxD (s.queueD x.queue).ctx = s.ctxD (s.queueD x.queue).ctx by simp only [State.ctxD, State.ctx?, hu]]
  have happly : u.applyResolve (s.queueD x.queue).ctx ⟨!bit (x.w 0x08) 8, x.w 0x08 % 256, none⟩ =
      u.refute (s.queueD x.queue).ctx (x.w 0x08 % 256) := by
    rw [hbit]
    exact if_pos hopen
  have hst : (hypAt ((u.refute (s.queueD x.queue).ctx (x.w 0x08 % 256)).ctxD (s.queueD x.queue).ctx).hyps (x.w 0x08 % 256)).st = .refuted := by
    rw [hyps_refute]
    exact hypAt_refuteHyp_self h0 hopen
  rw [ht, happly]
  rcases hypAt_tidyHyps (u.refute (s.queueD x.queue).ctx (x.w 0x08 % 256)) (s.queueD x.queue).ctx h0 with e | ⟨e | e, -⟩
  · rw [e, hst]
  · rw [hst] at e; exact HypState.noConfusion e
  · rw [hst] at e; exact HypState.noConfusion e

theorem hypresRefute_completes (ht : x.type = 8) (hk : x.w 0x08 / 256 % 2 = 1)
    (ho : (hypAt (s.hypsAhead (s.queueD x.queue).ctx) (x.w 0x08 % 256)).st ≠ .opened) : Comes (.hypresRefute p) s fun t => Gone t p := by
  have hbit : bit (x.w 0x08) 8 = true := by rw [bit_eight, hk]; rfl
  have hcomplete : s.startHypres (s.queueD x.queue) { x with tail := tail } = s.completePacket { x with tail := tail } := by
    have hb : (bit (x.w 0x08) 8 && !((hypAt (s.hypsAhead (s.queueD x.queue).ctx) (x.w 0x08 % 256)).st == .opened)) = true := by
      rw [hbit, Bool.true_and, Bool.not_eq_true', beq_eq_false_iff_ne]
      exact ho
    unfold State.startHypres
    exact if_pos hb
  refine h.comes rfl (by simp [ht, hbit]) ((carryOut_hypres ht).trans hcomplete) ?_
  rw [completePacket_frame]
  exact not_mem_filter_id h.id

end

/-- Settles O48: each packet type begins, resolves or completes as its words say. -/
theorem packetsStart : Obligations.PacketsStart :=
  fun _ _ _ _ h => ⟨nop_completes h, dispatch_starts h, draw_starts h, fun _ _ hi ht hk => copy_starts h hi ht hk,
    fun ht => ⟨_, rfl, begun_starts h (mine := (·.type == 5)) (by simp [ht]) (.inr ht)⟩, fun _ _ hi ht hd => handover_starts h hi ht hd,
    encode_starts h, hypresConfirm_starts h, hypresRefute_starts h, hypresRefute_completes h⟩

/-! ### SIGNAL (R105) -/

theorem exec_signalPacketWrite (p : Nat) (s : State) :
    exec (.signalPacketWrite p) s = .next (s.packetStep p fun x => x.type == 4 && !bit (x.w 0x18) 0) := rfl
theorem exec_signalPacketAdd (p : Nat) (s : State) :
    exec (.signalPacketAdd p) s = .next (s.packetStep p fun x => x.type == 4 && bit (x.w 0x18) 0) := rfl

/-- Settles O49: the packet writes its eight bytes at their home and is complete. -/
theorem signalPacketWrites : Obligations.SignalPacketWrites := by
  intro s p x tail wf i add pa hi h ht hadd hx hpa hclean nv
  have step {mine : Packet → Bool} (hm : mine x = true) (he : exec i s = .next (s.packetStep p mine)) {b : Bool}
      (hb : bit (x.w 0x18) 0 = b) {v : Nat} (hv : (if b then valueAt s pa 8 else 0) = v) : Comes i s fun t => Gone t p ∧
        (∀ k, k < 8 → memGet t.mem (pa + k) = BitVec.ofNat 8 ((x.d 0x10 + v) / 256 ^ k)) ∧
        ∀ a, a < Config.hbmEnd → a < pa ∨ pa + 8 ≤ a → memGet t.mem a = memGet s.mem a := by
    obtain ⟨t, hs, hsig⟩ := signalAt_hbm wf nv ⟨hpa, hclean⟩ hx (x.d 0x10) b false
    have hc : s.carryOut (s.ctxD (s.queueD x.queue).ctx) (s.queueD x.queue) { x with tail := tail } = t.completePacket { x with tail := tail } := by
      rw [State.carryOut, show Packet.type { x with tail := tail } = 4 from ht]
      change s.startSignal (s.queueD x.queue) { x with tail := tail } = _
      rw [State.startSignal, show Packet.w { x with tail := tail } 0x18 = x.w 0x18 from rfl, hb,
        show s.signalAt (s.queueD x.queue).ctx (Packet.d { x with tail := tail } 0x08) (Packet.d { x with tail := tail } 0x10) b false =
          some t from hs]
    refine h.comes he hm hc ?_
    rw [completePacket_frame]
    exact ⟨not_mem_filter_id h.id, hv ▸ hsig.bytes, hsig.others⟩
  simp only [leNat_mem_range]
  simp only [List.mem_cons, Prod.mk.injEq, List.not_mem_nil, or_false] at hi
  obtain ⟨rfl, rfl⟩ | ⟨rfl, rfl⟩ := hi
  · have hb := bit_zero_of_mod hadd
    exact step (by simp [ht, hb]) (exec_signalPacketWrite p s) hb (by simp)
  · have hb := bit_zero_of_mod hadd
    exact step (by simp [ht, hb]) (exec_signalPacketAdd p s) hb (by simp)

end Sys2Proof.Claims
end

section
/-! The end of packets: copies, waits and the release of successors (R105, R108, R110, R250, R373). -/

namespace Sys2Proof.Machine

/-! ### What the end of a packet keeps -/

theorem memoryOnly_writePlan (ctx : Nat) (p : Nat → Bool) : ∀ (plan : List (Option (Loc × Byte))) (i : Nat) (s : State),
    MemoryOnly s (s.writePlan ctx p i plan)
  | [], _, s => .refl s
  | none :: r, i, s => memoryOnly_writePlan ctx p r (i + 1) s
  | some (l, b) :: r, i, s =>
    .trans (.ite (memoryOnly_writeByte ..) (.refl s)) (memoryOnly_writePlan ctx p r (i + 1) (if p i then s.writeByte (agentOf ctx) l b else s))

theorem memoryOnly_signalAt {s t : State} {ctx addr value : Nat} {add tail : Bool} (h : s.signalAt ctx addr value add tail = some t) :
    MemoryOnly s t := by
  unfold State.signalAt at h
  dsimp only at h
  split at h
  · cases h
  · obtain ⟨-, h⟩ := Option.ite_none_left_eq_some.mp h
    cases h
    exact (memoryOnly_systemRelease s).trans (memoryOnly_rmw ..)

theorem memoryOnly_tailSignal {s t : State} {ctx : Nat} {p : Packet} (h : s.tailSignal ctx p = some t) : MemoryOnly s t := by
  unfold State.tailSignal at h
  split at h
  · cases h
    exact .refl s
  · exact memoryOnly_signalAt h

theorem memoryOnly_waitValue (s : State) (c : Ctx) (p : Packet) : MemoryOnly s (s.waitValue c p).1 := by
  unfold State.waitValue
  split
  · exact .refl s
  · exact .ite (memoryOnly_hostPurge ..) (.refl s)

/-- A packet that ends, with its signal or in error, has left its queue. -/
theorem packets_endWithTail (s : State) (ctx : Nat) (p : Packet) : (s.endWithTail ctx p).packets = s.packets.filter (·.id != p.id) := by
  unfold State.endWithTail
  split
  · next t ht => rw [completePacket_frame, (memoryOnly_tailSignal ht).packets]
  · rw [failStarted_frame]

/-- A packet without tail record is complete at once. -/
theorem endWithTail_of_no_tail (s : State) (ctx : Nat) {p : Packet} (h : p.tail = []) : s.endWithTail ctx p = s.completePacket p := by
  unfold State.endWithTail State.tailSignal
  rw [h]
  rfl

/-- What a put of a packet with the same number and state keeps of the whole list. -/
theorem map_putBy_packet {α : Type} {f : Packet → α} {x : Packet} : ∀ {l : List Packet} {y : Packet}, l.find? (fun y => y.id == x.id) = some y → f x = f y →
    (putBy (fun y => y.id == x.id) x l).map f = l.map f
  | z :: r, y, h, hf => by
    unfold putBy
    split
    · next hz =>
      rw [List.find?_cons, hz, Option.some.injEq] at h
      simp [hf, h]
    · next hz =>
      rw [List.find?_cons, eq_false_of_ne_true hz] at h
      simp [map_putBy_packet h hf]

end Sys2Proof.Machine

namespace Sys2Proof.Claims

open Sys2Proof Sys2Proof.Machine

/-! ### COPY (R250) -/

/-- Bytes written one after the other to places of local HBM, every place given one value, stand there, and no other cell changes. -/
theorem memGet_writePlan_hbm (ctx : Nat) : ∀ (l : List (Nat × Byte)) (i : Nat) (s : State), Memory.wf s.mem = true →
    (∀ x ∈ l, x.1 < Config.hbmEnd) → (∀ x ∈ l, ∀ y ∈ l, x.1 = y.1 → x.2 = y.2) →
    let t := s.writePlan ctx (fun _ => true) i (l.map fun x => some (hbmLoc x.1, x.2))
    (∀ x ∈ l, memGet t.mem x.1 = x.2) ∧ ∀ a, (∀ x ∈ l, x.1 ≠ a) → memGet t.mem a = memGet s.mem a
  | [], _, _, _, _, _ => ⟨by simp, fun _ _ => rfl⟩
  | x :: r, i, s, wf, hb, hf => by
    have hx : x.1 < Config.hbmEnd := hb x List.mem_cons_self
    have hm := mem_writeByte_hbm (rootWriter_zero s (w := agentOf ctx) rfl) hx x.2 false
    obtain ⟨ih, ihOther⟩ := memGet_writePlan_hbm ctx r (i + 1) (s.writeByte (agentOf ctx) (hbmLoc x.1) x.2) (writeByte_wf _ _ _ _ _ wf)
      (fun y hy => hb y (List.mem_cons_of_mem _ hy)) fun y hy z hz => hf y (List.mem_cons_of_mem _ hy) z (List.mem_cons_of_mem _ hz)
    rw [hm] at ihOther
    refine ⟨fun y hy => ?_, fun a ha => ?_⟩
    · by_cases hr : ∃ z ∈ r, z.1 = y.1
      · obtain ⟨z, hz, he⟩ := hr
        rw [← he, ← hf z (List.mem_cons_of_mem _ hz) y hy he]
        exact ih z hz
      · simp only [not_exists, not_and] at hr
        obtain rfl | hy := List.mem_cons.mp hy
        · exact (ihOther _ hr).trans (memGet_memPut _ wf)
        · exact absurd rfl (hr y hy)
    · exact (ihOther a fun z hz => ha z (List.mem_cons_of_mem _ hz)).trans
        (memGet_memPut_other (Ne.symm (ha x List.mem_cons_self)) _ _)

/-- A clean byte of local HBM as an engine reads it. -/
theorem rootViewByte_hbm {s : State} (nv : NoVersions s) {c : Ctx} {va pa : Nat} (hx : s.xlate c va .rd = .ok (hbmLoc pa)) (h : pa < Config.hbmEnd)
    (hp : pa ∉ s.poison) : s.rootViewByte c va = (memGet s.mem pa, false) := by
  have hnv : NoVersions (s.l2Read c.num pa) := by rwa [NoVersions, ctxs_l2Read]
  have hv : (s.homeViewByte c 0 (hbmLoc pa)).2 = (memGet s.mem pa, false) := by
    change (s.l2Read c.num pa).viewByte c 0 (hbmLoc pa) = _
    rw [viewByte_hbm hnv c h, l2Read_mem, poison_l2Read]
    simp [hp]
  unfold State.rootViewByte
  rw [hx]
  dsimp only
  rw [hv]
  rfl

/-- The places and bytes of a copy, row after row. -/
def copyList (x : Packet) (src : Nat → Nat → Byte) (dst : Nat → Nat → Nat) : List (Nat × Byte) :=
  (List.range x.rows).flatMap fun r => (List.range (x.d 0x18)).map fun i => (dst r i, src r i)

theorem mem_copyList {x : Packet} {src : Nat → Nat → Byte} {dst : Nat → Nat → Nat} {y : Nat × Byte} :
    y ∈ copyList x src dst ↔ ∃ r i, r < x.rows ∧ i < x.d 0x18 ∧ (dst r i, src r i) = y := by
  simp only [copyList, List.mem_flatMap, List.mem_map, List.mem_range]
  constructor
  · rintro ⟨r, hr, i, hi, rfl⟩
    exact ⟨r, i, hr, hi, rfl⟩
  · rintro ⟨r, i, hr, hi, rfl⟩
    exact ⟨r, hr, i, hi, rfl⟩

theorem copyPlan_of_moves {s : State} {c : Ctx} {x : Packet} {src : Nat → Nat → Byte} {dst : Nat → Nat → Nat} (h : CopyMoves s c x src dst) :
    s.copyPlan c x = (copyList x src dst).map fun y => some (hbmLoc y.1, y.2) := by
  obtain ⟨-, nv, hbytes, -⟩ := h
  unfold State.copyPlan copyList
  rw [List.map_flatMap]
  refine List.flatMap_congr fun r hr => ?_
  rw [List.map_map]
  refine List.map_congr_left fun i hi => ?_
  obtain ⟨hfill, hread, hdst, -⟩ := hbytes r i (List.mem_range.mp hr) (List.mem_range.mp hi)
  have hsrc : s.copySrc c x r i = some (src r i) := by
    unfold State.copySrc
    split
    · next hk => rw [hfill hk]
    · next hk =>
      obtain ⟨pa, hx, hlt, hp, hb⟩ := hread hk
      rw [rootViewByte_hbm nv hx hlt hp, hb]
      rfl
  simp only [hsrc, hdst]
  rfl

section
variable {s : State} {p : Nat} {x : Packet} (h : s.packet? p = some x)
include h

theorem copy_leaves (done : Nat) (ht : x.type = 3) (hs : x.st = .started) (he : s.onEngine x = true) :
    Comes (.copyEngineDone p done) s fun t => Gone t p := by
  have hstep : ¬(x.type ≠ 3 ∨ x.st ≠ .started ∨ (!s.onEngine x) = true) := by simp [ht, hs, he]
  have hx := id_of_packet? h
  change ∃ t, execCopyEngineDone p done s = _ ∧ _
  unfold execCopyEngineDone
  simp only [h, if_neg hstep]
  split
  · refine ⟨_, rfl, ?_⟩
    rw [Gone, packets_endWithTail]
    exact not_mem_filter_id hx
  · refine ⟨_, rfl, ?_⟩
    rw [Gone, failStarted_frame]
    exact not_mem_filter_id hx

theorem copy_moves (done : Nat) {src : Nat → Nat → Byte} {dst : Nat → Nat → Nat} (ht : x.type = 3) (hs : x.st = .started) (he : s.onEngine x = true)
    (htail : x.tail = []) (hm : CopyMoves s (s.ctxD (s.queueD x.queue).ctx) x src dst) : Comes (.copyEngineDone p done) s fun t =>
      (∀ r i, r < max 1 (x.w 0x20) → i < x.d 0x18 → memGet t.mem (dst r i) = src r i) ∧
      ∀ a, (∀ r i, r < max 1 (x.w 0x20) → i < x.d 0x18 → dst r i ≠ a) → memGet t.mem a = memGet s.mem a := by
  have hstep : ¬(x.type ≠ 3 ∨ x.st ≠ .started ∨ (!s.onEngine x) = true) := by simp [ht, hs, he]
  have hplan := copyPlan_of_moves hm
  obtain ⟨wf, -, hbytes, hinj⟩ := hm
  have hmem := memGet_writePlan_hbm (s.queueD x.queue).ctx (copyList x src dst) 0 s wf
    (by
      intro y hy
      obtain ⟨r, i, hr, hi, rfl⟩ := mem_copyList.mp hy
      exact (hbytes r i hr hi).2.2.2)
    (by
      intro y hy z hz e
      obtain ⟨r, i, hr, hi, rfl⟩ := mem_copyList.mp hy
      obtain ⟨k, j, hk, hj, rfl⟩ := mem_copyList.mp hz
      obtain ⟨rfl, rfl⟩ := hinj r i k j hr hi hk hj e
      rfl)
  obtain ⟨written, others⟩ := hmem
  refine ⟨(s.writePlan (s.queueD x.queue).ctx (fun _ => true) 0 ((copyList x src dst).map fun y => some (hbmLoc y.1, y.2))).completePacket x, ?_, ?_⟩
  · change execCopyEngineDone p done s = _
    unfold execCopyEngineDone
    simp only [h, if_neg hstep, hplan]
    rw [if_pos (by simp), endWithTail_of_no_tail _ _ htail]
  · rw [completePacket_frame]
    exact ⟨fun r i hr hi => written _ (mem_copyList.mpr ⟨r, i, hr, hi, rfl⟩), fun a ha => others a fun y hy => by
      obtain ⟨r, i, hr, hi, rfl⟩ := mem_copyList.mp hy
      exact ha r i hr hi⟩

/-! ### WAIT (R105) -/

theorem wait_polls {s1 : State} {v : Nat} (ht : x.type = 5) (hs : x.st = .started)
    (hv : s.waitValue (s.ctxD (s.queueD x.queue).ctx) x = (s1, some v)) : Comes (.waitPoll p) s fun t =>
      (x.waitHolds v = true → Gone t p) ∧ (x.waitHolds v = false → t = s1) := by
  have hexec : exec (.waitPoll p) s = .next (if x.waitHolds v then s1.completePacket x else s1) := by
    change execWaitPoll p s = _
    unfold execWaitPoll
    simp only [h, hv, ht, hs, ne_eq, not_true_eq_false, or_self, if_false]
  refine ⟨_, hexec, fun hw => ?_, fun hw => by rw [hw]; rfl⟩
  rw [if_pos hw, Gone, completePacket_frame]
  exact not_mem_filter_id (id_of_packet? h)

theorem wait_times_out {q : Queue} {s1 : State} {v : Nat} (ht : x.type = 5) (hs : x.st = .started) (hq : s.queue? x.queue = some q)
    (he : q.error = false) (h0 : x.w 0x24 ≠ 0) (hlate : x.since + 1000 * x.w 0x24 ≤ s.ns)
    (hv : s.waitValue (s.ctxD (s.queueD x.queue).ctx) x = (s1, some v)) (hw : x.waitHolds v = false) :
    Comes (.waitTimeout p) s fun t => t.packet? p = some { x with st := .read } ∧
      t.queue? x.queue = some { q with error := true, cause := 0x07, errIndex := x.index, errPacket := some p, errUnread := false } ∧
      t.vectors = s.vectors ++ [q.vector] := by
  have hexec : exec (.waitTimeout p) s =
      .next ((s.setPacket { x with st := .read }).queueError x.queue eTIMEOUT x.index (some x.id) false) := by
    change execWaitTimeout p s = _
    unfold execWaitTimeout
    simp [h, hv, ht, hs, hq, he, h0, hlate, hw]
  refine ⟨_, hexec, ?_⟩
  rw [queueError_of_ok (s := s.setPacket { x with st := .read }) hq he]
  exact ⟨packet?_setPacket_self s (id_of_packet? h :), by rw [id_of_packet? h]; exact queue?_setQueue_self _ (num_of_queue? hq :), rfl⟩

/-! ### PACKET_COMPLETE (R110, R373) -/

/-- A finished packet with successors left releases the next one. -/
theorem exec_release {k : Nat} {r : List Nat} (hs : x.st = .finished) (hl : x.left = k :: r) :
    exec (.packetComplete p) s = .next (s.releaseNext (s.queueD x.queue).ctx x) := by
  change execPacketComplete p s = _
  unfold execPacketComplete
  simp [h, hs, hl]

theorem successor_read {k : Nat} {r : List Nat} {s1 : State} {bs : List Byte} (hs : x.st = .finished) (hl : x.left = k :: r)
    (hr : s.readRoot (s.ctxD (s.queueD x.queue).ctx) (x.succ k) 64 = (s1, some bs)) : Comes (.packetComplete p) s fun t =>
      t.packet? p = some { x with left := r } ∧ t.queues = s.queues ∧ ∃ y ∈ t.packets, y.parent = some p ∧ y.place = k ∧ y.queue = x.queue ∧
        y.index = x.index ∧ y.depth = x.depth + 1 ∧ y.st = .read ∧ y.words = leWords bs := by
  have hx := id_of_packet? h
  have hmem : MemoryOnly s s1 := by
    have := memoryOnly_readRoot s (s.ctxD (s.queueD x.queue).ctx) (x.succ k) 64
    rwa [hr] at this
  refine ⟨_, exec_release h hs hl, ?_⟩
  simp only [State.releaseNext, hl, hr]
  refine ⟨?_, hmem.queues, _, List.mem_append_right _ (List.mem_singleton_self _), congrArg some hx, rfl, rfl, rfl, rfl, rfl, rfl⟩
  have hput := find_putBy_num Packet.id { x with left := r } s1.packets p
  rw [if_pos hx.symm] at hput
  exact List.find?_append.trans (congrArg (Option.or · _) hput)

theorem successor_unread {k : Nat} {r : List Nat} {s1 : State} {q : Queue} (hs : x.st = .finished) (hl : x.left = k :: r)
    (hr : s.readRoot (s.ctxD (s.queueD x.queue).ctx) (x.succ k) 64 = (s1, none)) (hq : s.queue? x.queue = some q) (he : q.error = false) :
    Comes (.packetComplete p) s fun t => t.packet? p = some { x with left := [] } ∧ t.vectors = s.vectors ++ [q.vector] ∧
        t.packets.map (fun y => (y.id, y.st)) = s.packets.map (fun y => (y.id, y.st)) ∧ t.queue? x.queue =
          some { q with error := true, cause := 0x06, errIndex := x.index, errPacket := none, errUnread := false } := by
  have hx := id_of_packet? h
  have hmem : MemoryOnly s s1 := by
    have := memoryOnly_readRoot s (s.ctxD (s.queueD x.queue).ctx) (x.succ k) 64
    rwa [hr] at this
  have hq1 : s1.queue? x.queue = some q := (hmem.queue? _).trans hq
  refine ⟨_, exec_release h hs hl, ?_⟩
  simp only [State.releaseNext, hl, hr]
  rw [queueError_of_ok (s := s1.setPacket { x with left := [] }) hq1 he]
  refine ⟨packet?_setPacket_self s1 (hx :), congrArg (· ++ [q.vector]) hmem.vectors, ?_, queue?_setQueue_self _ (num_of_queue? hq :)⟩
  change (putBy _ _ s1.packets).map _ = _
  rw [hmem.packets]
  have hfind : s.packets.find? (fun y => y.id == x.id) = some x := by rw [hx]; exact h
  exact map_putBy_packet (x := { x with left := [] }) hfind rfl

theorem finished_completes (hs : x.st = .finished) (hl : x.left = []) (hnone : ∀ y ∈ s.packets, y.parent ≠ some p) :
    Comes (.packetComplete p) s fun t => Gone t p ∧ SameMemory s t ∧
      (∀ q, s.queue? x.queue = some q → x.header / 1024 % 2 = 1 → t.vectors = s.vectors ++ [q.vector]) := by
  have hx := id_of_packet? h
  have hexec : exec (.packetComplete p) s = .next (s.completePacket x) := by
    change execPacketComplete p s = _
    unfold execPacketComplete
    have hany : (s.packets.any fun y => y.parent == some x.id) = false := by simpa [hx] using hnone
    simp [h, hs, hl, hany]
  refine ⟨_, hexec, ?_, ?_, fun q hq hi => ?_⟩
  · rw [completePacket_frame]
    exact not_mem_filter_id hx
  · rw [completePacket_frame]
    exact ⟨rfl, rfl, rfl⟩
  · have hbit : bit x.header 10 = true := by
      rw [bit, show x.header / 2 ^ 10 % 2 = 1 from hi]
      rfl
    unfold State.completePacket
    dsimp only
    rw [if_pos hbit, hq, dropPacket_frame]
    rfl

end

/-- Settles O50: copies, waits and finished packets end as their words say. -/
theorem packetsEnd : Obligations.PacketsEnd := by
  intro s p x h
  exact ⟨fun done => copy_leaves h done, fun done _ _ => copy_moves h done, fun _ _ => wait_polls h, fun _ _ _ => wait_times_out h,
    fun _ _ hs hl => ⟨fun _ _ => successor_read h hs hl, fun _ _ => successor_unread h hs hl⟩, finished_completes h⟩

end Sys2Proof.Claims
end

section
/-! What memory operations leave of the masts and of the contexts: only L1 changes of a mast (R234, R341), and of another context only
the copies that merged versions lose to a root write (R338). -/

namespace Sys2Proof.Machine

/-! ### Homes: neither masts nor contexts differ -/

/-- Only what lies behind the caches of the masts differs. -/
def HomeOnly (s t : State) : Prop := t = { s with
  mem := t.mem, poison := t.poison, nsec := t.nsec, dirtyComp := t.dirtyComp, hostCache := t.hostCache, l2 := t.l2, wlog := t.wlog
  peers := t.peers }

namespace HomeOnly

theorem refl (s : State) : HomeOnly s s := rfl
theorem trans {s t u : State} (h : HomeOnly s t) (k : HomeOnly t u) : HomeOnly s u := by
  unfold HomeOnly at *
  rw [k, h]
theorem ite {s a b : State} {p : Prop} [Decidable p] (ha : HomeOnly s a) (hb : HomeOnly s b) : HomeOnly s (if p then a else b) := by
  split <;> assumption
theorem foldl {α : Type} {f : State → α → State} (h : ∀ s x, HomeOnly s (f s x)) : ∀ (l : List α) (s : State), HomeOnly s (l.foldl f s)
  | [], s => refl s
  | x :: r, s => (h s x).trans (foldl h r (f s x))

variable {s t : State} (h : HomeOnly s t)
include h
theorem masts : t.masts = s.masts := (congrArg State.masts (show t = _ from h) :)
theorem ctxs : t.ctxs = s.ctxs := (congrArg State.ctxs (show t = _ from h) :)
theorem ctx? (n : Nat) : t.ctx? n = s.ctx? n := by rw [State.ctx?, h.ctxs]; rfl
theorem ctxD (n : Nat) : t.ctxD n = s.ctxD n := by rw [State.ctxD, h.ctx?]; rfl
theorem mast (n : Nat) : t.mast n = s.mast n := by rw [State.mast, h.masts]; rfl

end HomeOnly

theorem homeOnly_homeWrite (s : State) (pa : Nat) (b : Byte) (bad : Bool) : HomeOnly s (s.homeWrite pa b bad) := by
  unfold State.homeWrite
  exact .ite rfl (.ite rfl rfl)
theorem homeOnly_hostFill (s : State) (pa : Nat) : HomeOnly s (s.hostFill pa) := by
  unfold State.hostFill
  generalize List.range 32 = l
  exact .ite rfl rfl
theorem homeOnly_hostPurge (s : State) (pa : Nat) : HomeOnly s (s.hostPurge pa) := rfl
theorem homeOnly_systemRelease (s : State) : HomeOnly s s.systemRelease := rfl
theorem homeOnly_l2Touch (s : State) (ctx pa : Nat) : HomeOnly s (s.l2Touch ctx pa) := rfl
theorem homeOnly_l2Read (s : State) (ctx pa : Nat) : HomeOnly s (s.l2Read ctx pa) :=
  .trans (.ite (.refl _) (homeOnly_l2Touch ..)) (homeOnly_hostFill ..)
theorem homeOnly_logWrite (s : State) (pa : Nat) (m : Option Nat) : HomeOnly s (s.logWrite pa m) := rfl
theorem homeOnly_peerWrite (s : State) (port pa : Nat) (b : Byte) (bad : Bool) : HomeOnly s (s.peerWrite port pa b bad) := by
  unfold State.peerWrite
  exact .ite rfl rfl
theorem homeOnly_openBlock (s : State) (pa : Nat) : HomeOnly s (s.openBlock pa) := by
  unfold State.openBlock
  generalize List.range 256 = l
  dsimp only
  split
  · exact (HomeOnly.foldl (f := fun (a : State) i => a.homeWrite (pa / 256 * 256 + i) ((s.decodedBlock pa).1.getD i (0, true)).1
      ((s.decodedBlock pa).1.getD i (0, true)).2) (fun _ _ => homeOnly_homeWrite ..) l s).trans rfl
  · rfl
theorem homeOnly_leafWrite (s : State) (pa : Nat) (comp : Bool) (b : Byte) (bad : Bool) : HomeOnly s (s.leafWrite pa comp b bad) :=
  .trans (.ite (homeOnly_openBlock ..) (.refl _)) (homeOnly_homeWrite ..)
theorem homeOnly_hostDirect (w : Writer) : ∀ (bs : List (Byte × Bool)) (s : State) (pa : Nat), HomeOnly s (s.hostDirect w pa bs)
  | [], _, _ => rfl
  | (b, bad) :: r, s, pa => by
    have hb : HomeOnly s (State.logWrite { s with
      mem := memPut pa b s.mem, poison := if bad then nsInsert pa s.poison else s.poison.filter (· != pa) } pa w.mast) := rfl
    exact hb.trans (homeOnly_hostDirect w r _ _)

/-! ### Masts: only L1 and what sampler jobs hold differs -/

/-- Every mast is as it was but for its L1 and its sampler jobs. -/
structure L1Only (s t : State) : Prop where
  mast : ∀ k, t.mast k = { s.mast k with l1 := (t.mast k).l1, sjobs := (t.mast k).sjobs }

namespace L1Only

theorem refl (s : State) : L1Only s s := ⟨fun _ => rfl⟩
theorem trans {s t u : State} (h : L1Only s t) (k : L1Only t u) : L1Only s u := ⟨fun n => by rw [k.mast n, h.mast n]⟩
theorem ite {s a b : State} {p : Prop} [Decidable p] (ha : L1Only s a) (hb : L1Only s b) : L1Only s (if p then a else b) := by
  split <;> assumption
theorem of_masts {s t : State} (h : t.masts = s.masts) : L1Only s t := ⟨fun n => by
  rw [show t.mast n = s.mast n by rw [State.mast, h]; rfl]⟩
theorem of_home {s t : State} (h : HomeOnly s t) : L1Only s t := of_masts h.masts
/-- A put of a mast that differs there. -/
theorem setMast {s : State} {m : Mast} {k : Nat} (h : m = { s.mast k with l1 := m.l1, sjobs := m.sjobs }) : L1Only s (s.setMast m) := ⟨fun n => by
  rw [mast_setMast]
  split
  · next hn =>
    have hk : m.num = k := by rw [h]; exact mast_num s k
    rw [hn, hk]
    exact h
  · rfl⟩

/-- What does not depend on them is as it was. -/
theorem get {s t : State} (h : L1Only s t) (k : Nat) {α : Type} {f : Mast → α} (hf : ∀ m l j, f { m with l1 := l, sjobs := j } = f m) :
    f (t.mast k) = f (s.mast k) := by
  rw [h.mast k]
  exact hf _ _ _
theorem staging {s t : State} (h : L1Only s t) (k : Nat) : (t.mast k).staging = (s.mast k).staging := h.get k (f := Mast.staging) fun _ _ _ => rfl

end L1Only

theorem l1Only_onMast (s : State) (m : Option Nat) {f : Mast → Mast} (hf : ∀ m, f m = { m with l1 := (f m).l1 }) : L1Only s (s.onMast m f) := by
  cases m with
  | none => exact .refl s
  | some n => exact .setMast (k := n) (by rw [hf])

theorem l1Only_writeByte (s : State) (w : Writer) (l : Loc) (b : Byte) (bad : Bool) : L1Only s (s.writeByte w l b bad) := by
  unfold State.writeByte
  split
  · exact .of_home (homeOnly_peerWrite ..)
  · refine .ite (.refl _) (.ite (.ite (.refl _) ?_) ?_)
    · have hm : L1Only s { s with ctxs := s.ctxs.map fun x => x.maskVersions 0 l.pa } := .of_masts rfl
      exact (hm.trans (.of_home (homeOnly_leafWrite ..))).trans ((l1Only_onMast _ _ fun _ => rfl).trans (.of_masts rfl))
    · have hm : L1Only s (s.setCtx (((s.ctxD w.ctx).maskVersions (resolveHyp (s.ctxD w.ctx).hyps w.hyp) l.pa).putVersion
        (resolveHyp (s.ctxD w.ctx).hyps w.hyp) l b bad)) := .of_masts rfl
      exact (hm.trans (l1Only_onMast _ _ fun _ => rfl)).trans (.of_masts rfl)

theorem l1Only_writeBytes (w : Writer) : ∀ (bs : List (Byte × Bool)) (s : State) (l : Loc), L1Only s (s.writeBytes w l bs)
  | [], _, _ => .refl _
  | (b, p) :: r, s, l => (l1Only_writeByte s w l b p).trans (l1Only_writeBytes w r _ _)
theorem l1Only_writePhys (s : State) (pa : Nat) (bs : List Byte) : L1Only s (s.writePhys pa bs) := l1Only_writeBytes ..

theorem l1Only_rmw (s : State) (c : Ctx) (w : Writer) (l : Loc) (n scope : Nat) (exch : Bool) (f : Nat → Option Nat) :
    L1Only s (s.rmw c w l n scope exch f).1 := by
  unfold State.rmw
  dsimp only
  refine L1Only.trans ?_ (l1Only_onMast _ _ fun _ => rfl)
  refine L1Only.trans (t := if (scope == 3 && l.port.isNone && isHost l.pa) = true then s.hostPurge l.pa
    else if l.port.isNone = true then s.l2Read w.ctx l.pa else s)
    (.of_home (.ite (homeOnly_hostPurge ..) (.ite (homeOnly_l2Read ..) (.refl _)))) ?_
  generalize f _ = o
  cases o with
  | none => exact .refl _
  | some x => exact .ite (.of_home (homeOnly_hostDirect ..)) (l1Only_writeBytes ..)

theorem l1Only_mergeEntries (mast : Nat) : ∀ (es : List Stage0) (s : State), L1Only s (s.mergeEntries mast es)
  | [], _ => .refl _
  | _ :: r, _ => (l1Only_rmw ..).trans (l1Only_mergeEntries mast r _)

/-! ### Reads through L1 -/

/-- A read through L1 changes no context; it brings lines in. -/
structure Reads (s t : State) : Prop where
  memory : MemoryOnly s t
  masts : L1Only s t
  ctxs : t.ctxs = s.ctxs

namespace Reads

theorem refl (s : State) : Reads s s := ⟨.refl s, .refl s, rfl⟩
theorem trans {s t u : State} (h : Reads s t) (k : Reads t u) : Reads s u :=
  ⟨h.memory.trans k.memory, h.masts.trans k.masts, k.ctxs.trans h.ctxs⟩

end Reads

theorem reads_l1Fill (s : State) (m : Nat) (c : Ctx) (h : Nat) (l : Loc) : Reads s (s.l1Fill m c h l) := by
  have hh := homeOnly_l2Read s c.num l.pa
  unfold State.l1Fill
  dsimp only
  split
  · exact .refl s
  · refine ⟨(memoryOnly_l2Read ..).trans (memoryOnly_setMast ..), .trans (.of_home hh) (.setMast (k := m) ?_), hh.ctxs⟩
    rw [hh.mast]

theorem reads_l1Byte (s : State) (m : Nat) (c : Ctx) (h : Nat) (l : Loc) : Reads s (s.l1Byte m c h l).1 := by
  unfold State.l1Byte
  split
  · exact .refl s
  · dsimp only
    split <;> exact reads_l1Fill ..

theorem reads_l1Bytes (m : Nat) (c : Ctx) (h : Nat) : ∀ (n : Nat) (s : State) (l : Loc), Reads s (s.l1Bytes m c h l n).1
  | 0, s, _ => .refl s
  | n + 1, s, l => (reads_l1Byte s m c h l).trans (reads_l1Bytes m c h n _ _)

theorem reads_l1Segs (m : Nat) (c : Ctx) (h : Nat) : ∀ (ls : List (Loc × Nat)) (s : State), Reads s (s.l1Segs m c h ls).1
  | [], s => .refl s
  | (l, n) :: r, s => (reads_l1Bytes m c h n s l).trans (reads_l1Segs m c h r _)

theorem reads_copySource (s : State) (m : Nat) (c : Ctx) (h : Nat) (ls : List (Loc × Nat)) : Reads s (s.copySource m c h ls).1 :=
  reads_l1Segs m c h ls s

/-- What a copy is to write is read through L1. -/
theorem reads_imageFor (s : State) (t : Team) (c : Ctx) (a : AsyncCopy) : Reads s (s.imageFor t c a).1 := by
  unfold State.imageFor
  split
  · exact .refl s
  · split
    · unfold State.asyncImage
      split
      · exact .refl s
      · exact reads_copySource ..
    · split
      · unfold State.groupImage
        dsimp only
        split <;> exact (reads_copySource ..).trans (reads_copySource ..)
      · unfold State.plane7Image
        split
        · exact .refl s
        · exact reads_copySource ..
    · exact .refl s

/-! ### Copies to memory -/

theorem reads_holdBytes (s : State) (m : Nat) (p : SampleJob → Bool) (bs : List ((Option Nat × Nat) × Byte × Bool)) :
    Reads s (s.holdBytes m p bs) := by
  unfold State.holdBytes
  by_cases h : (s.mast m).sjobs.any p = true
  · dsimp only
    rw [if_pos h]
    exact ⟨memoryOnly_setMast .., .setMast (k := m) rfl, rfl⟩
  · dsimp only
    rw [if_neg h]
    exact .refl s

theorem reads_shieldJobs (s : State) (m team tid : Nat) (c : Ctx) (h : Nat) (segs : List (Loc × Nat)) :
    Reads s (s.shieldJobs m team tid c h segs) := by
  unfold State.shieldJobs
  dsimp only
  split
  · exact reads_holdBytes ..
  · exact .refl s

theorem memoryOnly_writeWhere (w : Writer) (p : Nat → Bool) : ∀ (bs : List (Loc × Byte × Bool)) (i : Nat) (s : State),
    MemoryOnly s (s.writeWhere w p i bs)
  | [], _, s => .refl s
  | (l, b, bad) :: r, i, s =>
    .trans (.ite (memoryOnly_writeByte ..) (.refl s)) (memoryOnly_writeWhere w p r (i + 1) (if p i then s.writeByte w l b bad else s))
theorem l1Only_writeWhere (w : Writer) (p : Nat → Bool) : ∀ (bs : List (Loc × Byte × Bool)) (i : Nat) (s : State),
    L1Only s (s.writeWhere w p i bs)
  | [], _, s => .refl s
  | (l, b, bad) :: r, i, s =>
    .trans (.ite (l1Only_writeByte ..) (.refl s)) (l1Only_writeWhere w p r (i + 1) (if p i then s.writeByte w l b bad else s))

theorem memoryOnly_copyOut (s : State) (t : Team) (c : Ctx) (a : AsyncCopy) (o n : Nat) (p : Nat → Bool) : MemoryOnly s (s.copyOut t c a o n p).1 :=
  (reads_shieldJobs ..).memory.trans (memoryOnly_writeWhere ..)
theorem l1Only_copyOut (s : State) (t : Team) (c : Ctx) (a : AsyncCopy) (o n : Nat) (p : Nat → Bool) : L1Only s (s.copyOut t c a o n p).1 :=
  (reads_shieldJobs ..).masts.trans (l1Only_writeWhere ..)

end Sys2Proof.Machine

namespace Sys2Proof.Claims

open Sys2Proof Sys2Proof.Machine

/-! ### Contexts: what another context's work leaves of them (R338) -/

/-- Context n stays, and every other one is as it was but for what a root write takes from merged versions. -/
structure CtxSafe (n : Nat) (s t : State) : Prop where
  stays : (s.ctx? n).isSome = true → (t.ctx? n).isSome = true
  others : (s.ctx? n).isSome = true → OthersKept s t n

theorem othersKept_of_ctx? {s t : State} {n : Nat} (h : ∀ m, m ≠ n → t.ctx? m = s.ctx? m) : OthersKept s t n := fun m hm => by
  rw [h m hm]
  exact ⟨id, fun c hc => ⟨c, hc, rfl, fun _ => rfl⟩⟩

theorem OthersKept.trans {s t u : State} {n : Nat} (h : OthersKept s t n) (k : OthersKept t u n) : OthersKept s u n := fun m hm => by
  obtain ⟨hnone, hsome⟩ := h m hm
  obtain ⟨knone, ksome⟩ := k m hm
  refine ⟨fun e => knone (hnone e), fun c hc => ?_⟩
  obtain ⟨c1, hc1, hframe, hsame⟩ := hsome c hc
  obtain ⟨c2, hc2, kframe, ksame⟩ := ksome c1 hc1
  refine ⟨c2, hc2, ?_, fun hv => ?_⟩
  · rw [← hframe, ← kframe]
  · obtain rfl := hsame hv
    exact ksame hv

namespace CtxSafe

variable {n : Nat}

theorem refl (s : State) : CtxSafe n s s := ⟨id, fun _ => othersKept_of_ctx? fun _ _ => rfl⟩
theorem trans {s t u : State} (h : CtxSafe n s t) (k : CtxSafe n t u) : CtxSafe n s u :=
  ⟨fun hs => k.stays (h.stays hs), fun hs => (h.others hs).trans (k.others (h.stays hs))⟩
theorem ite {s a b : State} {p : Prop} [Decidable p] (ha : CtxSafe n s a) (hb : CtxSafe n s b) : CtxSafe n s (if p then a else b) := by
  split <;> assumption
theorem of_ctxs {s t : State} (h : t.ctxs = s.ctxs) : CtxSafe n s t := by
  have hc (m : Nat) : t.ctx? m = s.ctx? m := by rw [State.ctx?, h]; rfl
  exact ⟨fun hs => by rwa [hc], fun _ => othersKept_of_ctx? fun m _ => hc m⟩
theorem of_home {s t : State} (h : HomeOnly s t) : CtxSafe n s t := of_ctxs h.ctxs
theorem of_setCtx {s : State} {c : Ctx} (h : (s.ctx? n).isSome = true → c.num = n) : CtxSafe n s (s.setCtx c) :=
  ⟨fun hs => by rw [ctx?_setCtx_self s (h hs)]; rfl, fun hs => othersKept_of_ctx? fun m hm => ctx?_setCtx_other s (by rwa [h hs])⟩

end CtxSafe

/-- A context that is not there asks for nothing. -/
theorem CtxSafe.of_isSome {n : Nat} {s t : State} (h : (s.ctx? n).isSome = true → CtxSafe n s t) : CtxSafe n s t :=
  ⟨fun hs => (h hs).stays hs, fun hs => (h hs).others hs⟩

/-- The context that holds number n has it. -/
theorem num_ctxD {s : State} {n : Nat} (h : (s.ctx? n).isSome = true) : (s.ctxD n).num = n := by
  obtain ⟨c, hc⟩ := Option.isSome_iff_exists.mp h
  rw [ctxD_of_ctx? hc, num_of_ctx? hc]

theorem maskVersions_frame (c : Ctx) (t pa : Nat) : { c.maskVersions t pa with versions := c.versions } = c := rfl
theorem maskVersions_of_unmerged {c : Ctx} (h : ∀ v ∈ c.versions, resolveHyp c.hyps v.tag ≠ 0) (pa : Nat) : c.maskVersions 0 pa = c := by
  have hm : c.versions.map (fun v => if v.block = pa / 64 ∧ resolveHyp c.hyps v.tag = 0
      then { v with cells := alDel (pa % 64) v.cells, poison := v.poison.filter (· != pa % 64) } else v) = c.versions :=
    (List.map_congr_left fun v hv => if_neg fun e => h v hv e.2).trans (List.map_id _)
  unfold Ctx.maskVersions
  rw [hm]

/-- A root write takes from every context what R338 says. -/
theorem ctxSafe_maskVersions (n : Nat) (s : State) (pa : Nat) : CtxSafe n s { s with ctxs := s.ctxs.map fun x => x.maskVersions 0 pa } := by
  have hc := ctx?_map s (f := fun x => x.maskVersions 0 pa) fun _ => rfl
  refine ⟨fun hs => by rw [hc, Option.isSome_map]; exact hs, fun _ m _ => ⟨fun e => by rw [hc, e]; rfl, fun c e => ?_⟩⟩
  exact ⟨_, by rw [hc, e]; rfl, maskVersions_frame c 0 pa, fun hv => maskVersions_of_unmerged hv pa⟩

theorem ctxSafe_onMast (n : Nat) (s : State) (m : Option Nat) (f : Mast → Mast) : CtxSafe n s (s.onMast m f) := .of_ctxs (ctxs_onMast ..)

/-- A write by an agent in the root view, or by the context itself. -/
theorem ctxSafe_writeByte {n : Nat} (s : State) {w : Writer} (hw : w.hyp = 0 ∨ w.ctx = n) (l : Loc) (b : Byte) (bad : Bool) :
    CtxSafe n s (s.writeByte w l b bad) := by
  unfold State.writeByte
  split
  · exact .of_home (homeOnly_peerWrite ..)
  · refine .ite (.refl _) ?_
    split
    · refine .ite (.refl _) ?_
      exact ((ctxSafe_maskVersions n s l.pa).trans (.of_home (homeOnly_leafWrite ..))).trans ((ctxSafe_onMast ..).trans (.of_ctxs rfl))
    · next ht =>
      obtain h0 | hn := hw
      · exact absurd (by rw [h0]; rfl) ht
      · refine (CtxSafe.of_setCtx fun hs => ?_).trans ((ctxSafe_onMast ..).trans (.of_ctxs rfl))
        rw [hn]
        exact num_ctxD hs

theorem ctxSafe_writeBytes {n : Nat} {w : Writer} (hw : w.hyp = 0 ∨ w.ctx = n) : ∀ (bs : List (Byte × Bool)) (s : State) (l : Loc),
    CtxSafe n s (s.writeBytes w l bs)
  | [], s, _ => .refl s
  | (b, p) :: r, s, l => (ctxSafe_writeByte s hw l b p).trans (ctxSafe_writeBytes hw r _ _)

theorem ctxSafe_writePhys (n : Nat) (s : State) (pa : Nat) (bs : List Byte) : CtxSafe n s (s.writePhys pa bs) := ctxSafe_writeBytes (.inl rfl) ..

theorem ctxSafe_writeWhere {n : Nat} {w : Writer} (hw : w.hyp = 0 ∨ w.ctx = n) (p : Nat → Bool) : ∀ (bs : List (Loc × Byte × Bool)) (i : Nat)
    (s : State), CtxSafe n s (s.writeWhere w p i bs)
  | [], _, s => .refl s
  | (l, b, bad) :: r, i, s =>
    .trans (.ite (ctxSafe_writeByte s hw ..) (.refl s)) (ctxSafe_writeWhere hw p r (i + 1) (if p i then s.writeByte w l b bad else s))

/-- Copies of a context's team write as it. -/
theorem ctxSafe_copyOut (n : Nat) (s : State) (t : Team) (a : AsyncCopy) (o k : Nat) (p : Nat → Bool) :
    CtxSafe n s (s.copyOut t (s.ctxD n) a o k p).1 := .of_isSome fun hs =>
  (CtxSafe.of_ctxs (reads_shieldJobs s t.mast t.id a.tid (s.ctxD n) a.hyp a.segs).ctxs).trans
    (ctxSafe_writeWhere (.inr (num_ctxD hs)) p _ 0 _)

theorem ctxSafe_rmw (n : Nat) (s : State) (c : Ctx) {w : Writer} (hw : w.hyp = 0) (l : Loc) (k scope : Nat) (exch : Bool) (f : Nat → Option Nat) :
    CtxSafe n s (s.rmw c w l k scope exch f).1 := by
  unfold State.rmw
  dsimp only
  refine CtxSafe.trans ?_ (ctxSafe_onMast ..)
  refine CtxSafe.trans (t := if (scope == 3 && l.port.isNone && isHost l.pa) = true then s.hostPurge l.pa
    else if l.port.isNone = true then s.l2Read w.ctx l.pa else s)
    (.of_home (.ite (homeOnly_hostPurge ..) (.ite (homeOnly_l2Read ..) (.refl _)))) ?_
  generalize f _ = o
  cases o with
  | none => exact .refl _
  | some x => exact .ite (.of_home (homeOnly_hostDirect ..)) (ctxSafe_writeBytes (.inl hw) ..)

theorem ctxSafe_mergeEntries (n mast : Nat) : ∀ (es : List Stage0) (s : State), CtxSafe n s (s.mergeEntries mast es)
  | [], s => .refl s
  | _ :: r, s => (ctxSafe_rmw n s _ rfl ..).trans (ctxSafe_mergeEntries n mast r _)

end Sys2Proof.Claims
end

section
/-! Teams that are discarded and launches that do not finish (R94, R114, R352, R354): what goes, what stays, and what other contexts see. -/

namespace Sys2Proof.Machine

/-! ### Teams: only what its threads do differs -/

/-- Only threads, bins, DECK and PLANE of the team differ. -/
def WorkOnly (t u : Team) : Prop := u = { t with
  threads := u.threads, bins := u.bins, overflow := u.overflow, deck := u.deck, deckPoison := u.deckPoison, deckMarks := u.deckMarks
  plane := u.plane, planePoison := u.planePoison, planeMarks := u.planeMarks }

namespace WorkOnly

theorem refl (t : Team) : WorkOnly t t := rfl
theorem trans {t u v : Team} (h : WorkOnly t u) (k : WorkOnly u v) : WorkOnly t v := by
  unfold WorkOnly at *
  rw [k, h]
theorem ite {t a b : Team} {p : Prop} [Decidable p] (ha : WorkOnly t a) (hb : WorkOnly t b) : WorkOnly t (if p then a else b) := by
  split <;> assumption
theorem foldl {α : Type} {f : Team → α → Team} (h : ∀ t x, WorkOnly t (f t x)) : ∀ (l : List α) (t : Team), WorkOnly t (l.foldl f t)
  | [], t => refl t
  | x :: r, t => (h t x).trans (foldl h r (f t x))

variable {t u : Team} (h : WorkOnly t u)
include h
theorem id : u.id = t.id := (congrArg Team.id (show u = _ from h) :)
theorem launch : u.launch = t.launch := (congrArg Team.launch (show u = _ from h) :)
theorem mast : u.mast = t.mast := (congrArg Team.mast (show u = _ from h) :)

end WorkOnly

theorem workOnly_setThread (t : Team) (i : Nat) (x : Thread) : WorkOnly t (t.setThread i x) := rfl
theorem workOnly_makeReady (t : Team) (cycle tid : Nat) : WorkOnly t (t.makeReady cycle tid) := rfl
theorem workOnly_settle (t : Team) (cycle tid : Nat) : WorkOnly t (t.settle cycle tid) := by
  unfold Team.settle
  exact .ite (workOnly_makeReady ..) (.refl t)
theorem workOnly_settlePause (t : Team) (cycle tid : Nat) : WorkOnly t (t.settlePause cycle tid) := by
  unfold Team.settlePause
  exact .ite (workOnly_makeReady ..) (.refl t)
theorem workOnly_clearWaits (t : Team) (cycle tid : Nat) (p : Wait → Bool) : WorkOnly t (t.clearWaits cycle tid p) :=
  ((workOnly_settlePause t cycle tid).trans (workOnly_setThread ..)).trans (workOnly_settle ..)
theorem workOnly_clearWaitsAll (t : Team) (cycle : Nat) (p : Wait → Bool) : WorkOnly t (t.clearWaitsAll cycle p) :=
  .foldl (fun a i => workOnly_clearWaits a cycle i p) _ t
theorem workOnly_tagDone (t : Team) (cycle tid k : Nat) (err : Bool) : WorkOnly t (t.tagDone cycle tid k err) :=
  (workOnly_setThread t tid _).trans (workOnly_clearWaits ..)

theorem workOnly_putBytes (a : AsyncCopy) (p : Nat → Bool) : ∀ (l : List (Option (Byte × Bool))) (i : Nat) (t : Team),
    WorkOnly t (a.putBytes p i l t)
  | [], _, t => .refl t
  | x :: r, i, t => by
    refine WorkOnly.trans (u := match x, a.kind with
      | some b, .async _ o _ _ => if p i then t.deckPut (o + i) b.1 b.2 else t
      | some b, .plane _ o _ _ _ => if p i then t.planePut (o + i) b.1 b.2 else t
      | _, _ => t) ?_ (workOnly_putBytes a p r (i + 1) _)
    split
    · exact .ite rfl (.refl t)
    · exact .ite rfl (.refl t)
    · exact .refl t

theorem workOnly_putMark (a : AsyncCopy) (x : CopyImage) (t : Team) : WorkOnly t (a.putMark x t) := by
  unfold AsyncCopy.putMark
  split
  · rfl
  · rfl
  · exact .refl t

/-! ### What shrinks as teams are discarded -/

/-- A put of a team keeps the identities. -/
theorem ids_setTeam (s : State) (u : Team) : (s.setTeam u).teams.map (·.id) = s.teams.map (·.id) := by
  change (s.teams.map fun x => if x.id = u.id then u else x).map (·.id) = _
  rw [List.map_map]
  refine List.map_congr_left fun x _ => ?_
  by_cases hx : x.id = u.id <;> simp [hx]

/-- A step of discarding teams: only memory, masts, contexts and the work of teams differ; teams, copies and staging entries only go. -/
structure Sheds (s t : State) : Prop where
  frame : t = { s with
    ctxs := t.ctxs, masts := t.masts, mem := t.mem, poison := t.poison, nsec := t.nsec, dirtyComp := t.dirtyComp
    hostCache := t.hostCache, l2 := t.l2, wlog := t.wlog, peers := t.peers, teams := t.teams, flight := t.flight, issue := t.issue
    asyncs := t.asyncs, free := t.free }
  keys : ∀ u ∈ t.teams, ∃ v ∈ s.teams, v.id = u.id ∧ v.launch = u.launch ∧ v.mast = u.mast
  ids : (t.teams.map (·.id)).Sublist (s.teams.map (·.id))
  asyncs : ∀ a ∈ t.asyncs, a ∈ s.asyncs
  staging : ∀ m, ∀ e ∈ (t.mast m).staging, e ∈ (s.mast m).staging

namespace Sheds

theorem refl (s : State) : Sheds s s :=
  ⟨rfl, fun u hu => ⟨u, hu, rfl, rfl, rfl⟩, .refl _, fun _ h => h, fun _ _ h => h⟩

theorem trans {s t u : State} (h : Sheds s t) (k : Sheds t u) : Sheds s u := by
  refine ⟨?_, fun x hx => ?_, k.ids.trans h.ids, fun a ha => h.asyncs a (k.asyncs a ha), fun m e he => h.staging m e (k.staging m e he)⟩
  · rw [k.frame, h.frame]
  · obtain ⟨y, hy, i, l, m⟩ := k.keys x hx
    obtain ⟨z, hz, i', l', m'⟩ := h.keys y hy
    exact ⟨z, hz, i'.trans i, l'.trans l, m'.trans m⟩

theorem ite {s a b : State} {p : Prop} [Decidable p] (ha : Sheds s a) (hb : Sheds s b) : Sheds s (if p then a else b) := by
  split <;> assumption

theorem foldl {α : Type} {f : State → α → State} (h : ∀ s x, Sheds s (f s x)) : ∀ (l : List α) (s : State), Sheds s (l.foldl f s)
  | [], s => refl s
  | x :: r, s => (h s x).trans (foldl h r (f s x))

/-- Memory and staging entries alone. -/
theorem of_memory {s t : State} (h : MemoryOnly s t) (hs : ∀ m, ∀ e ∈ (t.mast m).staging, e ∈ (s.mast m).staging) : Sheds s t := by
  refine ⟨by unfold MemoryOnly at h; rw [h], fun u hu => ⟨u, by rwa [← h.teams], rfl, rfl, rfl⟩, by rw [h.teams], fun a ha => by rwa [← h.asyncs], hs⟩

theorem of_l1 {s t : State} (h : MemoryOnly s t) (k : L1Only s t) : Sheds s t := of_memory h fun m e he => by rwa [← k.staging]

theorem of_reads {s t : State} (h : Reads s t) : Sheds s t := of_l1 h.memory h.masts

/-- A put of a mast that holds no more entries. -/
theorem setMast {s : State} {m : Mast} (h : ∀ e ∈ m.staging, e ∈ (s.mast m.num).staging) : Sheds s (s.setMast m) :=
  of_memory rfl fun k e he => by
    rw [mast_setMast] at he
    split at he
    · next hk => rw [hk]; exact h e he
    · exact he

/-- A team of the state after some work. -/
theorem putTeam {s a : State} {t u : Team} (h : Sheds s a) (ht : t ∈ s.teams) (hw : WorkOnly t u) : Sheds s (a.setTeam u) := by
  refine ⟨?_, fun x hx => ?_, ?_, h.asyncs, h.staging⟩
  · conv_lhs => rw [h.frame]
    rfl
  · obtain ⟨y, hy, rfl⟩ := List.mem_map.mp hx
    split
    · exact ⟨t, ht, hw.id.symm, hw.launch.symm, hw.mast.symm⟩
    · exact h.keys y hy
  · rw [ids_setTeam]
    exact h.ids

theorem setTeam {s : State} {t u : Team} (ht : t ∈ s.teams) (h : WorkOnly t u) : Sheds s (s.setTeam u) := (Sheds.refl s).putTeam ht h

section
variable {s t : State} (h : Sheds s t)
include h
theorem launches : t.launches = s.launches := (congrArg State.launches (show t = _ from h.frame) :)
theorem packets : t.packets = s.packets := (congrArg State.packets (show t = _ from h.frame) :)
theorem queues : t.queues = s.queues := (congrArg State.queues (show t = _ from h.frame) :)
theorem launchD (n : Nat) : t.launchD n = s.launchD n := by rw [State.launchD, State.launch?, h.launches]; rfl
end

end Sheds

/-- A team that is found is one of the state. -/
theorem mem_of_team? {s : State} {i : Nat} {t : Team} (h : s.team? i = some t) : t ∈ s.teams := List.mem_of_find?_eq_some h

theorem sheds_dropAsync (s : State) (p : AsyncCopy → Bool) : Sheds s { s with asyncs := s.asyncs.filter p } :=
  ⟨rfl, fun u hu => ⟨u, hu, rfl, rfl, rfl⟩, .refl _, fun _ h => List.mem_of_mem_filter h, fun _ _ h => h⟩

/-! ### Copies complete -/

/-- The team after a copy to DECK or PLANE: its bytes and mark, its record where the copy failed, and its tag. -/
def AsyncCopy.landed (a : AsyncCopy) (cycle : Nat) (x : CopyImage) (t : Team) : Team :=
  let t1 := a.putMark x (a.putBytes (fun i => !a.wrote.contains i) 0 x.bytes t)
  let t2 := match x.code with
    | some code => t1.setThread a.tid ((t1.thread a.tid).asyncRecord code a.tag a.block a.word)
    | none => t1
  t2.tagDone cycle a.tid a.tag x.err

theorem workOnly_landed (a : AsyncCopy) (cycle : Nat) (x : CopyImage) (t : Team) : WorkOnly t (a.landed cycle x t) := by
  unfold AsyncCopy.landed
  refine WorkOnly.trans ?_ (workOnly_tagDone ..)
  have h := (workOnly_putBytes a (fun i => !a.wrote.contains i) x.bytes 0 t).trans (workOnly_putMark a x _)
  split
  · exact h.trans (workOnly_setThread ..)
  · exact h

/-- A copy goes. -/
def State.withoutCopy (s : State) (a : AsyncCopy) : State := { s with asyncs := s.asyncs.filter (·.id != a.id) }

section
variable {s : State} {a : AsyncCopy} {t : Team}

theorem completeCopy_none (h : s.team? a.team = none) : s.completeCopy a = s.withoutCopy a := by
  unfold State.completeCopy
  rw [h]
  rfl

theorem completeCopy_out (h : s.team? a.team = some t) {d : Dword} {o n : Nat} (hk : a.kind = .out d o n) :
    let r := s.copyOut t (s.ctxD (s.launchD t.launch).ctx) a o n fun i => !a.wrote.contains i
    s.completeCopy a = (r.1.setTeam (t.tagDone s.cycle a.tid a.tag (r.2 || a.err))).withoutCopy a := by
  unfold State.completeCopy
  rw [h]
  dsimp only
  rw [hk]
  rfl

theorem completeCopy_in (h : s.team? a.team = some t) (hk : a.isOut = false) :
    let r := s.imageFor t (s.ctxD (s.launchD t.launch).ctx) a
    s.completeCopy a = (r.1.setTeam (a.landed s.cycle r.2 t)).withoutCopy a := by
  unfold State.completeCopy
  rw [h]
  dsimp only
  cases e : a.kind with
  | out d o n => simp [AsyncCopy.isOut, e] at hk
  | async d o x y => rfl
  | plane d o f x y => rfl

end

/-- What a copy leaves before it goes: memory work, then the work of its team. -/
theorem completeCopy_steps (s : State) (a : AsyncCopy) : s.completeCopy a = s.withoutCopy a ∨ ∃ (s1 : State) (t u : Team),
    MemoryOnly s s1 ∧ L1Only s s1 ∧ Claims.CtxSafe (s.launchD t.launch).ctx s s1 ∧ s.team? a.team = some t ∧ WorkOnly t u ∧
      s.completeCopy a = (s1.setTeam u).withoutCopy a := by
  cases ht : s.team? a.team with
  | none => exact .inl (completeCopy_none ht)
  | some t =>
    refine .inr ?_
    by_cases hk : a.isOut = true
    · obtain ⟨d, o, n, hk⟩ : ∃ d o n, a.kind = .out d o n := by
        unfold AsyncCopy.isOut at hk
        split at hk
        · next d o n e => exact ⟨d, o, n, e⟩
        · cases hk
      exact ⟨_, t, _, memoryOnly_copyOut .., l1Only_copyOut .., Claims.ctxSafe_copyOut .., rfl, workOnly_tagDone .., completeCopy_out ht hk⟩
    · have hr := reads_imageFor s t (s.ctxD (s.launchD t.launch).ctx) a
      exact ⟨_, t, _, hr.memory, hr.masts, .of_ctxs hr.ctxs, rfl, workOnly_landed .., completeCopy_in ht (eq_false_of_ne_true hk)⟩

theorem sheds_completeCopy (s : State) (a : AsyncCopy) : Sheds s (s.completeCopy a) := by
  obtain e | ⟨s1, t, u, hm, hl, -, ht, hu, e⟩ := completeCopy_steps s a
  · rw [e]
    exact sheds_dropAsync s _
  · rw [e]
    have ht1 : t ∈ s1.teams := by rw [hm.teams]; exact mem_of_team? ht
    exact ((Sheds.of_l1 hm hl).trans (.setTeam ht1 hu)).trans (sheds_dropAsync _ _)

theorem sheds_completeCopies : ∀ (l : List AsyncCopy) (s : State), Sheds s (s.completeCopies l)
  | [], s => .refl s
  | a :: r, s => (sheds_completeCopy s a).trans (sheds_completeCopies r _)

/-- No copy of the list is left. -/
theorem asyncs_completeCopies : ∀ (l : List AsyncCopy) (s : State), ∀ b ∈ (s.completeCopies l).asyncs, ∀ a ∈ l, b.id ≠ a.id
  | [], _ => by simp
  | a :: r, s => by
    intro b hb x hx
    obtain rfl | hx := List.mem_cons.mp hx
    · have hb1 := (sheds_completeCopies r (s.completeCopy x)).asyncs b hb
      obtain e | ⟨s1, t, u, -, -, -, -, -, e⟩ := completeCopy_steps s x
      · rw [e] at hb1
        simpa using (List.mem_filter.mp hb1).2
      · rw [e] at hb1
        simpa using (List.mem_filter.mp hb1).2
    · exact asyncs_completeCopies r (s.completeCopy a) b hb x hx

theorem ids_completeCopy (s : State) (a : AsyncCopy) : (s.completeCopy a).teams.map (·.id) = s.teams.map (·.id) := by
  obtain e | ⟨s1, t, u, hm, -, -, -, -, e⟩ := completeCopy_steps s a
  · rw [e]
    rfl
  · rw [e]
    exact (ids_setTeam s1 u).trans (by rw [hm.teams])

theorem ids_completeCopies : ∀ (l : List AsyncCopy) (s : State), (s.completeCopies l).teams.map (·.id) = s.teams.map (·.id)
  | [], _ => rfl
  | a :: r, s => (ids_completeCopies r _).trans (ids_completeCopy s a)

/-- The copies of a team, complete. -/
def State.copiesDone (s : State) (t : Team) : State := s.completeCopies (s.asyncs.filter (·.team == t.id))

theorem sheds_copiesDone (s : State) (t : Team) : Sheds s (s.copiesDone t) := sheds_completeCopies ..

theorem asyncs_copiesDone (s : State) (t : Team) : ∀ a ∈ (s.copiesDone t).asyncs, a.team ≠ t.id := fun a ha e =>
  asyncs_completeCopies _ s a ha a (List.mem_filter.mpr ⟨(sheds_copiesDone s t).asyncs a ha, by simp [e]⟩) rfl

/-- The team itself is still found. -/
theorem team?_copiesDone {s : State} {t : Team} (ht : t.id ∈ s.teams.map (·.id)) : ∃ u, (s.copiesDone t).team? t.id = some u := by
  have hid : t.id ∈ (s.copiesDone t).teams.map (·.id) := (ids_completeCopies _ s).symm ▸ ht
  obtain ⟨v, hv, e⟩ := List.mem_map.mp hid
  exact Option.isSome_iff_exists.mp (List.find?_isSome.mpr ⟨v, hv, by simpa using e⟩)

/-! ### Drains and removals -/

theorem sheds_flushWhere (s : State) (mast : Nat) (p : Stage0 → Bool) (order : List Nat) : Sheds s (s.flushWhere mast p order) := by
  unfold State.flushWhere
  dsimp only
  split
  · exact .refl s
  · refine (Sheds.setMast fun e he => ?_).trans (.of_l1 (memoryOnly_mergeEntries ..) (l1Only_mergeEntries ..))
    rw [mast_num]
    exact List.mem_of_mem_filter he

theorem sheds_flushTeam (s : State) (t : Team) : Sheds s (s.flushTeam t) := by
  unfold State.flushTeam State.choices
  have hf (n : Nat) : Sheds s { s with free := s.free + n } :=
    ⟨rfl, fun u hu => ⟨u, hu, rfl, rfl, rfl⟩, .refl _, fun _ h => h, fun _ _ h => h⟩
  exact (hf _).trans (sheds_flushWhere ..)

theorem sheds_drainTeam (s : State) (t : Team) : Sheds s (s.drainTeam t) := by
  unfold State.drainTeam
  dsimp only
  refine (sheds_completeCopies (s.asyncs.filter (·.team == t.id)) s).trans ?_
  split
  · exact .refl _
  · split
    · exact sheds_flushTeam ..
    · exact .refl _

theorem sheds_freeRecord (s : State) (t : Team) : Sheds s (s.freeRecord t) := by
  unfold State.freeRecord
  dsimp only
  split
  · exact .of_l1 (memoryOnly_writePhys ..) (l1Only_writePhys ..)
  · exact .refl s

/-- Threads that wait for the payload ring go on. -/
theorem sheds_wakeRing (s : State) (m : Nat) : Sheds s (s.wakeRing m) := by
  have hall : ∀ (l : List Team) (a : State), (∀ t ∈ l, t ∈ s.teams) → Sheds s a →
      Sheds s (l.foldl (fun (a : State) t => a.setTeam (t.clearWaitsAll s.cycle (· == Wait.ring))) a) := by
    intro l
    induction l with
    | nil => exact fun _ _ h => h
    | cons t r ih =>
      exact fun a hl h => ih _ (fun x hx => hl x (List.mem_cons_of_mem _ hx)) (h.putTeam (hl t List.mem_cons_self) (workOnly_clearWaitsAll ..))
  exact hall (s.on m) s (fun t ht => List.mem_of_mem_filter ht) (.refl s)

theorem sheds_ringRelease (s : State) (m slot : Nat) : Sheds s (s.ringRelease m slot) := by
  unfold State.ringRelease
  dsimp only
  split
  · exact .refl s
  · refine .ite ((Sheds.setMast fun e he => ?_).trans (sheds_wakeRing ..)) (.setMast fun e he => ?_)
    · rwa [mast_num]
    · rwa [mast_num]

theorem sheds_releaseMesh (s : State) (t : Team) : Sheds s (s.releaseMesh t) := by
  unfold State.releaseMesh
  split
  · split
    · exact sheds_ringRelease ..
    · exact .refl s
  · exact .refl s

theorem sheds_dropPins (s : State) (c m : Nat) : Sheds s (s.dropPins c m) := by
  unfold State.dropPins
  refine .ite (.refl s) ?_
  dsimp only
  refine .ite (.setMast fun e he => ?_) (.refl s)
  rwa [mast_num]

/-- Operations saved with a team enter the queue of its mast: the teams keep what they are. -/
theorem enterFrom_teams (m : Nat) : ∀ (l : List Team) (q : List MxOp),
    (enterFrom m q l).2.map (fun t => (t.id, t.launch, t.mast)) = l.map fun t => (t.id, t.launch, t.mast)
  | [], _ => rfl
  | t :: r, q => by
    unfold enterFrom
    dsimp only
    rw [List.map_cons, enterFrom_teams m r]
    rfl

theorem sheds_enterSaved (s : State) (m : Nat) : Sheds s (s.enterSaved m) := by
  unfold State.enterSaved
  refine .ite ?_ (.refl s)
  dsimp only
  have hkeys := enterFrom_teams m s.teams (s.mast m).mxq
  refine ⟨rfl, fun u hu => ?_, ?_, fun _ h => h, fun k e he => ?_⟩
  · have hm : (u.id, u.launch, u.mast) ∈ s.teams.map fun t => (t.id, t.launch, t.mast) := hkeys ▸ List.mem_map_of_mem hu
    obtain ⟨v, hv, e⟩ := List.mem_map.mp hm
    simp only [Prod.mk.injEq] at e
    exact ⟨v, hv, e⟩
  · have hids := congrArg (List.map Prod.fst) hkeys
    simp only [List.map_map] at hids
    exact hids ▸ List.Sublist.refl _
  · rw [mast_setMast] at he
    split at he
    · next hk =>
      rw [hk, mast_num]
      exact he
    · exact he

/-- What of a team is on its mast goes. -/
def State.clearTeam (s : State) (t : Team) : State :=
  let ma := s.mast t.mast
  if ma.mxq.any (·.team == t.id) || ma.sjobs.any (·.team == t.id) || ma.smmaq.any (·.team == t.id) then
    s.setMast { ma with mxq := ma.mxq.filter (·.team != t.id), sjobs := ma.sjobs.filter (·.team != t.id),
                        arrays := ma.arrays.filter fun a => !ma.mxq.any fun (o : MxOp) => o.team == t.id && o.id == a.2.1
                        smmaq := ma.smmaq.filter (·.team != t.id) }
  else s

/-- The team itself goes, with its packs and its copies. -/
def State.withoutTeam (s : State) (t : Team) : State := { s with
  teams := s.teams.filter (·.id != t.id), flight := s.flight.filter (·.team != t.id)
  issue := if s.issue.any (fun (p : Pack) => p.team == t.id) then none else s.issue, asyncs := s.asyncs.filter (·.team != t.id) }

theorem removeTeam_eq (s : State) (t : Team) : s.removeTeam t =
    (((((s.freeRecord t).clearTeam t).withoutTeam t).enterSaved t.mast).releaseMesh t).dropPins ((s.freeRecord t).launchD t.launch).ctx t.mast :=
  rfl

theorem sheds_clearTeam (s : State) (t : Team) : Sheds s (s.clearTeam t) := by
  unfold State.clearTeam
  dsimp only
  refine .ite (.setMast fun e he => ?_) (.refl s)
  rwa [mast_num]

theorem sheds_withoutTeam (s : State) (t : Team) : Sheds s (s.withoutTeam t) :=
  ⟨rfl, fun u hu => ⟨u, List.mem_of_mem_filter hu, rfl, rfl, rfl⟩, List.filter_sublist.map _, fun _ h => List.mem_of_mem_filter h,
    fun _ _ h => h⟩

theorem sheds_afterTeam (s : State) (t : Team) (c : Nat) : Sheds (s.withoutTeam t) ((((s.withoutTeam t).enterSaved t.mast).releaseMesh t).dropPins c t.mast) :=
  ((sheds_enterSaved ..).trans (sheds_releaseMesh ..)).trans (sheds_dropPins ..)

theorem sheds_removeTeam (s : State) (t : Team) : Sheds s (s.removeTeam t) := by
  rw [removeTeam_eq]
  exact (((sheds_freeRecord s t).trans (sheds_clearTeam ..)).trans (sheds_withoutTeam ..)).trans (sheds_afterTeam ..)

/-- A team that was removed is gone, and so are its copies. -/
theorem removeTeam_gone (s : State) (t : Team) :
    (∀ u ∈ (s.removeTeam t).teams, u.id ≠ t.id) ∧ ∀ a ∈ (s.removeTeam t).asyncs, a.team ≠ t.id := by
  rw [removeTeam_eq]
  have h := sheds_afterTeam ((s.freeRecord t).clearTeam t) t ((s.freeRecord t).launchD t.launch).ctx
  refine ⟨fun u hu => ?_, fun a ha => ?_⟩
  · obtain ⟨v, hv, e, -⟩ := h.keys u hu
    rw [← e]
    simpa using (List.mem_filter.mp hv).2
  · simpa using (List.mem_filter.mp (h.asyncs a ha)).2

theorem sheds_discardTeam (s : State) (t : Team) : Sheds s (s.discardTeam t) := by
  unfold State.discardTeam
  dsimp only
  refine (sheds_drainTeam s t).trans ?_
  split
  · exact sheds_removeTeam ..
  · exact .refl _

theorem sheds_discardTeams : ∀ (l : List Team) (s : State), Sheds s (s.discardTeams l)
  | [], s => .refl s
  | t :: r, s => (sheds_discardTeam s t).trans (sheds_discardTeams r _)

theorem sheds_dropRings (s : State) (lid : Nat) : Sheds s (s.dropRings lid) := by
  unfold State.dropRings
  refine .foldl (fun a ma => .ite ?_ (.refl a)) s.masts s
  dsimp only
  refine (Sheds.setMast fun e he => ?_).trans (sheds_wakeRing ..)
  rwa [mast_num]

/-- A discarded team is gone. -/
theorem discardTeam_gone (s : State) (t : Team) : ∀ u ∈ (s.discardTeam t).teams, u.id ≠ t.id := by
  unfold State.discardTeam
  dsimp only
  split
  · next u hu =>
    rw [← id_of_team? hu]
    exact (removeTeam_gone _ u).1
  · next hnone =>
    intro u hu
    simpa using List.find?_eq_none.mp hnone u hu

theorem discardTeams_gone : ∀ (l : List Team) (s : State), ∀ t ∈ l, ∀ u ∈ (s.discardTeams l).teams, u.id ≠ t.id
  | [], _ => by simp
  | x :: r, s => by
    intro t ht u hu
    obtain rfl | ht := List.mem_cons.mp ht
    · obtain ⟨v, hv, e, -⟩ := (sheds_discardTeams r _).keys u hu
      rw [← e]
      exact discardTeam_gone s t v hv
    · exact discardTeams_gone r _ t ht u hu

end Sys2Proof.Machine
end

section
/-! Context commands (R94 to R96, R360): what CONTEXT_CREATE, CONTEXT_DESTROY, its completion and SET_SAVE_AREA do. -/

namespace Sys2Proof.Claims

open Sys2Proof Sys2Proof.Machine

/-! ### Contexts while teams and launches are discarded -/

section
variable (s : State)

theorem ctxs_wakeRing (m : Nat) : (s.wakeRing m).ctxs = s.ctxs := by
  have hall : ∀ (l : List Team) (a : State),
      (l.foldl (fun (a : State) t => a.setTeam (t.clearWaitsAll s.cycle (· == Wait.ring))) a).ctxs = a.ctxs := by
    intro l
    induction l with
    | nil => exact fun _ => rfl
    | cons t r ih => exact fun a => ih _
  exact hall _ s

theorem ctxs_ringRelease (m slot : Nat) : (s.ringRelease m slot).ctxs = s.ctxs := by
  unfold State.ringRelease
  dsimp only
  split
  · rfl
  · split
    · exact ctxs_wakeRing ..
    · rfl

theorem ctxs_releaseMesh (t : Team) : (s.releaseMesh t).ctxs = s.ctxs := by
  unfold State.releaseMesh
  split
  · split
    · exact ctxs_ringRelease ..
    · rfl
  · rfl

theorem ctxs_dropPins (c m : Nat) : (s.dropPins c m).ctxs = s.ctxs := by
  unfold State.dropPins
  dsimp only
  split
  · rfl
  · split <;> rfl

theorem ctxs_enterSaved (m : Nat) : (s.enterSaved m).ctxs = s.ctxs := by
  unfold State.enterSaved
  dsimp only
  split <;> rfl

theorem ctxs_clearTeam (t : Team) : (s.clearTeam t).ctxs = s.ctxs := by
  unfold State.clearTeam
  dsimp only
  split <;> rfl

theorem ctxs_dropRings (lid : Nat) : (s.dropRings lid).ctxs = s.ctxs := by
  unfold State.dropRings
  generalize s.masts = l
  induction l generalizing s with
  | nil => rfl
  | cons m r ih =>
    refine (ih _).trans ?_
    dsimp only
    split
    · exact ctxs_wakeRing ..
    · rfl

end

/-- Every team of an identity belongs to a launch of context n. -/
def Owned (n i : Nat) (s : State) : Prop := ∀ u ∈ s.teams, u.id = i → (s.launchD u.launch).ctx = n

theorem Owned.of_sheds {n i : Nat} {s t : State} (h : Owned n i s) (k : Sheds s t) : Owned n i t := fun u hu hi => by
  obtain ⟨v, hv, e, l, -⟩ := k.keys u hu
  rw [k.launchD, ← l]
  exact h v hv (e.trans hi)

theorem ctxSafe_completeCopies {n : Nat} : ∀ (l : List AsyncCopy) (s : State), (∀ a ∈ l, Owned n a.team s) → CtxSafe n s (s.completeCopies l)
  | [], s, _ => .refl s
  | a :: r, s, h => by
    have hstep : CtxSafe n s (s.completeCopy a) := by
      obtain e | ⟨s1, t, u, -, -, hc, ht, -, e⟩ := completeCopy_steps s a
      · rw [e]
        exact .of_ctxs rfl
      · rw [e]
        rw [h a List.mem_cons_self t (mem_of_team? ht) (id_of_team? ht)] at hc
        exact hc.trans (.of_ctxs rfl)
    exact hstep.trans (ctxSafe_completeCopies r _ fun b hb => (h b (List.mem_cons_of_mem _ hb)).of_sheds (sheds_completeCopy s a))

theorem ctxSafe_flushWhere (n : Nat) (s : State) (mast : Nat) (p : Stage0 → Bool) (order : List Nat) : CtxSafe n s (s.flushWhere mast p order) := by
  unfold State.flushWhere
  dsimp only
  split
  · exact .refl s
  · have hset (m : Mast) : CtxSafe n s (s.setMast m) := .of_ctxs rfl
    exact (hset _).trans (ctxSafe_mergeEntries ..)

theorem ctxSafe_flushTeam (n : Nat) (s : State) (t : Team) : CtxSafe n s (s.flushTeam t) := by
  unfold State.flushTeam State.choices
  have hfree (k : Nat) : CtxSafe n s { s with free := k } := .of_ctxs rfl
  exact (hfree _).trans (ctxSafe_flushWhere ..)

theorem ctxSafe_drainTeam {n : Nat} {s : State} {t : Team} (h : Owned n t.id s) : CtxSafe n s (s.drainTeam t) := by
  unfold State.drainTeam
  dsimp only
  refine (ctxSafe_completeCopies (s.asyncs.filter (·.team == t.id)) s fun a ha => ?_).trans ?_
  · rwa [show a.team = t.id by simpa using (List.mem_filter.mp ha).2]
  · split
    · exact .refl _
    · split
      · exact ctxSafe_flushTeam ..
      · exact .refl _

theorem ctxSafe_removeTeam (n : Nat) (s : State) (t : Team) : CtxSafe n s (s.removeTeam t) := by
  rw [removeTeam_eq]
  refine CtxSafe.trans (t := s.freeRecord t) ?_ (.of_ctxs ?_)
  · unfold State.freeRecord
    dsimp only
    split
    · exact ctxSafe_writePhys ..
    · exact .refl s
  · rw [ctxs_dropPins, ctxs_releaseMesh, ctxs_enterSaved]
    exact ctxs_clearTeam ..

theorem ctxSafe_discardTeam {n : Nat} {s : State} {t : Team} (h : Owned n t.id s) : CtxSafe n s (s.discardTeam t) := by
  unfold State.discardTeam
  dsimp only
  refine (ctxSafe_drainTeam h).trans ?_
  split
  · exact ctxSafe_removeTeam ..
  · exact .refl _

theorem ctxSafe_discardTeams {n : Nat} : ∀ (l : List Team) (s : State), (∀ t ∈ l, Owned n t.id s) → CtxSafe n s (s.discardTeams l)
  | [], s, _ => .refl s
  | t :: r, s, h => (ctxSafe_discardTeam (h t List.mem_cons_self)).trans
      (ctxSafe_discardTeams r _ fun u hu => (h u (List.mem_cons_of_mem _ hu)).of_sheds (sheds_discardTeam s t))

theorem ctxSafe_tidyHyps (n : Nat) (s : State) : CtxSafe n s (s.tidyHyps n) :=
  ⟨fun h => by rw [ctx?_tidyHyps, Option.isSome_map]; exact h, fun _ => othersKept_of_ctx? fun _ hm => ctx?_tidyHyps_other s hm⟩

theorem ctxSafe_tidyFaults (n : Nat) (s : State) : CtxSafe n s (s.tidyFaults n) := by
  refine ⟨fun h => ?_, fun _ => othersKept_of_ctx? fun _ hm => ctx?_tidyFaults_other s hm⟩
  rcases ctx?_tidyFaults s n with e | e
  · rwa [e]
  · rwa [e, Option.isSome_map]

/-! ### A launch that is discarded -/

/-- What goes with discarded launches. -/
structure Shrinks (s t : State) : Prop where
  launches : t.launches.Sublist s.launches
  packets : ∀ p ∈ t.packets, p ∈ s.packets ∧ t.queue? p.queue = s.queue? p.queue
  keys : ∀ u ∈ t.teams, ∃ v ∈ s.teams, v.id = u.id ∧ v.launch = u.launch ∧ v.mast = u.mast
  ids : (t.teams.map (·.id)).Sublist (s.teams.map (·.id))
  asyncs : ∀ a ∈ t.asyncs, a ∈ s.asyncs
  staging : ∀ m, ∀ e ∈ (t.mast m).staging, e ∈ (s.mast m).staging

namespace Shrinks

theorem refl (s : State) : Shrinks s s :=
  ⟨.refl _, fun _ h => ⟨h, rfl⟩, fun u hu => ⟨u, hu, rfl, rfl, rfl⟩, .refl _, fun _ h => h, fun _ _ h => h⟩

theorem trans {s t u : State} (h : Shrinks s t) (k : Shrinks t u) : Shrinks s u := by
  refine ⟨k.launches.trans h.launches, fun p hp => ?_, fun x hx => ?_, k.ids.trans h.ids, fun a ha => h.asyncs a (k.asyncs a ha),
    fun m e he => h.staging m e (k.staging m e he)⟩
  · obtain ⟨hp, hq⟩ := k.packets p hp
    obtain ⟨hp', hq'⟩ := h.packets p hp
    exact ⟨hp', hq.trans hq'⟩
  · obtain ⟨y, hy, i, l, m⟩ := k.keys x hx
    obtain ⟨z, hz, i', l', m'⟩ := h.keys y hy
    exact ⟨z, hz, i'.trans i, l'.trans l, m'.trans m⟩

theorem of_sheds {s t : State} (h : Sheds s t) : Shrinks s t :=
  ⟨by rw [h.launches], fun p hp => ⟨by rwa [← h.packets], by rw [State.queue?, h.queues]; rfl⟩, h.keys, h.ids, h.asyncs, h.staging⟩

/-- Contexts alone. -/
theorem of_ctxs {s t : State} (h : t = { s with ctxs := t.ctxs }) : Shrinks s t := by
  rw [h]
  exact ⟨.refl _, fun _ h => ⟨h, rfl⟩, fun u hu => ⟨u, hu, rfl, rfl, rfl⟩, .refl _, fun _ h => h, fun _ _ h => h⟩

end Shrinks

theorem shrinks_dropLaunch (s : State) (id : Nat) : Shrinks s { s with launches := s.launches.filter (·.id != id) } :=
  ⟨List.filter_sublist, fun _ h => ⟨h, rfl⟩, fun u hu => ⟨u, hu, rfl, rfl, rfl⟩, .refl _, fun _ h => h, fun _ _ h => h⟩

/-- The queue of a packet that is left stays. -/
theorem shrinks_dropPacket (s : State) (p : Packet) : Shrinks s (s.dropPacket p) := by
  rw [dropPacket_frame]
  refine ⟨.refl _, fun x hx => ⟨List.mem_of_mem_filter hx, ?_⟩, fun u hu => ⟨u, hu, rfl, rfl, rfl⟩, .refl _, fun _ h => h, fun _ _ h => h⟩
  have hx : x ∈ s.packets.filter (·.id != p.id) := hx
  change (s.dropPacket p).queue? x.queue = s.queue? x.queue
  unfold State.dropPacket State.reapQueue
  split
  · rfl
  · split
    · next hreap =>
      have hne : x.queue ≠ p.queue := fun e => by
        simp only [Bool.and_eq_true, Bool.not_eq_true', List.any_eq_false] at hreap
        exact hreap.2 x hx (by simp [e])
      change (s.queues.filter (·.num != p.queue)).find? (·.num == x.queue) = _
      rw [List.find?_filter]
      congr 1
      funext q
      by_cases hq : q.num = x.queue <;> simp [hq, hne]
    · rfl

end Sys2Proof.Claims

namespace Sys2Proof.Machine

/-- The packet of a discarded launch leaves. -/
def State.dropPacketOf (s : State) (id : Nat) : State := match s.packet? id with
  | some p => s.dropPacket p
  | none => s

/-- The teams of a launch and its payload slots go. -/
def State.dropTeamsOf (s : State) (l : Launch) : State := (s.discardTeams (s.teams.filter (·.launch == l.id))).dropRings l.id

/-- A launch goes. -/
def State.withoutLaunch (s : State) (l : Launch) : State := { s with launches := s.launches.filter (·.id != l.id) }

theorem discardLaunch_eq (s : State) (l : Launch) :
    s.discardLaunch l = ((((s.dropTeamsOf l).withoutLaunch l).dropPacketOf l.packet).tidyFaults l.ctx).tidyHyps l.ctx := rfl

theorem sheds_dropTeamsOf (s : State) (l : Launch) : Sheds s (s.dropTeamsOf l) := (sheds_discardTeams ..).trans (sheds_dropRings ..)

/-- None of the teams of the launch is left. -/
theorem dropTeamsOf_gone (s : State) (l : Launch) {t : Team} (ht : t ∈ s.teams) (hl : t.launch = l.id) : ∀ u ∈ (s.dropTeamsOf l).teams, u.id ≠ t.id := by
  intro u hu
  obtain ⟨v, hv, e, -⟩ := (sheds_dropRings _ l.id).keys u hu
  rw [← e]
  exact discardTeams_gone _ s t (List.mem_filter.mpr ⟨ht, by simpa using hl⟩) v hv

theorem dropPacketOf_frame (s : State) (id : Nat) :
    s.dropPacketOf id = { s with packets := (s.dropPacketOf id).packets, queues := (s.dropPacketOf id).queues } := by
  unfold State.dropPacketOf
  split
  · rw [dropPacket_frame]
  · rfl

theorem discardLaunch_frame (s : State) (l : Launch) : s.discardLaunch l = { s.dropTeamsOf l with
    launches := (s.dropTeamsOf l).launches.filter (·.id != l.id), packets := (s.discardLaunch l).packets, queues := (s.discardLaunch l).queues
    ctxs := (s.discardLaunch l).ctxs } := by
  rw [discardLaunch_eq, tidyHyps_frame, tidyFaults_frame, dropPacketOf_frame]
  rfl

theorem launches_discardLaunch (s : State) (l : Launch) : (s.discardLaunch l).launches = s.launches.filter (·.id != l.id) := by
  rw [discardLaunch_frame]
  exact congrArg (List.filter _) (sheds_dropTeamsOf s l).launches

end Sys2Proof.Machine

namespace Sys2Proof.Claims

open Sys2Proof Sys2Proof.Machine

theorem shrinks_dropPacketOf (s : State) (id : Nat) : Shrinks s (s.dropPacketOf id) := by
  unfold State.dropPacketOf
  split
  · exact shrinks_dropPacket ..
  · exact .refl s

theorem shrinks_discardLaunch (s : State) (l : Launch) : Shrinks s (s.discardLaunch l) := by
  rw [discardLaunch_eq]
  exact (((Shrinks.of_sheds (sheds_dropTeamsOf s l)).trans (shrinks_dropLaunch _ l.id)).trans (shrinks_dropPacketOf ..)).trans
    ((Shrinks.of_ctxs (tidyFaults_frame ..)).trans (.of_ctxs (tidyHyps_frame ..)))

theorem discardLaunch_gone (s : State) (l : Launch) {t : Team} (ht : t ∈ s.teams) (hl : t.launch = l.id) : ∀ u ∈ (s.discardLaunch l).teams, u.id ≠ t.id := by
  rw [discardLaunch_frame]
  exact dropTeamsOf_gone s l ht hl

theorem shrinks_discardLaunches : ∀ (ls : List Launch) (s : State), Shrinks s (s.discardLaunches ls)
  | [], s => .refl s
  | l :: r, s => (shrinks_discardLaunch s l).trans (shrinks_discardLaunches r _)

/-- Teams of the discarded launches are gone, and so are the launches. -/
theorem discardLaunches_gone : ∀ (ls : List Launch) (s : State), ∀ l ∈ ls,
    (∀ m ∈ (s.discardLaunches ls).launches, m.id ≠ l.id) ∧ ∀ u ∈ (s.discardLaunches ls).teams, u.launch ≠ l.id
  | [], _ => by simp
  | x :: r, s => by
    intro l hl
    obtain rfl | hl := List.mem_cons.mp hl
    · have h := shrinks_discardLaunches r (s.discardLaunch l)
      refine ⟨fun m hm => ?_, fun u hu e => ?_⟩
      · have hm := h.launches.subset hm
        rw [launches_discardLaunch] at hm
        simpa using (List.mem_filter.mp hm).2
      · obtain ⟨v, hv, _, hvl, -⟩ := h.keys u hu
        obtain ⟨w, hw, hwi, hwl, -⟩ := (shrinks_discardLaunch s l).keys v hv
        exact discardLaunch_gone s l hw (by rw [hwl, hvl, e]) v hv hwi.symm
    · exact discardLaunches_gone r _ l hl

/-! ### With distinct identities -/

/-- Launches and teams have distinct identities. -/
structure Distinct (s : State) : Prop where
  launches : (s.launches.map (·.id)).Nodup
  teams : (s.teams.map (·.id)).Nodup

theorem Distinct.of_shrinks {s t : State} (h : Distinct s) (k : Shrinks s t) : Distinct t :=
  ⟨h.launches.sublist (k.launches.map _), h.teams.sublist k.ids⟩

/-- Elements of a list with distinct identities are told apart by them. -/
theorem eq_of_id {α : Type} {f : α → Nat} {l : List α} (h : (l.map f).Nodup) {x y : α} (hx : x ∈ l) (hy : y ∈ l) (e : f x = f y) : x = y :=
  List.inj_on_of_nodup_map h hx hy e

theorem launchD_of_mem {s : State} (h : Distinct s) {l : Launch} (hl : l ∈ s.launches) : s.launchD l.id = l := by
  have hsome : (s.launch? l.id).isSome = true := List.find?_isSome.mpr ⟨l, hl, by simp⟩
  obtain ⟨m, hm⟩ := Option.isSome_iff_exists.mp hsome
  rw [launchD_of_launch? hm]
  exact eq_of_id h.launches (List.mem_of_find?_eq_some hm) hl (id_of_launch? hm)

/-- A team of a launch belongs to the launch's context. -/
theorem owned_of_mem {s : State} (h : Distinct s) {l : Launch} (hl : l ∈ s.launches) {t : Team} (ht : t ∈ s.teams) (e : t.launch = l.id) :
    Owned l.ctx t.id s := fun u hu hi => by
  rw [eq_of_id h.teams hu ht hi, e, launchD_of_mem h hl]

theorem ctxSafe_discardLaunch {s : State} (h : Distinct s) {l : Launch} (hl : l ∈ s.launches) : CtxSafe l.ctx s (s.discardLaunch l) := by
  rw [discardLaunch_eq]
  have hteams : CtxSafe l.ctx s (s.dropTeamsOf l) := by
    refine (ctxSafe_discardTeams _ s fun t ht => ?_).trans (.of_ctxs (ctxs_dropRings ..))
    obtain ⟨ht, e⟩ := List.mem_filter.mp ht
    exact owned_of_mem h hl ht (by simpa using e)
  have hpacket : CtxSafe l.ctx (s.dropTeamsOf l) (((s.dropTeamsOf l).withoutLaunch l).dropPacketOf l.packet) :=
    .of_ctxs (by rw [dropPacketOf_frame]; rfl)
  exact (hteams.trans hpacket).trans ((ctxSafe_tidyFaults ..).trans (ctxSafe_tidyHyps ..))

/-- A launch of the state is still there after another one is discarded. -/
theorem mem_discardLaunch {s : State} {l m : Launch} (hm : m ∈ s.launches) (e : m.id ≠ l.id) : m ∈ (s.discardLaunch l).launches := by
  rw [launches_discardLaunch]
  exact List.mem_filter.mpr ⟨hm, by simpa using e⟩

theorem ctxSafe_discardLaunches {n : Nat} : ∀ (ls : List Launch) (s : State), Distinct s → (ls.map (·.id)).Nodup →
    (∀ l ∈ ls, l ∈ s.launches ∧ l.ctx = n) → CtxSafe n s (s.discardLaunches ls)
  | [], s, _, _, _ => .refl s
  | l :: r, s, h, nd, hls => by
    obtain ⟨hnot, nd⟩ := List.nodup_cons.mp nd
    obtain ⟨hl, hc⟩ := hls l List.mem_cons_self
    refine CtxSafe.trans (hc ▸ ctxSafe_discardLaunch h hl) (ctxSafe_discardLaunches r _ (h.of_shrinks (shrinks_discardLaunch s l)) nd fun m hm => ?_)
    obtain ⟨hm', hmc⟩ := hls m (List.mem_cons_of_mem _ hm)
    exact ⟨mem_discardLaunch hm' fun e => hnot (List.mem_map.mpr ⟨m, hm, e⟩), hmc⟩

/-! ### What a discarded team leaves nothing of -/

/-- Nothing of a team is left: neither itself nor its copies, nor its entries in the buffer of a mast where they are flushed. -/
structure Cleared (i m : Nat) (flushed : Bool) (s : State) : Prop where
  team : ∀ u ∈ s.teams, u.id ≠ i
  asyncs : ∀ a ∈ s.asyncs, a.team ≠ i
  staging : flushed = true → ∀ e ∈ (s.mast m).staging, e.team ≠ i

theorem Cleared.of_shrinks {i m : Nat} {f : Bool} {s t : State} (h : Cleared i m f s) (k : Shrinks s t) : Cleared i m f t :=
  ⟨fun u hu => by obtain ⟨v, hv, e, -⟩ := k.keys u hu; rw [← e]; exact h.team v hv, fun a ha => h.asyncs a (k.asyncs a ha),
    fun hf e he => h.staging hf e (k.staging m e he)⟩

/-- A flush of a team's entries leaves none. -/
theorem staging_flushTeam (s : State) (t : Team) : ∀ e ∈ ((s.flushTeam t).mast t.mast).staging, e.team ≠ t.id := by
  unfold State.flushTeam State.choices State.flushWhere
  dsimp only
  have hmast (k : Nat) : State.mast { s with free := k } t.mast = s.mast t.mast := rfl
  split
  · next hempty =>
    intro e he hteam
    rw [hmast] at he hempty
    rw [List.isEmpty_iff, List.filter_eq_nil_iff] at hempty
    exact hempty e he (by simpa using hteam)
  · intro e he
    rw [(l1Only_mergeEntries t.mast _ _).staging, mast_setMast, if_pos (mast_num _ _).symm] at he
    simpa using (List.mem_filter.mp he).2

/-- Identities of the teams. -/
def teamIds (s : State) : List Nat := s.teams.map (·.id)

section
variable (s : State)

theorem teamIds_wakeRing (m : Nat) : teamIds (s.wakeRing m) = teamIds s := by
  have hall : ∀ (l : List Team) (a : State),
      teamIds (l.foldl (fun (a : State) t => a.setTeam (t.clearWaitsAll s.cycle (· == Wait.ring))) a) = teamIds a := by
    intro l
    induction l with
    | nil => exact fun _ => rfl
    | cons t r ih => exact fun a => (ih _).trans (ids_setTeam a _)
  exact hall _ s

theorem teamIds_releaseMesh (t : Team) : teamIds (s.releaseMesh t) = teamIds s := by
  unfold State.releaseMesh
  split
  · split
    · unfold State.ringRelease
      dsimp only
      split
      · rfl
      · split
        · exact teamIds_wakeRing ..
        · rfl
    · rfl
  · rfl

theorem teamIds_dropPins (c m : Nat) : teamIds (s.dropPins c m) = teamIds s := by
  unfold State.dropPins
  dsimp only
  split
  · rfl
  · split <;> rfl

theorem teamIds_enterSaved (m : Nat) : teamIds (s.enterSaved m) = teamIds s := by
  have h := congrArg (List.map Prod.fst) (enterFrom_teams m s.teams (s.mast m).mxq)
  rw [List.map_map, List.map_map] at h
  unfold State.enterSaved
  dsimp only
  split
  · exact h
  · rfl

theorem teamIds_flushTeam (t : Team) : teamIds (s.flushTeam t) = teamIds s := by
  unfold State.flushTeam State.choices
  exact congrArg (List.map (·.id)) (memoryOnly_flushWhere ..).teams

theorem teamIds_freeRecord (t : Team) : teamIds (s.freeRecord t) = teamIds s := by
  unfold State.freeRecord
  dsimp only
  split
  · exact congrArg (List.map (·.id)) (memoryOnly_writePhys ..).teams
  · rfl

theorem teamIds_clearTeam (t : Team) : teamIds (s.clearTeam t) = teamIds s := by
  unfold State.clearTeam
  dsimp only
  split <;> rfl

theorem teamIds_dropRings (lid : Nat) : teamIds (s.dropRings lid) = teamIds s := by
  unfold State.dropRings
  generalize s.masts = l
  induction l generalizing s with
  | nil => rfl
  | cons m r ih =>
    refine (ih _).trans ?_
    dsimp only
    split
    · exact teamIds_wakeRing ..
    · rfl

theorem teamIds_removeTeam (t : Team) : teamIds (s.removeTeam t) = (teamIds s).filter (· != t.id) := by
  rw [removeTeam_eq, teamIds_dropPins, teamIds_releaseMesh, teamIds_enterSaved]
  have hmap : teamIds (((s.freeRecord t).clearTeam t).withoutTeam t) = (teamIds ((s.freeRecord t).clearTeam t)).filter (· != t.id) := by
    unfold teamIds
    rw [List.filter_map]
    rfl
  rw [hmap, teamIds_clearTeam, teamIds_freeRecord]

/-- Other teams are still there when one is discarded. -/
theorem mem_teamIds_discardTeam {t : Team} {i : Nat} (h : i ∈ teamIds s) (hi : i ≠ t.id) : i ∈ teamIds (s.discardTeam t) := by
  have hdrain : i ∈ teamIds (s.drainTeam t) := by
    unfold State.drainTeam
    dsimp only
    have hc : i ∈ teamIds (s.copiesDone t) := by
      rw [teamIds, State.copiesDone, ids_completeCopies]
      exact h
    split
    · exact hc
    · split
      · rwa [teamIds_flushTeam]
      · exact hc
  unfold State.discardTeam
  dsimp only
  split
  · next u hu =>
    rw [teamIds_removeTeam, List.mem_filter]
    exact ⟨hdrain, by simpa [id_of_team? hu] using hi⟩
  · exact hdrain

end

theorem mem_teamIds_discardTeams {i : Nat} : ∀ (ts : List Team) (s : State), i ∈ teamIds s → (∀ t ∈ ts, i ≠ t.id) → i ∈ teamIds (s.discardTeams ts)
  | [], _, h, _ => h
  | t :: r, s, h, hne => mem_teamIds_discardTeams r _ (mem_teamIds_discardTeam s h (hne t List.mem_cons_self))
      fun u hu => hne u (List.mem_cons_of_mem _ hu)

/-- Teams of other launches are still there when a launch is discarded. -/
theorem mem_teamIds_discardLaunch {s : State} {l : Launch} {i : Nat} (h : i ∈ teamIds s) (hl : ∀ v ∈ s.teams, v.id = i → v.launch ≠ l.id) :
    i ∈ teamIds (s.discardLaunch l) := by
  rw [discardLaunch_frame]
  change i ∈ teamIds ((s.discardTeams (s.teams.filter (·.launch == l.id))).dropRings l.id)
  rw [teamIds_dropRings]
  refine mem_teamIds_discardTeams _ s h fun t ht e => ?_
  obtain ⟨ht, hlt⟩ := List.mem_filter.mp ht
  exact hl t ht e.symm (by simpa using hlt)

/-- A team whose work may have changed since it was listed, but neither its launch nor its mast. -/
def Listed (s : State) (t : Team) : Prop := t.id ∈ teamIds s ∧ ∀ v ∈ s.teams, v.id = t.id → v.launch = t.launch ∧ v.mast = t.mast

theorem Listed.of_mem {s : State} {t : Team} (nd : (s.teams.map (·.id)).Nodup) (ht : t ∈ s.teams) : Listed s t :=
  ⟨List.mem_map_of_mem ht, fun v hv e => by rw [eq_of_id nd hv ht e]; exact ⟨rfl, rfl⟩⟩

theorem Listed.of_shrinks {s u : State} {t : Team} (h : Listed s t) (k : Shrinks s u) (hi : t.id ∈ teamIds u) : Listed u t :=
  ⟨hi, fun v hv e => by
    obtain ⟨w, hw, e', l, m⟩ := k.keys v hv
    rw [← l, ← m]
    exact h.2 w hw (e'.trans e)⟩

/-- A team that is discarded leaves neither copies nor, without DET, staging entries. -/
theorem discardTeam_clears {s : State} {t : Team} (h : Listed s t) : Cleared t.id t.mast (!(s.launchD t.launch).det) (s.discardTeam t) := by
  obtain ⟨hid, hmast⟩ := h
  obtain ⟨u, hu⟩ := team?_copiesDone hid
  have hs := sheds_copiesDone s t
  have hmast : u.mast = t.mast := by
    obtain ⟨v, hv, e, -, m⟩ := hs.keys u (mem_of_team? hu)
    rw [← m, (hmast v hv (e.trans (id_of_team? hu))).2]
  have hdrain : Sheds (s.copiesDone t) (s.drainTeam t) := by
    unfold State.drainTeam
    dsimp only
    split
    · exact .refl _
    · split
      · exact sheds_flushTeam ..
      · exact .refl _
  have hrest : Sheds (s.drainTeam t) (s.discardTeam t) := by
    unfold State.discardTeam
    dsimp only
    split
    · exact sheds_removeTeam ..
    · exact .refl _
  refine ⟨discardTeam_gone s t, fun a ha => asyncs_copiesDone s t a (hdrain.asyncs a (hrest.asyncs a ha)), fun hf e he => ?_⟩
  have he := hrest.staging _ e he
  have hd : ((s.copiesDone t).launchD t.launch).det = false := by
    rw [hs.launchD]
    simpa using hf
  have hflush : s.drainTeam t = (s.copiesDone t).flushTeam u := by
    change (if ((s.copiesDone t).launchD t.launch).det then s.copiesDone t else match (s.copiesDone t).team? t.id with
      | some u => (s.copiesDone t).flushTeam u
      | none => s.copiesDone t) = _
    rw [hd, hu]
    rfl
  rw [hflush, ← hmast] at he
  rw [← id_of_team? hu]
  exact staging_flushTeam _ u e he

theorem discardTeams_clear : ∀ (ts : List Team) (s : State) {t : Team}, t ∈ ts → Listed s t → (ts.map (·.id)).Nodup →
    Cleared t.id t.mast (!(s.launchD t.launch).det) (s.discardTeams ts)
  | [], _, _, ht, _, _ => absurd ht List.not_mem_nil
  | x :: r, s, t, ht, h, nd => by
    obtain ⟨hnot, nd⟩ := List.nodup_cons.mp nd
    obtain rfl | ht := List.mem_cons.mp ht
    · exact (discardTeam_clears h).of_shrinks (.of_sheds (sheds_discardTeams r _))
    · have hne : t.id ≠ x.id := fun e => hnot (List.mem_map.mpr ⟨t, ht, e⟩)
      have hstep := sheds_discardTeam s x
      rw [← hstep.launchD]
      exact discardTeams_clear r _ ht (h.of_shrinks (.of_sheds hstep) (mem_teamIds_discardTeam s h.1 hne)) nd

theorem discardLaunch_clears {s : State} (h : Distinct s) {l : Launch} {t : Team} (ht : Listed s t) (e : t.launch = l.id) :
    Cleared t.id t.mast (!(s.launchD t.launch).det) (s.discardLaunch l) := by
  obtain ⟨v, hv, hvi⟩ := List.mem_map.mp ht.1
  obtain ⟨hvl, hvm⟩ := ht.2 v hv hvi
  rw [← hvi, ← hvm, ← hvl]
  have hdrop := discardTeams_clear (s.teams.filter (·.launch == l.id)) s (List.mem_filter.mpr ⟨hv, by simp [hvl, e]⟩) (.of_mem h.teams hv)
    (h.teams.sublist (List.filter_sublist.map _))
  have hrings := hdrop.of_shrinks (.of_sheds (sheds_dropRings _ l.id))
  refine hrings.of_shrinks ?_
  rw [discardLaunch_eq]
  exact ((shrinks_dropLaunch _ l.id).trans (shrinks_dropPacketOf ..)).trans ((Shrinks.of_ctxs (tidyFaults_frame ..)).trans (.of_ctxs (tidyHyps_frame ..)))

theorem discardLaunches_clear : ∀ (ls : List Launch) (s : State) {l : Launch} {t : Team}, Distinct s → (ls.map (·.id)).Nodup →
    (∀ m ∈ ls, m ∈ s.launches) → l ∈ ls → Listed s t → t.launch = l.id → Cleared t.id t.mast (!l.det) (s.discardLaunches ls)
  | [], _, _, _, _, _, _, hl, _, _ => absurd hl List.not_mem_nil
  | x :: r, s, l, t, h, nd, hls, hl, ht, e => by
    obtain ⟨hnot, nd⟩ := List.nodup_cons.mp nd
    obtain rfl | hl := List.mem_cons.mp hl
    · have hc := discardLaunch_clears h ht e
      rw [e, launchD_of_mem h (hls l List.mem_cons_self)] at hc
      exact hc.of_shrinks (shrinks_discardLaunches r _)
    · have hne : l.id ≠ x.id := fun e => hnot (List.mem_map.mpr ⟨l, hl, e⟩)
      have hstep := shrinks_discardLaunch s x
      refine discardLaunches_clear r _ (h.of_shrinks hstep) nd (fun m hm => ?_) hl (ht.of_shrinks hstep (mem_teamIds_discardLaunch ht.1 fun v hv hvi => ?_)) e
      · exact mem_discardLaunch (hls m (List.mem_cons_of_mem _ hm)) fun e => hnot (List.mem_map.mpr ⟨m, hm, e⟩)
      · rw [(ht.2 v hv hvi).1, e]
        exact hne

end Sys2Proof.Claims
end

section
/-! CONTEXT_CREATE, CONTEXT_DESTROY, its completion and SET_SAVE_AREA (R94 to R96, R360). -/

namespace Sys2Proof.Claims

open Sys2Proof Sys2Proof.Machine

theorem ctx?_result (s : State) (r n : Nat) : (s.result r).ctx? n = s.ctx? n := rfl

/-! ### CONTEXT_CREATE and SET_SAVE_AREA -/

theorem exec_contextCreate {s : State} {lo : Word} {b : CmdBlock} {d : List Byte} (h : CommandReady s lo 1 b) (hn : b.num ≤ 15)
    (hc : s.ctx? b.num = none) (hd : s.readPhys b.addr 64 = some d) (hok : ctxDescOk d = true)
    (henc : ∀ x ∈ s.ctxs, x.encMask &&& fieldLE d 0x2E 2 = 0) :
    exec (.contextCreate lo) s = .next ((s.setCtx (ctxOfDesc b.num d)).result rOK) := by
  have hfree : (s.ctxs.any fun x => x.encMask &&& (ctxOfDesc b.num d).encMask != 0) = false := by
    rw [List.any_eq_false]
    intro x hx
    have := henc x hx
    rw [show (ctxOfDesc b.num d).encMask = fieldLE d 0x2E 2 from rfl, this]
    decide
  change execContextCreate lo s = _
  rw [execContextCreate, command_ready h rfl]
  simp only [if_neg (Nat.not_lt.mpr hn), hc, hd, hok, hfree, Option.isSome_none, Bool.not_true, Bool.false_eq_true, if_false]

theorem contextCreate_creates {s : State} {lo : Word} {b : CmdBlock} {d : List Byte} (h : CommandReady s lo 1 b) (hn : b.num ≤ 15)
    (hc : s.ctx? b.num = none) (hd : s.readPhys b.addr 64 = some d) (hok : ctxDescOk d = true)
    (henc : ∀ x ∈ s.ctxs, x.encMask &&& fieldLE d 0x2E 2 = 0) : Comes (.contextCreate lo) s fun t =>
      Ended t 0 ∧ (∃ c, t.ctx? b.num = some c ∧ c.ptRoot = fieldLE d 0 8 ∧ c.coreSet = fieldLE d 8 24 ∧ c.hypOvf = fieldLE d 0x20 8 ∧
        c.powerCap = fieldLE d 0x30 4 ∧ c.watchdog = fieldLE d 0x34 4 ∧ c.hyps = [] ∧ c.versions = [] ∧ c.saveArea = none) ∧
      (∀ n, n ≠ b.num → t.ctx? n = s.ctx? n) ∧ SameMemory s t := by
  refine ⟨_, exec_contextCreate h hn hc hd hok henc, ended_result .., ⟨ctxOfDesc b.num d, ctx?_setCtx_self s rfl, ?_⟩,
    fun n hne => ctx?_setCtx_other s hne, rfl, rfl, rfl⟩
  and_intros <;> rfl

theorem saveArea_sets {s : State} {lo : Word} {b : CmdBlock} {c : Ctx} (h : CommandReady s lo 8 b) (hn : b.num ≤ 15)
    (hc : s.ctx? b.num = some c) (ha : b.addr < 2 ^ 52) (hsize : b.addr % 65536 ≠ 0)
    (hroom : b.addr / 65536 * 65536 + b.addr % 65536 * 65536 ≤ Config.hbmEnd) (hteams : ∀ t ∈ s.teams, t.place = .resident ∨ t.place = .stopping) :
    Comes (.setSaveArea lo) s fun t =>
      Ended t 0 ∧ t.ctx? b.num = some { c with saveArea := some (b.addr / 65536 * 65536, b.addr % 65536 * 65536) } ∧
      (∀ n, n ≠ b.num → t.ctx? n = s.ctx? n) ∧ SameMemory s t := by
  have hbits : bits b.addr 16 36 = b.addr / 65536 := Nat.mod_eq_of_lt (Nat.div_lt_of_lt_mul ha)
  have hok : ¬(15 < b.num ∨ b.addr % 65536 * 65536 = 0 ∨ 2 ^ 52 ≤ b.addr ∨ Config.hbmEnd < b.addr / 65536 * 65536 + b.addr % 65536 * 65536) := by
    omega
  have hexec : exec (.setSaveArea lo) s =
      .next ((s.setCtx { c with saveArea := some (b.addr / 65536 * 65536, b.addr % 65536 * 65536) }).result rOK) := by
    change execSetSaveArea lo s = _
    rw [execSetSaveArea, command_ready h rfl]
    dsimp only
    rw [hc]
    dsimp only
    rw [hbits, if_neg hok]
    refine congrArg Host.Outcome.next (if_neg ?_)
    rw [Bool.not_eq_true, List.any_eq_false]
    intro t ht
    rcases hteams t ht with e | e <;> simp [e]
  have hnum : c.num = b.num := num_of_ctx? hc
  exact ⟨_, hexec, ended_result .., ctx?_setCtx_self s hnum, fun n hne => ctx?_setCtx_other s (hnum ▸ hne), rfl, rfl, rfl⟩

/-! ### CONTEXT_DESTROY -/

/-- The launches of a context, discarded. -/
def discarded (s : State) (n : Nat) : State := s.discardLaunches (s.launches.filter (·.ctx == n))

/-- The context's queues go with what waits in them, and its destruction is in progress. -/
def destroying (s : State) (n : Nat) : State :=
  { s.stopQueues n with cmd := { s.cmd with busy := true, destroying := some n } }

theorem exec_contextDestroy {s : State} {lo : Word} {b : CmdBlock} (h : CommandReady s lo 2 b) (hn : b.num ≤ 15)
    (hc : (s.ctx? b.num).isSome = true) : exec (.contextDestroy lo) s = .next (destroying (discarded s b.num) b.num) := by
  have hok : ¬(15 < b.num ∨ (s.ctx? b.num).isNone = true) := by
    rintro (h | h)
    · omega
    · simp_all
  change execContextDestroy lo s = _
  rw [execContextDestroy, command_ready h rfl, if_neg hok]
  rfl

theorem shrinks_discarded (s : State) (n : Nat) : Shrinks s (discarded s n) := shrinks_discardLaunches ..

/-- No launch of the context is left, nor a team of one. -/
theorem launches_discarded (s : State) (n : Nat) : ∀ l ∈ (discarded s n).launches, l.ctx ≠ n := by
  intro l hl e
  have hm : l ∈ s.launches.filter (·.ctx == n) := List.mem_filter.mpr ⟨(shrinks_discarded s n).launches.subset hl, by simpa using e⟩
  exact (discardLaunches_gone _ s l hm).1 l hl rfl

theorem teams_discarded (s : State) (n : Nat) : ∀ u ∈ (discarded s n).teams, ∀ l ∈ s.launches, l.ctx = n → u.launch ≠ l.id :=
  fun u hu l hl e => (discardLaunches_gone _ s l (List.mem_filter.mpr ⟨hl, by simpa using e⟩)).2 u hu

/-- Without a launch of the context none of its threads is FAULTED. -/
theorem fcount_of_no_launch {s : State} {n : Nat} (h : ∀ l ∈ s.launches, l.ctx ≠ n) : s.fcount n = 0 := by
  have hnone : s.teams.filter (s.ofCtx n) = [] := by
    rw [List.filter_eq_nil_iff]
    intro t _ ht
    unfold State.ofCtx at ht
    obtain ⟨l, hl, hc⟩ := (Option.any_eq_true ..).mp ht
    exact h l (List.mem_of_find?_eq_some hl) (by simpa using hc)
  unfold State.fcount
  rw [hnone]
  rfl

theorem readReg_fault_registers {s : State} {n : Nat} (hn : n ≤ 15) (h : s.fcount n = 0) :
    (s.readReg (0xC00 + 32 * n)).getLsbD 0 = false ∧ ∀ o, o ∈ [0xC04, 0xC08, 0xC0C] → s.readReg (o + 32 * n) = 0 := by
  refine ⟨by rw [(readReg_faultWord s (by omega : n < 16)).1]; simp [h], fun o ho => ?_⟩
  have hreg (k : Nat) (hk : k < 32) : s.readReg (0xC00 + k + 32 * n) = s.readCtx n k := by
    rw [Nat.add_right_comm]
    exact readReg_ctx s (by omega) hk
  simp only [List.mem_cons, List.not_mem_nil, or_false] at ho
  obtain rfl | rfl | rfl := ho
  · exact (hreg 4 (by decide)).trans (by simp [State.readCtx, h])
  · exact (hreg 8 (by decide)).trans (by simp [State.readCtx, h])
  · exact (hreg 12 (by decide)).trans (by simp [State.readCtx, h])

section
variable {s : State} {lo : Word} {b : CmdBlock} (h : CommandReady s lo 2 b) (hn : b.num ≤ 15) (hc : (s.ctx? b.num).isSome = true)
include h hn hc

theorem contextDestroy_stops : Comes (.contextDestroy lo) s fun t =>
    t.cmd.busy = true ∧ t.cmd.destroying = some b.num ∧ (∀ q ∈ t.queues, q.ctx ≠ b.num) ∧ (∀ h ∈ t.handovers, h.ctx ≠ b.num) ∧
    (∀ p ∈ t.packets, ∀ q, s.queue? p.queue = some q → q.ctx ≠ b.num) ∧ (∀ l ∈ t.launches, l.ctx ≠ b.num) ∧
    (∀ u ∈ t.teams, ∀ l ∈ s.launches, l.ctx = b.num → u.launch ≠ l.id) ∧
    (t.readReg (0xC00 + 32 * b.num)).getLsbD 0 = false ∧ ∀ o, o ∈ [0xC04, 0xC08, 0xC0C] → t.readReg (o + 32 * b.num) = 0 := by
  have hl := launches_discarded s b.num
  refine ⟨_, exec_contextDestroy h hn hc, rfl, rfl, fun q hq => ?_, fun x hx => ?_, fun p hp q hq hqc => ?_, hl, teams_discarded s b.num,
    readReg_fault_registers hn (fcount_of_no_launch (s := destroying (discarded s b.num) b.num) hl)⟩
  · simpa using (List.mem_filter.mp hq).2
  · simpa using (List.mem_filter.mp hx).2
  · obtain ⟨hp, hmine⟩ := List.mem_filter.mp hp
    have hq : (discarded s b.num).queue? p.queue = some q := ((shrinks_discarded s b.num).packets p hp).2.trans hq
    dsimp only at hmine
    rw [hq] at hmine
    simp [hqc] at hmine

theorem contextDestroy_keepsOthers (nl : (s.launches.map (·.id)).Nodup) (nt : (s.teams.map (·.id)).Nodup) :
    Comes (.contextDestroy lo) s fun t => OthersKept s t b.num := by
  have hsafe : CtxSafe b.num s (discarded s b.num) := by
    refine ctxSafe_discardLaunches _ s ⟨nl, nt⟩ (nl.sublist (List.filter_sublist.map _)) fun l hl => ?_
    obtain ⟨hl, hlc⟩ := List.mem_filter.mp hl
    exact ⟨hl, by simpa using hlc⟩
  exact ⟨_, exec_contextDestroy h hn hc, hsafe.others hc⟩

theorem contextDestroy_clears (nl : (s.launches.map (·.id)).Nodup) (nt : (s.teams.map (·.id)).Nodup) :
    Comes (.contextDestroy lo) s fun t => ∀ l ∈ s.launches, l.ctx = b.num → ∀ u ∈ s.teams, u.launch = l.id →
      (∀ v ∈ t.teams, v.id ≠ u.id) ∧ (∀ a ∈ t.asyncs, a.team ≠ u.id) ∧ (l.det = false → ∀ e ∈ (t.mast u.mast).staging, e.team ≠ u.id) := by
  refine ⟨_, exec_contextDestroy h hn hc, fun l hl hlc u hu e => ?_⟩
  have hclear : Cleared u.id u.mast (!l.det) (discarded s b.num) :=
    discardLaunches_clear _ s ⟨nl, nt⟩ (nl.sublist (List.filter_sublist.map _)) (fun m hm => List.mem_of_mem_filter hm)
      (List.mem_filter.mpr ⟨hl, by simpa using hlc⟩) (.of_mem nt hu) e
  exact ⟨hclear.team, hclear.asyncs, fun hd => hclear.staging (by rw [hd]; rfl)⟩

end

/-! ### The completion of a destroy -/

theorem foldl_mask_unmerged (l : List Nat) : ∀ c : Ctx, (∀ v ∈ c.versions, resolveHyp c.hyps v.tag ≠ 0) →
    l.foldl (fun (a : Ctx) pa => a.maskVersions 0 pa) c = c := by
  induction l with
  | nil => exact fun _ _ => rfl
  | cons pa r ih =>
    intro c hv
    rw [List.foldl_cons, maskVersions_of_unmerged hv]
    exact ih c hv

/-- Confirming into the root takes from the versions of the others what R338 says. -/
theorem ctxSafe_confirmMasks (n : Nat) (s : State) (h : Nat) : CtxSafe n s (s.confirmMasks n h) := by
  unfold State.confirmMasks
  dsimp only
  split
  · have hframe (c : Ctx) := foldl_maskVersions_frame 0 ((s.ctxD n).bytesUnder h) c
    have hnum : ∀ c : Ctx, (if c.num = n then c else ((s.ctxD n).bytesUnder h).foldl (fun (a : Ctx) pa => a.maskVersions 0 pa) c).num = c.num := by
      intro c
      split
      · rfl
      · rw [hframe]
    refine ⟨fun hs => by rw [ctx?_map s hnum, Option.isSome_map]; exact hs, fun _ m hm => ⟨fun e => by rw [ctx?_map s hnum, e]; rfl, fun c e => ?_⟩⟩
    have hc : c.num ≠ n := by rw [num_of_ctx? e]; exact hm
    refine ⟨((s.ctxD n).bytesUnder h).foldl (fun (a : Ctx) pa => a.maskVersions 0 pa) c, ?_, by rw [hframe], fun hv => foldl_mask_unmerged _ c hv⟩
    rw [ctx?_map s hnum, e, Option.map_some, if_neg hc]
  · exact .refl s

theorem ctxSafe_sweepOrphans (n : Nat) (s : State) : CtxSafe n s (s.sweepOrphans n) := by
  unfold State.sweepOrphans
  dsimp only
  refine CtxSafe.trans ?_ (ctxSafe_tidyFaults ..)
  exact .of_ctxs (ctxs_foldl_enterViews ..)

theorem ctxSafe_applyResolve (n : Nat) (s : State) (r : ResolveOp) : CtxSafe n s (s.applyResolve n r) := .of_isSome fun hs => by
  have hn := num_ctxD hs
  unfold State.applyResolve
  split
  · rw [confirm_frame]
    have hset : CtxSafe n (s.confirmMasks n r.hyp) ((s.confirmMasks n r.hyp).setCtx ((s.ctxD n).confirmed r.hyp)) :=
      .of_setCtx fun _ => by rw [confirmed_frame]; exact hn
    exact ((ctxSafe_confirmMasks n s r.hyp).trans hset).trans (.of_ctxs rfl)
  · split
    · obtain ⟨ms, ss, e⟩ := refute_eq s n r.hyp
      rw [e]
      have hset : CtxSafe n s { s.setCtx { s.ctxD n with hyps := refuteHyp (s.ctxD n).hyps r.hyp } with masts := ms, streams := ss } :=
        CtxSafe.trans (t := s.setCtx { s.ctxD n with hyps := refuteHyp (s.ctxD n).hyps r.hyp }) (.of_setCtx fun _ => hn) (.of_ctxs rfl)
      exact hset.trans (ctxSafe_sweepOrphans ..)
    · exact .refl s

theorem ctxSafe_applyPending (n : Nat) (s : State) : CtxSafe n s (s.applyPending n) := by
  unfold State.applyPending
  generalize s.running.filterMap (Running.todoOf n) = l
  induction l generalizing s with
  | nil => exact .refl s
  | cons x r ih => exact (ctxSafe_applyResolve n s x.2).trans (ih _)

theorem homeOnly_scrubRoot (s : State) (ctx : Nat) (v : Version) : HomeOnly s (s.scrubRoot ctx v) := by
  unfold State.scrubRoot
  exact (homeOnly_l2Touch ..).trans (.foldl (fun _ _ => homeOnly_leafWrite ..) _ _)

theorem homeOnly_scrubMerged (s : State) (c : Ctx) : HomeOnly s (s.scrubMerged c) := .foldl (fun _ _ => homeOnly_scrubRoot ..) _ s

/-- The state in which a context's pending resolves are applied and its merged versions scrubbed. -/
def settledRoot (s : State) (n : Nat) : State := (s.applyPending n).scrubMerged ((s.applyPending n).ctxD n)

theorem exec_contextDestroyComplete {s : State} {n : Nat} (h : s.cmd.destroying = some n) :
    exec .contextDestroyComplete s = .next (State.result { (settledRoot s n).tlbDrop (·.ctx == n) with
      ctxs := (settledRoot s n).ctxs.filter (·.num != n)
      running := (settledRoot s n).running.filter fun r => !(match r with
        | .resolve _ x _ _ _ => x == n
        | .hinv _ x _ _ => x == n
        | .flush _ _ => false
        | .acqr _ x _ _ _ => x == n)
      streams := (settledRoot s n).streams.filter (·.ctx != n)
      masts := (settledRoot s n).masts.map fun m => m.dropCtx n
      throttled := (settledRoot s n).throttled.filter (·.1 != n)
      cmd := { (settledRoot s n).cmd with destroying := none } } rOK) := by
  change execContextDestroyComplete s = _
  rw [execContextDestroyComplete, h]
  rfl

/-- A context whose number is filtered out is gone, and the others are found as before. -/
theorem find_filter_num (l : List Ctx) (n m : Nat) :
    (l.filter (·.num != n)).find? (·.num == m) = if m = n then none else l.find? (·.num == m) := by
  rw [List.find?_filter]
  split
  · next e =>
    subst e
    exact List.find?_eq_none.mpr fun c _ => by simp
  · next e =>
    congr 1
    funext c
    by_cases hc : c.num = m <;> simp [hc, e]

theorem contextDestroyComplete_removes {s : State} {n : Nat} (h : s.cmd.destroying = some n) : Comes .contextDestroyComplete s fun t =>
    Ended t 0 ∧ t.cmd.destroying = none ∧ t.ctx? n = none ∧ (∀ x ∈ t.streams, x.ctx ≠ n) ∧ (∀ x ∈ t.tlb, x.ctx ≠ n) ∧
    (∀ r ∈ t.running, r.resolves n = false) ∧ (∀ x ∈ t.throttled, x.1 ≠ n) ∧
    ∀ m ∈ t.masts, (∀ x ∈ m.tlb, x.ctx ≠ n) ∧ (∀ x ∈ m.pins, x.ctx ≠ n) ∧ (∀ x ∈ m.gens, x.1.1 ≠ n) ∧ (∀ x ∈ m.slines, x.ctx ≠ n) ∧
      ∀ x ∈ m.l1, x.ctx ≠ n := by
  refine ⟨_, exec_contextDestroyComplete h, ended_result .., rfl, ?_, fun x hx => ?_, fun x hx => ?_, fun r hr => ?_, fun x hx => ?_, fun m hm => ?_⟩
  · exact (find_filter_num _ n n).trans (if_pos rfl)
  · simpa using (List.mem_filter.mp hx).2
  · simpa using (List.mem_filter.mp hx).2
  · have hr := (List.mem_filter.mp hr).2
    cases r with
    | resolve id c p u todo => simpa [Running.resolves] using hr
    | hinv id c slot m => rfl
    | flush id u => rfl
    | acqr id c m v u => rfl
  · simpa using (List.mem_filter.mp hx).2
  · obtain ⟨m', -, rfl⟩ := List.mem_map.mp hm
    and_intros <;> intro x hx <;> simpa using (List.mem_filter.mp hx).2

theorem contextDestroyComplete_keepsOthers {s : State} {n : Nat} (h : s.cmd.destroying = some n) (hs : (s.ctx? n).isSome = true) :
    Comes .contextDestroyComplete s fun t => OthersKept s t n := by
  have hsettled : OthersKept s (settledRoot s n) n :=
    ((ctxSafe_applyPending n s).others hs).trans (((CtxSafe.of_home (homeOnly_scrubMerged ..)).others) ((ctxSafe_applyPending n s).stays hs))
  refine ⟨_, exec_contextDestroyComplete h, hsettled.trans (othersKept_of_ctx? fun m hm => ?_)⟩
  exact (find_filter_num _ n m).trans (if_neg hm)

/-- Settles O41: contexts come and go with all that is theirs. -/
theorem contextCommands : Obligations.ContextCommands := by
  intro s lo
  exact ⟨fun _ _ => contextCreate_creates, fun _ => contextDestroy_stops, fun _ => contextDestroy_keepsOthers, fun _ => contextDestroy_clears,
    fun _ => contextDestroyComplete_removes, fun _ => contextDestroyComplete_keepsOthers, fun _ _ => saveArea_sets⟩

end Sys2Proof.Claims
end

section
/-! Contributions that merge (R324, R327), the fixed tree of a DET launch (R328), the power arbiter and soft errors (R128, R364, R365). -/

namespace Sys2Proof.Claims

open Sys2Proof Sys2Proof.Machine

/-! ### One contribution at its home -/

/-- The signed value of a word. -/
theorem sextNat_eq_toInt (x : Nat) : sextNat 32 x = (BitVec.ofNat 32 x).toInt := by
  rw [BitVec.toInt_eq_toNat_cond, BitVec.toNat_ofNat]
  unfold sextNat
  simp only
  split <;> split <;> omega

theorem byte_mod_two_pow (x : Nat) {k : Nat} (h : k < 8) : BitVec.ofNat 8 (x % 2 ^ 64 / 256 ^ k) = BitVec.ofNat 8 (x / 256 ^ k) :=
  ofNat_byte_mod x h

/-- A bitwise operation on numbers agrees with the one on 64 bits in the low eight bytes. -/
theorem byte_bitwise {f : Nat → Nat → Nat} (hf : ∀ a b, f a b % 2 ^ 64 = f (a % 2 ^ 64) (b % 2 ^ 64)) (a b : Nat) {k : Nat} (h : k < 8) :
    BitVec.ofNat 8 (f a b / 256 ^ k) = BitVec.ofNat 8 (f (a % 2 ^ 64) (b % 2 ^ 64) / 256 ^ k) := by
  rw [← hf, byte_mod_two_pow _ h]

/-- Bytes of a word. -/
theorem byte_of_word {x y : Nat} (e : BitVec.ofNat 32 x = BitVec.ofNat 32 y) {k : Nat} (h : k < 4) :
    BitVec.ofNat 8 (x / 256 ^ k) = BitVec.ofNat 8 (y / 256 ^ k) := by
  have e : x % 2 ^ 32 = y % 2 ^ 32 := by simpa using congrArg BitVec.toNat e
  apply BitVec.eq_of_toNat_eq
  simp only [BitVec.toNat_ofNat]
  interval_cases k <;> omega

/-- The number by which R324 compares. -/
def atomNum (ty x : Nat) : Int := if ty = 1 then (BitVec.ofNat 32 x).toInt else (x : Int)

/-- The model's comparison. -/
theorem atomLe_eq (ty old v : Nat) :
    (if ty = 1 then decide (sextNat 32 old ≤ sextNat 32 v) else decide (old ≤ v)) = decide (atomNum ty old ≤ atomNum ty v) := by
  unfold atomNum
  split
  · rw [sextNat_eq_toInt, sextNat_eq_toInt]
  · exact decide_eq_decide.mpr Int.ofNat_le.symm

/-- Values that compare equal have the same bytes in the location. -/
theorem byte_of_atomNum_eq {ty x y : Nat} (e : atomNum ty x = atomNum ty y) {k : Nat} (h : k < if ty = 2 then 8 else 4) :
    BitVec.ofNat 8 (x / 256 ^ k) = BitVec.ofNat 8 (y / 256 ^ k) := by
  unfold atomNum at e
  split at e
  · next h1 =>
    rw [h1] at h
    exact byte_of_word (BitVec.eq_of_toInt_eq e) h
  · rw [Int.ofNat_inj.mp e]

/-- The model's atomic and R324's agree in every byte of the location. -/
theorem atomNew_byte {op ty : Nat} (old v nv : Nat) (ho : op ≤ 7) {k : Nat} (h : k < if ty = 2 then 8 else 4) :
    BitVec.ofNat 8 ((atomNew op ty old v nv).getD old / 256 ^ k) = BitVec.ofNat 8 ((atomVal op ty old v nv).getD old / 256 ^ k) := by
  have h8 : k < 8 := by split at h <;> omega
  interval_cases op
  · rfl
  · have hv : atomVal 1 ty old v nv = some (if ty = 3 then (fpMinMax f32 false old v).1 else if atomNum ty v < atomNum ty old then v else old) := rfl
    have hn : atomNew 1 ty old v nv = some (if ty = 3 then (fpMinMax f32 false old v).1 else
        if (if ty = 1 then decide (sextNat 32 old ≤ sextNat 32 v) else decide (old ≤ v)) = true then old else v) := rfl
    rw [hv, hn, atomLe_eq]
    by_cases hlt : atomNum ty v < atomNum ty old
    · simp [hlt, not_le.mpr hlt]
    · simp [hlt, not_lt.mp hlt]
  · have hv : atomVal 2 ty old v nv = some (if ty = 3 then (fpMinMax f32 true old v).1 else if atomNum ty old < atomNum ty v then v else old) := rfl
    have hn : atomNew 2 ty old v nv = some (if ty = 3 then (fpMinMax f32 true old v).1 else
        if (if ty = 1 then decide (sextNat 32 old ≤ sextNat 32 v) else decide (old ≤ v)) = true then v else old) := rfl
    rw [hv, hn, atomLe_eq]
    by_cases h3 : ty = 3
    · simp [h3]
    · rcases lt_trichotomy (atomNum ty old) (atomNum ty v) with hlt | heq | hgt
      · simp [h3, hlt, hlt.le]
      · simp only [h3, if_false, heq, le_refl, decide_true, if_true, lt_irrefl, Option.getD_some]
        exact byte_of_atomNum_eq heq.symm h
      · simp [h3, not_le.mpr hgt, hgt.not_gt]
  · have hv : (atomVal 3 ty old v nv).getD old = (old % 2 ^ 64) &&& (v % 2 ^ 64) := by simp [atomVal]
    rw [hv]
    exact byte_bitwise (f := Nat.land) (fun a b => Nat.and_mod_two_pow) old v h8
  · have hv : (atomVal 4 ty old v nv).getD old = (old % 2 ^ 64) ||| (v % 2 ^ 64) := by simp [atomVal]
    rw [hv]
    exact byte_bitwise (f := Nat.lor) (fun a b => Nat.or_mod_two_pow) old v h8
  · have hv : (atomVal 5 ty old v nv).getD old = (old % 2 ^ 64) ^^^ (v % 2 ^ 64) := by simp [atomVal]
    rw [hv]
    exact byte_bitwise (f := Nat.xor) (fun a b => Nat.xor_mod_two_pow) old v h8
  · rfl
  · rfl

/-- A contribution merges where it lies. -/
theorem merged_mergeAt {s : State} {pa op ty : Nat} {l : Loc} (h : Merges s pa l op ty) (ctx : Nat) (mast : Option Nat) (scope v : Nat) :
    Merged s (s.mergeAt ctx mast l op ty scope v) pa op ty v := by
  obtain ⟨rfl, ho, -, hc, nv, wf⟩ := h
  have hn : 0 < if ty = 2 then 8 else 4 := by split <;> decide
  obtain ⟨-, hbytes, hothers⟩ := rmw_hbm (w := ⟨ctx, 0, mast⟩) rfl nv wf hn hc (s.ctxD ctx) scope (op == 6) fun old => atomNew op ty old v 0
  exact ⟨fun k hk => (hbytes k hk).trans (atomNew_byte _ v 0 ho hk), hothers⟩

/-- What merges does not depend on masts, teams and the rest. -/
theorem Merges.of_same {s u : State} {pa op ty : Nat} {l : Loc} (h : Merges s pa l op ty) (hm : u.mem = s.mem) (hp : u.poison = s.poison)
    (hc : u.ctxs = s.ctxs) : Merges u pa l op ty := by
  obtain ⟨hl, ho, ht, ⟨hlt, hclean⟩, nv, wf⟩ := h
  exact ⟨hl, ho, ht, ⟨hlt, by rwa [hp]⟩, by rwa [NoVersions, hc], by rwa [hm]⟩

theorem Merged.of_same {s u t : State} {pa op ty v : Nat} (h : Merged u t pa op ty v) (hm : u.mem = s.mem) : Merged s t pa op ty v := by
  have hv : valueAt u pa = valueAt s pa := by unfold valueAt; rw [hm]
  unfold Merged Holds at *
  rwa [hv, hm] at h

theorem Merged.of_mem {s t u : State} {pa op ty v : Nat} (h : Merged s t pa op ty v) (hm : u.mem = t.mem) : Merged s u pa op ty v :=
  Holds.of_mem h hm

/-! ### The fixed tree (R328) -/

/-- One level of the tree over the leaves 0 to 2m. -/
theorem partialLevel_range (f : Nat → Nat) : ∀ m i, partialLevel ((List.range' (2 * i) (2 * m)).map f) =
    (List.range' i m).map fun j => (fpAdd f32 RNE (f (2 * j)) (f (2 * j + 1))).1
  | 0, _ => rfl
  | m + 1, i => by
    rw [show 2 * (m + 1) = 2 * m + 1 + 1 by omega, List.range'_succ, List.range'_succ, List.range'_succ]
    simp only [List.map_cons, partialLevel]
    rw [show 2 * i + 1 + 1 = 2 * (i + 1) by omega, partialLevel_range f m (i + 1)]

/-- Levels of the tree, from the leaves up. -/
theorem foldl_partialLevel (leaf : Nat → Nat) (n : Nat) : ∀ j k, (List.range j).foldl (fun (l : List Nat) _ => partialLevel l)
    ((List.range' 0 (2 ^ (k + j))).map (treeAt (fun x y => (fpAdd f32 RNE x y).1) leaf n)) =
      (List.range' 0 (2 ^ k)).map (treeAt (fun x y => (fpAdd f32 RNE x y).1) leaf (n + j))
  | 0, k => rfl
  | j + 1, k => by
    rw [List.range_succ, List.foldl_append]
    have hj := foldl_partialLevel leaf n j (k + 1)
    rw [show k + 1 + j = k + (j + 1) by omega] at hj
    rw [hj, Nat.pow_succ']
    exact partialLevel_range _ (2 ^ k) 0

/-- The partials of a launch of n teams combine along the least tree that holds them. -/
theorem partialRoot_eq {n k : Nat} (leaf : Nat → Nat) (hk : k ≤ 8) (hn : n ≤ 2 ^ k) (hleast : ∀ j, n ≤ 2 ^ j → k ≤ j)
    (hleaf : ∀ t, n ≤ t → leaf t = 0x80000000) : partialRoot n leaf = treeAt (fun x y => (fpAdd f32 RNE x y).1) leaf k 0 := by
  have hfind : (List.range 9).find? (fun k => n ≤ 2 ^ k) = some k := by
    rw [List.find?_range_eq_some]
    exact ⟨by simpa using hn, by simp; omega, fun j hj => by
      simpa using not_le.mp fun h => absurd (hleast j h) (not_le.mpr hj)⟩
  have hleaves : ((List.range (2 ^ k)).map fun t => if t < n then leaf t else 0x80000000) = (List.range' 0 (2 ^ k)).map leaf := by
    rw [← List.range_eq_range']
    refine List.map_congr_left fun t _ => ?_
    split
    · rfl
    · next h => exact (hleaf t (not_lt.mp h)).symm
  unfold partialRoot
  dsimp only
  rw [hfind, Option.getD_some, hleaves]
  have htree := foldl_partialLevel leaf 0 k 0
  rw [Nat.zero_add] at htree
  rw [show treeAt (fun x y => (fpAdd f32 RNE x y).1) leaf 0 = leaf from rfl] at htree
  rw [htree]
  rfl

/-! ### Power and soft errors -/

theorem satInc_toNat (x : Word) : (satInc x).toNat = min (2 ^ 32 - 1) (x.toNat + 1) := by
  unfold satInc
  split
  · next h => rw [h]; rfl
  · next h =>
    have hne : x.toNat ≠ 2 ^ 32 - 1 := fun e => h (BitVec.eq_of_toNat_eq e)
    have := x.isLt
    rw [BitVec.toNat_add, show (1 : Word).toNat = 1 from rfl]
    omega

/-- A sample over its cap holds the context back. -/
theorem mem_heldBack {s : State} {watts : List (Nat × Nat)} {c : Ctx} (hc : c ∈ s.ctxs) {w : Nat} (hw : alGet c.num watts = some w)
    (h : c.powerCap < w) : (c.num, w) ∈ s.heldBack watts :=
  List.mem_filterMap.mpr ⟨c, hc, by rw [hw]; exact if_pos (.inl h)⟩

/-- A sample under its cap lets it go. -/
theorem not_heldBack {s : State} {watts : List (Nat × Nat)} (nd : (s.ctxs.map (·.num)).Nodup) {c : Ctx} (hc : c ∈ s.ctxs) {w : Nat}
    (hw : alGet c.num watts = some w) (h : w < c.powerCap) : ∀ x ∈ s.heldBack watts, x.1 ≠ c.num := by
  intro x hx e
  obtain ⟨d, hd, hx⟩ := List.mem_filterMap.mp hx
  have hnum : x.1 = d.num := by
    split at hx
    · rw [← Option.some.inj (Option.ite_none_right_eq_some.mp hx).2]
    · obtain ⟨v, -, rfl⟩ := Option.map_eq_some_iff.mp hx
      rfl
  obtain rfl := eq_of_id nd hd hc (hnum.symm.trans e)
  rw [hw] at hx
  obtain ⟨hcond, -⟩ := Option.ite_none_right_eq_some.mp hx
  omega

theorem overCap_iff {s : State} {held : List (Nat × Nat)} : s.overCap held = true ↔ ∃ x ∈ held, (s.ctxD x.1).powerCap < x.2 := by
  simp [State.overCap]

theorem powerSample_accounts (s : State) (module : Nat) (watts : List (Nat × Nat)) : Comes (.powerSample module watts) s fun t =>
    t = { s with throttled := t.throttled, clockMHz := t.clockMHz } ∧
    (∀ c ∈ s.ctxs, ∀ w, alGet c.num watts = some w → c.powerCap < w → (c.num, w) ∈ t.throttled) ∧
    ((s.ctxs.map (·.num)).Nodup → ∀ c ∈ s.ctxs, ∀ w, alGet c.num watts = some w → w < c.powerCap → ∀ x ∈ t.throttled, x.1 ≠ c.num) ∧
    (module < 1500 → t.clockMHz = 1000) ∧
    (1500 < module → (∃ x ∈ t.throttled, (s.ctxD x.1).powerCap < x.2) → t.clockMHz = s.clockMHz) ∧
    (1500 < module → (∀ x ∈ t.throttled, x.2 ≤ (s.ctxD x.1).powerCap) → t.clockMHz = max 500 (s.clockMHz - 50)) := by
  refine ⟨_, rfl, rfl, fun c hc w hw h => mem_heldBack hc hw h, fun nd c hc w hw h => not_heldBack nd hc hw h, fun h => ?_, fun h ho => ?_, fun h ho => ?_⟩
  · change (if moduleBudget < module then _ else if module < moduleBudget then clockTop else s.clockMHz) = _
    rw [if_neg (show ¬moduleBudget < module from Nat.lt_asymm h), if_pos (show module < moduleBudget from h)]
    rfl
  · change (if moduleBudget < module then (if s.overCap (s.heldBack watts) then _ else _) else _) = _
    rw [if_pos (show moduleBudget < module from h), if_pos (overCap_iff.mpr ho)]
  · change (if moduleBudget < module then (if s.overCap (s.heldBack watts) then _ else max clockLow (s.clockMHz - clockStep)) else _) = _
    rw [if_pos (show moduleBudget < module from h), if_neg fun hover => by obtain ⟨x, hx, hlt⟩ := overCap_iff.mp hover; exact absurd (ho x hx) (not_le.mpr hlt)]
    rfl

theorem mem_foldl_nsInsert {x : Nat} : ∀ (l r : List Nat), x ∈ l → x ∈ l.foldl (fun (a : List Nat) k => nsInsert k a) r := by
  have hkeep : ∀ (l r : List Nat), x ∈ r → x ∈ l.foldl (fun (a : List Nat) k => nsInsert k a) r := by
    intro l
    induction l with
    | nil => exact fun _ h => h
    | cons k l ih => exact fun r h => ih _ (mem_nsInsert.mpr (.inr h))
  intro l
  induction l with
  | nil => exact fun _ h => absurd h List.not_mem_nil
  | cons k l ih =>
    intro r h
    obtain rfl | h := List.mem_cons.mp h
    · exact hkeep l _ (mem_nsInsert.mpr (.inl rfl))
    · exact ih _ h

/-- An uncorrectable error of HBM poisons its sector. -/
theorem softError_hbm {s : State} {pa : Nat} (h : pa < Config.hbmEnd) :
    s.softError (.hbm pa) = { s.poisonSector pa with ueAddr := BitVec.ofNat 64 pa } := if_pos (by simpa [isHbm] using h)

theorem mem_sectorOf {pa a : Nat} (h : a / 32 = pa / 32) : a ∈ sectorOf pa := by
  unfold sectorOf
  refine List.mem_map.mpr ⟨a % 32, List.mem_range.mpr (Nat.mod_lt _ (by decide)), ?_⟩
  rw [← h]
  omega

/-- Every byte of the sector of an address is poisoned, and nothing else happens. -/
theorem poisonSector_poisons (s : State) (pa : Nat) : ∃ l, s.poisonSector pa = { s with poison := l } ∧ ∀ a, a / 32 = pa / 32 → a ∈ l := by
  refine ⟨(sectorOf pa).foldl (fun l a => nsInsert a l) s.poison, rfl, fun a ha => ?_⟩
  have hm := mem_sectorOf ha
  generalize sectorOf pa = l at hm ⊢
  exact mem_foldl_nsInsert l s.poison hm

theorem exec_eccUncorrectable (s : State) (k : Storage) :
    exec (.eccUncorrectable k) s = .next { s.softError k with ueCount := satInc s.ueCount } := rfl

theorem eccUncorrectable_poisons (s : State) (k : Storage) : Comes (.eccUncorrectable k) s fun t =>
    t.ueCount.toNat = min (2 ^ 32 - 1) (s.ueCount.toNat + 1) ∧
    ∀ pa, k = .hbm pa → pa < Config.hbmEnd → t.ueAddr.toNat = pa ∧ t.mem = s.mem ∧ ∀ a, a / 32 = pa / 32 → a ∈ t.poison := by
  refine ⟨_, exec_eccUncorrectable s k, satInc_toNat _, fun pa hk h => ?_⟩
  have haddr : (BitVec.ofNat 64 pa).toNat = pa := by
    rw [BitVec.toNat_ofNat]
    exact Nat.mod_eq_of_lt (lt_trans h (by decide))
  subst hk
  obtain ⟨l, hl, hpoison⟩ := poisonSector_poisons s pa
  rw [softError_hbm h, hl]
  exact ⟨haddr, rfl, hpoison⟩

theorem supplySteps (s : State) : SupplySteps s :=
  ⟨powerSample_accounts s, ⟨_, rfl, rfl, satInc_toNat _⟩, eccUncorrectable_poisons s⟩

end Sys2Proof.Claims
end

section
/-! The ends of launches: what finishes (R372, R373) and what the watchdog stops (R114). -/

namespace Sys2Proof.Machine

/-! ### Steps that leave memory, poison and host copies alone -/

/-- Memory as software sees it through the host window is as it was, and so are the contexts. -/
structure SameHome (s t : State) : Prop where
  mem : t.mem = s.mem
  poison : t.poison = s.poison
  hostCache : t.hostCache = s.hostCache

namespace SameHome

theorem refl (s : State) : SameHome s s := ⟨rfl, rfl, rfl⟩
theorem trans {s t u : State} (h : SameHome s t) (k : SameHome t u) : SameHome s u :=
  ⟨k.mem.trans h.mem, k.poison.trans h.poison, k.hostCache.trans h.hostCache⟩
theorem ite {s a b : State} {p : Prop} [Decidable p] (ha : SameHome s a) (hb : SameHome s b) : SameHome s (if p then a else b) := by
  split <;> assumption
theorem foldl {α : Type} {f : State → α → State} (h : ∀ s x, SameHome s (f s x)) : ∀ (l : List α) (s : State), SameHome s (l.foldl f s)
  | [], s => refl s
  | x :: r, s => (h s x).trans (foldl h r (f s x))
theorem same {s t : State} (h : SameHome s t) : Claims.SameMemory s t := ⟨h.mem, h.poison, h.hostCache⟩

end SameHome

theorem sameHome_setTeam (s : State) (t : Team) : SameHome s (s.setTeam t) := ⟨rfl, rfl, rfl⟩
theorem sameHome_setMast (s : State) (m : Mast) : SameHome s (s.setMast m) := ⟨rfl, rfl, rfl⟩
theorem sameHome_setLaunch (s : State) (l : Launch) : SameHome s (s.setLaunch l) := ⟨rfl, rfl, rfl⟩

theorem sameHome_wakeRing (s : State) (m : Nat) : SameHome s (s.wakeRing m) := .foldl (fun a _ => sameHome_setTeam a _) _ s

theorem sameHome_ringRelease (s : State) (m slot : Nat) : SameHome s (s.ringRelease m slot) := by
  unfold State.ringRelease
  dsimp only
  split
  · exact .refl s
  · exact .ite ((sameHome_setMast ..).trans (sameHome_wakeRing ..)) (sameHome_setMast ..)

theorem sameHome_releaseMesh (s : State) (t : Team) : SameHome s (s.releaseMesh t) := by
  unfold State.releaseMesh
  split
  · split
    · exact sameHome_ringRelease ..
    · exact .refl s
  · exact .refl s

theorem sameHome_dropPins (s : State) (c m : Nat) : SameHome s (s.dropPins c m) := by
  unfold State.dropPins
  exact .ite (.refl s) (.ite (sameHome_setMast ..) (.refl s))

theorem sameHome_enterSaved (s : State) (m : Nat) : SameHome s (s.enterSaved m) := by
  unfold State.enterSaved
  exact .ite ⟨rfl, rfl, rfl⟩ (.refl s)

theorem sameHome_clearTeam (s : State) (t : Team) : SameHome s (s.clearTeam t) := by
  unfold State.clearTeam
  exact .ite (sameHome_setMast ..) (.refl s)

/-- A team on its mast has no record to free. -/
theorem freeRecord_of_resident {s : State} {t : Team} (h : t.place = .resident) : s.freeRecord t = s := by
  unfold State.freeRecord
  rw [h]

theorem sameHome_removeTeam {s : State} {t : Team} (h : t.place = .resident) : SameHome s (s.removeTeam t) := by
  rw [removeTeam_eq, freeRecord_of_resident h]
  have hout : SameHome (s.clearTeam t) ((s.clearTeam t).withoutTeam t) := ⟨rfl, rfl, rfl⟩
  exact (((sameHome_clearTeam s t).trans hout).trans (sameHome_enterSaved ..)).trans ((sameHome_releaseMesh ..).trans (sameHome_dropPins ..))

theorem sameHome_dropRings (s : State) (lid : Nat) : SameHome s (s.dropRings lid) :=
  .foldl (fun _ _ => .ite ((sameHome_setMast ..).trans (sameHome_wakeRing ..)) (.refl _)) _ s

theorem sameHome_tidyFaults (s : State) (c : Nat) : SameHome s (s.tidyFaults c) := by rw [tidyFaults_frame]; exact ⟨rfl, rfl, rfl⟩
theorem sameHome_tidyHyps (s : State) (c : Nat) : SameHome s (s.tidyHyps c) := by rw [tidyHyps_frame]; exact ⟨rfl, rfl, rfl⟩
theorem sameHome_dropPacketOf (s : State) (id : Nat) : SameHome s (s.dropPacketOf id) := by rw [dropPacketOf_frame]; exact ⟨rfl, rfl, rfl⟩
theorem sameHome_queueError (s : State) (q cause : Nat) (index : Word) (pkt : Option Nat) (unread : Bool) :
    SameHome s (s.queueError q cause index pkt unread) := by rw [queueError_frame]; exact ⟨rfl, rfl, rfl⟩

/-- A flush with nothing to flush. -/
theorem flushWhere_of_none {s : State} {mast : Nat} {p : Stage0 → Bool} (h : ∀ e ∈ (s.mast mast).staging, p e = false) (order : List Nat) :
    s.flushWhere mast p order = s := by
  unfold State.flushWhere
  have hnone : (s.mast mast).staging.filter p = [] := List.filter_eq_nil_iff.mpr fun e he => by simp [h e he]
  simp [hnone]

/-- A flush of the one entry there is. -/
theorem flushWhere_of_one {s : State} {mast : Nat} {p : Stage0 → Bool} {e : Stage0} (h : (s.mast mast).staging = [e]) (hp : p e = true) {k : Nat} :
    s.flushWhere mast p [k] = (s.setMast { s.mast mast with staging := [] }).mergeAt e.ctx (some mast) e.loc e.op e.ty e.scope e.value := by
  have hone : (s.mast mast).staging.filter p = [e] := by simp [h, hp]
  have hrest : (s.mast mast).staging.filter (fun e => !p e) = [] := by simp [h, hp]
  have hpick : pickOrder [k] [e] = [e] := by simp [pickOrder, Nat.mod_one]
  unfold State.flushWhere
  dsimp only
  rw [hone, hrest, hpick]
  rfl

theorem flushTeam_of_none {s : State} {t : Team} (h : ∀ e ∈ (s.mast t.mast).staging, e.team ≠ t.id) : s.flushTeam t = s := by
  have hnone : (s.mast t.mast).staging.filter (fun e => e.team == t.id) = [] := List.filter_eq_nil_iff.mpr fun e he => by simp [h e he]
  unfold State.flushTeam State.choices
  rw [hnone]
  exact flushWhere_of_none (s := { s with free := s.free }) (fun e he => by simpa using h e he) _

/-- The state in which a team's entry has been taken from the buffer of its mast. -/
def State.takeEntry (s : State) (t : Team) : State :=
  State.setMast { s with free := s.free + 1 } { s.mast t.mast with staging := [] }

theorem flushTeam_of_one {s : State} {t : Team} {e : Stage0} (h : (s.mast t.mast).staging = [e]) (he : e.team = t.id) :
    s.flushTeam t = (s.takeEntry t).mergeAt e.ctx (some t.mast) e.loc e.op e.ty e.scope e.value := by
  have hone : (s.mast t.mast).staging.filter (fun e => e.team == t.id) = [e] := by simp [h, he]
  unfold State.flushTeam State.choices
  rw [hone]
  exact flushWhere_of_one (s := { s with free := s.free + 1 }) h (by simp [he])

theorem l1Only_mergeAt (s : State) (ctx : Nat) (mast : Option Nat) (l : Loc) (op ty scope v : Nat) :
    L1Only s (s.mergeAt ctx mast l op ty scope v) := l1Only_rmw ..

theorem staging_flushTeam_of_one {s : State} {t : Team} {e : Stage0} (h : (s.mast t.mast).staging = [e]) (he : e.team = t.id) :
    ((s.flushTeam t).mast t.mast).staging = [] := by
  rw [flushTeam_of_one h he, (l1Only_mergeAt ..).staging, State.takeEntry, mast_setMast, if_pos (mast_num s t.mast).symm]

theorem teams_flushTeam (s : State) (t : Team) : (s.flushTeam t).teams = s.teams := by
  unfold State.flushTeam State.choices
  exact (memoryOnly_flushWhere ..).teams

/-! ### Queues when a launch is discarded -/

theorem queue?_reapQueue_kept {s : State} {n m : Nat} {q : Queue} (h : s.queue? n = some q) (hd : q.destroyed = false) :
    (s.reapQueue m).queue? n = some q := by
  unfold State.reapQueue
  split
  · exact h
  · next x hx =>
    split
    · next hreap =>
      have hne : n ≠ m := fun e => by
        rw [← e, h] at hx
        obtain rfl := Option.some.inj hx
        simp [hd] at hreap
      change (s.queues.filter (·.num != m)).find? (·.num == n) = _
      rw [List.find?_filter]
      refine Eq.trans ?_ h
      congr 1
      funext x
      by_cases hx : x.num = n <;> simp [hx, hne]
    · exact h

theorem queue?_dropPacketOf {s : State} {n id : Nat} {q : Queue} (h : s.queue? n = some q) (hd : q.destroyed = false) :
    (s.dropPacketOf id).queue? n = some q := by
  unfold State.dropPacketOf
  split
  · exact queue?_reapQueue_kept (s := { s with packets := s.packets.filter _ }) h hd
  · exact h

/-- The packet of a discarded launch has left. -/
theorem dropPacketOf_gone (s : State) (id : Nat) : Claims.Gone (s.dropPacketOf id) id := by
  unfold State.dropPacketOf
  split
  · next p hp =>
    rw [dropPacket_frame]
    exact not_mem_filter_id (id_of_packet? hp)
  · next hnone =>
    intro y hy
    simpa using List.find?_eq_none.mp hnone y hy

end Sys2Proof.Machine

namespace Sys2Proof.Claims

open Sys2Proof Sys2Proof.Machine

/-! ### WATCHDOG_EXPIRY (R114) -/

/-- A launch ends before it finishes: its queue is in error, and it is discarded. -/
theorem exec_watchdogExpiry {s : State} {launch : Nat} {l : Launch} (hl : s.launch? launch = some l) (h0 : (s.ctxD l.ctx).watchdog ≠ 0)
    (hw : 1000000 * (s.ctxD l.ctx).watchdog ≤ s.watchTime l) :
    exec (.watchdogExpiry launch) s = .next ((s.queueError l.queue eWATCHDOG (((s.packet? l.packet).map (·.index)).getD 0) none false).discardLaunch l) := by
  change execWatchdogExpiry launch s = _
  unfold execWatchdogExpiry
  rw [hl]
  dsimp only
  rw [if_pos ⟨h0, hw⟩]
  rfl

theorem packets_discardLaunch_gone (s : State) (l : Launch) : Gone (s.discardLaunch l) l.packet := by
  rw [discardLaunch_eq, Gone, tidyHyps_frame, tidyFaults_frame]
  exact dropPacketOf_gone _ _

/-- A queue that stays is as it was when a launch is discarded. -/
theorem queue?_discardLaunch {s : State} {l : Launch} {n : Nat} {q : Queue} (h : s.queue? n = some q) (hd : q.destroyed = false) :
    (s.discardLaunch l).queue? n = some q := by
  rw [discardLaunch_eq, tidyHyps_frame, tidyFaults_frame]
  refine queue?_dropPacketOf (s := (s.dropTeamsOf l).withoutLaunch l) ?_ hd
  change (s.dropTeamsOf l).queue? n = _
  rw [State.queue?, (sheds_dropTeamsOf s l).queues]
  exact h

theorem vectors_discardLaunch (s : State) (l : Launch) : (s.discardLaunch l).vectors = s.vectors := by
  rw [discardLaunch_frame, (sheds_dropTeamsOf s l).frame]

section
variable {s : State} {launch : Nat} {l : Launch} (hl : s.launch? launch = some l) (h0 : (s.ctxD l.ctx).watchdog ≠ 0)
  (hw : 1000000 * (s.ctxD l.ctx).watchdog ≤ s.watchTime l)
include hl h0 hw

theorem watchdog_leavesNothing : Comes (.watchdogExpiry launch) s fun t =>
    (∀ m ∈ t.launches, m.id ≠ launch) ∧ (∀ u ∈ t.teams, u.launch ≠ launch) ∧ Gone t l.packet := by
  have hid := id_of_launch? hl
  refine ⟨_, exec_watchdogExpiry hl h0 hw, fun m hm => ?_, fun u hu e => ?_, packets_discardLaunch_gone _ l⟩
  · rw [launches_discardLaunch] at hm
    simpa [hid] using (List.mem_filter.mp hm).2
  · obtain ⟨v, hv, hvi, hvl, -⟩ := (shrinks_discardLaunch _ l).keys u hu
    exact discardLaunch_gone _ l hv (by rw [hvl, e, hid]) u hu hvi.symm

theorem watchdog_error {p : Packet} {q : Queue} (hp : s.packet? l.packet = some p) (hq : s.queue? l.queue = some q) (he : q.error = false)
    (hd : q.destroyed = false) : Comes (.watchdogExpiry launch) s fun t => t.vectors = s.vectors ++ [q.vector] ∧ t.queue? l.queue =
      some { q with error := true, cause := 0x0B, errIndex := p.index, errPacket := none, errUnread := false } := by
  refine ⟨_, exec_watchdogExpiry hl h0 hw, ?_⟩
  rw [hp, queueError_of_ok hq he]
  exact ⟨vectors_discardLaunch .., queue?_discardLaunch (queue?_setQueue_self s (num_of_queue? hq :)) hd⟩

end

/-- What follows the teams of a launch that is discarded leaves memory alone. -/
theorem sameHome_afterTeams (s : State) (l : Launch) : SameHome (s.discardTeams (s.teams.filter (·.launch == l.id))) (s.discardLaunch l) := by
  rw [discardLaunch_eq]
  have hrings := sameHome_dropRings (s.discardTeams (s.teams.filter (·.launch == l.id))) l.id
  have hlaunch : SameHome (s.dropTeamsOf l) ((s.dropTeamsOf l).withoutLaunch l) := ⟨rfl, rfl, rfl⟩
  exact ((hrings.trans hlaunch).trans (sameHome_dropPacketOf ..)).trans ((sameHome_tidyFaults ..).trans (sameHome_tidyHyps ..))

theorem staging_afterTeams {s : State} {l : Launch} {m : Nat} (h : ((s.discardTeams (s.teams.filter (·.launch == l.id))).mast m).staging = []) :
    ((s.discardLaunch l).mast m).staging = [] := by
  have hsub : Shrinks (s.discardTeams (s.teams.filter (·.launch == l.id))) (s.discardLaunch l) := by
    rw [discardLaunch_eq]
    exact ((Shrinks.of_sheds (sheds_dropRings _ l.id)).trans (shrinks_dropLaunch _ l.id)).trans ((shrinks_dropPacketOf ..).trans
      ((Shrinks.of_ctxs (tidyFaults_frame ..)).trans (.of_ctxs (tidyHyps_frame ..))))
  exact List.eq_nil_iff_forall_not_mem.mpr fun e he => absurd (hsub.staging m e he) (by rw [h]; exact List.not_mem_nil)

section
variable {s : State} {l : Launch} {u : Team} (ht : s.teams = [u]) (hu : u.launch = l.id) (hr : u.place = .resident) (ha : s.asyncs = [])
include ht hu ha

theorem discardTeams_alone : s.discardTeams (s.teams.filter (·.launch == l.id)) =
    (if (s.launchD u.launch).det then s else s.flushTeam u).removeTeam u := by
  have hfind : s.team? u.id = some u := by simp [State.team?, ht]
  have hfilter : s.teams.filter (·.launch == l.id) = [u] := by simp [ht, hu]
  have hdrain : s.drainTeam u = if (s.launchD u.launch).det then s else s.flushTeam u := by
    have hcopies : s.copiesDone u = s := by simp [State.copiesDone, ha, State.completeCopies]
    change (if ((s.copiesDone u).launchD u.launch).det then s.copiesDone u else match (s.copiesDone u).team? u.id with
      | some v => (s.copiesDone u).flushTeam v
      | none => s.copiesDone u) = _
    rw [hcopies, hfind]
  have hstill : (s.drainTeam u).team? u.id = some u := by
    rw [hdrain]
    split
    · exact hfind
    · rw [State.team?, teams_flushTeam]
      exact hfind
  rw [hfilter]
  change s.discardTeam u = _
  unfold State.discardTeam
  dsimp only
  rw [hstill, hdrain]

include hr

theorem discardLaunch_quiet (h : (s.launchD u.launch).det = true ∨ (s.mast u.mast).staging = []) : SameMemory s (s.discardLaunch l) := by
  refine (SameHome.trans ?_ (sameHome_afterTeams s l)).same
  rw [discardTeams_alone ht hu ha]
  split
  · exact sameHome_removeTeam hr
  · next hd =>
    rw [flushTeam_of_none fun e he => by rw [h.resolve_left hd] at he; exact absurd he List.not_mem_nil]
    exact sameHome_removeTeam hr

theorem discardLaunch_merges {e : Stage0} {pa : Nat} (hd : (s.launchD u.launch).det = false) (hs : (s.mast u.mast).staging = [e]) (he : e.team = u.id)
    (hm : Merges s pa e.loc e.op e.ty) : Merged s (s.discardLaunch l) pa e.op e.ty e.value ∧ ((s.discardLaunch l).mast u.mast).staging = [] := by
  have hteams := discardTeams_alone ht hu ha
  rw [hd] at hteams
  have hteams : s.discardTeams (s.teams.filter (·.launch == l.id)) = (s.flushTeam u).removeTeam u := hteams
  have hmem : (s.discardLaunch l).mem = (s.flushTeam u).mem := by
    rw [(sameHome_afterTeams s l).mem, hteams, (sameHome_removeTeam hr).mem]
  refine ⟨?_, staging_afterTeams ?_⟩
  · have hmerged := merged_mergeAt (hm.of_same (u := s.takeEntry u) rfl rfl rfl) e.ctx (some u.mast) e.scope e.value
    rw [← flushTeam_of_one hs he] at hmerged
    exact (hmerged.of_same rfl).of_mem hmem
  · rw [hteams]
    exact List.eq_nil_iff_forall_not_mem.mpr fun x hx =>
      absurd ((sheds_removeTeam ..).staging _ x hx) (by rw [staging_flushTeam_of_one hs he]; exact List.not_mem_nil)

end

theorem watchdogStep (s : State) (launch : Nat) (l : Launch) : WatchdogStep s launch l := by
  intro hl h0 hw
  have hid := id_of_launch? hl
  refine ⟨watchdog_leavesNothing hl h0 hw, fun p q hp hq he hd => watchdog_error hl h0 hw hp hq he hd, fun u ht hu hr ha => ?_⟩
  have hframe := queueError_frame s l.queue eWATCHDOG (((s.packet? l.packet).map (·.index)).getD 0) none false
  have hexec := exec_watchdogExpiry hl h0 hw
  generalize s.queueError l.queue eWATCHDOG (((s.packet? l.packet).map (·.index)).getD 0) none false = a at hframe hexec
  have hdet : (a.launchD u.launch).det = l.det := by
    have hd : a.launchD u.launch = l := by rw [hframe, hu]; exact launchD_of_launch? (s := s) hl
    rw [hd]
  have hta : a.teams = [u] := by rw [hframe]; exact ht
  have haa : a.asyncs = [] := by rw [hframe]; exact ha
  have hma (k : Nat) : a.mast k = s.mast k := by rw [hframe]; rfl
  refine ⟨fun h => ⟨_, hexec, ?_⟩, fun e pa hd hs he hm => ⟨_, hexec, ?_⟩⟩
  · have hq := discardLaunch_quiet hta (hu.trans hid.symm) hr haa (by rwa [hdet, hma])
    rw [hframe] at hq ⊢
    exact hq
  · have hmerged := discardLaunch_merges hta (hu.trans hid.symm) hr haa (by rwa [hdet]) (by rwa [hma]) he
      (hm.of_same (by rw [hframe]) (by rw [hframe]) (by rw [hframe]))
    exact ⟨hmerged.1.of_same (by rw [hframe]), hmerged.2⟩

end Sys2Proof.Claims
end

section
/-! LAUNCH_FINISH (R372, R373, R110): the partials of a DET launch, its completion signal, its successors. -/

namespace Sys2Proof.Claims

open Sys2Proof Sys2Proof.Machine

/-! ### The release of successors -/

theorem poison_readRoot (s : State) (c : Ctx) (va n : Nat) : (s.readRoot c va n).1.poison = s.poison := by
  have hbyte : ∀ (s : State) (c : Ctx) (h : Nat) (l : Loc), (s.homeViewByte c h l).1.poison = s.poison := by
    intro s c h l
    unfold State.homeViewByte
    split
    · rfl
    · exact poison_l2Read ..
  have hbytes : ∀ (n : Nat) (s : State) (l : Loc), (s.homeBytes c 0 l n).1.poison = s.poison := by
    intro n
    induction n with
    | zero => exact fun _ _ => rfl
    | succ n ih => exact fun s l => (ih _ _).trans (hbyte ..)
  have hsegs : ∀ (ls : List (Loc × Nat)) (s : State), (s.homeSegs c 0 ls).1.poison = s.poison := by
    intro ls
    induction ls with
    | nil => exact fun _ => rfl
    | cons x r ih => exact fun s => (ih _).trans (hbytes ..)
  unfold State.readRoot
  split
  · rfl
  · exact hsegs ..

/-- What a finished packet becomes: it has no successors left, or its first one has been read, or could not be. -/
def Finished (t : State) (p : Packet) : Prop := ∀ n, n = min 4 (p.tailW 0x14) →
  (n = 0 → t.packet? p.id = some { p with st := .finished, left := [] }) ∧
  (n ≠ 0 → ∃ q, t.packet? p.id = some q ∧ q.st = .finished ∧
    ((q.left = (List.range n).tail ∧ ∃ y ∈ t.packets, y.parent = some p.id ∧ y.place = 0 ∧ y.st = .read) ∨ q.left = []))

/-- The release of the first successor. -/
structure Released (s t : State) (p : Packet) : Prop where
  mem : t.mem = s.mem
  poison : t.poison = s.poison
  launches : t.launches = s.launches
  finished : Finished t p

theorem releaseNext_first (s : State) (ctx : Nat) (p : Packet) :
    Released s (s.releaseNext ctx { p with st := .finished, left := List.range (min 4 (p.tailW 0x14)) }) p := by
  cases hn : min 4 (p.tailW 0x14) with
  | zero =>
    refine ⟨rfl, rfl, rfl, fun n e => ⟨fun _ => packet?_setPacket_self s rfl, fun h0 => absurd (e.trans hn) h0⟩⟩
  | succ m =>
    have hleft : List.range (m + 1) = 0 :: (List.range (m + 1)).tail := by rw [List.range_succ_eq_map]; rfl
    have hmem := readRoot_mem s (s.ctxD ctx) (p.succ 0) 64
    have hpoison := poison_readRoot s (s.ctxD ctx) (p.succ 0) 64
    have honly := memoryOnly_readRoot s (s.ctxD ctx) (p.succ 0) 64
    rw [hleft]
    unfold State.releaseNext
    dsimp only
    rw [show Packet.succ { p with st := .finished, left := 0 :: (List.range (m + 1)).tail } 0 = p.succ 0 from rfl]
    generalize s.readRoot (s.ctxD ctx) (p.succ 0) 64 = r at hmem hpoison honly ⊢
    obtain ⟨s1, bs⟩ := r
    cases bs with
    | none =>
      dsimp only
      have hq := queueError_frame (s1.setPacket { p with st := .finished, left := [] }) p.queue eFAULT p.index none false
      rw [hq]
      refine ⟨hmem, hpoison, honly.launches, fun n e => ⟨fun h0 => absurd (h0.symm.trans (e.trans hn)) (by omega), fun _ => ?_⟩⟩
      exact ⟨_, packet?_setPacket_self s1 (p := { p with st := .finished, left := [] }) rfl, rfl, .inr rfl⟩
    | some bs =>
      refine ⟨hmem, hpoison, honly.launches, fun n e => ⟨fun h0 => absurd (h0.symm.trans (e.trans hn)) (by omega), fun _ => ?_⟩⟩
      have hput := packet?_setPacket_self s1 (p := { p with st := .finished, left := (List.range (m + 1)).tail }) (n := p.id) rfl
      refine ⟨_, List.find?_append.trans (congrArg (Option.or · _) hput), rfl, .inl ⟨by rw [e, hn], _,
        List.mem_append_right _ (List.mem_singleton_self _), rfl, rfl, rfl⟩⟩

/-! ### The finish -/

/-- A launch that is done is gone, and its faults and hypotheses are tidied. -/
def launchGone (s : State) (l : Launch) : State := ((s.withoutLaunch l).tidyFaults l.ctx).tidyHyps l.ctx

theorem launchGone_frame (s : State) (l : Launch) :
    launchGone s l = { s with launches := s.launches.filter (·.id != l.id), ctxs := (launchGone s l).ctxs } := by
  unfold launchGone
  rw [tidyHyps_frame, tidyFaults_frame]
  rfl

/-- The state in which the tiles and partials of a finished launch are released and merged. -/
def finishMerged (s : State) (l : Launch) : State :=
  (match l.draw with
    | some d => (s.streamOf l.id).closeTiles l d
    | none => s.streamOf l.id).mergePartials l l.partialVas

theorem finish_eq (s : State) (l : Launch) (p : Packet) : s.finish l p = match (finishMerged s l).tailSignal l.ctx p with
    | none => launchGone ((finishMerged s l).failStarted p eFAULT) l
    | some s3 => (launchGone (s3.missDeadline l) l).releaseNext l.ctx { p with st := .finished, left := List.range (min 4 (p.tailW 0x14)) } := by
  unfold State.finish finishMerged
  rfl

theorem missDeadline_frame (s : State) (l : Launch) : s.missDeadline l = { s with handregs := (s.missDeadline l).handregs } := by
  unfold State.missDeadline
  split <;> rfl

section
variable {s : State} {launch : Nat} {l : Launch} {p : Packet} (hl : s.launch? launch = some l)

/-- The signal is written, and the successors are next. -/
theorem released_of_signal {s2 s3 : State} (hs : finishMerged s l = s2) (h : s2.tailSignal l.ctx p = some s3) :
    (s.finish l p).mem = s3.mem ∧ (s.finish l p).poison = s3.poison ∧ (s.finish l p).launches = s3.launches.filter (·.id != l.id) ∧
      Finished (s.finish l p) p := by
  rw [finish_eq, hs, h]
  have hr := releaseNext_first (launchGone (s3.missDeadline l) l) l.ctx p
  have hg := launchGone_frame (s3.missDeadline l) l
  have hm := missDeadline_frame s3 l
  refine ⟨hr.mem.trans ?_, hr.poison.trans ?_, hr.launches.trans ?_, hr.finished⟩
  · rw [hg, hm]
  · rw [hg, hm]
  · rw [hg, hm]

/-- The signal cannot be written. -/
theorem failed_of_signal {s2 : State} (hs : finishMerged s l = s2) (h : s2.tailSignal l.ctx p = none) :
    s.finish l p = launchGone (s2.failStarted p eFAULT) l := by
  rw [finish_eq, hs, h]

include hl

theorem exec_launchFinish (hp : s.packet? l.packet = some p) (hd : s.launchDone l = true) :
    exec (.launchFinish launch) s = .next (s.finish l p) := by
  change execLaunchFinish launch s = _
  unfold execLaunchFinish
  simp only [hl, hp, hd, if_true]

theorem finish_leaves : ∀ m ∈ (s.finish l p).launches, m.id ≠ launch := by
  intro m hm
  have hid := id_of_launch? hl
  cases h : (finishMerged s l).tailSignal l.ctx p with
  | none =>
    rw [failed_of_signal rfl h, launchGone_frame] at hm
    simpa [hid] using (List.mem_filter.mp hm).2
  | some s3 =>
    rw [(released_of_signal rfl h).2.2.1] at hm
    simpa [hid] using (List.mem_filter.mp hm).2

/-- A DISPATCH merges its partials alone. -/
theorem finishMerged_dispatch (hd : l.draw = none) : finishMerged s l = s.mergePartials l l.partialVas := by
  have hstream : s.streamOf l.id = s := by
    rw [id_of_launch? hl]
    unfold State.streamOf
    rw [hl]
    dsimp only
    rw [hd]
  unfold finishMerged
  rw [hd, hstream]

theorem finishMerged_plain (hd : l.draw = none) (hp : l.partials = []) : finishMerged s l = s := by
  rw [finishMerged_dispatch hl hd, Launch.partialVas, hp]
  rfl

end

/-! ### The completion signal (R103) -/

theorem tailSignal_of_none (s : State) (ctx : Nat) {p : Packet} (h : ¬(p.tail ≠ [] ∧ p.tailD 0 ≠ 0)) : s.tailSignal ctx p = some s := by
  unfold State.tailSignal
  refine if_pos ?_
  by_cases ht : p.tail = []
  · simp [ht]
  · simpa [ht] using h

theorem tailSignal_of_some (s : State) (ctx : Nat) {p : Packet} (h : p.tail ≠ [] ∧ p.tailD 0 ≠ 0) :
    s.tailSignal ctx p = s.signalAt ctx (p.tailD 0) (p.tailD 8) (bit (p.tailW 0x10) 0) true := by
  unfold State.tailSignal
  refine if_neg ?_
  simpa using h

theorem signalAt_untranslated {s : State} {ctx addr : Nat} {e : Nat × Nat} (hx : s.xrange (s.ctxD ctx) addr 8 .wr = .error e) (value : Nat) (add tail : Bool) :
    s.signalAt ctx addr value add tail = none := by
  unfold State.signalAt
  dsimp only
  rw [hx]

/-! ### LAUNCH_FINISH -/

section
variable {s : State} {launch : Nat} {l : Launch} {p : Packet} (hl : s.launch? launch = some l) (hp : s.packet? l.packet = some p)
  (hd : s.launchDone l = true) (hdraw : l.draw = none)
include hl hp hd hdraw

theorem launchFinish_plain (hpart : l.partials = []) (hsig : ¬(p.tail ≠ [] ∧ p.tailD 0 ≠ 0)) :
    Comes (.launchFinish launch) s fun t => t.mem = s.mem ∧ t.poison = s.poison ∧ Finished t p := by
  obtain ⟨hmem, hpoison, -, hfin⟩ := released_of_signal (finishMerged_plain hl hdraw hpart) (tailSignal_of_none s l.ctx hsig)
  exact ⟨_, exec_launchFinish hl hp hd, hmem, hpoison, hfin⟩

theorem launchFinish_signals {pa : Nat} (hpart : l.partials = []) (hsig : p.tail ≠ [] ∧ p.tailD 0 ≠ 0) (wf : Memory.wf s.mem = true)
    (nv : NoVersions s) (hx : s.xrange (s.ctxD l.ctx) (p.tailD 0) 8 .wr = .ok (piece pa 8)) (hc : CleanHbm s pa 8) :
    Comes (.launchFinish launch) s fun t => Finished t p ∧
      (∀ k, k < 8 → memGet t.mem (pa + k) =
        BitVec.ofNat 8 ((p.tailD 8 + if p.tailW 0x10 % 2 = 1 then valueAt s pa 8 else 0) / 256 ^ k)) ∧
      ∀ a, a < Config.hbmEnd → a < pa ∨ pa + 8 ≤ a → memGet t.mem a = memGet s.mem a := by
  obtain ⟨u, hu, hsignal⟩ := signalAt_hbm wf nv hc hx (p.tailD 8) (bit (p.tailW 0x10) 0) true
  obtain ⟨hmem, -, -, hfin⟩ := released_of_signal (finishMerged_plain hl hdraw hpart) ((tailSignal_of_some s l.ctx hsig).trans hu)
  have hbit : (bit (p.tailW 0x10) 0 = true) = (p.tailW 0x10 % 2 = 1) := by simp [bit]
  refine ⟨_, exec_launchFinish hl hp hd, hfin, fun k hk => ?_, fun a ha hr => ?_⟩
  · rw [hmem, hsignal.bytes k hk]
    simp only [hbit]
  · rw [hmem]
    exact hsignal.others a ha hr

theorem launchFinish_unsignalled {e : Nat × Nat} {q : Queue} (hpart : l.partials = []) (hsig : p.tail ≠ [] ∧ p.tailD 0 ≠ 0)
    (hx : s.xrange (s.ctxD l.ctx) (p.tailD 0) 8 .wr = .error e) (hq : s.queue? p.queue = some q) (he : q.error = false)
    (hdes : q.destroyed = false) : Comes (.launchFinish launch) s fun t => SameMemory s t ∧ Gone t p.id ∧
      t.vectors = s.vectors ++ [q.vector] ∧ t.queue? p.queue =
        some { q with error := true, cause := 0x06, errIndex := p.index, errPacket := none, errUnread := false } := by
  have hfinish := failed_of_signal (p := p) (finishMerged_plain hl hdraw hpart)
    ((tailSignal_of_some s l.ctx hsig).trans (signalAt_untranslated hx ..))
  refine ⟨_, exec_launchFinish hl hp hd, ?_⟩
  rw [hfinish, launchGone_frame, failStarted_of_ok hq he hdes]
  exact ⟨⟨rfl, rfl, rfl⟩, not_mem_filter_id rfl, rfl, queue?_setQueue_self s (num_of_queue? hq :)⟩

/-- Partials of one address combine along the tree and merge. -/
theorem launchFinish_merges {k pa va : Nat} (hsig : ¬(p.tail ≠ [] ∧ p.tailD 0 ≠ 0)) (hne : l.partials ≠ [])
    (hall : ∀ x ∈ l.partials, x.1 < l.teams ∧ x.2.va = va ∧ x.2.loc = hbmLoc pa) (hm : Merges s pa (hbmLoc pa) 0 3) (hk : k ≤ 8)
    (hn : l.teams ≤ 2 ^ k) (hleast : ∀ j, l.teams ≤ 2 ^ j → k ≤ j) :
    let leaf := fun (i : Nat) => ((l.partials.find? fun x => x.1 == i).map (·.2.value)).getD 0x80000000
    Comes (.launchFinish launch) s fun t => Merged s t pa 0 3 (treeAt (fun x y => (fpAdd f32 0 x y).1) leaf k 0) := by
  intro leaf
  obtain ⟨x, r, hxr⟩ := List.exists_cons_of_ne_nil hne
  have hvas : l.partialVas = [va] := by
    unfold Launch.partialVas
    have hone : ∀ ps : List (Nat × Partial), ps ≠ [] → (∀ x ∈ ps, x.2.va = va) → sortedSet (ps.map fun p => p.2.va) = [va] := by
      intro ps
      induction ps with
      | nil => exact fun h _ => absurd rfl h
      | cons y ys ih =>
        intro _ h
        have hy := h y List.mem_cons_self
        by_cases hys : ys = []
        · simp [hys, sortedSet, nsInsert, hy]
        · have := ih hys fun z hz => h z (List.mem_cons_of_mem _ hz)
          unfold sortedSet at this ⊢
          rw [List.map_cons, List.foldr_cons, this, hy]
          simp [nsInsert]
    exact hone l.partials hne fun x hx => (hall x hx).2.1
  have hfilter : l.partials.filter (fun p => p.2.va == va) = l.partials := List.filter_eq_self.mpr fun x hx => by simp [(hall x hx).2.1]
  have hleaf : ∀ t, l.teams ≤ t → leaf t = 0x80000000 := by
    intro t ht
    have hnone : (l.partials.find? fun x => x.1 == t) = none := List.find?_eq_none.mpr fun x hx => by
      have := (hall x hx).1
      simp only [beq_iff_eq]
      omega
    change ((l.partials.find? fun x => x.1 == t).map _).getD _ = _
    rw [hnone]
    rfl
  have hmerged : finishMerged s l = s.mergeAt l.ctx none (hbmLoc pa) 0 3 x.2.scope (treeAt (fun x y => (fpAdd f32 0 x y).1) leaf k 0) := by
    rw [finishMerged_dispatch hl hdraw, hvas]
    unfold State.mergePartials State.mergePartials
    dsimp only
    have htree : partialRoot l.teams leaf = treeAt (fun x y => (fpAdd f32 0 x y).1) leaf k 0 := partialRoot_eq leaf hk hn hleast hleaf
    rw [hfilter, ← htree, ← (hall x (by rw [hxr]; exact List.mem_cons_self)).2.2]
    rw [hxr]
    dsimp only
    rw [← hxr]
  obtain ⟨hmem, -, -, -⟩ := released_of_signal (p := p) hmerged (tailSignal_of_none _ l.ctx hsig)
  exact ⟨_, exec_launchFinish hl hp hd, (merged_mergeAt hm ..).of_mem hmem⟩

end

theorem finishStep (s : State) (launch : Nat) (l : Launch) (p : Packet) : FinishStep s launch l p := by
  intro hl hp hd
  exact ⟨⟨_, exec_launchFinish hl hp hd, finish_leaves hl⟩, fun hdraw hpart hsig => launchFinish_plain hl hp hd hdraw hpart hsig,
    fun _ hdraw hpart hsig => launchFinish_signals hl hp hd hdraw hpart hsig,
    fun _ _ hdraw hpart hsig => launchFinish_unsignalled hl hp hd hdraw hpart hsig,
    fun _ _ _ hdraw hsig => launchFinish_merges hl hp hd hdraw hsig⟩

end Sys2Proof.Claims
end

section
/-! TEAM_RETIRE (R371): the drain of a team, and what of it goes. -/

namespace Sys2Proof.Machine

/-! ### Exports of a pixel team -/

theorem team?_setTeam_self {s : State} {i : Nat} {t u : Team} (h : s.team? i = some t) (hu : u.id = i) : (s.setTeam u).team? i = some u := by
  have hp : ((fun x : Team => x.id == i) ∘ fun x => if x.id = u.id then u else x) = fun x => x.id == i := by
    funext x
    by_cases hx : x.id = u.id <;> simp [hx]
  change (s.teams.map fun x => if x.id = u.id then u else x).find? (·.id == i) = _
  rw [List.find?_map, hp]
  change (s.team? i).map _ = _
  rw [h, Option.map_some, if_pos ((id_of_team? h).trans hu.symm)]

/-- The exports of a team's pixels have been delivered. -/
structure Delivered (tm : Team) (s a : State) : Prop where
  frame : a = { s with teams := a.teams, launches := a.launches }
  ids : a.teams.map (·.id) = s.teams.map (·.id)
  team : ∃ u, a.team? tm.id = some u ∧ u = { tm with threads := u.threads }
  launch : ∀ n, (a.launchD n).ctx = (s.launchD n).ctx ∧ (a.launchD n).det = (s.launchD n).det
  plain : (s.launchD tm.launch).draw = none → a.launches = s.launches

/-- A launch with a draw is one of the state. -/
theorem launch?_of_draw {s : State} {n : Nat} {d : DrawData} (h : (s.launchD n).draw = some d) : s.launch? n = some (s.launchD n) := by
  cases hl : s.launch? n with
  | none =>
    rw [State.launchD, hl] at h
    cases h
  | some l => rw [launchD_of_launch? hl]

theorem delivered_deliverPixel {tm : Team} {s a : State} (h : Delivered tm s a) (i : Nat) : Delivered tm s (a.deliverPixel tm.id i) := by
  obtain ⟨hframe, hids, ⟨u, hu, hw⟩, hlaunch, hplain⟩ := h
  have hul : u.launch = tm.launch := by rw [hw]
  unfold State.deliverPixel
  rw [hu]
  dsimp only
  split
  · exact ⟨hframe, hids, ⟨u, hu, hw⟩, hlaunch, hplain⟩
  · next p _ =>
    have hset : Delivered tm s (a.setTeam (u.setThread i { u.thread i with pix := none, exports := [] })) := by
      refine ⟨?_, (ids_setTeam ..).trans hids, ⟨_, team?_setTeam_self hu (id_of_team? hu :), ?_⟩, hlaunch, hplain⟩
      · conv_lhs => rw [hframe]
        rfl
      · rw [hw]
        rfl
    rw [hul]
    split
    · exact hset
    · next d hd =>
      split
      · exact hset
      · have hfound := launch?_of_draw hd
        obtain ⟨sframe, sids, steam, slaunch, -⟩ := hset
        refine ⟨?_, sids, steam, fun n => ?_, fun hnone => ?_⟩
        · conv_lhs => rw [sframe]
          rfl
        · have hput := launch?_setLaunch (a.setTeam (u.setThread i { u.thread i with pix := none, exports := [] }))
            { a.launchD tm.launch with
              draw := some { d with pixels := d.pixels ++ [⟨p.x, p.y, p.order, p.depth, (u.thread i).exports⟩] } } n
          rw [State.launchD, hput]
          split
          · next hn =>
            rw [show n = tm.launch from hn.trans (id_of_launch? hfound :)]
            exact hlaunch tm.launch
          · exact slaunch n
        · have hsame : a.launchD tm.launch = s.launchD tm.launch := by rw [State.launchD, State.launch?, hplain hnone]; rfl
          rw [hsame, hnone] at hd
          cases hd

theorem delivered_deliverAll {s : State} {tm : Team} (h : s.team? tm.id = some tm) : Delivered tm s (s.deliverAll tm) := by
  unfold State.deliverAll
  have hall : ∀ (l : List Nat) (a : State), Delivered tm s a → Delivered tm s (l.foldl (fun (a : State) i => a.deliverPixel tm.id i) a) := by
    intro l
    induction l with
    | nil => exact fun _ h => h
    | cons i r ih => exact fun a h => ih _ (delivered_deliverPixel h i)
  exact hall _ s ⟨rfl, rfl, ⟨tm, h, rfl⟩, fun _ => ⟨rfl, rfl⟩, fun _ => rfl⟩

/-! ### MX operations that complete -/

theorem runAccs_frame (s : State) (team : Nat) : s.runAccs team = { s with teams := (s.runAccs team).teams } := by
  unfold State.runAccs
  split <;> rfl

theorem enterSaved_frame (s : State) (m : Nat) : s.enterSaved m = { s with teams := (s.enterSaved m).teams, masts := (s.enterSaved m).masts } := by
  unfold State.enterSaved
  dsimp only
  split <;> rfl

theorem completeMx_frame (s : State) (mast : Nat) (o : MxOp) :
    s.completeMx mast o = { s with teams := (s.completeMx mast o).teams, masts := (s.completeMx mast o).masts } := by
  unfold State.completeMx
  dsimp only
  split
  · rw [enterSaved_frame]
    rfl
  · rw [runAccs_frame, enterSaved_frame]
    rfl

theorem completeAllMx_frame (mast : Nat) : ∀ (l : List MxOp) (s : State),
    s.completeAllMx mast l = { s with teams := (s.completeAllMx mast l).teams, masts := (s.completeAllMx mast l).masts }
  | [], _ => rfl
  | o :: r, s => by
    rw [State.completeAllMx, completeAllMx_frame mast r, completeMx_frame]

/-! ### Resolves that complete -/

theorem settleTiles_frame (s : State) (ctx : Nat) : s.settleTiles ctx = { s with streams := (s.settleTiles ctx).streams } := by
  unfold State.settleTiles
  generalize s.streams.filter _ = l
  induction l generalizing s with
  | nil => rfl
  | cons x r ih =>
    rw [List.foldl_cons, ih]
    rfl

/-- The next resolve of a context begins: no operation goes, and what stands in an operation's place is a resolve of the context. -/
theorem nextResolve_running (s : State) (ctx : Nat) : ∃ g : Running → Running,
    (s.nextResolve ctx).running = s.running.map g ∧ ∀ r, g r = r ∨ (g r).resolves ctx = true := by
  unfold State.nextResolve
  split
  · next id c p t r hfind =>
    refine ⟨fun x => if x.id = id then .resolve id c p t none else x, (resolveOnly_applyResolve ..).running, fun x => ?_⟩
    dsimp only
    split
    · exact .inr (by simpa [Running.resolves] using List.find?_some hfind)
    · exact .inl rfl
  · exact ⟨fun r => r, (List.map_id _).symm, fun r => .inl rfl⟩

theorem ResolveOnly.asyncs {s t : State} (h : ResolveOnly s t) : t.asyncs = s.asyncs := (congrArg State.asyncs (show t = _ from h) :)

theorem nextResolve_asyncs (s : State) (ctx : Nat) : (s.nextResolve ctx).asyncs = s.asyncs := by
  unfold State.nextResolve
  split
  · exact (resolveOnly_applyResolve ..).asyncs
  · rfl

/-- A resolve that completes, before the next one of its context begins. -/
def State.closeResolve (s : State) (id ctx : Nat) (packet : Option Nat) : State :=
  let s1 := ((s.endRunning id).settleTiles ctx).sweepOrphans ctx
  match packet.bind s1.packet? with
  | some p => s1.completePacket p
  | none => s1

theorem endResolve_eq (s : State) (id ctx : Nat) (packet : Option Nat) :
    s.endResolve id ctx packet = ((s.closeResolve id ctx packet).nextResolve ctx).tidyHyps ctx := rfl

theorem closeResolve_ops (s : State) (id ctx : Nat) (packet : Option Nat) :
    (s.closeResolve id ctx packet).running = s.running.filter (·.id != id) ∧ (s.closeResolve id ctx packet).asyncs = s.asyncs := by
  have hsweep := resolveOnly_sweepOrphans ((s.endRunning id).settleTiles ctx) ctx
  have hops : ((s.endRunning id).settleTiles ctx).running = s.running.filter (·.id != id) ∧ ((s.endRunning id).settleTiles ctx).asyncs = s.asyncs := by
    rw [settleTiles_frame]
    exact ⟨rfl, rfl⟩
  rw [← hsweep.running, ← hsweep.asyncs] at hops
  unfold State.closeResolve
  dsimp only
  split
  · rw [completePacket_frame]
    exact hops
  · exact hops

theorem endResolve_asyncs (s : State) (id ctx : Nat) (packet : Option Nat) : (s.endResolve id ctx packet).asyncs = s.asyncs := by
  rw [endResolve_eq, tidyHyps_frame]
  exact (nextResolve_asyncs ..).trans (closeResolve_ops ..).2

theorem endResolve_running (s : State) (id ctx : Nat) (packet : Option Nat) : ∃ g : Running → Running,
    (s.endResolve id ctx packet).running = (s.running.filter (·.id != id)).map g ∧ ∀ r, g r = r ∨ (g r).resolves ctx = true := by
  rw [endResolve_eq, tidyHyps_frame]
  obtain ⟨g, hg, hr⟩ := nextResolve_running (s.closeResolve id ctx packet) ctx
  exact ⟨g, by rw [← (closeResolve_ops s id ctx packet).1]; exact hg, hr⟩

/-- What of a context's operations a team's completed resolves leave: those of the team are resolves of the context. -/
def ResolvesOf (ctx team : Nat) (l : List Running) : Prop := ∀ r ∈ l, r.byTeam team = true → r.resolves ctx = true

theorem finishResolves_asyncs (ctx team : Nat) : ∀ (n : Nat) (s : State), (s.finishResolves ctx team n).asyncs = s.asyncs
  | 0, _ => rfl
  | n + 1, s => by
    rw [State.finishResolves]
    split
    · split
      · exact (finishResolves_asyncs ctx team n _).trans (endResolve_asyncs ..)
      · rfl
    · rfl

/-- Each round takes one operation away, so as many rounds as there are operations leave none of the team. -/
theorem finishResolves_gone (ctx team : Nat) : ∀ (n : Nat) (s : State), s.running.length ≤ n → ResolvesOf ctx team s.running →
    ∀ r ∈ (s.finishResolves ctx team n).running, r.byTeam team = false
  | 0, s, hn, _ => by simp [State.finishResolves, List.length_eq_zero_iff.mp (Nat.le_zero.mp hn)]
  | n + 1, s, hn, hres => by
    rw [State.finishResolves]
    split
    · next hany =>
      obtain ⟨r, hr, hby⟩ := List.any_eq_true.mp hany
      have hsome : (s.running.find? (Running.resolves ctx)).isSome = true := List.find?_isSome.mpr ⟨r, hr, hres r hr hby⟩
      split
      · next id c packet t todo hfind =>
        obtain ⟨g, hg, hkept⟩ := endResolve_running s id ctx packet
        refine finishResolves_gone ctx team n _ ?_ fun x hx hby => ?_
        · have hshort : (s.running.filter (·.id != id)).length < s.running.length :=
            List.length_filter_lt_length_iff_exists.mpr ⟨_, List.mem_of_find?_eq_some hfind, by simp [Running.id]⟩
          rw [hg, List.length_map]
          omega
        · rw [hg] at hx
          obtain ⟨y, hy, rfl⟩ := List.mem_map.mp hx
          obtain e | e := hkept y
          · rw [e] at hby ⊢
            exact hres y (List.mem_of_mem_filter hy) hby
          · exact e
      · next hother =>
        obtain ⟨q, hq⟩ := Option.isSome_iff_exists.mp hsome
        cases q with
        | resolve id c packet t todo => exact absurd hq (hother id c packet t todo)
        | hinv | flush | acqr => exact absurd (List.find?_some hq) (by simp [Running.resolves])
    · next hnone => simpa using hnone

/-! ### The steps of a drain -/

/-- No copy and no operation begins. -/
structure KeepsOps (s t : State) : Prop where
  asyncs : ∀ a ∈ t.asyncs, a ∈ s.asyncs
  running : ∀ r ∈ t.running, r ∈ s.running

namespace KeepsOps

theorem refl (s : State) : KeepsOps s s := ⟨fun _ h => h, fun _ h => h⟩
theorem trans {s t u : State} (h : KeepsOps s t) (k : KeepsOps t u) : KeepsOps s u :=
  ⟨fun a ha => h.asyncs a (k.asyncs a ha), fun r hr => h.running r (k.running r hr)⟩
theorem of_eq {s t : State} (ha : t.asyncs = s.asyncs) (hr : t.running = s.running) : KeepsOps s t :=
  ⟨fun _ h => by rwa [← ha], fun _ h => by rwa [← hr]⟩
theorem of_memory {s t : State} (h : MemoryOnly s t) : KeepsOps s t := of_eq h.asyncs h.running
theorem of_sheds {s t : State} (h : Sheds s t) : KeepsOps s t :=
  ⟨h.asyncs, fun _ hr => by rwa [(congrArg State.running h.frame :)] at hr⟩

end KeepsOps

theorem memoryOnly_applyDet (ctx mast : Nat) : ∀ (es : List DetEntry) (s : State) (ps : List Partial), MemoryOnly s (s.applyDet ctx mast ps es).1
  | [], s, _ => .refl s
  | e :: r, s, ps => by
    rw [State.applyDet]
    split
    · exact memoryOnly_applyDet ctx mast r s _
    · exact (memoryOnly_mergeAt ..).trans (memoryOnly_applyDet ctx mast r _ _)

/-- An epoch closes by memory work and a put of the team. -/
theorem closeEpoch_steps (s : State) (t : Team) : ∃ (a : State) (u : Team), MemoryOnly s a ∧ (u.id, u.launch, u.mast) = (t.id, t.launch, t.mast) ∧
    s.closeEpoch t = a.setTeam u := by
  refine ⟨_, _, memoryOnly_applyDet .., ?_, rfl⟩
  rw [(workOnly_clearWaitsAll ..).id, (workOnly_clearWaitsAll ..).launch, (workOnly_clearWaitsAll ..).mast]

/-- A fact about the whole state that memory work and a put of the team keep stands after epochs close. -/
theorem closeEpochs_induct {P : State → Prop} {team : Nat} (hmem : ∀ {s a}, MemoryOnly s a → P s → P a)
    (hput : ∀ {s a : State} {t u : Team}, s.team? team = some t → (u.id, u.launch, u.mast) = (t.id, t.launch, t.mast) → MemoryOnly s a → P a → P (a.setTeam u)) :
    ∀ (n : Nat) (s : State), P s → P (s.closeEpochs team n)
  | 0, _, h => h
  | n + 1, s, h => by
    rw [State.closeEpochs]
    split
    · exact h
    · next t ht =>
      split
      · exact h
      · obtain ⟨a, u, ha, hu, e⟩ := closeEpoch_steps s t
        rw [e]
        exact closeEpochs_induct hmem hput n _ (hput ht hu ha (hmem ha h))

theorem keepsOps_closeEpochs (s : State) (team n : Nat) : KeepsOps s (s.closeEpochs team n) :=
  closeEpochs_induct (P := KeepsOps s) (fun h k => k.trans (.of_memory h)) (fun _ _ _ k => k.trans (.of_eq rfl rfl)) n s (.refl s)

/-- The partials of a DET team pass to its launch. -/
def State.passPartials (s : State) (u : Team) : State :=
  (s.setLaunch { s.launchD u.launch with
    partials := (s.launchD u.launch).partials ++ u.partials.map fun p => (u.num, p) }).setTeam { u with partials := [] }

theorem retireDet_steps (s : State) (team : Nat) : ∃ n, s.retireDet team = s.closeEpochs team n ∨
    ∃ u, (s.closeEpochs team n).team? team = some u ∧ s.retireDet team = (s.closeEpochs team n).passPartials u := by
  unfold State.retireDet
  split
  · exact ⟨0, .inl rfl⟩
  · dsimp only
    split
    · exact ⟨_, .inl rfl⟩
    · next u hu => exact ⟨_, .inr ⟨u, hu, rfl⟩⟩

theorem keepsOps_retireDet (s : State) (team : Nat) : KeepsOps s (s.retireDet team) := by
  obtain ⟨n, e | ⟨u, -, e⟩⟩ := retireDet_steps s team
  · exact e ▸ keepsOps_closeEpochs ..
  · exact e ▸ (keepsOps_closeEpochs ..).trans (.of_eq rfl rfl)

/-- The contributions of a team go where they belong. -/
def State.settleTeam (s : State) (t : Team) : State :=
  if (s.launchD t.launch).det then s.retireDet t.id
  else match s.team? t.id with
    | some u => s.flushTeam u
    | none => s

theorem keepsOps_settleTeam (s : State) (t : Team) : KeepsOps s (s.settleTeam t) := by
  unfold State.settleTeam
  split
  · exact keepsOps_retireDet ..
  · split
    · exact .of_sheds (sheds_flushTeam ..)
    · exact .refl s

/-- The MX operations of a team complete. -/
def State.mxDone (s : State) (t : Team) : State := s.completeAllMx t.mast ((s.mast t.mast).mxq.filter (·.team == t.id) ++ t.mxSaved)
/-- The resolves of a team complete. -/
def State.resolvesDone (s : State) (t : Team) : State := s.finishResolves (s.launchD t.launch).ctx t.id s.running.length

theorem retireDrain_eq (s : State) (t : Team) : s.retireDrain t = ((((s.copiesDone t).mxDone t).resolvesDone t).settleTeam t).endTeamOps t.id := rfl

/-- What follows the drain of a team. -/
def State.leave (s : State) (t : Team) : State := match s.team? t.id with
  | none => s
  | some u =>
    let s2 := (s.handOverTeam u).removeTeam u
    (s2.runSetup t.launch ((((s2.launchD t.launch).draw).map fun (d : DrawData) => d.prims.length).getD 0)).tidyHyps (s2.launchD t.launch).ctx

theorem retire_eq (s : State) (t : Team) : s.retire t = ((s.deliverAll t).retireDrain t).leave t := by
  unfold State.retire
  generalize (s.deliverAll t).retireDrain t = a
  rfl

theorem handOverTeam_frame (s : State) (t : Team) : s.handOverTeam t = { s with launches := (s.handOverTeam t).launches } := by
  unfold State.handOverTeam
  dsimp only
  split
  · split <;> rfl
  · rfl

theorem setupPrim_frame (s : State) (l : Launch) (d : DrawData) (p : Prim) :
    s.setupPrim l d p = { s with launches := (s.setupPrim l d p).launches, free := (s.setupPrim l d p).free } := by
  unfold State.setupPrim
  dsimp only
  split <;> rfl

theorem runSetup_frame (lid : Nat) : ∀ (n : Nat) (s : State),
    s.runSetup lid n = { s with launches := (s.runSetup lid n).launches, free := (s.runSetup lid n).free }
  | 0, _ => rfl
  | n + 1, s => by
    rw [State.runSetup]
    split
    · rfl
    · split
      · rfl
      · split
        · rfl
        · split
          · rw [runSetup_frame lid n, setupPrim_frame]
          · rfl

/-- The end of a removal: set-up and the contexts alone. -/
theorem leave_some {s : State} {t u : Team} (h : s.team? t.id = some u) : ∃ ls fr cs,
    s.leave t = { (s.handOverTeam u).removeTeam u with launches := ls, free := fr, ctxs := cs } := by
  unfold State.leave
  rw [h]
  dsimp only
  rw [tidyHyps_frame, runSetup_frame]
  exact ⟨_, _, _, rfl⟩

theorem leave_none {s : State} {t : Team} (h : s.team? t.id = none) : s.leave t = s := by
  unfold State.leave
  rw [h]

theorem keepsOps_leave (s : State) (t : Team) : KeepsOps s (s.leave t) := by
  cases h : s.team? t.id with
  | none =>
    rw [leave_none h]
    exact .refl s
  | some u =>
    obtain ⟨ls, fr, cs, e⟩ := leave_some h
    have hover : KeepsOps s (s.handOverTeam u) := by rw [handOverTeam_frame]; exact .of_eq rfl rfl
    rw [e]
    exact (hover.trans (.of_sheds (sheds_removeTeam ..))).trans (.of_eq rfl rfl)

/-- A team that has left is no longer there. -/
theorem leave_gone (s : State) (t : Team) : ∀ u ∈ (s.leave t).teams, u.id ≠ t.id := by
  cases h : s.team? t.id with
  | none =>
    rw [leave_none h]
    exact fun u hu e => absurd (List.find?_eq_none.mp h u hu) (by simp [e])
  | some v =>
    obtain ⟨ls, fr, cs, e⟩ := leave_some h
    rw [e]
    have hid : v.id = t.id := id_of_team? h
    exact fun u hu => hid ▸ (removeTeam_gone ..).1 u hu

end Sys2Proof.Machine
end

section
/-! TEAM_RETIRE (R371), told: what goes with the team, and what its contributions, copies and partials leave. -/

namespace Sys2Proof.Machine
open Sys2Proof.Claims

/-! ### Copies out, in order -/

/-- Every byte of a run of places, written in order. -/
theorem writeWhere_consecutive {w : Writer} {p : Nat → Bool} (hp : ∀ i, p i = true) : ∀ (bs : List (Byte × Bool)) (s : State) (l : Loc) (i : Nat),
    s.writeWhere w p i (((List.range bs.length).map fun k => { l with pa := l.pa + k }).zip bs) = s.writeBytes w l bs
  | [], _, _, _ => rfl
  | (b, bad) :: r, s, l, i => by
    have hnext : ((fun k => { l with pa := l.pa + k }) ∘ Nat.succ) = fun k => ⟨({ l with pa := l.pa + 1 } : Loc).pa + k, l.comp, l.port⟩ := by
      funext k
      change ({ l with pa := l.pa + (k + 1) } : Loc) = { l with pa := l.pa + 1 + k }
      rw [Nat.add_assoc, Nat.add_comm 1 k]
    rw [List.length_cons, List.range_succ_eq_map, List.map_cons, List.map_map, hnext, List.zip_cons_cons, State.writeWhere, if_pos (hp i)]
    exact writeWhere_consecutive hp r _ { l with pa := l.pa + 1 } (i + 1)

theorem mem_shieldJobs (s : State) (m team tid : Nat) (c : Ctx) (h : Nat) (segs : List (Loc × Nat)) : (s.shieldJobs m team tid c h segs).mem = s.mem := by
  unfold State.shieldJobs
  dsimp only
  split
  · unfold State.holdBytes
    dsimp only
    split <;> rfl
  · rfl

/-- A CP.OUT in the root view to local HBM leaves the bytes of DECK there. -/
theorem memGet_copyOut {s : State} {t : Team} {c : Ctx} {a : AsyncCopy} {o n pa : Nat} {p : Nat → Bool} (hp : ∀ i, p i = true)
    (hs : a.segs = Claims.piece pa n) (hr : pa + n ≤ Config.hbmEnd) (wf : Memory.wf s.mem = true) (hw : RootWriter s ⟨c.num, a.hyp, some t.mast⟩) :
    (∀ i, i < n → memGet (s.copyOut t c a o n p).1.mem (pa + i) = alGetD t.deck (o + i) 0) ∧
      ∀ x, x < pa ∨ pa + n ≤ x → memGet (s.copyOut t c a o n p).1.mem x = memGet s.mem x := by
  have hreads := reads_shieldJobs s t.mast t.id a.tid c a.hyp a.segs
  have hmem := mem_shieldJobs s t.mast t.id a.tid c a.hyp a.segs
  have hlen : (t.deckGet o n).length = n := by simp [Team.deckGet]
  have hlocs : segLocs (Claims.piece pa n) = (List.range (t.deckGet o n).length).map fun k => { Claims.hbmLoc pa with pa := pa + k } := by
    rw [hlen]
    unfold Claims.piece
    split
    · next h => simp [h, segLocs]
    · exact List.append_nil _
  unfold State.copyOut
  dsimp only
  rw [hs] at hreads hmem ⊢
  generalize s.shieldJobs t.mast t.id a.tid c a.hyp (Claims.piece pa n) = s1 at hreads hmem ⊢
  have hwrite : s1.writeWhere ⟨c.num, a.hyp, some t.mast⟩ p 0 ((segLocs (Claims.piece pa n)).zip (t.deckGet o n)) =
      s1.writeBytes ⟨c.num, a.hyp, some t.mast⟩ (Claims.hbmLoc pa) (t.deckGet o n) := by
    rw [hlocs]
    exact writeWhere_consecutive hp _ s1 (hbmLoc pa) 0
  have hw1 : RootWriter s1 ⟨c.num, a.hyp, some t.mast⟩ := by
    unfold RootWriter at hw ⊢
    rwa [State.ctxD, State.ctx?, hreads.ctxs]
  obtain ⟨written, others⟩ := memGet_writeBytes_hbm (t.deckGet o n) s1 pa hw1 (by rwa [hmem]) (by rwa [hlen])
  rw [hwrite]
  refine ⟨fun i hi => written i (alGetD t.deck (o + i) 0, t.deckPoison.contains (o + i)) ?_, fun x hx => ?_⟩
  · simp [Team.deckGet, hi]
  · rw [others x (by rwa [hlen]), hmem]

theorem l1Only_completeCopies : ∀ (l : List AsyncCopy) (s : State), L1Only s (s.completeCopies l)
  | [], s => .refl s
  | a :: r, s => by
    refine L1Only.trans ?_ (l1Only_completeCopies r (s.completeCopy a))
    obtain e | ⟨s1, t, u, -, hl1, -, -, -, e⟩ := completeCopy_steps s a
    · rw [e]
      exact .of_masts rfl
    · rw [e]
      exact hl1.trans (.of_masts rfl)

/-! ### A drain with nothing to complete -/

section
variable {s : State} {t : Team}

theorem copiesDone_of_none (h : s.asyncs = []) : s.copiesDone t = s := by
  unfold State.copiesDone
  rw [h]
  rfl

theorem mxDone_of_none (h : (s.mast t.mast).mxq = []) (hs : t.mxSaved = []) : s.mxDone t = s := by
  unfold State.mxDone
  rw [h, hs]
  rfl

theorem resolvesDone_of_none (h : s.running = []) : s.resolvesDone t = s := by
  unfold State.resolvesDone
  rw [h]
  rfl

/-- Only the contributions of the team are left to settle. -/
theorem retireDrain_of_idle {a : State} (ha : s.copiesDone t = a) (hq : (a.mast t.mast).mxq = []) (hs : t.mxSaved = []) (hr : a.running = []) :
    s.retireDrain t = (a.settleTeam t).endTeamOps t.id := by
  rw [retireDrain_eq, ha, mxDone_of_none hq hs, resolvesDone_of_none hr]

theorem settleTeam_of_det (h : (s.launchD t.launch).det = true) : s.settleTeam t = s.retireDet t.id := by
  unfold State.settleTeam
  rw [h]
  rfl

theorem settleTeam_of_plain {u : Team} (h : (s.launchD t.launch).det = false) (hu : s.team? t.id = some u) : s.settleTeam t = s.flushTeam u := by
  unfold State.settleTeam
  rw [h, hu]
  rfl

theorem retireDet_of_none {i : Nat} {u : Team} (hu : s.team? i = some u) (hs : u.staging = []) : s.retireDet i = s.passPartials u := by
  have hclose : s.closeEpochs i (((u.staging.map (·.epoch)).foldl max 0) - u.epochsClosed) = s := by
    rw [hs]
    change s.closeEpochs i (0 - u.epochsClosed) = s
    rw [Nat.zero_sub]
    rfl
  unfold State.retireDet
  rw [hu]
  dsimp only
  rw [hclose, hu]
  rfl

theorem handOverTeam_of_plain (h : (s.launchD t.launch).draw = none) : s.handOverTeam t = s := by
  unfold State.handOverTeam
  dsimp only
  rw [h]

/-- A team without a draw that leaves is removed, and no more. -/
theorem leave_of_plain {u : Team} (hu : s.team? t.id = some u) (hl : u.launch = t.launch) (hd : (s.launchD t.launch).draw = none) :
    ∃ c, s.leave t = (s.removeTeam u).tidyHyps c := by
  have hdraw : ((s.removeTeam u).launchD t.launch).draw = none := by rw [(sheds_removeTeam s u).launchD]; exact hd
  unfold State.leave
  rw [hu]
  dsimp only
  rw [handOverTeam_of_plain (by rwa [hl]), hdraw]
  exact ⟨_, rfl⟩

end

/-! ### The last team of a context on a mast -/

/-- The team is the one there is, of a launch of context c. -/
structure LastOf (tm : Team) (c : Nat) (s : State) : Prop where
  only : ∃ u, s.teams = [u] ∧ (u.id, u.launch, u.mast) = (tm.id, tm.launch, tm.mast)
  ctx : (s.launchD tm.launch).ctx = c

namespace LastOf
variable {tm : Team} {c : Nat} {s t : State}

theorem of_sheds (h : LastOf tm c s) (k : Sheds s t) (hids : t.teams.map (·.id) = s.teams.map (·.id)) : LastOf tm c t := by
  obtain ⟨⟨u, hu, hkey⟩, hctx⟩ := h
  rw [hu] at hids
  obtain ⟨v, hv, hid⟩ := List.map_eq_singleton_iff.mp hids
  obtain ⟨w, hw, hwi, hwl, hwm⟩ := k.keys v (by rw [hv]; exact List.mem_singleton_self v)
  obtain rfl : w = u := by rwa [hu, List.mem_singleton] at hw
  exact ⟨⟨v, hv, by rw [← hwi, ← hwl, ← hwm]; exact hkey⟩, by rwa [k.launchD]⟩

theorem of_memory (h : LastOf tm c s) (k : MemoryOnly s t) : LastOf tm c t :=
  ⟨by rw [k.teams]; exact h.only, by rw [State.launchD, State.launch?, k.launches]; exact h.ctx⟩

theorem put {u : Team} (h : LastOf tm c s) (hu : (u.id, u.launch, u.mast) = (tm.id, tm.launch, tm.mast)) : LastOf tm c (s.setTeam u) := by
  obtain ⟨⟨v, hv, hkey⟩, hctx⟩ := h
  have hid : v.id = u.id := (congrArg Prod.fst hkey).trans (congrArg Prod.fst hu).symm
  exact ⟨⟨u, by simp [State.setTeam, hv, hid], hu⟩, hctx⟩

theorem team? (h : LastOf tm c s) : ∃ u, s.team? tm.id = some u ∧ (u.id, u.launch, u.mast) = (tm.id, tm.launch, tm.mast) := by
  obtain ⟨⟨u, hu, hkey⟩, -⟩ := h
  have hid : u.id = tm.id := congrArg Prod.fst hkey
  exact ⟨u, by simp [State.team?, hu, hid], hkey⟩

theorem key (h : LastOf tm c s) {u : Team} (hu : u ∈ s.teams) : (u.id, u.launch, u.mast) = (tm.id, tm.launch, tm.mast) := by
  obtain ⟨⟨v, hv, hkey⟩, -⟩ := h
  rw [hv, List.mem_singleton] at hu
  rwa [hu]

end LastOf

theorem launchD_setLaunch_ctx {s : State} {l : Launch} (h : l.ctx = (s.launchD l.id).ctx) (n : Nat) : ((s.setLaunch l).launchD n).ctx = (s.launchD n).ctx := by
  rw [State.launchD, launch?_setLaunch]
  split
  · next hn => rw [hn]; exact h
  · rfl

/-- A DET launch is one of the state. -/
theorem launch?_of_det {s : State} {n : Nat} (h : (s.launchD n).det = true) : s.launch? n = some (s.launchD n) := by
  cases hl : s.launch? n with
  | none =>
    rw [State.launchD, hl] at h
    cases h
  | some l => rw [launchD_of_launch? hl]

section
variable {tm : Team} {c : Nat} {s : State} (h : LastOf tm c s)
include h

theorem lastOf_closeEpochs (n : Nat) : LastOf tm c (s.closeEpochs tm.id n) :=
  closeEpochs_induct (P := LastOf tm c) (fun k h => h.of_memory k)
    (fun {s a t u} ht hu ha k => k.put (hu.trans (k.key (by rw [ha.teams]; exact mem_of_team? ht)))) n s h

omit h in
theorem launches_closeEpochs (n : Nat) : (s.closeEpochs tm.id n).launches = s.launches :=
  closeEpochs_induct (P := fun a => a.launches = s.launches) (fun k h => k.launches.trans h) (fun _ _ _ h => h) n s rfl

theorem lastOf_retireDet (hd : (s.launchD tm.launch).det = true) : LastOf tm c (s.retireDet tm.id) := by
  obtain ⟨n, e | ⟨u, hu, e⟩⟩ := retireDet_steps s tm.id
  · rw [e]
    exact lastOf_closeEpochs h n
  · have hlast := lastOf_closeEpochs h n
    have hkey := hlast.key (mem_of_team? hu)
    have hdet : ((s.closeEpochs tm.id n).launchD tm.launch).det = true := by
      rw [State.launchD, State.launch?, launches_closeEpochs]
      exact hd
    have hid := id_of_launch? (launch?_of_det hdet)
    rw [e]
    have hlaunch : u.launch = tm.launch := congrArg (·.2.1) hkey
    refine LastOf.put ⟨hlast.only, ?_⟩ hkey
    refine (launchD_setLaunch_ctx ?_ _).trans hlast.ctx
    rw [hlaunch]
    exact congrArg (fun n => ((s.closeEpochs tm.id _).launchD n).ctx) hid.symm

theorem lastOf_settleTeam : LastOf tm c (s.settleTeam tm) := by
  cases hd : (s.launchD tm.launch).det with
  | true =>
    rw [settleTeam_of_det hd]
    exact lastOf_retireDet h hd
  | false =>
    obtain ⟨u, hu, -⟩ := h.team?
    rw [settleTeam_of_plain hd hu]
    exact h.of_sheds (sheds_flushTeam ..) (by rw [teams_flushTeam])

theorem lastOf_handOverTeam {u : Team} (hu : u.launch = tm.launch) : LastOf tm c (s.handOverTeam u) := by
  unfold State.handOverTeam
  dsimp only
  split
  · next d hd =>
    split
    · refine ⟨h.only, ?_⟩
      rw [hu] at hd ⊢
      have hid := id_of_launch? (launch?_of_draw hd)
      refine (launchD_setLaunch_ctx ?_ _).trans h.ctx
      exact congrArg (fun n => (s.launchD n).ctx) hid.symm
    · exact h
  · exact h

end

theorem dropPins_pins {s : State} (h : s.teams = []) (c m : Nat) : ∀ x ∈ ((s.dropPins c m).mast m).pins, x.ctx ≠ c := by
  unfold State.dropPins
  have hnone : (s.on m).any (s.ofCtx c) = false := by simp [State.on, h]
  rw [hnone]
  dsimp only
  intro x hx
  split at hx
  · rename_i hfalse
    cases hfalse
  · split at hx
    · rw [mast_setMast, if_pos (mast_num s m).symm] at hx
      simpa using (List.mem_filter.mp hx).2
    · next hno => exact fun e => hno (List.any_eq_true.mpr ⟨x, hx, by simp [e]⟩)

/-- With the last team of a context its pins go from the mast. -/
theorem removeTeam_pins {tm u : Team} {c : Nat} {s : State} (h : LastOf tm c s) (hu : (u.id, u.launch, u.mast) = (tm.id, tm.launch, tm.mast)) :
    ∀ x ∈ ((s.removeTeam u).mast tm.mast).pins, x.ctx ≠ c := by
  obtain ⟨v, hv, hkey⟩ := h.only
  have hid : v.id = u.id := (congrArg Prod.fst hkey).trans (congrArg Prod.fst hu).symm
  have hlaunch : u.launch = tm.launch := congrArg (·.2.1) hu
  have hmast : u.mast = tm.mast := congrArg (·.2.2) hu
  have hclear : teamIds ((s.freeRecord u).clearTeam u) = [u.id] := by
    rw [teamIds_clearTeam, teamIds_freeRecord, teamIds, hv, ← hid]
    rfl
  have hempty : teamIds (((s.freeRecord u).clearTeam u).withoutTeam u) = [] := by
    rw [← List.length_eq_zero_iff, teamIds, List.length_map, List.length_eq_zero_iff]
    refine List.filter_eq_nil_iff.mpr fun x hx => ?_
    have hmem : x.id ∈ teamIds ((s.freeRecord u).clearTeam u) := List.mem_map_of_mem hx
    rw [hclear, List.mem_singleton] at hmem
    simp [hmem]
  have hteams : ((((s.freeRecord u).clearTeam u).withoutTeam u).enterSaved u.mast |>.releaseMesh u).teams = [] := by
    rw [← List.map_eq_nil_iff (f := (·.id))]
    exact (teamIds_releaseMesh ..).trans ((teamIds_enterSaved ..).trans hempty)
  rw [removeTeam_eq, (sheds_freeRecord s u).launchD, hlaunch, h.ctx, hmast] at *
  exact dropPins_pins hteams c tm.mast

/-! ### Ring slots -/

/-- The rings of the masts are as they were. -/
structure SameRings (s t : State) : Prop where
  ring : ∀ k, (t.mast k).ring = (s.mast k).ring

namespace SameRings

theorem trans {s t u : State} (h : SameRings s t) (k : SameRings t u) : SameRings s u := ⟨fun m => (k.ring m).trans (h.ring m)⟩
theorem of_masts {s t : State} (h : t.masts = s.masts) : SameRings s t := ⟨fun m => by rw [State.mast, h]; rfl⟩
theorem of_l1 {s t : State} (h : L1Only s t) : SameRings s t := ⟨fun m => h.get m (f := Mast.ring) fun _ _ _ => rfl⟩
theorem setMast {s : State} {m : Mast} (h : m.ring = (s.mast m.num).ring) : SameRings s (s.setMast m) := ⟨fun k => by
  rw [mast_setMast]
  split
  · next hk => rw [hk]; exact h
  · rfl⟩

end SameRings

theorem sameRings_freeRecord (s : State) (t : Team) : SameRings s (s.freeRecord t) := by
  unfold State.freeRecord
  dsimp only
  split
  · exact .of_l1 (l1Only_writePhys ..)
  · exact .of_masts rfl

theorem sameRings_clearTeam (s : State) (t : Team) : SameRings s (s.clearTeam t) := by
  unfold State.clearTeam
  dsimp only
  split
  · exact .setMast (by rw [mast_num])
  · exact .of_masts rfl

theorem sameRings_enterSaved (s : State) (m : Nat) : SameRings s (s.enterSaved m) := by
  unfold State.enterSaved
  dsimp only
  split
  · exact .trans (.of_masts (t := { s with teams := (enterFrom m (s.mast m).mxq s.teams).2 }) rfl) (.setMast (by rw [mast_num]; rfl))
  · exact .of_masts rfl

theorem sameRings_dropPins (s : State) (c m : Nat) : SameRings s (s.dropPins c m) := by
  unfold State.dropPins
  dsimp only
  split
  · exact .of_masts rfl
  · split
    · exact .setMast (by rw [mast_num])
    · exact .of_masts rfl

theorem masts_wakeRing (s : State) (m : Nat) : (s.wakeRing m).masts = s.masts := by
  have hall : ∀ (l : List Team) (a : State), (l.foldl (fun (a : State) t => a.setTeam (t.clearWaitsAll s.cycle (· == Wait.ring))) a).masts = a.masts := by
    intro l
    induction l with
    | nil => exact fun _ => rfl
    | cons t r ih => exact fun a => ih _
  exact hall _ s

/-- A slot with its last consumer goes; another has one less. -/
theorem ring_ringRelease {s : State} {m k : Nat} {x : RingSlot} (h : (s.mast m).ring = [x]) (hx : x.slot = k) :
    ((s.ringRelease m k).mast m).ring = if x.users ≤ 1 then [] else [{ x with users := x.users - 1 }] := by
  have hfind : (s.mast m).ring.find? (·.slot == k) = some x := by simp [h, hx]
  unfold State.ringRelease
  dsimp only
  rw [hfind]
  dsimp only
  split
  · rw [State.mast, masts_wakeRing]
    change ((State.setMast s _).mast m).ring = _
    rw [mast_setMast, if_pos (mast_num s m).symm]
    simp [h, hx]
  · rw [mast_setMast, if_pos (mast_num s m).symm]
    simp [h, hx, putBy]

/-- The slot of a mesh team's request has a consumer less when the team goes. -/
theorem ring_removeTeam {s : State} {t : Team} {r : MeshReq} {k : Nat} {x : RingSlot} (hm : t.mesh = some r) (hs : r.slot = some k)
    (h : (s.mast r.mast).ring = [x]) (hx : x.slot = k) :
    ((s.removeTeam t).mast r.mast).ring = if x.users ≤ 1 then [] else [{ x with users := x.users - 1 }] := by
  rw [removeTeam_eq, (sameRings_dropPins ..).ring]
  have hbefore : SameRings s (((((s.freeRecord t).clearTeam t).withoutTeam t)).enterSaved t.mast) :=
    (((sameRings_freeRecord s t).trans (sameRings_clearTeam _ t)).trans (.of_masts (t := ((s.freeRecord t).clearTeam t).withoutTeam t) rfl)).trans
      (sameRings_enterSaved ..)
  unfold State.releaseMesh
  rw [hm]
  dsimp only
  rw [hs]
  exact ring_ringRelease ((hbefore.ring r.mast).trans h) hx

end Sys2Proof.Machine
end

section
/-! O58: retirement of a team, and the statement. -/

namespace Sys2Proof.Claims
open Sys2Proof Sys2Proof.Machine

section
variable {s : State} {team : Nat} {tm : Team} (ht : s.team? team = some tm) (hlive : ∀ x ∈ tm.threads, x.live = false)
  (hflight : ∀ p ∈ s.flight, p.team ≠ team)
include ht

include hlive hflight in
theorem exec_teamRetire : exec (.teamRetire team) s = .next { s.retire tm with free := s.free + 1 } := by
  have hnone : (tm.threads.any (·.live) || s.flight.any (·.team == team)) = false := by
    simp only [Bool.or_eq_false_iff, List.any_eq_false]
    exact ⟨fun x hx => by simp [hlive x hx], fun p hp => by simpa using hflight p hp⟩
  change execTeamRetire team s = _
  unfold execTeamRetire
  rw [ht]
  dsimp only
  rw [hnone]
  rfl

theorem delivered_retire : Delivered tm s (s.deliverAll tm) := delivered_deliverAll (by rw [id_of_team? ht]; exact ht)

/-- The operations that stand when the resolves of a team have completed. -/
theorem resolvesDone_ops (a : State) (ha : a = ((s.deliverAll tm).copiesDone tm).mxDone tm) :
    (∀ x ∈ (a.resolvesDone tm).asyncs, x.team ≠ tm.id) ∧
    (ResolvesOf (s.launchD tm.launch).ctx tm.id s.running → ∀ r ∈ (a.resolvesDone tm).running, r.byTeam tm.id = false) := by
  have hdel := delivered_retire ht
  have hcopies := sheds_copiesDone (s.deliverAll tm) tm
  have hmx : a = { (s.deliverAll tm).copiesDone tm with teams := a.teams, masts := a.masts } := by
    rw [ha]
    exact completeAllMx_frame ..
  refine ⟨?_, fun hres => ?_⟩
  · rw [State.resolvesDone, finishResolves_asyncs, hmx]
    exact asyncs_copiesDone (s.deliverAll tm) tm
  · have hrun : a.running = s.running := by rw [hmx, hcopies.frame, hdel.frame]
    have hctx : (a.launchD tm.launch).ctx = (s.launchD tm.launch).ctx := by
      rw [← (hdel.launch tm.launch).1, ← hcopies.launchD, hmx]
      rfl
    exact finishResolves_gone _ _ _ a (Nat.le_refl _) (by rwa [hrun, hctx])

theorem retire_leavesNothing : (∀ u ∈ (s.retire tm).teams, u.id ≠ team) ∧ (∀ a ∈ (s.retire tm).asyncs, a.team ≠ team) ∧
    (ResolvesOf (s.launchD tm.launch).ctx team s.running → ∀ r ∈ (s.retire tm).running, r.byTeam team = false) := by
  obtain rfl : tm.id = team := id_of_team? ht
  obtain ⟨hasync, hrun⟩ := resolvesDone_ops ht _ rfl
  have hend (a : State) (i : Nat) : KeepsOps a (a.endTeamOps i) := ⟨fun _ h => h, fun _ h => List.mem_of_mem_filter h⟩
  have hkeeps := ((keepsOps_settleTeam ((((s.deliverAll tm).copiesDone tm).mxDone tm).resolvesDone tm) tm).trans (hend _ tm.id)).trans
    (keepsOps_leave _ tm)
  rw [retire_eq, retireDrain_eq]
  exact ⟨leave_gone _ tm, fun a ha => hasync a (hkeeps.asyncs a ha), fun h r hr => hrun h r (hkeeps.running r hr)⟩

/-! ### A team that is alone in what it leaves -/

/-- The one thing that is left to settle of a team without MX work or a resolve: its copies, then its contributions. -/
theorem retire_of_idle {a : State} (ha : (s.deliverAll tm).copiesDone tm = a) (hq : (a.mast tm.mast).mxq = []) (hs : tm.mxSaved = [])
    (hr : s.running = []) : s.retire tm = ((a.settleTeam tm).endTeamOps tm.id).leave tm := by
  have hrun : a.running = [] := by rw [← ha, (sheds_copiesDone ..).frame, (delivered_retire ht).frame]; exact hr
  rw [retire_eq, retireDrain_of_idle ha hq hs hrun]

theorem mast_deliverAll (k : Nat) : (s.deliverAll tm).mast k = s.mast k := by
  rw [(delivered_retire ht).frame]
  rfl

theorem retire_of_quiet (ha : s.asyncs = []) (hq : (s.mast tm.mast).mxq = []) (hs : tm.mxSaved = []) (hr : s.running = []) :
    s.retire tm = (((s.deliverAll tm).settleTeam tm).endTeamOps tm.id).leave tm :=
  retire_of_idle ht (copiesDone_of_none (by rw [(delivered_retire ht).frame]; exact ha)) (by rwa [mast_deliverAll ht]) hs hr

end

/-- The team of a state, of the same number and place as tm. -/
structure Stays (tm : Team) (b : State) (u : Team) : Prop where
  found : b.team? tm.id = some u
  launch : u.launch = tm.launch
  place : u.place = tm.place
  plain : (b.launchD tm.launch).draw = none

theorem leave_endTeamOps {tm u : Team} {b : State} (h : Stays tm b u) (hp : tm.place = .resident) :
    SameHome b ((b.endTeamOps tm.id).leave tm) ∧ ((b.endTeamOps tm.id).leave tm).launches = b.launches ∧
      ∀ m, ∀ e ∈ (((b.endTeamOps tm.id).leave tm).mast m).staging, e ∈ (b.mast m).staging := by
  obtain ⟨c, hc⟩ := leave_of_plain (s := b.endTeamOps tm.id) (t := tm) h.found h.launch h.plain
  have hsheds := sheds_removeTeam (b.endTeamOps tm.id) u
  have hhome : SameHome b (b.endTeamOps tm.id) := ⟨rfl, rfl, rfl⟩
  rw [hc]
  refine ⟨(hhome.trans (sameHome_removeTeam (h.place.trans hp))).trans (sameHome_tidyHyps ..), ?_, fun m e he => ?_⟩
  · rw [tidyHyps_frame]
    exact hsheds.launches
  · rw [tidyHyps_frame] at he
    exact hsheds.staging m e he

section
variable {s : State} {team : Nat} {tm : Team} (ht : s.team? team = some tm) (hp : tm.place = .resident) (hdraw : (s.launchD tm.launch).draw = none)
  (hs : tm.mxSaved = []) (hr : s.running = []) (hq : (s.mast tm.mast).mxq = [])
include ht hdraw

/-- Without a draw the pixels of a team leave its launch as it was. -/
theorem launchD_deliverAll (n : Nat) : (s.deliverAll tm).launchD n = s.launchD n := by
  rw [State.launchD, State.launch?, (delivered_retire ht).plain hdraw]
  rfl

include hp hs hr hq

theorem retire_merges (hdet : (s.launchD tm.launch).det = false) (ha : s.asyncs = []) {e : Stage0} {pa : Nat} (he : (s.mast tm.mast).staging = [e])
    (het : e.team = team) (hm : Merges s pa e.loc e.op e.ty) :
    Merged s (s.retire tm) pa e.op e.ty e.value ∧ ((s.retire tm).mast tm.mast).staging = [] := by
  have hdel := delivered_retire ht
  obtain ⟨u, hu, hwork⟩ := hdel.team
  have hmast : u.mast = tm.mast := by rw [hwork]
  have hid : u.id = tm.id := by rw [hwork]
  have hstage : ((s.deliverAll tm).mast u.mast).staging = [e] := by rw [mast_deliverAll ht, hmast]; exact he
  have hteam : e.team = u.id := het.trans ((id_of_team? ht).symm.trans hid.symm)
  have hflush := flushTeam_of_one hstage hteam
  have hempty := staging_flushTeam_of_one hstage hteam
  have hmerged := merged_mergeAt (hm.of_same (u := (s.deliverAll tm).takeEntry u) (by rw [State.takeEntry, hdel.frame]; rfl)
    (by rw [State.takeEntry, hdel.frame]; rfl) (by rw [State.takeEntry, hdel.frame]; rfl)) e.ctx (some u.mast) e.scope e.value
  rw [← hflush] at hmerged
  have hstays : Stays tm ((s.deliverAll tm).flushTeam u) u :=
    ⟨by rw [State.team?, teams_flushTeam]; exact hu, by rw [hwork], by rw [hwork],
      by rw [(sheds_flushTeam ..).launchD, launchD_deliverAll ht hdraw]; exact hdraw⟩
  obtain ⟨hhome, -, hstaging⟩ := leave_endTeamOps hstays hp
  rw [retire_of_quiet ht ha hq hs hr, settleTeam_of_plain (by rw [launchD_deliverAll ht hdraw]; exact hdet) hu]
  refine ⟨(hmerged.of_same (by rw [State.takeEntry, hdel.frame]; rfl)).of_mem hhome.mem, ?_⟩
  exact List.eq_nil_iff_forall_not_mem.mpr fun x hx => absurd (hstaging _ x hx) (by rw [← hmast, hempty]; exact List.not_mem_nil)

theorem retire_copies (hdet : (s.launchD tm.launch).det = false) (hstage : (s.mast tm.mast).staging = []) {a : AsyncCopy} (ha : s.asyncs = [a])
    (hat : a.team = team) {dst : Dword} {o n pa : Nat} (hk : a.kind = .out dst o n) (hsegs : a.segs = piece pa n) (hroom : pa + n ≤ Config.hbmEnd)
    (hw : a.wrote = []) (wf : Memory.wf s.mem = true) (hc : (s.ctx? (s.launchD tm.launch).ctx).isSome)
    (hroot : resolveHyp (s.ctxD (s.launchD tm.launch).ctx).hyps a.hyp = 0) :
    (∀ i, i < n → memGet (s.retire tm).mem (pa + i) = alGetD tm.deck (o + i) 0) ∧
      ∀ x, x < pa ∨ pa + n ≤ x → memGet (s.retire tm).mem x = memGet s.mem x := by
  have hdel := delivered_retire ht
  have hlaunchD := launchD_deliverAll ht hdraw tm.launch
  have hmastD := mast_deliverAll ht tm.mast
  generalize hb : s.deliverAll tm = b at hdel hlaunchD hmastD
  have hctxs : b.ctxs = s.ctxs := by rw [hdel.frame]
  have hmem : b.mem = s.mem := by rw [hdel.frame]
  have hasyncs : b.asyncs = [a] := by rw [hdel.frame]; exact ha
  have hid := id_of_team? ht
  obtain ⟨u, hu, hwork⟩ := hdel.team
  have hul : u.launch = tm.launch := by rw [hwork]
  have hum : u.mast = tm.mast := by rw [hwork]
  have hud : u.deck = tm.deck := by rw [hwork]
  have hctx : b.ctxD (b.launchD u.launch).ctx = s.ctxD (s.launchD tm.launch).ctx := by
    rw [hul, hlaunchD, State.ctxD, State.ctx?, hctxs]
    rfl
  have hdone : b.copiesDone tm = b.completeCopy a := by simp [State.copiesDone, hasyncs, hat, hid, State.completeCopies]
  have hout := completeCopy_out (s := b) (by rw [hat, ← hid]; exact hu) hk
  rw [hctx] at hout
  dsimp only at hout
  have hall : ∀ i, (fun i => !a.wrote.contains i) i = true := by simp [hw]
  have hcopy := memGet_copyOut (s := b) (t := u) (c := s.ctxD (s.launchD tm.launch).ctx) (o := o) hall hsegs hroom (by rwa [hmem]) (by
    rw [RootWriter, num_ctxD hc, State.ctxD, State.ctx?, hctxs]
    exact hroot)
  have hmemory := memoryOnly_copyOut b u (s.ctxD (s.launchD tm.launch).ctx) a o n fun i => !a.wrote.contains i
  have hl1 := l1Only_copyOut b u (s.ctxD (s.launchD tm.launch).ctx) a o n fun i => !a.wrote.contains i
  generalize b.copyOut u (s.ctxD (s.launchD tm.launch).ctx) a o n (fun i => !a.wrote.contains i) = r at hout hcopy hmemory hl1
  have htag := workOnly_tagDone u b.cycle a.tid a.tag (r.2 || a.err)
  generalize u.tagDone b.cycle a.tid a.tag (r.2 || a.err) = v at hout htag
  have hvi : v.id = tm.id := htag.id.trans (by rw [hwork])
  have hfound : (b.completeCopy a).team? tm.id = some v := by
    rw [hout]
    exact team?_setTeam_self (s := r.1) (t := u) (by rw [State.team?, hmemory.teams]; exact hu) hvi
  have hmasts (k : Nat) : (b.completeCopy a).mast k = r.1.mast k := by rw [hout]; rfl
  have hmxq : ((b.completeCopy a).mast tm.mast).mxq = [] := by
    rw [hmasts, hl1.get tm.mast (f := Mast.mxq) fun _ _ _ => rfl, hmastD]
    exact hq
  have hlaunch : (b.completeCopy a).launchD tm.launch = s.launchD tm.launch := by rw [(sheds_completeCopy ..).launchD, hlaunchD]
  have hflush : (b.completeCopy a).flushTeam v = b.completeCopy a := flushTeam_of_none fun e he => by
    rw [hmasts, hl1.staging, htag.mast, hum, hmastD, hstage] at he
    cases he
  have hstays : Stays tm (b.completeCopy a) v :=
    ⟨hfound, htag.launch.trans hul, by rw [show v = _ from htag, hwork], by rw [hlaunch]; exact hdraw⟩
  obtain ⟨hhome, -⟩ := leave_endTeamOps hstays hp
  rw [retire_of_idle ht (by rw [hb]; exact hdone) hmxq hs hr, settleTeam_of_plain (by rw [hlaunch]; exact hdet) hfound, hflush, hhome.mem, hout, ← hmem,
    ← hud]
  exact hcopy

theorem retire_partials {m : Launch} (hl : s.launch? tm.launch = some m) (hdet : m.det = true) (ha : s.asyncs = []) (hstage : tm.staging = []) :
    SameMemory s (s.retire tm) ∧
      ((s.retire tm).launch? tm.launch).map (·.partials) = some (m.partials ++ tm.partials.map fun q => (tm.num, q)) := by
  have hdel := delivered_retire ht
  obtain ⟨u, hu, hwork⟩ := hdel.team
  have hlaunchD (n : Nat) := launchD_deliverAll ht hdraw n
  have hul : u.launch = tm.launch := by rw [hwork]
  have hm : (s.deliverAll tm).launchD u.launch = m := by rw [hlaunchD, hul, launchD_of_launch? hl]
  have hpass : (s.deliverAll tm).passPartials u =
      ((s.deliverAll tm).setLaunch { m with partials := m.partials ++ u.partials.map fun p => (u.num, p) }).setTeam { u with partials := [] } := by
    unfold State.passPartials
    rw [hm]
  have hput : ((s.deliverAll tm).passPartials u).launch? tm.launch = some { m with partials := m.partials ++ u.partials.map fun p => (u.num, p) } := by
    rw [hpass]
    exact launch?_setLaunch_self (s.deliverAll tm) (id_of_launch? hl :)
  have hstays : Stays tm ((s.deliverAll tm).passPartials u) { u with partials := [] } := by
    refine ⟨?_, hul, by rw [hwork], ?_⟩
    · rw [hpass]
      exact team?_setTeam_self (t := u) hu (show u.id = tm.id by rw [hwork])
    · rw [launchD_of_launch? hput]
      rw [launchD_of_launch? hl] at hdraw
      exact hdraw
  obtain ⟨hhome, hlaunches, -⟩ := leave_endTeamOps hstays hp
  have hbefore : SameHome s ((s.deliverAll tm).passPartials u) := by
    rw [hpass, hdel.frame]
    exact ⟨rfl, rfl, rfl⟩
  rw [retire_of_quiet ht ha hq hs hr, settleTeam_of_det (by rw [hlaunchD, launchD_of_launch? hl]; exact hdet),
    retireDet_of_none hu (by rw [hwork]; exact hstage)]
  refine ⟨(hbefore.trans hhome).same, ?_⟩
  rw [State.launch?, hlaunches]
  change Option.map _ (((s.deliverAll tm).passPartials u).launch? tm.launch) = _
  rw [hput, hwork]
  rfl

omit hp hdraw in
theorem retire_pins (hteams : s.teams = [tm]) : ∀ x ∈ ((s.retire tm).mast tm.mast).pins, x.ctx ≠ (s.launchD tm.launch).ctx := by
  have hdel := delivered_retire ht
  have hlast : LastOf tm (s.launchD tm.launch).ctx (s.deliverAll tm) := by
    have hids := hdel.ids
    rw [hteams] at hids
    obtain ⟨v, hv, hid⟩ := List.map_eq_singleton_iff.mp hids
    obtain ⟨u, hu, hwork⟩ := hdel.team
    have hmem := mem_of_team? hu
    rw [hv, List.mem_singleton] at hmem
    exact ⟨⟨v, hv, by rw [← hmem, hwork]⟩, (hdel.launch tm.launch).1⟩
  have hcopies := hlast.of_sheds (sheds_copiesDone (s.deliverAll tm) tm) (ids_completeCopies ..)
  have hmxq : (((s.deliverAll tm).copiesDone tm).mast tm.mast).mxq = [] := by
    rw [State.copiesDone, (l1Only_completeCopies _ _).get tm.mast (f := Mast.mxq) fun _ _ _ => rfl, mast_deliverAll ht]
    exact hq
  have hsettled : LastOf tm (s.launchD tm.launch).ctx ((((s.deliverAll tm).copiesDone tm).settleTeam tm).endTeamOps tm.id) := by
    obtain ⟨honly, hctx⟩ := lastOf_settleTeam hcopies
    exact ⟨honly, hctx⟩
  obtain ⟨u, hu, hkey⟩ := hsettled.team?
  obtain ⟨ls, fr, cs, hleave⟩ := leave_some hu
  rw [retire_of_idle ht rfl hmxq hs hr, hleave]
  exact removeTeam_pins (lastOf_handOverTeam hsettled (congrArg (·.2.1) hkey)) hkey

end

section
variable {s : State} {team : Nat} {tm : Team} (ht : s.team? team = some tm)
include ht

/-- With nothing to settle, the settling of a team leaves the masts alone. -/
theorem settleTeam_quiet (hstage : (s.mast tm.mast).staging = []) (hs : tm.staging = []) :
    ∃ u, ((s.deliverAll tm).settleTeam tm).team? tm.id = some u ∧ u.mesh = tm.mesh ∧ ((s.deliverAll tm).settleTeam tm).masts = s.masts := by
  have hdel := delivered_retire ht
  have hmasts : (s.deliverAll tm).masts = s.masts := by rw [hdel.frame]
  obtain ⟨u, hu, hwork⟩ := hdel.team
  cases hdet : ((s.deliverAll tm).launchD tm.launch).det with
  | true =>
    rw [settleTeam_of_det hdet, retireDet_of_none hu (by rw [hwork]; exact hs)]
    exact ⟨_, team?_setTeam_self (t := u) hu (show u.id = tm.id by rw [hwork]), by rw [hwork], hmasts⟩
  | false =>
    have hnone : (s.deliverAll tm).flushTeam u = s.deliverAll tm := flushTeam_of_none fun e he => by
      rw [mast_deliverAll ht, show u.mast = tm.mast by rw [hwork], hstage] at he
      cases he
    rw [settleTeam_of_plain hdet hu, hnone]
    exact ⟨u, hu, by rw [hwork], hmasts⟩

theorem retire_ring (ha : s.asyncs = []) (hr : s.running = []) (hstage : (s.mast tm.mast).staging = []) (hq : (s.mast tm.mast).mxq = [])
    (hsaved : tm.mxSaved = []) (hs : tm.staging = []) {r : MeshReq} {k : Nat} {x : RingSlot} (hm : tm.mesh = some r) (hslot : r.slot = some k)
    (hring : (s.mast r.mast).ring = [x]) (hx : x.slot = k) :
    ((s.retire tm).mast r.mast).ring = if x.users ≤ 1 then [] else [{ x with users := x.users - 1 }] := by
  obtain ⟨u, hu, hmesh, hmasts⟩ := settleTeam_quiet ht hstage hs
  rw [retire_of_quiet ht ha hq hsaved hr]
  generalize (s.deliverAll tm).settleTeam tm = b at hu hmasts
  have hu : (b.endTeamOps tm.id).team? tm.id = some u := hu
  obtain ⟨ls, fr, cs, hleave⟩ := leave_some hu
  have hover : ((b.endTeamOps tm.id).handOverTeam u).mast r.mast = s.mast r.mast := by
    rw [handOverTeam_frame, State.mast, State.mast]
    change ((b.masts.find? _).getD _) = _
    rw [hmasts]
  rw [hleave]
  exact ring_removeTeam (hmesh.trans hm) hslot (by rw [hover]; exact hring) hx

end

theorem comes_teamRetire {s : State} {team : Nat} {tm : Team} {Q : State → Prop} (h : exec (.teamRetire team) s = .next { s.retire tm with free := s.free + 1 })
    (hQ : ∀ r, r = s.retire tm → Q { r with free := s.free + 1 }) : Comes (.teamRetire team) s Q := ⟨_, h, hQ _ rfl⟩

theorem retireStep (s : State) (team : Nat) (tm : Team) : RetireStep s team tm := by
  intro ht hlive hflight
  have hexec := exec_teamRetire ht hlive hflight
  refine ⟨comes_teamRetire hexec fun r e => ?_, ?_, ?_, ?_, ?_, ?_⟩
  · have h := retire_leavesNothing ht
    rw [← e] at h
    exact h
  · rintro e pa ⟨hp, -, hdraw, hs, hr, hq⟩ hdet ha he het hm
    refine comes_teamRetire hexec fun r hret => ?_
    have h := retire_merges ht hp hdraw hs hr hq hdet ha he het hm
    rw [← hret] at h
    exact h
  · rintro a dst o n pa ⟨hp, -, hdraw, hs, hr, hq⟩ hdet hstage ha hat hk hsegs hroom hw wf hc hroot
    refine comes_teamRetire hexec fun r hret => ?_
    have h := retire_copies ht hp hdraw hs hr hq hdet hstage ha hat hk hsegs hroom hw wf hc hroot
    rw [← hret] at h
    exact h
  · rintro m ⟨hp, -, hdraw, hs, hr, hq⟩ hl hdet ha hstage
    refine comes_teamRetire hexec fun r hret => ?_
    have h := retire_partials ht hp hdraw hs hr hq hl hdet ha hstage
    rw [← hret] at h
    exact h
  · intro r k x ha hr hstage hq hsaved hs hm hslot hring hx
    refine comes_teamRetire hexec fun t hret => ?_
    have h := retire_ring ht ha hr hstage hq hsaved hs hm hslot hring hx
    rw [← hret] at h
    exact h
  · rintro ⟨-, -, -, hs, hr, hq⟩ hteams
    refine comes_teamRetire hexec fun r hret => ?_
    have h := retire_pins ht hs hr hq hteams
    rw [← hret] at h
    exact h

/-- Settles O58: each of the four families of steps, told one by one. -/
theorem endAndSupply : Obligations.EndAndSupply := ⟨retireStep, finishStep, watchdogStep, supplySteps⟩

end Sys2Proof.Claims
end

section
/-! PACKET_CORE_SCAN (R93, R100): a packet core reads the next packet of a ring. -/

namespace Sys2Proof.Claims
open Sys2Proof Sys2Proof.Machine

section
variable {s s1 s2 : State} {q : Nat} {x : Queue} {bs : List Byte}

/-- The packet that a core has read. -/
def packetRead (x : Queue) (id : Nat) (bs : List Byte) : Packet :=
  { (default : Packet) with
    id := id, queue := x.num, index := x.c, words := leWords bs, addr := x.ring + 64 * (x.c.toNat % 2 ^ x.size), depth := 1, st := .read }

theorem readPacket_of_read (hr : s.readRoot (s.ctxD x.ctx) (x.ring + 64 * (x.c.toNat % 2 ^ x.size)) 64 = (s1, some bs))
    (hw : s1.writeRoot (s.ctxD x.ctx) x.consumedAddr (natLE (x.c + 1).toNat 8) = some s2) :
    s.readPacket x = State.setQueue { s2 with nextId := s2.nextId + 1, packets := s2.packets ++ [packetRead x s2.nextId bs] } { x with c := x.c + 1 } := by
  unfold State.readPacket
  dsimp only
  rw [hr]
  dsimp only
  rw [hw]
  rfl

theorem exec_packetCoreScan (hq : s.queue? q = some x) (hm : x.mapped.isSome = true) (hk : s.hasWork x = true) (hc : x.w ≠ x.c)
    (hp : s.packets.find? (fun p => p.queue == q && p.parent.isNone && p.st == .read) = none) :
    exec (.packetCoreScan q) s = .next (s.readPacket x) := by
  have hgo : (x.mapped.isNone || !s.hasWork x) = false := by rw [hk, Option.isNone_eq_false_iff.mpr hm]; rfl
  change execPacketCoreScan q s = _
  unfold execPacketCoreScan
  rw [hq]
  dsimp only
  rw [hgo, hp]
  exact congrArg Host.Outcome.next (if_neg hc)

/-- A write in the root view to one piece of local HBM leaves its bytes there, and no other cell changes. -/
theorem holds_writeRoot {c : Ctx} {va pa n v : Nat} (hx : s.xrange c va n .wr = .ok [(hbmLoc pa, n)]) (hr : pa + n ≤ Config.hbmEnd)
    (wf : Memory.wf s.mem = true) (hw : s.writeRoot c va (natLE v n) = some s2) : Holds s s2 pa n v := by
  unfold State.writeRoot at hw
  rw [natLE_length, hx] at hw
  cases hw
  have hbytes := holds_writeBytes (w := agentOf c.num) (rootWriter_zero s rfl) wf hr v
  have htake : ((natLE v n).map fun b => (b, false)).take n = (natLE v n).map fun b => (b, false) := List.take_of_length_le (by simp)
  rw [State.writeSegs, htake]
  exact hbytes

end

theorem packetCoreScan_reads {s s1 s2 : State} {q : Nat} {x : Queue} {bs : List Byte} (hq : s.queue? q = some x) (hm : x.mapped.isSome = true)
    (hk : s.hasWork x = true) (hc : x.w ≠ x.c) (hp : s.packets.find? (fun p => p.queue == q && p.parent.isNone && p.st == .read) = none)
    (hr : s.readRoot (s.ctxD x.ctx) (x.ring + 64 * (x.c.toNat % 2 ^ x.size)) 64 = (s1, some bs))
    (hw : s1.writeRoot (s.ctxD x.ctx) x.consumedAddr (natLE (x.c + 1).toNat 8) = some s2) : Comes (.packetCoreScan q) s fun t =>
      t.queue? q = some { x with c := x.c + 1 } ∧
      (∃ p ∈ t.packets, p.queue = q ∧ p.index = x.c ∧ p.words = leWords bs ∧ p.st = .read ∧ p.parent = none ∧ p.depth = 1) ∧
      ∀ pa, Memory.wf s.mem = true → (∀ y ∈ s.ctxs, y.versions = []) →
        s1.xrange (s.ctxD x.ctx) x.consumedAddr 8 .wr = .ok [(⟨pa, false, none⟩, 8)] → pa + 8 ≤ Config.hbmEnd →
        (∀ k, k < 8 → memGet t.mem (pa + k) = BitVec.ofNat 8 ((x.c + 1).toNat / 256 ^ k)) ∧
        ∀ a, a < pa ∨ pa + 8 ≤ a → memGet t.mem a = memGet s.mem a := by
  have hnum : x.num = q := num_of_queue? hq
  have hmem : s1.mem = s.mem := by
    have h := readRoot_mem s (s.ctxD x.ctx) (x.ring + 64 * (x.c.toNat % 2 ^ x.size)) 64
    rwa [hr] at h
  refine ⟨_, exec_packetCoreScan hq hm hk hc hp, ?_⟩
  rw [readPacket_of_read hr hw]
  refine ⟨queue?_setQueue_self _ (show x.num = q from hnum), ⟨packetRead x s2.nextId bs, List.mem_append_right _ (List.mem_singleton_self _), hnum,
    rfl, rfl, rfl, rfl, rfl⟩, fun pa wf _ hx hroom => ?_⟩
  obtain ⟨written, others⟩ := holds_writeRoot hx hroom (by rwa [hmem]) hw
  exact ⟨written, fun a ha => (others a ha).trans (by rw [hmem])⟩

end Sys2Proof.Claims
end

section
/-! MAPPING_ROUND (R113): which queues a round unmaps, in what order waiting queues take slots, and which of them the slots reach. -/

namespace Sys2Proof.Machine
open Sys2Proof.Claims

/-! ### Slots -/

/-- The slot of a queue. -/
def slotOf (s : State) (n : Nat) : Option Nat := (s.queue? n).bind (·.mapped)

/-- The queues that hold slots. -/
def holders (qs : List Queue) : List Queue := qs.filter fun q => q.mapped.isSome

/-- Distinct numbers, and for each mapped queue a slot of its own below 64. -/
structure Slots (qs : List Queue) : Prop where
  nums : (qs.map (·.num)).Nodup
  bound : ∀ a ∈ qs, ∀ k, a.mapped = some k → k < 64
  own : ∀ a ∈ qs, ∀ b ∈ qs, ∀ k, a.mapped = some k → b.mapped = some k → a.num = b.num

theorem length_holders_of_full {qs : List Queue} (h : ∀ k, k < 64 → ∃ b ∈ qs, b.mapped = some k) : 64 ≤ (holders qs).length := by
  have hsub : List.range 64 ⊆ (holders qs).filterMap (·.mapped) := fun k hk => by
    obtain ⟨b, hb, e⟩ := h k (List.mem_range.mp hk)
    exact List.mem_filterMap.mpr ⟨b, List.mem_filter.mpr ⟨hb, by rw [e]; rfl⟩, e⟩
  have hlen := (List.subperm_of_subset List.nodup_range hsub).length_le
  rw [List.length_range] at hlen
  exact hlen.trans (List.length_filterMap_le ..)

theorem Slots.length_holders {qs : List Queue} (h : Slots qs) : (holders qs).length ≤ 64 := by
  have hnodup : ((holders qs).map (·.mapped)).Nodup := by
    refine List.Nodup.map_on (fun a ha b hb e => ?_) (h.nums.of_map.filter _)
    obtain ⟨ha, hsome⟩ := List.mem_filter.mp ha
    obtain ⟨k, hk⟩ := Option.isSome_iff_exists.mp hsome
    have hb := List.mem_of_mem_filter hb
    exact eq_of_id h.nums ha hb (h.own a ha b hb k hk (e.symm.trans hk))
  have hsub : (holders qs).map (·.mapped) ⊆ (List.range 64).map some := fun o ho => by
    obtain ⟨a, ha, rfl⟩ := List.mem_map.mp ho
    obtain ⟨ha, hsome⟩ := List.mem_filter.mp ha
    obtain ⟨k, hk⟩ := Option.isSome_iff_exists.mp hsome
    exact hk ▸ List.mem_map_of_mem (List.mem_range.mpr (h.bound a ha k hk))
  simpa using (List.subperm_of_subset hnodup hsub).length_le

theorem find_of_mem_num {qs : List Queue} (h : (qs.map (·.num)).Nodup) {a : Queue} (ha : a ∈ qs) : qs.find? (·.num == a.num) = some a := by
  cases hf : qs.find? (·.num == a.num) with
  | none => exact absurd (List.find?_eq_none.mp hf a ha) (by simp)
  | some b => rw [eq_of_id h (List.mem_of_find?_eq_some hf) ha (by simpa using List.find?_some hf)]

/-! ### A put of a queue that takes a slot -/

theorem length_filter_putBy {α : Type} (same p : α → Bool) (x : α) : ∀ l : List α, ((putBy same x l).filter p).length ≤ (l.filter p).length + 1
  | [] => by
    rw [putBy, List.filter_cons]
    split <;> simp
  | y :: r => by
    have ih := length_filter_putBy same p x r
    rw [putBy]
    split
    · simp only [List.filter_cons, apply_ite List.length, List.length_cons]
      split <;> split <;> omega
    · simp only [List.filter_cons]
      split
      · exact Nat.succ_le_succ ih
      · exact ih

theorem nums_putBy {q : Queue} : ∀ {l : List Queue}, q.num ∈ l.map (·.num) → (putBy (·.num == q.num) q l).map (·.num) = l.map (·.num)
  | y :: r, h => by
    rw [putBy]
    split
    · next e => simpa using (beq_iff_eq.mp e).symm
    · next e =>
      rw [List.map_cons, List.mem_cons] at h
      rw [List.map_cons, List.map_cons, nums_putBy (h.resolve_left fun e' => e (beq_iff_eq.mpr e'.symm))]

theorem Slots.putBy {qs : List Queue} (h : Slots qs) {q : Queue} {k : Nat} (hm : q.mapped = some k) (hk : k < 64)
    (hfree : ∀ x ∈ qs, x.mapped ≠ some k) (hin : q.num ∈ qs.map (·.num)) : Slots (putBy (·.num == q.num) q qs) := by
  refine ⟨by rw [nums_putBy hin]; exact h.nums, fun a ha j hj => ?_, fun a ha b hb j hja hjb => ?_⟩
  · obtain rfl | ha := mem_putBy ha
    · rwa [← Option.some.inj (hm.symm.trans hj)]
    · exact h.bound a ha j hj
  · obtain ea | ha := mem_putBy ha <;> obtain eb | hb := mem_putBy hb
    · rw [ea, eb]
    · rw [ea] at hja
      exact absurd (hjb.trans (hja.symm.trans hm)) (hfree b hb)
    · rw [eb] at hjb
      exact absurd (hja.trans (hjb.symm.trans hm)) (hfree a ha)
    · exact h.own a ha b hb j hja hjb

/-! ### Waiting queues take slots in order -/

/-- What the mapping of a list of waiting queues leaves: it takes slots for a first part of the list, and for all that the slots
reach. -/
structure Takes (s t : State) (l : List Queue) : Prop where
  frame : t = { s with queues := t.queues }
  nums : t.queues.map (·.num) = s.queues.map (·.num)
  slots : Slots t.queues
  others : ∀ n, (∀ q ∈ l, q.num ≠ n) → t.queue? n = s.queue? n
  full : ∀ q ∈ l, slotOf t q.num = none → ∀ k, k < 64 → ∃ b ∈ t.queues, b.mapped = some k
  order : l.Pairwise fun p q => slotOf t q.num ≠ none → slotOf t p.num ≠ none
  reach : ∀ i q, l[i]? = some q → (holders s.queues).length + i < 64 → slotOf t q.num ≠ none

/-- With every slot taken none of the waiting queues takes one. -/
theorem takes_of_full {s : State} (h : Slots s.queues) {l : List Queue} (hl : ∀ q ∈ l, slotOf s q.num = none)
    (hfull : ∀ k, k < 64 → ∃ b ∈ s.queues, b.mapped = some k) : Takes s s l := by
  refine ⟨rfl, rfl, h, fun _ _ => rfl, fun _ _ _ => hfull, ?_, fun i q hq hi => ?_⟩
  · exact List.Pairwise.imp_of_mem (fun {p q} _ hq _ hs => absurd (hl q hq) hs) (List.pairwise_of_forall (R := fun _ _ => True) fun _ _ => trivial)
  · have := length_holders_of_full hfull
    omega

theorem takes_mapQueues : ∀ (l : List Queue) (s : State), Slots s.queues → (l.map (·.num)).Nodup →
    (∀ q ∈ l, q.num ∈ s.queues.map (·.num) ∧ slotOf s q.num = none) → Takes s (s.mapQueues l) l
  | [], s, h, _, _ => ⟨rfl, rfl, h, fun _ _ => rfl, by simp, .nil, by simp⟩
  | q :: r, s, h, hnodup, hl => by
    rw [State.mapQueues]
    split
    · next hnone =>
      refine takes_of_full h (fun p hp => (hl p hp).2) fun k hk => ?_
      have hk := List.find?_eq_none.mp hnone k (List.mem_range.mpr hk)
      simpa using hk
    · next k hsome =>
      obtain ⟨hqin, hqnone⟩ := hl q List.mem_cons_self
      rw [List.map_cons, List.nodup_cons] at hnodup
      have hk : k < 64 := List.mem_range.mp (List.mem_of_find?_eq_some hsome)
      have hfree : ∀ x ∈ s.queues, x.mapped ≠ some k := by simpa using List.find?_some hsome
      have hother {n : Nat} (hn : n ≠ q.num) :
          (s.setQueue { q with mapped := some k, rounds := 0, due := none }).queue? n = s.queue? n := queue?_setQueue_other s hn
      have hself := queue?_setQueue_self s (q := { q with mapped := some k, rounds := 0, due := none }) rfl
      have hslots : Slots (s.setQueue { q with mapped := some k, rounds := 0, due := none }).queues := h.putBy rfl hk hfree hqin
      have hnums : (s.setQueue { q with mapped := some k, rounds := 0, due := none }).queues.map (·.num) = s.queues.map (·.num) :=
        nums_putBy (q := { q with mapped := some k, rounds := 0, due := none }) hqin
      have hcount : (holders (s.setQueue { q with mapped := some k, rounds := 0, due := none }).queues).length ≤ (holders s.queues).length + 1 :=
        length_filter_putBy ..
      have hframe : s.setQueue { q with mapped := some k, rounds := 0, due := none } =
        { s with queues := (s.setQueue { q with mapped := some k, rounds := 0, due := none }).queues } := rfl
      generalize s.setQueue { q with mapped := some k, rounds := 0, due := none } = s' at *
      have hne : ∀ p ∈ r, p.num ≠ q.num := fun p hp e => hnodup.1 (e ▸ List.mem_map_of_mem hp)
      obtain ⟨tframe, tnums, tslots, tothers, tfull, torder, treach⟩ := takes_mapQueues r s' hslots hnodup.2 fun p hp => by
        rw [hnums, slotOf, hother (hne p hp)]
        exact hl p (List.mem_cons_of_mem _ hp)
      have hhead : slotOf (s'.mapQueues r) q.num ≠ none := by
        rw [slotOf, tothers q.num hne, hself]
        exact Option.some_ne_none k
      refine ⟨by rw [tframe, hframe], tnums.trans hnums, tslots, fun n hn => ?_, fun p hp hslot => ?_, ?_, fun i p hp hi => ?_⟩
      · exact (tothers n fun p hp => hn p (List.mem_cons_of_mem _ hp)).trans (hother (hn q List.mem_cons_self).symm)
      · obtain rfl | hp := List.mem_cons.mp hp
        · exact absurd hslot hhead
        · exact tfull p hp hslot
      · exact List.pairwise_cons.mpr ⟨fun _ _ _ => hhead, torder⟩
      · cases i with
        | zero =>
          obtain rfl := Option.some.inj hp
          exact hhead
        | succ i => exact treach i p hp (by omega)

/-! ### The order of waiting queues -/

theorem mapBefore_iff (now : Nat) (a b : Queue) : mapBefore now a b = true ↔ a.due.getD now < b.due.getD now ∨
    a.due.getD now = b.due.getD now ∧ (a.cls < b.cls ∨ a.cls = b.cls ∧ a.num ≤ b.num) := by
  simp [mapBefore]

theorem classBefore_iff (now : Nat) (a b : Queue) : classBefore now a b = true ↔ a.cls < b.cls ∨ a.cls = b.cls ∧ mapBefore now a b = true := by
  simp [classBefore]

theorem mapBefore_trans (now : Nat) (a b c : Queue) (h : mapBefore now a b = true) (k : mapBefore now b c = true) : mapBefore now a c = true := by
  rw [mapBefore_iff] at *
  omega

theorem mapBefore_total (now : Nat) (a b : Queue) : (mapBefore now a b || mapBefore now b a) = true := by
  rw [Bool.or_eq_true, mapBefore_iff, mapBefore_iff]
  omega

theorem classBefore_trans (now : Nat) (a b c : Queue) (h : classBefore now a b = true) (k : classBefore now b c = true) :
    classBefore now a c = true := by
  have ht := mapBefore_trans now a b c
  rw [classBefore_iff] at *
  obtain h | ⟨h, hm⟩ := h <;> obtain k | ⟨k, km⟩ := k
  · exact .inl (h.trans k)
  · exact .inl (by omega)
  · exact .inl (by omega)
  · exact .inr ⟨h.trans k, ht hm km⟩

theorem classBefore_total (now : Nat) (a b : Queue) : (classBefore now a b || classBefore now b a) = true := by
  have ht := mapBefore_total now a b
  rw [Bool.or_eq_true] at ht
  rw [Bool.or_eq_true, classBefore_iff, classBefore_iff]
  obtain h | h | h := Nat.lt_trichotomy a.cls b.cls
  · exact .inl (.inl h)
  · exact ht.imp (fun k => .inr ⟨h, k⟩) fun k => .inr ⟨h.symm, k⟩
  · exact .inr (.inl h)

theorem roundsLeft_mono {now : Nat} {a b : Queue} (h : mapBefore now a b = true) : roundsLeft now a ≤ roundsLeft now b := by
  rw [mapBefore_iff] at h
  unfold roundsLeft
  have hle : a.due.getD now - now ≤ b.due.getD now - now := by omega
  exact Nat.succ_le_succ (Nat.div_le_div_right hle)

/-! ### Queues whose bounds rounds of 64 slots can keep -/

theorem boundsFit_iff (now : Nat) (l : List Queue) : boundsFit now l = true ↔
    ∀ x ∈ l, (l.filter fun y => decide (roundsLeft now y ≤ roundsLeft now x)).length ≤ 64 * roundsLeft now x := by
  unfold boundsFit
  rw [List.all_eq_true]
  exact forall₂_congr fun x _ => decide_eq_true_iff

/-- The waiting queues up to a class can be mapped within their bounds. -/
def ClassFits (now c : Nat) (w : List Queue) : Prop := ∀ x ∈ w, x.cls ≤ c →
  (w.filter fun y => decide (y.cls ≤ c) && decide (roundsLeft now y ≤ roundsLeft now x)).length ≤ 64 * roundsLeft now x

/-- So can any part of them. -/
theorem boundsFit_of_subperm {now c : Nat} {m w : List Queue} (h : ClassFits now c w) (hsub : m.Subperm w) (hc : ∀ y ∈ m, y.cls ≤ c) :
    boundsFit now m = true := by
  refine (boundsFit_iff now m).mpr fun x hx => ?_
  have hsame : (m.filter fun y => decide (roundsLeft now y ≤ roundsLeft now x)) =
      m.filter fun y => decide (y.cls ≤ c) && decide (roundsLeft now y ≤ roundsLeft now x) :=
    List.filter_congr fun y hy => by simp [hc y hy]
  rw [hsame]
  exact (hsub.filter _).length_le.trans (h x (hsub.subset hx) (hc x hx))

/-- Those of a list that are kept, one after the other, as long as their bounds can be kept. -/
def keptFrom (now : Nat) (acc l : List Queue) : List Queue := l.foldl (fun l q => if boundsFit now (l ++ [q]) then l ++ [q] else l) acc

theorem keptFrom_cons (now : Nat) (acc : List Queue) (q : Queue) (l : List Queue) :
    keptFrom now acc (q :: l) = keptFrom now (if boundsFit now (acc ++ [q]) then acc ++ [q] else acc) l := rfl

theorem boundsFit_keptFrom (now : Nat) : ∀ (l acc : List Queue), boundsFit now acc = true → boundsFit now (keptFrom now acc l) = true
  | [], _, h => h
  | q :: r, acc, h => by
    rw [keptFrom_cons]
    split
    · next hfit => exact boundsFit_keptFrom now r _ hfit
    · exact boundsFit_keptFrom now r acc h

theorem keptFrom_sublist (now : Nat) : ∀ l acc : List Queue, (keptFrom now acc l).Sublist (acc ++ l)
  | [], acc => by rw [List.append_nil]; exact .refl _
  | q :: r, acc => by
    rw [keptFrom_cons]
    split
    · simpa using keptFrom_sublist now r (acc ++ [q])
    · exact (keptFrom_sublist now r acc).trans (List.Sublist.append (.refl _) (List.sublist_cons_self ..))

theorem acc_sublist_keptFrom (now : Nat) : ∀ l acc : List Queue, acc.Sublist (keptFrom now acc l)
  | [], _ => .refl _
  | q :: r, acc => by
    rw [keptFrom_cons]
    split
    · exact (List.sublist_append_left acc [q]).trans (acc_sublist_keptFrom now r _)
    · exact acc_sublist_keptFrom now r acc

/-- A queue that fits after any part of what comes before it is kept. -/
theorem mem_keptFrom {now : Nat} {l₁ l₂ : List Queue} {x : Queue} (h : ∀ m, m.Sublist l₁ → boundsFit now (m ++ [x]) = true) :
    x ∈ keptFrom now [] (l₁ ++ x :: l₂) := by
  have hsplit : keptFrom now [] (l₁ ++ x :: l₂) = keptFrom now (keptFrom now [] l₁ ++ [x]) l₂ := by
    rw [keptFrom, List.foldl_append]
    change keptFrom now (keptFrom now [] l₁) (x :: l₂) = _
    rw [keptFrom_cons, if_pos (h _ (keptFrom_sublist now l₁ []))]
  rw [hsplit]
  exact (acc_sublist_keptFrom ..).subset (List.mem_append_right _ (List.mem_singleton_self x))

/-- The waiting queues by class. -/
def byClass (now : Nat) (w : List Queue) : List Queue := w.mergeSort (classBefore now)
/-- Those whose bounds rounds of 64 slots keep. -/
def keptOf (now : Nat) (w : List Queue) : List Queue := keptFrom now [] (byClass now w)

theorem mapOrder_eq (now : Nat) (w : List Queue) :
    mapOrder now w = (keptOf now w).mergeSort (mapBefore now) ++ (byClass now w).filter fun q => !(keptOf now w).contains q := rfl

section
variable (now : Nat) (w : List Queue)

theorem keptOf_sublist : (keptOf now w).Sublist (byClass now w) := keptFrom_sublist now (byClass now w) []

theorem boundsFit_keptOf : boundsFit now (keptOf now w) = true := boundsFit_keptFrom now _ [] rfl

theorem length_keptOf : (keptOf now w).length ≤ w.length :=
  (keptOf_sublist now w).length_le.trans_eq (List.mergeSort_perm ..).length_eq

variable {now w}

/-- Where the bounds up to a class can be kept, every queue up to that class is. -/
theorem mem_keptOf {c : Nat} (h : ClassFits now c w) {x : Queue} (hx : x ∈ w) (hc : x.cls ≤ c) : x ∈ keptOf now w := by
  have hperm : (byClass now w).Perm w := List.mergeSort_perm ..
  have hsorted : (byClass now w).Pairwise fun a b => classBefore now a b = true :=
    List.pairwise_mergeSort (classBefore_trans now) (classBefore_total now) w
  obtain ⟨l₁, l₂, e⟩ := List.append_of_mem (hperm.mem_iff.mpr hx)
  unfold keptOf
  rw [e] at hperm hsorted ⊢
  refine mem_keptFrom fun m hm => boundsFit_of_subperm h ?_ fun y hy => ?_
  · have hsub : (m ++ [x]).Sublist (l₁ ++ x :: l₂) := hm.append (List.singleton_sublist.mpr List.mem_cons_self)
    exact hsub.subperm.trans hperm.subperm
  · obtain hy | hy := List.mem_append.mp hy
    · have hbefore := (List.pairwise_append.mp hsorted).2.2 y (hm.subset hy) x List.mem_cons_self
      rw [classBefore_iff] at hbefore
      omega
    · rwa [List.mem_singleton.mp hy]

theorem mem_mapOrder {x : Queue} : x ∈ mapOrder now w ↔ x ∈ w := by
  have hperm : (byClass now w).Perm w := List.mergeSort_perm ..
  rw [mapOrder_eq, List.mem_append, List.mem_mergeSort, List.mem_filter, hperm.mem_iff]
  refine ⟨fun h => h.elim (fun h => hperm.mem_iff.mp ((keptOf_sublist now w).subset h)) And.left, fun h => ?_⟩
  by_cases hk : x ∈ keptOf now w
  · exact .inl hk
  · exact .inr ⟨h, by simpa using hk⟩

theorem nums_mapOrder (h : (w.map (·.num)).Nodup) : ((mapOrder now w).map (·.num)).Nodup := by
  have hperm : (byClass now w).Perm w := List.mergeSort_perm ..
  have hclass : ((byClass now w).map (·.num)).Nodup := (hperm.map _).nodup_iff.mpr h
  rw [mapOrder_eq, List.map_append]
  refine List.Nodup.append ?_ ?_ ?_
  · exact ((List.mergeSort_perm (keptOf now w) (mapBefore now)).map _).nodup_iff.mpr (((keptOf_sublist now w).map _).nodup hclass)
  · exact ((List.filter_sublist (p := fun q => !(keptOf now w).contains q)).map _).nodup hclass
  · intro n hn hn'
    obtain ⟨a, ha, rfl⟩ := List.mem_map.mp hn
    obtain ⟨b, hb, e⟩ := List.mem_map.mp hn'
    obtain ⟨hb, hout⟩ := List.mem_filter.mp hb
    have ha := List.mem_mergeSort.mp ha
    rw [eq_of_id hclass hb ((keptOf_sublist now w).subset ha) e] at hout
    simp [ha] at hout

/-- A kept queue for which this round is the last within its bound stands among the first 64. -/
theorem mapOrder_index {x : Queue} (hx : x ∈ keptOf now w) (h1 : roundsLeft now x = 1) :
    ∃ i, i < 64 ∧ i < w.length ∧ (mapOrder now w)[i]? = some x := by
  have hperm := List.mergeSort_perm (keptOf now w) (mapBefore now)
  have hsorted : ((keptOf now w).mergeSort (mapBefore now)).Pairwise fun a b => mapBefore now a b = true :=
    List.pairwise_mergeSort (mapBefore_trans now) (mapBefore_total now) _
  have hfit := (boundsFit_iff now (keptOf now w)).mp (boundsFit_keptOf now w) x hx
  rw [h1, ← ((hperm.filter _).length_eq)] at hfit
  have hlen := length_keptOf now w
  rw [← hperm.length_eq] at hlen
  obtain ⟨l₁, l₂, e⟩ := List.append_of_mem (hperm.mem_iff.mpr hx)
  rw [mapOrder_eq]
  rw [e] at hsorted hfit hlen ⊢
  have hsorted := (List.pairwise_append.mp hsorted).2.2
  have hall : (l₁ ++ [x]).filter (fun y => decide (roundsLeft now y ≤ 1)) = l₁ ++ [x] := by
    refine List.filter_eq_self.mpr fun y hy => decide_eq_true ?_
    obtain hy | hy := List.mem_append.mp hy
    · exact (roundsLeft_mono (hsorted y hy x List.mem_cons_self)).trans_eq h1
    · rw [List.mem_singleton.mp hy, h1]
  have hsub : ((l₁ ++ [x]).filter fun y => decide (roundsLeft now y ≤ 1)).Sublist ((l₁ ++ x :: l₂).filter fun y => decide (roundsLeft now y ≤ 1)) :=
    ((List.Sublist.refl l₁).append (List.singleton_sublist.mpr List.mem_cons_self)).filter _
  have hcount := hsub.length_le.trans hfit
  rw [hall, List.length_append, List.length_singleton] at hcount
  refine ⟨l₁.length, by omega, ?_, by simp⟩
  rw [List.length_append, List.length_cons] at hlen
  omega

end

end Sys2Proof.Machine
end

section
/-! O51: a mapping round, told, and the statement. -/

namespace Sys2Proof.Machine
open Sys2Proof.Claims

/-! ### What a round makes of the queues before waiting ones take slots -/

/-- A mapped queue has been mapped for one round more. -/
def Queue.aged (q : Queue) : Queue := if q.mapped.isSome then { q with rounds := q.rounds + 1 } else q

/-- The state at the start of a round. -/
def State.roundStart (s : State) : State := { s with queues := s.queues.map Queue.aged, roundAt := s.roundAt + roundNs }

/-- The queues that wait for a slot. -/
def State.waitList (s : State) : List Queue := s.queues.filter fun q => q.mapped.isNone && s.hasWork q

/-- A queue whose number is in the cut loses its slot. -/
def Queue.cutBy (cut : List Nat) (q : Queue) : Queue := if cut.contains q.num then { q with mapped := none, rounds := 0 } else q

/-- The state in which the queues of the cut have lost their slots. -/
def State.cutSlots (s : State) (cut : List Nat) : State := { s with queues := s.queues.map (Queue.cutBy cut) }

@[simp] theorem Queue.aged_num (q : Queue) : q.aged.num = q.num := by
  unfold Queue.aged
  split <;> rfl

@[simp] theorem Queue.aged_mapped (q : Queue) : q.aged.mapped = q.mapped := by
  unfold Queue.aged
  split <;> rfl

theorem Queue.aged_of_none {q : Queue} (h : q.mapped = none) : q.aged = q := by
  unfold Queue.aged
  rw [h]
  rfl

theorem Queue.aged_rounds {q : Queue} (h : q.mapped.isSome = true) : 1 ≤ q.aged.rounds := by
  unfold Queue.aged
  rw [if_pos h]
  exact Nat.le_add_left ..

@[simp] theorem Queue.cutBy_num (cut : List Nat) (q : Queue) : (q.cutBy cut).num = q.num := by
  unfold Queue.cutBy
  split <;> rfl

theorem Queue.cutBy_mapped (cut : List Nat) (q : Queue) : (q.cutBy cut).mapped = if cut.contains q.num then none else q.mapped := by
  unfold Queue.cutBy
  split <;> rfl

theorem Queue.mapped_of_cutBy {cut : List Nat} {q : Queue} {k : Nat} (h : (q.cutBy cut).mapped = some k) : q.mapped = some k := by
  rw [Queue.cutBy_mapped] at h
  split at h
  · cases h
  · exact h

theorem hasWork_roundStart (s : State) (q : Queue) : s.roundStart.hasWork q = s.hasWork q := rfl

/-- Queues that wait are as they were. -/
theorem waitList_roundStart (s : State) : s.roundStart.waitList = s.waitList := by
  unfold State.waitList
  change (s.queues.map Queue.aged).filter (fun q => q.mapped.isNone && s.roundStart.hasWork q) = _
  induction s.queues with
  | nil => rfl
  | cons q r ih =>
    rw [List.map_cons, List.filter_cons, List.filter_cons, ih, Queue.aged_mapped, hasWork_roundStart]
    by_cases h : q.mapped = none
    · rw [Queue.aged_of_none h]
    · simp [h]

/-- Numbers and slots that are as they were, or have gone. -/
theorem Slots.map {qs : List Queue} (h : Slots qs) {f : Queue → Queue} (hn : ∀ q, (f q).num = q.num)
    (hm : ∀ q k, (f q).mapped = some k → q.mapped = some k) : Slots (qs.map f) := by
  refine ⟨?_, fun a ha k hk => ?_, fun a ha b hb k hka hkb => ?_⟩
  · rw [List.map_map, show Queue.num ∘ f = Queue.num from funext hn]
    exact h.nums
  · obtain ⟨x, hx, rfl⟩ := List.mem_map.mp ha
    exact h.bound x hx k (hm x k hk)
  · obtain ⟨x, hx, rfl⟩ := List.mem_map.mp ha
    obtain ⟨y, hy, rfl⟩ := List.mem_map.mp hb
    rw [hn, hn]
    exact h.own x hx y hy k (hm x k hka) (hm y k hkb)

theorem slots_roundStart {s : State} (h : Slots s.queues) : Slots s.roundStart.queues :=
  h.map Queue.aged_num fun q k hk => by rwa [Queue.aged_mapped] at hk

theorem slots_cutSlots {s : State} (h : Slots s.queues) (cut : List Nat) : Slots (s.cutSlots cut).queues :=
  h.map (Queue.cutBy_num cut) fun _ _ => Queue.mapped_of_cutBy

/-! ### The cut -/

/-- The mapped queues of a state that a round does not name, in the order in which they lose slots. -/
def State.unnamed (s : State) (unmap : List Nat) : List Queue :=
  ((holders s.queues).filter fun q => !unmap.contains q.num).mergeSort s.cutBefore
/-- Those that it names. -/
def State.named (s : State) (unmap : List Nat) : List Queue := (holders s.queues).filter fun q => unmap.contains q.num

/-- How many queues lose their slots beside those that the round names. -/
def State.roundNeed (s : State) (unmap : List Nat) : Nat :=
  s.waitList.length - (64 - (holders s.queues).length + (s.named unmap).length)

/-- Where every mapped queue has been mapped for a round, the cut is of all of them. -/
theorem roundCut_eq {s : State} (h : ∀ q ∈ holders s.queues, 1 ≤ q.rounds) (unmap : List Nat) :
    s.roundCut unmap = (s.named unmap).map (·.num) ++ ((s.unnamed unmap).take (s.roundNeed unmap)).map (·.num) := by
  have hold : (s.queues.filter fun q => q.mapped.isSome && decide (1 ≤ q.rounds)) = holders s.queues := by
    refine List.filter_congr fun q hq => ?_
    by_cases hm : q.mapped.isSome = true
    · rw [hm, decide_eq_true (h q (List.mem_filter.mpr ⟨hq, hm⟩))]
      rfl
    · simp [hm]
  have hnamed : ((holders s.queues).filter fun q => unmap.contains q.num).map (·.num) = (s.named unmap).map (·.num) := rfl
  unfold State.roundCut
  dsimp only
  rw [hold, hnamed, List.length_map]
  rfl

theorem length_holders_split (s : State) (unmap : List Nat) :
    (holders s.queues).length = (s.named unmap).length + (s.unnamed unmap).length := by
  rw [State.unnamed, List.length_mergeSort]
  exact List.length_eq_length_filter_add _

/-- The queues that keep their slots are among the unnamed ones that the cut does not reach. -/
theorem length_holders_cutSlots {s : State} (h : Slots s.queues) (hr : ∀ q ∈ holders s.queues, 1 ≤ q.rounds) (unmap : List Nat) :
    (holders (s.cutSlots (s.roundCut unmap)).queues).length ≤ (s.unnamed unmap).length - s.roundNeed unmap := by
  have hcount : (holders (s.cutSlots (s.roundCut unmap)).queues).length =
      (s.queues.filter fun q => (q.cutBy (s.roundCut unmap)).mapped.isSome).length := by
    rw [holders, State.cutSlots, List.filter_map, List.length_map]
    rfl
  rw [hcount, ← List.length_drop]
  refine (List.subperm_of_subset (h.nums.of_map.filter _) fun q hq => ?_).length_le
  obtain ⟨hq, hsome⟩ := List.mem_filter.mp hq
  rw [Queue.cutBy_mapped] at hsome
  split at hsome
  · cases hsome
  · next hout =>
    rw [roundCut_eq hr, List.contains_iff_mem, List.mem_append, not_or] at hout
    have hholds : q ∈ holders s.queues := List.mem_filter.mpr ⟨hq, hsome⟩
    have hun : q ∈ s.unnamed unmap := List.mem_mergeSort.mpr (List.mem_filter.mpr ⟨hholds, by
      simpa using fun hu => hout.1 (List.mem_map_of_mem (List.mem_filter.mpr ⟨hholds, by simpa using hu⟩))⟩)
    rw [← List.take_append_drop (s.roundNeed unmap) (s.unnamed unmap)] at hun
    exact (List.mem_append.mp hun).resolve_left fun htake => hout.2 (List.mem_map_of_mem htake)

/-- The slots that are free after the cut reach every waiting queue among the first 64. -/
theorem reach_of_index {s : State} (h : Slots s.queues) (hr : ∀ q ∈ holders s.queues, 1 ≤ q.rounds) (unmap : List Nat) {i : Nat} (h64 : i < 64)
    (hw : i < s.waitList.length) : (holders (s.cutSlots (s.roundCut unmap)).queues).length + i < 64 := by
  have hcut := length_holders_cutSlots h hr unmap
  have hsplit := length_holders_split s unmap
  have hlen := h.length_holders
  unfold State.roundNeed at hcut
  omega

/-- With no queue waiting the cut is what the round names. -/
theorem mem_roundCut_of_idle {s : State} (hr : ∀ q ∈ holders s.queues, 1 ≤ q.rounds) {unmap : List Nat} (hw : s.waitList = []) {n : Nat}
    (hn : n ∈ s.roundCut unmap) : n ∈ unmap := by
  have hneed : s.roundNeed unmap = 0 := by
    rw [State.roundNeed, hw]
    exact Nat.zero_sub _
  rw [roundCut_eq hr, hneed] at hn
  simp only [List.take_zero, List.map_nil, List.append_nil] at hn
  obtain ⟨q, hq, rfl⟩ := List.mem_map.mp hn
  simpa using (List.mem_filter.mp hq).2

/-! ### The round -/

/-- The state after the cut. -/
def State.roundCutDone (s : State) (unmap : List Nat) : State := s.roundStart.cutSlots (s.roundStart.roundCut unmap)

theorem exec_mappingRound {s : State} (h : s.roundAt ≤ s.ns) (unmap : List Nat) :
    exec (.mappingRound unmap) s = .next ((s.roundCutDone unmap).mapQueues (mapOrder s.ns s.waitList)) := by
  rw [← waitList_roundStart]
  exact if_neg (Nat.not_lt.mpr h)

theorem rounds_roundStart (s : State) : ∀ q ∈ holders s.roundStart.queues, 1 ≤ q.rounds := fun q hq => by
  obtain ⟨hq, hm⟩ := List.mem_filter.mp hq
  obtain ⟨x, -, rfl⟩ := List.mem_map.mp hq
  rw [Queue.aged_mapped] at hm
  exact Queue.aged_rounds hm

theorem nums_roundCutDone (s : State) (unmap : List Nat) : (s.roundCutDone unmap).queues.map (·.num) = s.queues.map (·.num) := by
  change ((s.queues.map Queue.aged).map (Queue.cutBy _)).map (·.num) = _
  rw [List.map_map, List.map_map]
  exact List.map_congr_left fun q _ => by simp

/-- What a queue of the state is after the cut. -/
theorem queue?_roundCutDone {s : State} (h : Slots s.queues) (unmap : List Nat) {a : Queue} (ha : a ∈ s.queues) :
    (s.roundCutDone unmap).queue? a.num = some (a.aged.cutBy (s.roundStart.roundCut unmap)) := by
  have hmem : a.aged.cutBy (s.roundStart.roundCut unmap) ∈ (s.roundCutDone unmap).queues := List.mem_map_of_mem (List.mem_map_of_mem ha)
  have hfind := find_of_mem_num (slots_cutSlots (slots_roundStart h) _).nums hmem
  rwa [Queue.cutBy_num, Queue.aged_num] at hfind

theorem slotOf_roundCutDone_of_none {s : State} (h : Slots s.queues) (unmap : List Nat) {a : Queue} (ha : a ∈ s.queues) (hm : a.mapped = none) :
    slotOf (s.roundCutDone unmap) a.num = none := by
  rw [slotOf, queue?_roundCutDone h unmap ha, Option.bind_some, Queue.cutBy_mapped, Queue.aged_mapped, hm, ite_self]

theorem takes_round {s : State} (h : Slots s.queues) (unmap : List Nat) : Takes (s.roundCutDone unmap)
    ((s.roundCutDone unmap).mapQueues (mapOrder s.ns s.waitList)) (mapOrder s.ns s.waitList) := by
  refine takes_mapQueues _ _ (slots_cutSlots (slots_roundStart h) _) (nums_mapOrder ((List.filter_sublist.map _).nodup h.nums)) fun q hq => ?_
  obtain ⟨hq, hwait⟩ := List.mem_filter.mp (mem_mapOrder.mp hq)
  simp only [Bool.and_eq_true, Option.isNone_iff_eq_none] at hwait
  exact ⟨by rw [nums_roundCutDone]; exact List.mem_map_of_mem hq, slotOf_roundCutDone_of_none h unmap hq hwait.1⟩

end Sys2Proof.Machine

namespace Sys2Proof.Claims
open Sys2Proof Sys2Proof.Machine

theorem mem_waitList {s : State} {a : Queue} : a ∈ s.waitList ↔ a ∈ s.queues ∧ a.mapped = none ∧ s.hasWork a = true := by
  simp [State.waitList]

/-- The statement's reading of bounds that can be kept. -/
theorem classFits_of_boundsFit {s : State} {c : Nat} (h : BoundsFit s c) : ClassFits s.ns c s.waitList := by
  intro x hx hc
  obtain ⟨hq, hm, hk⟩ := mem_waitList.mp hx
  have hb := h x hq (by simp [hm, hk, hc])
  have hsame : (s.waitList.filter fun y => decide (y.cls ≤ c) && decide (roundsLeft s.ns y ≤ roundsLeft s.ns x)) =
      s.queues.filter fun y => (y.mapped.isNone && s.hasWork y && decide (y.cls ≤ c)) && decide (roundsOf s y ≤ roundsOf s x) := by
    rw [State.waitList, List.filter_filter]
    refine List.filter_congr fun y _ => ?_
    change ((decide (y.cls ≤ c) && decide (roundsOf s y ≤ roundsOf s x)) && (y.mapped.isNone && s.hasWork y)) = _
    cases y.mapped.isNone <;> cases s.hasWork y <;> cases decide (y.cls ≤ c) <;> simp
  rw [hsame]
  exact hb

/-- Two elements of a list whose pairs are related are related one way or the other. -/
theorem rel_or_eq_or_rel {α : Type} {R : α → α → Prop} {a b : α} : ∀ {l : List α}, l.Pairwise R → a ∈ l → b ∈ l → R a b ∨ a = b ∨ R b a
  | x :: r, h, ha, hb => by
    obtain ⟨hx, hr⟩ := List.pairwise_cons.mp h
    obtain ea | ha := List.mem_cons.mp ha <;> obtain eb | hb := List.mem_cons.mp hb
    · exact .inr (.inl (ea.trans eb.symm))
    · exact .inl (ea ▸ hx b hb)
    · exact .inr (.inr (eb ▸ hx a ha))
    · exact rel_or_eq_or_rel hr ha hb

/-- Of two kept queues the one with the earlier bound, or the higher class, takes a slot where the other does. -/
theorem slot_of_earlier {s u t : State} (ht : Takes u t (mapOrder s.ns s.waitList)) {a b : Queue} (ha : a ∈ keptOf s.ns s.waitList)
    (hb : b ∈ keptOf s.ns s.waitList) {i j : Nat} (hi : a.due = some i) (hj : b.due = some j) (hbefore : i < j ∨ (i = j ∧ a.cls < b.cls))
    (hslot : slotOf t b.num ≠ none) : slotOf t a.num ≠ none := by
  have hsorted : ((keptOf s.ns s.waitList).mergeSort (mapBefore s.ns)).Pairwise fun a b => mapBefore s.ns a b = true :=
    List.pairwise_mergeSort (mapBefore_trans s.ns) (mapBefore_total s.ns) _
  have horder := ht.order
  rw [mapOrder_eq] at horder
  have hboth := hsorted.and (List.pairwise_append.mp horder).1
  obtain h | h | h := rel_or_eq_or_rel hboth (List.mem_mergeSort.mpr ha) (List.mem_mergeSort.mpr hb)
  · exact h.2 hslot
  · rw [h] at hi hbefore
    rw [hi] at hj
    have := Option.some.inj hj
    omega
  · have hrel := h.1
    rw [mapBefore_iff, hi, hj, Option.getD_some, Option.getD_some] at hrel
    omega

theorem mappingRound_maps {s : State} {unmap : List Nat} (hround : s.roundAt ≤ s.ns) (h : Slots s.queues) : Comes (.mappingRound unmap) s fun t =>
      let slot := fun (a : Queue) => (t.queue? a.num).bind (·.mapped)
      let waits := fun (a : Queue) => a ∈ s.queues ∧ a.mapped = none ∧ s.hasWork a = true
      t = { s with queues := t.queues, roundAt := t.roundAt } ∧ t.roundAt = s.roundAt + 250000 ∧
      t.queues.map (·.num) = s.queues.map (·.num) ∧ (∀ a ∈ t.queues, ∀ k, a.mapped = some k → k < 64) ∧
      (∀ a ∈ t.queues, ∀ b ∈ t.queues, ∀ k, a.mapped = some k → b.mapped = some k → a.num = b.num) ∧
      (∀ a, waits a → slot a = none → ∀ k, k < 64 → ∃ b ∈ t.queues, b.mapped = some k) ∧
      (∀ a b i j, BoundsFit s 3 → waits a → waits b → a.cls ≤ 3 → b.cls ≤ 3 → a.due = some i → b.due = some j → slot b ≠ none →
        i < j ∨ (i = j ∧ a.cls < b.cls) → slot a ≠ none) ∧
      (∀ a, waits a → roundsOf s a = 1 → BoundsFit s a.cls → slot a ≠ none) ∧
      ((∀ a, ¬waits a) → ∀ a ∈ s.queues, ∀ k, a.mapped = some k → a.num ∉ unmap → slot a = some k) := by
  have htakes := takes_round h unmap
  have hwaits {a : Queue} : (a ∈ s.queues ∧ a.mapped = none ∧ s.hasWork a = true) ↔ a ∈ mapOrder s.ns s.waitList :=
    mem_waitList.symm.trans mem_mapOrder.symm
  refine ⟨_, exec_mappingRound hround unmap, ?_, ?_, htakes.nums.trans (nums_roundCutDone s unmap), htakes.slots.bound, htakes.slots.own,
    fun a ha hslot => htakes.full a (hwaits.mp ha) hslot, fun a b i j hfit ha hb hac hbc hi hj hslot hbefore => ?_,
    fun a ha h1 hfit => ?_, fun hidle a ha k hk hout => ?_⟩
  · conv_lhs => rw [htakes.frame]
    rw [htakes.frame]
    rfl
  · rw [htakes.frame]
    rfl
  · have hall := classFits_of_boundsFit hfit
    exact slot_of_earlier htakes (mem_keptOf hall (mem_waitList.mpr ha) hac) (mem_keptOf hall (mem_waitList.mpr hb) hbc) hi hj hbefore hslot
  · obtain ⟨i, h64, hlen, hi⟩ := mapOrder_index (mem_keptOf (classFits_of_boundsFit hfit) (mem_waitList.mpr ha) le_rfl) h1
    exact htakes.reach i a hi (reach_of_index (slots_roundStart h) (rounds_roundStart s) unmap h64 (by rwa [waitList_roundStart]))
  · have hnone : s.waitList = [] := List.eq_nil_iff_forall_not_mem.mpr fun a ha => hidle a (mem_waitList.mp ha)
    have hkept : ¬(s.roundStart.roundCut unmap).contains a.num = true := fun hc =>
      hout (mem_roundCut_of_idle (rounds_roundStart s) ((waitList_roundStart s).trans hnone) (List.contains_iff_mem.mp hc))
    have hmapped : slotOf (s.roundCutDone unmap) a.num = some k := by
      rw [slotOf, queue?_roundCutDone h unmap ha, Option.bind_some, Queue.cutBy_mapped, Queue.aged_num, if_neg hkept, Queue.aged_mapped, hk]
    have hnil : mapOrder s.ns [] = [] := by simp [mapOrder]
    rw [hnone, hnil]
    exact hmapped

theorem scanSteps (s : State) (q : Nat) : ScanSteps s q :=
  ⟨fun _ _ _ _ hq hm hk hc hp hr hw => packetCoreScan_reads hq hm hk hc hp hr hw,
    fun _ hround hnums hbound hown => mappingRound_maps hround ⟨hnums, hbound, hown⟩⟩

/-- Settles O51: a core reads the packet at C; a round frees slots enough for the first 64 of the waiting queues, which it takes in the
order of their bounds. -/
theorem queueScan : Obligations.QueueScan := scanSteps

end Sys2Proof.Claims
end

section
/-! START_STATUS (R86) stays as it is: memory, the sampler and copies. -/

namespace Sys2Proof.Machine
open Sys2Proof.Claims

/-! ### What keeps the start registers -/

theorem start_sheds {s t : State} (h : Sheds s t) : t.start = s.start := (congrArg State.start h.frame :)

@[simp] theorem start_foldl {α : Type} {f : State → α → State} (h : ∀ s x, (f s x).start = s.start) : ∀ (l : List α) (s : State),
    (l.foldl f s).start = s.start
  | [], _ => rfl
  | x :: r, s => (start_foldl h r _).trans (h s x)

/-! ### Puts and time -/

@[simp] theorem start_setQueue (s : State) (q : Queue) : (s.setQueue q).start = s.start := rfl

/-! ### Memory -/

@[simp] theorem start_homeWrite (s : State) (pa : Nat) (b : Byte) (bad : Bool) : (s.homeWrite pa b bad).start = s.start :=
  (memoryOnly_homeWrite ..).start
@[simp] theorem start_hostWriteBack (s : State) (lo n : Nat) : (s.hostWriteBack lo n).start = s.start := rfl
@[simp] theorem start_hostDrop (s : State) (lo n : Nat) : (s.hostDrop lo n).start = s.start := rfl
@[simp] theorem start_l2Touch (s : State) (ctx pa : Nat) : (s.l2Touch ctx pa).start = s.start := rfl
@[simp] theorem start_l2Read (s : State) (ctx pa : Nat) : (s.l2Read ctx pa).start = s.start := (memoryOnly_l2Read ..).start
@[simp] theorem start_leafWrite (s : State) (pa : Nat) (comp : Bool) (b : Byte) (bad : Bool) : (s.leafWrite pa comp b bad).start = s.start :=
  (memoryOnly_leafWrite ..).start
@[simp] theorem start_forgetView (s : State) (ctx view : Nat) : (s.forgetView ctx view).start = s.start := rfl
@[simp] theorem start_onMast (s : State) (m : Option Nat) (f : Mast → Mast) : (s.onMast m f).start = s.start := (memoryOnly_onMast ..).start

@[simp] theorem start_writeByte (s : State) (w : Writer) (l : Loc) (b : Byte) (bad : Bool) : (s.writeByte w l b bad).start = s.start :=
  (memoryOnly_writeByte ..).start

@[simp] theorem start_writeBytes (s : State) (w : Writer) (l : Loc) (x : List (Byte × Bool)) : (s.writeBytes w l x).start = s.start :=
  (memoryOnly_writeBytes ..).start

@[simp] theorem start_l1Fill (s : State) (m : Nat) (c : Ctx) (h : Nat) (l : Loc) : (s.l1Fill m c h l).start = s.start := by
  unfold State.l1Fill
  dsimp only
  split <;> simp

@[simp] theorem start_l1Byte (s : State) (m : Nat) (c : Ctx) (h : Nat) (l : Loc) : (s.l1Byte m c h l).1.start = s.start := by
  unfold State.l1Byte
  dsimp only
  repeat' split
  all_goals simp

@[simp] theorem start_acquire (s : State) (m : Nat) : (s.acquire m).start = s.start := rfl
@[simp] theorem start_systemRelease (s : State) : s.systemRelease.start = s.start := rfl

@[simp] theorem start_tlbKeepLeaf (s : State) (c : Ctx) (va : Nat) (a : Acc) (m : Nat) : (s.tlbKeepLeaf c va a m).start = s.start := by
  unfold State.tlbKeepLeaf
  split <;> simp

@[simp] theorem start_tlbDrop (s : State) (p : TlbEntry → Bool) : (s.tlbDrop p).start = s.start := rfl

@[simp] theorem start_l1Segs (s : State) (m : Nat) (c : Ctx) (h : Nat) (ls : List (Loc × Nat)) : (s.l1Segs m c h ls).1.start = s.start :=
  (reads_l1Segs m c h ls s).memory.start

@[simp] theorem start_homeSegs (s : State) (c : Ctx) (h : Nat) (x : List (Loc × Nat)) : (s.homeSegs c h x).1.start = s.start :=
  (memoryOnly_homeSegs ..).start
@[simp] theorem start_writeSegs (s : State) (w : Writer) (x : List (Loc × Nat)) (y : List (Byte × Bool)) : (s.writeSegs w x y).start = s.start :=
  (memoryOnly_writeSegs ..).start
@[simp] theorem start_readRoot (s : State) (c : Ctx) (va n : Nat) : (s.readRoot c va n).1.start = s.start := (memoryOnly_readRoot ..).start
@[simp] theorem start_writePhys (s : State) (pa : Nat) (bs : List Byte) : (s.writePhys pa bs).start = s.start := (memoryOnly_writePhys ..).start

/-! ### Contributions -/

@[simp] theorem start_hostPurge (s : State) (pa : Nat) : (s.hostPurge pa).start = s.start := rfl

@[simp] theorem start_rmw (s : State) (c : Ctx) (w : Writer) (l : Loc) (n scope : Nat) (exch : Bool) (f : Nat → Option Nat) :
    (s.rmw c w l n scope exch f).1.start = s.start := (memoryOnly_rmw ..).start

@[simp] theorem start_mergeAt (s : State) (ctx : Nat) (mast : Option Nat) (l : Loc) (op ty scope v : Nat) :
    (s.mergeAt ctx mast l op ty scope v).start = s.start := (memoryOnly_mergeAt ..).start

@[simp] theorem start_choices (s : State) (n : Nat) : (s.choices n).2.start = s.start := rfl
@[simp] theorem start_mergeEntries (s : State) (mast : Nat) (x : List Stage0) : (s.mergeEntries mast x).start = s.start :=
  (memoryOnly_mergeEntries ..).start
@[simp] theorem start_flushWhere (s : State) (mast : Nat) (p : Stage0 → Bool) (order : List Nat) : (s.flushWhere mast p order).start = s.start :=
  (memoryOnly_flushWhere ..).start
@[simp] theorem start_flushTeam (s : State) (t : Team) : (s.flushTeam t).start = s.start := start_sheds (sheds_flushTeam ..)

@[simp] theorem start_flushOldest (s : State) (mast n : Nat) : (s.flushOldest mast n).start = s.start := by
  unfold State.flushOldest
  simp

@[simp] theorem start_applyDet (s : State) (ctx mast : Nat) (ps : List Partial) (x : List DetEntry) : (s.applyDet ctx mast ps x).1.start = s.start :=
  (memoryOnly_applyDet ..).start

@[simp] theorem start_closeEpoch (s : State) (t : Team) : (s.closeEpoch t).start = s.start := by
  unfold State.closeEpoch
  simp

@[simp] theorem start_closeEpochs (s : State) (team n : Nat) : (s.closeEpochs team n).start = s.start :=
  closeEpochs_induct (P := fun a => a.start = s.start) (fun h k => h.start.trans k) (fun _ _ _ k => k) n s rfl

@[simp] theorem start_mergePartials (l : Launch) : ∀ (vas : List Nat) (s : State), (s.mergePartials l vas).start = s.start
  | [], _ => rfl
  | va :: r, s => by
    rw [State.mergePartials, start_mergePartials l r]
    split
    · rfl
    · exact start_mergeAt ..

/-! ### The sampler -/

@[simp] theorem start_holdBytes (s : State) (m : Nat) (p : SampleJob → Bool) (bs : List ((Option Nat × Nat) × Byte × Bool)) :
    (s.holdBytes m p bs).start = s.start := by
  unfold State.holdBytes
  dsimp only
  split <;> simp

@[simp] theorem start_sampByte (s : State) (m : Nat) (c : Ctx) (j : SampleJob) (va : Nat) : (s.sampByte m c j va).1.start = s.start := by
  unfold State.sampByte
  dsimp only
  repeat' split
  all_goals simp

@[simp] theorem start_sampBytes (m : Nat) (c : Ctx) (j : SampleJob) : ∀ (n : Nat) (s : State) (va : Nat), (s.sampBytes m c j va n).1.start = s.start
  | 0, _, _ => rfl
  | n + 1, s, va => by
    rw [State.sampBytes]
    exact (start_sampBytes m c j n _ _).trans (start_sampByte ..)

@[simp] theorem start_texel (s : State) (m : Nat) (c : Ctx) (j : SampleJob) (h : List Byte) (l : Nat) (p : Option (Nat × Nat)) :
    (s.texel m c j h l p).1.start = s.start := by
  unfold State.texel
  split <;> simp

@[simp] theorem start_latent (s : State) (m : Nat) (c : Ctx) (j : SampleJob) (h : List Byte) (l : Nat) (p : Option (Nat × Nat)) :
    (s.latent m c j h l p).1.start = s.start := by
  unfold State.latent
  dsimp only
  repeat' split
  all_goals simp

theorem start_readPlaces {α : Type} {rd : State → Option (Nat × Nat) → State × Option α} (h : ∀ s p, (rd s p).1.start = s.start) :
    ∀ (l : List (Option (Nat × Nat))) (s : State), (readPlaces rd s l).1.start = s.start
  | [], _ => rfl
  | p :: r, s => by
    rw [readPlaces]
    exact (start_readPlaces h r _).trans (h s p)

@[simp] theorem start_sampleWords (s : State) (m : Nat) (c : Ctx) (e : SampEnv) (h : List Byte) (j : SampleJob) :
    (s.sampleWords m c e h j).1.start = s.start := by
  have htexels (l : Nat) := start_readPlaces (rd := fun a p => a.texel m c j h l p) fun s p => start_texel s m c j h l p
  have hlatents (l : Nat) := start_readPlaces (rd := fun a p => a.latent m c j h l p) fun s p => start_latent s m c j h l p
  unfold State.sampleWords
  dsimp only
  repeat' split
  all_goals simp [htexels, hlatents]

@[simp] theorem start_startFill (s : State) (m : Nat) (f : SFill) : (s.startFill m f).start = s.start := by
  unfold State.startFill
  dsimp only
  split <;> simp

@[simp] theorem start_jobLine (s : State) (m : Nat) (j : SampleJob) (f : SFill) : (s.jobLine m j f).1.start = s.start := by
  unfold State.jobLine
  repeat' split
  all_goals simp

@[simp] theorem start_jobLines (m : Nat) : ∀ (fs : List SFill) (s : State) (j : SampleJob), (s.jobLines m j fs).1.start = s.start
  | [], _, _ => rfl
  | f :: r, s, j => by
    rw [State.jobLines]
    exact (start_jobLines m r _ _).trans (start_jobLine ..)

@[simp] theorem start_advanceJob (s : State) (m hva : Nat) (j : SampleJob) : (s.advanceJob m hva j).start = s.start := by
  unfold State.advanceJob
  dsimp only
  repeat' split
  all_goals simp

@[simp] theorem start_advanceJobs (m : Nat) : ∀ (js : List SampleJob) (s : State), (s.advanceJobs m js).start = s.start
  | [], _ => rfl
  | j :: r, s => by rw [State.advanceJobs, start_advanceJobs m r, start_advanceJob]

@[simp] theorem start_fillLine (s : State) (m : Nat) (f : SFill) : (s.fillLine m f).1.start = s.start := by
  unfold State.fillLine
  dsimp only
  split <;> simp

@[simp] theorem start_pinFills (s : State) (m ctx slot : Nat) (gen : BitVec 16) (ls : List Nat) : (s.pinFills m ctx slot gen ls).start = s.start :=
  start_foldl (fun a l => by split <;> simp) ..

@[simp] theorem start_pinSlot (s : State) (m ctx slot hva : Nat) : (s.pinSlot m ctx slot hva).start = s.start := by
  unfold State.pinSlot
  dsimp only
  repeat' split
  all_goals simp

@[simp] theorem start_hinvSlot (s : State) (m ctx slot : Nat) : (s.hinvSlot m ctx slot).start = s.start := rfl
@[simp] theorem start_hinvAll (s : State) (ctx slot : Nat) : (s.hinvAll ctx slot).start = s.start := rfl

@[simp] theorem start_landFill (s : State) (mast k : Nat) : (s.landFill mast k).start = s.start := by
  unfold State.landFill
  dsimp only
  repeat' split
  all_goals simp

@[simp] theorem start_drainJobs (m : Nat) (p : SampleJob → Bool) : ∀ (n : Nat) (s : State), (s.drainJobs m p n).start = s.start
  | 0, _ => rfl
  | n + 1, s => by
    rw [State.drainJobs]
    split
    · rw [start_drainJobs m p n, start_landFill]
    · rfl

@[simp] theorem start_performJobs (s : State) (m : Nat) (p : SampleJob → Bool) : (s.performJobs m p).start = s.start := by
  unfold State.performJobs
  simp

@[simp] theorem start_landSmma (s : State) (q : SmmaJob) : (s.landSmma q).start = s.start := by
  unfold State.landSmma
  split <;> simp

@[simp] theorem start_endRunning (s : State) (id : Nat) : (s.endRunning id).start = s.start := rfl

/-! ### Asynchronous copies -/

@[simp] theorem start_imageFor (s : State) (t : Team) (c : Ctx) (a : AsyncCopy) : (s.imageFor t c a).1.start = s.start :=
  (reads_imageFor s t c a).memory.start

@[simp] theorem start_shieldJobs (s : State) (m team tid : Nat) (c : Ctx) (h : Nat) (segs : List (Loc × Nat)) :
    (s.shieldJobs m team tid c h segs).start = s.start := by
  unfold State.shieldJobs
  dsimp only
  split <;> simp

@[simp] theorem start_copyOut (s : State) (t : Team) (c : Ctx) (a : AsyncCopy) (o n : Nat) (p : Nat → Bool) :
    (s.copyOut t c a o n p).1.start = s.start := (memoryOnly_copyOut ..).start

@[simp] theorem start_setAsync (s : State) (a : AsyncCopy) : (s.setAsync a).start = s.start := rfl

@[simp] theorem start_writeOut (s : State) (t : Team) (a : AsyncCopy) (o n : Nat) (ks : List Nat) : (s.writeOut t a o n ks).start = s.start := by
  unfold State.writeOut
  simp

@[simp] theorem start_settleOut (p : Loc → Bool) (s : State) (a : AsyncCopy) : (State.settleOut p s a).start = s.start := by
  unfold State.settleOut
  dsimp only
  repeat' split
  all_goals simp

@[simp] theorem start_settleOuts (s : State) (team tid : Nat) (p : Loc → Bool) : (s.settleOuts team tid p).start = s.start := by
  unfold State.settleOuts
  simp

@[simp] theorem start_driftCopy (moment : Nat) (s : State) (a : AsyncCopy) : (State.driftCopy moment s a).start = s.start := by
  unfold State.driftCopy
  dsimp only
  repeat' split
  all_goals simp

@[simp] theorem start_driftCopies (s : State) : s.driftCopies.start = s.start := by
  unfold State.driftCopies
  split <;> simp

@[simp] theorem start_completeCopy (s : State) (a : AsyncCopy) : (s.completeCopy a).start = s.start := start_sheds (sheds_completeCopy ..)
@[simp] theorem start_completeCopies (s : State) (x : List AsyncCopy) : (s.completeCopies x).start = s.start :=
  start_sheds (sheds_completeCopies ..)

@[simp] theorem start_release (s : State) (team tid scope : Nat) : (s.release team tid scope).start = s.start := by
  unfold State.release
  dsimp only
  repeat' split
  all_goals simp

end Sys2Proof.Machine
end

section
/-! START_STATUS (R86) stays as it is: teams, launches, hypotheses and packs. -/

namespace Sys2Proof.Machine
open Sys2Proof.Claims

/-! ### MX operations -/

@[simp] theorem start_runAccs (s : State) (team : Nat) : (s.runAccs team).start = s.start := by rw [runAccs_frame]
@[simp] theorem start_enterSaved (s : State) (m : Nat) : (s.enterSaved m).start = s.start := start_sheds (sheds_enterSaved ..)
@[simp] theorem start_completeMx (s : State) (mast : Nat) (o : MxOp) : (s.completeMx mast o).start = s.start := by rw [completeMx_frame]
@[simp] theorem start_completeAllMx (s : State) (mast : Nat) (x : List MxOp) : (s.completeAllMx mast x).start = s.start :=
  by rw [completeAllMx_frame]

/-! ### Queues, teams and launches -/

@[simp] theorem start_queueError (s : State) (q cause : Nat) (index : Word) (pkt : Option Nat) (unread : Bool) :
    (s.queueError q cause index pkt unread).start = s.start := by rw [queueError_frame]

@[simp] theorem start_reapQueue (s : State) (q : Nat) : (s.reapQueue q).start = s.start := by rw [reapQueue_frame]
@[simp] theorem start_dropPacket (s : State) (p : Packet) : (s.dropPacket p).start = s.start := by rw [dropPacket_frame]
@[simp] theorem start_completePacket (s : State) (p : Packet) : (s.completePacket p).start = s.start := by rw [completePacket_frame]
@[simp] theorem start_tidyFaults (s : State) (c : Nat) : (s.tidyFaults c).start = s.start := (resolveOnly_tidyFaults ..).start

@[simp] theorem start_noteFaults (s : State) (l : Launch) (was : Nat) (vas : List Nat) : (s.noteFaults l was vas).start = s.start := by
  unfold State.noteFaults
  dsimp only
  repeat' split
  all_goals simp

@[simp] theorem start_tidyHyps (s : State) (c : Nat) : (s.tidyHyps c).start = s.start := (resolveOnly_tidyHyps ..).start
@[simp] theorem start_dropPins (s : State) (c m : Nat) : (s.dropPins c m).start = s.start := start_sheds (sheds_dropPins ..)
@[simp] theorem start_freeRecord (s : State) (t : Team) : (s.freeRecord t).start = s.start := start_sheds (sheds_freeRecord ..)
@[simp] theorem start_removeTeam (s₀ : State) (t : Team) : (s₀.removeTeam t).start = s₀.start := start_sheds (sheds_removeTeam ..)

@[simp] theorem start_discardLaunch (s : State) (l : Launch) : (s.discardLaunch l).start = s.start := by
  rw [discardLaunch_frame]
  exact (congrArg State.start (sheds_dropTeamsOf s l).frame :)

@[simp] theorem start_endLaunch (s : State) (l : Launch) (cause : Nat) : (s.endLaunch l cause).start = s.start := by
  unfold State.endLaunch
  simp

@[simp] theorem start_launchFault (s : State) (l : Launch) (cause code : Nat) (frec : List Word) :
    (s.launchFault l cause code frec).start = s.start := by
  unfold State.launchFault
  simp

@[simp] theorem start_dies (s : State) (lid : Nat) (d : Dying) : (s.dies lid d).start = s.start := by
  unfold State.dies
  split <;> simp

@[simp] theorem start_endDying (s : State) : s.endDying.start = s.start :=
  start_foldl (fun a l => by split <;> simp) ..

@[simp] theorem start_endLaunches (cause : Nat) : ∀ (ls : List Launch) (s : State), (s.endLaunches cause ls).start = s.start
  | [], _ => rfl
  | l :: r, s => by rw [State.endLaunches, start_endLaunches cause r, start_endLaunch]

@[simp] theorem start_noteWork (s : State) : s.noteWork.start = s.start := rfl

/-! ### Hypotheses -/

@[simp] theorem start_onTeam (s : State) (id : Nat) (f : Team → Team) : (s.onTeam id f).start = s.start := by
  unfold State.onTeam
  split <;> simp

@[simp] theorem start_enterViews (s : State) (ctx : Nat) (old new : Team) : (s.enterViews ctx old new).start = s.start :=
  (memoryOnly_enterViews ..).start
@[simp] theorem start_sweepOrphans (s : State) (ctx : Nat) : (s.sweepOrphans ctx).start = s.start := (resolveOnly_sweepOrphans ..).start
@[simp] theorem start_applyResolve (s : State) (ctx : Nat) (r : ResolveOp) : (s.applyResolve ctx r).start = s.start :=
  (resolveOnly_applyResolve ..).start

@[simp] theorem start_startResolve (s : State) (ctx : Nat) (packet team : Option Nat) (r : ResolveOp) :
    (s.startResolve ctx packet team r).2.start = s.start := by
  unfold State.startResolve
  dsimp only
  split <;> simp

@[simp] theorem start_nextResolve (s : State) (ctx : Nat) : (s.nextResolve ctx).start = s.start := by
  unfold State.nextResolve
  split <;> simp

@[simp] theorem start_scrubRoot (s : State) (ctx : Nat) (v : Version) : (s.scrubRoot ctx v).start = s.start := by
  unfold State.scrubRoot
  simp

/-! ### Operations of a block at its commit -/

@[simp] theorem start_onThread (s : State) (w : Who) (f : Thread → Thread) : (s.onThread w f).start = s.start := by
  unfold State.onThread
  simp

@[simp] theorem start_keepLeaves (m : Nat) (c : Ctx) : ∀ (as : List Access) (s : State), (s.keepLeaves m c as).start = s.start
  | [], _ => rfl
  | a :: r, s => by rw [State.keepLeaves, start_keepLeaves m c r, start_tlbKeepLeaf, start_tlbKeepLeaf]

@[simp] theorem start_awaits (s : State) (w : Who) (r : Result) : (s.awaits w r).start = s.start := by
  unfold State.awaits
  simp

@[simp] theorem start_storeAs (s : State) (w : Who) (segs : List (Loc × Nat)) (bs : List (Byte × Bool)) : (s.storeAs w segs bs).start = s.start := by
  unfold State.storeAs
  simp

@[simp] theorem start_heldBy (s : State) (w : Who) (segs : List (Loc × Nat)) (bs : List (Byte × Bool)) : (s.heldBy w segs bs).start = s.start := by
  unfold State.heldBy
  simp

@[simp] theorem start_startCopy (s : State) (w : Who) (word tag : Nat) (kind : CopyKind) (segs scales : List (Loc × Nat)) :
    (s.startCopy w word tag kind segs scales).start = s.start := by
  unfold State.startCopy
  simp

@[simp] theorem start_atomAs (s : State) (w : Who) (l : Loc) (op ty scope : Nat) (ws : List Word) (dst : Option Reg) :
    (s.atomAs w l op ty scope ws dst).start = s.start := by
  unfold State.atomAs
  dsimp only
  split <;> simp

@[simp] theorem start_atombAs (s : State) (w : Who) (va : Nat) (l : Loc) (op ty scope value : Nat) :
    (s.atombAs w va l op ty scope value).start = s.start := by
  unfold State.atombAs
  split <;> simp

@[simp] theorem start_fenceAs (s : State) (w : Who) (scope kind : Nat) : (s.fenceAs w scope kind).start = s.start := by
  unfold State.fenceAs
  dsimp only
  repeat' split
  all_goals simp

@[simp] theorem start_ldacqAs (s : State) (w : Who) (segs : List (Loc × Nat)) (n scope : Nat) (dst : Reg) :
    (s.ldacqAs w segs n scope dst).start = s.start := by
  have hpurge : (segs.foldl (fun (a : State) x => if x.1.port.isNone && isHost x.1.pa then a.hostPurge x.1.pa else a) s).start = s.start :=
    start_foldl (fun a x => by split <;> simp) ..
  unfold State.ldacqAs
  dsimp only
  repeat' split
  all_goals simp only [start_acquire, start_awaits, start_heldBy, start_homeSegs, start_onMast, start_l1Segs, hpurge]

@[simp] theorem start_acqrAs (s : State) (w : Who) (q : Nat) : (s.acqrAs w q).2.start = s.start := by
  unfold State.acqrAs
  simp

@[simp] theorem start_enterMx (s : State) (w : Who) (word : Nat) (zero : Bool) (params : List Byte) (tile tag passes : Nat) :
    (s.enterMx w word zero params tile tag passes).start = s.start := by
  unfold State.enterMx
  simp

@[simp] theorem start_enterAcc (s : State) (w : Who) (word tile elem : Nat) (kind : AccKind) :
    (s.enterAcc w word tile elem kind).2.start = s.start := by
  unfold State.enterAcc
  simp

@[simp] theorem start_taskoutAs (s : State) (w : Who) (n off : Nat) : (s.taskoutAs w n off).start = s.start := by
  unfold State.taskoutAs
  dsimp only
  repeat' split
  all_goals simp

@[simp] theorem start_enterView (s : State) (w : Who) (old new : Nat) : (s.enterView w old new).start = s.start := by
  unfold State.enterView
  split <;> simp

@[simp] theorem start_hopenAs (s : State) (w : Who) (hs : List (Nat × HypEntry)) (dst : Reg) (pf : Nat) : (s.hopenAs w hs dst pf).start = s.start := by
  unfold State.hopenAs
  dsimp only
  repeat' split
  all_goals simp

@[simp] theorem start_settleFor (s s0 : State) (w : Who) (o : OpRec) : (s.settleFor s0 w o).start = s.start := by
  unfold State.settleFor
  dsimp only
  repeat' split
  all_goals simp

@[simp] theorem start_appendAs (s0 s : State) (w : Who) (list : Nat) (index value : Word) : (s0.appendAs s w list index value).1.start = s.start := by
  unfold State.appendAs
  split
  · dsimp only
    repeat' split
    all_goals simp
  · rfl

theorem start_resolveBy (a : CommitSt) (w : Who) (s : State) (r : ResolveOp) : (a.resolveBy w s r).s.start = s.start := start_startResolve ..

theorem start_commitOp (s0 : State) (w : Who) (o : OpRec) (a : CommitSt) : (commitOp s0 w o a).s.start = a.s.start := by
  have hs := start_settleFor a.s s0 w o
  unfold commitOp
  generalize a.s.settleFor s0 w o = s at hs
  dsimp only
  split
  all_goals (repeat' split)
  all_goals simp [CommitSt.st, CommitSt.raise, CommitSt.count, start_resolveBy, hs]

theorem start_commitOps (s0 : State) (w : Who) : ∀ (os : List OpRec) (a : CommitSt), (commitOps s0 w os a).s.start = a.s.start
  | [], _ => rfl
  | o :: r, a => (start_commitOps s0 w r _).trans (start_commitOp s0 w o a)

theorem start_commitLate (s0 : State) (w : Who) (o : OpRec) (a : CommitSt) : (commitLate s0 w o a).s.start = a.s.start := by
  have hs := start_settleFor a.s s0 w o
  unfold commitLate
  generalize a.s.settleFor s0 w o = s at hs
  dsimp only
  split
  all_goals (repeat' split)
  all_goals simp [CommitSt.st, CommitSt.raise, hs]

theorem start_commitLates (s0 : State) (w : Who) : ∀ (os : List OpRec) (a : CommitSt), (commitLates s0 w os a).s.start = a.s.start
  | [], _ => rfl
  | o :: r, a => (start_commitLates s0 w r _).trans (start_commitLate s0 w o a)

@[simp] theorem start_commitThread (s : State) (w : Who) (ln : Lane) : (s.commitThread w ln).s.start = s.start := by
  unfold State.commitThread
  dsimp only
  rw [start_commitLates, start_commitOps, start_onThread]

@[simp] theorem start_deliverPixel (s : State) (team tid : Nat) : (s.deliverPixel team tid).start = s.start := by
  unfold State.deliverPixel
  dsimp only
  repeat' split
  all_goals simp

@[simp] theorem start_leavePack (s : State) (w : Who) (ln : Lane) (next : Nat) (waits : List Wait) : (s.leavePack w ln next waits).start = s.start := by
  unfold State.leavePack
  dsimp only
  repeat' split
  all_goals simp

/-! ### Packs at the end of their block -/

@[simp] theorem start_tileRequest (s : State) (t : Team) : (s.tileRequest t).start = s.start := by
  unfold State.tileRequest
  dsimp only
  repeat' split
  all_goals simp

@[simp] theorem start_laneRequests : ∀ (l : List (Nat × Nat)) (team : Nat) (s : State) (ln : Lane), (laneRequests l team s ln).1.start = s.start
  | [], _, _, _ => rfl
  | (word, i) :: r, team, s, ln => by
    rw [laneRequests]
    split
    · rfl
    · split
      · exact start_laneRequests r team s ln
      · split
        · rfl
        · exact (start_laneRequests r team _ ln).trans (start_tileRequest ..)

@[simp] theorem start_packRequests (team block : Nat) : ∀ (l : List (Nat × Lane)) (s : State), (packRequests team block l s).1.start = s.start
  | [], _ => rfl
  | (k, ln) :: r, s => by
    rw [packRequests]
    exact (start_packRequests team block r _).trans (start_laneRequests ..)

theorem start_programTrap (a : Resolved) (w : Who) (l : Launch) (pipe code num : Nat) (va : Option Nat) (word : Nat) :
    (a.programTrap w l pipe code num va word).s.start = a.s.start := by
  unfold Resolved.programTrap
  dsimp only
  split <;> simp

@[simp] theorem start_orphanThread (s : State) (c : Ctx) (w : Who) : (s.orphanThread c w).start = s.start := by
  unfold State.orphanThread
  dsimp only
  repeat' split
  all_goals simp

@[simp] theorem start_orderTileOps (s : State) (team mast block since : Nat) : (s.orderTileOps team mast block since).start = s.start := by
  unfold State.orderTileOps
  dsimp only
  repeat' split
  all_goals simp

@[simp] theorem start_orderSmma (s : State) (mast block pack : Nat) : (s.orderSmma mast block pack).start = s.start := by
  unfold State.orderSmma
  dsimp only
  split <;> simp

theorem start_lane (a : Resolved) (p : Pack) (w : Who) (l : Launch) (ln : Lane) : (a.lane p w l ln).s.start = a.s.start := by
  unfold Resolved.lane
  dsimp only
  repeat' split
  all_goals simp [start_programTrap, Resolved.park]

theorem start_lanes (p : Pack) (who : Lane → Who) (l : Launch) : ∀ (ls : List (Nat × Lane)) (a : Resolved), (a.lanes p who l ls).s.start = a.s.start
  | [], _ => rfl
  | (_, ln) :: r, a => (start_lanes p who l r _).trans (start_lane a p (who ln) l ln)

theorem start_resolveLanes (s : State) (t : Team) (p : Pack) : (s.resolveLanes t p).s.start = s.start := by
  unfold State.resolveLanes
  dsimp only
  rw [start_lanes, start_packRequests]

theorem start_resolvePack (s : State) (t : Team) (p : Pack) (r : Resolved) : (s.resolvePack t p r).start = r.s.start := by
  unfold State.resolvePack
  simp

@[simp] theorem start_flushExcess (s : State) (m : Nat) : (s.flushExcess m).start = s.start := by
  unfold State.flushExcess
  simp

/-- A resolve starts from the marked state, and a pack that is held leaves the state before the mark. -/
@[simp] theorem start_tryResolve {s marked : State} (h : marked.start = s.start) (t : Team) (p : Pack) :
    (s.tryResolve marked t p).1.start = s.start := by
  have hpack := (start_resolvePack marked t p (marked.resolveLanes t p)).trans ((start_resolveLanes ..).trans h)
  unfold State.tryResolve
  dsimp only
  repeat' split
  all_goals simp [hpack]

/-! ### The block sequencer -/

@[simp] theorem start_illegalPack (s : State) (t : Team) (k : Pick) (pipe place cause : Nat) : (s.illegalPack t k pipe place cause).start = s.start := by
  have hfold {f : Resolved → Nat → Resolved} (h : ∀ a i, (f a i).s.start = a.s.start) (l : List Nat) (a : Resolved) :
      (l.foldl f a).s.start = a.s.start := by
    induction l generalizing a with
    | nil => rfl
    | cons i r ih => exact (ih _).trans (h a i)
  unfold State.illegalPack
  dsimp only
  rw [start_tidyHyps]
  refine hfold (fun a i => ?_) ..
  split
  · exact start_orphanThread ..
  · exact start_programTrap ..

@[simp] theorem start_formPack (s : State) (t : Team) (pipe : Nat) (claim : Bool) (k : Pick) : (s.formPack t pipe claim k).start = s.start := by
  unfold State.formPack
  dsimp only
  split <;> simp

@[simp] theorem start_onSeq (s : State) (mast : Nat) (f : MastSeq → MastSeq) : (s.onSeq mast f).start = s.start := rfl
@[simp] theorem start_markMast (s : State) (mast : Nat) : (s.markMast mast).start = s.start := rfl
@[simp] theorem start_look (s : State) (before : Nat) : (s.look before).start = s.start := rfl

@[simp] theorem start_markBlock (s : State) (team block : Nat) (f : Team → Bin → Bin) : (s.markBlock team block f).start = s.start := by
  unfold State.markBlock
  simp

@[simp] theorem start_parkBin (s : State) (t : Team) (b : Bin) (cause va : Nat) : (s.parkBin t b cause va).start = s.start := by
  unfold State.parkBin
  simp

@[simp] theorem start_poisonBin (s : State) (t : Team) (b : Bin) (va : Nat) : (s.poisonBin t b va).start = s.start := by
  unfold State.poisonBin
  dsimp only
  split <;> simp

@[simp] theorem start_fetchLine (s : State) (t : Team) (c : Ctx) (va : Nat) (segs : List (Loc × Nat)) : (s.fetchLine t c va segs).start = s.start := by
  unfold State.fetchLine
  simp

@[simp] theorem start_firstIssue (s : State) (lid : Nat) : (s.firstIssue lid).start = s.start := by
  unfold State.firstIssue
  split
  · split <;> rfl
  · rfl

@[simp] theorem start_payIssue (s : State) (p : Pack) (t : Team) : (s.payIssue p t).start = s.start := rfl

/-! ### The agenda of steps -/

@[simp] theorem start_illegal (s : State) (p : Pack) (cause : Nat) : (s.illegal p cause).start = s.start := rfl

@[simp] theorem start_nextDue (s : State) : s.nextDue.2.2.start = s.start := by
  have htake : s.takeDue.2.start = s.start := by
    unfold State.takeDue
    split <;> rfl
  unfold State.nextDue
  split
  · rfl
  · dsimp only
    split
    · exact htake
    · exact htake

@[simp] theorem start_endCycle (s : State) (before : Nat) : (s.endCycle before).start = s.start := by
  unfold State.endCycle
  split <;> simp

@[simp] theorem start_elapse (s : State) (n : Nat) : (s.elapse n).start = s.start := by
  unfold State.elapse
  simp

end Sys2Proof.Machine
end

section
/-! START_STATUS (R86) stays as it is: registers, packets, admission and the ends of teams and launches. -/

namespace Sys2Proof.Machine
open Sys2Proof.Claims

/-! ### Registers and the BEAD engine -/

@[simp] theorem start_setHand (s : State) (q : Nat) (h : Handover) : (s.setHand q h).start = s.start := rfl
@[simp] theorem start_putTlbi (s : State) (v : Word) : (s.putTlbi v).start = s.start := rfl
@[simp] theorem start_putBeadCtl (s : State) (v : Word) : (s.putBeadCtl v).start = s.start := rfl
@[simp] theorem start_putHandCtl (s : State) (q : Nat) (v : Word) : (s.putHandCtl q v).start = s.start := rfl
@[simp] theorem start_writeKick (s : State) (q o : Nat) (v : Word) : (s.writeKick q o v).start = s.start := by rw [writeKick_frame]
@[simp] theorem start_clearLfault (s : State) (c : Nat) (v : Word) : (s.clearLfault c v).start = s.start := by rw [clearLfault_frame]

@[simp] theorem start_flushCtx (s : State) (c : Nat) : (s.flushCtx c).start = s.start := by
  unfold State.flushCtx
  simp

@[simp] theorem start_beadResult (s : State) (r : Nat) : (s.beadResult r).start = s.start := rfl
@[simp] theorem start_beadStart (s : State) (j : BeadJob) : (s.beadStart j).start = s.start := rfl
@[simp] theorem start_setSlot (s : State) (i : Nat) (b : BeadSlot) : (s.setSlot i b).start = s.start := rfl

@[simp] theorem start_freeze (s : State) (i : Nat) (lens : List Nat) (adopt : Bool) : (s.freeze i lens adopt).start = s.start := by
  unfold State.freeze
  split <;> simp

@[simp] theorem start_putStored (s : State) (blk nsec : Nat) (bs : List Byte) : (s.putStored blk nsec bs).start = s.start := by
  unfold State.putStored
  simp

@[simp] theorem start_encodeAt (s : State) (blk : Nat) (bs : List (Byte × Bool)) : (s.encodeAt blk bs).start = s.start := by
  unfold State.encodeAt
  split <;> simp

@[simp] theorem start_recodeBlock (s : State) (slot blk : Nat) : (s.recodeBlock slot blk).start = s.start := by
  unfold State.recodeBlock
  dsimp only
  split <;> simp

@[simp] theorem start_encodeDirty (s : State) (blk : Nat) : (s.encodeDirty blk).start = s.start := by
  unfold State.encodeDirty
  dsimp only
  repeat' split
  all_goals simp

@[simp] theorem start_l2Evict (s : State) (pa : Nat) : (s.l2Evict pa).start = s.start := by
  unfold State.l2Evict
  split <;> simp

/-! ### Commands -/

@[simp] theorem start_result (s : State) (r : Nat) : (s.result r).start = s.start := rfl
@[simp] theorem start_stopQueues (s : State) (c : Nat) : (s.stopQueues c).start = s.start := rfl

@[simp] theorem start_discardLaunches : ∀ (ls : List Launch) (s : State), (s.discardLaunches ls).start = s.start
  | [], _ => rfl
  | l :: r, s => by rw [State.discardLaunches, start_discardLaunches r, start_discardLaunch]

@[simp] theorem start_scrubMerged (s : State) (c : Ctx) : (s.scrubMerged c).start = s.start := by
  unfold State.scrubMerged
  simp

@[simp] theorem start_applyPending (s : State) (c : Nat) : (s.applyPending c).start = s.start := by
  unfold State.applyPending
  simp

@[simp] theorem start_rereadPacket (s : State) (q : Queue) (p : Packet) : (s.rereadPacket q p).start = s.start := by
  have hread := start_readRoot s (s.ctxD q.ctx) p.addr 64
  unfold State.rereadPacket
  split <;> next e => simpa [e] using hread

/-! ### Encode engines -/

@[simp] theorem start_failStarted (s : State) (p : Packet) (cause : Nat) : (s.failStarted p cause).start = s.start := by rw [failStarted_frame]

@[simp] theorem start_endWithTail (s : State) (ctx : Nat) (p : Packet) : (s.endWithTail ctx p).start = s.start := by
  unfold State.endWithTail
  split
  · next h => rw [start_completePacket, (memoryOnly_tailSignal h).start]
  · exact start_failStarted ..

@[simp] theorem start_setStream (s : State) (x : Stream) : (s.setStream x).start = s.start := rfl

@[simp] theorem start_offerTiles (s : State) (x : Stream) (h : Nat) (tiles : List Nat) : (s.offerTiles x h tiles).start = s.start := by
  unfold State.offerTiles
  dsimp only
  repeat' split
  all_goals simp

@[simp] theorem start_settleTiles (s : State) (ctx : Nat) : (s.settleTiles ctx).start = s.start := by rw [settleTiles_frame]

@[simp] theorem start_writeFrame (s : State) (x : Stream) (p : Packet) : (s.writeFrame x p).1.start = s.start := by
  unfold State.writeFrame
  dsimp only
  split
  · rfl
  · next h1 =>
    have hfirst := (memoryOnly_writeRoot h1).start
    split
    · exact hfirst
    · next h2 => exact (memoryOnly_writeRoot h2).start.trans hfirst

/-! ### Draws -/

@[simp] theorem start_mergeTarget (s : State) (c h : Nat) (b : List Byte) (p : PixelOut) (t : Nat) : (s.mergeTarget c h b p t).start = s.start := by
  unfold State.mergeTarget
  dsimp only
  repeat' split
  all_goals simp

@[simp] theorem start_mergePixel (s : State) (l : Launch) (d : DrawData) (p : PixelOut) : (s.mergePixel l d p).start = s.start := by
  unfold State.mergePixel
  dsimp only
  repeat' split
  all_goals simp

@[simp] theorem start_mergeNext (s : State) (l : Launch) (d : DrawData) : (s.mergeNext l d).start = s.start := by
  unfold State.mergeNext
  dsimp only
  repeat' split
  all_goals simp

@[simp] theorem start_streamTiles (s : State) (l : Launch) (d : DrawData) : (s.streamTiles l d).start = s.start := by
  unfold State.streamTiles
  split <;> simp

@[simp] theorem start_closeTiles (s : State) (l : Launch) (d : DrawData) : (s.closeTiles l d).start = s.start := by
  unfold State.closeTiles
  split
  · split
    · exact start_offerTiles ..
    · rfl
  · rfl

@[simp] theorem start_streamOf (s : State) (lid : Nat) : (s.streamOf lid).start = s.start := by
  unfold State.streamOf
  split
  · rfl
  · split
    · exact start_streamTiles ..
    · rfl

/-! ### Admission -/

@[simp] theorem start_placeTeam (s : State) (l : Launch) (mast num count : Nat) (stage : Stage) (shape : Shape) (entry : Nat) (ths : List Thread) (f : Team → Team) :
    (s.placeTeam l mast num count stage shape entry ths f).start = s.start := by
  unfold State.placeTeam
  simp

@[simp] theorem start_placeCompute (s : State) (l : Launch) (num mast : Nat) : (s.placeCompute l num mast).start = s.start := by
  unfold State.placeCompute
  simp

@[simp] theorem start_placeTask (s : State) (l : Launch) (d : DrawData) (num mast : Nat) : (s.placeTask l d num mast).start = s.start := by
  unfold State.placeTask
  simp

@[simp] theorem start_placeMesh (s : State) (l : Launch) (d : DrawData) (r : MeshReq) (mast : Nat) : (s.placeMesh l d r mast).start = s.start := by
  unfold State.placeMesh
  simp

@[simp] theorem start_placePixel (s : State) (l : Launch) (d : DrawData) (quads : List Quad) (mast : Nat) :
    (s.placePixel l d quads mast).start = s.start := by
  unfold State.placePixel
  simp

@[simp] theorem start_restoreTeam (s : State) (t : Team) (mast : Nat) : (s.restoreTeam t mast).start = s.start := by
  unfold State.restoreTeam
  simp

@[simp] theorem start_admitMeshOf (lid : Nat) : ∀ (rs : List MeshReq) (s : State), (s.admitMeshOf lid rs).start = s.start
  | [], _ => rfl
  | r :: rest, s => by
    rw [State.admitMeshOf]
    split
    · rfl
    · split
      · rfl
      · split
        · simp [start_admitMeshOf lid rest]
        · exact start_admitMeshOf lid rest s

@[simp] theorem start_admitMeshes : ∀ (ls : List Launch) (s : State), (s.admitMeshes ls).start = s.start
  | [], _ => rfl
  | l :: r, s => by rw [State.admitMeshes, start_admitMeshes r, start_admitMeshOf]

theorem start_admitDispatch {s t : State} {l : Launch} {bl : Blocked} (h : s.admitDispatch l bl = some t) : t.start = s.start := by
  unfold State.admitDispatch at h
  obtain ⟨-, h⟩ := Option.ite_none_left_eq_some.mp h
  rw [← Option.some.inj h]
  exact start_foldl (fun a t => start_placeCompute ..) ..

@[simp] theorem start_admitGroups (lid : Nat) (bl : Blocked) : ∀ (n : Nat) (s : State), (s.admitGroups lid bl n).start = s.start
  | 0, _ => rfl
  | n + 1, s => by
    rw [State.admitGroups]
    split
    · rfl
    · split
      · rfl
      · split
        · rfl
        · dsimp only
          split
          · rfl
          · rw [start_admitGroups lid bl n]
            split <;> simp

@[simp] theorem start_admitPixels (lid : Nat) (bl : Blocked) : ∀ (n : Nat) (s : State), (s.admitPixels lid bl n).start = s.start
  | 0, _ => rfl
  | n + 1, s => by
    rw [State.admitPixels]
    split
    · rfl
    · split
      · rfl
      · split
        · rfl
        · split
          · rfl
          · simp [start_admitPixels lid bl n]

@[simp] theorem start_admitSaved (bl : Blocked) : ∀ (ts : List Team) (s : State), (s.admitSaved bl ts).start = s.start
  | [], _ => rfl
  | t :: r, s => by
    rw [State.admitSaved]
    split
    · exact start_admitSaved bl r s
    · rw [start_admitSaved bl r, start_restoreTeam]

@[simp] theorem start_admitOne (s : State) (l : Launch) (bl : Blocked) : (s.admitOne l bl).start = s.start := by
  unfold State.admitOne
  dsimp only
  split
  · simp
  · split
    · simp
    · generalize hs1 : s.admitSaved bl (s.teams.filter fun t => t.launch == l.id && t.wantsRoom) = s1
      have hstart : s1.start = s.start := by rw [← hs1, start_admitSaved]
      cases h : s1.admitDispatch l bl with
      | none => exact hstart
      | some t => exact (start_admitDispatch h).trans hstart

@[simp] theorem start_admitAll : ∀ (ls : List Launch) (s : State), (s.admitAll ls).start = s.start
  | [], _ => rfl
  | l :: r, s => by rw [State.admitAll, start_admitAll r, start_admitOne]

@[simp] theorem start_admitBefore (s : State) (l : Launch) : (s.admitBefore l).start = s.start := by
  unfold State.admitBefore
  simp

/-! ### Packets -/

@[simp] theorem start_begun (s : State) (p : Packet) : (s.begun p).start = s.start := rfl
@[simp] theorem start_startDispatch (s : State) (c : Ctx) (q : Queue) (p : Packet) : (s.startDispatch c q p).start = s.start := rfl
@[simp] theorem start_startDraw (s : State) (c : Ctx) (q : Queue) (p : Packet) : (s.startDraw c q p).start = s.start := rfl

@[simp] theorem start_writePlan (s : State) (ctx : Nat) (p : Nat → Bool) (x : Nat) (y : List (Option (Loc × Byte))) :
    (s.writePlan ctx p x y).start = s.start := (memoryOnly_writePlan ..).start

@[simp] theorem start_startSignal (s : State) (q : Queue) (p : Packet) : (s.startSignal q p).start = s.start := by
  unfold State.startSignal
  split
  · next h => rw [start_completePacket, (memoryOnly_signalAt h).start]
  · exact start_failStarted ..

@[simp] theorem start_waitValue (s : State) (c : Ctx) (p : Packet) : (s.waitValue c p).1.start = s.start := (memoryOnly_waitValue ..).start

@[simp] theorem start_startHypres (s : State) (q : Queue) (p : Packet) : (s.startHypres q p).start = s.start := by
  unfold State.startHypres
  dsimp only
  split <;> simp

@[simp] theorem start_startEncode (s : State) (c : Ctx) (p : Packet) : (s.startEncode c p).start = s.start := rfl
@[simp] theorem start_startHandover (s : State) (p : Packet) : (s.startHandover p).start = s.start := rfl
@[simp] theorem start_handPages (s : State) (c : Ctx) (toDev : Bool) (x : Nat) (y : Nat) : (s.handPages c toDev x y).1.start = s.start :=
  by rw [handPages_frame]

@[simp] theorem start_handGo (s : State) (q : Nat) (v : Word) : (s.handGo q v).start = s.start := by
  unfold State.handGo
  dsimp only
  repeat' split
  all_goals simp

@[simp] theorem start_carryOut (s : State) (c : Ctx) (q : Queue) (p : Packet) : (s.carryOut c q p).start = s.start := by
  unfold State.carryOut
  split <;> simp

@[simp] theorem start_tryPacket (s : State) (p : Packet) : (s.tryPacket p).start = s.start := by
  unfold State.tryPacket
  dsimp only
  repeat' split
  all_goals simp

@[simp] theorem start_packetStep (s : State) (p : Nat) (mine : Packet → Bool) : (s.packetStep p mine).start = s.start := by
  unfold State.packetStep
  split
  · split <;> simp
  · rfl

@[simp] theorem start_releaseNext (s : State) (ctx : Nat) (p : Packet) : (s.releaseNext ctx p).start = s.start := by
  unfold State.releaseNext
  split
  · rfl
  · next k r _ =>
    have hread := start_readRoot s (s.ctxD ctx) (p.succ k) 64
    split <;> next e => simpa [e] using hread

@[simp] theorem start_readPacket (s : State) (q : Queue) : (s.readPacket q).start = s.start := by
  have hread := start_readRoot s (s.ctxD q.ctx) (q.ring + 64 * (q.c.toNat % 2 ^ q.size)) 64
  unfold State.readPacket
  dsimp only
  split
  · next e => simpa [e] using hread
  · next e =>
    rw [e] at hread
    split
    · simpa using hread
    · next h => simpa using (memoryOnly_writeRoot h).start.trans hread

@[simp] theorem start_mapQueues : ∀ (qs : List Queue) (s : State), (s.mapQueues qs).start = s.start
  | [], _ => rfl
  | q :: r, s => by
    rw [State.mapQueues]
    split
    · rfl
    · rw [start_mapQueues r, start_setQueue]

/-! ### Ends of teams and launches -/

@[simp] theorem start_runFlush (s : State) (team : Nat) (order : List Nat) : (s.runFlush team order).start = s.start := by
  unfold State.runFlush
  split <;> simp

@[simp] theorem start_endResolve (s : State) (id ctx : Nat) (packet : Option Nat) : (s.endResolve id ctx packet).start = s.start := by
  unfold State.endResolve
  dsimp only
  split <;> simp

@[simp] theorem start_finishResolves (ctx team : Nat) : ∀ (n : Nat) (s : State), (s.finishResolves ctx team n).start = s.start
  | 0, _ => rfl
  | n + 1, s => by
    rw [State.finishResolves]
    split
    · split
      · rw [start_finishResolves ctx team n, start_endResolve]
      · rfl
    · rfl

@[simp] theorem start_deliverAll (s : State) (t : Team) : (s.deliverAll t).start = s.start := by
  unfold State.deliverAll
  simp

@[simp] theorem start_retireDet (s : State) (team : Nat) : (s.retireDet team).start = s.start := by
  unfold State.retireDet
  dsimp only
  repeat' split
  all_goals simp

@[simp] theorem start_handOverTeam (s : State) (t : Team) : (s.handOverTeam t).start = s.start := by rw [handOverTeam_frame]
@[simp] theorem start_endTeamOps (s : State) (team : Nat) : (s.endTeamOps team).start = s.start := rfl

@[simp] theorem start_retireDrain (s : State) (t : Team) : (s.retireDrain t).start = s.start := by
  unfold State.retireDrain
  dsimp only
  repeat' split
  all_goals simp

@[simp] theorem start_retire (s : State) (t : Team) : (s.retire t).start = s.start := by
  rw [retire_eq]
  generalize hd : (s.deliverAll t).retireDrain t = a
  have ha : a.start = s.start := by rw [← hd]; simp
  rw [← ha]
  cases hu : a.team? t.id with
  | none => rw [leave_none hu]
  | some u =>
    obtain ⟨ls, fr, cs, e⟩ := leave_some hu
    rw [e]
    simp

@[simp] theorem start_missDeadline (s : State) (l : Launch) : (s.missDeadline l).start = s.start := by rw [missDeadline_frame]

@[simp] theorem start_finish (s : State) (l : Launch) (p : Packet) : (s.finish l p).start = s.start := by
  unfold State.finish
  dsimp only
  cases l.draw with
  | none | some _ =>
    dsimp only
    split
    · simp
    · next h => simp [(memoryOnly_tailSignal h).start]

/-! ### Patterns -/

@[simp] theorem start_pattern (s : State) (m : Nat) (c : Ctx) (hyp : Nat) (va : Nat) : (s.pattern m c hyp va).1.start = s.start := by
  unfold State.pattern
  split <;> simp

@[simp] theorem start_settlePattern (s : State) (p : Pack) (c : Ctx) (tids : List Nat) (va : Nat) : (s.settlePattern p c tids va).start = s.start := by
  unfold State.settlePattern
  split <;> simp

/-! ### Saves -/

@[simp] theorem start_discardPack (s : State) (p : Pack) : (s.discardPack p).start = s.start := by
  unfold State.discardPack
  simp

@[simp] theorem start_settlePacks (resolve : List Nat) : ∀ (ps : List Pack) (s : State), (s.settlePacks resolve ps).start = s.start
  | [], _ => rfl
  | p :: r, s => by
    rw [State.settlePacks]
    split
    · rfl
    · next t _ =>
      rw [start_settlePacks resolve r]
      split
      · rcases h : s.tryResolve _ t p with ⟨a, done⟩
        have ha : a.start = s.start := (congrArg (·.1.start) h).symm.trans (start_tryResolve (start_onSeq ..) t p)
        dsimp only
        split
        · exact ha
        · exact (start_discardPack ..).trans ha
      · exact start_discardPack ..

@[simp] theorem start_drainSmma (s : State) (mast team : Nat) : (s.drainSmma mast team).start = s.start := by
  unfold State.drainSmma
  simp

@[simp] theorem start_finishOp (s : State) (id : Nat) : (s.finishOp id).start = s.start := by
  unfold State.finishOp
  split <;> simp

@[simp] theorem start_completeBefore (s : State) (t : Team) : (s.completeBefore t).start = s.start := by
  unfold State.completeBefore
  simp

@[simp] theorem start_drainForSave (s : State) (t : Team) : (s.drainForSave t).start = s.start := by
  unfold State.drainForSave
  dsimp only
  repeat' split
  all_goals simp

@[simp] theorem start_saveTeam (s : State) (t : Team) : (s.saveTeam t).start = s.start := by
  have hdrain := start_drainForSave s t
  unfold State.saveTeam
  generalize s.drainForSave t = a at hdrain
  dsimp only
  split
  · exact hdrain
  · split
    · simpa using hdrain
    · simpa using hdrain

/-! ### The host window, peers and errors -/

@[simp] theorem start_windowWrite (ok : Nat → Bool) : ∀ (bs : List Byte) (s : State) (pa : Nat), (s.windowWrite ok pa bs).start = s.start
  | [], _, _ => rfl
  | b :: r, s, pa => by
    rw [State.windowWrite, start_windowWrite ok r]
    split <;> simp

@[simp] theorem start_hostStore : ∀ (bs : List Byte) (s : State) (pa : Nat), (s.hostStore pa bs).start = s.start
  | [], _, _ => rfl
  | b :: r, s, pa => by
    rw [State.hostStore, start_hostStore r]
    split <;> rfl

@[simp] theorem start_setLink (s : State) (port : Nat) (up : Bool) : (s.setLink port up).start = s.start := rfl

@[simp] theorem start_peerAtomic (s : State) (op ty addr : Nat) (data : List Byte) : (s.peerAtomic op ty addr data).start = s.start := by
  unfold State.peerAtomic
  dsimp only
  repeat' split
  all_goals simp

@[simp] theorem start_poisonReg (s : State) (team tid reg : Nat) : (s.poisonReg team tid reg).start = s.start := by
  unfold State.poisonReg
  split <;> simp

@[simp] theorem start_poisonSector (s : State) (pa : Nat) : (s.poisonSector pa).start = s.start := by
  unfold State.poisonSector
  simp only

@[simp] theorem start_poisonHostSector (s : State) (pa : Nat) : (s.poisonHostSector pa).start = s.start := by
  unfold State.poisonHostSector
  split <;> simp

@[simp] theorem start_poisonVersion (s : State) (c : Ctx) (v : Version) (sector : Nat) : (s.poisonVersion c v sector).start = s.start := by
  unfold State.poisonVersion
  split <;> simp

@[simp] theorem start_softError (s : State) (k : Storage) : (s.softError k).start = s.start := by
  unfold State.softError
  dsimp only
  repeat' split
  all_goals simp

end Sys2Proof.Machine
end

section
/-! O60: the arms of a step, and the statement. -/

namespace Sys2Proof.Machine
open Sys2Proof.Claims

/-! ### Outcomes that keep the start registers -/

/-- A next state has the start registers of s. -/
structure KeepsStart (s : State) (o : Host.Outcome State Fault Refusal) : Prop where
  kept : ∀ t, o = .next t → t.start = s.start

@[simp] theorem keepsStart_next {s t : State} : KeepsStart s (.next t) ↔ t.start = s.start :=
  ⟨fun h => h.kept t rfl, fun h => ⟨fun u hu => by cases hu; exact h⟩⟩
@[simp] theorem keepsStart_fault (s : State) (f : Fault) : KeepsStart s (.fault f) := ⟨fun _ h => nomatch h⟩
@[simp] theorem keepsStart_refused (s : State) (r : Refusal) : KeepsStart s (.refused r) := ⟨fun _ h => nomatch h⟩

theorem keepsStart_onIssue {s : State} {stop : Bool} {f : State → Team → Pack → State × Pack} (h : ∀ t p, (f s t p).1.start = s.start) :
    KeepsStart s (onIssue s stop f) := by
  unfold onIssue
  split
  · simp
  · split
    · simp
    · simpa using h ..

section
variable (h : Hdr) (d a b : Reg) (s : State)

theorem keepsStart_lanewise (src dst : Names) (f : Env → Lane → Lane) : KeepsStart s (lanewise h src dst f s) :=
  keepsStart_onIssue fun _ _ => rfl
theorem keepsStart_singleIssue (src : Names) (f : Env → Lane → Lane) : KeepsStart s (singleIssue h src f s) :=
  keepsStart_onIssue fun _ _ => rfl
theorem keepsStart_unary (f : Word → Word) : KeepsStart s (unary h d a f s) := keepsStart_lanewise ..
theorem keepsStart_binary (f : Word → Word → Word) : KeepsStart s (binary h d a b f s) := keepsStart_lanewise ..
theorem keepsStart_binaryAlt (f g : Word → Word → Word) : KeepsStart s (binaryAlt h d a b f g s) := keepsStart_lanewise ..
theorem keepsStart_ternary (f : Word → Word → Word → Word) : KeepsStart s (ternary h d a b f s) := keepsStart_lanewise ..
theorem keepsStart_fpUnary (f : Nat → Nat × Flags) : KeepsStart s (fpUnary h d a f s) := keepsStart_lanewise ..
theorem keepsStart_fpBinary (f : Mode → Nat → Nat → Nat × Flags) : KeepsStart s (fpBinary h d a b f s) := keepsStart_lanewise ..
theorem keepsStart_fpTernary (f : Mode → Nat → Nat → Nat → Nat × Flags) : KeepsStart s (fpTernary h d a b f s) := keepsStart_lanewise ..
theorem keepsStart_stageExport (st : Stage) (src : Names) (f : Env → Lane → Lane) : KeepsStart s (stageExport h st src f s) :=
  keepsStart_lanewise ..
theorem keepsStart_branch (p : BitVec 3) (off : BitVec 19) (n : Bool) : KeepsStart s (branch p off n s) := keepsStart_lanewise ..

end

/-- A command that keeps the start registers once its block has been read keeps them. -/
@[simp] theorem start_command {s : State} {lo : Word} {mine : Nat → Bool} {f : CmdBlock → State} (h : ∀ b, (f b).start = s.start) :
    (s.command lo mine f).start = s.start := by
  unfold State.command
  repeat' split
  all_goals simp [h]

@[simp] theorem start_beadGo {s : State} {v : Word} {op : Nat} {f : State → State} (h : ∀ a, (f a).start = a.start) :
    (s.beadGo v op f).start = s.start := by
  unfold State.beadGo
  split
  · dsimp only
    split <;> simp [h]
  · rfl

/-! ### Device steps -/

theorem keepsStart_packetStep (s : State) (p : Nat) (mine : Packet → Bool) : KeepsStart s (.next (s.packetStep p mine)) :=
  keepsStart_next.mpr (start_packetStep ..)

theorem keepsStart_execContextCreate (lo : Word) (s : State) : KeepsStart s (execContextCreate lo s) := by
  unfold execContextCreate
  refine keepsStart_next.mpr (start_command fun b => ?_)
  dsimp only
  repeat' split
  all_goals simp

theorem keepsStart_execContextDestroy (lo : Word) (s : State) : KeepsStart s (execContextDestroy lo s) := by
  unfold execContextDestroy
  refine keepsStart_next.mpr (start_command fun b => ?_)
  dsimp only
  repeat' split
  all_goals simp

theorem keepsStart_execContextDestroyComplete (s : State) : KeepsStart s (execContextDestroyComplete s) := by
  unfold execContextDestroyComplete
  split <;> simp

theorem keepsStart_execQueueCreate (lo : Word) (s : State) : KeepsStart s (execQueueCreate lo s) := by
  unfold execQueueCreate
  refine keepsStart_next.mpr (start_command fun b => ?_)
  dsimp only
  repeat' split
  all_goals simp

theorem keepsStart_execQueueDestroy (lo : Word) (s : State) : KeepsStart s (execQueueDestroy lo s) := by
  unfold execQueueDestroy
  refine keepsStart_next.mpr (start_command fun b => ?_)
  dsimp only
  repeat' split
  all_goals simp

theorem keepsStart_execQueueResume (lo : Word) (s : State) : KeepsStart s (execQueueResume lo s) := by
  unfold execQueueResume
  refine keepsStart_next.mpr (start_command fun b => ?_)
  dsimp only
  repeat' split
  all_goals simp

theorem keepsStart_execSetFloors (lo : Word) (s : State) : KeepsStart s (execSetFloors lo s) := by
  unfold execSetFloors
  refine keepsStart_next.mpr (start_command fun b => ?_)
  dsimp only
  repeat' split
  all_goals simp

theorem keepsStart_execAttest (lo : Word) (s : State) : KeepsStart s (execAttest lo s) := by
  unfold execAttest
  refine keepsStart_next.mpr (start_command fun b => ?_)
  dsimp only
  repeat' split
  all_goals simp

theorem keepsStart_execSetSaveArea (lo : Word) (s : State) : KeepsStart s (execSetSaveArea lo s) := by
  unfold execSetSaveArea
  refine keepsStart_next.mpr (start_command fun b => ?_)
  dsimp only
  repeat' split
  all_goals simp

theorem keepsStart_execWake (q : Nat) (v : Word) (s : State) : KeepsStart s (execWake q v s) := by
  unfold execWake
  dsimp only
  repeat' split
  all_goals simp

theorem keepsStart_execHoGoToHost (q : Nat) (v : Word) (s : State) : KeepsStart s (execHoGoToHost q v s) := by
  unfold execHoGoToHost
  split <;> simp

theorem keepsStart_execHoGoToDevice (q : Nat) (v : Word) (s : State) : KeepsStart s (execHoGoToDevice q v s) := by
  unfold execHoGoToDevice
  split <;> simp

theorem keepsStart_execHandoverComplete (id : Nat) (s : State) : KeepsStart s (execHandoverComplete id s) := by
  unfold execHandoverComplete
  dsimp only
  repeat' split
  all_goals simp

theorem keepsStart_execTlbiGo (v : Word) (s : State) : KeepsStart s (execTlbiGo v s) := by
  unfold execTlbiGo
  dsimp only
  repeat' split
  all_goals simp

theorem keepsStart_execTlbiAll (v : Word) (s : State) : KeepsStart s (execTlbiAll v s) := by
  unfold execTlbiAll
  dsimp only
  repeat' split
  all_goals simp

theorem keepsStart_execTlbiComplete (s : State) : KeepsStart s (execTlbiComplete s) := by
  unfold execTlbiComplete
  repeat' split
  all_goals simp

theorem keepsStart_execLearn (v : Word) (s : State) : KeepsStart s (execLearn v s) := by
  refine keepsStart_next.mpr (start_beadGo fun a => ?_)
  dsimp only
  split
  · exact start_beadResult ..
  · split
    · exact start_beadResult ..
    · exact (start_beadStart ..).trans (start_setSlot ..)

theorem keepsStart_execLearnComplete (s : State) : KeepsStart s (execLearnComplete s) := by
  unfold execLearnComplete
  split
  · exact keepsStart_next.mpr (start_freeze ..)
  · exact keepsStart_next.mpr rfl

theorem keepsStart_execLoad (v : Word) (s : State) : KeepsStart s (execLoad v s) := by
  refine keepsStart_next.mpr (start_beadGo fun a => ?_)
  dsimp only
  repeat' split
  all_goals simp

theorem keepsStart_execLoadComplete (s : State) : KeepsStart s (execLoadComplete s) := by
  unfold execLoadComplete
  dsimp only
  repeat' split
  all_goals simp

theorem keepsStart_execRecode (v : Word) (s : State) : KeepsStart s (execRecode v s) := by
  refine keepsStart_next.mpr (start_beadGo fun a => ?_)
  split <;> simp

theorem keepsStart_execRecodeComplete (s : State) : KeepsStart s (execRecodeComplete s) := by
  unfold execRecodeComplete
  split <;> simp

theorem keepsStart_execRetry (ctx : Nat) (v : Word) (s : State) : KeepsStart s (execRetry ctx v s) := by
  unfold execRetry
  dsimp only
  repeat' split
  all_goals simp

theorem keepsStart_execAbort (ctx : Nat) (v : Word) (s : State) : KeepsStart s (execAbort ctx v s) := by
  unfold execAbort
  split <;> simp

theorem keepsStart_execPacketCoreScan (q : Nat) (s : State) : KeepsStart s (execPacketCoreScan q s) := by
  unfold execPacketCoreScan
  repeat' split
  all_goals simp

theorem keepsStart_execMappingRound (unmap : List Nat) (s : State) : KeepsStart s (execMappingRound unmap s) := by
  unfold execMappingRound
  split <;> simp

theorem keepsStart_execCopyEngineDone (p done : Nat) (s : State) : KeepsStart s (execCopyEngineDone p done s) := by
  unfold execCopyEngineDone
  dsimp only
  repeat' split
  all_goals simp

theorem keepsStart_execWaitPoll (p : Nat) (s : State) : KeepsStart s (execWaitPoll p s) := by
  unfold execWaitPoll
  split
  · simp
  · next x _ =>
    split
    · simp
    · have hwait := start_waitValue s (s.ctxD (s.queueD x.queue).ctx) x
      split
      · next e => simpa [e] using hwait
      · next e =>
        rw [e] at hwait
        rw [keepsStart_next]
        split
        · exact (start_completePacket ..).trans hwait
        · exact hwait

theorem keepsStart_execWaitTimeout (p : Nat) (s : State) : KeepsStart s (execWaitTimeout p s) := by
  unfold execWaitTimeout
  dsimp only
  repeat' split
  all_goals simp

theorem keepsStart_execPacketComplete (p : Nat) (s : State) : KeepsStart s (execPacketComplete p s) := by
  unfold execPacketComplete
  repeat' split
  all_goals simp

theorem keepsStart_execAdmissionStep (s : State) : KeepsStart s (execAdmissionStep s) := by
  unfold execAdmissionStep
  simp

theorem keepsStart_execRasterPixelTeam (launch : Nat) (s : State) : KeepsStart s (execRasterPixelTeam launch s) := by
  unfold execRasterPixelTeam
  repeat' split
  all_goals simp

theorem keepsStart_execRasterQuadTimeout (launch : Nat) (s : State) : KeepsStart s (execRasterQuadTimeout launch s) := by
  unfold execRasterQuadTimeout
  repeat' split
  all_goals simp

theorem keepsStart_execOutputMerge (launch : Nat) (s : State) : KeepsStart s (execOutputMerge launch s) := by
  unfold execOutputMerge
  repeat' split
  all_goals simp

theorem keepsStart_execEncodeFrameEnd (engine stream : Nat) (s : State) : KeepsStart s (execEncodeFrameEnd engine stream s) := by
  unfold execEncodeFrameEnd
  split
  · simp
  · next x _ =>
    split
    · simp
    · next p _ =>
      have hframe := start_writeFrame s x p
      split
      · simp
      · split <;> next e => simpa [e] using hframe

theorem keepsStart_execPackForm (mast pipe : Nat) (s : State) : KeepsStart s (execPackForm mast pipe s) := by
  unfold execPackForm
  dsimp only
  repeat' split
  all_goals simp

theorem keepsStart_execBinGatherExpiry (team block : Nat) (s : State) : KeepsStart s (execBinGatherExpiry team block s) := by
  unfold execBinGatherExpiry
  simp

theorem keepsStart_execBinAgeExpiry (team block : Nat) (s : State) : KeepsStart s (execBinAgeExpiry team block s) := by
  unfold execBinAgeExpiry
  simp

theorem keepsStart_execRallyTimeout (team block warp : Nat) (s : State) : KeepsStart s (execRallyTimeout team block warp s) := by
  unfold execRallyTimeout
  simp

theorem keepsStart_execIcacheFill (team block : Nat) (s : State) : KeepsStart s (execIcacheFill team block s) := by
  unfold execIcacheFill
  dsimp only
  repeat' split
  all_goals simp

theorem keepsStart_execPipeIssue (mast pipe : Nat) (s : State) : KeepsStart s (execPipeIssue mast pipe s) := by
  unfold execPipeIssue
  dsimp only
  repeat' split
  all_goals simp

theorem keepsStart_execBlockResolve (pack : Nat) (s : State) : KeepsStart s (execBlockResolve pack s) := by
  unfold execBlockResolve
  split
  · simp
  · split
    · simp
    · split
      · simp
      · exact keepsStart_next.mpr (start_tryResolve (start_onSeq ..) ..)

theorem keepsStart_execResultLand (team tid k : Nat) (s : State) : KeepsStart s (execResultLand team tid k s) := by
  unfold execResultLand
  simp

theorem keepsStart_execPauseExpiry (team tid : Nat) (s : State) : KeepsStart s (execPauseExpiry team tid s) := by
  unfold execPauseExpiry
  simp

theorem keepsStart_execCopyComplete (id : Nat) (s : State) : KeepsStart s (execCopyComplete id s) := by
  unfold execCopyComplete
  split <;> simp

theorem keepsStart_execMxPassStart (mast : Nat) (s : State) : KeepsStart s (execMxPassStart mast s) := by
  unfold execMxPassStart
  dsimp only
  repeat' split
  all_goals simp

theorem keepsStart_execMxOpComplete (mast id : Nat) (s : State) : KeepsStart s (execMxOpComplete mast id s) := by
  unfold execMxOpComplete
  dsimp only
  repeat' split
  all_goals simp

theorem keepsStart_execSmmaArrayGrant (mast : Nat) (s : State) : KeepsStart s (execSmmaArrayGrant mast s) := by
  unfold execSmmaArrayGrant
  dsimp only
  repeat' split
  all_goals simp

theorem keepsStart_execSamplerFillLand (mast k : Nat) (s : State) : KeepsStart s (execSamplerFillLand mast k s) := by
  unfold execSamplerFillLand
  simp

theorem keepsStart_execHinvComplete (id : Nat) (s : State) : KeepsStart s (execHinvComplete id s) := by
  unfold execHinvComplete
  split <;> simp

theorem keepsStart_execAtombFlushComplete (id : Nat) (order : List Nat) (s : State) : KeepsStart s (execAtombFlushComplete id order s) := by
  unfold execAtombFlushComplete
  split <;> simp

theorem keepsStart_execEpochClose (team : Nat) (s : State) : KeepsStart s (execEpochClose team s) := by
  unfold execEpochClose
  repeat' split
  all_goals simp

theorem keepsStart_execAcqrComplete (id : Nat) (s : State) : KeepsStart s (execAcqrComplete id s) := by
  unfold execAcqrComplete
  split <;> simp

theorem keepsStart_execResolveComplete (id : Nat) (s : State) : KeepsStart s (execResolveComplete id s) := by
  unfold execResolveComplete
  split <;> simp

theorem keepsStart_execScrubberStart (ctx hyp : Nat) (s : State) : KeepsStart s (execScrubberStart ctx hyp s) := by
  unfold execScrubberStart
  dsimp only
  repeat' split
  all_goals simp

theorem keepsStart_execScrubBlock (ctx k : Nat) (s : State) : KeepsStart s (execScrubBlock ctx k s) := by
  unfold execScrubBlock
  dsimp only
  repeat' split
  all_goals simp

theorem keepsStart_execL2Replace (pa : Nat) (s : State) : KeepsStart s (execL2Replace pa s) := by
  unfold execL2Replace
  split <;> simp

theorem keepsStart_execHostWindowAccess (write : Bool) (addr len : Nat) (data : List Byte) (s : State) : KeepsStart s (execHostWindowAccess write addr len data s) := by
  unfold execHostWindowAccess
  repeat' split
  all_goals simp

theorem keepsStart_execPeerAccess (op : PeerOp) (port addr len : Nat) (data : List Byte) (s : State) : KeepsStart s (execPeerAccess op port addr len data s) := by
  unfold execPeerAccess
  repeat' split
  all_goals simp

theorem keepsStart_execPeerTimeout (port : Nat) (s : State) : KeepsStart s (execPeerTimeout port s) := by
  unfold execPeerTimeout
  split <;> simp

theorem keepsStart_execTeamRetire (team : Nat) (s : State) : KeepsStart s (execTeamRetire team s) := by
  unfold execTeamRetire
  repeat' split
  all_goals simp

theorem keepsStart_execLaunchFinish (launch : Nat) (s : State) : KeepsStart s (execLaunchFinish launch s) := by
  unfold execLaunchFinish
  repeat' split
  all_goals simp

theorem keepsStart_execWatchdogExpiry (launch : Nat) (s : State) : KeepsStart s (execWatchdogExpiry launch s) := by
  unfold execWatchdogExpiry
  dsimp only
  repeat' split
  all_goals simp

theorem keepsStart_execPowerSample (m : Nat) (watts : List (Nat × Nat)) (s : State) : KeepsStart s (execPowerSample m watts s) :=
  keepsStart_next.mpr rfl

theorem keepsStart_execPreemptRequest (team : Nat) (resolve : List Nat) (s : State) : KeepsStart s (execPreemptRequest team resolve s) := by
  unfold execPreemptRequest
  repeat' split
  all_goals simp

theorem keepsStart_execTeamSave (team : Nat) (s : State) : KeepsStart s (execTeamSave team s) := by
  unfold execTeamSave
  repeat' split
  all_goals simp

theorem keepsStart_execTeamSwap (team : Nat) (s : State) : KeepsStart s (execTeamSwap team s) := by
  unfold execTeamSwap
  repeat' split
  all_goals simp

theorem keepsStart_execTeamRestore (team : Nat) (s : State) : KeepsStart s (execTeamRestore team s) := by
  unfold execTeamRestore
  dsimp only
  repeat' split
  all_goals simp

theorem keepsStart_execEccCorrected (s : State) : KeepsStart s (execEccCorrected s) := by
  unfold execEccCorrected
  simp

theorem keepsStart_execEccUncorrectable (at_ : Storage) (s : State) : KeepsStart s (execEccUncorrectable at_ s) := by
  unfold execEccUncorrectable
  simp

theorem keepsStart_execModw (rm : BitVec 2) (alt : Bool) (fill nf : BitVec 2) (s : State) : KeepsStart s (execModw rm alt fill nf s) := by
  unfold execModw
  repeat' split
  all_goals simp

theorem keepsStart_execRed (h : Hdr) (op : BitVec 3) (ty : BitVec 2) (d a : Reg) (pe : BitVec 2) (s : State) : KeepsStart s (execRed h op ty d a pe s) := by
  unfold execRed
  exact keepsStart_onIssue fun _ _ => rfl

theorem keepsStart_execPatld (h : Hdr) (d a b : Reg) (s : State) : KeepsStart s (execPatld h d a b s) := by
  refine keepsStart_onIssue fun t p => ?_
  dsimp only
  split
  · rfl
  · dsimp only
    split
    · exact (start_pattern ..).trans (start_settlePattern ..)
    · rfl

theorem keepsStart_execCvt (h : Hdr) (src : BitVec 3) (d a : Reg) (dst : BitVec 5) (mode : BitVec 2) (s : State) :
    KeepsStart s (execCvt h src d a dst mode s) := by
  unfold execCvt
  exact keepsStart_lanewise ..

theorem keepsStart_execLdacq (h : Hdr) (d a : Reg) (sc : BitVec 2) (b64 : Bool) (s : State) : KeepsStart s (execLdacq h d a sc b64 s) := by
  unfold execLdacq
  exact keepsStart_lanewise ..

theorem keepsStart_execStrel (h : Hdr) (d a : Reg) (sc : BitVec 2) (b64 : Bool) (s : State) : KeepsStart s (execStrel h d a sc b64 s) := by
  unfold execStrel
  exact keepsStart_lanewise ..

theorem keepsStart_execSmma (h : Hdr) (d a f : Reg) (s : State) : KeepsStart s (execSmma h d a f s) := by
  unfold execSmma
  exact keepsStart_onIssue fun _ _ => rfl

theorem keepsStart_execCmdLo (lo : Word) (s : State) : KeepsStart s (execCmdLo lo s) :=
  keepsStart_next.mpr (start_command fun _ => start_result ..)

theorem keepsStart_execBeadGoOpNone (v : Word) (s : State) : KeepsStart s (execBeadGoOpNone v s) :=
  keepsStart_next.mpr (start_beadGo fun _ => start_beadResult ..)

/-- Whether an instruction is one of those that write the start registers (R86 to R90). -/
def movesStart : Instr → Bool
  | .moduleReset | .selfTestDone | .imageLen _ | .verifyDone | .startGo _ | .registerWrite .. => true
  | _ => false

theorem keepsStart_exec (i : Instr) (s : State) (hkeep : movesStart i = false) : KeepsStart s (exec i s) := by
  cases i with
  | moduleReset | selfTestDone | imageLen | verifyDone | startGo | registerWrite => cases hkeep
  | contextCreate lo => exact keepsStart_execContextCreate ..
  | contextDestroy lo => exact keepsStart_execContextDestroy ..
  | contextDestroyComplete => exact keepsStart_execContextDestroyComplete ..
  | queueCreate lo => exact keepsStart_execQueueCreate ..
  | queueDestroy lo => exact keepsStart_execQueueDestroy ..
  | queueResume lo => exact keepsStart_execQueueResume ..
  | setFloors lo => exact keepsStart_execSetFloors ..
  | attest lo => exact keepsStart_execAttest ..
  | setSaveArea lo => exact keepsStart_execSetSaveArea ..
  | wake q v => exact keepsStart_execWake ..
  | hoGoToHost q v => exact keepsStart_execHoGoToHost ..
  | hoGoToDevice q v => exact keepsStart_execHoGoToDevice ..
  | handoverComplete id => exact keepsStart_execHandoverComplete ..
  | tlbiGo v => exact keepsStart_execTlbiGo ..
  | tlbiAll v => exact keepsStart_execTlbiAll ..
  | tlbiComplete => exact keepsStart_execTlbiComplete ..
  | learn v => exact keepsStart_execLearn ..
  | learnComplete => exact keepsStart_execLearnComplete ..
  | load v => exact keepsStart_execLoad ..
  | loadComplete => exact keepsStart_execLoadComplete ..
  | recode v => exact keepsStart_execRecode ..
  | recodeComplete => exact keepsStart_execRecodeComplete ..
  | retry ctx v => exact keepsStart_execRetry ..
  | abort ctx v => exact keepsStart_execAbort ..
  | packetCoreScan q => exact keepsStart_execPacketCoreScan ..
  | mappingRound unmap => exact keepsStart_execMappingRound ..
  | nopPacket p => exact (keepsStart_packetStep .. : KeepsStart s (execNopPacket p s))
  | dispatch p => exact (keepsStart_packetStep .. : KeepsStart s (execDispatch p s))
  | draw p => exact (keepsStart_packetStep .. : KeepsStart s (execDraw p s))
  | copyLinear p => exact (keepsStart_packetStep .. : KeepsStart s (execCopyLinear p s))
  | copyFill p => exact (keepsStart_packetStep .. : KeepsStart s (execCopyFill p s))
  | copyTwoD p => exact (keepsStart_packetStep .. : KeepsStart s (execCopyTwoD p s))
  | copyEngineDone p done => exact keepsStart_execCopyEngineDone ..
  | signalPacketWrite p => exact (keepsStart_packetStep .. : KeepsStart s (execSignalPacketWrite p s))
  | signalPacketAdd p => exact (keepsStart_packetStep .. : KeepsStart s (execSignalPacketAdd p s))
  | wait p => exact (keepsStart_packetStep .. : KeepsStart s (execWait p s))
  | waitPoll p => exact keepsStart_execWaitPoll ..
  | waitTimeout p => exact keepsStart_execWaitTimeout ..
  | handoverToHost p => exact (keepsStart_packetStep .. : KeepsStart s (execHandoverToHost p s))
  | handoverToDevice p => exact (keepsStart_packetStep .. : KeepsStart s (execHandoverToDevice p s))
  | encode p => exact (keepsStart_packetStep .. : KeepsStart s (execEncode p s))
  | hypresConfirm p => exact (keepsStart_packetStep .. : KeepsStart s (execHypresConfirm p s))
  | hypresRefute p => exact (keepsStart_packetStep .. : KeepsStart s (execHypresRefute p s))
  | packetComplete p => exact keepsStart_execPacketComplete ..
  | admissionStep => exact keepsStart_execAdmissionStep ..
  | rasterPixelTeam launch => exact keepsStart_execRasterPixelTeam ..
  | rasterQuadTimeout launch => exact keepsStart_execRasterQuadTimeout ..
  | outputMerge launch => exact keepsStart_execOutputMerge ..
  | encodeFrameEnd engine stream => exact keepsStart_execEncodeFrameEnd ..
  | packForm team pipe => exact keepsStart_execPackForm ..
  | binGatherExpiry team block => exact keepsStart_execBinGatherExpiry ..
  | binAgeExpiry team block => exact keepsStart_execBinAgeExpiry ..
  | rallyTimeout team block warp => exact keepsStart_execRallyTimeout ..
  | icacheFill team block => exact keepsStart_execIcacheFill ..
  | pipeIssue pack losses => exact keepsStart_execPipeIssue ..
  | blockResolve pack => exact keepsStart_execBlockResolve ..
  | resultLand team tid k => exact keepsStart_execResultLand ..
  | pauseExpiry team tid => exact keepsStart_execPauseExpiry ..
  | copyComplete id => exact keepsStart_execCopyComplete ..
  | mxPassStart mast => exact keepsStart_execMxPassStart ..
  | mxOpComplete mast id => exact keepsStart_execMxOpComplete ..
  | smmaArrayGrant mast => exact keepsStart_execSmmaArrayGrant ..
  | samplerFillLand mast k => exact keepsStart_execSamplerFillLand ..
  | hinvComplete id => exact keepsStart_execHinvComplete ..
  | atombFlushComplete id order => exact keepsStart_execAtombFlushComplete ..
  | epochClose team => exact keepsStart_execEpochClose ..
  | acqrComplete id => exact keepsStart_execAcqrComplete ..
  | resolveComplete id => exact keepsStart_execResolveComplete ..
  | scrubberStart ctx hyp => exact keepsStart_execScrubberStart ..
  | scrubBlock ctx k => exact keepsStart_execScrubBlock ..
  | l2Replace pa => exact keepsStart_execL2Replace ..
  | hostWindowAccess write addr len data => exact keepsStart_execHostWindowAccess ..
  | peerAccess op port addr len data => exact keepsStart_execPeerAccess ..
  | peerTimeout port => exact keepsStart_execPeerTimeout ..
  | teamRetire team => exact keepsStart_execTeamRetire ..
  | launchFinish launch => exact keepsStart_execLaunchFinish ..
  | watchdogExpiry launch => exact keepsStart_execWatchdogExpiry ..
  | powerSample module watts => exact keepsStart_execPowerSample ..
  | preemptRequest team resolve => exact keepsStart_execPreemptRequest ..
  | teamSave team => exact keepsStart_execTeamSave ..
  | teamSwap team => exact keepsStart_execTeamSwap ..
  | teamRestore team => exact keepsStart_execTeamRestore ..
  | eccCorrected => exact keepsStart_execEccCorrected ..
  | eccUncorrectable at_ => exact keepsStart_execEccUncorrectable ..
  | nop h => exact (keepsStart_lanewise .. : KeepsStart s (execNop h s))
  | trap h n => exact (keepsStart_lanewise .. : KeepsStart s (execTrap h n s))
  | bkpt h n => exact (keepsStart_lanewise .. : KeepsStart s (execBkpt h n s))
  | ctxr h d n => exact (keepsStart_lanewise .. : KeepsStart s (execCtxr h d n s))
  | ctxw h n a => exact (keepsStart_lanewise .. : KeepsStart s (execCtxw h n a s))
  | clkCyc h d => exact (keepsStart_lanewise .. : KeepsStart s (execClkCyc h d s))
  | clkNs h d => exact (keepsStart_lanewise .. : KeepsStart s (execClkNs h d s))
  | signal h a b => exact (keepsStart_lanewise .. : KeepsStart s (execSignal h a b s))
  | modw rm alt fill nf => exact keepsStart_execModw ..
  | bra p off => exact (keepsStart_branch .. : KeepsStart s (execBra p off s))
  | braNot p off => exact (keepsStart_branch .. : KeepsStart s (execBraNot p off s))
  | jmp off => exact (keepsStart_lanewise .. : KeepsStart s (execJmp off s))
  | call d a => exact (keepsStart_lanewise .. : KeepsStart s (execCall d a s))
  | jmpi a => exact (keepsStart_lanewise .. : KeepsStart s (execJmpi a s))
  | ret a => exact (keepsStart_lanewise .. : KeepsStart s (execRet a s))
  | exit => exact (keepsStart_lanewise .. : KeepsStart s (execExit s))
  | rally h m t => exact (keepsStart_lanewise .. : KeepsStart s (execRally h m t s))
  | mjoin h m => exact (keepsStart_lanewise .. : KeepsStart s (execMjoin h m s))
  | mclr h m => exact (keepsStart_lanewise .. : KeepsStart s (execMclr h m s))
  | mset h m a => exact (keepsStart_lanewise .. : KeepsStart s (execMset h m a s))
  | mget h d m => exact (keepsStart_lanewise .. : KeepsStart s (execMget h d m s))
  | bar g n a pl => exact (keepsStart_lanewise .. : KeepsStart s (execBar g n a pl s))
  | bararr h n a => exact (keepsStart_lanewise .. : KeepsStart s (execBararr h n a s))
  | barwt g n => exact (keepsStart_lanewise .. : KeepsStart s (execBarwt g n s))
  | vote h kind d p => exact (keepsStart_lanewise .. : KeepsStart s (execVote h kind d p s))
  | red h op ty d a pe => exact keepsStart_execRed ..
  | scan h op ty excl d a => exact (keepsStart_lanewise .. : KeepsStart s (execScan h op ty excl d a s))
  | xlane h kind d a n => exact (keepsStart_lanewise .. : KeepsStart s (execXlane h kind d a n s))
  | perm h d a b => exact (keepsStart_lanewise .. : KeepsStart s (execPerm h d a b s))
  | bcast h d a n => exact (keepsStart_lanewise .. : KeepsStart s (execBcast h d a n s))
  | patld h d a b => exact keepsStart_execPatld ..
  | tilef h d px => exact (keepsStart_lanewise .. : KeepsStart s (execTilef h d px s))
  | win h n => exact (keepsStart_lanewise .. : KeepsStart s (execWin h n s))
  | pause g n => exact (keepsStart_lanewise .. : KeepsStart s (execPause g n s))
  | shape h d a => exact (keepsStart_lanewise .. : KeepsStart s (execShape h d a s))
  | rngLo h d a b => exact (keepsStart_lanewise .. : KeepsStart s (execRngLo h d a b s))
  | rngsLo h d => exact (keepsStart_lanewise .. : KeepsStart s (execRngsLo h d s))
  | rngsHi h d => exact (keepsStart_lanewise .. : KeepsStart s (execRngsHi h d s))
  | rngHi h d a b => exact (keepsStart_lanewise .. : KeepsStart s (execRngHi h d a b s))
  | add h d a b => exact (keepsStart_binary .. : KeepsStart s (execAdd h d a b s))
  | sub h d a b => exact (keepsStart_binary .. : KeepsStart s (execSub h d a b s))
  | mulLo h d a b => exact (keepsStart_binary .. : KeepsStart s (execMulLo h d a b s))
  | mulHi h d a b => exact (keepsStart_binaryAlt .. : KeepsStart s (execMulHi h d a b s))
  | min h d a b => exact (keepsStart_binaryAlt .. : KeepsStart s (execMin h d a b s))
  | max h d a b => exact (keepsStart_binaryAlt .. : KeepsStart s (execMax h d a b s))
  | absd h d a b => exact (keepsStart_binaryAlt .. : KeepsStart s (execAbsd h d a b s))
  | neg h d a => exact (keepsStart_unary .. : KeepsStart s (execNeg h d a s))
  | and h d a b => exact (keepsStart_binary .. : KeepsStart s (execAnd h d a b s))
  | or h d a b => exact (keepsStart_binary .. : KeepsStart s (execOr h d a b s))
  | xor h d a b => exact (keepsStart_binary .. : KeepsStart s (execXor h d a b s))
  | andn h d a b => exact (keepsStart_binary .. : KeepsStart s (execAndn h d a b s))
  | shl h d a b => exact (keepsStart_binary .. : KeepsStart s (execShl h d a b s))
  | shr h d a b => exact (keepsStart_binary .. : KeepsStart s (execShr h d a b s))
  | shra h d a b => exact (keepsStart_binary .. : KeepsStart s (execShra h d a b s))
  | rot h d a b => exact (keepsStart_binary .. : KeepsStart s (execRot h d a b s))
  | bfe h d a b => exact (keepsStart_binaryAlt .. : KeepsStart s (execBfe h d a b s))
  | bfi h d a b => exact (keepsStart_ternary .. : KeepsStart s (execBfi h d a b s))
  | popc h d a => exact (keepsStart_unary .. : KeepsStart s (execPopc h d a s))
  | clz h d a => exact (keepsStart_unary .. : KeepsStart s (execClz h d a s))
  | brev h d a => exact (keepsStart_unary .. : KeepsStart s (execBrev h d a s))
  | div h d a b => exact (keepsStart_binaryAlt .. : KeepsStart s (execDiv h d a b s))
  | rem h d a b => exact (keepsStart_binaryAlt .. : KeepsStart s (execRem h d a b s))
  | mad h d a b => exact (keepsStart_ternary .. : KeepsStart s (execMad h d a b s))
  | madh h d a b => exact (keepsStart_lanewise .. : KeepsStart s (execMadh h d a b s))
  | add64 h d a b => exact (keepsStart_lanewise .. : KeepsStart s (execAdd64 h d a b s))
  | sub64 h d a b => exact (keepsStart_lanewise .. : KeepsStart s (execSub64 h d a b s))
  | addc h d a b => exact (keepsStart_lanewise .. : KeepsStart s (execAddc h d a b s))
  | subb h d a b => exact (keepsStart_lanewise .. : KeepsStart s (execSubb h d a b s))
  | icmp h cmp pd pc orr a b => exact (keepsStart_lanewise .. : KeepsStart s (execIcmp h cmp pd pc orr a b s))
  | addi h d a imm => exact (keepsStart_unary .. : KeepsStart s (execAddi h d a imm s))
  | andi h d a imm => exact (keepsStart_unary .. : KeepsStart s (execAndi h d a imm s))
  | ori h d a imm => exact (keepsStart_unary .. : KeepsStart s (execOri h d a imm s))
  | xori h d a imm => exact (keepsStart_unary .. : KeepsStart s (execXori h d a imm s))
  | shli h d a imm => exact (keepsStart_unary .. : KeepsStart s (execShli h d a imm s))
  | shri h d a imm => exact (keepsStart_unary .. : KeepsStart s (execShri h d a imm s))
  | shrai h d a imm => exact (keepsStart_unary .. : KeepsStart s (execShrai h d a imm s))
  | roti h d a imm => exact (keepsStart_unary .. : KeepsStart s (execRoti h d a imm s))
  | movlLo stop d imm => exact (keepsStart_lanewise .. : KeepsStart s (execMovlLo stop d imm s))
  | movlHi stop d imm => exact (keepsStart_lanewise .. : KeepsStart s (execMovlHi stop d imm s))
  | pand h pd pa pb => exact (keepsStart_lanewise .. : KeepsStart s (execPand h pd pa pb s))
  | por h pd pa pb => exact (keepsStart_lanewise .. : KeepsStart s (execPor h pd pa pb s))
  | pxor h pd pa pb => exact (keepsStart_lanewise .. : KeepsStart s (execPxor h pd pa pb s))
  | pnot h pd pa => exact (keepsStart_lanewise .. : KeepsStart s (execPnot h pd pa s))
  | sel h d a b => exact (keepsStart_lanewise .. : KeepsStart s (execSel h d a b s))
  | movp h d pa => exact (keepsStart_lanewise .. : KeepsStart s (execMovp h d pa s))
  | pset h pd a => exact (keepsStart_lanewise .. : KeepsStart s (execPset h pd a s))
  | fadd h d a b => exact (keepsStart_fpBinary .. : KeepsStart s (execFadd h d a b s))
  | fsub h d a b => exact (keepsStart_fpBinary .. : KeepsStart s (execFsub h d a b s))
  | fmul h d a b => exact (keepsStart_fpBinary .. : KeepsStart s (execFmul h d a b s))
  | fmin h d a b => exact (keepsStart_fpBinary .. : KeepsStart s (execFmin h d a b s))
  | fmax h d a b => exact (keepsStart_fpBinary .. : KeepsStart s (execFmax h d a b s))
  | fcmp h cmp pd a b => exact (keepsStart_lanewise .. : KeepsStart s (execFcmp h cmp pd a b s))
  | ffma h d a b => exact (keepsStart_fpTernary .. : KeepsStart s (execFfma h d a b s))
  | ffms h d a b => exact (keepsStart_fpTernary .. : KeepsStart s (execFfms h d a b s))
  | fnma h d a b => exact (keepsStart_fpTernary .. : KeepsStart s (execFnma h d a b s))
  | pkfma h d a b => exact (keepsStart_lanewise .. : KeepsStart s (execPkfma h d a b s))
  | frcp h d a => exact (keepsStart_fpUnary .. : KeepsStart s (execFrcp h d a s))
  | frsq h d a => exact (keepsStart_fpUnary .. : KeepsStart s (execFrsq h d a s))
  | fsqrt h d a => exact (keepsStart_fpUnary .. : KeepsStart s (execFsqrt h d a s))
  | fexp2 h d a => exact (keepsStart_fpUnary .. : KeepsStart s (execFexp2 h d a s))
  | flog2 h d a => exact (keepsStart_fpUnary .. : KeepsStart s (execFlog2 h d a s))
  | fsin h d a => exact (keepsStart_fpUnary .. : KeepsStart s (execFsin h d a s))
  | fcos h d a => exact (keepsStart_fpUnary .. : KeepsStart s (execFcos h d a s))
  | frnd h d a mode => exact (keepsStart_fpUnary .. : KeepsStart s (execFrnd h d a mode s))
  | cvt h src d a dst mode => exact keepsStart_execCvt ..
  | pkadd h d a b => exact (keepsStart_fpBinary .. : KeepsStart s (execPkadd h d a b s))
  | pkmul h d a b => exact (keepsStart_fpBinary .. : KeepsStart s (execPkmul h d a b s))
  | spk h d a => exact (keepsStart_lanewise .. : KeepsStart s (execSpk h d a s))
  | cvtbd h d a b => exact (keepsStart_lanewise .. : KeepsStart s (execCvtbd h d a b s))
  | ld h w d a off => exact (keepsStart_lanewise .. : KeepsStart s (execLd h w d a off s))
  | st h w d a off => exact (keepsStart_lanewise .. : KeepsStart s (execSt h w d a off s))
  | ldd h w d a off => exact (keepsStart_lanewise .. : KeepsStart s (execLdd h w d a off s))
  | std h w d a off => exact (keepsStart_lanewise .. : KeepsStart s (execStd h w d a off s))
  | cpAsync h d a tag keep => exact (keepsStart_lanewise .. : KeepsStart s (execCpAsync h d a tag keep s))
  | cpPlane h d a tag keep => exact (keepsStart_lanewise .. : KeepsStart s (execCpPlane h d a tag keep s))
  | cpOut h d a tag => exact (keepsStart_lanewise .. : KeepsStart s (execCpOut h d a tag s))
  | tagwait g k n => exact (keepsStart_lanewise .. : KeepsStart s (execTagwait g k n s))
  | tagget h d k => exact (keepsStart_lanewise .. : KeepsStart s (execTagget h d k s))
  | pref h a off => exact (keepsStart_lanewise .. : KeepsStart s (execPref h a off s))
  | accrd h d a t fmt => exact (keepsStart_lanewise .. : KeepsStart s (execAccrd h d a t fmt s))
  | accwr h d a t fmt => exact (keepsStart_lanewise .. : KeepsStart s (execAccwr h d a t fmt s))
  | atom h op d a ty sc ret => exact (keepsStart_lanewise .. : KeepsStart s (execAtom h op d a ty sc ret s))
  | atomb h op d a ty sc => exact (keepsStart_lanewise .. : KeepsStart s (execAtomb h op d a ty sc s))
  | fence h sc kind => exact (keepsStart_lanewise .. : KeepsStart s (execFence h sc kind s))
  | ldacq h d a sc b64 => exact keepsStart_execLdacq ..
  | strel h d a sc b64 => exact keepsStart_execStrel ..
  | acqr h a => exact (keepsStart_lanewise .. : KeepsStart s (execAcqr h a s))
  | aflush h => exact (keepsStart_lanewise .. : KeepsStart s (execAflush h s))
  | sample h d a slot => exact (keepsStart_lanewise .. : KeepsStart s (execSample h d a slot s))
  | sampleg h d a slot => exact (keepsStart_lanewise .. : KeepsStart s (execSampleg h d a slot s))
  | sload h d a slot => exact (keepsStart_lanewise .. : KeepsStart s (execSload h d a slot s))
  | hinv h slot => exact (keepsStart_lanewise .. : KeepsStart s (execHinv h slot s))
  | wpin h slot => exact (keepsStart_lanewise .. : KeepsStart s (execWpin h slot s))
  | wunpin h slot => exact (keepsStart_lanewise .. : KeepsStart s (execWunpin h slot s))
  | smma h d a f => exact keepsStart_execSmma ..
  | mxIssue h a => exact (keepsStart_singleIssue .. : KeepsStart s (execMxIssue h a s))
  | mxZero h t k => exact (keepsStart_singleIssue .. : KeepsStart s (execMxZero h t k s))
  | hopen h d pf => exact (keepsStart_lanewise .. : KeepsStart s (execHopen h d pf s))
  | hset h a => exact (keepsStart_lanewise .. : KeepsStart s (execHset h a s))
  | hget h d => exact (keepsStart_lanewise .. : KeepsStart s (execHget h d s))
  | hconfirm h a => exact (keepsStart_lanewise .. : KeepsStart s (execHconfirm h a s))
  | hrefute h a => exact (keepsStart_lanewise .. : KeepsStart s (execHrefute h a s))
  | hstate h d a => exact (keepsStart_lanewise .. : KeepsStart s (execHstate h d a s))
  | horphan h a => exact (keepsStart_lanewise .. : KeepsStart s (execHorphan h a s))
  | taskout h a c => exact (keepsStart_stageExport .. : KeepsStart s (execTaskout h a c s))
  | vtxout h a slot => exact (keepsStart_stageExport .. : KeepsStart s (execVtxout h a slot s))
  | primout h a => exact (keepsStart_stageExport .. : KeepsStart s (execPrimout h a s))
  | pixout h a t => exact (keepsStart_stageExport .. : KeepsStart s (execPixout h a t s))
  | kill h => exact (keepsStart_stageExport .. : KeepsStart s (execKill h s))
  | cmdLo lo => exact keepsStart_execCmdLo ..
  | beadGoOpNone v => exact keepsStart_execBeadGoOpNone ..

end Sys2Proof.Machine

namespace Sys2Proof.Claims
open Sys2Proof Sys2Proof.Machine

/-- What keeps the start registers makes no move. -/
theorem startMove_of_eq {s t : State} (h : t.start = s.start) : StartMove s.start.st s.start.fail t.start.st t.start.fail := by
  rw [h]
  exact .inl ⟨rfl, rfl⟩

/-- Of the start registers the accepted features alone may have changed. -/
def FeaturesOnly (s t : State) : Prop := ∃ f, t.start = { s.start with featAccept := f }

theorem featuresOnly_of_eq {s t : State} (h : t.start = s.start) : FeaturesOnly s t := ⟨s.start.featAccept, h⟩

theorem featuresOnly_ite {s a b : State} {p : Prop} [Decidable p] (ha : FeaturesOnly s a) (hb : FeaturesOnly s b) :
    FeaturesOnly s (if p then a else b) := by
  split <;> assumption

theorem featuresOnly_writeReg (s : State) (off : Nat) (v : Word) : FeaturesOnly s (s.writeReg off v) := by
  unfold State.writeReg
  refine featuresOnly_ite ⟨_, rfl⟩ ?_
  iterate 12 refine featuresOnly_ite (featuresOnly_of_eq rfl) ?_
  exact featuresOnly_ite (featuresOnly_of_eq (start_clearLfault ..))
    (featuresOnly_ite (featuresOnly_of_eq (start_writeKick ..)) (featuresOnly_of_eq rfl))

theorem verify_error_range {s : State} {f : Nat} (h : s.verify = .error f) : 1 ≤ f ∧ f ≤ 4 := by
  unfold State.verify at h
  dsimp only at h
  repeat' split at h
  all_goals cases h
  all_goals decide

/-- The steps of start make the transitions of the table. -/
theorem startMove_exec (i : Instr) (s t : State) (h : exec i s = .next t) : StartMove s.start.st s.start.fail t.start.st t.start.fail := by
  cases hm : movesStart i with
  | false => exact startMove_of_eq ((keepsStart_exec i s hm).kept t h)
  | true =>
    cases i with
    | moduleReset =>
      cases h
      exact .inr (.inl ⟨rfl, rfl⟩)
    | selfTestDone =>
      cases h
      split
      · next hs => exact .inr (.inr (.inl ⟨hs, rfl, rfl⟩))
      · exact .inl ⟨rfl, rfl⟩
    | imageLen v =>
      change execImageLen v s = _ at h
      unfold execImageLen at h
      split at h
      · next hs =>
        cases h
        exact .inr (.inr (.inr (.inl ⟨hs, rfl, rfl⟩)))
      · cases h
        exact .inl ⟨rfl, rfl⟩
    | verifyDone =>
      change execVerifyDone s = _ at h
      unfold execVerifyDone at h
      split at h
      · next hs =>
        refine .inr (.inr (.inr (.inr (.inl ⟨hs, ?_⟩))))
        split at h
        · next f hf =>
          cases h
          exact .inr ⟨rfl, verify_error_range hf⟩
        · cases h
          exact .inl ⟨rfl, rfl⟩
      · cases h
        exact .inl ⟨rfl, rfl⟩
    | startGo v =>
      change execStartGo v s = _ at h
      unfold execStartGo at h
      split at h
      · next hs =>
        simp only [Bool.and_eq_true, beq_iff_eq] at hs
        refine .inr (.inr (.inr (.inr (.inr ⟨hs.2, ?_⟩))))
        cases h
        split
        · exact .inl ⟨rfl, rfl⟩
        · exact .inr ⟨rfl, rfl⟩
      · cases h
        exact .inl ⟨rfl, rfl⟩
    | registerWrite off v =>
      change execRegisterWrite off v s = _ at h
      cases h
      split
      · obtain ⟨f, hf⟩ := featuresOnly_writeReg s off v
        rw [hf]
        exact .inl ⟨rfl, rfl⟩
      · exact .inl ⟨rfl, rfl⟩
    | _ => cases hm

/-- Settles O60: by the instruction of the step; what passes before it leaves the start registers alone. -/
theorem startMovesByTable : Obligations.StartMovesByTable := by
  intro s t h
  unfold step at h
  split at h
  · split at h
    · cases h
      exact startMove_of_eq (start_illegal ..)
    · split at h
      · exact startMove_exec _ s t h
      · cases h
        exact startMove_of_eq (start_illegal ..)
  · have hpast : (s.nextDue.2.2.elapse s.nextDue.1).start = s.start := (start_elapse ..).trans (start_nextDue s)
    dsimp only at h
    split at h
    · have hmove := startMove_exec _ _ t h
      rwa [hpast] at hmove
    · cases h
      exact startMove_of_eq hpast

end Sys2Proof.Claims
end
